-- ==== Sys2Proof/Word.lean ====
section
/-! DEFINITION. The word types of the KS960 and the plainest arithmetic on them (spec R2, R3). -/
namespace Sys2Proof

/-- One byte of memory (R2). -/
abbrev Byte := BitVec 8
/-- One 32-bit register word (R27) and one instruction word (R19). -/
abbrev Word := BitVec 32
/-- A 64-bit operand: a register pair (R28) or a program counter (R209 forms targets mod 2^64). -/
abbrev DWord := BitVec 64

/-- A sparse table: entries in strictly rising key order. A key with no entry has the table's default. -/
abbrev Tab (α : Type) := List (Nat × α)

/-- The entry at a key, when the table lists one. -/
def Tab.get? {α : Type} : Tab α → Nat → Option α
  | [], _ => none
  | (k, v) :: t, n => if k = n then some v else if n < k then none else Tab.get? t n

/-- Insert or replace the entry at a key, keeping the keys strictly rising. -/
def Tab.put {α : Type} : Tab α → Nat → α → Tab α
  | [], n, x => [(n, x)]
  | (k, v) :: t, n, x =>
    if k = n then (n, x) :: t else if n < k then (n, x) :: (k, v) :: t else (k, v) :: Tab.put t n x

/-- Remove the entry at a key. -/
def Tab.del {α : Type} : Tab α → Nat → Tab α
  | [], _ => []
  | (k, v) :: t, n => if k = n then t else if n < k then (k, v) :: t else (k, v) :: Tab.del t n

/-- Remove every entry whose key lies in `[lo, lo + len)`. -/
def Tab.clear {α : Type} (t : Tab α) (lo len : Nat) : Tab α :=
  t.filter fun e => decide (e.1 < lo) || decide (lo + len ≤ e.1)

/-- Read a table whose unlisted keys hold zero. -/
def Tab.rd {w : Nat} (t : Tab (BitVec w)) (n : Nat) : BitVec w := (t.get? n).getD 0

/-- Write a table whose unlisted keys hold zero: a zero is stored by listing nothing. -/
def Tab.wr {w : Nat} (t : Tab (BitVec w)) (n : Nat) (x : BitVec w) : Tab (BitVec w) :=
  if x = 0 then t.del n else t.put n x

/-- The keys of a table are strictly rising. -/
def Tab.sorted {α : Type} : Tab α → Bool
  | [] => true
  | [_] => true
  | (a, _) :: (b, y) :: t => decide (a < b) && Tab.sorted ((b, y) :: t)

/-- No entry of the table holds the default zero. -/
def Tab.noZero {w : Nat} (t : Tab (BitVec w)) : Bool := t.all fun e => decide (e.2 ≠ 0)

/-- Bit `i` of a natural number. -/
def bitAt (x i : Nat) : Bool := (x >>> i) % 2 == 1

/-- Bits `[hi:lo]` of a natural number (R2). -/
def bits (x hi lo : Nat) : Nat := (x >>> lo) % 2 ^ (hi + 1 - lo)

/-- `n` bytes, lowest address first, read as one little-endian number (R2). -/
def leNat : List Byte → Nat
  | [] => 0
  | b :: t => b.toNat + 256 * leNat t

/-- The `n` low bytes of a number, lowest address first (R2). -/
def leBytes : Nat → Nat → List Byte
  | 0, _ => []
  | n + 1, x => BitVec.ofNat 8 x :: leBytes n (x / 256)

/-- The numbers `lo, lo + 1, …, lo + n - 1`. -/
def upTo (lo : Nat) : Nat → List Nat
  | 0 => []
  | n + 1 => lo :: upTo (lo + 1) n

end Sys2Proof
end

