-- ==== Sys2Proof/Syntax.lean ====
section
/-!
DEFINITION. The instructions and events of the KS960: one constructor of `Instr` for each row of spec/opcode_table.json, in
the table's order but for the events that come only from outside the module, which stand last. A word row carries the fields of its encoding (spec/02_instruction_word.md, Tables 2-1, 2-8, 2-10); an
event row (a step of the device that no fibre's word is: spec/95_what_each_step_holds.md) carries the data that says which
occurrence of the event takes place.
-/
namespace Sys2Proof

/-- The guard of a word: predicate pG, taken negated when `n` (R23). -/
structure Guard where
  n : Bool
  g : BitVec 3
  deriving DecidableEq, Repr

/-- The uniform claim and the guard of a word (R23, R25). -/
structure Qual where
  u : Bool
  n : Bool
  g : BitVec 3
  deriving DecidableEq, Repr

/-- The fields of an `opx` hint (Table 2-6). Bits [4:2] are zero in every `opx` row; a word that sets them is no `opx`. -/
structure OpxHint where
  src3 : BitVec 6
  mode : BitVec 3
  sat : Bool
  comm : Bool
  scope : BitVec 2
  path : BitVec 2
  pxD : Bool
  pxA : Bool
  pxB : Bool
  pxS3 : Bool
  itype : BitVec 2
  deriving DecidableEq, Repr

/-- The shape of the combining of a collective's partial terms (R311 leaves the order open): which participants combine first. -/
inductive CTree where
  | leaf (rank : Nat)
  | node (l r : CTree)
  deriving DecidableEq, Repr

/-- What a background scrub finds in a line (R465, R466), or an uncorrectable error elsewhere: in a register of a lane, a scratchpad
byte, a tile, or the translation entry of a page. -/
inductive SoftError where
  | none
  | singleBit
  | uncorrectable
  | register (lane reg : Nat)
  | scratchpad (byte : Nat)
  | tile (tile : Nat)
  | entry (dom va : Nat)
  deriving DecidableEq, Repr

/-- What the sideband bus can read (R468). -/
inductive SidebandItem where
  | temperature (die : Nat)
  | power (share : Nat)
  | dieState (die : Nat)
  | sliceState (die slice : Nat)
  | recordCounter
  deriving DecidableEq, Repr

/-- A message on its way to a slot (R392): one that a core of this module sent, or one that comes over the Poldom links from a core of
another module (`source` is its module times 256 plus its core, R391) for a domain's slot. -/
inductive MessageRef where
  | sent (id : Nat)
  | linked (source dom core : Nat) (tag : Word) (payload : List Byte)
  deriving DecidableEq, Repr

/-- What reaches a home slice (R344): a request in flight, or an L1 copy that leaves its L1 of its own accord. -/
inductive HomeAccess where
  | request (id : Nat)
  /-- A dirty L1 copy, by its key. -/
  | writeBack (key : Nat)
  /-- An L1 copy that leaves, by its key. -/
  | evict (key : Nat)
  /-- A slice line that leaves, by its key. -/
  | evictSlice (key : Nat)
  /-- A slice that takes a replica of a sealed line. -/
  | replicate (slice line tag : Nat)
  deriving DecidableEq, Repr

/-- The instructions and events, one constructor for each row of the opcode table. -/
inductive Instr where
  /-- NOP (R32): No operation; occupies one issue slot and changes no state. -/
  | nop
  /-- TRAP (R422): Each executing lane raises TRAPINSN 0x150 with the immediate code as subcode. -/
  | trap (gd : Guard) (imm : BitVec 9)
  /-- DBG (R423): Raises DEBUG 0x160 while debug is enabled for the function, otherwise acts as nop. -/
  | dbg (gd : Guard) (imm : BitVec 9)
  /-- RDSR (R33): Reads a special register into vD in each executing lane. -/
  | rdsr (q : Qual) (d : BitVec 6) (imm : BitVec 9)
  /-- WRSR (R33): Writes FPSTAT trap enables and clears the named sticky flags from vD. -/
  | wrsr (q : Qual) (d : BitVec 6) (imm : BitVec 9)
  /-- CLK (R34): Writes a 64-bit core ac count or module time in ns into a register pair. -/
  | clk (q : Qual) (d : BitVec 6) (imm : BitVec 9)
  /-- YIELD (R214): The group takes no part in its partition's next vote in which another group is ready. -/
  | yield
  /-- ERET (R424): Resumes, skips or abandons the faulted continuation held in a fault-area slot, then ends the lane. -/
  | eret (gd : Guard) (d : BitVec 6) (imm : BitVec 9)
  /-- RECFG (R122): The steward submits a reconfiguration list from the device and receives status, index and reason. -/
  | recfg (q : Qual) (d : BitVec 6)
  /-- BRA (R205): Branches the executing lanes to the J-format target. -/
  | bra (q : Qual) (off : BitVec 21)
  /-- CALL (R206): Writes the return address to the last register pair of the window and branches. -/
  | call (q : Qual) (off : BitVec 21)
  /-- DIVR (R207): Opens a divergence region with the executing lanes as members and the target as reconvergence PC. -/
  | divr (gd : Guard) (off : BitVec 21)
  /-- BRK (R208): Removes each lane from its n innermost regions and branches to the target. -/
  | brk (c : BitVec 5) (off : BitVec 21)
  /-- BRX (R209): Transfers to a register-pair base plus four times an index register. -/
  | brx (q : Qual) (a b : BitVec 6)
  /-- RET (R209): Transfers to the address held in a register pair. -/
  | ret (q : Qual) (a : BitVec 6)
  /-- JOIN (R210): Each executing lane arrives at its innermost divergence entry and is held until the entry completes. -/
  | join (gd : Guard)
  /-- EXIT (R211): Ends the executing lanes at once without a release. -/
  | exit (gd : Guard)
  /-- CDECL (R212): Declares the executing lanes as the set of a convergence register. -/
  | cdecl (q : Qual) (c : BitVec 4)
  /-- BAR (R213): Releases and arrives at barrier k of the given scope, holding lanes until all parties arrive, then acquires. -/
  | bar (gd : Guard) (k : BitVec 4)
  /-- FEND (R186): Releases each executing lane's earlier writes at device scope and ends the lane. -/
  | fend (gd : Guard)
  /-- WAKE (R187): Flush mode: launches the bins keyed by the entry address on the covered dies as on timer expiry. -/
  | wake (q : Qual) (a : BitVec 6)
  /-- WAKE_TMR (R187): Timer mode: sets the domain's bin time on the covered dies. -/
  | wakeTmr (q : Qual) (b : BitVec 6)
  /-- SPAWN (R182): Releases at its scope and inserts a new fibre with four argument words into a bin, returning a status. -/
  | spawn (q : Qual) (d a b : BitVec 6)
  /-- PARK (R183): Reserves a waiter, releases, writes a continuation record and ends the lane as a waiter of a tag. -/
  | park (gd : Guard) (d a b : BitVec 6)
  /-- RDY (R184): Releases at its scope and posts a count to a tag at its home die, returning a status. -/
  | rdy (q : Qual) (d a b : BitVec 6)
  /-- AWAIT (R185): Takes a count from a tag or waits in place up to a time limit, writing a predicate. -/
  | await (q : Qual) (d a b : BitVec 6)
  /-- GATE (R138): Group act that reads a gate descriptor and enters target-domain code with v0-v7 as arguments. -/
  | gate (gd : Guard) (d : BitVec 6) (imm : BitVec 9)
  /-- GRET (R141): Group act that releases in the target domain and returns to the caller with v0-v7 and the status predicate set. -/
  | gret (gd : Guard)
  /-- IADD (R236): Integer add of two registers, wrapped or saturated to the itype. -/
  | iadd (q : Qual) (d a b : BitVec 6)
  /-- ISUB (R236): Integer subtract of two registers. -/
  | isub (q : Qual) (d a b : BitVec 6)
  /-- IMUL (R236): Integer multiply of two registers, low part. -/
  | imul (q : Qual) (d a b : BitVec 6)
  /-- IMULH (R236): High w bits of the integer product of two registers. -/
  | imulh (q : Qual) (d a b : BitVec 6)
  /-- IMIN (R236): Integer minimum of two registers. -/
  | imin (q : Qual) (d a b : BitVec 6)
  /-- IMAX (R236): Integer maximum of two registers. -/
  | imax (q : Qual) (d a b : BitVec 6)
  /-- IABS (R236): Integer absolute value of a register. -/
  | iabs (q : Qual) (d a : BitVec 6)
  /-- INEG (R236): Integer negation of a register. -/
  | ineg (q : Qual) (d a : BitVec 6)
  /-- IADD_IMM (R236): Integer add of vD and an immediate. -/
  | iaddImm (q : Qual) (d : BitVec 6) (imm : BitVec 9)
  /-- ISUB_IMM (R236): Integer subtract of an immediate from vD. -/
  | isubImm (q : Qual) (d : BitVec 6) (imm : BitVec 9)
  /-- IMUL_IMM (R236): Integer multiply of vD by an immediate. -/
  | imulImm (q : Qual) (d : BitVec 6) (imm : BitVec 9)
  /-- IMULH_IMM (R236): High part of vD times an immediate. -/
  | imulhImm (q : Qual) (d : BitVec 6) (imm : BitVec 9)
  /-- IMIN_IMM (R236): Minimum of vD and an immediate. -/
  | iminImm (q : Qual) (d : BitVec 6) (imm : BitVec 9)
  /-- IMAX_IMM (R236): Maximum of vD and an immediate. -/
  | imaxImm (q : Qual) (d : BitVec 6) (imm : BitVec 9)
  /-- IABS_IMM (R236): Absolute value of an immediate into vD. -/
  | iabsImm (q : Qual) (d : BitVec 6) (imm : BitVec 9)
  /-- INEG_IMM (R236): Negation of an immediate into vD. -/
  | inegImm (q : Qual) (d : BitVec 6) (imm : BitVec 9)
  /-- AND (R237): Bitwise AND of two registers. -/
  | andV (q : Qual) (d a b : BitVec 6)
  /-- OR (R237): Bitwise OR of two registers. -/
  | orV (q : Qual) (d a b : BitVec 6)
  /-- XOR (R237): Bitwise XOR of two registers. -/
  | xorV (q : Qual) (d a b : BitVec 6)
  /-- NOT (R237): Bitwise NOT of a register. -/
  | notV (q : Qual) (d a : BitVec 6)
  /-- SEL (R237): Selects between two registers by a predicate named through opx. -/
  | sel (q : Qual) (d a b : BitVec 6)
  /-- POPC (R237): Counts the one bits of a register. -/
  | popc (q : Qual) (d a : BitVec 6)
  /-- CLZ (R237): Counts leading zero bits of a register. -/
  | clz (q : Qual) (d a : BitVec 6)
  /-- BREV (R237): Reverses the bit order of a register. -/
  | brev (q : Qual) (d a : BitVec 6)
  /-- AND_IMM (R237): Bitwise AND of vD and an immediate. -/
  | andImm (q : Qual) (d : BitVec 6) (imm : BitVec 9)
  /-- OR_IMM (R237): Bitwise OR of vD and an immediate. -/
  | orImm (q : Qual) (d : BitVec 6) (imm : BitVec 9)
  /-- XOR_IMM (R237): Bitwise XOR of vD and an immediate. -/
  | xorImm (q : Qual) (d : BitVec 6) (imm : BitVec 9)
  /-- NOT_IMM (R237): Bitwise NOT of an immediate into vD. -/
  | notImm (q : Qual) (d : BitVec 6) (imm : BitVec 9)
  /-- SEL_IMM (R237): Selects between vD and an immediate by a predicate. -/
  | selImm (q : Qual) (d : BitVec 6) (imm : BitVec 9)
  /-- POPC_IMM (R237): Counts the one bits of an immediate. -/
  | popcImm (q : Qual) (d : BitVec 6) (imm : BitVec 9)
  /-- CLZ_IMM (R237): Counts leading zeros of an immediate. -/
  | clzImm (q : Qual) (d : BitVec 6) (imm : BitVec 9)
  /-- BREV_IMM (R237): Reverses the bits of an immediate. -/
  | brevImm (q : Qual) (d : BitVec 6) (imm : BitVec 9)
  /-- SHL (R238): Shifts a register left. -/
  | shl (q : Qual) (d a b : BitVec 6)
  /-- SHR (R238): Shifts a register right with zero fill. -/
  | shr (q : Qual) (d a b : BitVec 6)
  /-- SAR (R238): Shifts a register right with sign fill. -/
  | sar (q : Qual) (d a b : BitVec 6)
  /-- ROT (R238): Rotates a register left. -/
  | rot (q : Qual) (d a b : BitVec 6)
  /-- BFE (R238): Extracts a bit field. -/
  | bfe (q : Qual) (d a b : BitVec 6)
  /-- BFI (R238): Inserts a bit field into vD. -/
  | bfi (q : Qual) (d a b : BitVec 6)
  /-- LEA (R239): Adds an index register to a 64-bit address pair. -/
  | lea (q : Qual) (d a b : BitVec 6)
  /-- IMAD (R238): Integer multiply-add with the addend from src3 or vD. -/
  | imad (q : Qual) (d a b : BitVec 6)
  /-- SHL_IMM (R238): Shifts vD left by an immediate. -/
  | shlImm (q : Qual) (d : BitVec 6) (imm : BitVec 9)
  /-- SHR_IMM (R238): Shifts vD right by an immediate with zero fill. -/
  | shrImm (q : Qual) (d : BitVec 6) (imm : BitVec 9)
  /-- SAR_IMM (R238): Shifts vD right by an immediate with sign fill. -/
  | sarImm (q : Qual) (d : BitVec 6) (imm : BitVec 9)
  /-- ROT_IMM (R238): Rotates vD left by an immediate. -/
  | rotImm (q : Qual) (d : BitVec 6) (imm : BitVec 9)
  /-- BFE_IMM (R238): Extracts a bit field of vD described by an immediate. -/
  | bfeImm (q : Qual) (d : BitVec 6) (imm : BitVec 9)
  /-- BFI_IMM (R238): Inserts a bit field with immediate operand. -/
  | bfiImm (q : Qual) (d : BitVec 6) (imm : BitVec 9)
  /-- LEA_IMM (R239): Adds an immediate to the 64-bit address pair at vD. -/
  | leaImm (q : Qual) (d : BitVec 6) (imm : BitVec 9)
  /-- IMAD_IMM (R238): Integer multiply-add with an immediate operand. -/
  | imadImm (q : Qual) (d : BitVec 6) (imm : BitVec 9)
  /-- ICMP (R240): Compares two integer registers under a condition and writes a predicate. -/
  | icmp (q : Qual) (d a b : BitVec 6) (c : BitVec 3)
  /-- MOV (R241): Copies 32 bits between registers. -/
  | mov (q : Qual) (d a : BitVec 6)
  /-- MOVI (R241): Writes a 12-bit or imx-extended 32-bit immediate into vD. -/
  | movi (q : Qual) (d : BitVec 6) (imm : BitVec 12)
  /-- SHFL (R242): Reads vA of another executing lane selected by a register. -/
  | shfl (gd : Guard) (d a b : BitVec 6)
  /-- VOTE (R243): Sets a predicate when all executing lanes hold the same value. -/
  | vote (gd : Guard) (d a : BitVec 6)
  /-- BALLOT (R243): Writes a lane mask of a predicate over the executing set. -/
  | ballot (gd : Guard) (d a : BitVec 6)
  /-- BCAST (R242): Broadcasts vA of an immediate lane to every executing lane. -/
  | bcast (gd : Guard) (d a b : BitVec 6)
  /-- REDG (R244): Reduces a register over the executing set by an operation. -/
  | redg (gd : Guard) (d a b : BitVec 6)
  /-- LANE (R245): Writes lane index, rank or executing-lane count. -/
  | lane (gd : Guard) (d b : BitVec 6)
  /-- FADD (R246): FP32 add with one rounding. -/
  | fadd (q : Qual) (d a b : BitVec 6)
  /-- FMUL (R246): FP32 multiply with one rounding. -/
  | fmul (q : Qual) (d a b : BitVec 6)
  /-- FMIN (R247): FP32 minimum. -/
  | fmin (q : Qual) (d a b : BitVec 6)
  /-- FMAX (R247): FP32 maximum. -/
  | fmax (q : Qual) (d a b : BitVec 6)
  /-- FABS (R248): Clears the sign bit. -/
  | fabs (q : Qual) (d a : BitVec 6)
  /-- FNEG (R248): Inverts the sign bit. -/
  | fneg (q : Qual) (d a : BitVec 6)
  /-- FCLASS (R248): Writes a one-hot class mask of an FP32 value. -/
  | fclass (q : Qual) (d a : BitVec 6)
  /-- FSIGN (R248): Combines the magnitude of vA with the sign of vB. -/
  | fsign (q : Qual) (d a b : BitVec 6)
  /-- FFMA (R249): FP32 fused multiply-add with optional negations and one rounding. -/
  | ffma (q : Qual) (d a b : BitVec 6) (na np : Bool)
  /-- FRCP (R251): FP32 reciprocal; sets sl7. -/
  | frcp (q : Qual) (d a : BitVec 6)
  /-- FRSQ (R251): FP32 reciprocal square root; sets sl7. -/
  | frsq (q : Qual) (d a : BitVec 6)
  /-- FSQRT (R251): Correctly rounded FP32 square root; sets sl7. -/
  | fsqrt (q : Qual) (d a : BitVec 6)
  /-- FEX2 (R251): FP32 base-2 exponential; sets sl7. -/
  | fex2 (q : Qual) (d a : BitVec 6)
  /-- FLG2 (R251): FP32 base-2 logarithm; sets sl7. -/
  | flg2 (q : Qual) (d a : BitVec 6)
  /-- FSIN (R251): FP32 sine; sets sl7. -/
  | fsin (q : Qual) (d a : BitVec 6)
  /-- FCOS (R251): FP32 cosine; sets sl7. -/
  | fcos (q : Qual) (d a : BitVec 6)
  /-- FCMP (R252): Compares two FP32 registers under a condition and writes a predicate. -/
  | fcmp (q : Qual) (d a b : BitVec 6) (c : BitVec 3)
  /-- DADD (R253): FP64 add. -/
  | dadd (q : Qual) (d a b : BitVec 6)
  /-- DMUL (R253): FP64 multiply. -/
  | dmul (q : Qual) (d a b : BitVec 6)
  /-- DFMA (R253): FP64 fused multiply-add. -/
  | dfma (q : Qual) (d a b : BitVec 6)
  /-- DMIN (R253): FP64 minimum. -/
  | dmin (q : Qual) (d a b : BitVec 6)
  /-- DMAX (R253): FP64 maximum. -/
  | dmax (q : Qual) (d a b : BitVec 6)
  /-- DCMP (R254): Compares two FP64 pairs and writes predicate p0-p7. -/
  | dcmp (q : Qual) (c p : BitVec 3) (a b : BitVec 6)
  /-- HADD2 (R255): Packed FP16 add. -/
  | hadd2 (q : Qual) (d a b : BitVec 6)
  /-- HMUL2 (R255): Packed FP16 multiply. -/
  | hmul2 (q : Qual) (d a b : BitVec 6)
  /-- HFMA2 (R255): Packed FP16 fused multiply-add. -/
  | hfma2 (q : Qual) (d a b : BitVec 6)
  /-- BFADD2 (R255): Packed BF16 add. -/
  | bfadd2 (q : Qual) (d a b : BitVec 6)
  /-- BFMUL2 (R255): Packed BF16 multiply. -/
  | bfmul2 (q : Qual) (d a b : BitVec 6)
  /-- BFFMA2 (R255): Packed BF16 fused multiply-add. -/
  | bffma2 (q : Qual) (d a b : BitVec 6)
  /-- CVT (R256): Converts an element between formats into its place in vD. -/
  | cvt (q : Qual) (d a : BitVec 6) (dst src : BitVec 4) (hi : Bool)
  /-- BHGET (R257): Writes the FP32 value of a block header's E8M0 scale. -/
  | bhget (q : Qual) (d a : BitVec 6)
  /-- BHSET (R258): Computes a block header scale from an amax value. -/
  | bhset (q : Qual) (d a b : BitVec 6)
  /-- AMAXR (R259): Greatest magnitude over the executing set; sets sl7. -/
  | amaxr (gd : Guard) (d a : BitVec 6)
  /-- PACK (R260): Quantises four FP32 values under a header into narrow elements. -/
  | pack (q : Qual) (d a b : BitVec 6)
  /-- UNPACK (R261): Decodes four narrow elements under a header into FP32. -/
  | unpack (q : Qual) (d a b : BitVec 6)
  /-- PAND (R262): Predicate AND. -/
  | pand (q : Qual) (d a b : BitVec 6)
  /-- POR (R262): Predicate OR. -/
  | por (q : Qual) (d a b : BitVec 6)
  /-- PXOR (R262): Predicate XOR. -/
  | pxor (q : Qual) (d a b : BitVec 6)
  /-- PNOT (R262): Predicate NOT. -/
  | pnot (q : Qual) (d a : BitVec 6)
  /-- PMOV_TO_V (R263): Moves 32 predicates of a quarter into a vector register. -/
  | pmovToV (q : Qual) (d : BitVec 6) (k : BitVec 2)
  /-- PMOV_TO_P (R263): Moves a vector register into 32 predicates of a quarter. -/
  | pmovToP (q : Qual) (a : BitVec 6) (k : BitVec 2)
  /-- PCNT (R264): Counts executing lanes with a predicate set. -/
  | pcnt (q : Qual) (d a : BitVec 6)
  /-- PANY (R264): Sets a predicate if any executing lane has the predicate. -/
  | pany (q : Qual) (d a : BitVec 6)
  /-- PALL (R264): Sets a predicate if every executing lane has the predicate. -/
  | pall (q : Qual) (d a : BitVec 6)
  /-- LD (R289): Loads on the load-store path, or from scratchpad, with optional acquire and promotion. -/
  | ld (q : Qual) (d a : BitVec 6) (slot : BitVec 3) (k : BitVec 2) (f : BitVec 4)
  /-- ST (R293): Stores into the pair's load-store copy or scratchpad, with optional release written through. -/
  | st (q : Qual) (d a : BitVec 6) (slot : BitVec 3) (k : BitVec 2) (f : BitVec 4)
  /-- LDC (R289): Loads on the constant path. -/
  | ldc (q : Qual) (d a : BitVec 6) (slot : BitVec 3) (k : BitVec 2) (f : BitVec 4)
  /-- LDT (R290): Loads data or a block header on the tile-layout path. -/
  | ldt (q : Qual) (d a : BitVec 6) (slot : BitVec 3) (k : BitVec 2) (f : BitVec 4)
  /-- LDNC (R289): Loads at the home slice, bypassing L1. -/
  | ldnc (q : Qual) (d a : BitVec 6) (slot : BitVec 3) (k : BitVec 2) (f : BitVec 3)
  /-- STNC (R293): Stores by merging at the home slice, bypassing L1. -/
  | stnc (q : Qual) (d a : BitVec 6) (slot : BitVec 3) (k : BitVec 2) (f : BitVec 3)
  /-- FENCE (R295): Orders a lane's accesses with release and acquire parts at a scope, optionally promoting. -/
  | fence (gd : Guard) (a : BitVec 6) (slot : BitVec 3) (k ord : BitVec 2)
  /-- PFENCE (R296): Joins the named paths of one pair by write-back and clearing fresh bits. -/
  | pfence (gd : Guard) (p : BitVec 4) (slot : BitVec 3)
  /-- WAITA (R297): Holds the lane until a scratchpad word meets a condition, then acquires. -/
  | waita (q : Qual) (d a : BitVec 6) (slot : BitVec 3) (c : BitVec 2)
  /-- PREF_L1 (R294): Prefetches a line into the pair's L1 on a path. -/
  | prefL1 (q : Qual) (a : BitVec 6) (slot : BitVec 3) (k : BitVec 2)
  /-- PREF_HOME (R294): Prefetches a line into its home slice. -/
  | prefHome (q : Qual) (a : BitVec 6) (slot : BitVec 3) (k : BitVec 2)
  /-- ATOM (R362): Atomic read-modify-write executed at the home, returning the old value. -/
  | atom (q : Qual) (d a : BitVec 6) (slot : BitVec 3) (k : BitVec 2) (f : BitVec 4)
  /-- RED (R362): Atomic reduction executed at the home with no returned value. -/
  | red (q : Qual) (d a : BitVec 6) (slot : BitVec 3) (k : BitVec 2) (f : BitVec 4)
  /-- TXB (R372): Releases and opens a lane transaction with empty read and write sets. -/
  | txb (gd : Guard)
  /-- TXE (R375): Resolves conflicts among lanes and validates and commits each surviving transaction. -/
  | txe (gd : Guard) (d : BitVec 6) (slot : BitVec 3)
  /-- TXA (R378): Aborts the lane's open transaction with a user code. -/
  | txa (gd : Guard) (d : BitVec 6)
  /-- TXQ (R379): Writes the status word of the lane's most recent transaction. -/
  | txq (gd : Guard) (d : BitVec 6) (slot : BitVec 3)
  /-- ANEW (R151): Carves a child arena of a given quota from a live parent. -/
  | anew (q : Qual) (d : BitVec 6) (slot : BitVec 3)
  /-- ALLOC (R152): Bump-allocates a block within an arena. -/
  | alloc (q : Qual) (d : BitVec 6) (slot : BitVec 3)
  /-- ASEAL (R153): Releases and requests that an arena and its descendants be sealed read-only. -/
  | aseal (q : Qual) (d : BitVec 6) (slot : BitVec 3)
  /-- ADROP (R154): Drops an arena and its descendants without write-back, or refuses while engines name it. -/
  | adrop (q : Qual) (d a : BitVec 6) (slot : BitVec 3)
  /-- AQRY (R155): Reports an arena's parent, depth, state, children and remaining quota. -/
  | aqry (q : Qual) (d : BitVec 6) (slot : BitVec 3)
  /-- RINIT (R300): Initialises a stage ring with N slots. -/
  | rinit (q : Qual) (d : BitVec 6)
  /-- RSV (R300): Waits for and reserves a free ring slot with core-scope acquire. -/
  | rsv (q : Qual) (d : BitVec 6)
  /-- RFILL (R300): Marks a reserved ring slot full with core-scope release. -/
  | rfill (q : Qual) (d : BitVec 6)
  /-- RTAKE (R300): Waits for and takes a full ring slot with core-scope acquire. -/
  | rtake (q : Qual) (d : BitVec 6)
  /-- RFREE (R300): Frees a taken ring slot with core-scope release. -/
  | rfree (q : Qual) (d : BitVec 6)
  /-- CPY (R307): Issues an engine copy of a range with a header mode. -/
  | cpy (q : Qual) (d a : BitVec 6) (slot : BitVec 3) (k : BitVec 2) (cw tg : Bool)
  /-- CPYG (R308): Issues an engine gather by a scratchpad index list. -/
  | cpyg (q : Qual) (d a : BitVec 6) (slot : BitVec 3) (k : BitVec 2) (cw tg : Bool)
  /-- CPYS (R308): Issues an engine scatter by a scratchpad index list. -/
  | cpys (q : Qual) (d a : BitVec 6) (slot : BitVec 3) (k : BitVec 2) (cw tg : Bool)
  /-- COLL (R309): Joins a collective operation as one participant. -/
  | coll (q : Qual) (d a : BitVec 6) (slot : BitVec 3) (k : BitVec 2) (cw tg : Bool)
  /-- MSEND (R393): Releases, reads a payload and sends a message to a core of the domain. -/
  | msend (q : Qual) (d a : BitVec 6) (slot : BitVec 3) (k : BitVec 2)
  /-- MRECV (R394): Posts a receive or takes a matching queued arrival. -/
  | mrecv (q : Qual) (d a : BitVec 6) (slot : BitVec 3) (k : BitVec 2)
  /-- MPROBE (R395): Returns the word form of the oldest matching queued arrival without consuming it. -/
  | mprobe (q : Qual) (d a : BitVec 6) (slot : BitVec 3) (k : BitVec 2)
  /-- MMA (R328): Signs a convergence register and multiplies fragments into an accumulator tile. -/
  | mma (c : BitVec 4) (slot : BitVec 3) (a b m : BitVec 6) (t : Bool)
  /-- MMAZ (R328): As mma, starting the tile from zero. -/
  | mmaz (c : BitVec 4) (slot : BitVec 3) (a b m : BitVec 6) (t : Bool)
  /-- MMAS (R331): Sliced FP32 or FP64 product built from INT8 passes, resumable by pass. -/
  | mmas (c : BitVec 4) (slot : BitVec 3) (a b m : BitVec 6) (t : Bool)
  /-- MLD (R334): Loads a tile or tile pair from memory. -/
  | mld (c : BitVec 4) (slot : BitVec 3) (a m : BitVec 6) (t : Bool)
  /-- MST (R334): Stores a tile or tile pair to memory. -/
  | mst (c : BitVec 4) (slot : BitVec 3) (a m : BitVec 6) (t : Bool)
  /-- MZERO (R335): Zeroes the unmasked elements of a tile or pair. -/
  | mzero (c : BitVec 4) (slot : BitVec 3) (m : BitVec 6) (t : Bool)
  /-- MCVT (R336): Converts an FP32 tile into a register fragment. -/
  | mcvt (c : BitVec 4) (slot : BitVec 3) (a m : BitVec 6)
  /-- MAMAX (R337): Writes the greatest magnitude of a tile's unmasked elements. -/
  | mamax (c : BitVec 4) (slot : BitVec 3) (a m : BitVec 6) (t : Bool)
  /-- SCHED (R39): Hint giving stall counts, slot waits and yield for the next covered instructions. -/
  | sched (s0 s1 s2 : BitVec 4) (wait : BitVec 8) (yld : Bool)
  /-- IMX (R40): Hint extending the immediate, offset or target of its target word. -/
  | imx (payload : BitVec 24)
  /-- OPX (R41): Hint giving extra operand fields to its target word. -/
  | opx (x : OpxHint)
  /-- PRE (R43): Hint marking a pre-emption point with live quads and a scratchpad range index. -/
  | pre (live : BitVec 16) (ranges : BitVec 8)
  /-- COMPLETION_RECORD (R97): Jasper writes a completion record once the queue has room, then any MSI-X message. -/
  | completionRecord (fn : Nat)
  /-- MOD_LOAD (R89): Checks and loads a module image into loader arenas and registers its kernel headers. -/
  | modLoad (fn slot : Nat)
  /-- GRAPH_LOAD (R91): Checks a graph block and makes the graph resident. -/
  | graphLoad (fn slot : Nat)
  /-- GRAPH_KICK (R102): Starts a run of a resident graph and writes an acceptance record. -/
  | graphKick (fn slot : Nat)
  /-- GRAPH_STOP_DRAIN (R103): Stops a run so that no further node starts while running nodes finish. -/
  | graphStopDrain (fn slot : Nat)
  /-- GRAPH_STOP_ABORT (R103): Stops a run and halts its running grids without save. -/
  | graphStopAbort (fn slot : Nat)
  /-- MEM_MAP (R469): Backs a virtual range with far or host pages owned by an arena. -/
  | memMap (fn slot : Nat)
  /-- MEM_UNMAP (R104): Unmaps a range after invalidating translations and draining accesses. -/
  | memUnmap (fn slot : Nat)
  /-- ARENA_ROOT (R470): Gives a domain a root arena or replaces its root. -/
  | arenaRoot (fn slot : Nat)
  /-- TRACE_SET (R123): Points a function's trace buffer at host memory with an event mask. -/
  | traceSet (fn slot : Nat)
  /-- VF_HALT (R101): Pre-empts and saves every group of a function's domain and stops its walker. -/
  | vfHalt (fn slot : Nat)
  /-- VF_RESUME (R101): Restores the halted groups of a function and resumes its walker. -/
  | vfResume (fn slot : Nat)
  /-- VF_QUERY (R101): Writes a 64-byte status block of a function to host memory. -/
  | vfQuery (fn slot : Nat)
  /-- CFG_COMMIT (R121): Checks and applies a reconfiguration list whole or not at all. -/
  | cfgCommit (fn slot : Nat)
  /-- RESET_VF (R105): Halts, drains and clears every resource of a function's domain. -/
  | resetVf (fn slot : Nat)
  /-- KERNEL_NODE_START (R92): The walker starts a kernel node and launches its grid. -/
  | kernelNodeStart (fn graph node : Nat)
  /-- COPY_NODE_START (R92): The walker starts a copy node on a copy engine. -/
  | copyNodeStart (fn graph node : Nat)
  /-- COPY_NODE_COMPLETE (R92): A copy node completes when its last byte is written, with a device-scope release. -/
  | copyNodeComplete (fn graph node : Nat)
  /-- CONDITION_NODE (R92): A condition node reads its word and starts one successor, skipping the others. -/
  | conditionNode (fn graph node : Nat)
  /-- WHILE_NODE (R92): A while node reads its word and starts an iteration of its body or completes. -/
  | whileNode (fn graph node : Nat)
  /-- WHILE_BODY_EXIT (R92): When a body's exit node resolves, the while node reads its word again. -/
  | whileBodyExit (fn graph node : Nat)
  /-- JOIN_NODE (R92): A join node starts and completes at once. -/
  | joinNode (fn graph node : Nat)
  /-- GRID_CLAIM (R108): A participating die with room claims a batch of team indices from the leader. -/
  | gridClaim (grid die count : Nat)
  /-- CLAIM_GRANT (R108): The leader answers a claim with consecutive team indices, mirrored to the deputy. -/
  | claimGrant (grid : Nat)
  /-- TEAM_PLACEMENT (R472): The dispatcher places a team once a core has room in the domain's partition. -/
  | teamPlacement (grid team core : Nat) (parts : List Nat)
  /-- INSTRUCTION_FETCH_FILL (R189): A fetched code line arrives and its lane set may issue, or faults at the word. -/
  | instructionFetchFill (gid pc : Nat)
  /-- INVERTED_BATCH_START (R193): A lane set's wait time reaches the fairness threshold and its group enters an inverted batch. -/
  | invertedBatchStart (gid : Nat)
  /-- INVERTED_BATCH_END (R193): An inverted batch ends after 32 issuing ac. -/
  | invertedBatchEnd (gid : Nat)
  /-- DEPENDENCY_SLOT_CLEAR (R30): A variable-latency result is written and its dependency slot clears. -/
  | dependencySlotClear (res : Nat)
  /-- MATRIX_OP_COMPLETE (R324): A matrix operation writes its last result, clearing its slot and releasing held lanes. -/
  | matrixOpComplete (op : Nat)
  /-- BIN_TIMER_EXPIRY (R173): A bin's timer expires and it launches a group of the fibres present. -/
  | binTimerExpiry (die bin : Nat)
  /-- BIN_GROUP_PLACEMENT (R173): A launched bin group is placed on a core of the unit set. -/
  | binGroupPlacement (die bin core part : Nat)
  /-- CONTINUATION_BIN_ENTRY (R174): A released continuation held for a blocked bin enters it when it has room. -/
  | continuationBinEntry (held : Nat)
  /-- TAG_POST_ARRIVAL (R177): A post reaches its tag's home entry, adds counts and releases waiters. -/
  | tagPostArrival (post : Nat)
  /-- PARK_REGISTRATION (R183): After its record merges, a parked continuation registers as a waiter of its tag. -/
  | parkRegistration (park : Nat)
  /-- AWAIT_TIMEOUT (R185): An await's time limit expires and it writes a false predicate. -/
  | awaitTimeout (gid lane : Nat)
  /-- ENGINE_OP_ACCEPT (R302): An engine operation obtains an entry, releases and registers its destinations. -/
  | engineOpAccept (op : Nat)
  /-- ENGINE_OP_COMPLETE (R303): An engine operation's last byte lands; it releases, writes the completion word and posts its tag. -/
  | engineOpComplete (op : Nat)
  /-- ENGINE_OP_FAILURE (R304): An engine operation fails after acceptance and completes with a failure value and detached fault. -/
  | engineOpFailure (op : Nat)
  /-- ENGINE_RECALL (R284): A thread access reaches an engine-owned line and the engine writes that line first. -/
  | engineRecall (op line : Nat)
  /-- COLLECTIVE_ARRIVAL (R309): A collective participant arrives at the id's home and is matched into a set of participants. -/
  | collectiveArrival (op : Nat) (tree : CTree)
  /-- COLLECTIVE_TIMEOUT (R312): A matched set lacking participants 100 ms after the first fails with ENGINE 0x0EF. -/
  | collectiveTimeout (id : Nat)
  /-- MESSAGE_ARRIVAL (R392): A message arrives at the destination slot and is matched, queued or refused. -/
  | messageArrival (msg : MessageRef)
  /-- READ_GATHER_REPLY (R278): Gathered reads of a line are answered by one multicast reply when the hold ends. -/
  | readGatherReply (line : Nat)
  /-- COMBINING_BUFFER_FLUSH (R367): A held commutative atomic request leaves the combining buffer after at most 64 ac. -/
  | combiningBufferFlush (ids : List Nat)
  /-- ATOMIC_APPLY (R368): An atomic or reduction request is applied at its home in arrival order. -/
  | atomicApply (req : Nat)
  /-- TXN_COMMIT (R376): A surviving transaction validates and reserves at its homes in order, then commits. -/
  | txnCommit (gid lane : Nat)
  /-- TRANSLATION_WALK (R280): A coalesced page walk completes and answers every waiting miss. -/
  | translationWalk (walk : Nat)
  /-- ARENA_SEAL_POINT (R153): Once no engine writes the arena, the home slice marks it and its descendants sealed. -/
  | arenaSealPoint (arena : Nat)
  /-- ARENA_SEAL_COMPLETE (R164): The seal sweep ends and seal completion releases at device scope. -/
  | arenaSealComplete (arena : Nat)
  /-- DRAIN_MARK (R163): A drop's mark reaches a descendant's home slice and marks it draining. -/
  | drainMark (arena : Nat)
  /-- ARENA_DROP_COMPLETE (R157): Drop completion returns quota to the parent, clears the slot and bumps generations. -/
  | arenaDropComplete (arena : Nat)
  /-- DISCARD_SWEEP (R158): A background walk of tag arrays invalidates lines matching discard-filter entries. -/
  | discardSweep (place : Nat)
  /-- ARENA_NUMBER_RECYCLE (R166): A number held at generation 15 returns free at generation 0 after a full walk. -/
  | arenaNumberRecycle (arena : Nat)
  /-- FAULT_SLOT_RETRY (R416): A lane waiting for a fault slot or waiter entry retries every 1 us. -/
  | faultSlotRetry (gid lane : Nat)
  /-- PREEMPT_REQUEST (R427): A pre-emption request for a domain on a set of cores opens a grace window. -/
  | preemptRequest (dom : Nat) (cores : List Nat) (windowUs : Nat)
  /-- GRACE_WINDOW_END (R431): The grace window ends and groups not at rest halt and are saved. -/
  | graceWindowEnd (req passes : Nat)
  /-- CONTEXT_RESTORE (R440): A saved team is rebuilt from its image on a core of the unit set. -/
  | contextRestore (image core : Nat) (parts : List Nat)
  /-- MARGIN_CORE_IDLE (R115): A margin core with no owner group for 10 us becomes available to borrowers. -/
  | marginCoreIdle (core : Nat)
  /-- LOAN_REVOCATION (R116): The owner needs a lent core and the borrower's groups are pre-empted and scrubbed. -/
  | loanRevocation (core : Nat)
  /-- POOL_DECISION_POINT (R118): A time-slice pool's budget or work changes force a choice of running function. -/
  | poolDecisionPoint (fn : Nat)
  /-- GRID_COMPLETION (R453): All teams retired and all work drained; the grid releases at system scope. -/
  | gridCompletion (grid : Nat)
  /-- TEAM_RESOURCES_FREE (R452): A retired team's banks, tiles and image space are freed when its operations complete. -/
  | teamResourcesFree (team : Nat)
  /-- MODULE_RESET (R461): Bring-up: record verification, die tests, zeroing, slice maps, steward configuration. -/
  | moduleReset
  /-- PWR_OK (R468): The module supplies come into range and bring-up may proceed. -/
  | pwrOk
  /-- FORWARDING_STUB_RETIRE (R389): A forwarding stub retires when no old-epoch request remains in flight. -/
  | forwardingStubRetire (die slice : Nat)
  /-- ILLEGAL_ENCODING (R51): A word with a reserved major or minor, a reserved field value or a nonzero unused field issues and raises ILLEGAL in every lane of its issuing set. -/
  | illegalEncoding (w : Word)
  /-- HOME_SLICE_ACCESS (R344): A read, fill, write-back, stnc, release write-through or promotion request reaches its home slice and is answered, merged into the coherence order or held. -/
  | homeSliceAccess (what : HomeAccess)
  /-- COMMAND_SLOT_WRITE (R96): A posted write into a command slot is captured, or discarded and recorded in CMDERR. -/
  | commandSlotWrite (fn link offset : Nat) (bytes : List Byte)
  /-- CQCFG_WRITE (R97): Configures or enables the completion queue, resetting write position, head and phase. -/
  | cqcfgWrite (fn link : Nat) (value : Word)
  /-- CQHEAD_WRITE (R97): The host moves the consumed-record head, which decides withholding of records. -/
  | cqheadWrite (fn : Nat) (value : Word)
  /-- REGISTER_WRITE (R5): A write to a command-page register with no behaviour of its own, such as CQLO, CQHI or CMDERR. -/
  | registerWrite (fn offset : Nat) (value : Word)
  /-- DIE_FAILURE (R108): The sideband controller declares a die failed and leadership and indices are reassigned. -/
  | dieFailure (die : Nat)
  /-- POWER_MEASUREMENT (R463): Every 10 us each power share is measured and throttled or unthrottled. -/
  | powerMeasurement (share die milliwatts : Nat)
  /-- THERMAL_LIMIT (R464): A die sensor reaches 105 C or 120 C and the die is throttled or stopped. -/
  | thermalLimit (die celsius : Nat)
  /-- BACKGROUND_SCRUB (R466): A scrub reads, corrects and rewrites a vault or far-memory line. -/
  | backgroundScrub (line : Nat) (found : SoftError)
  /-- SLICE_MAP_INSTALL (R387): A new slice map takes effect at an epoch point and lines are handed over. -/
  | sliceMapInstall (die slice : Nat) (retire : Bool)
  /-- LINK_FLIT_RECEIVE (R398): A Poldom flit arrives, is CRC-checked and retried or accepted. -/
  | linkFlitReceive (link : Nat) (flit : List Byte)
  /-- LINK_DOWN (R398): A link whose retraining fails within 10 us is marked down and flows move. -/
  | linkDown (link : Nat)
  /-- SIDEBAND_READ (R468): The sideband bus reads temperatures, power, die and slice state and the record counter. -/
  | sidebandRead (what : SidebandItem)
  /-- ATTESTATION_QUOTE (R462): Jasper returns a signed attestation quote over a requester nonce. -/
  | attestationQuote (nonce : List Byte)
  /-- HOST_LINK_DOWN (R99): A PCI Express host link goes down, and Jasper sends a function's records and MSI-X messages over the other link. -/
  | hostLinkDown (link : Nat)
  /-- HOST_LINK_UP (R99): A host link that was down returns, and records go back over the link through which the queue was enabled. -/
  | hostLinkUp (link : Nat)
  deriving DecidableEq, Repr

end Sys2Proof
end

