-- ==== Sys2Proof/Decode.lean ====
section
/-!
DEFINITION. Decoding and encoding (spec/02_instruction_word.md R19 to R22, R44 to R50, Tables 2-1, 2-7, 2-8, 2-10) and the
checks of R51 that depend on the word alone. A word that has a row of the opcode table decodes to that row's constructor
whatever the values of its fields; every other word decodes to `illegalEncoding`. `encode` lays the fields out again.
-/
namespace Sys2Proof

/-- `len` bits of a word from bit `lo` up. -/
def fld (w : Word) (lo len : Nat) : Nat := w.toNat / 2 ^ lo % 2 ^ len

/-- Major opcode, bits [31:26] (R20). -/
def majorOf (w : Word) : Nat := fld w 26 6

/-- Field U, N, G of the guarded formats (Table 2-1). -/
def qualOf (w : Word) : Qual := ⟨fld w 25 1 == 1, fld w 24 1 == 1, BitVec.ofNat 3 (fld w 21 3)⟩
/-- Fields N, G of a word with no U field. -/
def guardOf (w : Word) : Guard := ⟨fld w 24 1 == 1, BitVec.ofNat 3 (fld w 21 3)⟩

/-- The fields of an `opx` hint (Table 2-6). -/
def opxOf (w : Word) : OpxHint where
  src3 := BitVec.ofNat 6 (fld w 18 6)
  mode := BitVec.ofNat 3 (fld w 15 3)
  sat := fld w 14 1 == 1
  comm := fld w 13 1 == 1
  scope := BitVec.ofNat 2 (fld w 11 2)
  path := BitVec.ofNat 2 (fld w 9 2)
  pxD := fld w 8 1 == 1
  pxA := fld w 7 1 == 1
  pxB := fld w 6 1 == 1
  pxS3 := fld w 5 1 == 1
  itype := BitVec.ofNat 2 (fld w 0 2)

/-- The words of major 0x00. -/
def decode00 (w : Word) : Instr :=
  if fld w 0 26 = 0 then .nop else
  if fld w 9 12 = 1 ∧ fld w 25 1 = 0 then .trap (guardOf w) (BitVec.ofNat 9 (fld w 0 9)) else
  if fld w 9 12 = 2 ∧ fld w 25 1 = 0 then .dbg (guardOf w) (BitVec.ofNat 9 (fld w 0 9)) else
  if fld w 9 6 = 3 then .rdsr (qualOf w) (BitVec.ofNat 6 (fld w 15 6)) (BitVec.ofNat 9 (fld w 0 9)) else
  if fld w 9 6 = 4 then .wrsr (qualOf w) (BitVec.ofNat 6 (fld w 15 6)) (BitVec.ofNat 9 (fld w 0 9)) else
  if fld w 9 6 = 5 then .clk (qualOf w) (BitVec.ofNat 6 (fld w 15 6)) (BitVec.ofNat 9 (fld w 0 9)) else
  if fld w 0 26 = 0xc00 then .yield else
  if fld w 9 6 = 7 ∧ fld w 25 1 = 0 then .eret (guardOf w) (BitVec.ofNat 6 (fld w 15 6)) (BitVec.ofNat 9 (fld w 0 9)) else
  if fld w 0 15 = 0x1000 then .recfg (qualOf w) (BitVec.ofNat 6 (fld w 15 6)) else
  .illegalEncoding w

/-- The words of major 0x01. -/
def decode01 (w : Word) : Instr :=
  .bra (qualOf w) (BitVec.ofNat 21 (fld w 0 21))

/-- The words of major 0x02. -/
def decode02 (w : Word) : Instr :=
  .call (qualOf w) (BitVec.ofNat 21 (fld w 0 21))

/-- The words of major 0x03. -/
def decode03 (w : Word) : Instr :=
  if fld w 25 1 = 0 then .divr (guardOf w) (BitVec.ofNat 21 (fld w 0 21)) else
  .illegalEncoding w

/-- The words of major 0x04. -/
def decode04 (w : Word) : Instr :=
  .brk (BitVec.ofNat 5 (fld w 21 5)) (BitVec.ofNat 21 (fld w 0 21))

/-- The words of major 0x05. -/
def decode05 (w : Word) : Instr :=
  if fld w 0 3 = 0 ∧ fld w 15 6 = 0 then .brx (qualOf w) (BitVec.ofNat 6 (fld w 9 6)) (BitVec.ofNat 6 (fld w 3 6)) else
  if fld w 0 9 = 1 ∧ fld w 15 6 = 0 then .ret (qualOf w) (BitVec.ofNat 6 (fld w 9 6)) else
  if fld w 0 21 = 2 ∧ fld w 25 1 = 0 then .join (guardOf w) else
  if fld w 0 21 = 3 ∧ fld w 25 1 = 0 then .exit (guardOf w) else
  if fld w 0 15 = 4 ∧ fld w 19 2 = 0 then .cdecl (qualOf w) (BitVec.ofNat 4 (fld w 15 4)) else
  if fld w 0 15 = 5 ∧ fld w 19 2 = 0 ∧ fld w 25 1 = 0 then .bar (guardOf w) (BitVec.ofNat 4 (fld w 15 4)) else
  if fld w 0 21 = 6 ∧ fld w 25 1 = 0 then .fend (guardOf w) else
  if fld w 0 9 = 7 ∧ fld w 15 6 = 0 then .wake (qualOf w) (BitVec.ofNat 6 (fld w 9 6)) else
  if fld w 0 3 = 7 ∧ fld w 9 12 = 0x40 then .wakeTmr (qualOf w) (BitVec.ofNat 6 (fld w 3 6)) else
  .illegalEncoding w

/-- The words of major 0x06. -/
def decode06 (w : Word) : Instr :=
  if fld w 0 3 = 0 then .spawn (qualOf w) (BitVec.ofNat 6 (fld w 15 6)) (BitVec.ofNat 6 (fld w 9 6)) (BitVec.ofNat 6 (fld w 3 6)) else
  if fld w 0 3 = 1 ∧ fld w 25 1 = 0 then .park (guardOf w) (BitVec.ofNat 6 (fld w 15 6)) (BitVec.ofNat 6 (fld w 9 6)) (BitVec.ofNat 6 (fld w 3 6)) else
  if fld w 0 3 = 2 then .rdy (qualOf w) (BitVec.ofNat 6 (fld w 15 6)) (BitVec.ofNat 6 (fld w 9 6)) (BitVec.ofNat 6 (fld w 3 6)) else
  if fld w 0 3 = 3 then .await (qualOf w) (BitVec.ofNat 6 (fld w 15 6)) (BitVec.ofNat 6 (fld w 9 6)) (BitVec.ofNat 6 (fld w 3 6)) else
  .illegalEncoding w

/-- The words of major 0x07. -/
def decode07 (w : Word) : Instr :=
  if fld w 9 6 = 0 ∧ fld w 25 1 = 0 then .gate (guardOf w) (BitVec.ofNat 6 (fld w 15 6)) (BitVec.ofNat 9 (fld w 0 9)) else
  if fld w 0 21 = 0x200 ∧ fld w 25 1 = 0 then .gret (guardOf w) else
  .illegalEncoding w

/-- The words of major 0x08. -/
def decode08 (w : Word) : Instr :=
  if fld w 0 3 = 0 then .iadd (qualOf w) (BitVec.ofNat 6 (fld w 15 6)) (BitVec.ofNat 6 (fld w 9 6)) (BitVec.ofNat 6 (fld w 3 6)) else
  if fld w 0 3 = 1 then .isub (qualOf w) (BitVec.ofNat 6 (fld w 15 6)) (BitVec.ofNat 6 (fld w 9 6)) (BitVec.ofNat 6 (fld w 3 6)) else
  if fld w 0 3 = 2 then .imul (qualOf w) (BitVec.ofNat 6 (fld w 15 6)) (BitVec.ofNat 6 (fld w 9 6)) (BitVec.ofNat 6 (fld w 3 6)) else
  if fld w 0 3 = 3 then .imulh (qualOf w) (BitVec.ofNat 6 (fld w 15 6)) (BitVec.ofNat 6 (fld w 9 6)) (BitVec.ofNat 6 (fld w 3 6)) else
  if fld w 0 3 = 4 then .imin (qualOf w) (BitVec.ofNat 6 (fld w 15 6)) (BitVec.ofNat 6 (fld w 9 6)) (BitVec.ofNat 6 (fld w 3 6)) else
  if fld w 0 3 = 5 then .imax (qualOf w) (BitVec.ofNat 6 (fld w 15 6)) (BitVec.ofNat 6 (fld w 9 6)) (BitVec.ofNat 6 (fld w 3 6)) else
  if fld w 0 9 = 6 then .iabs (qualOf w) (BitVec.ofNat 6 (fld w 15 6)) (BitVec.ofNat 6 (fld w 9 6)) else
  if fld w 0 9 = 7 then .ineg (qualOf w) (BitVec.ofNat 6 (fld w 15 6)) (BitVec.ofNat 6 (fld w 9 6)) else
  .illegalEncoding w

/-- The words of major 0x09. -/
def decode09 (w : Word) : Instr :=
  if fld w 9 6 = 0 then .iaddImm (qualOf w) (BitVec.ofNat 6 (fld w 15 6)) (BitVec.ofNat 9 (fld w 0 9)) else
  if fld w 9 6 = 1 then .isubImm (qualOf w) (BitVec.ofNat 6 (fld w 15 6)) (BitVec.ofNat 9 (fld w 0 9)) else
  if fld w 9 6 = 2 then .imulImm (qualOf w) (BitVec.ofNat 6 (fld w 15 6)) (BitVec.ofNat 9 (fld w 0 9)) else
  if fld w 9 6 = 3 then .imulhImm (qualOf w) (BitVec.ofNat 6 (fld w 15 6)) (BitVec.ofNat 9 (fld w 0 9)) else
  if fld w 9 6 = 4 then .iminImm (qualOf w) (BitVec.ofNat 6 (fld w 15 6)) (BitVec.ofNat 9 (fld w 0 9)) else
  if fld w 9 6 = 5 then .imaxImm (qualOf w) (BitVec.ofNat 6 (fld w 15 6)) (BitVec.ofNat 9 (fld w 0 9)) else
  if fld w 9 6 = 6 then .iabsImm (qualOf w) (BitVec.ofNat 6 (fld w 15 6)) (BitVec.ofNat 9 (fld w 0 9)) else
  if fld w 9 6 = 7 then .inegImm (qualOf w) (BitVec.ofNat 6 (fld w 15 6)) (BitVec.ofNat 9 (fld w 0 9)) else
  .illegalEncoding w

/-- The words of major 0x0A. -/
def decode0A (w : Word) : Instr :=
  if fld w 0 3 = 0 then .andV (qualOf w) (BitVec.ofNat 6 (fld w 15 6)) (BitVec.ofNat 6 (fld w 9 6)) (BitVec.ofNat 6 (fld w 3 6)) else
  if fld w 0 3 = 1 then .orV (qualOf w) (BitVec.ofNat 6 (fld w 15 6)) (BitVec.ofNat 6 (fld w 9 6)) (BitVec.ofNat 6 (fld w 3 6)) else
  if fld w 0 3 = 2 then .xorV (qualOf w) (BitVec.ofNat 6 (fld w 15 6)) (BitVec.ofNat 6 (fld w 9 6)) (BitVec.ofNat 6 (fld w 3 6)) else
  if fld w 0 9 = 3 then .notV (qualOf w) (BitVec.ofNat 6 (fld w 15 6)) (BitVec.ofNat 6 (fld w 9 6)) else
  if fld w 0 3 = 4 then .sel (qualOf w) (BitVec.ofNat 6 (fld w 15 6)) (BitVec.ofNat 6 (fld w 9 6)) (BitVec.ofNat 6 (fld w 3 6)) else
  if fld w 0 9 = 5 then .popc (qualOf w) (BitVec.ofNat 6 (fld w 15 6)) (BitVec.ofNat 6 (fld w 9 6)) else
  if fld w 0 9 = 6 then .clz (qualOf w) (BitVec.ofNat 6 (fld w 15 6)) (BitVec.ofNat 6 (fld w 9 6)) else
  if fld w 0 9 = 7 then .brev (qualOf w) (BitVec.ofNat 6 (fld w 15 6)) (BitVec.ofNat 6 (fld w 9 6)) else
  .illegalEncoding w

/-- The words of major 0x0B. -/
def decode0B (w : Word) : Instr :=
  if fld w 9 6 = 0 then .andImm (qualOf w) (BitVec.ofNat 6 (fld w 15 6)) (BitVec.ofNat 9 (fld w 0 9)) else
  if fld w 9 6 = 1 then .orImm (qualOf w) (BitVec.ofNat 6 (fld w 15 6)) (BitVec.ofNat 9 (fld w 0 9)) else
  if fld w 9 6 = 2 then .xorImm (qualOf w) (BitVec.ofNat 6 (fld w 15 6)) (BitVec.ofNat 9 (fld w 0 9)) else
  if fld w 9 6 = 3 then .notImm (qualOf w) (BitVec.ofNat 6 (fld w 15 6)) (BitVec.ofNat 9 (fld w 0 9)) else
  if fld w 9 6 = 4 then .selImm (qualOf w) (BitVec.ofNat 6 (fld w 15 6)) (BitVec.ofNat 9 (fld w 0 9)) else
  if fld w 9 6 = 5 then .popcImm (qualOf w) (BitVec.ofNat 6 (fld w 15 6)) (BitVec.ofNat 9 (fld w 0 9)) else
  if fld w 9 6 = 6 then .clzImm (qualOf w) (BitVec.ofNat 6 (fld w 15 6)) (BitVec.ofNat 9 (fld w 0 9)) else
  if fld w 9 6 = 7 then .brevImm (qualOf w) (BitVec.ofNat 6 (fld w 15 6)) (BitVec.ofNat 9 (fld w 0 9)) else
  .illegalEncoding w

/-- The words of major 0x0C. -/
def decode0C (w : Word) : Instr :=
  if fld w 0 3 = 0 then .shl (qualOf w) (BitVec.ofNat 6 (fld w 15 6)) (BitVec.ofNat 6 (fld w 9 6)) (BitVec.ofNat 6 (fld w 3 6)) else
  if fld w 0 3 = 1 then .shr (qualOf w) (BitVec.ofNat 6 (fld w 15 6)) (BitVec.ofNat 6 (fld w 9 6)) (BitVec.ofNat 6 (fld w 3 6)) else
  if fld w 0 3 = 2 then .sar (qualOf w) (BitVec.ofNat 6 (fld w 15 6)) (BitVec.ofNat 6 (fld w 9 6)) (BitVec.ofNat 6 (fld w 3 6)) else
  if fld w 0 3 = 3 then .rot (qualOf w) (BitVec.ofNat 6 (fld w 15 6)) (BitVec.ofNat 6 (fld w 9 6)) (BitVec.ofNat 6 (fld w 3 6)) else
  if fld w 0 3 = 4 then .bfe (qualOf w) (BitVec.ofNat 6 (fld w 15 6)) (BitVec.ofNat 6 (fld w 9 6)) (BitVec.ofNat 6 (fld w 3 6)) else
  if fld w 0 3 = 5 then .bfi (qualOf w) (BitVec.ofNat 6 (fld w 15 6)) (BitVec.ofNat 6 (fld w 9 6)) (BitVec.ofNat 6 (fld w 3 6)) else
  if fld w 0 3 = 6 then .lea (qualOf w) (BitVec.ofNat 6 (fld w 15 6)) (BitVec.ofNat 6 (fld w 9 6)) (BitVec.ofNat 6 (fld w 3 6)) else
  if fld w 0 3 = 7 then .imad (qualOf w) (BitVec.ofNat 6 (fld w 15 6)) (BitVec.ofNat 6 (fld w 9 6)) (BitVec.ofNat 6 (fld w 3 6)) else
  .illegalEncoding w

/-- The words of major 0x0D. -/
def decode0D (w : Word) : Instr :=
  if fld w 9 6 = 0 then .shlImm (qualOf w) (BitVec.ofNat 6 (fld w 15 6)) (BitVec.ofNat 9 (fld w 0 9)) else
  if fld w 9 6 = 1 then .shrImm (qualOf w) (BitVec.ofNat 6 (fld w 15 6)) (BitVec.ofNat 9 (fld w 0 9)) else
  if fld w 9 6 = 2 then .sarImm (qualOf w) (BitVec.ofNat 6 (fld w 15 6)) (BitVec.ofNat 9 (fld w 0 9)) else
  if fld w 9 6 = 3 then .rotImm (qualOf w) (BitVec.ofNat 6 (fld w 15 6)) (BitVec.ofNat 9 (fld w 0 9)) else
  if fld w 9 6 = 4 then .bfeImm (qualOf w) (BitVec.ofNat 6 (fld w 15 6)) (BitVec.ofNat 9 (fld w 0 9)) else
  if fld w 9 6 = 5 then .bfiImm (qualOf w) (BitVec.ofNat 6 (fld w 15 6)) (BitVec.ofNat 9 (fld w 0 9)) else
  if fld w 9 6 = 6 then .leaImm (qualOf w) (BitVec.ofNat 6 (fld w 15 6)) (BitVec.ofNat 9 (fld w 0 9)) else
  if fld w 9 6 = 7 then .imadImm (qualOf w) (BitVec.ofNat 6 (fld w 15 6)) (BitVec.ofNat 9 (fld w 0 9)) else
  .illegalEncoding w

/-- The words of major 0x0E. -/
def decode0E (w : Word) : Instr :=
  .icmp (qualOf w) (BitVec.ofNat 6 (fld w 15 6)) (BitVec.ofNat 6 (fld w 9 6)) (BitVec.ofNat 6 (fld w 3 6)) (BitVec.ofNat 3 (fld w 0 3))

/-- The words of major 0x0F. -/
def decode0F (w : Word) : Instr :=
  if fld w 0 9 = 0 then .mov (qualOf w) (BitVec.ofNat 6 (fld w 15 6)) (BitVec.ofNat 6 (fld w 9 6)) else
  if fld w 0 3 = 1 then .movi (qualOf w) (BitVec.ofNat 6 (fld w 15 6)) (BitVec.ofNat 12 (fld w 3 12)) else
  if fld w 0 3 = 2 ∧ fld w 25 1 = 0 then .shfl (guardOf w) (BitVec.ofNat 6 (fld w 15 6)) (BitVec.ofNat 6 (fld w 9 6)) (BitVec.ofNat 6 (fld w 3 6)) else
  if fld w 0 9 = 3 ∧ fld w 25 1 = 0 then .vote (guardOf w) (BitVec.ofNat 6 (fld w 15 6)) (BitVec.ofNat 6 (fld w 9 6)) else
  if fld w 0 9 = 4 ∧ fld w 25 1 = 0 then .ballot (guardOf w) (BitVec.ofNat 6 (fld w 15 6)) (BitVec.ofNat 6 (fld w 9 6)) else
  if fld w 0 3 = 5 ∧ fld w 25 1 = 0 then .bcast (guardOf w) (BitVec.ofNat 6 (fld w 15 6)) (BitVec.ofNat 6 (fld w 9 6)) (BitVec.ofNat 6 (fld w 3 6)) else
  if fld w 0 3 = 6 ∧ fld w 25 1 = 0 then .redg (guardOf w) (BitVec.ofNat 6 (fld w 15 6)) (BitVec.ofNat 6 (fld w 9 6)) (BitVec.ofNat 6 (fld w 3 6)) else
  if fld w 0 3 = 7 ∧ fld w 9 6 = 0 ∧ fld w 25 1 = 0 then .lane (guardOf w) (BitVec.ofNat 6 (fld w 15 6)) (BitVec.ofNat 6 (fld w 3 6)) else
  .illegalEncoding w

/-- The words of major 0x10. -/
def decode10 (w : Word) : Instr :=
  if fld w 0 3 = 0 then .fadd (qualOf w) (BitVec.ofNat 6 (fld w 15 6)) (BitVec.ofNat 6 (fld w 9 6)) (BitVec.ofNat 6 (fld w 3 6)) else
  if fld w 0 3 = 1 then .fmul (qualOf w) (BitVec.ofNat 6 (fld w 15 6)) (BitVec.ofNat 6 (fld w 9 6)) (BitVec.ofNat 6 (fld w 3 6)) else
  if fld w 0 3 = 2 then .fmin (qualOf w) (BitVec.ofNat 6 (fld w 15 6)) (BitVec.ofNat 6 (fld w 9 6)) (BitVec.ofNat 6 (fld w 3 6)) else
  if fld w 0 3 = 3 then .fmax (qualOf w) (BitVec.ofNat 6 (fld w 15 6)) (BitVec.ofNat 6 (fld w 9 6)) (BitVec.ofNat 6 (fld w 3 6)) else
  if fld w 0 9 = 4 then .fabs (qualOf w) (BitVec.ofNat 6 (fld w 15 6)) (BitVec.ofNat 6 (fld w 9 6)) else
  if fld w 0 9 = 5 then .fneg (qualOf w) (BitVec.ofNat 6 (fld w 15 6)) (BitVec.ofNat 6 (fld w 9 6)) else
  if fld w 0 9 = 6 then .fclass (qualOf w) (BitVec.ofNat 6 (fld w 15 6)) (BitVec.ofNat 6 (fld w 9 6)) else
  if fld w 0 3 = 7 then .fsign (qualOf w) (BitVec.ofNat 6 (fld w 15 6)) (BitVec.ofNat 6 (fld w 9 6)) (BitVec.ofNat 6 (fld w 3 6)) else
  .illegalEncoding w

/-- The words of major 0x11. -/
def decode11 (w : Word) : Instr :=
  if fld w 2 1 = 0 then .ffma (qualOf w) (BitVec.ofNat 6 (fld w 15 6)) (BitVec.ofNat 6 (fld w 9 6)) (BitVec.ofNat 6 (fld w 3 6)) (fld w 1 1 == 1) (fld w 0 1 == 1) else
  .illegalEncoding w

/-- The words of major 0x12. -/
def decode12 (w : Word) : Instr :=
  if fld w 0 9 = 0 then .frcp (qualOf w) (BitVec.ofNat 6 (fld w 15 6)) (BitVec.ofNat 6 (fld w 9 6)) else
  if fld w 0 9 = 1 then .frsq (qualOf w) (BitVec.ofNat 6 (fld w 15 6)) (BitVec.ofNat 6 (fld w 9 6)) else
  if fld w 0 9 = 2 then .fsqrt (qualOf w) (BitVec.ofNat 6 (fld w 15 6)) (BitVec.ofNat 6 (fld w 9 6)) else
  if fld w 0 9 = 3 then .fex2 (qualOf w) (BitVec.ofNat 6 (fld w 15 6)) (BitVec.ofNat 6 (fld w 9 6)) else
  if fld w 0 9 = 4 then .flg2 (qualOf w) (BitVec.ofNat 6 (fld w 15 6)) (BitVec.ofNat 6 (fld w 9 6)) else
  if fld w 0 9 = 5 then .fsin (qualOf w) (BitVec.ofNat 6 (fld w 15 6)) (BitVec.ofNat 6 (fld w 9 6)) else
  if fld w 0 9 = 6 then .fcos (qualOf w) (BitVec.ofNat 6 (fld w 15 6)) (BitVec.ofNat 6 (fld w 9 6)) else
  .illegalEncoding w

/-- The words of major 0x13. -/
def decode13 (w : Word) : Instr :=
  .fcmp (qualOf w) (BitVec.ofNat 6 (fld w 15 6)) (BitVec.ofNat 6 (fld w 9 6)) (BitVec.ofNat 6 (fld w 3 6)) (BitVec.ofNat 3 (fld w 0 3))

/-- The words of major 0x14. -/
def decode14 (w : Word) : Instr :=
  if fld w 0 3 = 0 then .dadd (qualOf w) (BitVec.ofNat 6 (fld w 15 6)) (BitVec.ofNat 6 (fld w 9 6)) (BitVec.ofNat 6 (fld w 3 6)) else
  if fld w 0 3 = 1 then .dmul (qualOf w) (BitVec.ofNat 6 (fld w 15 6)) (BitVec.ofNat 6 (fld w 9 6)) (BitVec.ofNat 6 (fld w 3 6)) else
  if fld w 0 3 = 2 then .dfma (qualOf w) (BitVec.ofNat 6 (fld w 15 6)) (BitVec.ofNat 6 (fld w 9 6)) (BitVec.ofNat 6 (fld w 3 6)) else
  if fld w 0 3 = 3 then .dmin (qualOf w) (BitVec.ofNat 6 (fld w 15 6)) (BitVec.ofNat 6 (fld w 9 6)) (BitVec.ofNat 6 (fld w 3 6)) else
  if fld w 0 3 = 4 then .dmax (qualOf w) (BitVec.ofNat 6 (fld w 15 6)) (BitVec.ofNat 6 (fld w 9 6)) (BitVec.ofNat 6 (fld w 3 6)) else
  if fld w 0 3 = 5 then .dcmp (qualOf w) (BitVec.ofNat 3 (fld w 18 3)) (BitVec.ofNat 3 (fld w 15 3)) (BitVec.ofNat 6 (fld w 9 6)) (BitVec.ofNat 6 (fld w 3 6)) else
  .illegalEncoding w

/-- The words of major 0x15. -/
def decode15 (w : Word) : Instr :=
  if fld w 0 3 = 0 then .hadd2 (qualOf w) (BitVec.ofNat 6 (fld w 15 6)) (BitVec.ofNat 6 (fld w 9 6)) (BitVec.ofNat 6 (fld w 3 6)) else
  if fld w 0 3 = 1 then .hmul2 (qualOf w) (BitVec.ofNat 6 (fld w 15 6)) (BitVec.ofNat 6 (fld w 9 6)) (BitVec.ofNat 6 (fld w 3 6)) else
  if fld w 0 3 = 2 then .hfma2 (qualOf w) (BitVec.ofNat 6 (fld w 15 6)) (BitVec.ofNat 6 (fld w 9 6)) (BitVec.ofNat 6 (fld w 3 6)) else
  if fld w 0 3 = 3 then .bfadd2 (qualOf w) (BitVec.ofNat 6 (fld w 15 6)) (BitVec.ofNat 6 (fld w 9 6)) (BitVec.ofNat 6 (fld w 3 6)) else
  if fld w 0 3 = 4 then .bfmul2 (qualOf w) (BitVec.ofNat 6 (fld w 15 6)) (BitVec.ofNat 6 (fld w 9 6)) (BitVec.ofNat 6 (fld w 3 6)) else
  if fld w 0 3 = 5 then .bffma2 (qualOf w) (BitVec.ofNat 6 (fld w 15 6)) (BitVec.ofNat 6 (fld w 9 6)) (BitVec.ofNat 6 (fld w 3 6)) else
  .illegalEncoding w

/-- The words of major 0x16. -/
def decode16 (w : Word) : Instr :=
  .cvt (qualOf w) (BitVec.ofNat 6 (fld w 15 6)) (BitVec.ofNat 6 (fld w 9 6)) (BitVec.ofNat 4 (fld w 5 4)) (BitVec.ofNat 4 (fld w 1 4)) (fld w 0 1 == 1)

/-- The words of major 0x17. -/
def decode17 (w : Word) : Instr :=
  if fld w 0 9 = 0 then .bhget (qualOf w) (BitVec.ofNat 6 (fld w 15 6)) (BitVec.ofNat 6 (fld w 9 6)) else
  if fld w 0 3 = 1 then .bhset (qualOf w) (BitVec.ofNat 6 (fld w 15 6)) (BitVec.ofNat 6 (fld w 9 6)) (BitVec.ofNat 6 (fld w 3 6)) else
  if fld w 0 9 = 2 ∧ fld w 25 1 = 0 then .amaxr (guardOf w) (BitVec.ofNat 6 (fld w 15 6)) (BitVec.ofNat 6 (fld w 9 6)) else
  if fld w 0 3 = 3 then .pack (qualOf w) (BitVec.ofNat 6 (fld w 15 6)) (BitVec.ofNat 6 (fld w 9 6)) (BitVec.ofNat 6 (fld w 3 6)) else
  if fld w 0 3 = 4 then .unpack (qualOf w) (BitVec.ofNat 6 (fld w 15 6)) (BitVec.ofNat 6 (fld w 9 6)) (BitVec.ofNat 6 (fld w 3 6)) else
  .illegalEncoding w

/-- The words of major 0x18. -/
def decode18 (w : Word) : Instr :=
  if fld w 0 3 = 0 then .pand (qualOf w) (BitVec.ofNat 6 (fld w 15 6)) (BitVec.ofNat 6 (fld w 9 6)) (BitVec.ofNat 6 (fld w 3 6)) else
  if fld w 0 3 = 1 then .por (qualOf w) (BitVec.ofNat 6 (fld w 15 6)) (BitVec.ofNat 6 (fld w 9 6)) (BitVec.ofNat 6 (fld w 3 6)) else
  if fld w 0 3 = 2 then .pxor (qualOf w) (BitVec.ofNat 6 (fld w 15 6)) (BitVec.ofNat 6 (fld w 9 6)) (BitVec.ofNat 6 (fld w 3 6)) else
  if fld w 0 9 = 3 then .pnot (qualOf w) (BitVec.ofNat 6 (fld w 15 6)) (BitVec.ofNat 6 (fld w 9 6)) else
  if fld w 0 3 = 4 ∧ fld w 5 10 = 0 then .pmovToV (qualOf w) (BitVec.ofNat 6 (fld w 15 6)) (BitVec.ofNat 2 (fld w 3 2)) else
  if fld w 0 3 = 4 ∧ fld w 5 4 = 8 ∧ fld w 15 6 = 0 then .pmovToP (qualOf w) (BitVec.ofNat 6 (fld w 9 6)) (BitVec.ofNat 2 (fld w 3 2)) else
  if fld w 0 9 = 5 then .pcnt (qualOf w) (BitVec.ofNat 6 (fld w 15 6)) (BitVec.ofNat 6 (fld w 9 6)) else
  if fld w 0 9 = 6 then .pany (qualOf w) (BitVec.ofNat 6 (fld w 15 6)) (BitVec.ofNat 6 (fld w 9 6)) else
  if fld w 0 9 = 7 then .pall (qualOf w) (BitVec.ofNat 6 (fld w 15 6)) (BitVec.ofNat 6 (fld w 9 6)) else
  .illegalEncoding w

/-- The words of major 0x20. -/
def decode20 (w : Word) : Instr :=
  .ld (qualOf w) (BitVec.ofNat 6 (fld w 15 6)) (BitVec.ofNat 6 (fld w 9 6)) (BitVec.ofNat 3 (fld w 6 3)) (BitVec.ofNat 2 (fld w 4 2)) (BitVec.ofNat 4 (fld w 0 4))

/-- The words of major 0x21. -/
def decode21 (w : Word) : Instr :=
  .st (qualOf w) (BitVec.ofNat 6 (fld w 15 6)) (BitVec.ofNat 6 (fld w 9 6)) (BitVec.ofNat 3 (fld w 6 3)) (BitVec.ofNat 2 (fld w 4 2)) (BitVec.ofNat 4 (fld w 0 4))

/-- The words of major 0x22. -/
def decode22 (w : Word) : Instr :=
  .ldc (qualOf w) (BitVec.ofNat 6 (fld w 15 6)) (BitVec.ofNat 6 (fld w 9 6)) (BitVec.ofNat 3 (fld w 6 3)) (BitVec.ofNat 2 (fld w 4 2)) (BitVec.ofNat 4 (fld w 0 4))

/-- The words of major 0x23. -/
def decode23 (w : Word) : Instr :=
  .ldt (qualOf w) (BitVec.ofNat 6 (fld w 15 6)) (BitVec.ofNat 6 (fld w 9 6)) (BitVec.ofNat 3 (fld w 6 3)) (BitVec.ofNat 2 (fld w 4 2)) (BitVec.ofNat 4 (fld w 0 4))

/-- The words of major 0x24. -/
def decode24 (w : Word) : Instr :=
  if fld w 3 1 = 0 then .ldnc (qualOf w) (BitVec.ofNat 6 (fld w 15 6)) (BitVec.ofNat 6 (fld w 9 6)) (BitVec.ofNat 3 (fld w 6 3)) (BitVec.ofNat 2 (fld w 4 2)) (BitVec.ofNat 3 (fld w 0 3)) else
  if fld w 3 1 = 1 then .stnc (qualOf w) (BitVec.ofNat 6 (fld w 15 6)) (BitVec.ofNat 6 (fld w 9 6)) (BitVec.ofNat 3 (fld w 6 3)) (BitVec.ofNat 2 (fld w 4 2)) (BitVec.ofNat 3 (fld w 0 3)) else
  .illegalEncoding w

/-- The words of major 0x25. -/
def decode25 (w : Word) : Instr :=
  if fld w 2 2 = 0 ∧ fld w 15 6 = 0 ∧ fld w 25 1 = 0 then .fence (guardOf w) (BitVec.ofNat 6 (fld w 9 6)) (BitVec.ofNat 3 (fld w 6 3)) (BitVec.ofNat 2 (fld w 4 2)) (BitVec.ofNat 2 (fld w 0 2)) else
  if fld w 0 6 = 4 ∧ fld w 9 6 = 0 ∧ fld w 19 2 = 0 ∧ fld w 25 1 = 0 then .pfence (guardOf w) (BitVec.ofNat 4 (fld w 15 4)) (BitVec.ofNat 3 (fld w 6 3)) else
  if fld w 2 4 = 2 then .waita (qualOf w) (BitVec.ofNat 6 (fld w 15 6)) (BitVec.ofNat 6 (fld w 9 6)) (BitVec.ofNat 3 (fld w 6 3)) (BitVec.ofNat 2 (fld w 0 2)) else
  if fld w 0 4 = 0xc ∧ fld w 15 6 = 0 then .prefL1 (qualOf w) (BitVec.ofNat 6 (fld w 9 6)) (BitVec.ofNat 3 (fld w 6 3)) (BitVec.ofNat 2 (fld w 4 2)) else
  if fld w 0 4 = 0xd ∧ fld w 15 6 = 0 then .prefHome (qualOf w) (BitVec.ofNat 6 (fld w 9 6)) (BitVec.ofNat 3 (fld w 6 3)) (BitVec.ofNat 2 (fld w 4 2)) else
  .illegalEncoding w

/-- The words of major 0x26. -/
def decode26 (w : Word) : Instr :=
  .atom (qualOf w) (BitVec.ofNat 6 (fld w 15 6)) (BitVec.ofNat 6 (fld w 9 6)) (BitVec.ofNat 3 (fld w 6 3)) (BitVec.ofNat 2 (fld w 4 2)) (BitVec.ofNat 4 (fld w 0 4))

/-- The words of major 0x27. -/
def decode27 (w : Word) : Instr :=
  .red (qualOf w) (BitVec.ofNat 6 (fld w 15 6)) (BitVec.ofNat 6 (fld w 9 6)) (BitVec.ofNat 3 (fld w 6 3)) (BitVec.ofNat 2 (fld w 4 2)) (BitVec.ofNat 4 (fld w 0 4))

/-- The words of major 0x28. -/
def decode28 (w : Word) : Instr :=
  if fld w 0 21 = 0x1c0 ∧ fld w 25 1 = 0 then .txb (guardOf w) else
  if fld w 0 6 = 1 ∧ fld w 9 6 = 0 ∧ fld w 25 1 = 0 then .txe (guardOf w) (BitVec.ofNat 6 (fld w 15 6)) (BitVec.ofNat 3 (fld w 6 3)) else
  if fld w 0 15 = 0x1c2 ∧ fld w 25 1 = 0 then .txa (guardOf w) (BitVec.ofNat 6 (fld w 15 6)) else
  if fld w 0 6 = 3 ∧ fld w 9 6 = 0 ∧ fld w 25 1 = 0 then .txq (guardOf w) (BitVec.ofNat 6 (fld w 15 6)) (BitVec.ofNat 3 (fld w 6 3)) else
  .illegalEncoding w

/-- The words of major 0x29. -/
def decode29 (w : Word) : Instr :=
  if fld w 0 6 = 0 ∧ fld w 9 6 = 0 then .anew (qualOf w) (BitVec.ofNat 6 (fld w 15 6)) (BitVec.ofNat 3 (fld w 6 3)) else
  if fld w 0 6 = 1 ∧ fld w 9 6 = 0 then .alloc (qualOf w) (BitVec.ofNat 6 (fld w 15 6)) (BitVec.ofNat 3 (fld w 6 3)) else
  if fld w 0 6 = 2 ∧ fld w 9 6 = 0 then .aseal (qualOf w) (BitVec.ofNat 6 (fld w 15 6)) (BitVec.ofNat 3 (fld w 6 3)) else
  if fld w 0 6 = 3 then .adrop (qualOf w) (BitVec.ofNat 6 (fld w 15 6)) (BitVec.ofNat 6 (fld w 9 6)) (BitVec.ofNat 3 (fld w 6 3)) else
  if fld w 0 6 = 4 ∧ fld w 9 6 = 0 then .aqry (qualOf w) (BitVec.ofNat 6 (fld w 15 6)) (BitVec.ofNat 3 (fld w 6 3)) else
  .illegalEncoding w

/-- The words of major 0x2A. -/
def decode2A (w : Word) : Instr :=
  if fld w 0 15 = 0x1c0 then .rinit (qualOf w) (BitVec.ofNat 6 (fld w 15 6)) else
  if fld w 0 15 = 0x1c1 then .rsv (qualOf w) (BitVec.ofNat 6 (fld w 15 6)) else
  if fld w 0 15 = 0x1c2 then .rfill (qualOf w) (BitVec.ofNat 6 (fld w 15 6)) else
  if fld w 0 15 = 0x1c3 then .rtake (qualOf w) (BitVec.ofNat 6 (fld w 15 6)) else
  if fld w 0 15 = 0x1c4 then .rfree (qualOf w) (BitVec.ofNat 6 (fld w 15 6)) else
  .illegalEncoding w

/-- The words of major 0x2B. -/
def decode2B (w : Word) : Instr :=
  if fld w 0 2 = 0 then .cpy (qualOf w) (BitVec.ofNat 6 (fld w 15 6)) (BitVec.ofNat 6 (fld w 9 6)) (BitVec.ofNat 3 (fld w 6 3)) (BitVec.ofNat 2 (fld w 4 2)) (fld w 3 1 == 1) (fld w 2 1 == 1) else
  if fld w 0 2 = 1 then .cpyg (qualOf w) (BitVec.ofNat 6 (fld w 15 6)) (BitVec.ofNat 6 (fld w 9 6)) (BitVec.ofNat 3 (fld w 6 3)) (BitVec.ofNat 2 (fld w 4 2)) (fld w 3 1 == 1) (fld w 2 1 == 1) else
  if fld w 0 2 = 2 then .cpys (qualOf w) (BitVec.ofNat 6 (fld w 15 6)) (BitVec.ofNat 6 (fld w 9 6)) (BitVec.ofNat 3 (fld w 6 3)) (BitVec.ofNat 2 (fld w 4 2)) (fld w 3 1 == 1) (fld w 2 1 == 1) else
  if fld w 0 2 = 3 then .coll (qualOf w) (BitVec.ofNat 6 (fld w 15 6)) (BitVec.ofNat 6 (fld w 9 6)) (BitVec.ofNat 3 (fld w 6 3)) (BitVec.ofNat 2 (fld w 4 2)) (fld w 3 1 == 1) (fld w 2 1 == 1) else
  .illegalEncoding w

/-- The words of major 0x2C. -/
def decode2C (w : Word) : Instr :=
  if fld w 0 4 = 0 then .msend (qualOf w) (BitVec.ofNat 6 (fld w 15 6)) (BitVec.ofNat 6 (fld w 9 6)) (BitVec.ofNat 3 (fld w 6 3)) (BitVec.ofNat 2 (fld w 4 2)) else
  if fld w 0 4 = 1 then .mrecv (qualOf w) (BitVec.ofNat 6 (fld w 15 6)) (BitVec.ofNat 6 (fld w 9 6)) (BitVec.ofNat 3 (fld w 6 3)) (BitVec.ofNat 2 (fld w 4 2)) else
  if fld w 0 4 = 2 then .mprobe (qualOf w) (BitVec.ofNat 6 (fld w 15 6)) (BitVec.ofNat 6 (fld w 9 6)) (BitVec.ofNat 3 (fld w 6 3)) (BitVec.ofNat 2 (fld w 4 2)) else
  .illegalEncoding w

/-- The words of major 0x30. -/
def decode30 (w : Word) : Instr :=
  .mma (BitVec.ofNat 4 (fld w 22 4)) (BitVec.ofNat 3 (fld w 19 3)) (BitVec.ofNat 6 (fld w 13 6)) (BitVec.ofNat 6 (fld w 7 6)) (BitVec.ofNat 6 (fld w 1 6)) (fld w 0 1 == 1)

/-- The words of major 0x31. -/
def decode31 (w : Word) : Instr :=
  .mmaz (BitVec.ofNat 4 (fld w 22 4)) (BitVec.ofNat 3 (fld w 19 3)) (BitVec.ofNat 6 (fld w 13 6)) (BitVec.ofNat 6 (fld w 7 6)) (BitVec.ofNat 6 (fld w 1 6)) (fld w 0 1 == 1)

/-- The words of major 0x32. -/
def decode32 (w : Word) : Instr :=
  .mmas (BitVec.ofNat 4 (fld w 22 4)) (BitVec.ofNat 3 (fld w 19 3)) (BitVec.ofNat 6 (fld w 13 6)) (BitVec.ofNat 6 (fld w 7 6)) (BitVec.ofNat 6 (fld w 1 6)) (fld w 0 1 == 1)

/-- The words of major 0x33. -/
def decode33 (w : Word) : Instr :=
  if fld w 7 6 = 0 then .mld (BitVec.ofNat 4 (fld w 22 4)) (BitVec.ofNat 3 (fld w 19 3)) (BitVec.ofNat 6 (fld w 13 6)) (BitVec.ofNat 6 (fld w 1 6)) (fld w 0 1 == 1) else
  if fld w 7 6 = 8 then .mst (BitVec.ofNat 4 (fld w 22 4)) (BitVec.ofNat 3 (fld w 19 3)) (BitVec.ofNat 6 (fld w 13 6)) (BitVec.ofNat 6 (fld w 1 6)) (fld w 0 1 == 1) else
  if fld w 7 12 = 0x10 then .mzero (BitVec.ofNat 4 (fld w 22 4)) (BitVec.ofNat 3 (fld w 19 3)) (BitVec.ofNat 6 (fld w 1 6)) (fld w 0 1 == 1) else
  if fld w 0 1 = 0 ∧ fld w 7 6 = 0x18 then .mcvt (BitVec.ofNat 4 (fld w 22 4)) (BitVec.ofNat 3 (fld w 19 3)) (BitVec.ofNat 6 (fld w 13 6)) (BitVec.ofNat 6 (fld w 1 6)) else
  if fld w 7 6 = 0x20 then .mamax (BitVec.ofNat 4 (fld w 22 4)) (BitVec.ofNat 3 (fld w 19 3)) (BitVec.ofNat 6 (fld w 13 6)) (BitVec.ofNat 6 (fld w 1 6)) (fld w 0 1 == 1) else
  .illegalEncoding w

/-- The words of major 0x3F. -/
def decode3F (w : Word) : Instr :=
  if fld w 0 3 = 0 ∧ fld w 24 2 = 0 then .sched (BitVec.ofNat 4 (fld w 20 4)) (BitVec.ofNat 4 (fld w 16 4)) (BitVec.ofNat 4 (fld w 12 4)) (BitVec.ofNat 8 (fld w 4 8)) (fld w 3 1 == 1) else
  if fld w 24 2 = 1 then .imx (BitVec.ofNat 24 (fld w 0 24)) else
  if fld w 2 3 = 0 ∧ fld w 24 2 = 2 then .opx (opxOf w) else
  if fld w 24 2 = 3 then .pre (BitVec.ofNat 16 (fld w 8 16)) (BitVec.ofNat 8 (fld w 0 8)) else
  .illegalEncoding w

/-- The instruction a word stands for (R20, R44): total on every word. -/
def decode (w : Word) : Instr :=
  match majorOf w with
  | 0x00 => decode00 w
  | 0x01 => decode01 w
  | 0x02 => decode02 w
  | 0x03 => decode03 w
  | 0x04 => decode04 w
  | 0x05 => decode05 w
  | 0x06 => decode06 w
  | 0x07 => decode07 w
  | 0x08 => decode08 w
  | 0x09 => decode09 w
  | 0x0A => decode0A w
  | 0x0B => decode0B w
  | 0x0C => decode0C w
  | 0x0D => decode0D w
  | 0x0E => decode0E w
  | 0x0F => decode0F w
  | 0x10 => decode10 w
  | 0x11 => decode11 w
  | 0x12 => decode12 w
  | 0x13 => decode13 w
  | 0x14 => decode14 w
  | 0x15 => decode15 w
  | 0x16 => decode16 w
  | 0x17 => decode17 w
  | 0x18 => decode18 w
  | 0x20 => decode20 w
  | 0x21 => decode21 w
  | 0x22 => decode22 w
  | 0x23 => decode23 w
  | 0x24 => decode24 w
  | 0x25 => decode25 w
  | 0x26 => decode26 w
  | 0x27 => decode27 w
  | 0x28 => decode28 w
  | 0x29 => decode29 w
  | 0x2A => decode2A w
  | 0x2B => decode2B w
  | 0x2C => decode2C w
  | 0x30 => decode30 w
  | 0x31 => decode31 w
  | 0x32 => decode32 w
  | 0x33 => decode33 w
  | 0x3F => decode3F w
  | _ => .illegalEncoding w

/-- Why a byte string holds no word. -/
inductive DecodeError where
  /-- Fewer than four bytes are left. -/
  | truncated
  deriving DecidableEq, Repr

/-- The instruction at the head of a byte string and the bytes after it: a word is four bytes, little-endian (R19). -/
def decodeBytes : List Byte → Except DecodeError (Instr × List Byte)
  | a :: b :: c :: d :: t => .ok (decode (BitVec.ofNat 32 (leNat [a, b, c, d])), t)
  | _ => .error .truncated

/-- The instruction whose bits, numbered as spec/opcode_table.json numbers them, are `w`. -/
def decodeTableWord (nbits w : Nat) : Option Instr :=
  if nbits ≤ 32 ∧ w < 2 ^ 32 then
    match decodeBytes (leBytes 4 w) with
    | .ok (i, _) => some i
    | .error _ => none
  else none

/-- Value of a one-bit field. -/
def b1 (b : Bool) : Nat := if b then 1 else 0
/-- Bits U, N, G in place. -/
def packQ (q : Qual) : Nat := b1 q.u * 0x2000000 + b1 q.n * 0x1000000 + q.g.toNat * 0x200000
/-- Bits N, G in place. -/
def packG (q : Guard) : Nat := b1 q.n * 0x1000000 + q.g.toNat * 0x200000
/-- The fields of an `opx` hint in place. -/
def packOpx (x : OpxHint) : Nat :=
  x.src3.toNat * 0x40000 + x.mode.toNat * 0x8000 + b1 x.sat * 0x4000 + b1 x.comm * 0x2000 + x.scope.toNat * 0x800 +
  x.path.toNat * 0x200 + b1 x.pxD * 0x100 + b1 x.pxA * 0x80 + b1 x.pxB * 0x40 + b1 x.pxS3 * 0x20 + x.itype.toNat

/-- The word of an instruction as a number (Table 2-1 field places). An event has no word. -/
def encodeNat : Instr → Option Nat
  | .nop => some (0x00000000)
  | .trap gd f0 => some (0x00000200 + packG gd + f0.toNat)
  | .dbg gd f0 => some (0x00000400 + packG gd + f0.toNat)
  | .rdsr q f0 f1 => some (0x00000600 + packQ q + f0.toNat * 0x8000 + f1.toNat)
  | .wrsr q f0 f1 => some (0x00000800 + packQ q + f0.toNat * 0x8000 + f1.toNat)
  | .clk q f0 f1 => some (0x00000a00 + packQ q + f0.toNat * 0x8000 + f1.toNat)
  | .yield => some (0x00000c00)
  | .eret gd f0 f1 => some (0x00000e00 + packG gd + f0.toNat * 0x8000 + f1.toNat)
  | .recfg q f0 => some (0x00001000 + packQ q + f0.toNat * 0x8000)
  | .bra q f0 => some (0x04000000 + packQ q + f0.toNat)
  | .call q f0 => some (0x08000000 + packQ q + f0.toNat)
  | .divr gd f0 => some (0x0c000000 + packG gd + f0.toNat)
  | .brk f0 f1 => some (0x10000000 + f0.toNat * 0x200000 + f1.toNat)
  | .brx q f0 f1 => some (0x14000000 + packQ q + f0.toNat * 0x200 + f1.toNat * 0x8)
  | .ret q f0 => some (0x14000001 + packQ q + f0.toNat * 0x200)
  | .join gd => some (0x14000002 + packG gd)
  | .exit gd => some (0x14000003 + packG gd)
  | .cdecl q f0 => some (0x14000004 + packQ q + f0.toNat * 0x8000)
  | .bar gd f0 => some (0x14000005 + packG gd + f0.toNat * 0x8000)
  | .fend gd => some (0x14000006 + packG gd)
  | .wake q f0 => some (0x14000007 + packQ q + f0.toNat * 0x200)
  | .wakeTmr q f0 => some (0x14008007 + packQ q + f0.toNat * 0x8)
  | .spawn q f0 f1 f2 => some (0x18000000 + packQ q + f0.toNat * 0x8000 + f1.toNat * 0x200 + f2.toNat * 0x8)
  | .park gd f0 f1 f2 => some (0x18000001 + packG gd + f0.toNat * 0x8000 + f1.toNat * 0x200 + f2.toNat * 0x8)
  | .rdy q f0 f1 f2 => some (0x18000002 + packQ q + f0.toNat * 0x8000 + f1.toNat * 0x200 + f2.toNat * 0x8)
  | .await q f0 f1 f2 => some (0x18000003 + packQ q + f0.toNat * 0x8000 + f1.toNat * 0x200 + f2.toNat * 0x8)
  | .gate gd f0 f1 => some (0x1c000000 + packG gd + f0.toNat * 0x8000 + f1.toNat)
  | .gret gd => some (0x1c000200 + packG gd)
  | .iadd q f0 f1 f2 => some (0x20000000 + packQ q + f0.toNat * 0x8000 + f1.toNat * 0x200 + f2.toNat * 0x8)
  | .isub q f0 f1 f2 => some (0x20000001 + packQ q + f0.toNat * 0x8000 + f1.toNat * 0x200 + f2.toNat * 0x8)
  | .imul q f0 f1 f2 => some (0x20000002 + packQ q + f0.toNat * 0x8000 + f1.toNat * 0x200 + f2.toNat * 0x8)
  | .imulh q f0 f1 f2 => some (0x20000003 + packQ q + f0.toNat * 0x8000 + f1.toNat * 0x200 + f2.toNat * 0x8)
  | .imin q f0 f1 f2 => some (0x20000004 + packQ q + f0.toNat * 0x8000 + f1.toNat * 0x200 + f2.toNat * 0x8)
  | .imax q f0 f1 f2 => some (0x20000005 + packQ q + f0.toNat * 0x8000 + f1.toNat * 0x200 + f2.toNat * 0x8)
  | .iabs q f0 f1 => some (0x20000006 + packQ q + f0.toNat * 0x8000 + f1.toNat * 0x200)
  | .ineg q f0 f1 => some (0x20000007 + packQ q + f0.toNat * 0x8000 + f1.toNat * 0x200)
  | .iaddImm q f0 f1 => some (0x24000000 + packQ q + f0.toNat * 0x8000 + f1.toNat)
  | .isubImm q f0 f1 => some (0x24000200 + packQ q + f0.toNat * 0x8000 + f1.toNat)
  | .imulImm q f0 f1 => some (0x24000400 + packQ q + f0.toNat * 0x8000 + f1.toNat)
  | .imulhImm q f0 f1 => some (0x24000600 + packQ q + f0.toNat * 0x8000 + f1.toNat)
  | .iminImm q f0 f1 => some (0x24000800 + packQ q + f0.toNat * 0x8000 + f1.toNat)
  | .imaxImm q f0 f1 => some (0x24000a00 + packQ q + f0.toNat * 0x8000 + f1.toNat)
  | .iabsImm q f0 f1 => some (0x24000c00 + packQ q + f0.toNat * 0x8000 + f1.toNat)
  | .inegImm q f0 f1 => some (0x24000e00 + packQ q + f0.toNat * 0x8000 + f1.toNat)
  | .andV q f0 f1 f2 => some (0x28000000 + packQ q + f0.toNat * 0x8000 + f1.toNat * 0x200 + f2.toNat * 0x8)
  | .orV q f0 f1 f2 => some (0x28000001 + packQ q + f0.toNat * 0x8000 + f1.toNat * 0x200 + f2.toNat * 0x8)
  | .xorV q f0 f1 f2 => some (0x28000002 + packQ q + f0.toNat * 0x8000 + f1.toNat * 0x200 + f2.toNat * 0x8)
  | .notV q f0 f1 => some (0x28000003 + packQ q + f0.toNat * 0x8000 + f1.toNat * 0x200)
  | .sel q f0 f1 f2 => some (0x28000004 + packQ q + f0.toNat * 0x8000 + f1.toNat * 0x200 + f2.toNat * 0x8)
  | .popc q f0 f1 => some (0x28000005 + packQ q + f0.toNat * 0x8000 + f1.toNat * 0x200)
  | .clz q f0 f1 => some (0x28000006 + packQ q + f0.toNat * 0x8000 + f1.toNat * 0x200)
  | .brev q f0 f1 => some (0x28000007 + packQ q + f0.toNat * 0x8000 + f1.toNat * 0x200)
  | .andImm q f0 f1 => some (0x2c000000 + packQ q + f0.toNat * 0x8000 + f1.toNat)
  | .orImm q f0 f1 => some (0x2c000200 + packQ q + f0.toNat * 0x8000 + f1.toNat)
  | .xorImm q f0 f1 => some (0x2c000400 + packQ q + f0.toNat * 0x8000 + f1.toNat)
  | .notImm q f0 f1 => some (0x2c000600 + packQ q + f0.toNat * 0x8000 + f1.toNat)
  | .selImm q f0 f1 => some (0x2c000800 + packQ q + f0.toNat * 0x8000 + f1.toNat)
  | .popcImm q f0 f1 => some (0x2c000a00 + packQ q + f0.toNat * 0x8000 + f1.toNat)
  | .clzImm q f0 f1 => some (0x2c000c00 + packQ q + f0.toNat * 0x8000 + f1.toNat)
  | .brevImm q f0 f1 => some (0x2c000e00 + packQ q + f0.toNat * 0x8000 + f1.toNat)
  | .shl q f0 f1 f2 => some (0x30000000 + packQ q + f0.toNat * 0x8000 + f1.toNat * 0x200 + f2.toNat * 0x8)
  | .shr q f0 f1 f2 => some (0x30000001 + packQ q + f0.toNat * 0x8000 + f1.toNat * 0x200 + f2.toNat * 0x8)
  | .sar q f0 f1 f2 => some (0x30000002 + packQ q + f0.toNat * 0x8000 + f1.toNat * 0x200 + f2.toNat * 0x8)
  | .rot q f0 f1 f2 => some (0x30000003 + packQ q + f0.toNat * 0x8000 + f1.toNat * 0x200 + f2.toNat * 0x8)
  | .bfe q f0 f1 f2 => some (0x30000004 + packQ q + f0.toNat * 0x8000 + f1.toNat * 0x200 + f2.toNat * 0x8)
  | .bfi q f0 f1 f2 => some (0x30000005 + packQ q + f0.toNat * 0x8000 + f1.toNat * 0x200 + f2.toNat * 0x8)
  | .lea q f0 f1 f2 => some (0x30000006 + packQ q + f0.toNat * 0x8000 + f1.toNat * 0x200 + f2.toNat * 0x8)
  | .imad q f0 f1 f2 => some (0x30000007 + packQ q + f0.toNat * 0x8000 + f1.toNat * 0x200 + f2.toNat * 0x8)
  | .shlImm q f0 f1 => some (0x34000000 + packQ q + f0.toNat * 0x8000 + f1.toNat)
  | .shrImm q f0 f1 => some (0x34000200 + packQ q + f0.toNat * 0x8000 + f1.toNat)
  | .sarImm q f0 f1 => some (0x34000400 + packQ q + f0.toNat * 0x8000 + f1.toNat)
  | .rotImm q f0 f1 => some (0x34000600 + packQ q + f0.toNat * 0x8000 + f1.toNat)
  | .bfeImm q f0 f1 => some (0x34000800 + packQ q + f0.toNat * 0x8000 + f1.toNat)
  | .bfiImm q f0 f1 => some (0x34000a00 + packQ q + f0.toNat * 0x8000 + f1.toNat)
  | .leaImm q f0 f1 => some (0x34000c00 + packQ q + f0.toNat * 0x8000 + f1.toNat)
  | .imadImm q f0 f1 => some (0x34000e00 + packQ q + f0.toNat * 0x8000 + f1.toNat)
  | .icmp q f0 f1 f2 f3 => some (0x38000000 + packQ q + f0.toNat * 0x8000 + f1.toNat * 0x200 + f2.toNat * 0x8 + f3.toNat)
  | .mov q f0 f1 => some (0x3c000000 + packQ q + f0.toNat * 0x8000 + f1.toNat * 0x200)
  | .movi q f0 f1 => some (0x3c000001 + packQ q + f0.toNat * 0x8000 + f1.toNat * 0x8)
  | .shfl gd f0 f1 f2 => some (0x3c000002 + packG gd + f0.toNat * 0x8000 + f1.toNat * 0x200 + f2.toNat * 0x8)
  | .vote gd f0 f1 => some (0x3c000003 + packG gd + f0.toNat * 0x8000 + f1.toNat * 0x200)
  | .ballot gd f0 f1 => some (0x3c000004 + packG gd + f0.toNat * 0x8000 + f1.toNat * 0x200)
  | .bcast gd f0 f1 f2 => some (0x3c000005 + packG gd + f0.toNat * 0x8000 + f1.toNat * 0x200 + f2.toNat * 0x8)
  | .redg gd f0 f1 f2 => some (0x3c000006 + packG gd + f0.toNat * 0x8000 + f1.toNat * 0x200 + f2.toNat * 0x8)
  | .lane gd f0 f1 => some (0x3c000007 + packG gd + f0.toNat * 0x8000 + f1.toNat * 0x8)
  | .fadd q f0 f1 f2 => some (0x40000000 + packQ q + f0.toNat * 0x8000 + f1.toNat * 0x200 + f2.toNat * 0x8)
  | .fmul q f0 f1 f2 => some (0x40000001 + packQ q + f0.toNat * 0x8000 + f1.toNat * 0x200 + f2.toNat * 0x8)
  | .fmin q f0 f1 f2 => some (0x40000002 + packQ q + f0.toNat * 0x8000 + f1.toNat * 0x200 + f2.toNat * 0x8)
  | .fmax q f0 f1 f2 => some (0x40000003 + packQ q + f0.toNat * 0x8000 + f1.toNat * 0x200 + f2.toNat * 0x8)
  | .fabs q f0 f1 => some (0x40000004 + packQ q + f0.toNat * 0x8000 + f1.toNat * 0x200)
  | .fneg q f0 f1 => some (0x40000005 + packQ q + f0.toNat * 0x8000 + f1.toNat * 0x200)
  | .fclass q f0 f1 => some (0x40000006 + packQ q + f0.toNat * 0x8000 + f1.toNat * 0x200)
  | .fsign q f0 f1 f2 => some (0x40000007 + packQ q + f0.toNat * 0x8000 + f1.toNat * 0x200 + f2.toNat * 0x8)
  | .ffma q f0 f1 f2 f3 f4 => some (0x44000000 + packQ q + f0.toNat * 0x8000 + f1.toNat * 0x200 + f2.toNat * 0x8 + b1 f3 * 0x2 + b1 f4)
  | .frcp q f0 f1 => some (0x48000000 + packQ q + f0.toNat * 0x8000 + f1.toNat * 0x200)
  | .frsq q f0 f1 => some (0x48000001 + packQ q + f0.toNat * 0x8000 + f1.toNat * 0x200)
  | .fsqrt q f0 f1 => some (0x48000002 + packQ q + f0.toNat * 0x8000 + f1.toNat * 0x200)
  | .fex2 q f0 f1 => some (0x48000003 + packQ q + f0.toNat * 0x8000 + f1.toNat * 0x200)
  | .flg2 q f0 f1 => some (0x48000004 + packQ q + f0.toNat * 0x8000 + f1.toNat * 0x200)
  | .fsin q f0 f1 => some (0x48000005 + packQ q + f0.toNat * 0x8000 + f1.toNat * 0x200)
  | .fcos q f0 f1 => some (0x48000006 + packQ q + f0.toNat * 0x8000 + f1.toNat * 0x200)
  | .fcmp q f0 f1 f2 f3 => some (0x4c000000 + packQ q + f0.toNat * 0x8000 + f1.toNat * 0x200 + f2.toNat * 0x8 + f3.toNat)
  | .dadd q f0 f1 f2 => some (0x50000000 + packQ q + f0.toNat * 0x8000 + f1.toNat * 0x200 + f2.toNat * 0x8)
  | .dmul q f0 f1 f2 => some (0x50000001 + packQ q + f0.toNat * 0x8000 + f1.toNat * 0x200 + f2.toNat * 0x8)
  | .dfma q f0 f1 f2 => some (0x50000002 + packQ q + f0.toNat * 0x8000 + f1.toNat * 0x200 + f2.toNat * 0x8)
  | .dmin q f0 f1 f2 => some (0x50000003 + packQ q + f0.toNat * 0x8000 + f1.toNat * 0x200 + f2.toNat * 0x8)
  | .dmax q f0 f1 f2 => some (0x50000004 + packQ q + f0.toNat * 0x8000 + f1.toNat * 0x200 + f2.toNat * 0x8)
  | .dcmp q f0 f1 f2 f3 => some (0x50000005 + packQ q + f0.toNat * 0x40000 + f1.toNat * 0x8000 + f2.toNat * 0x200 + f3.toNat * 0x8)
  | .hadd2 q f0 f1 f2 => some (0x54000000 + packQ q + f0.toNat * 0x8000 + f1.toNat * 0x200 + f2.toNat * 0x8)
  | .hmul2 q f0 f1 f2 => some (0x54000001 + packQ q + f0.toNat * 0x8000 + f1.toNat * 0x200 + f2.toNat * 0x8)
  | .hfma2 q f0 f1 f2 => some (0x54000002 + packQ q + f0.toNat * 0x8000 + f1.toNat * 0x200 + f2.toNat * 0x8)
  | .bfadd2 q f0 f1 f2 => some (0x54000003 + packQ q + f0.toNat * 0x8000 + f1.toNat * 0x200 + f2.toNat * 0x8)
  | .bfmul2 q f0 f1 f2 => some (0x54000004 + packQ q + f0.toNat * 0x8000 + f1.toNat * 0x200 + f2.toNat * 0x8)
  | .bffma2 q f0 f1 f2 => some (0x54000005 + packQ q + f0.toNat * 0x8000 + f1.toNat * 0x200 + f2.toNat * 0x8)
  | .cvt q f0 f1 f2 f3 f4 => some (0x58000000 + packQ q + f0.toNat * 0x8000 + f1.toNat * 0x200 + f2.toNat * 0x20 + f3.toNat * 0x2 + b1 f4)
  | .bhget q f0 f1 => some (0x5c000000 + packQ q + f0.toNat * 0x8000 + f1.toNat * 0x200)
  | .bhset q f0 f1 f2 => some (0x5c000001 + packQ q + f0.toNat * 0x8000 + f1.toNat * 0x200 + f2.toNat * 0x8)
  | .amaxr gd f0 f1 => some (0x5c000002 + packG gd + f0.toNat * 0x8000 + f1.toNat * 0x200)
  | .pack q f0 f1 f2 => some (0x5c000003 + packQ q + f0.toNat * 0x8000 + f1.toNat * 0x200 + f2.toNat * 0x8)
  | .unpack q f0 f1 f2 => some (0x5c000004 + packQ q + f0.toNat * 0x8000 + f1.toNat * 0x200 + f2.toNat * 0x8)
  | .pand q f0 f1 f2 => some (0x60000000 + packQ q + f0.toNat * 0x8000 + f1.toNat * 0x200 + f2.toNat * 0x8)
  | .por q f0 f1 f2 => some (0x60000001 + packQ q + f0.toNat * 0x8000 + f1.toNat * 0x200 + f2.toNat * 0x8)
  | .pxor q f0 f1 f2 => some (0x60000002 + packQ q + f0.toNat * 0x8000 + f1.toNat * 0x200 + f2.toNat * 0x8)
  | .pnot q f0 f1 => some (0x60000003 + packQ q + f0.toNat * 0x8000 + f1.toNat * 0x200)
  | .pmovToV q f0 f1 => some (0x60000004 + packQ q + f0.toNat * 0x8000 + f1.toNat * 0x8)
  | .pmovToP q f0 f1 => some (0x60000104 + packQ q + f0.toNat * 0x200 + f1.toNat * 0x8)
  | .pcnt q f0 f1 => some (0x60000005 + packQ q + f0.toNat * 0x8000 + f1.toNat * 0x200)
  | .pany q f0 f1 => some (0x60000006 + packQ q + f0.toNat * 0x8000 + f1.toNat * 0x200)
  | .pall q f0 f1 => some (0x60000007 + packQ q + f0.toNat * 0x8000 + f1.toNat * 0x200)
  | .ld q f0 f1 f2 f3 f4 => some (0x80000000 + packQ q + f0.toNat * 0x8000 + f1.toNat * 0x200 + f2.toNat * 0x40 + f3.toNat * 0x10 + f4.toNat)
  | .st q f0 f1 f2 f3 f4 => some (0x84000000 + packQ q + f0.toNat * 0x8000 + f1.toNat * 0x200 + f2.toNat * 0x40 + f3.toNat * 0x10 + f4.toNat)
  | .ldc q f0 f1 f2 f3 f4 => some (0x88000000 + packQ q + f0.toNat * 0x8000 + f1.toNat * 0x200 + f2.toNat * 0x40 + f3.toNat * 0x10 + f4.toNat)
  | .ldt q f0 f1 f2 f3 f4 => some (0x8c000000 + packQ q + f0.toNat * 0x8000 + f1.toNat * 0x200 + f2.toNat * 0x40 + f3.toNat * 0x10 + f4.toNat)
  | .ldnc q f0 f1 f2 f3 f4 => some (0x90000000 + packQ q + f0.toNat * 0x8000 + f1.toNat * 0x200 + f2.toNat * 0x40 + f3.toNat * 0x10 + f4.toNat)
  | .stnc q f0 f1 f2 f3 f4 => some (0x90000008 + packQ q + f0.toNat * 0x8000 + f1.toNat * 0x200 + f2.toNat * 0x40 + f3.toNat * 0x10 + f4.toNat)
  | .fence gd f0 f1 f2 f3 => some (0x94000000 + packG gd + f0.toNat * 0x200 + f1.toNat * 0x40 + f2.toNat * 0x10 + f3.toNat)
  | .pfence gd f0 f1 => some (0x94000004 + packG gd + f0.toNat * 0x8000 + f1.toNat * 0x40)
  | .waita q f0 f1 f2 f3 => some (0x94000008 + packQ q + f0.toNat * 0x8000 + f1.toNat * 0x200 + f2.toNat * 0x40 + f3.toNat)
  | .prefL1 q f0 f1 f2 => some (0x9400000c + packQ q + f0.toNat * 0x200 + f1.toNat * 0x40 + f2.toNat * 0x10)
  | .prefHome q f0 f1 f2 => some (0x9400000d + packQ q + f0.toNat * 0x200 + f1.toNat * 0x40 + f2.toNat * 0x10)
  | .atom q f0 f1 f2 f3 f4 => some (0x98000000 + packQ q + f0.toNat * 0x8000 + f1.toNat * 0x200 + f2.toNat * 0x40 + f3.toNat * 0x10 + f4.toNat)
  | .red q f0 f1 f2 f3 f4 => some (0x9c000000 + packQ q + f0.toNat * 0x8000 + f1.toNat * 0x200 + f2.toNat * 0x40 + f3.toNat * 0x10 + f4.toNat)
  | .txb gd => some (0xa00001c0 + packG gd)
  | .txe gd f0 f1 => some (0xa0000001 + packG gd + f0.toNat * 0x8000 + f1.toNat * 0x40)
  | .txa gd f0 => some (0xa00001c2 + packG gd + f0.toNat * 0x8000)
  | .txq gd f0 f1 => some (0xa0000003 + packG gd + f0.toNat * 0x8000 + f1.toNat * 0x40)
  | .anew q f0 f1 => some (0xa4000000 + packQ q + f0.toNat * 0x8000 + f1.toNat * 0x40)
  | .alloc q f0 f1 => some (0xa4000001 + packQ q + f0.toNat * 0x8000 + f1.toNat * 0x40)
  | .aseal q f0 f1 => some (0xa4000002 + packQ q + f0.toNat * 0x8000 + f1.toNat * 0x40)
  | .adrop q f0 f1 f2 => some (0xa4000003 + packQ q + f0.toNat * 0x8000 + f1.toNat * 0x200 + f2.toNat * 0x40)
  | .aqry q f0 f1 => some (0xa4000004 + packQ q + f0.toNat * 0x8000 + f1.toNat * 0x40)
  | .rinit q f0 => some (0xa80001c0 + packQ q + f0.toNat * 0x8000)
  | .rsv q f0 => some (0xa80001c1 + packQ q + f0.toNat * 0x8000)
  | .rfill q f0 => some (0xa80001c2 + packQ q + f0.toNat * 0x8000)
  | .rtake q f0 => some (0xa80001c3 + packQ q + f0.toNat * 0x8000)
  | .rfree q f0 => some (0xa80001c4 + packQ q + f0.toNat * 0x8000)
  | .cpy q f0 f1 f2 f3 f4 f5 => some (0xac000000 + packQ q + f0.toNat * 0x8000 + f1.toNat * 0x200 + f2.toNat * 0x40 + f3.toNat * 0x10 + b1 f4 * 0x8 + b1 f5 * 0x4)
  | .cpyg q f0 f1 f2 f3 f4 f5 => some (0xac000001 + packQ q + f0.toNat * 0x8000 + f1.toNat * 0x200 + f2.toNat * 0x40 + f3.toNat * 0x10 + b1 f4 * 0x8 + b1 f5 * 0x4)
  | .cpys q f0 f1 f2 f3 f4 f5 => some (0xac000002 + packQ q + f0.toNat * 0x8000 + f1.toNat * 0x200 + f2.toNat * 0x40 + f3.toNat * 0x10 + b1 f4 * 0x8 + b1 f5 * 0x4)
  | .coll q f0 f1 f2 f3 f4 f5 => some (0xac000003 + packQ q + f0.toNat * 0x8000 + f1.toNat * 0x200 + f2.toNat * 0x40 + f3.toNat * 0x10 + b1 f4 * 0x8 + b1 f5 * 0x4)
  | .msend q f0 f1 f2 f3 => some (0xb0000000 + packQ q + f0.toNat * 0x8000 + f1.toNat * 0x200 + f2.toNat * 0x40 + f3.toNat * 0x10)
  | .mrecv q f0 f1 f2 f3 => some (0xb0000001 + packQ q + f0.toNat * 0x8000 + f1.toNat * 0x200 + f2.toNat * 0x40 + f3.toNat * 0x10)
  | .mprobe q f0 f1 f2 f3 => some (0xb0000002 + packQ q + f0.toNat * 0x8000 + f1.toNat * 0x200 + f2.toNat * 0x40 + f3.toNat * 0x10)
  | .mma f0 f1 f2 f3 f4 f5 => some (0xc0000000 + f0.toNat * 0x400000 + f1.toNat * 0x80000 + f2.toNat * 0x2000 + f3.toNat * 0x80 + f4.toNat * 0x2 + b1 f5)
  | .mmaz f0 f1 f2 f3 f4 f5 => some (0xc4000000 + f0.toNat * 0x400000 + f1.toNat * 0x80000 + f2.toNat * 0x2000 + f3.toNat * 0x80 + f4.toNat * 0x2 + b1 f5)
  | .mmas f0 f1 f2 f3 f4 f5 => some (0xc8000000 + f0.toNat * 0x400000 + f1.toNat * 0x80000 + f2.toNat * 0x2000 + f3.toNat * 0x80 + f4.toNat * 0x2 + b1 f5)
  | .mld f0 f1 f2 f3 f4 => some (0xcc000000 + f0.toNat * 0x400000 + f1.toNat * 0x80000 + f2.toNat * 0x2000 + f3.toNat * 0x2 + b1 f4)
  | .mst f0 f1 f2 f3 f4 => some (0xcc000400 + f0.toNat * 0x400000 + f1.toNat * 0x80000 + f2.toNat * 0x2000 + f3.toNat * 0x2 + b1 f4)
  | .mzero f0 f1 f2 f3 => some (0xcc000800 + f0.toNat * 0x400000 + f1.toNat * 0x80000 + f2.toNat * 0x2 + b1 f3)
  | .mcvt f0 f1 f2 f3 => some (0xcc000c00 + f0.toNat * 0x400000 + f1.toNat * 0x80000 + f2.toNat * 0x2000 + f3.toNat * 0x2)
  | .mamax f0 f1 f2 f3 f4 => some (0xcc001000 + f0.toNat * 0x400000 + f1.toNat * 0x80000 + f2.toNat * 0x2000 + f3.toNat * 0x2 + b1 f4)
  | .sched f0 f1 f2 f3 f4 => some (0xfc000000 + f0.toNat * 0x100000 + f1.toNat * 0x10000 + f2.toNat * 0x1000 + f3.toNat * 0x10 + b1 f4 * 0x8)
  | .imx f0 => some (0xfd000000 + f0.toNat)
  | .opx x => some (0xfe000000 + packOpx x)
  | .pre f0 f1 => some (0xff000000 + f0.toNat * 0x100 + f1.toNat)
  | .illegalEncoding w => some w.toNat
  | _ => none

/-- The word of an instruction; an event, which no word stands for, gives the all-zero word. -/
def encode (i : Instr) : Word := BitVec.ofNat 32 ((encodeNat i).getD 0)

/-- True of an instruction that a word stands for. -/
def Instr.isWord (i : Instr) : Bool := (encodeNat i).isSome

/-- The layouts of Table 2-1, and `none` for a reserved major. -/
inductive Format where
  | V | I | M | X | J | H
  deriving DecidableEq, Repr

/-- The format of a major opcode (Table 2-7). -/
def formatOf (m : Nat) : Option Format :=
  if m = 0x00 ∨ m = 0x07 ∨ m = 0x09 ∨ m = 0x0B ∨ m = 0x0D then some .I
  else if 0x01 ≤ m ∧ m ≤ 0x04 then some .J
  else if m ≤ 0x18 then some .V
  else if 0x20 ≤ m ∧ m ≤ 0x2C then some .M
  else if 0x30 ≤ m ∧ m ≤ 0x33 then some .X
  else if m = 0x3F then some .H
  else none

/-- The origin of a major opcode (Table 2-7). -/
def originOf (m : Nat) : Nat :=
  if m < 0x20 then 0 else if m < 0x2B then 1 else if m < 0x30 then 3 else if m < 0x3F then 2 else 0

/-- The cause code of a class, origin and detail (R421). -/
def causeOf (cls origin detail : Nat) : Nat := cls * 16 + origin * 4 + detail

/-- The detail that an ILLEGAL subcode carries (Table 2-11). -/
def illegalDetail (sub : Nat) : Nat :=
  if sub ≤ 2 then 0 else if sub ≤ 4 then 1 else if sub = 5 ∨ sub = 10 ∨ sub = 11 then 3 else 2

/-- Step 3 of R51: the minor of the word is reserved (Tables 2-8, 2-10, R288, R360). -/
def minorReserved (w : Word) : Bool :=
  let f3 := fld w 0 3
  let f4 := fld w 0 4
  let a := fld w 9 6
  match majorOf w with
  | 0x00 => 9 ≤ a
  | 0x04 => fld w 21 5 == 0 || 16 ≤ fld w 21 5
  | 0x06 => 4 ≤ f3
  | 0x07 => 2 ≤ a
  | 0x0E => 6 ≤ f3
  | 0x12 => f3 == 7
  | 0x14 => 6 ≤ f3
  | 0x15 => 6 ≤ f3
  | 0x17 => 5 ≤ f3
  | 0x20 => 7 ≤ f4
  | 0x21 => !(f4 == 0 || f4 == 2 || f4 == 4 || f4 == 5 || f4 == 6)
  | 0x22 => 7 ≤ f4
  | 0x23 => !(f4 == 4 || f4 == 5 || f4 == 6 || f4 == 8)
  | 0x24 => if f4 < 8 then f3 == 7 else !(f3 == 0 || f3 == 2 || f3 == 4 || f3 == 5 || f3 == 6)
  | 0x25 => (f4 / 4 == 1 && f4 % 4 != 0) || f4 == 11 || 14 ≤ f4
  | 0x26 => 13 ≤ f4
  | 0x27 => f4 == 6 || f4 == 7 || 13 ≤ f4
  | 0x28 => 4 ≤ f4
  | 0x29 => 5 ≤ f4
  | 0x2A => 5 ≤ f4
  | 0x2C => 3 ≤ f4
  | 0x33 => 5 ≤ fld w 10 3
  | _ => false

/-- The 16-bit formats of Table 2-9: f16, bf16, s16, n16. -/
def is16 (c : Nat) : Bool := c == 2 || c == 3 || c == 8 || c == 12

/-- Step 4 of R51, first half: a used field holds a reserved value (Table 2-11 subcode 0x03), the run apart. -/
def usedBad (w : Word) : Bool :=
  let f3 := fld w 0 3
  let f4 := fld w 0 4
  let a := fld w 9 6
  let b := fld w 3 6
  let d := fld w 15 6
  let k := fld w 4 2
  match majorOf w with
  | 0x00 => (a == 5 && 1 < fld w 0 9) || (a == 7 && 2 < fld w 0 9)
  | 0x05 => ((f3 == 4 || f3 == 5) && 16 ≤ d) || (f3 == 7 && 2 ≤ d)
  | 0x0F => (f3 == 6 && 6 ≤ b) || (f3 == 7 && 3 ≤ b)
  | 0x11 => 4 ≤ f3
  | 0x16 => fld w 5 4 == fld w 1 4 || (fld w 0 1 == 1 && !(is16 (fld w 5 4) || is16 (fld w 1 4)))
  | 0x18 => f3 == 4 && b / 4 % 8 != 0
  | 0x21 => k == 3
  | 0x24 => 8 ≤ f4 && k == 3
  | 0x25 => (f4 == 4 && (d % 16 == 0 || 16 ≤ d || k != 0)) || (8 ≤ f4 && f4 < 12 && k != 0)
  | 0x28 => k != 0
  | 0x29 => k != 0
  | 0x33 => fld w 7 3 != 0
  | 0x3F => fld w 24 2 == 0 && f3 != 0
  | _ => false

/-- Step 4 of R51, second half: a field that the instruction does not use is nonzero (subcode 0x04), the run apart. -/
def unusedBad (w : Word) : Bool :=
  let f3 := fld w 0 3
  let f4 := fld w 0 4
  let a := fld w 9 6
  let b := fld w 3 6
  let d := fld w 15 6
  let i9 := fld w 0 9
  match majorOf w with
  | 0x00 =>
    ((a == 0 || a == 6) && (fld w 15 10 != 0 || i9 != 0)) || ((a == 1 || a == 2) && d != 0) || (a == 8 && i9 != 0)
  | 0x05 =>
    (f3 == 0 && d != 0) || (f3 == 1 && (d != 0 || b != 0)) || ((f3 == 2 || f3 == 3 || f3 == 6) && fld w 3 18 != 0) ||
    ((f3 == 4 || f3 == 5) && fld w 3 12 != 0) || (f3 == 7 && ((d == 0 && b != 0) || (d == 1 && a != 0)))
  | 0x07 => a == 1 && (d != 0 || i9 != 0)
  | 0x08 => 6 ≤ f3 && b != 0
  | 0x09 => 8 ≤ a
  | 0x0A => (f3 == 3 || 5 ≤ f3) && b != 0
  | 0x0B => 8 ≤ a
  | 0x0D => 8 ≤ a
  | 0x0F => ((f3 == 0 || f3 == 3 || f3 == 4) && b != 0) || (f3 == 7 && a != 0)
  | 0x10 => (f3 == 4 || f3 == 5 || f3 == 6) && b != 0
  | 0x12 => b != 0
  | 0x17 => (f3 == 0 || f3 == 2) && b != 0
  | 0x18 => ((f3 == 3 || 5 ≤ f3) && b != 0) || (f3 == 4 && ((b < 32 && a != 0) || (32 ≤ b && d != 0)))
  | 0x25 => ((f4 < 4 || 12 ≤ f4) && d != 0) || (f4 == 4 && a != 0)
  | 0x28 => a != 0 || (f4 == 0 && d != 0) || ((f4 == 0 || f4 == 2) && fld w 6 3 != 7)
  | 0x29 => f4 != 3 && a != 0
  | 0x2A => a != 0 || fld w 4 2 != 0 || fld w 6 3 != 7
  | 0x2B => f4 < 8 && a != 0
  | 0x33 => fld w 10 3 == 2 && fld w 13 6 != 0
  | _ => false

/-- Step 5 of R51: U = 1 where it is not permitted (U columns of Tables 2-8 and 2-10). -/
def uBad (w : Word) : Bool :=
  let f3 := fld w 0 3
  let f4 := fld w 0 4
  let a := fld w 9 6
  fld w 25 1 == 1 &&
  match majorOf w with
  | 0x00 => a == 0 || a == 1 || a == 2 || a == 6 || a == 7
  | 0x03 => true
  | 0x05 => f3 == 2 || f3 == 3 || f3 == 5 || f3 == 6
  | 0x06 => f3 == 1
  | 0x07 => true
  | 0x0F => 2 ≤ f3
  | 0x17 => f3 == 2
  | 0x25 => f4 < 8
  | 0x28 => true
  | _ => false

/-- Step 6 of R51: the special-register number is undefined (0x0A) or not writable (0x0B) (R31, R33). -/
def srBad (w : Word) : Option Nat :=
  if majorOf w = 0x00 then
    if fld w 9 6 = 3 ∧ 10 ≤ fld w 0 9 then some 0x0A
    else if fld w 9 6 = 4 ∧ 10 ≤ fld w 0 9 then some 0x0A
    else if fld w 9 6 = 4 ∧ fld w 0 9 ≠ 7 then some 0x0B
    else none
  else none

/-- Which `opx` fields a word honours (Table 2-6, R47, R209, R249, R360). -/
structure Honours where
  src3 : Bool := false
  mode : Bool := false
  sat : Bool := false
  comm : Bool := false
  scope : Bool := false
  path : Bool := false
  pxD : Bool := false
  pxA : Bool := false
  pxB : Bool := false
  pxS3 : Bool := false
  itype : Bool := false
  deriving DecidableEq, Repr

/-- The `opx` fields that a word honours. -/
def honours (w : Word) : Honours :=
  let f3 := fld w 0 3
  let f4 := fld w 0 4
  let m3 := fld w 9 3
  match majorOf w with
  | 0x05 => if f3 = 5 ∨ f3 = 7 then { scope := true } else {}
  | 0x06 => if f3 = 0 ∨ f3 = 2 then { scope := true } else if f3 = 3 then { pxD := true } else {}
  | 0x07 => if fld w 9 6 = 0 then { pxD := true } else {}
  | 0x08 => { sat := f3 < 3 || 6 ≤ f3, itype := true }
  | 0x09 => { sat := m3 < 3 || 6 ≤ m3, itype := true }
  | 0x0A => { src3 := f3 == 4, pxS3 := f3 == 4, itype := true }
  | 0x0B => { src3 := m3 == 4, pxS3 := m3 == 4, itype := true }
  | 0x0C => { src3 := f3 == 7, sat := f3 == 7, itype := true }
  | 0x0D => { src3 := m3 == 7, sat := m3 == 7, itype := true }
  | 0x0E => { pxD := true, itype := true }
  | 0x0F => if f3 = 3 then { pxD := true } else if f3 = 4 then { pxA := true } else { itype := f3 == 6 }
  | 0x10 => { mode := f3 < 2 }
  | 0x11 => { mode := true, src3 := true }
  | 0x12 => { mode := f3 == 2 }
  | 0x13 => { pxD := true }
  | 0x14 => { mode := f3 < 3, src3 := f3 == 2 }
  | 0x15 => { mode := true, src3 := f3 == 2 || f3 == 5 }
  | 0x16 => { mode := true, sat := true }
  | 0x18 =>
    if f3 < 3 then { pxD := true, pxA := true, pxB := true }
    else if f3 = 4 then {}
    else if f3 = 5 then { pxA := true }
    else { pxD := true, pxA := true }
  | 0x20 => { mode := true, comm := true }
  | 0x21 => { mode := true }
  | 0x24 => { mode := true }
  | 0x25 => if f4 < 4 then { comm := true } else if f4 = 12 then { path := true } else {}
  | 0x26 => { mode := true, comm := true, itype := f4 < 10 }
  | 0x27 => { mode := true, comm := true, itype := f4 < 10 }
  | 0x28 => { pxD := f4 == 1 }
  | 0x29 => { pxA := f4 == 3 }
  | 0x33 => { path := fld w 10 3 == 0 }
  | _ => {}

/-- The word honours every nonzero field of the hint (R41). -/
def opxHonoured (h : Honours) (x : OpxHint) : Bool :=
  (h.src3 || x.src3 == 0) && (h.mode || x.mode == 0) && (h.sat || !x.sat) && (h.comm || !x.comm) &&
  (h.scope || x.scope == 0) && (h.path || x.path == 0) && (h.pxD || !x.pxD) && (h.pxA || !x.pxA) &&
  (h.pxB || !x.pxB) && (h.pxS3 || !x.pxS3) && (h.itype || x.itype == 0)

/-- The target accepts a hint of the kind: 0 `sched`, 1 `imx`, 2 `opx`, 3 `pre` (Table 2-4, R150, R181, R209, R288, R299, R301, R327, R371, R391). -/
def hintAccepted (w : Word) (promote : Bool) (kind : Nat) : Bool :=
  let m := majorOf w
  match kind with
  | 1 =>
    match formatOf m with
    | some .V => m == 0x0F && fld w 0 3 == 1
    | some .I => true
    | some .J => true
    | some .M =>
      m < 0x28 && (m != 0x25 || (4 ≤ fld w 0 4 && fld w 0 4 != 4) || (fld w 0 4 < 4 && promote))
    | _ => false
  | 2 =>
    match formatOf m with
    | some .V => !(m == 0x05 && fld w 0 3 < 2)
    | some .I => true
    | some .M => true
    | some .X => m == 0x33 && fld w 10 3 == 0
    | _ => false
  | _ => true

/-- Step 4 of R51 for a value that the run gives: a reserved or forbidden `opx` or `imx` value before this word (R40, R42, R288, R327, R360). -/
def runValueBad (w : Word) (x : OpxHint) (imx : Option (BitVec 24)) : Bool :=
  let m := majorOf w
  let f4 := fld w 0 4
  let k := fld w 4 2
  let md := x.mode.toNat
  let rounding := m == 0x10 || m == 0x11 || m == 0x12 || m == 0x14 || m == 0x15 || m == 0x16
  let narrow := m == 0x16 && (let d := fld w 5 4; d == 2 || d == 3 || d == 4 || d == 5 || d == 6)
  (rounding && (5 ≤ md || (md == 4 && !narrow))) ||
  ((m == 0x20 || (m == 0x24 && f4 < 8)) && 2 ≤ md) ||
  ((m == 0x21 || (m == 0x24 && 8 ≤ f4)) && (md == 1 || 3 ≤ md)) ||
  (m == 0x20 && x.comm && md != 1) ||
  (m == 0x25 && f4 < 4 && x.comm && (f4 == 1 || k != 2)) ||
  ((m == 0x26 || m == 0x27) &&
    (4 ≤ md || (x.comm && (md == 2 || (md == 0 && 6 ≤ f4 && f4 ≤ 9) || (md != 0 && (m == 0x27 || k != 2)))))) ||
  x.path == 3 ||
  (m == 0x0F && fld w 0 3 == 1 && (match imx with | some p => p.toNat / 2 ^ 20 != 0 | none => false))

/-- The first failure of steps 1 and 3 to 6 of R51 for a word with no run: its subcode of Table 2-11. -/
def staticSub (w : Word) : Option Nat :=
  if (formatOf (majorOf w)).isNone then some 0x01
  else if minorReserved w then some 0x02
  else if usedBad w then some 0x03
  else if unusedBad w || (majorOf w == 0x25 && fld w 0 4 < 4 && fld w 9 6 != 0) then some 0x04
  else if uBad w then some 0x05
  else srBad w

end Sys2Proof
end

