-- ==== Sys2Proof/Config.lean ====
section
/-!
DEFINITION. What is fixed for every KS960-M (spec/01_device_overview.md, Table 1-1) and the free values: what the manual leaves
open. A free value is an `opaque` constant with no body, so that nothing in Lean can evaluate it and a proof about it holds for
every value. Each is applied to what the manual lets it depend on, or to the counter `State.freeCtr` for a fresh value each time
(notes/assumptions/1.md).
-/
namespace Sys2Proof.Config

/-- Compute dies of a module (R10). -/
def dies : Nat := 4
/-- Cores of a module (Table 1-1). -/
def cores : Nat := 256
/-- Scheduler partitions of a core (R11). -/
def partitions : Nat := 12
/-- Scratchpad banks of a core (Table 1-1). -/
def banks : Nat := 32
/-- Bytes of a scratchpad bank: 32 KiB (Table 1-1). -/
def bankBytes : Nat := 32768
/-- Accumulator tiles of a core (Table 1-1). -/
def tiles : Nat := 4096
/-- Register-file bytes of a partition: 128 KiB (Table 1-1). -/
def rfBytes : Nat := 131072
/-- Partition slots of a core (R128). -/
def slots : Nat := 8
/-- Bins of a die (R172). -/
def binsPerDie : Nat := 256
/-- Arena numbers of a module (R143). -/
def arenas : Nat := 4096
/-- Far-memory channels (R10). -/
def channels : Nat := 32
/-- The vault window base VW (R17). -/
def vw : Nat := 0x1FFFFFE00000000
/-- The span of the vault window: 4 GiB (R17). -/
def vwSpan : Nat := 0x100000000
/-- The first byte of the scratchpad window (R265). -/
def spmWindow : Nat := 0x1FFFFFFFFE00000
/-- The end of the virtual space (R265). -/
def vaEnd : Nat := 0x200000000000000
/-- Bytes of the smallest page: 64 KiB (R16). -/
def page : Nat := 65536
/-- The first physical address of the vaults (Table 13-1). -/
def paVault : Nat := 0x4000000000
/-- The end of the vaults (Table 13-1). -/
def paVaultEnd : Nat := 0x4100000000
/-- The first physical address of host memory (Table 13-1). -/
def paHost : Nat := 0x8000000000000
/-- Bytes of a far channel: 8 GiB (Table 1-1). -/
def channelBytes : Nat := 0x200000000
/-- Where the header region of a channel begins: its top 256 MiB (R267, R270). -/
def channelMappable : Nat := 0x1F0000000
/-- Bytes of the arena descriptors, at the mappable end of one channel (R144, R267). -/
def descBytes : Nat := 0x40000
/-- Slots of a domain's fault area (R412). -/
def faultSlots : Nat := 1024
/-- Pages that a slice's zero map holds (R159). -/
def zeroMapPages : Nat := 8192
/-- Entries of a discard filter (R158). -/
def filterEntries : Nat := 16
/-- Range records of a slice (R283). -/
def rangeRecords : Nat := 64
/-- Entries of a pair's TLB, those guaranteed to a resident domain, and entries and walk slots of a quadrant's service (R280). -/
def tlbEntries : Nat := 512
def tlbGuaranteed : Nat := 24
def serviceEntries : Nat := 16384
def walkSlots : Nat := 4096
/-- Arena numbers a domain may hold besides its root (R146). -/
def numbersPerDomain : Nat := 239
/-- Operation entries of a core for each partition slot (R302). -/
def engineEntries : Nat := 64
/-- Posted receives of a partition slot (R390). -/
def receives : Nat := 256
/-- Entries of a slot's overflow queue (R390). -/
def overflowEntries : Nat := 64
/-- Ready-table entries of a block (R113). -/
def blockEntries : Nat := 1024
/-- The default bin time in units of 100 ns: 1 µs (R173). -/
def binTimeDefault : Nat := 10
/-- The default grace window in µs (R120). -/
def graceDefault : Nat := 20
/-- The fairness threshold of a record that names none, in ac (R193). -/
def fairnessDefault : Nat := 512

/-- A fresh free natural number: an unspecified choice among several (R9, R177, R300). -/
opaque freeNat : Nat → Nat
/-- A fresh free bit: the old or the new value of an early read (R39, R201). -/
opaque freeBit : Nat → Bool
/-- A fresh free register word: an unpredictable value (R6). -/
opaque freeWord : Nat → Word
/-- A fresh free byte: what a byte holds after two racing writes (R306, R308). -/
opaque freeByte : Nat → Byte
/-- What an engine reads in banks that its team has given up: by the operation and the offset (R452). -/
opaque goneByte : Nat → Nat → Byte
/-- The value `frcp` delivers where Table 12-5 gives only a bound. -/
opaque frcp : Word → Word
/-- The value `frsq` delivers where Table 12-5 gives only a bound. -/
opaque frsq : Word → Word
/-- The value `fex2` delivers where Table 12-5 gives only a bound. -/
opaque fex2 : Word → Word
/-- The value `flg2` delivers where Table 12-5 gives only a bound. -/
opaque flg2 : Word → Word
/-- The value `fsin` delivers where Table 12-5 gives only a bound. -/
opaque fsin : Word → Word
/-- The value `fcos` delivers where Table 12-5 gives only a bound. -/
opaque fcos : Word → Word
/-- Whether the Falcon-1024 signature of a configuration record's bytes verifies against the vendor key (R460). -/
opaque signatureOk : List Byte → Bool
/-- The hash of the mask ROM (R462). -/
opaque romHashWord : BitVec 256
/-- The 32 bytes of the mask-ROM hash (R462). -/
def romHash : List Byte := leBytes 32 romHashWord.toNat
/-- The Falcon-1024 signature that the identity key puts on a quote (R462). -/
opaque identitySign : List Byte → List Byte
/-- The CRC-16 of a flit's bytes: the manual names the width and gives no polynomial (R398). -/
opaque crc16 : List Byte → BitVec 16
/-- The bytes of a message's packet: the manual gives a flit's layout and none for the packet that the flits carry (R398). By source, domain,
destination core, tag and payload. -/
opaque messagePacket : Nat → Nat → Nat → Word → List Byte → List Byte
/-- The temperature a die's sensors read, by die and time (R464, R468). -/
opaque sensor : Nat → Nat → Nat

end Sys2Proof.Config
end

