-- ==== Sys2Proof/Machine/State.lean ====
section
/-!
DEFINITION. The state of the module as plain data: everything INVENTORY.md lists under "State", the reasons a step can stop,
and the state after module reset. Tables are sparse (`Tab`): a key that is not listed has the table's default.
Keys: a lane is `gid * 64 + lane`; a core is module-wide, 0 to 255; a core pair is `core / 2`.
-/
namespace Sys2Proof.Machine

/-- Who moves next. `State.agenda` is a list of turns: the interleaving of the agents is an input (DESIGN CHOICE, log 2). -/
inductive Turn where
  /-- The event takes place. -/
  | event (i : Instr)
  /-- A partition takes its vote and issues a word (R190). -/
  | issue (core part : Nat)
  /-- The host stores bytes to its own memory, from a bus address up (R98, R359). -/
  | host (addr : Nat) (bytes : List Byte)
  /-- 1/700 MHz of wall time passes (DESIGN CHOICE, log 3). -/
  | tick
  deriving DecidableEq, Repr

/-- The word that the vote chose: the issuing set of a group, the word's address, the run before it (R23, R35). -/
structure Cur where
  gid : Nat
  lanes : BitVec 64
  pc : DWord
  run : List Word
  word : Word
  /-- The port on which it issues (R190, R192). -/
  port : Nat := 0
  deriving DecidableEq, Repr

/-- What a fault record is built from (R414). -/
structure FaultInfo where
  cause : Nat
  sub : Nat := 0
  addr : Nat := 0
  info : Nat := 0
  group : Bool := false
  deriving DecidableEq, Repr

/-- Why a lane forms no lane set (R188). -/
inductive Held where
  | none
  /-- The word at the lane's PC could not issue yet; cleared by the next event or tick. -/
  | retry
  | join
  /-- Barrier number and scope (R213). -/
  | bar (k scope : Nat)
  /-- A waiter in place of a tag, with its deadline in ac and its predicate (R185). -/
  | await (tag : Word) (deadline pred : Nat) (members : BitVec 64)
  /-- Until a byte of the scratchpad word is written (R297); `tok` is the token of the word, whose slot stays pending (R287). -/
  | waita (core bank off tok : Nat)
  /-- A ring of the team: `rtake` or `rsv`, and the lanes that take part (R300); no members in the other lanes of a U = 1 word. -/
  | ring (r : Nat) (take : Bool) (members : BitVec 64)
  /-- Signed at a convergence register (R318). -/
  | sign (c : Nat)
  /-- At a pre-emption point with its live map and range index (R429). -/
  | prePoint (live : BitVec 16) (ranges : Nat)
  /-- Waits for a fault slot or a waiter entry (R416). -/
  | faultSlot (f : FaultInfo) (word : Word) (next pc : DWord)
  /-- Its fault has taken slot `slot` and a waiter entry, and its release goes on (R415). -/
  | deliver (slot : Nat) (f : FaultInfo) (word : Word) (next pc : DWord)
  /-- Until the results of the word are written (R181). -/
  | result
  deriving DecidableEq, Repr

/-- A line of a transaction's read or write set: its address and the bytes read or written (R373). -/
structure TxLine where
  pa : Nat
  dom : Nat
  arena : Nat
  gen : Nat
  bytes : Tab Byte
  deriving DecidableEq, Repr

/-- An open transaction (R372, R373). -/
structure Txn where
  reads : List TxLine := []
  writes : List TxLine := []
  /-- Doom reason and cause (R373), when doomed. -/
  doom : Option (Nat × Nat) := .none
  deriving DecidableEq, Repr

/-- A transaction in its commit (R376): the predicate it writes, and the homes of its lines under the slice maps in force when the word
issued: line, home. -/
structure Commit where
  pred : Nat
  tok : Nat
  homes : List (Nat × Nat) := []
  deriving DecidableEq, Repr

/-- One fibre (R167). -/
structure Lane where
  /-- Address of the next word. -/
  pc : DWord
  /-- Hint words collected before the target (R35). -/
  run : List Word := []
  preds : BitVec 128 := 1
  fpstat : Word := 0
  held : Held := .none
  txn : Option Txn := .none
  txStat : Word := 0
  commit : Option Commit := .none
  /-- A release part in progress (R346): the write-backs it waits for, and whether they are those to host memory. -/
  rel : Option (Bool × List Nat) := .none
  /-- The tag at which its `park` has reserved a waiter entry, while the release of that word goes on (R183). -/
  parkTag : Option Word := .none
  /-- The port on which the hints of its run issued (R192). -/
  port : Nat := 0
  /-- Ready but not issued, in ac (R193). -/
  wait : Nat := 0
  /-- The ac in which the lane last issued, plus 1; 0 for never. -/
  lastAc : Nat := 0
  deriving DecidableEq, Repr

/-- A reconvergence entry (Table 10-1). -/
structure DivEntry where
  pc : DWord
  mask : BitVec 64
  /-- Creation number, not reduced (R196). -/
  seq : Nat
  /-- Lanes that have arrived (R197). -/
  arrived : BitVec 64 := 0
  deriving DecidableEq, Repr

/-- A convergence register (R212, R318). -/
structure Conv where
  declared : BitVec 64 := 0
  signed : BitVec 64 := 0
  addr : DWord := 0
  run : List Word := []
  word : Word := 0
  /-- Token of the first signer, which owns the slot (R325). -/
  tok : Nat := 0
  deriving DecidableEq, Repr

/-- A registered kernel header (Tables 4-1, 4-2). -/
structure Header where
  dom : Nat
  entry : Nat
  gw : Nat
  window : Nat
  divmax : Nat
  teamg : Nat
  banks : Nat
  uchk : Bool
  schk : Bool
  coop : Bool
  roled : Bool
  tiles : Nat
  rolemap : Nat
  /-- The live-range table: the range words of each entry (R84). -/
  live : List (List Nat)
  deriving DecidableEq, Repr

/-- The coverage of a `sched` hint (R39): stalls of the covered words still to issue, and the yield after the last. -/
structure Cover where
  stalls : List Nat
  yld : Bool
  deriving DecidableEq, Repr

/-- The caller's side of an open gate (R138). -/
structure GateFrame where
  stamp : Nat
  func : Nat
  retPc : DWord
  pred : Nat
  window : Nat
  divmax : Nat
  rfBase : Nat
  /-- Caller registers and predicates. -/
  regs : Tab Word
  preds : Tab (BitVec 128)
  entries : List DivEntry
  /-- Poisoned registers of the caller's window (R465). -/
  poison : List Nat
  deriving DecidableEq, Repr

/-- One group (R167). -/
structure Group where
  team : Nat
  core : Nat
  part : Nat
  pos : Nat
  width : Nat
  gridix : Word
  prio : Nat
  /-- The domain stamp (R125) and its function. -/
  stamp : Nat
  func : Nat
  /-- Domain of the creating function and entry address of the governing header. -/
  kdom : Nat
  kentry : Nat
  window : Nat
  divmax : Nat
  uchk : Bool
  schk : Bool
  /-- Role code, 0 for none (R170). -/
  role : Nat
  /-- Register-file base in the partition, in bytes (R126, R128). -/
  rfBase : Nat
  entries : List DivEntry := []
  /-- `divr` words executed (Table 10-1 seq). -/
  seq : Nat := 0
  conv : Tab Conv := []
  /-- Pending slots with the token of the owning word (R30). -/
  slots : Tab Nat := []
  /-- Group-scope barriers: lanes arrived (R213). -/
  bars : Tab (BitVec 64) := []
  cover : Option Cover := .none
  notBefore : Nat := 0
  /-- A yield has taken effect, in the ac before `yieldAc`; `satOut` is 1 more than the ac whose vote it sits out (R192). -/
  yielded : Bool := false
  yieldAc : Nat := 0
  satOut : Nat := 0
  /-- The lanes that alone may issue while their word makes its release and the whole group is held (R181); 0 for no such word. -/
  only : BitVec 64 := 0
  /-- Values of unwaited results that a covered word will read as they stood before (R201): lane key times 128 plus register. -/
  early : Tab Word := []
  /-- The ac of the last issue on either port (R190 age). -/
  lastIssue : Nat := 0
  /-- Order of placement on the partition (R190). -/
  placed : Nat := 0
  /-- 1 more than the issuing ac left of an inverted batch; 0 outside one (R193). -/
  batch : Nat := 0
  gate : Option GateFrame := .none
  /-- The cause of the first fault in target code; the gate aborts when the word is over (R140). -/
  abort : Option Nat := .none
  /-- Words with a lower token were issued behind a gate that has aborted; what they still give reaches no register (R140). -/
  voidTo : Nat := 0
  /-- Retired (R169, R451). -/
  retired : Bool := false
  deriving DecidableEq, Repr

/-- A stage ring (Table 14-2). -/
structure Ring where
  n : Nat := 0
  free : Nat := 0
  res : Nat := 0
  full : Nat := 0
  taken : Nat := 0
  deriving DecidableEq, Repr

/-- One team (R167). -/
structure Team where
  dom : Nat
  func : Nat
  core : Nat
  pair : Bool
  kentry : Nat
  teamix : Word
  grid : Option Nat
  groups : List Nat
  prio : Nat
  /-- Team banks in order: core and bank (R266). -/
  banks : List (Nat × Nat)
  /-- Tiles of the team per core and its first physical tile on each core (R131). -/
  tiles : Nat
  tbase : List Nat
  /-- Core-scope barriers: lanes arrived, as lane keys (R213). -/
  bars : Tab (List Nat) := []
  rings : Tab Ring := []
  retired : Bool := false
  /-- Image number while the team is saved (R434). -/
  saved : Option Nat := .none
  deriving DecidableEq, Repr

/-- A batch of granted team indices (R108). -/
structure Grant where
  first : Nat
  count : Nat
  die : Nat
  started : List Nat := []
  deriving DecidableEq, Repr

/-- One grid (R108, R453). -/
structure Grid where
  func : Nat
  dom : Nat
  graph : Nat
  node : Nat
  kentry : Nat
  groups : Nat
  teams : Nat
  teamg : Nat
  coop : Bool
  prio : Nat
  args : List Word
  next : Nat := 0
  grants : List Grant := []
  /-- Claims in arrival order: die and count. -/
  claims : List (Nat × Nat) := []
  dies : List Nat
  leader : Nat
  deputy : Nat
  /-- The deputy's copy of the counter (R108). -/
  mirror : Nat := 0
  /-- Wall tick at which a deputy last became the leader or was chosen (R108). -/
  elected : Option Nat := .none
  /-- Groups of lost teams that had started. -/
  lostStarted : Nat := 0
  /-- Indices to be granted again. -/
  again : List Nat := []
  placedTeams : List Nat := []
  retiredTeams : Nat := 0
  lostTeams : Nat := 0
  lostGroups : Nat := 0
  /-- Group numbers of lost teams: what they have under way that a die does not take with it is waited for (R453). -/
  lostGids : List Nat := []
  faulted : Nat := 0
  abandoned : Bool := false
  aborted : Bool := false
  dieLost : Bool := false
  /-- Its function lost cores while it was halted (R121). -/
  shrunk : Bool := false
  /-- Its node is in a later iteration of its body already (R92). -/
  orphan : Bool := false
  /-- Pairs on which a group ran (R454). -/
  pairs : List Nat := []
  /-- Device- and system-scope barriers: lanes arrived by number and scope (R213). -/
  bars : Tab (List Nat) := []
  deriving DecidableEq, Repr

/-- A slot's partition registers (Table 7-2) and the register bytes taken in each partition. -/
structure Slot where
  dpid : Word := 0
  dprf : Word := 0
  dpspm : Word := 0
  dpacc : Word := 0
  dpl1 : Word := 0
  dpgate : Word := 0
  deriving DecidableEq, Repr

/-- A copy of a line in a pair's L1 (Table 13-3). The key holds pair, path, line address and tag. -/
structure L1Line where
  dom : Nat
  arena : Nat
  gen : Nat
  header : BitVec 16 := 0
  data : Tab Byte := []
  dmask : BitVec 64 := 0
  fresh : BitVec 64 := 0
  /-- It stands at the least-recent position of its set: inserted with cache class streaming and not read or written since (R272). -/
  least : Bool := false
  deriving DecidableEq, Repr

/-- The data of a host-backed line held at its home slice: its 64 bytes, and those not yet in host memory (Table 13-4, R273). The
key holds line address and tag. -/
structure HostLine where
  data : Tab Byte
  dmask : BitVec 64
  deriving DecidableEq, Repr

/-- States of a slice line (Table 13-4): invalid lines are not listed. -/
inductive SliceState where
  | clean | dirty | replica
  deriving DecidableEq, Repr

/-- A line of a shared-cache slice (Table 13-4): its data stand in `mem` or `hostLines`, prm and owned in their own tables. The key is
slice, set and way. -/
structure SliceLine where
  state : SliceState
  line : Nat
  dom : Nat
  arena : Nat
  gen : Nat
  rrpv : Nat
  /-- Scope record of a dirty line: 2 device, 3 system; 0 otherwise (R273). -/
  scope : Nat := 0
  deriving DecidableEq, Repr

/-- Consecutive 64 KiB pages in a slice's zero map (R159), and those of their lines whose bits are clear. -/
structure ZeroRun where
  page : Nat
  n : Nat
  done : List Nat := []
  deriving DecidableEq, Repr

/-- A page entry (R16, R281). The key is `domain * 2^57 + va`. -/
structure Page where
  size : Nat
  pa : Nat
  dom : Nat
  arena : Nat
  gen : Nat
  writable : Bool
  deriving DecidableEq, Repr

/-- States of an arena number (Table 8-2; `held` under R166). -/
inductive ArenaState where
  | free | live | sealed | draining | held
  deriving DecidableEq, Repr

/-- The descriptor of an arena number (R144, R148). -/
structure Arena where
  state : ArenaState := .free
  gen : Nat := 0
  dom : Nat := 0
  depth : Nat := 0
  parent : Nat := 0
  quota : Nat := 0
  charge : Nat := 0
  base : Nat := 0
  rangeEnd : Nat := 0
  bump : Nat := 0
  deriving DecidableEq, Repr

/-- A drop in progress (R154, R157) with the word that started it; it has no members before its drop point. -/
structure Drop where
  root : Nat
  members : List Nat
  /-- Arenas still to be marked draining, the root first (R163): number and generation. -/
  unmarked : List (Nat × Nat)
  gid : Nat
  tok : Nat
  /-- The lanes that named it and the predicate they receive at the drop point; what a fault found there raises with. -/
  lanes : BitVec 64 := 0
  pred : Nat := 0
  pc : DWord := 0
  next : DWord := 0
  word : Word := 0
  deriving DecidableEq, Repr

/-- A seal in progress (R153, R164) with the word that started it. -/
structure Seal where
  arena : Nat
  gen : Nat
  taken : Bool
  gid : Nat
  tok : Nat
  /-- The arenas marked sealed at the seal point, whose sweep goes on. -/
  members : List Nat := []
  deriving DecidableEq, Repr

/-- An entry of the discard filters (R158): tag, physical ranges of first byte and length (none for every line of the tag), and by
tag array (bits 0 to 127 the pairs' L1s, 128 to 255 the slices) whether it still holds the entry, or has no room for it yet. -/
structure FilterEntry where
  arena : Nat
  gen : Nat
  ranges : List (Nat × Nat)
  left : BitVec 256
  todo : BitVec 256 := 0
  deriving DecidableEq, Repr

/-- What a memory access in flight does at its home (R344). -/
inductive AccKind where
  /-- A fill of the pair's copy on a path, then the value for a load (`kind` of Table 2-10). -/
  | fill (path : Nat)
  /-- A read at the home slice (`ldnc`). -/
  | readHome
  /-- A transactional read at the home slice (R373). -/
  | txRead
  /-- A merge of bytes at the home (`stnc`, record of a park). -/
  | merge
  /-- The write-through of a release store; its bytes are forwarded within the pair until they merge (R345, R346). -/
  | through
  /-- A device-scope flush of the pair that a promotion asks for (R292, R355). -/
  | promote
  /-- Write-back of a dirty copy of the pair (R272). -/
  | writeBack (path : Nat)
  /-- Write-back of a dirty copy that has left the L1 for want of room (R272). -/
  | victim (l : L1Line)
  /-- Write-back of a dirty host-backed slice line to host memory (R273). -/
  | hostBack
  /-- A host access whose PCI Express transaction fails (R281). -/
  | failed
  /-- A read that its home has answered: `got` is on its way (R161). -/
  | answered
  deriving DecidableEq, Repr

/-- A memory access in flight. -/
structure Access where
  kind : AccKind
  tok : Nat
  gid : Nat
  lane : Nat
  pair : Nat
  dom : Nat
  arena : Nat
  gen : Nat
  pa : Nat
  size : Nat
  /-- Load kind of Table 2-10 (8 for `.hdr`), destination register and the lanes that receive it. -/
  lkind : Nat := 0
  reg : Nat := 0
  lanes : BitVec 64 := 0
  acq : Bool := false
  promote : Bool := false
  /-- Cache class (Table 2-10 K) and traffic class (R277). -/
  cc : Nat := 0
  tc : Nat := 0
  bytes : List Byte := []
  /-- Accesses that must be gone first (the flush of a release store). -/
  deps : List Nat := []
  /-- The prm entry whose pair has been asked to flush (R355). -/
  asked : Option Nat := .none
  /-- The value of a load that a later access of its lane to the same bytes fixes (R345). -/
  got : Option (List Byte) := .none
  /-- Epoch of the slice map under which it was hashed (R387). -/
  epoch : Nat := 0
  deriving DecidableEq, Repr

/-- A result on its way to registers (R30). -/
structure Result where
  tok : Nat
  gid : Nat
  /-- Lane key, register, value. -/
  regs : List (Nat × Nat × Word) := []
  preds : List (Nat × Nat × Bool) := []
  /-- Floating-point events that the lanes take with the result (R250). -/
  fp : List (Nat × Nat) := []
  /-- Lane keys held at the word, which raise FPX when the result is due (R234, R250). -/
  traps : List Nat := []
  /-- The lane keys that are held until the result, and the scope at which they then acquire (R274, R346). -/
  acq : List Nat := []
  scope : Nat := 2
  /-- The major of its word: a save does not wait for ARENA and MSG words (R393, R431). -/
  major : Nat := 0
  deriving DecidableEq, Repr

/-- One atomic or reduction operation of a lane (R362). -/
structure AtomOp where
  gid : Nat
  lane : Nat
  tok : Nat
  reg : Nat
  lanes : BitVec 64
  isAtom : Bool
  v : Nat
  b : Nat
  acq : Bool
  scope : Nat
  promote : Bool
  /-- What a fault found at the home raises with: its address, the PC of R37, the address after the word, and the word (R366). -/
  va : Nat := 0
  pc : DWord := 0
  next : DWord := 0
  word : Word := 0
  deriving DecidableEq, Repr

/-- A request for a home: the operations it carries, in order (R367, R368). -/
structure AtomReq where
  ops : List AtomOp
  kind : Nat
  signed : Bool
  size : Nat
  pair : Nat
  dom : Nat
  arena : Nat
  gen : Nat
  /-- Physical address, or the bank's place in the scratchpad. -/
  pa : Nat
  inSpm : Bool
  rel : Bool
  /-- In a combining buffer since this ac (R367). -/
  buffered : Option Nat
  comm : Bool := false
  /-- Write-backs that must be gone first. -/
  deps : List Nat := []
  /-- The prm entry whose pair has been asked to flush (R355). -/
  asked : Option Nat := .none
  /-- Epoch of the slice map under which it was hashed (R387). -/
  epoch : Nat := 0
  deriving DecidableEq, Repr

/-- A pending write of the scoreboard (R199, R201). -/
structure Pend where
  gid : Nat
  lanes : BitVec 64
  regs : List Nat
  preds : List Nat
  /-- The ac from which a covered word may read a fixed-latency result; `none` for a variable-latency one. -/
  due : Option Nat
  tok : Nat
  /-- Old values: lane key times 128 plus register. -/
  old : Tab Word
  oldPreds : Tab (BitVec 128)
  /-- Registers that a later covered word wrote before this result (R201 detail 2): lane key times 128 plus register. -/
  clash : List Nat := []
  deriving DecidableEq, Repr

/-- A matrix operation in flight, its register operands captured (R319). -/
structure MatOp where
  gid : Nat
  team : Nat
  core : Nat
  tok : Nat
  word : Word
  pc : DWord
  /-- Convergence register, signed lanes that had not ended, and declared lanes. -/
  conv : Nat
  signed : BitVec 64
  declared : BitVec 64
  m0 : Nat
  m1 : Nat
  /-- Physical number of tile t: core times 4096 plus tile. -/
  base : Nat
  /-- Rows of the A and B fragments and their headers. -/
  rowsA : List (List Byte) := []
  rowsB : List (List Byte) := []
  hdrA : List Nat := []
  hdrB : List Nat := []
  width : Nat
  /-- Elements that `mld` and `mst` move: index, page (none in the scratchpad), address. -/
  locs : List (Nat × Option Page × Nat) := []
  path : Nat := 0
  deriving DecidableEq, Repr

/-- A fibre in a bin: its four argument words, or a continuation (R172, R180). -/
structure Fibre where
  args : List Word
  resume : Nat
  preds : BitVec 128 := 1
  live : List (Nat × Word) := []
  fpstat : Word := 0
  /-- Its first instruction acquires at system scope (R110, R178). -/
  sys : Bool := false
  deriving DecidableEq, Repr

/-- A bin of a die (R172 to R174). -/
structure Bin where
  dom : Nat
  func : Nat
  entry : Nat
  kentry : Nat
  fibres : List Fibre
  /-- Wall tick at which the timer expires. -/
  timer : Option Nat
  /-- The launched group waiting for placement. -/
  waiting : Option (List Fibre)
  /-- A timer or wake that came while the group waited. -/
  again : Bool := false
  deriving DecidableEq, Repr

/-- A waiter of a tag (R177): a parked continuation (its record) or an `await` lane. -/
inductive Waiter where
  | record (addr : Nat)
  | lane (lk : Nat)
  deriving DecidableEq, Repr

/-- A ready-table entry (R176, R177). -/
structure TagEntry where
  dom : Nat
  func : Nat
  tag : Word
  count : Nat
  waiters : List Waiter
  /-- Entries reserved by parks and deliveries in flight (R183, R415). -/
  reserved : Nat := 0
  /-- Some of its count was posted at system scope (R178). -/
  sys : Bool := false
  deriving DecidableEq, Repr

/-- A released continuation that a blocked bin or a full share keeps out (R174). -/
structure HeldCont where
  die : Nat
  dom : Nat
  func : Nat
  entry : Nat
  kentry : Nat
  fibre : Fibre
  /-- It holds a waiter entry of the table (not a handler fibre). -/
  entryHeld : Bool
  deriving DecidableEq, Repr

/-- A post on its way to its tag's home (R177, R184). -/
structure Post where
  dom : Nat
  func : Nat
  tag : Word
  n : Nat
  gid : Nat := 0
  lanes : BitVec 64 := 0
  reg : Nat := 0
  /-- A post by an engine, a delivery or `eret`: no status, never refused. -/
  free : Bool
  /-- At system scope (R110). -/
  sys : Bool := false
  deriving DecidableEq, Repr

/-- A park whose record is on its way (R183). -/
structure Park where
  lane : Nat
  gid : Nat
  dom : Nat
  func : Nat
  tag : Word
  addr : Nat
  deps : List Nat
  deriving DecidableEq, Repr

/-- An engine operation (R301 to R306). -/
structure EngOp where
  kind : Nat
  gid : Nat
  core : Nat
  team : Nat
  grid : Option Nat
  func : Nat
  dom : Nat
  lane : Nat
  tok : Nat
  params : List Word
  cwVal : Nat
  cw : Bool
  tg : Bool
  scope : Nat
  accepted : Bool := false
  deps : List Nat := []
  idx : List Nat := []
  /-- Lines of memory still owned (R283). -/
  owned : List Nat := []
  /-- Numbers of the registered arenas, and whether a destination lies in them (R162). -/
  arenas : List (Nat × Bool) := []
  /-- Its destinations: first address and bytes. -/
  dests : List (Nat × Nat) := []
  /-- Source bytes that a gathered reply has brought, by physical address (R278, R306). -/
  read : Tab Byte := []
  /-- Combined data of a collective, once its instance is complete. -/
  data : Option (List Byte) := .none
  /-- Cause and address of a failure found before its completion (R312). -/
  failed : Option (Nat × Nat) := .none
  /-- The operations of its collective's instance, once they share their data (R312). -/
  mates : List Nat := []
  /-- The run and the node of a graph's copy (R92). -/
  node : Option (Nat × Nat) := .none
  deriving DecidableEq, Repr

/-- A collective instance (R309, R312): the participants' operations and the ac of the first arrival. -/
structure Coll where
  dom : Nat
  id : Nat
  n : Nat
  ops : List Nat
  first : Nat
  deriving DecidableEq, Repr

/-- Payload bytes received of a packet on a link and class, and whether its last flit has come (R398, Table 19-7). -/
structure LinkPacket where
  bytes : List Byte
  whole : Bool
  deriving DecidableEq, Repr

/-- A flit that a Poldom link has sent and keeps in its replay buffer (R398): link, class, destination module, the number that its flow
takes links by, whether it ends its packet, its sequence number and its payload. -/
structure SentFlit where
  link : Nat
  cls : Nat
  dest : Nat
  flow : Nat
  last : Bool
  seq : Nat
  payload : List Byte
  deriving DecidableEq, Repr

/-- A message on its way (R393). -/
structure Msg where
  dom : Nat
  func : Nat
  source : Nat
  tag : Word
  payload : List Byte
  core : Nat
  modl : Nat
  gid : Nat
  lanes : BitVec 64
  reg : Nat
  tok : Nat
  deriving DecidableEq, Repr

/-- A posted receive (R390, R394). -/
structure Recv where
  core : Nat
  dom : Nat
  func : Nat
  team : Nat
  grid : Option Nat
  addr : Nat
  tag : Word
  mask : Word
  sel : Nat
  greatest : Nat
  cwOff : Nat
  post : Bool
  ready : Word
  scope : Nat
  arenas : List Nat
  deriving DecidableEq, Repr

/-- A queued arrival (R390). -/
structure Arrival where
  core : Nat
  dom : Nat
  source : Nat
  tag : Word
  payload : List Byte
  deriving DecidableEq, Repr

/-- A completion record still to be written (Table 5-4). -/
structure Record where
  tag : Word
  opcode : Nat
  status : Nat
  kind : Nat
  slot : Nat
  info0 : Nat := 0
  info1 : Nat := 0
  /-- Vector of the MSI-X message to send after it (R100). -/
  vec : Option Nat := .none
  deriving DecidableEq, Repr

/-- A captured command (R96) and whether it has started. -/
structure Command where
  bytes : List Byte
  seq : Nat
  /-- Status and offset decided at capture (R100); none when the command may start. -/
  verdict : Option (Nat × Nat) := .none
  started : Bool := false
  deriving DecidableEq, Repr

/-- A command that waits for its effect to finish before its final record: halt, stop, reset or root replacement. -/
structure WaitCmd where
  tag : Word
  opcode : Nat
  slot : Nat
  vec : Option Nat
  /-- The function, graph or arena it waits for. -/
  what : Nat
  stage : Nat := 0
  deriving DecidableEq, Repr

/-- A function and its configuration (R112 to R120), its command page (Table 5-1) and its tenant state. -/
structure Func where
  dom : Option Nat := .none
  /-- Guaranteed and margin cores: bit c for module-wide core c. -/
  cores : BitVec 256 := 0
  margin : BitVec 256 := 0
  channels : BitVec 32 := 0
  /-- Table blocks and bins per die. -/
  blocks : List Nat := [0, 0, 0, 0]
  bins : List Nat := [0, 0, 0, 0]
  weight : Nat := 1
  sliced : Bool := false
  sliceUs : Nat := 0
  rate : Nat := 0
  /-- Budget in 1/716800 µs (1/1024 of a wall tick), offset by 2^40 so that it may fall below zero (R117). -/
  budget : Nat := 0
  running : Bool := false
  grace : Nat := 20
  halted : Bool := false
  resetting : Bool := false
  cqlo : Word := 0
  cqhi : Word := 0
  cqcfg : Word := 0
  cqhead : Word := 0
  slotbsy : Word := 0
  cmderr : Word := 0
  wpos : Nat := 0
  phase : Bool := false
  link : Nat := 0
  slots : Tab Command := []
  captured : Nat := 0
  records : List Record := []
  waiting : List WaitCmd := []
  root : Option Nat := .none
  modules : Tab (List Nat) := []
  traceAddr : Nat := 0
  traceSize : Nat := 0
  traceMask : Nat := 0
  traceDropped : Nat := 0
  faultArea : Option Nat := .none
  faultEntry : Option Nat := .none
  /-- Bin time per die in units of 100 ns (R173). -/
  binTime : List Nat := [10, 10, 10, 10]
  deriving DecidableEq, Repr

/-- A node of a graph (Table 4-6). -/
structure Node where
  kind : Nat
  succs : List Nat
  kernel : Nat := 0
  groups : Nat := 0
  prio : Nat := 0
  args : List Word := []
  src : Nat := 0
  dst : Nat := 0
  bytes : Nat := 0
  cap : Nat := 0
  cond : Nat := 0
  entry : Nat := 0
  exit : Nat := 0
  deriving DecidableEq, Repr

/-- A resident graph (R90). The key is function times 64 plus index. -/
structure Graph where
  modl : Nat
  nodes : List Node
  deriving DecidableEq, Repr

/-- Where a node of a run stands (R92). -/
inductive NodeState where
  | unresolved | running | completed | skipped
  deriving DecidableEq, Repr

/-- A run of a graph (R92, R102). The key is function times 64 plus graph. -/
structure Run where
  tag : Word
  slot : Nat
  vec : Option Nat
  nodes : List NodeState
  /-- Successors that a condition node resolved as skipped: node, successor. -/
  cuts : List (Nat × Nat) := []
  /-- Copies of earlier iterations that are still under way (R92). -/
  orphans : List Nat := []
  iters : Tab Nat := []
  stopped : Bool := false
  ended : Bool := false
  capped : Bool := false
  dieLost : Bool := false
  notFit : Bool := false
  failNode : Nat := 0xFFFF
  failCause : Nat := 0
  lost : Nat := 0
  deriving DecidableEq, Repr

/-- A pre-emption request in force (R427, R428). -/
structure Preempt where
  dom : Nat
  cores : List Nat
  /-- The groups on which it acts: those of the domain on the cores when it arrived. -/
  groups : List Nat
  /-- Wall tick at which the window ends. -/
  windowEnd : Nat
  /-- 0 VF.HALT, 1 pool, 2 revocation, 3 other, 4 a VF.HALT that a resume has ended (R428). -/
  source : Nat
  deriving DecidableEq, Repr

/-- A group of a context image (R436). -/
structure GroupImage where
  group : Group
  light : Bool
  lanes : Tab Lane
  regs : Tab Word
  /-- Quads present. -/
  quads : BitVec 16
  deriving DecidableEq, Repr

/-- A context image (R434): the saved team, with scratchpad by team offset and tiles by core position. -/
structure Image where
  team : Nat
  teamRec : Team
  groups : List (Nat × GroupImage)
  wholeSpm : Bool
  ranges : List Nat
  spm : Tab Byte
  tiles : Tab Word
  side : Tab Word
  order : Nat
  /-- An engine operation or a receive targeted it at the save (Table 24-2). -/
  targeted : Bool := false
  deriving DecidableEq, Repr

/-- The configuration record in force (Table 28-1). -/
structure ConfigRecord where
  counter : Nat := 0
  modl : Nat := 0
  fairness : Nat := 512
  power : Nat := 2800
  retired : BitVec 128 := 0
  links : List Nat := []
  bytes : List Byte := []
  deriving DecidableEq, Repr

/-- A slice map of a die (R387, R389): the map, its epoch, the slices retired, those of them that errors retired until the next module
reset (R466), and the slices handed away whose stubs stand. -/
structure SliceMap where
  map : List Nat
  epoch : Nat := 0
  retired : List Nat := []
  failed : List Nat := []
  stubs : List Nat := []
  deriving DecidableEq, Repr

/-- A TLB entry of a core pair (R280). -/
structure TlbEntry where
  pair : Nat
  dom : Nat
  va : Nat
  size : Nat
  deriving DecidableEq, Repr

/-- A page walk of a quadrant's service, by die times 4 plus quadrant, with the groups it answers (R280, R420). -/
structure Walk where
  quad : Nat
  dom : Nat
  page : Nat
  waiters : List Nat
  deriving DecidableEq, Repr

/-- A detached fault that waits for a slot (R416). -/
structure Detached where
  dom : Nat
  fault : FaultInfo
  core : Nat
  flags : Nat
  pc : Nat
  word : Nat
  domid : Option Nat
  deriving DecidableEq, Repr

/-- What a module-reserved frame holds (R267, R433). -/
inductive FrameUse where
  | table
  /-- The image of a team. -/
  | image (team : Nat)
  /-- Jasper's own state. -/
  | jasper
  deriving DecidableEq, Repr

/-- A module-reserved range of far memory on a function's channels (R267). -/
structure Frame where
  use : FrameUse
  func : Nat
  pa : Nat
  size : Nat
  deriving DecidableEq, Repr

/-- What a partition's vote of the ac has given (R190): the ports on which a word has issued, the group that took port 0, and the lane
set that takes port 1. -/
structure Ports where
  zero : Bool := false
  one : Bool := false
  group : Option Nat := .none
  next : Option Cur := .none
  deriving DecidableEq, Repr

/-- The machine. -/
structure State where
  agenda : List Turn := []
  cur : Option Cur := none
  freeCtr : Nat := 0
  nextId : Nat := 1
  wall : Nat := 0
  /-- Per die, the arithmetic clock in sixteenths of ac (R12, R463). -/
  acs : Tab Nat := []
  /-- The vote of this ac, core times 12 plus partition (R190). -/
  ports : Tab Ports := []
  vregs : Tab Word := []
  lanes : Tab Lane := []
  groups : Tab Group := []
  teams : Tab Team := []
  grids : Tab Grid := []
  board : List Pend := []
  slots : Tab Slot := []
  spm : Tab Byte := []
  tiles : Tab Word := []
  side : Tab Word := []
  l1 : Tab L1Line := []
  mem : List Host.Cell := []
  hdr : Tab (BitVec 16) := []
  hostLines : Tab HostLine := []
  /-- Shared-cache lines (Table 13-4), the counters of the traffic classes and the fills of P1 (R277; keys slice times 8 plus class). -/
  slices : Tab SliceLine := []
  psel : Tab Nat := []
  p1Fills : Tab Nat := []
  /-- Zero maps by logical slice, oldest page first (R159). -/
  zeros : Tab (List ZeroRun) := []
  /-- The pair named by a valid prm, by line, plus 128 times the number of the release that set it (R355). -/
  prm : Tab Nat := []
  /-- Host frames that domains have held: first physical address, bytes, domain, newest first (R124). -/
  hostHeld : List (Nat × Nat × Nat) := []
  /-- Poisoned lines (R465). -/
  poison : List Nat := []
  /-- Poisoned registers, scratchpad bytes and tiles: lane key times 128 plus register; core times 2^20 plus offset; core times 4096 plus tile. -/
  poisonRegs : List Nat := []
  poisonSpm : List Nat := []
  poisonTiles : List Nat := []
  /-- Poisoned translation entries, by page key (R465). -/
  poisonPages : List Nat := []
  pages : Tab Page := []
  /-- Module-reserved frames of page tables, images and Jasper's state (R267). -/
  frames : List Frame := []
  tlb : List TlbEntry := []
  /-- Entries of the quadrants' translation services, newest first; `pair` is die times 4 plus quadrant (R280). -/
  service : List TlbEntry := []
  walks : Tab Walk := []
  /-- Answers "not mapped" still to be taken: group, domain, page (R420). -/
  noPage : List (Nat × Nat × Nat) := []
  arenas : Tab Arena := []
  drops : Tab Drop := []
  seals : Tab Seal := []
  filters : List FilterEntry := []
  funcs : Tab Func := []
  kernels : List Header := []
  graphs : Tab Graph := []
  runs : Tab Run := []
  acc : Tab Access := []
  atoms : Tab AtomReq := []
  results : Tab Result := []
  mops : Tab MatOp := []
  posts : Tab Post := []
  parks : Tab Park := []
  tags : List TagEntry := []
  bins : Tab Bin := []
  heldConts : Tab HeldCont := []
  engs : Tab EngOp := []
  colls : Tab Coll := []
  msgs : Tab Msg := []
  recvs : Tab Recv := []
  queues : Tab Arrival := []
  /-- Detached faults that wait for a slot (R416). -/
  detached : Tab Detached := []
  preempts : Tab Preempt := []
  images : Tab Image := []
  /-- Cores lent: the borrowing function (R115). -/
  loans : Tab Nat := []
  /-- Wall tick since which an owner has had no group on a margin core; cores available to borrowers. -/
  idleSince : Tab Nat := []
  available : List Nat := []
  smap : Tab SliceMap := []
  /-- Wall ticks of uncorrectable errors per slice (R466). -/
  softErr : Tab (List Nat) := []
  dieDown : List Nat := []
  /-- SRAM base dies, two for each compute die, that failed their test at bring-up (R10, R461). -/
  sramDown : List Nat := []
  /-- Throttle level of each power share of each die (R463). -/
  throttle : Tab Nat := []
  /-- Power of a share averaged over 1 ms, in mW. -/
  power : Tab Nat := []
  /-- Wall tick since which a share has stayed below 90 %. -/
  below : Tab Nat := []
  temps : Tab Nat := []
  linksDown : List Nat := []
  /-- Sequence number expected next on a link and class (R398). -/
  linkSeq : Tab Nat := []
  /-- The packet received last, or being received, on a link and class (R398). -/
  linkRx : Tab LinkPacket := []
  /-- Whole message packets that links have brought and no slot has taken yet, oldest first (R398). -/
  linkMsgs : List (List Byte) := []
  /-- Flits sent on links and not yet known to have been acknowledged, oldest first (R398). -/
  linkTx : List SentFlit := []
  /-- Sequence number of the next flit sent on a link and class (R398). -/
  linkTxSeq : Tab Nat := []
  /-- Flow number of the packet that is passing through from a link and class (R398). -/
  linkFwd : Tab Nat := []
  hostDown : List Nat := []
  /-- MSI-X messages sent: function, vector, link (R100). -/
  msix : List (Nat × Nat × Nat) := []
  flashA : List Byte := []
  flashB : List Byte := []
  flashCtr : Nat := 0
  record : Option ConfigRecord := none
  pwrOk : Bool := false
  up : Bool := false
  sbOut : List Byte := []
  deriving DecidableEq, Repr

/-- Why the machine stops. Raised by `exec`; safe: the hardware has no such case. -/
inductive Fault where
  /-- `exec` of a word while no issuing set is chosen. Raised by every word meaning; safe: the hardware executes a word only for
  an issuing set (R23), and `step` chooses one first. -/
  | noIssuingSet
  deriving DecidableEq, Repr

/-- Why an instruction has no effect. -/
inductive Refusal where
  /-- No meaning is written for the instruction. Raised by an arm of `exec`; safe. -/
  | notModelled (mnemonic : String)
  /-- The event cannot take place in this state: the object it names does not exist or its conditions do not hold. Raised by the
  meanings of event rows; safe: the hardware takes no such step. -/
  | notEnabled (mnemonic : String)
  deriving DecidableEq, Repr

/-- What a step or a meaning answers. -/
abbrev Out := Host.Outcome State Fault Refusal

/-- The machine right after module reset, before bring-up (R461): nothing resident, no function assigned, memory empty. -/
def State.reset : State := {}

end Sys2Proof.Machine
end

