-- ==== Sys2Proof/Machine/Ops.lean ====
section
/-!
DEFINITION. The named operations over the state: registers, predicates, time, free values, memory and headers, the L1 copies,
translation, the ready tables and bins, trace records, and the delivery of a fault (R415) with the pieces of its return.
-/
namespace Sys2Proof.Machine

/-! ### Small list helpers -/

/-- Bit `l` of a lane mask. -/
def has (m : BitVec 64) (l : Nat) : Bool := m.getLsbD l
/-- The lanes of a mask in increasing order (R55). -/
def lanesOf (m : BitVec 64) : List Nat := (upTo 0 64).filter fun l => m.getLsbD l
/-- The mask of one lane. -/
def bitMask (l : Nat) : BitVec 64 := BitVec.ofNat 64 (2 ^ l)
/-- The mask of a list of lanes. -/
def maskOf (ls : List Nat) : BitVec 64 := ls.foldl (fun m l => m ||| bitMask l) 0
/-- Replace element `n` of a list. -/
def setAt {α : Type} : List α → Nat → α → List α
  | [], _, _ => []
  | _ :: t, 0, x => x :: t
  | a :: t, n + 1, x => a :: setAt t n x
/-- Remove repeats, keeping the first of each. -/
def dedup : List Nat → List Nat
  | [] => []
  | a :: t => a :: (dedup t).filter fun b => b != a
/-- `a` rounded up to a multiple of `n`. -/
def alignUp (a n : Nat) : Nat := (a + n - 1) / n * n
/-- `n` copies. -/
def rep {α : Type} : Nat → α → List α
  | 0, _ => []
  | n + 1, x => x :: rep n x

/-! ### Keys, fresh numbers, free values -/

/-- The key of a lane. -/
def lk (gid l : Nat) : Nat := gid * 64 + l
/-- The module-wide die of a core. -/
def dieOf (core : Nat) : Nat := core / 64
/-- The core pair of a core (R11). -/
def pairOf (core : Nat) : Nat := core / 2

/-- A fresh identifier. -/
def fresh (s : State) : Nat × State := (s.nextId, { s with nextId := s.nextId + 1 })
/-- A fresh free word (DESIGN CHOICE, log 1). -/
def takeWord (s : State) : Word × State := (Config.freeWord s.freeCtr, { s with freeCtr := s.freeCtr + 1 })
/-- A fresh free bit (DESIGN CHOICE, log 1). -/
def takeBit (s : State) : Bool × State := (Config.freeBit s.freeCtr, { s with freeCtr := s.freeCtr + 1 })
/-- A fresh free choice among `n` (DESIGN CHOICE, log 1). -/
def takeNat (s : State) (n : Nat) : Nat × State :=
  ((if n ≤ 1 then 0 else Config.freeNat s.freeCtr % n), { s with freeCtr := s.freeCtr + 1 })

/-! ### Time (R12, R34; DESIGN CHOICE, log 3) -/

/-- The ac elapsed on a die since module reset (R34 sel 0). -/
def acNow (s : State) (die : Nat) : Nat := (s.acs.get? die).getD 0 / 16
/-- Module time in ns (R34 sel 1). (DEDUCED, log 45) -/
def nsNow (s : State) : Nat := s.wall * 10 / 7
/-- Wall ticks of a time in units of 100 ns (70 ticks each). -/
def ticksOf100ns (n : Nat) : Nat := n * 70
/-- Wall ticks of a time in µs (700 ticks each). -/
def ticksOfUs (n : Nat) : Nat := n * 700

/-! ### Registers and predicates (R27 to R30) -/

/-- vN of a lane (Table 2-12 vreg). -/
def vreg (s : State) (k n : Nat) : Word := s.vregs.rd (k * 128 + n)
/-- Write vN of a lane. -/
def setVreg (s : State) (k n : Nat) (x : Word) : State := { s with vregs := s.vregs.wr (k * 128 + n) x }
/-- The pair vN, vN+1 with vN low (R28). -/
def vpair (s : State) (k n : Nat) : DWord := vreg s k (n + 1) ++ vreg s k n
/-- Write a list of registers of a lane. -/
def setVregs (s : State) (k : Nat) (rs : List (Nat × Word)) : State := rs.foldl (fun t r => setVreg t k r.1 r.2) s
/-- The low and high words of a 64-bit value as register writes at `d`. -/
def pairWrites (d : Nat) (x : DWord) : List (Nat × Word) := [(d, x.setWidth 32), (d + 1, (x >>> 32).setWidth 32)]

/-- The lane record, or one at address 0 when the lane has ended. -/
def laneAt (s : State) (k : Nat) : Lane := (s.lanes.get? k).getD { pc := 0 }
/-- The lane has not ended. -/
def laneLive (s : State) (k : Nat) : Bool := (s.lanes.get? k).isSome
/-- Change a live lane. -/
def modLane (s : State) (k : Nat) (f : Lane → Lane) : State :=
  match s.lanes.get? k with
  | some l => { s with lanes := s.lanes.put k (f l) }
  | none => s
/-- Change the live lanes of a mask. -/
def modLanes (s : State) (gid : Nat) (m : BitVec 64) (f : Nat → Lane → Lane) : State :=
  (lanesOf m).foldl (fun t l => modLane t (lk gid l) (f l)) s
/-- pN of a lane; p0 reads true (R29). -/
def preg (s : State) (k n : Nat) : Bool := n == 0 || (laneAt s k).preds.getLsbD n
/-- Set or clear a bit of a predicate word; bit 0 stays (R29). -/
def setBit128 (p : BitVec 128) (n : Nat) (b : Bool) : BitVec 128 :=
  if n = 0 then p else if b then p ||| BitVec.ofNat 128 (2 ^ n) else p &&& ~~~(BitVec.ofNat 128 (2 ^ n))
/-- Write pN of a lane; a write to p0 is discarded (R29). -/
def setPreg (s : State) (k n : Nat) (b : Bool) : State :=
  modLane s k fun l => { l with preds := setBit128 l.preds n b }

/-- Change a group. -/
def modGroup (s : State) (g : Nat) (f : Group → Group) : State :=
  match s.groups.get? g with
  | some x => { s with groups := s.groups.put g (f x) }
  | none => s
/-- Change a team. -/
def modTeam (s : State) (t : Nat) (f : Team → Team) : State :=
  match s.teams.get? t with
  | some x => { s with teams := s.teams.put t (f x) }
  | none => s
/-- Change a grid. -/
def modGrid (s : State) (t : Nat) (f : Grid → Grid) : State :=
  match s.grids.get? t with
  | some x => { s with grids := s.grids.put t (f x) }
  | none => s
/-- A function's record; an unassigned one has every field at its default. -/
def funcAt (s : State) (f : Nat) : Func := (s.funcs.get? f).getD {}
/-- Change a function's record. -/
def modFunc (s : State) (f : Nat) (g : Func → Func) : State := { s with funcs := s.funcs.put f (g (funcAt s f)) }
/-- The function that holds a domain (R112). -/
def funcOfDom (s : State) (d : Nat) : Option Nat := (s.funcs.find? fun e => e.2.dom == some d).map (·.1)
/-- The lanes of a group that have not ended. -/
def liveMask (s : State) (g : Nat) : BitVec 64 := maskOf ((upTo 0 64).filter fun l => laneLive s (lk g l))
/-- The team of a group. -/
def teamOf? (s : State) (g : Group) : Option Team := s.teams.get? g.team

/-- GRIDIX, TEAMIX, … of a lane: special register `n` (Table 2-3, R168, R138). -/
def sreg (s : State) (g : Group) (k l n : Nat) : Word :=
  match n with
  | 0 => BitVec.ofNat 32 l
  | 1 => BitVec.ofNat 32 g.width
  | 2 => g.gridix
  | 3 => match teamOf? s g with
    | some t => t.teamix
    | none => 0xFFFFFFFF
  | 4 => BitVec.ofNat 32 (g.part * 256 + g.core)
  | 5 => BitVec.ofNat 32 (g.func * 64 + g.stamp)
  | 6 => BitVec.ofNat 32 ((if g.uchk then 8192 else 0) + (if g.schk then 4096 else 0) + g.divmax * 256 + g.window)
  | 7 => (laneAt s k).fpstat
  | 8 => BitVec.ofNat 32 (Config.vw / 2 ^ 32)
  | 9 => match (funcAt s g.func).root with
    | some a => BitVec.ofNat 32 ((((s.arenas.get? a).map (·.gen)).getD 0) * 4096 + a)
    | none => 0
  | _ => 0

/-! ### Dependency slots (R30) -/

/-- A word with token `tok` makes slot `n` pending (7 names none; `special` names sl7 of major 0x12). -/
def setSlot (s : State) (gid n tok : Nat) (special : Bool := false) : State :=
  if n = 7 ∧ !special then s else modGroup s gid fun g => { g with slots := g.slots.put n tok }
/-- The slots of a group that a token owns become clear, in its image when it is saved (R436, R439). -/
def clearSlots (s : State) (gid tok : Nat) : State :=
  let drop (g : Group) : Group := { g with slots := g.slots.filter fun e => e.2 != tok }
  match s.groups.get? gid with
  | some g => { s with groups := s.groups.put gid (drop g) }
  | none =>
    let one (e : Nat × GroupImage) : Nat × GroupImage := if e.1 = gid then (e.1, { e.2 with group := drop e.2.group }) else e
    { s with images := s.images.map fun (e : Nat × Image) => (e.1, { e.2 with groups := e.2.groups.map one }) }
/-- Something of a word is still in flight. -/
def tokBusy (s : State) (tok : Nat) : Bool :=
  (s.acc.any fun e => e.2.tok == tok) || (s.results.any fun e => e.2.tok == tok) ||
  (s.atoms.any fun e => e.2.ops.any fun o => o.tok == tok) || (s.mops.any fun e => e.2.tok == tok) ||
  (s.engs.any fun e => e.2.tok == tok && !e.2.accepted) || (s.msgs.any fun e => e.2.tok == tok) ||
  (s.drops.any fun e => e.2.tok == tok) || (s.seals.any fun e => e.2.tok == tok) ||
  (s.groups.any fun e => e.2.conv.any fun c => c.2.signed != 0 && c.2.tok == tok) ||
  (s.lanes.any fun e => (match e.2.commit with | some c => c.tok == tok | none => false) || (match e.2.held with
    | .waita _ _ _ t => t == tok
    | _ => false))
/-- The slot of a word clears once nothing of it is in flight; its scoreboard entries go with it. -/
def retireTok (s : State) (gid tok : Nat) : State :=
  if tokBusy s tok then s
  else
    let s := clearSlots s gid tok
    { s with board := s.board.filter fun p => !(p.tok == tok && p.due.isNone) }

/-- Change the group of a context image. -/
def modImage (s : State) (gid : Nat) (f : GroupImage → GroupImage) : State :=
  { s with images := s.images.map fun (e : Nat × Image) =>
      (e.1, { e.2 with groups := e.2.groups.map fun (g : Nat × GroupImage) => if g.1 = gid then (g.1, f g.2) else g }) }
/-- A late result writes a register of a saved lane into its image, whose quad is then present (R439). -/
def imageVreg (s : State) (k n : Nat) (x : Word) : State :=
  modImage s (k / 64) fun y =>
    if (y.lanes.get? (k % 64)).isSome then { y with regs := y.regs.wr (k % 64 * 128 + n) x, quads := y.quads ||| BitVec.ofNat 16 (2 ^ (n / 4)) } else y
/-- A late result writes a predicate of a saved lane into its image (R439). -/
def imagePreg (s : State) (k n : Nat) (b : Bool) : State :=
  modImage s (k / 64) fun y => match y.lanes.get? (k % 64) with
    | some l => { y with lanes := y.lanes.put (k % 64) { l with preds := setBit128 l.preds n b } }
    | none => y
/-- A late result writes a predicate of a lane, resident or saved. -/
def latePreg (s : State) (k n : Nat) (b : Bool) : State := if laneLive s k then setPreg s k n b else imagePreg s k n b

/-! ### Homes (R276, R387) -/

/-- XOR of the successive `w`-bit fields of a number. -/
def foldBits (w : Nat) : Nat → Nat → Nat
  | 0, _ => 0
  | n + 1, x => (x % 2 ^ w) ^^^ foldBits w n (x / 2 ^ w)
/-- The quadrant of a die-local core (R11): 16 cores each. -/
def quadrantOf (core : Nat) : Nat := core / 16
/-- The address lies in host memory (Table 13-1). -/
def isHost (pa : Nat) : Bool := Config.paHost ≤ pa
/-- slice_home before the slice map (R276): die and slice. -/
def logicalHome (pa : Nat) : Nat × Nat :=
  if isHost pa then (bits pa 13 12, foldBits 5 9 (pa % 2 ^ 51 / 64))
  else if Config.paVault ≤ pa then (bits pa 31 30, 8 * quadrantOf (bits pa 29 24) + foldBits 3 6 (bits pa 23 6))
  else (bits pa 37 33 / 8, foldBits 5 6 (pa % 2 ^ 33 / 64))
/-- slice_home (R276): die and slice, through the die's slice map (R387). -/
def sliceHome (s : State) (pa : Nat) : Nat × Nat :=
  let raw := logicalHome pa
  match s.smap.get? raw.1 with
  | some m => (raw.1, m.map.getD raw.2 raw.2)
  | none => raw
/-- The number of a home in the module. -/
def homeNo (h : Nat × Nat) : Nat := h.1 * 32 + h.2
/-- The epoch of the slice map of the die on which an address is homed: a request that is sent now carries it (R387). -/
def epochOf (s : State) (pa : Nat) : Nat := ((s.smap.get? (logicalHome pa).1).map (·.epoch)).getD 0

/-! ### Tags (Tables 13-3 and 13-4) -/

/-- A tag: domain, arena and generation. -/
def tagNo (dom arena gen : Nat) : Nat := (dom * 4096 + arena) * 16 + gen
/-- The parts of a tag. -/
def tagDom (t : Nat) : Nat := t / 65536
def tagArena (t : Nat) : Nat := t / 16 % 4096
def tagGen (t : Nat) : Nat := t % 16
/-- The tag of a page entry, of a copy, of an access, of a request, of a line of a transaction. -/
def Page.tag (p : Page) : Nat := tagNo p.dom p.arena p.gen
def L1Line.tag (l : L1Line) : Nat := tagNo l.dom l.arena l.gen
def Access.tag (a : Access) : Nat := tagNo a.dom a.arena a.gen
def AtomReq.tag (q : AtomReq) : Nat := tagNo q.dom q.arena q.gen
def TxLine.tag (l : TxLine) : Nat := tagNo l.dom l.arena l.gen
/-- The arena of a tag is current in the state (Table 8-2): live or sealed with the tag's generation. -/
def arenaState (s : State) (a gen : Nat) : ArenaState :=
  match s.arenas.get? a with
  | some x => if x.gen = gen then x.state else .free
  | none => .free
/-- A discard-filter entry that a tag array (0 to 127 the pairs' L1s, 128 to 255 the slices) holds names the line (R158). -/
def filtered (s : State) (place arena gen line : Nat) : Bool :=
  s.filters.any fun e => e.left.getLsbD place && e.arena == arena && e.gen == gen &&
    (e.ranges == [] || e.ranges.any fun r => decide (r.1 ≤ line * 64) && decide (line * 64 < r.1 + r.2))
/-- Data under a tag are kept: the arena is live or sealed, and the array's filter does not name the line (R157, R158). -/
def tagKept (s : State) (place tag line : Nat) : Bool :=
  (arenaState s (tagArena tag) (tagGen tag) == .live || arenaState s (tagArena tag) (tagGen tag) == .sealed) &&
  !filtered s place (tagArena tag) (tagGen tag) line

/-! ### Memory at its home (R159, R267, R270, R273, R344) -/

/-- The canonical form of memory: addresses strictly rising, and no entry equal to what an unlisted address reads as, zero (DESIGN CHOICE, log 4). -/
def Memory.wf (m : List Host.Cell) : Bool := Tab.sorted m && Tab.noZero m

/-- The line is marked zero in its slice's zero map (R159). -/
def zeroMarked (s : State) (line : Nat) : Bool :=
  ((s.zeros.get? (homeNo (logicalHome (line * 64)))).getD []).any fun z =>
    decide (z.page ≤ line / 1024) && decide (line / 1024 < z.page + z.n) && !z.done.contains line
/-- The key of a host-backed line's data. -/
def hostKey (line tag : Nat) : Nat := line * 2 ^ 22 + tag
/-- A byte as its home slice holds it for a tag: zero in a marked line, the slice's copy of a host-backed line, or memory.
(DESIGN CHOICE, log 4) -/
def homeByte (s : State) (tag pa : Nat) : Byte :=
  if zeroMarked s (pa / 64) then 0
  else if isHost pa then
    match s.hostLines.get? (hostKey (pa / 64) tag) with
    | some h => h.data.rd (pa % 64)
    | none => Tab.rd s.mem pa
  else Tab.rd s.mem pa
/-- A host-backed line as a fetch from host memory brings it. -/
def fetchHost (s : State) (line : Nat) : HostLine :=
  ⟨(upTo 0 64).foldl (fun (t : Tab Byte) o => t.wr o (Tab.rd s.mem (line * 64 + o))) [], 0⟩
/-- The bit of a line in its zero map clears: the line stands at zero (R159). -/
def unmark (s : State) (tag line : Nat) : State :=
  if zeroMarked s line then
    let k := homeNo (logicalHome (line * 64))
    let zs := ((s.zeros.get? k).getD []).map fun z => { z with done := line :: z.done }
    let s := { s with zeros := s.zeros.put k zs }
    if isHost (line * 64) then { s with hostLines := s.hostLines.put (hostKey line tag) ⟨[], BitVec.allOnes 64⟩ }
    else { s with mem := Tab.clear s.mem (line * 64) 64, hdr := s.hdr.del line }
  else s
/-- Merge a byte at its home: a host-backed byte stays dirty at the slice (R273). -/
def setHomeByte (s : State) (tag pa : Nat) (b : Byte) : State :=
  let s := unmark s tag (pa / 64)
  if isHost pa then
    let h := (s.hostLines.get? (hostKey (pa / 64) tag)).getD (fetchHost s (pa / 64))
    { s with hostLines := s.hostLines.put (hostKey (pa / 64) tag) { h with data := h.data.wr (pa % 64) b, dmask := h.dmask ||| bitMask (pa % 64) } }
  else { s with mem := Tab.wr s.mem pa b }
/-- `n` bytes at the home. -/
def homeBytes (s : State) (tag pa n : Nat) : List Byte := (upTo pa n).map (homeByte s tag)
/-- Merge bytes at the home from an address up. -/
def setHomeBytes (s : State) (tag pa : Nat) : List Byte → State
  | [] => s
  | b :: t => setHomeBytes (setHomeByte s tag pa b) tag (pa + 1) t
/-- The header of the block that holds an address (R270). -/
def homeHdr (s : State) (pa : Nat) : BitVec 16 := if isHost pa || zeroMarked s (pa / 64) then 0 else s.hdr.rd (pa / 64)
/-- The bytes of a dirty host-backed slice line that are not in host memory go there, and the line is clean; those of a dropped
arena are not written (R157, R273, Table 13-4). -/
def hostWrite (s : State) (key : Nat) : State :=
  let line := key / 2 ^ 22
  match s.hostLines.get? key with
  | some h =>
    let m := if isHost (line * 64) && tagKept s (128 + homeNo (sliceHome s (line * 64))) (key % 2 ^ 22) line then
        (upTo 0 64).foldl (fun (m : List Host.Cell) o => if h.dmask.getLsbD o then Tab.wr m (line * 64 + o) (h.data.rd o) else m) s.mem
      else s.mem
    let clean (l : SliceLine) : SliceLine :=
      if l.line = line ∧ tagNo l.dom l.arena l.gen = key % 2 ^ 22 ∧ l.state = .dirty then { l with state := .clean, scope := 0 } else l
    { s with mem := m, hostLines := s.hostLines.put key { h with dmask := 0 }, slices := s.slices.map fun (e : Nat × SliceLine) => (e.1, clean e.2) }
  | none => s
/-- The logical slices that are homes of a page (R276). -/
def homesOf (pa : Nat) : List Nat :=
  if isHost pa then upTo 0 128
  else if Config.paVault ≤ pa then upTo (bits pa 31 30 * 32 + 8 * quadrantOf (bits pa 29 24)) 8
  else upTo (bits pa 37 33 / 8 * 32) 32
/-- The line stands at zero in memory: what a full map writes (R159). -/
def zeroLine (s : State) (line : Nat) : State :=
  { s with mem := Tab.clear s.mem (line * 64) 64, hdr := s.hdr.del line }
/-- Pages that leave the front of a zero map when it holds `x` too many: the pages, and the map without them. -/
def splitZeros : Nat → List ZeroRun → List ZeroRun × List ZeroRun
  | _, [] => ([], [])
  | x, z :: t =>
    if x = 0 then ([], z :: t)
    else if z.n ≤ x then
      let r := splitZeros (x - z.n) t
      (z :: r.1, r.2)
    else ([{ z with n := x }], { z with page := z.page + x, n := z.n - x } :: t)
/-- Pages of a slice's zero map. -/
def zeroPagesOf (zs : List ZeroRun) : Nat := zs.foldl (fun n z => n + z.n) 0
/-- A range of pages enters a slice's zero map; where it is full, the remaining lines of its oldest pages are written first (R159). -/
def markSlice (page n : Nat) (s : State) (k : Nat) : State :=
  let zs := (s.zeros.get? k).getD [] ++ [⟨page, n, []⟩]
  let r := splitZeros (zeroPagesOf zs - Config.zeroMapPages) zs
  let s := r.1.foldl (fun t z => ((upTo (z.page * 1024) (z.n * 1024)).filter fun l =>
    homeNo (logicalHome (l * 64)) == k && !z.done.contains l).foldl zeroLine t) s
  { s with zeros := s.zeros.put k r.2 }
/-- A line lies in a physical range. -/
def inRange (pa len line : Nat) : Bool := decide (pa / 64 ≤ line) && decide (line < pa / 64 + len / 64)
/-- Mark a physical range zero, headers included (R159): the slices' lines of it go, and its poison. -/
def zeroRange (s : State) (pa len : Nat) : State :=
  let s := { s with hostLines := s.hostLines.filter fun e => !inRange pa len (e.1 / 2 ^ 22),
                    slices := s.slices.filter fun e => !inRange pa len e.2.line,
                    poison := s.poison.filter fun l => !inRange pa len l }
  (homesOf pa).foldl (markSlice (pa / 65536) (len / 65536)) s
/-- A line of host memory that is about to be written there leaves the zero state (R159). (DESIGN CHOICE, log 4) -/
def hostUnmark (s : State) (line : Nat) : State :=
  if zeroMarked s line then
    let k := homeNo (logicalHome (line * 64))
    zeroLine { s with zeros := s.zeros.put k (((s.zeros.get? k).getD []).map fun z => { z with done := line :: z.done }) } line
  else s
/-- A write of bytes directly into host memory, by the host or by Jasper (records, trace). -/
def writeHost (s : State) (addr : Nat) (bs : List Byte) : State :=
  let s := if s.zeros = [] then s else (upTo ((Config.paHost + addr) / 64) ((addr % 64 + bs.length + 63) / 64)).foldl hostUnmark s
  { s with mem := ((upTo 0 bs.length).zip bs).foldl (fun (m : List Host.Cell) e => Tab.wr m (Config.paHost + addr + e.1) e.2) s.mem }
/-- `n` bytes of host memory. -/
def readHost (s : State) (addr n : Nat) : List Byte := (upTo (Config.paHost + addr) n).map fun a => Tab.rd s.mem a

/-! ### Slice lines and their replacement (R275, R277) -/

/-- A lane that no lane is: accesses that belong to no lane. -/
def noLane : Nat := 2 ^ 40
/-- A pair that no pair is. -/
def noPair : Nat := 128
/-- Put an access on its way. -/
def sendAcc (s : State) (a : Access) : State := { (fresh s).2 with acc := s.acc.put (fresh s).1 { a with epoch := epochOf s a.pa } }
/-- The set of a line in its slice: the low bits of the line number. (DESIGN CHOICE, log 48) -/
def sliceSet (line : Nat) : Nat := line % 4096
/-- The key of way 0 of a line's set in a slice. -/
def setKey (slice line : Nat) : Nat := slice * 65536 + sliceSet line * 16
/-- The ways of a line's set in a slice, with their lines. -/
def setWays (s : State) (slice line : Nat) : List (Nat × Option SliceLine) :=
  (upTo 0 16).map fun w => (w, s.slices.get? (setKey slice line + w))
/-- The way in which a slice holds a line under a tag. -/
def sliceWay (s : State) (slice line tag : Nat) : Option (Nat × SliceLine) :=
  (setWays s slice line).findSome? fun e => match e.2 with
    | some l => if l.line = line ∧ tagNo l.dom l.arena l.gen = tag then some (e.1, l) else none
    | none => none
/-- A line leaves its slice: a dirty host-backed line is written to host memory, and a line whose prm is valid has the named pair
asked to flush (R275, R355). -/
def sliceEvict (s : State) (key : Nat) : State :=
  match s.slices.get? key with
  | none => s
  | some l =>
    let t := tagNo l.dom l.arena l.gen
    let s := { s with slices := s.slices.del key }
    if l.state = .replica then s
    else
      let s := { hostWrite s (hostKey l.line t) with hostLines := (hostWrite s (hostKey l.line t)).hostLines.del (hostKey l.line t) }
      if (s.prm.get? l.line).isSome then
        sendAcc s { kind := .promote, tok := 0, gid := 0, lane := noLane, pair := noPair, dom := l.dom, arena := l.arena, gen := l.gen, pa := l.line * 64, size := 0, promote := true }
      else s
/-- P1 is the policy of a fill of class `tc` in a set (R277): fixed in the leader sets, by the counter elsewhere. -/
def policyP1 (s : State) (slice set tc : Nat) : Bool :=
  if set % 128 = 2 * tc then false else if set % 128 = 2 * tc + 1 then true else decide (512 ≤ (s.psel.get? (slice * 8 + tc)).getD 0)
/-- A miss of class `tc` in a leader set moves its counter, which saturates at 10 bits (R277). -/
def countMiss (s : State) (slice set tc : Nat) : State :=
  let c := (s.psel.get? (slice * 8 + tc)).getD 0
  if set % 128 = 2 * tc then { s with psel := s.psel.put (slice * 8 + tc) (min 1023 (c + 1)) }
  else if set % 128 = 2 * tc + 1 then { s with psel := s.psel.put (slice * 8 + tc) (c - 1) }
  else s
/-- The re-reference value with which a line enters (R277), cache class `cc` first: 1 streaming, 2 keep; P1 enters one fill in every 32
at 2. (DESIGN CHOICE, log 48) -/
def insertRrpv (s : State) (slice set tc cc : Nat) : Nat × State :=
  let n := (s.p1Fills.get? (slice * 8 + tc)).getD 0
  if cc = 1 then (3, s)
  else if cc = 2 then (0, s)
  else if !policyP1 s slice set tc then (2, s)
  else ((if n % 32 = 31 then 2 else 3), { s with p1Fills := s.p1Fills.put (slice * 8 + tc) (n + 1) })
/-- The ways of a full set are aged until one stands at 3; the first such way is the victim (R277). -/
def chooseVictim (s : State) (slice line : Nat) : Nat × State :=
  let ls := (setWays s slice line).filterMap fun e => e.2.map fun l => (e.1, l)
  let top := ls.foldl (fun m e => max m e.2.rrpv) 0
  ((((ls.find? fun e => e.2.rrpv == top).map (·.1)).getD 0),
   { s with slices := ls.foldl (fun (t : Tab SliceLine) e => t.put (setKey slice line + e.1) { e.2 with rrpv := e.2.rrpv + (3 - top) }) s.slices })
/-- A way for a line that misses: an invalid one, else the victim's, which leaves. -/
def freeWay (s : State) (slice line : Nat) : Nat × State :=
  match (setWays s slice line).find? fun e => e.2.isNone with
  | some e => (e.1, s)
  | none =>
    let v := chooseVictim s slice line
    (v.1, sliceEvict v.2 (setKey slice line + v.1))
/-- The scope record of a line in a state: a dirty host-backed line is visible on the module, another dirty line to the host too (R273). -/
def scopeOf (line : Nat) (st : SliceState) : Nat := if st ≠ .dirty then 0 else if isHost (line * 64) then 2 else 3
/-- A line enters a slice in a state (R275, R277). -/
def sliceInsert (s : State) (slice line tag tc cc : Nat) (st : SliceState) : State :=
  let s := countMiss s slice (sliceSet line) tc
  let w := freeWay s slice line
  let r := insertRrpv w.2 slice (sliceSet line) tc cc
  { r.2 with slices := r.2.slices.put (setKey slice line + w.1) ⟨st, line, tagDom tag, tagArena tag, tagGen tag, r.1, scopeOf line st⟩ }
/-- An access of traffic class `tc` (0 demand, 1 engine, 2 message, 3 instruction, 4 translation) and cache class `cc` reaches a line at
its home slice: a hit is the nearest again, a miss brings the line in, a host-backed one with its bytes (R275, R277). A read of a line
marked zero fetches nothing (R159). -/
def touch (s : State) (tc cc tag line : Nat) (write : Bool) : State :=
  let slice := homeNo (sliceHome s (line * 64))
  match sliceWay s slice line tag with
  | some e =>
    let st : SliceState := if write then .dirty else e.2.state
    { s with slices := s.slices.put (setKey slice line + e.1) { e.2 with rrpv := 0, state := st, scope := scopeOf line st } }
  | none =>
    if zeroMarked s line ∧ !write then s
    else
      let s := if isHost (line * 64) ∧ (s.hostLines.get? (hostKey line tag)).isNone then
          { s with hostLines := s.hostLines.put (hostKey line tag) (fetchHost s line) } else s
      sliceInsert s slice line tag tc cc (if write then .dirty else .clean)
/-- The slices of the quadrant of a pair (R11). -/
def quadSlices (pair : Nat) : List Nat := if pair < 128 then upTo (pair / 8 * 8) 8 else []
/-- A replica of a line in the pair's quadrant: its slice, and its way with the line (R279). -/
def replicaFor (s : State) (pair line tag : Nat) : Option (Nat × Nat × SliceLine) :=
  (quadSlices pair).findSome? fun k => match sliceWay s k line tag with
    | some e => if e.2.state = .replica then some (k, e) else none
    | none => none
/-- A read from a pair reaches a line: a replica in the pair's quadrant answers it, else its home slice (R279, R344). A replica holds what
the home holds (R164). -/
def touchRead (s : State) (pair tc cc tag line : Nat) : State :=
  match replicaFor s pair line tag with
  | some (k, w, l) => { s with slices := s.slices.put (setKey k line + w) { l with rrpv := 0 } }
  | none => touch s tc cc tag line false
/-- Bytes of one line merge at their home under a tag. -/
def mergeHome (s : State) (tc cc tag pa : Nat) (bs : List Byte) : State :=
  touch (setHomeBytes s tag pa bs) tc cc tag (pa / 64) true
/-- A slice line and the data of a host-backed line leave without write-back. -/
def sliceDrop (s : State) (p : Nat → Nat → Bool) : State :=
  { s with slices := s.slices.filter fun e => !p e.2.line (tagNo e.2.dom e.2.arena e.2.gen),
           hostLines := s.hostLines.filter fun e => !p (e.1 / 2 ^ 22) (e.1 % 2 ^ 22) }
/-- A system-scope acquire: the clean host-backed lines of the domain leave every slice (R359). -/
def dropCleanHost (s : State) (dom : Nat) : State :=
  sliceDrop s fun line tag => isHost (line * 64) && tagDom tag == dom &&
    ((s.hostLines.get? (hostKey line tag)).map fun h => h.dmask == 0).getD true

/-! ### Trace records (R123, R471) -/

/-- Write a trace record of function `f`, or drop it when the ring is full. The control block holds the two indices. -/
def trace (s : State) (f event core dom : Nat) (payload : List Byte) : State :=
  let fn := funcAt s f
  if fn.traceSize = 0 then s
  else
    let cap := (fn.traceSize - 64) / 32
    let w := leNat (readHost s fn.traceAddr 8)
    let r := leNat (readHost s (fn.traceAddr + 8) 8)
    if cap ≤ w - r then modFunc s f fun x => { x with traceDropped := x.traceDropped + 1 }
    else
      let rec32 := leBytes 8 (nsNow s) ++ leBytes 2 event ++ leBytes 2 core ++ leBytes 1 dom ++ [0, 0, 0] ++
        (payload ++ rep (16 - payload.length) 0)
      let s := writeHost s (fn.traceAddr + 64 + 32 * (w % cap)) rec32
      writeHost s fn.traceAddr (leBytes 8 (w + 1))

/-! ### Translation (R17, R266, R268, R281) -/

/-- The address lies in the scratchpad window (R265). -/
def inWindow (va : Nat) : Bool := Config.spmWindow ≤ va && va < Config.vaEnd
/-- The function that owns the vault beneath a core (R268). -/
def vaultOwner (s : State) (core : Nat) : Nat :=
  match s.funcs.find? fun e => e.2.dom.isSome && (e.2.cores.getLsbD core || e.2.margin.getLsbD core) with
  | some e => e.1
  | none => 0
/-- The page entry of a vault address (R268): none while the owner has no root. -/
def vaultPage (s : State) (va : Nat) : Option Page :=
  let off := va - Config.vw
  let core := off / 2 ^ 24
  let f := funcAt s (vaultOwner s core)
  match f.root, f.dom with
  | some a, some d =>
    some ⟨Config.page, Config.paVault + off / Config.page * Config.page, d, a, ((s.arenas.get? a).map (·.gen)).getD 0, true⟩
  | _, _ => none
/-- The key of a page. -/
def pageKey (dom va : Nat) : Nat := dom * 2 ^ 57 + va
/-- The page entry that covers an address, with the page's first address (R16). -/
def pageAt (s : State) (dom va : Nat) : Option (Nat × Page) :=
  if Config.vw ≤ va ∧ va < Config.vw + Config.vwSpan then
    (vaultPage s va).map fun p => (va / Config.page * Config.page, p)
  else
    [0x10000, 0x200000, 0x40000000].findSome? fun sz =>
      match s.pages.get? (pageKey dom (va / sz * sz)) with
      | some p => if p.size = sz then some (va / sz * sz, p) else none
      | none => none

/-- The translation entry of the page at an address is poisoned (R465). -/
def entryPoisoned (s : State) (dom base : Nat) : Bool := s.poisonPages.contains (pageKey dom base)

/-- A failed access: class, detail, address. -/
structure AccFail where
  cls : Nat
  detail : Nat
  addr : Nat
  deriving DecidableEq, Repr

/-- translate (R281): the physical address and the page entry. -/
def translate (s : State) (dom va : Nat) (write : Bool) : Except AccFail (Nat × Page) :=
  if Config.vaEnd ≤ va then .error ⟨8, 0, va⟩
  else
    match pageAt s dom va with
    | none => .error ⟨8, 0, va⟩
    | some (base, p) =>
      if entryPoisoned s dom base then .error ⟨20, 2, va⟩
      else if p.dom ≠ dom then .error ⟨9, 1, va⟩
      else if write ∧ !p.writable then .error ⟨8, 1, va⟩
      else .ok (p.pa + (va - base), p)

/-- The arena check of an access with a page's tag (R161, R164, R286 step 3). -/
def arenaCheck (s : State) (p : Page) (va : Nat) (write : Bool) : Option AccFail :=
  match arenaState s p.arena p.gen with
  | .draining => some ⟨10, 0, va⟩
  | .sealed => if write then some ⟨10, 2, va⟩ else none
  | _ => none
/-- The slice line is poisoned (R465). -/
def poisoned (s : State) (pa : Nat) : Bool := s.poison.contains (pa / 64)
/-- The descriptor region (R144). -/
def descRegion (s : State) : Nat × Nat :=
  match (upTo 0 Config.channels).find? fun c => (funcAt s 0).channels.getLsbD c with
  | some c => (c * Config.channelBytes + 0x1EFFC0000, c * Config.channelBytes + 0x1F0000000)
  | none => (0, 0)
/-- The descriptor of an arena number is poisoned (R144, R465). -/
def descPoisoned (s : State) (n : Nat) : Bool := (descRegion s).2 != 0 && poisoned s ((descRegion s).1 + 64 * n)

/-- Place of a scratchpad byte: core times 2^20 plus bank times 2^15 plus offset. -/
def spmKey (core bank off : Nat) : Nat := core * 2 ^ 20 + bank * 2 ^ 15 + off
/-- The bank and byte that a window offset names for a team (R266). -/
def bankOf (t : Team) (o : Nat) : Option (Nat × Nat) := t.banks[o / 32768]?
/-- Scratchpad key of a team offset. -/
def spmAt (t : Team) (o : Nat) : Option Nat := (bankOf t o).map fun b => spmKey b.1 b.2 (o % 32768)

/-! ### L1 copies (R271 to R274) -/

/-- The key of an L1 line: pair, path, line and tag. -/
def l1Key (pair path line tag : Nat) : Nat := ((pair * 4 + path) * 2 ^ 46 + line) * 2 ^ 22 + tag
/-- The parts of such a key. -/
def keyPair (k : Nat) : Nat := k / 2 ^ 70
def keyPath (k : Nat) : Nat := k / 2 ^ 68 % 4
def keyLine (k : Nat) : Nat := k / 2 ^ 22 % 2 ^ 46
/-- The copy that hits: same domain, arena and generation (Table 13-3), and not named by the discard filter (R158). -/
def l1Hit (s : State) (pair path pa : Nat) (p : Page) : Option L1Line :=
  match s.l1.get? (l1Key pair path (pa / 64) p.tag) with
  | some l => if l.dom = p.dom ∧ l.arena = p.arena ∧ l.gen = p.gen ∧ !filtered s pair l.arena l.gen (pa / 64) then some l else none
  | none => none
/-- All of the bytes are fresh. -/
def allFresh (m : BitVec 64) (o n : Nat) : Bool := (upTo o n).all fun i => m.getLsbD i
/-- Bytes of the pair's copy, when its fresh bits cover them. -/
def l1Read (s : State) (pair path pa n : Nat) (p : Page) : Option (List Byte) :=
  match l1Hit s pair path pa p with
  | some l => if allFresh l.fresh (pa % 64) n then some ((upTo (pa % 64) n).map fun o => l.data.rd o) else none
  | none => none
/-- The slot is valid and holds the domain. -/
def slotHolds (x : Slot) (dom : Nat) : Bool := fld x.dpid 31 1 == 1 && fld x.dpid 0 6 == dom
/-- The slot of a domain on a core of a pair (R128). -/
def slotOf (s : State) (pair dom : Nat) : Option Slot :=
  ((upTo (pair * 16) 16).filterMap fun i => s.slots.get? i).find? fun x => slotHolds x dom
/-- The number of L1 ways that a domain holds in a pair (R132); a domain with no slot there is taken to hold one. (DESIGN CHOICE, log 22) -/
def l1Ways (s : State) (pair dom : Nat) : Nat :=
  match slotOf s pair dom with
  | some x => max 1 ((upTo 0 16).filter fun w => x.dpl1.getLsbD w).length
  | none => 1
/-- The set of a line in an L1: VA[14:6], which no page changes (R272). -/
def l1Set (line : Nat) : Nat := line % 512
/-- The keys of a domain's copies in the set of a line. -/
def setCopies (s : State) (pair line dom : Nat) : List Nat :=
  (s.l1.filter fun e => keyPair e.1 == pair && l1Set (keyLine e.1) == l1Set line && e.2.dom == dom &&
    !filtered s pair e.2.arena e.2.gen (keyLine e.1)).map (·.1)
/-- The copies of which one must leave before a line may be allocated: none while a way is left (R132, R272); the constant path takes at
most 4 (Table 13-2). -/
def l1Rivals (s : State) (pair path line tag : Nat) : List Nat :=
  if (s.l1.get? (l1Key pair path line tag)).isSome then []
  else
    let mine := setCopies s pair line (tagDom tag)
    let con := mine.filter fun k => keyPath k == 1
    let ways := l1Ways s pair (tagDom tag)
    if path = 1 ∧ min 4 ways ≤ con.length then con else if ways ≤ mine.length then mine else []
/-- A copy leaves the L1; its dirty bytes go on their way to the home. -/
def l1Evict (s : State) (key : Nat) : State :=
  match s.l1.get? key with
  | none => s
  | some l =>
    let s := { s with l1 := s.l1.del key }
    if l.dmask = 0 then s
    else sendAcc s { kind := .victim l, tok := 0, gid := 0, lane := noLane, pair := keyPair key, dom := l.dom, arena := l.arena, gen := l.gen, pa := keyLine key * 64, size := 64 }
/-- The copies that may leave: those at the least-recent position before the others (R272). -/
def l1Leaving (s : State) (pair path line tag : Nat) : List Nat :=
  let ks := l1Rivals s pair path line tag
  match ks.filter fun k => ((s.l1.get? k).map (·.least)).getD false with
  | [] => ks
  | low => low
/-- Room for a line in a pair's L1: pseudo-LRU among the domain's ways, whose order the manual does not give, chooses the copy that leaves,
a copy at the least-recent position first. (DESIGN CHOICE, log 22) -/
def l1Room (s : State) (pair path line tag : Nat) : State :=
  match l1Leaving s pair path line tag with
  | [] => s
  | k :: t => l1Evict (takeNat s (t.length + 1)).2 ((k :: t).getD (takeNat s (t.length + 1)).1 k)
/-- A copy is read or written: it stands at the least-recent position no longer (R272). -/
def l1Use (s : State) (pair path line tag : Nat) : State :=
  match s.l1.get? (l1Key pair path line tag) with
  | some l => if l.least then { s with l1 := s.l1.put (l1Key pair path line tag) { l with least := false } } else s
  | none => s
/-- A line enters the L1 at the least-recent position: it is new there and its cache class is streaming (R272). -/
def entersLeast (s : State) (pair path line tag cc : Nat) : Bool := cc == 1 && (s.l1.get? (l1Key pair path line tag)).isNone
/-- A store into the pair's load-store copy: allocates with fresh = dmask = the bytes written (R272); bytes that a release store
writes through are not dirty (R293). -/
def l1Write (s : State) (pair path pa : Nat) (p : Page) (bs : List Byte) (dirty : Bool) (cc : Nat := 0) : State :=
  let least := entersLeast s pair path (pa / 64) p.tag cc
  let s := l1Room s pair path (pa / 64) p.tag
  let l := (l1Hit s pair path pa p).getD { dom := p.dom, arena := p.arena, gen := p.gen, header := homeHdr s pa }
  let l := ((upTo (pa % 64) bs.length).zip bs).foldl (fun (l : L1Line) e =>
    { l with data := l.data.wr e.1 e.2, fresh := l.fresh ||| bitMask e.1,
             dmask := if dirty then l.dmask ||| bitMask e.1 else l.dmask &&& ~~~bitMask e.1 }) l
  { s with l1 := s.l1.put (l1Key pair path (pa / 64) p.tag) { l with least := least } }
/-- The line that a fill leaves in the L1: fetched bytes fill the bytes that are not dirty, and all are fresh (R272); release stores of
the pair that are still in flight are forwarded into it (R345). -/
def filledLine (s : State) (pair path pa : Nat) (p : Page) : L1Line :=
  let line := pa / 64
  let l := (l1Hit s pair path pa p).getD { dom := p.dom, arena := p.arena, gen := p.gen }
  let l := (upTo 0 64).foldl (fun (l : L1Line) o =>
    if l.dmask.getLsbD o then l else { l with data := l.data.wr o (homeByte s p.tag (line * 64 + o)) }) l
  let l := if path = 0 then
      s.acc.foldl (fun (l : L1Line) e =>
        if e.2.kind == .through && e.2.pair == pair && e.2.pa / 64 == line && e.2.tag == p.tag then
          ((upTo (e.2.pa % 64) e.2.bytes.length).zip e.2.bytes).foldl (fun (l : L1Line) b =>
            if l.dmask.getLsbD b.1 then l else { l with data := l.data.wr b.1 b.2 }) l
        else l) l
    else l
  { l with fresh := BitVec.allOnes 64, header := homeHdr s pa }
/-- A fill of traffic class `tc` and cache class `cc` from the home slice, or a replica in the quadrant. A domain that has left the pair
has no way there, so its fill leaves no line (R132). -/
def l1Fill (s : State) (pair path pa : Nat) (p : Page) (tc : Nat := 0) (cc : Nat := 0) : State :=
  let s := touchRead s pair tc cc p.tag (pa / 64)
  if (slotOf s pair p.dom).isNone then s
  else
    let least := entersLeast s pair path (pa / 64) p.tag cc
    let s := l1Room s pair path (pa / 64) p.tag
    { s with l1 := s.l1.put (l1Key pair path (pa / 64) p.tag) { filledLine s pair path pa p with least := least } }
/-- The dirty bytes of a copy merge at the home, unless the arena of the tag is gone (R157, R272). -/
def mergeLine (s : State) (pair line : Nat) (l : L1Line) : State :=
  if tagKept s pair l.tag line then
    let s := (upTo 0 64).foldl (fun t o => if l.dmask.getLsbD o then setHomeByte t l.tag (line * 64 + o) (l.data.rd o) else t) s
    let s := touch s 0 0 l.tag line true
    if l.dmask = BitVec.allOnes 64 then { s with poison := s.poison.filter (· != line) } else s
  else s
/-- A copy is written back and stays, clean (R272). -/
def writeBack (s : State) (key : Nat) : State :=
  match s.l1.get? key with
  | some l =>
    let s := mergeLine s (keyPair key) (keyLine key) l
    { s with l1 := s.l1.put key { l with dmask := 0 } }
  | none => s
/-- Dirty copies of a domain in a pair. -/
def dirtyCopies (s : State) (pair dom : Nat) : List (Nat × L1Line) :=
  s.l1.filter fun e => keyPair e.1 == pair && e.2.dom == dom && e.2.dmask != 0
/-- Bytes of a domain that have left a pair's L1 and have not merged: write-backs of copies that are gone, and release stores that are
written through, which other lanes of the pair may have read already (R273, R346, R348). -/
def victimsOf (s : State) (pair dom : Nat) : List Nat :=
  (s.acc.filter fun e => e.2.pair == pair && e.2.dom == dom && (match e.2.kind with
    | .victim _ => true
    | .through => true
    | _ => false)).map (·.1)
/-- The arena of a tag is sealed and its sweep is over: every copy equals the home line (R164). -/
def sealedWhole (s : State) (arena gen : Nat) : Bool :=
  arenaState s arena gen == .sealed && !(s.seals.any fun e => e.2.members.contains arena)
/-- An acquire at device or system scope: the fresh bits of the domain's copies clear, sealed arenas spared (R274). -/
def acquire (s : State) (pair dom : Nat) : State :=
  { s with l1 := s.l1.map fun e =>
      if keyPair e.1 = pair ∧ e.2.dom = dom ∧ !sealedWhole s e.2.arena e.2.gen then (e.1, { e.2 with fresh := 0 }) else e }
/-- An acquire at scope `k`: group and core scope leave the L1 unchanged (R274); system scope also drops the domain's clean host-backed
slice lines (R359). -/
def acquireAt (s : State) (pair dom k : Nat) : State :=
  if k < 2 then s else if k = 2 then acquire s pair dom else dropCleanHost (acquire s pair dom) dom

/-- Memory accesses of a lane that have not completed: loads not returned, stores not merged, requests not applied (R295); and a
result of major 0x12 whose events the lane takes as a fault when it is due (R250). (DEDUCED, log 18) -/
def outstanding (s : State) (k : Nat) : Bool :=
  (s.results.any fun e => e.2.traps.contains k) ||
  (s.acc.any fun e => e.2.lane == k && e.2.kind != .writeBack 0 && e.2.kind != .hostBack) ||
  (s.atoms.any fun e => e.2.ops.any fun o => o.lane == k)
/-- Matrix loads and stores that count as accesses of the lane (R325). -/
def matOutstanding (s : State) (gid l : Nat) : Bool :=
  s.mops.any fun e => e.2.gid == gid && has e.2.signed l && majorOf e.2.word == 0x33 && fld e.2.word 10 3 < 2
/-- Earlier accesses of one of the lanes have not completed. -/
def anyOutstanding (s : State) (gid : Nat) (m : BitVec 64) : Bool :=
  (lanesOf m).any fun l => outstanding s (lk gid l) || matOutstanding s gid l

/-! ### Flushes and releases (R273, R346) -/

/-- A line lies in the ownership range of an engine operation (R283, R284). -/
def engineOwned (s : State) (line : Nat) : Bool := s.engs.any fun e => e.2.owned.contains line
/-- A release store or a victim of the pair to the line has not merged yet. (DESIGN CHOICE, log 21) -/
def throughOpen (s : State) (pair line : Nat) (below : Option Nat) : Bool :=
  s.acc.any fun e => (match e.2.kind with
      | .through => true
      | .victim _ => true
      | _ => false) && e.2.pair == pair && e.2.pa / 64 == line &&
    (match below with
     | some i => decide (e.1 < i)
     | none => true)
/-- An atomic of the pair at the line, sent before access `below`, has not been applied yet (R345). -/
def atomOpen (s : State) (pair line : Nat) (below : Option Nat) : Bool :=
  s.atoms.any fun e => !e.2.inSpm && e.2.pair == pair && e.2.pa / 64 == line &&
    (match below with
     | some i => decide (e.1 < i)
     | none => true)
/-- A dirty line of a pair may be written back: nothing must come first. -/
def wbReady (s : State) (pair line : Nat) : Bool := !engineOwned s line && !throughOpen s pair line none && !atomOpen s pair line none
/-- Every dirty byte of a domain that a pair has written can merge now. -/
def flushReady (s : State) (pair dom : Nat) : Bool :=
  victimsOf s pair dom == [] && (dirtyCopies s pair dom).all fun e => wbReady s pair (keyLine e.1)
/-- Write back every dirty line of a domain in a pair at once (a flush made inside one step, when it is ready). -/
def flushNow (s : State) (pair dom : Nat) : State := (dirtyCopies s pair dom).foldl (fun t e => writeBack t e.1) s
/-- The dirty host-backed slice lines of a domain. -/
def dirtyHost (s : State) (dom : Nat) : List Nat := (s.hostLines.filter fun e => tagDom (e.1 % 2 ^ 22) == dom && e.2.dmask != 0).map (·.1)
/-- Write every dirty host-backed slice line of a domain to host memory at once. -/
def flushHostNow (s : State) (dom : Nat) : State := (dirtyHost s dom).foldl hostWrite s
/-- Start the flush of a pair's dirty lines of a domain: a write-back request for each, and the bytes on their way already (R273). -/
def startFlush (s : State) (gid lane pair dom k : Nat) : List Nat × State :=
  if k < 2 then ([], s)
  else (dirtyCopies s pair dom).foldl (fun (a : List Nat × State) e =>
    let x : Access := { kind := .writeBack (keyPath e.1), tok := 0, gid := gid, lane := lane, pair := pair, dom := dom, arena := e.2.arena, gen := e.2.gen, pa := keyLine e.1 * 64, size := 64, epoch := epochOf s (keyLine e.1 * 64) }
    ((fresh a.2).1 :: a.1, { (fresh a.2).2 with acc := a.2.acc.put (fresh a.2).1 x })) (victimsOf s pair dom, s)
/-- Start the flush of a domain's dirty host-backed slice lines to host memory (R273). -/
def startHostFlush (s : State) (gid lane dom : Nat) : List Nat × State :=
  (dirtyHost s dom).foldl (fun (a : List Nat × State) k =>
    let t := k % 2 ^ 22
    let x : Access := { kind := .hostBack, tok := 0, gid := gid, lane := lane, pair := noPair, dom := dom, arena := tagArena t, gen := tagGen t, pa := k / 2 ^ 22 * 64, size := 64, epoch := epochOf s (k / 2 ^ 22 * 64) }
    ((fresh a.2).1 :: a.1, { (fresh a.2).2 with acc := a.2.acc.put (fresh a.2).1 x })) ([], s)
/-- What a lane's release waits for. -/
def relOf (s : State) (k : Nat) : Option (Bool × List Nat) := (laneAt s k).rel
/-- Set or clear what the lanes' releases wait for. -/
def setRel (s : State) (gid : Nat) (m : BitVec 64) (r : Option (Bool × List Nat)) : State :=
  (lanesOf m).foldl (fun t l => modLane t (lk gid l) fun y => { y with rel := r }) s
/-- Lanes of a mask whose release stands so. -/
def relMask (s : State) (gid : Nat) (m : BitVec 64) (p : Option (Bool × List Nat) → Bool) : BitVec 64 :=
  maskOf ((lanesOf m).filter fun l => p (relOf s (lk gid l)))
/-- A write-back that a release waits for is still on its way. -/
def relWaits (s : State) (r : Option (Bool × List Nat)) : Bool :=
  match r with
  | some e => e.2.any fun i => (s.acc.get? i).isSome
  | none => false
/-- A release at scope `k` by the lanes `m`: `.ok` when it is complete, `.error` with the state in which it is still in progress. Lanes
that have not begun start the flush of their pair's dirty lines; at system scope the host-backed lines follow (R273, R346). -/
def releaseAt (s : State) (gid : Nat) (m : BitVec 64) (pair dom k : Nat) : Except State State :=
  if anyOutstanding s gid m then .error s
  else if k < 2 then .ok s
  else
    let new := relMask s gid m (·.isNone)
    let f := if new = 0 then ([], s) else startFlush s gid (lk gid ((lanesOf new).headD 0)) pair dom k
    let s := if new = 0 then s else setRel f.2 gid new (some (false, f.1))
    if (lanesOf m).any fun l => relWaits s (relOf s (lk gid l)) then .error s
    else
      let host := if k < 3 then 0 else relMask s gid m fun r => match r with
        | some e => !e.1
        | none => false
      let f := if host = 0 then ([], s) else startHostFlush s gid (lk gid ((lanesOf host).headD 0)) dom
      if f.1 = [] then .ok (setRel s gid m none) else .error (setRel f.2 gid host (some (true, f.1)))

/-! ### Ready tables and bins (R172 to R178) -/

/-- The home die of a tag (R176). -/
def tagHome (t : Word) : Nat := fld t 30 2
/-- The entry of a tag. -/
def tagEntry? (s : State) (dom : Nat) (t : Word) : Option TagEntry := s.tags.find? fun e => e.dom == dom && e.tag == t
/-- Entries that a function uses on a die: tags, waiters, reservations, held continuations (R174, R177). -/
def entriesUsed (s : State) (f die : Nat) : Nat :=
  (s.tags.foldl (fun n e => if e.func = f ∧ tagHome e.tag = die then n + 1 + e.waiters.length + e.reserved else n) 0) +
  (s.heldConts.foldl (fun n e => if e.2.func = f ∧ e.2.die = die ∧ e.2.entryHeld then n + 1 else n) 0)
/-- Entries of a function's share on a die (R113). -/
def entryShare (s : State) (f die : Nat) : Nat := ((funcAt s f).blocks.getD die 0) * Config.blockEntries
/-- Room for `n` more entries. -/
def entryRoom (s : State) (f die n : Nat) : Bool := entriesUsed s f die + n ≤ entryShare s f die
/-- Change or make the entry of a tag; an entry with no count, waiter or reservation is freed (R177). -/
def putTag (s : State) (dom f : Nat) (t : Word) (g : TagEntry → TagEntry) : State :=
  let e := g ((tagEntry? s dom t).getD ⟨dom, f, t, 0, [], 0, false⟩)
  let rest := s.tags.filter fun x => !(x.dom == dom && x.tag == t)
  if e.count = 0 ∧ e.waiters = [] ∧ e.reserved = 0 then { s with tags := rest } else { s with tags := e :: rest }

/-- The header registered in a domain at an entry address (R81). -/
def headerAt (s : State) (dom entry : Nat) : Option Header := s.kernels.find? fun h => h.dom == dom && h.entry == entry
/-- The width that a header names (Table 4-2 gw). -/
def Header.width (h : Header) : Nat := 16 * 2 ^ h.gw
/-- The bins that a function holds on a die. -/
def binsHeld (s : State) (f die : Nat) : Nat := (s.bins.filter fun e => e.1 / 256 == die && e.2.func == f).length
/-- The bin of a key on a die. -/
def binOf (s : State) (die dom entry kentry : Nat) : Option (Nat × Bin) :=
  s.bins.find? fun e => e.1 / 256 == die && e.2.dom == dom && e.2.entry == entry && e.2.kentry == kentry
/-- A bin launches the fibres it holds (R173): they wait for placement, and the timer stops. -/
def launchBin (s : State) (key : Nat) : State :=
  match s.bins.get? key with
  | some b =>
    if b.fibres = [] then s
    else match b.waiting with
      | none => { s with bins := s.bins.put key { b with fibres := [], timer := none, waiting := some b.fibres } }
      | some _ => { s with bins := s.bins.put key { b with again := true } }
  | none => s
/-- bin_insert (R172 to R174, R182): 0 accepted, 1 bin blocked, 2 no bin free in the share. -/
def binInsert (s : State) (die dom f entry : Nat) (h : Header) (x : Fibre) : Nat × State :=
  match binOf s die dom entry h.entry with
  | some (key, b) =>
    if b.fibres.length ≥ h.width then (1, s)
    else
      let timer := if b.fibres = [] then some (s.wall + ticksOf100ns ((funcAt s f).binTime.getD die Config.binTimeDefault)) else b.timer
      let s := { s with bins := s.bins.put key { b with fibres := b.fibres ++ [x], timer := timer } }
      if b.fibres.length + 1 = h.width ∧ b.waiting = none then (0, launchBin s key) else (0, s)
  | none =>
    if (funcAt s f).bins.getD die 0 ≤ binsHeld s f die then (2, s)
    else
      match (upTo (die * 256) 256).find? fun k => (s.bins.get? k).isNone with
      | none => (2, s)
      | some key =>
        let timer := some (s.wall + ticksOf100ns ((funcAt s f).binTime.getD die Config.binTimeDefault))
        (0, { s with bins := s.bins.put key ⟨dom, f, entry, h.entry, [x], timer, none, false⟩ })
/-- A released continuation or handler fibre enters its bin, or is held in the table (R174). -/
def binRelease (s : State) (die dom f entry : Nat) (h : Header) (x : Fibre) (entryHeld : Bool) : State :=
  match binInsert s die dom f entry h x with
  | (0, s) => s
  | (_, s) =>
    let (i, s) := fresh s
    { s with heldConts := s.heldConts.put i ⟨die, dom, f, entry, h.entry, x, entryHeld⟩ }

/-! ### Reading and writing a domain's memory at its home -/

/-- `n` bytes of a domain's memory at their home, for an agent with no L1 (records, lists, descriptors). -/
def domBytes (s : State) (dom va n : Nat) : Except AccFail (List Byte) :=
  match translate s dom va false with
  | .error e => .error e
  | .ok (pa, p) =>
    match arenaCheck s p va false with
    | some e => .error e
    | none => if poisoned s pa then .error ⟨20, 0, va / 64 * 64⟩ else .ok (homeBytes s p.tag pa n)
/-- `n` bytes that may span lines and pages, read line by line. -/
def domRead (s : State) (dom va : Nat) : Nat → Nat → Except AccFail (List Byte)
  | 0, _ => .ok []
  | _, 0 => .ok []
  | fuel + 1, n =>
    let m := min n (64 - va % 64)
    match domBytes s dom va m with
    | .error e => .error e
    | .ok bs => match domRead s dom (va + m) fuel (n - m) with
      | .error e => .error e
      | .ok r => .ok (bs ++ r)
/-- The physical lines of a domain's range that are mapped. -/
def domLines (s : State) (dom va n : Nat) : List Nat :=
  (upTo (va / 64) ((va % 64 + n + 63) / 64)).filterMap fun l => match translate s dom (l * 64) false with
    | .ok (pa, _) => some (pa / 64)
    | .error _ => none
/-- A line of a domain's range is owned by an engine: who reads it waits for its recall (R284). -/
def domOwned (s : State) (dom va n : Nat) : Bool := (domLines s dom va n).any (engineOwned s)
/-- Write bytes of a domain's memory at their home; a write of a whole line clears its poison (R465). -/
def domWrite (s : State) (dom va : Nat) (bs : List Byte) : Option State :=
  match translate s dom va true with
  | .error _ => none
  | .ok (pa, p) =>
    if (arenaCheck s p va true).isSome then none
    else
      let s := mergeHome s 0 0 p.tag pa bs
      some (if bs.length = 64 then { s with poison := s.poison.filter (· != pa / 64) } else s)
/-- Whether the PCI Express transaction of a host access fails is open: a free choice, made when the access issues (R281; DESIGN CHOICE,
log 51). -/
def hostFails (s : State) (pa : Nat) : Bool × State := if isHost pa then takeBit s else (false, s)
/-- The same for an access to a domain's address. -/
def domHostFails (s : State) (dom va : Nat) (write : Bool) : Bool × State :=
  match translate s dom va write with
  | .ok (pa, _) => hostFails s pa
  | .error _ => (false, s)
/-- An access of `n` bytes from a domain's address up, line by line, of which a host line fails: that line's first address. -/
def hostLineFails (s : State) (dom va : Nat) (write : Bool) : Nat → Nat → Option Nat × State
  | 0, _ => (none, s)
  | _, 0 => (none, s)
  | fuel + 1, n =>
    let m := min n (64 - va % 64)
    let r := domHostFails s dom va write
    if r.1 then (some va, r.2) else hostLineFails r.2 dom (va + m) write fuel (n - m)

/-! ### Continuations (R178 to R180) and fault slots (R412 to R417) -/

/-- The cause of the first check of R179 that a record fails. -/
def recordFail (s : State) (dom : Nat) (r : List Byte) : Option Nat :=
  let at8 o := leNat ((r.drop o).take 8)
  let live := at8 0x20
  if leNat ((r.drop 0x2C).take 1) % 64 ≠ dom then some 0x013
  else if 16 < ((upTo 0 64).filter fun i => bitAt live i).length then some 0x013
  else match headerAt s dom (at8 8) with
    | none => some 0x012
    | some h =>
      if h.teamg ≠ 0 ∨ h.coop ∨ h.roled then some 0x013
      else if (upTo 0 64).any fun i => bitAt live i && decide (h.window ≤ i) then some 0x010
      else if at8 0 % 4 ≠ 0 then some 0x070
      else none
/-- The bits of FPSTAT that are not reserved (R5, Table 2-4): a record's others read zero. -/
def fpMask (x : Word) : Word := x &&& 0x1F1F#32
/-- The fibre of a record (R180): LIVE registers in increasing number from REGS. -/
def recordFibre (r : List Byte) : Fibre :=
  let at8 o := leNat ((r.drop o).take 8)
  let live := (upTo 0 64).filter fun i => bitAt (at8 0x20) i
  { args := [], resume := at8 0,
    preds := BitVec.ofNat 128 (leNat ((r.drop 0x10).take 16)) ||| 1,
    live := (live.zip (upTo 0 live.length)).map fun e => (e.1, BitVec.ofNat 32 (leNat ((r.drop (0x40 + 4 * e.2)).take 4))),
    fpstat := fpMask (BitVec.ofNat 32 (leNat ((r.drop 0x30).take 4))) }
/-- A record of a continuation (Table 9-3). -/
def recordBytes (resume kentry : Nat) (preds : BitVec 128) (live : List (Nat × Word)) (tag : Word) (dom : Nat) (faulted : Bool)
    (fpstat : Word) : List Byte :=
  leBytes 8 resume ++ leBytes 8 kentry ++ leBytes 16 preds.toNat ++ leBytes 8 (live.foldl (fun n e => n + 2 ^ e.1) 0) ++
  leBytes 4 tag.toNat ++ [BitVec.ofNat 8 dom, if faulted then 1 else 0, 0, 0] ++ leBytes 4 (fpMask fpstat).toNat ++ rep 12 0 ++
  (live.flatMap fun e => leBytes 4 e.2.toNat) ++ rep (64 - 4 * live.length) 0

/-- A fault tag (R417). -/
def faultTag (die slot : Nat) : Word := BitVec.ofNat 32 (die * 2 ^ 30 + 0x3FF * 2 ^ 20 + slot)
/-- The slot address that a tag names, when it is a fault tag of the domain. -/
def slotOfTag (s : State) (f : Nat) (t : Word) : Option Nat :=
  if fld t 10 20 = 0x3FF * 1024 then (funcAt s f).faultArea.map fun a => a + 512 * fld t 0 10 else none

/-- The trace record of a lost continuation (R178, R471). The manual names no core for an event at a ready table: some core of the tag's
home die stands in the record. (DESIGN CHOICE, log 1) -/
def lostCont (s : State) (f cause dom addr : Nat) (t : Word) : State :=
  trace (takeNat s 64).2 f (0x2000 + cause) (tagHome t * 64 + (takeNat s 64).1) dom (leBytes 8 addr ++ leBytes 4 t.toNat)
/-- A released continuation reads its record and enters its bin, or is lost with a trace record (R178, R180, R417). Its first instruction
acquires at the scope of the post (R178). -/
def releaseRecord (s : State) (dom f : Nat) (t : Word) (addr : Nat) (sys : Bool) : State :=
  match domRead s dom addr 3 128 with
  | .error e => lostCont s f (causeOf e.cls 0 e.detail) dom addr t
  | .ok r =>
    let s := if slotOfTag s f t = some addr then (domWrite s dom (addr + 0x80) [0, 0, 0, 0]).getD s else s
    match recordFail s dom r with
    | some c => lostCont s f c dom addr t
    | none =>
      match headerAt s dom (leNat ((r.drop 8).take 8)) with
      | none => s
      | some h => binRelease s (tagHome t) dom f (leNat (r.take 8)) h { recordFibre r with sys := sys } true
/-- An `await` lane takes its count: its predicate is written, it acquires at device scope and goes on (R178, R185). -/
def wakeAwait (s : State) (k : Nat) (took : Bool) : State :=
  match s.lanes.get? k with
  | some l =>
    match l.held with
    | .await _ _ p members =>
      let gid := k / 64
      let s := match s.groups.get? gid with
        | some g => if took then acquire s (pairOf g.core) g.stamp else s
        | none => s
      (lanesOf members).foldl (fun t m =>
        modLane t (lk gid m) fun x =>
          { x with preds := setBit128 x.preds p took, held := .none, pc := x.pc + 4, run := [] }) s
    | _ => s
  | none => s
/-- Release waiters of an entry while its count and a waiter remain (R177); the choice of waiter is free. -/
def releaseWaiters (dom f : Nat) (t : Word) : Nat → State → State
  | 0, s => s
  | n + 1, s =>
    match tagEntry? s dom t with
    | none => s
    | some e =>
      if e.count = 0 ∨ e.waiters = [] then s
      else
        let (i, s) := takeNat s e.waiters.length
        let w := e.waiters.getD i (.record 0)
        let s := putTag s dom f t fun x => { x with count := x.count - 1, waiters := x.waiters.eraseIdx i, sys := x.sys && x.count != 1 }
        let s := match w with
          | .record a => releaseRecord s dom f t a e.sys
          | .lane k => wakeAwait s k true
        releaseWaiters dom f t n s
/-- post (R177): saturating addition of counts, then releases. -/
def post (s : State) (dom f : Nat) (t : Word) (n : Nat) (sys : Bool := false) : State :=
  let s := if n = 0 ∧ (tagEntry? s dom t).isNone then s
    else putTag s dom f t fun e => { e with count := min (e.count + n) 0xFFFFFFFF, sys := e.sys || (sys && n != 0) }
  match tagEntry? s dom t with
  | some e => releaseWaiters dom f t e.waiters.length s
  | none => s
/-- take_one (R177). -/
def takeOne (s : State) (dom f : Nat) (t : Word) : Bool × State :=
  match tagEntry? s dom t with
  | some e => if e.count = 0 then (false, s) else (true, putTag s dom f t fun x => { x with count := x.count - 1, sys := x.sys && x.count != 1 })
  | none => (false, s)
/-- A waiter registers: with a count it is released at once (R177). -/
def registerWaiter (s : State) (dom f : Nat) (t : Word) (w : Waiter) : State :=
  let s := putTag s dom f t fun e => { e with waiters := e.waiters ++ [w] }
  releaseWaiters dom f t 1 s

/-- A lane ends (R169): its transaction is lost with it (R380). Its registers stay until its group retires, since a matrix word may
read them (R319). What completes through it is settled after the word. -/
def endLane (s : State) (k : Nat) : State := { s with lanes := s.lanes.del k }

/-- The lowest fault-area slot whose OWN is 0 (R415 step 1); a slot that cannot be read ends the search. -/
def freeFaultSlot (s : State) (dom fa : Nat) : Nat → Nat → Except Nat (Option Nat)
  | 0, _ => .ok none
  | n + 1, i =>
    match domBytes s dom (fa + 512 * i + 0x80) 4 with
    | .error _ => .error i
    | .ok b => if leNat b = 0 then .ok (some i) else freeFaultSlot s dom fa n (i + 1)

/-- A fault record (Table 23-2). -/
def faultRecord (s : State) (f : FaultInfo) (pc next : Nat) (core lane : Nat) (flags : Nat) (gridix word domid : Nat) : List Byte :=
  leBytes 4 1 ++ leBytes 2 f.cause ++ leBytes 2 f.sub ++ leBytes 8 pc ++ leBytes 8 next ++ leBytes 8 f.addr ++ leBytes 8 f.info ++
  leBytes 8 (nsNow s) ++ leBytes 2 core ++ leBytes 1 lane ++ leBytes 1 flags ++ leBytes 4 gridix ++ leBytes 4 word ++
  leBytes 4 domid ++ rep 64 0

/-- Write a list of chunks of at most 64 bytes at rising addresses. -/
def domWrites (s : State) (dom : Nat) : Nat → List Byte → Nat → Option State
  | _, _, 0 => some s
  | va, bs, n + 1 =>
    match bs with
    | [] => some s
    | _ => match domWrite s dom va (bs.take 64) with
      | some t => domWrites t dom (va + 64) (bs.drop 64) n
      | none => none

/-- Spawn the handler fibre (R415 step 6): v0:v1 slot address, v2 cause, v3 fault tag. -/
def spawnHandler (s : State) (die dom f slotAddr cause : Nat) (tag : Word) : State :=
  match (funcAt s f).faultEntry with
  | none => s
  | some e =>
    match headerAt s dom e with
    | none => s
    | some h =>
      binRelease s die dom f e h
        { args := [BitVec.ofNat 32 slotAddr, BitVec.ofNat 32 (slotAddr / 2 ^ 32), BitVec.ofNat 32 cause, tag], resume := e } false

/-- The delivery of a detached fault (R411, R415): steps 1, 4 and 6, or the fault waits, or a trace record is written (R416). -/
def deliverDetached (s : State) (dom : Nat) (f : FaultInfo) (core : Nat) (flags : Nat := 0) (pc : Nat := 0) (word : Nat := 0)
    (domid : Option Nat := none) : State :=
  match funcOfDom s dom with
  | none => s
  | some fn =>
    let x := funcAt s fn
    match x.faultEntry, x.faultArea with
    | some _, some fa =>
      match freeFaultSlot s dom fa Config.faultSlots 0 with
      | .error i => trace s fn 0x4170 core dom (leBytes 8 (fa + 512 * i) ++ leBytes 8 pc)
      | .ok none =>
        let (i, s) := fresh s
        { s with detached := s.detached.put i ⟨dom, f, core, flags, pc, word, domid⟩ }
      | .ok (some i) =>
        let a := fa + 512 * i
        let bytes := rep 128 0 ++ faultRecord s f pc 0 core 0xFF flags 0xFFFFFFFF word (domid.getD (fn * 64 + dom)) ++ rep 256 0
        match domWrites s dom a bytes 8 with
        | none => trace s fn 0x4170 core dom (leBytes 8 a ++ leBytes 8 pc)
        | some s => spawnHandler s (dieOf core) dom fn a f.cause (faultTag (dieOf core) i)
    | _, _ => trace s fn (0x4000 + f.cause) core dom (leBytes 8 f.addr ++ leBytes 8 pc)

/-- A DOMAIN fault is told to the steward's trace (R135). -/
def traceDomain (s : State) (f : FaultInfo) (core dom pc : Nat) : State :=
  if f.cause / 16 = 9 then trace s 0 (0x8000 + f.cause) core dom (leBytes 8 f.addr ++ leBytes 8 pc) else s
/-- A detached fault is raised (R135, R411): the steward hears of a DOMAIN fault, and the fault is delivered. -/
def detachedFault (s : State) (dom : Nat) (f : FaultInfo) (core : Nat) (flags : Nat := 0) (pc : Nat := 0) (word : Nat := 0)
    (domid : Option Nat := none) : State :=
  deliverDetached (traceDomain s f core dom pc) dom f core flags pc word domid

/-- A continuation whose table share has gone is lost: a detached fault BUDGET detail 1 names its record (R124, Table 23-4). -/
def displaced (s : State) (dom core addr : Nat) : State := detachedFault s dom { cause := causeOf 18 0 1, addr := addr } core

/-- A gate aborts (R140): the target window goes, the frame comes back, every live lane goes on at the return address with
pD := 0 and v0 := the code. Nothing that the target's words still have on their way reaches the caller's registers.
(DEDUCED, log 30) -/
def abortGate (s : State) (gid code : Nat) : State :=
  match s.groups.get? gid with
  | none => s
  | some g =>
    match g.gate with
    | none => s
    | some fr =>
      let ls := (lanesOf (liveMask s gid)).map (lk gid)
      let s := modGroup s gid fun g =>
        { g with stamp := fr.stamp, func := fr.func, window := fr.window, divmax := fr.divmax, rfBase := fr.rfBase,
                 entries := fr.entries, gate := none, abort := none, voidTo := s.nextId, cover := none, only := 0, early := [], bars := [] }
      let s := modTeam s g.team fun t => { t with bars := t.bars.map fun (b : Nat × List Nat) => (b.1, b.2.filter fun k => !ls.contains k) }
      let s := { s with
        board := s.board.filter fun p => p.gid != gid, posts := s.posts.map fun (p : Nat × Post) => if p.2.gid = gid then (p.1, { p.2 with lanes := 0 }) else p,
        grids := s.grids.map fun (e : Nat × Grid) => (e.1, { e.2 with bars := e.2.bars.map fun (b : Nat × List Nat) => (b.1, b.2.filter fun k => !ls.contains k) }),
        poisonRegs := s.poisonRegs.filter (fun r => r / 8192 != gid) ++ fr.poison.filter fun r => r % 128 != 0 }
      (lanesOf (liveMask s gid)).foldl (fun t l =>
        let k := lk gid l
        let t := { t with vregs := t.vregs.clear (k * 128) 128 }
        let t := (upTo 0 64).foldl (fun u r => setVreg u k r (fr.regs.rd (l * 128 + r))) t
        let t := setVreg t k 0 (BitVec.ofNat 32 code)
        modLane t k fun x =>
          { x with pc := fr.retPc, run := [], held := .none, rel := none, txn := none, commit := none, txStat := if x.txn.isSome then 0 else x.txStat, preds := setBit128 ((fr.preds.get? l).getD 1) fr.pred false }) s

/-- A word of a group was issued behind a gate that has aborted since (R140). -/
def voided (s : State) (gid tok : Nat) : Bool := ((s.groups.get? gid).map fun g => decide (tok < g.voidTo)).getD false

/-- A fault of the group's grid is counted (R458). -/
def countFault (s : State) (g : Group) : State :=
  match (teamOf? s g).bind (·.grid) with
  | some gr => modGrid s gr fun y => { y with faulted := y.faulted + 1 }
  | none => s
/-- Something that a lane has issued has not completed: its accesses, and the results that its registers, and so its image, await
(R415). -/
def awaited (s : State) (gid l : Nat) : Bool :=
  outstanding s (lk gid l) || matOutstanding s gid l ||
  (s.results.any fun e => (e.2.regs.any fun r => r.1 == lk gid l) || e.2.preds.any fun r => r.1 == lk gid l) ||
  (s.acc.any fun e => e.2.gid == gid && has e.2.lanes l) || (s.atoms.any fun e => e.2.ops.any fun o => o.gid == gid && has o.lanes l) ||
  (s.msgs.any fun e => e.2.gid == gid && has e.2.lanes l) || s.posts.any fun e => !e.2.free && e.2.gid == gid && has e.2.lanes l
/-- A lower lane of the same word still waits for its slot: lanes of one word take their slots in increasing order (R419). -/
def lowerWaits (s : State) (gid l : Nat) (pc : DWord) (word : Word) : Bool :=
  (upTo 0 l).any fun i => match (laneAt s (lk gid i)).held with
    | .faultSlot _ w _ p => w == word && p == pc
    | _ => false
/-- The delivery cannot write its slot (R416): the lane ends with no continuation and a trace record, and the slot is given back. -/
def slotLost (s : State) (g : Group) (k a : Nat) (pc : DWord) : State :=
  endLane (trace s g.func 0x4170 g.core g.stamp (leBytes 8 a ++ leBytes 8 pc.toNat)) k
/-- Steps 3 to 6 of a lane's delivery (R415), its slot and waiter entry taken: what the lane has under way completes and its writes are
released, then the slot is written, the continuation registered and the handler fibre spawned. -/
def deliverFault (s : State) (gid l i : Nat) (f : FaultInfo) (pc next : DWord) (word : Word) : State :=
  let k := lk gid l
  match s.groups.get? gid with
  | none => s
  | some g =>
    let hold (s : State) : State := modLane s k fun y => { y with held := .deliver i f word next pc, run := [], pc := pc }
    if awaited s gid l then hold s
    else match releaseAt s gid (bitMask l) (pairOf g.core) g.stamp 2 with
    | .error s => hold s
    | .ok s =>
      let die := dieOf g.core
      let tag := faultTag die i
      let a := ((funcAt s g.func).faultArea.getD 0) + 512 * i
      let lane := laneAt s k
      let live := (upTo 0 (min g.window 16)).map fun r => (r, vreg s k r)
      let flags := 1 + (if f.group then 2 else 0)
      let bytes := recordBytes pc.toNat g.kentry lane.preds live tag g.stamp true lane.fpstat ++
        faultRecord s f pc.toNat next.toNat g.core l flags g.gridix.toNat word.toNat (g.func * 64 + g.stamp) ++
        ((upTo 0 64).flatMap fun r => leBytes 4 (if r < g.window then (vreg s k r).toNat else 0))
      let entry (s : State) : State := putTag s g.stamp g.func tag fun e => { e with reserved := e.reserved - 1 }
      match domWrites s g.stamp a bytes 8 with
      | none => slotLost (entry ((domWrite s g.stamp (a + 0x80) [0, 0, 0, 0]).getD s)) g k a pc
      | some s =>
        let s := if entryShare s g.func die = 0 then displaced (entry (endLane s k)) g.stamp g.core a
          else entry (registerWaiter (endLane s k) g.stamp g.func tag (.record a))
        spawnHandler s die g.stamp g.func a f.cause tag

/-- TAKING A FAULT (R415, R416, R134, R140): what happens when lane `l` of group `gid` raises `f` at a word. `pc` is the PC of
R37, `next` the address after the target. The lane takes the lowest free slot and a waiter entry, and its delivery goes on (`deliverFault`);
with no handler a trace record is written and the lane ends; with no slot or no waiter entry, or while a lower lane of the word waits for
one, the lane is held and tries again. In target code the record goes to the target's handler and the gate aborts when the word is
over. (DESIGN CHOICE, log 23) -/
def takeFault (s : State) (gid l : Nat) (f : FaultInfo) (pc next : DWord) (word : Word) : State :=
  let k := lk gid l
  match s.groups.get? gid with
  | none => s
  | some g =>
    if g.gate.isSome then
      let s := detachedFault s g.stamp f g.core (if f.group then 6 else 4) pc.toNat word.toNat (some (g.func * 64 + g.stamp))
      modGroup s gid fun y => { y with abort := some (y.abort.getD f.cause) }
    else
      let fn := g.func
      let x := funcAt s fn
      let die := dieOf g.core
      let wait (s : State) : State := modLane s k fun y => { y with held := .faultSlot f word next pc, run := [], pc := pc }
      -- R250: the events of a word of major 0x12 are taken when its result is due
      if s.results.any fun e => e.2.traps.contains k then wait s
      else match x.faultEntry, x.faultArea with
        | some _, some fa =>
          if lowerWaits s gid l pc word then wait s
          else match freeFaultSlot s g.stamp fa Config.faultSlots 0 with
          | .error i => slotLost (traceDomain (countFault s g) f g.core g.stamp pc.toNat) g k (fa + 512 * i) pc
          | .ok none => wait s
          | .ok (some i) =>
            let tag := faultTag die i
            let need := if (tagEntry? s g.stamp tag).isSome then 1 else 2
            if !entryRoom s fn die need then wait s
            else
              let s := traceDomain (countFault s g) f g.core g.stamp pc.toNat
              match domWrite s g.stamp (fa + 512 * i + 0x80) [1, 0, 0, 0] with
              | none => slotLost s g k (fa + 512 * i) pc
              | some s => deliverFault (putTag s g.stamp fn tag fun e => { e with reserved := e.reserved + 1 }) gid l i f pc next word
        | _, _ =>
          let s := traceDomain (countFault s g) f g.core g.stamp pc.toNat
          endLane (trace s fn (0x4000 + f.cause) g.core g.stamp (leBytes 8 f.addr ++ leBytes 8 pc.toNat)) k

/-- A lane gives up the waiter entries that a delivery or a `park` of it has reserved (R183, R415). -/
def dropReserved (s : State) (k : Nat) : State :=
  match s.groups.get? (k / 64) with
  | none => s
  | some g =>
    let back (s : State) (t : Word) : State := putTag s g.stamp g.func t fun e => { e with reserved := e.reserved - 1 }
    let s := match (laneAt s k).held with
      | .deliver i _ _ _ _ => back s (faultTag (dieOf g.core) i)
      | _ => s
    match (laneAt s k).parkTag with
    | some t => modLane (back s t) k fun y => { y with parkTag := none }
    | none => s

/-- The tag under which a slot's continuation waits (R417): the fault tag of the slot's index and of the die of the faulting core, which is
the die whose table holds the waiter; the record's CORE names it where none does. -/
def slotTag (s : State) (dom fa slotAddr : Nat) (r : List Byte) : Word :=
  let i := (slotAddr - fa) / 512
  let held (d : Nat) : Bool := ((tagEntry? s dom (faultTag d i)).map fun e => e.waiters.contains (.record slotAddr)).getD false
  faultTag (((upTo 0 Config.dies).find? held).getD (leNat ((r.drop 0xB0).take 2) / 64 % 4)) i
/-- THE RETURN FROM A FAULT (R424, last steps): a post to the slot's tag releases the continuation, whose record is read and OWN cleared in
the same step (R417), so that a second `eret` finds OWN = 0; or the waiter is discarded with OWN := 0. -/
def returnFault (s : State) (dom f slotAddr : Nat) (tag : Word) (abandon : Bool) : State :=
  if abandon then
    let s := putTag s dom f tag fun e => { e with waiters := e.waiters.filter fun w => w != .record slotAddr }
    (domWrite s dom (slotAddr + 0x80) [0, 0, 0, 0]).getD s
  else if (tagEntry? s dom tag).isNone && !entryRoom s f (tagHome tag) 1 then s
  else post s dom f tag 1

/-! ### Code words -/

/-- The word at an address, read on the code path under a stamp (word_at, R54): the pair's copy, else the home. -/
def codeWord (s : State) (g : Group) (va : Nat) : Option Word :=
  match translate s g.stamp va false with
  | .error _ => none
  | .ok (pa, p) =>
    match l1Read s (pairOf g.core) 0 pa 4 p with
    | some b => some (BitVec.ofNat 32 (leNat b))
    | none => some (BitVec.ofNat 32 (leNat (homeBytes s p.tag pa 4)))
/-- The word is a hint (R35). -/
def isHint (w : Word) : Bool := majorOf w == 0x3F
/-- A transfer to this address raises ILLEGAL 0x09 (R36): its preceding word is a hint and it is no exempt entry. -/
def ontoHint (s : State) (g : Group) (t : DWord) : Bool :=
  (headerAt s g.stamp t.toNat).isNone &&
  match codeWord s g (t - 4).toNat with
  | some w => isHint w
  | none => false

end Sys2Proof.Machine
end

