-- ==== Sys2Proof/Machine/Operands.lean ====
section
/-!
DEFINITION. Operands: the hint run of a word (R35 to R43), the registers and predicates that a word names (R28, R51 step 7, R199),
the latency class of its results (Table 10-2), immediates (R40), and the checks that stand before a word executes.
-/
namespace Sys2Proof.Machine

/-! ### The run -/

/-- What a run gives its target (R35, R39 to R43). -/
structure Hints where
  sched : Option Word := none
  imx : Option (BitVec 24) := none
  opx : Option OpxHint := none
  /-- The `opx` word has a nonzero reserved bit (Table 2-6 bits [4:2]). -/
  opxBad : Bool := false
  pre : Option (BitVec 16 × Nat) := none
  deriving DecidableEq, Repr

/-- Read a run of hint words. (DEDUCED, log 11) -/
def hintsOf (run : List Word) : Hints :=
  run.foldl (fun h w =>
    match fld w 24 2 with
    | 0 => { h with sched := some w }
    | 1 => { h with imx := some (BitVec.ofNat 24 (fld w 0 24)) }
    | 2 => { h with opx := some (opxOf w), opxBad := h.opxBad || fld w 2 3 != 0 }
    | _ => { h with pre := some (BitVec.ofNat 16 (fld w 8 16), fld w 0 8) }) {}

/-- The `opx` fields in force, or their values with no `opx` (Table 2-6, last column); the scope default stands apart. -/
def opxEff (h : Hints) : OpxHint := h.opx.getD ⟨0, 0, false, false, 0, 0, false, false, false, false, 0⟩

/-- The kinds of hint in a run (R38). -/
def kindsOf (run : List Word) : List Nat := run.map fun w => fld w 24 2

/-- The fence asks for promotion (comm on major 0x25). -/
def fencePromotes (w : Word) (x : OpxHint) : Bool := majorOf w == 0x25 && fld w 0 4 < 4 && x.comm

/-- The operand width in registers of the integer majors: 1 for 32 bits, 2 for 64 (R233). -/
def itypeRegs (x : OpxHint) : Nat := if 2 ≤ x.itype.toNat then 2 else 1
/-- The operand width in bits. -/
def itypeBits (x : OpxHint) : Nat := if 2 ≤ x.itype.toNat then 64 else 32
/-- Signed types are .s32 and .s64. -/
def itypeSigned (x : OpxHint) : Bool := x.itype.toNat % 2 == 0

/-! ### Registers that a word names -/

/-- A run of vector registers that a word names: first, count, alignment, read, written. -/
structure RegUse where
  start : Nat
  count : Nat := 1
  align : Nat := 1
  src : Bool := false
  dst : Bool := false
  deriving DecidableEq, Repr

/-- Source of `n` registers at `r`, aligned. -/
def rsrc (r : Nat) (n : Nat := 1) (al : Nat := n) : RegUse := ⟨r, n, al, true, false⟩
/-- Destination of `n` registers at `r`, aligned. -/
def rdst (r : Nat) (n : Nat := 1) (al : Nat := n) : RegUse := ⟨r, n, al, false, true⟩
/-- Source and destination. -/
def rboth (r : Nat) (n : Nat := 1) (al : Nat := n) : RegUse := ⟨r, n, al, true, true⟩

/-- Registers of a load or store kind of Table 2-10 (8 is `.hdr`). -/
def kindRegs (f : Nat) : Nat := if f = 5 then 2 else if f = 6 then 4 else 1
/-- Bytes of a load or store kind. -/
def kindBytes (f : Nat) : Nat :=
  match f with
  | 0 => 1
  | 1 => 1
  | 2 => 2
  | 3 => 2
  | 5 => 8
  | 6 => 16
  | _ => 4
/-- A format of Table 2-9 that fills a pair. -/
def is64 (c : Nat) : Bool := c == 0 || c == 10 || c == 14
/-- A format of Table 2-9 that fills less than a register. -/
def isPart (c : Nat) : Bool := !(is64 c || c == 1 || c == 9 || c == 13)

/-- The vector registers a word names in its fields (R28, R51 step 7), for window W and group width. -/
def regUses (w : Word) (x : OpxHint) (hasOpx : Bool) (W width : Nat) : List RegUse :=
  let d := fld w 15 6
  let a := fld w 9 6
  let b := fld w 3 6
  let f3 := fld w 0 3
  let f4 := fld w 0 4
  let m3 := fld w 9 3
  let n := itypeRegs x
  let s3 := if hasOpx then x.src3.toNat else d
  let xa := fld w 13 6
  let xb := fld w 7 6
  let xm := fld w 1 6
  let t := fld w 0 1
  match majorOf w with
  | 0x00 => match a with
    | 3 => [rdst d]
    | 4 => [rsrc d]
    | 5 => [rdst d 2]
    | 7 => [rsrc d 2]
    | 8 => [⟨d, 4, 4, false, false⟩, rboth d 3 1]
    | _ => []
  | 0x02 => [rdst (W - 2) 2]
  | 0x05 => match f3 with
    | 0 => [rsrc a 2, rsrc b]
    | 1 => [rsrc a 2]
    | 7 => if d = 0 then [rsrc a 2] else [rsrc b]
    | _ => []
  | 0x06 => match f3 with
    | 0 => [rdst d, rsrc a 2, rsrc b 4]
    | 1 => [rsrc d 2, rsrc a 2, rsrc b]
    | 2 => [rdst d, rsrc a, rsrc b]
    | _ => [rsrc a, rsrc b]
  | 0x08 => if f3 < 6 then [rdst d n, rsrc a n, rsrc b n] else [rdst d n, rsrc a n]
  | 0x09 => if m3 < 6 then [rboth d n] else [rdst d n]
  | 0x0A => if f3 = 3 ∨ 5 ≤ f3 then [rdst d n, rsrc a n] else [rdst d n, rsrc a n, rsrc b n]
  | 0x0B => if m3 = 3 ∨ 5 ≤ m3 then [rdst d n] else [rboth d n]
  | 0x0C => match f3 with
    | 5 => [rboth d n, rsrc a n, rsrc b n]
    | 6 => [rdst d 2, rsrc a 2, rsrc b n]
    | 7 => [rdst d n, rsrc a n, rsrc b n, rsrc s3 n]
    | _ => [rdst d n, rsrc a n, rsrc b n]
  | 0x0D => match m3 with
    | 6 => [rboth d 2]
    | 7 => [rboth d n, rsrc s3 n]
    | _ => [rboth d n]
  | 0x0E => [rsrc a n, rsrc b n]
  | 0x0F => match f3 with
    | 0 => [rdst d, rsrc a]
    | 1 => [rdst d]
    | 2 => [rdst d, rsrc a, rsrc b]
    | 3 => [rsrc a]
    | 4 => [rdst d 2]
    | 5 => [rdst d, rsrc a]
    | 6 => [rdst d n, rsrc a n]
    | _ => [rdst d]
  | 0x10 => if f3 = 4 ∨ f3 = 5 ∨ f3 = 6 then [rdst d, rsrc a] else [rdst d, rsrc a, rsrc b]
  | 0x11 => [rdst d, rsrc a, rsrc b, rsrc s3]
  | 0x12 => [rdst d, rsrc a]
  | 0x13 => [rsrc a, rsrc b]
  | 0x14 => if f3 = 5 then [rsrc a 2, rsrc b 2] else if f3 = 2 then [rdst d 2, rsrc a 2, rsrc b 2, rsrc s3 2]
    else [rdst d 2, rsrc a 2, rsrc b 2]
  | 0x15 => if f3 = 2 ∨ f3 = 5 then [rdst d, rsrc a, rsrc b, rsrc s3] else [rdst d, rsrc a, rsrc b]
  | 0x16 =>
    let dc := fld w 5 4
    let sc := fld w 1 4
    [if isPart dc then rboth d else rdst d (if is64 dc then 2 else 1), rsrc a (if is64 sc then 2 else 1)]
  | 0x17 => match f3 with
    | 0 => [rdst d, rsrc a]
    | 1 => [rdst d, rsrc a, rsrc b]
    | 2 => [rdst d, rsrc a]
    | 3 => [rboth d, rsrc a 4, rsrc b]
    | _ => [rdst d 4, rsrc a, rsrc b]
  | 0x18 => match f3 with
    | 4 => if b < 32 then [rdst d] else [rsrc a]
    | 5 => [rdst d]
    | _ => []
  | 0x20 => [rdst d (kindRegs f4), rsrc a 2]
  | 0x21 => [rsrc d (kindRegs f4), rsrc a 2]
  | 0x22 => [rdst d (kindRegs f4), rsrc a 2]
  | 0x23 => [rdst d (kindRegs f4), rsrc a 2]
  | 0x24 => if f4 < 8 then [rdst d (kindRegs f4), rsrc a 2] else [rsrc d (kindRegs (f4 - 8)), rsrc a 2]
  | 0x25 => if f4 < 4 then (if x.comm then [rsrc a 2] else [])
    else if f4 = 4 then [] else if f4 < 12 then [rboth d 2, rsrc a 2] else [rsrc a 2]
  | 0x26 =>
    let m := if f4 < 10 then n else 1
    if f4 = 7 ∨ f4 = 9 then [rsrc d (2 * m), rdst d m, rsrc a 2] else [rboth d m, rsrc a 2]
  | 0x27 =>
    let m := if f4 < 10 then n else 1
    if f4 = 7 ∨ f4 = 9 then [rsrc d (2 * m), rsrc a 2] else [rsrc d m, rsrc a 2]
  | 0x28 => match f4 with
    | 2 => [rsrc d]
    | 3 => [rdst d]
    | _ => []
  | 0x29 => match f4 with
    | 0 => [⟨d, 4, 4, false, false⟩, rboth d, rboth (d + 2) 2]
    | 1 => [rsrc d 4, rdst (d + 2) 2]
    | 4 => [rsrc d, rdst d 4]
    | _ => [rsrc d]
  | 0x2A => [rsrc d]
  | 0x2B => if 8 ≤ f4 then [rsrc d 8, rsrc a 2] else [rsrc d 8]
  | 0x2C => match f4 with
    | 0 => [rsrc d 4, rdst a]
    | 1 => [rsrc d 8, rdst a]
    | _ => [rsrc d 4, rdst a 2]
  | 0x30 => [rsrc xa (128 / width + t) 2, rsrc xb (128 / width + t) 2, rsrc xm 2]
  | 0x31 => [rsrc xa (128 / width + t) 2, rsrc xb (128 / width + t) 2, rsrc xm 2]
  | 0x32 => [rsrc xa (256 / width) 2, rsrc xb (256 / width) 2, rsrc xm 2]
  | 0x33 => match fld w 10 3 with
    | 0 => [rsrc xa 2, rsrc xm 2]
    | 1 => [rsrc xa 2, rsrc xm 2]
    | 2 => [rsrc xm 2]
    | 3 => [rdst xa (256 / width) 2, rsrc xm 2]
    | _ => [rdst xa (1 + t), rsrc xm 2]
  | _ => []

/-- Number of a predicate field with its extension bit (Table 2-6). -/
def predNo (n : Nat) (px : Bool) : Nat := if px then n + 64 else n

/-- Predicates a word reads (guard apart) and writes. -/
def predUses (w : Word) (x : OpxHint) (hasOpx : Bool) : List Nat × List Nat :=
  let d := fld w 15 6
  let a := fld w 9 6
  let b := fld w 3 6
  let f3 := fld w 0 3
  let f4 := fld w 0 4
  let pd := predNo d x.pxD
  let pa := predNo a x.pxA
  let pb := predNo b x.pxB
  match majorOf w with
  | 0x06 => if f3 = 3 then ([], [pd]) else ([], [])
  | 0x07 => if a = 0 then ([], [pd]) else ([], [])
  | 0x0A => if f3 = 4 ∧ hasOpx then ([predNo x.src3.toNat x.pxS3], []) else ([], [])
  | 0x0B => if fld w 9 3 = 4 ∧ hasOpx then ([predNo x.src3.toNat x.pxS3], []) else ([], [])
  | 0x0E => ([], [pd])
  | 0x0F => if f3 = 3 then ([], [pd]) else if f3 = 4 then ([pa], []) else ([], [])
  | 0x13 => ([], [pd])
  | 0x14 => if f3 = 5 then ([], [fld w 15 3]) else ([], [])
  | 0x18 => match f3 with
    | 0 => ([pa, pb], [pd])
    | 1 => ([pa, pb], [pd])
    | 2 => ([pa, pb], [pd])
    | 3 => ([pa], [pd])
    | 4 => if b < 32 then ((upTo (32 * (b % 4)) 32), []) else ([], upTo (32 * (b % 4)) 32)
    | 5 => ([pa], [])
    | _ => ([pa], [pd])
  | 0x28 => if f4 = 1 then ([], [pd]) else ([], [])
  | 0x29 => if f4 = 3 then ([], [pa]) else ([], [])
  | _ => ([], [])

/-- The guard of a word: predicate and sense; words without a guard field behave as guarded by p0 (R23, R24). -/
def guardFields (w : Word) : Nat × Bool :=
  let m := majorOf w
  if m = 0x04 ∨ 0x30 ≤ m then (0, false) else (fld w 21 3, fld w 24 1 == 1)
/-- The U bit of a word that has one. -/
def uBit (w : Word) : Bool :=
  let m := majorOf w
  !(m == 0x04 || 0x30 ≤ m) && fld w 25 1 == 1
/-- The S field of a word that has one; 7 names no slot. -/
def slotField (w : Word) : Nat :=
  match formatOf (majorOf w) with
  | some .M => fld w 6 3
  | some .X => fld w 19 3
  | _ => 7

/-- Latency of a word's results (Table 10-2): `some n` fixed, `none` variable; `some 0` for words that hold their lanes or
write no register, and for the return pair of `call`, to which the table gives no distance. (DESIGN CHOICE, log 17) -/
def latency (w : Word) (width : Nat) : Option Nat :=
  let f3 := fld w 0 3
  match majorOf w with
  | 0x00 => if fld w 9 6 = 3 then some 4 else if fld w 9 6 = 5 then some 6 else some 0
  | 0x08 => if f3 = 2 ∨ f3 = 3 then some 6 else some 4
  | 0x09 => if fld w 9 3 = 2 ∨ fld w 9 3 = 3 then some 6 else some 4
  | 0x0A => some 4
  | 0x0B => some 4
  | 0x0C => if f3 = 7 then some 6 else some 4
  | 0x0D => if fld w 9 3 = 7 then some 6 else some 4
  | 0x0E => some 4
  | 0x0F => match f3 with
    | 0 => some 4
    | 1 => some 4
    | 6 => some 12
    | 7 => some 4
    | _ => some 8
  | 0x10 => some 5
  | 0x11 => some 5
  | 0x12 => none
  | 0x13 => some 5
  | 0x14 => some (8 + width / 4)
  | 0x15 => some 5
  | 0x16 => some 6
  | 0x17 => if f3 = 2 then none else some 6
  | 0x18 => some 4
  | m => if 0x20 ≤ m ∧ m ≤ 0x33 then none else some 0

/-- Step 7 of R51: 0 when a named register lies outside the window, 1 when one is misaligned. (DEDUCED, log 9) -/
def operandFail (us : List RegUse) (W : Nat) : Option Nat :=
  if us.any fun u => decide (W < u.start + u.count) then some 0
  else if us.any fun u => u.start % u.align != 0 then some 1
  else none

/-- Registers of the uses that are sources, and that are destinations. -/
def srcRegs (us : List RegUse) : List Nat := (us.filter (·.src)).flatMap fun u => upTo u.start u.count
/-- Destination registers. -/
def dstRegs (us : List RegUse) : List Nat := (us.filter (·.dst)).flatMap fun u => upTo u.start u.count

/-! ### Immediates (R40) -/

/-- Sign-extend `n` bits to an integer. -/
def sextInt (x n : Nat) : Int := if x % 2 ^ n < 2 ^ (n - 1) then (x % 2 ^ n : Nat) else ((x % 2 ^ n : Nat) : Int) - (2 ^ n : Nat)
/-- An I-format value: sext(payload : IMM9, 33), or sext(IMM9, 9) with no `imx` (R21, R40). -/
def immI (h : Hints) (imm : BitVec 9) : Int :=
  match h.imx with
  | some p => sextInt (p.toNat * 512 + imm.toNat) 33
  | none => imm.toInt
/-- A J-format offset in words: sext(payload : OFF21, 45), or sext(OFF21, 21). -/
def immJ (h : Hints) (off : BitVec 21) : Int :=
  match h.imx with
  | some p => sextInt (p.toNat * 2 ^ 21 + off.toNat) 45
  | none => off.toInt
/-- An M-format byte offset: sext(payload, 24), 0 with no `imx`. -/
def immM (h : Hints) : Int :=
  match h.imx with
  | some p => p.toInt
  | none => 0
/-- `movi`: sext(IMM12, 12), or payload[19:0] : IMM12 after an `imx` (R241). -/
def immMovi (h : Hints) (imm : BitVec 12) : Word :=
  match h.imx with
  | some p => BitVec.ofNat 32 (p.toNat % 2 ^ 20 * 4096 + imm.toNat)
  | none => imm.signExtend 32

/-! ### Roles, gates, transactions -/

/-- Table 9-1: the role may issue the major (1 copy, 2 matrix, 3 vector; 0 any). -/
def roleMay (role m : Nat) : Bool :=
  role == 0 || m ≤ 0x0F || m == 0x18 || m == 0x20 || m == 0x21 || m == 0x25 || m == 0x2A || m == 0x3F ||
  (role == 3 && 0x10 ≤ m && m ≤ 0x17) ||
  (role == 1 && ((0x22 ≤ m && m ≤ 0x24) || (0x26 ≤ m && m ≤ 0x29) || m == 0x2B || m == 0x2C)) ||
  (role == 2 && 0x30 ≤ m && m ≤ 0x33)

/-- R374: a lane with an open transaction may issue the word. TX words check the transaction themselves. -/
def txnMay (w : Word) : Bool :=
  let m := majorOf w
  let f3 := fld w 0 3
  m ≤ 0x04 && !(m == 0x00 && (fld w 9 6 == 7 || fld w 9 6 == 8)) ||
  (m == 0x05 && f3 != 5 && f3 != 6 && f3 != 3) ||
  (0x08 ≤ m && m ≤ 0x18) || m == 0x20 || m == 0x21 || (m == 0x25 && 12 ≤ fld w 0 4) || m == 0x28 || m == 0x3F

/-- R139, R394, R424: the word inside a gate raises GATE 0x113 (`some 0x113`) or DOMAIN detail 2 of its origin. -/
def gateBars (w : Word) : Option (Nat × Nat) :=
  let m := majorOf w
  let f3 := fld w 0 3
  if (m = 0x07 ∧ fld w 9 6 = 0) ∨ (m = 0x06 ∧ (f3 = 1 ∨ f3 = 3)) ∨ (m = 0x05 ∧ (f3 = 6 ∨ f3 = 3)) ∨ (m = 0x00 ∧ fld w 9 6 = 7) then
    some (17, 3)
  else if m = 0x2A ∨ (0x30 ≤ m ∧ m ≤ 0x33) ∨ (m = 0x2C ∧ fld w 0 4 = 1) then some (9, 2)
  else none

/-! ### The scoreboard (R199 to R201) -/

/-- A pending write touches one of the registers or predicates of the lanes. -/
def pendHits (p : Pend) (gid : Nat) (lanes : BitVec 64) (regs preds : List Nat) : Bool :=
  p.gid == gid && p.lanes &&& lanes != 0 && (p.regs.any (fun r => regs.contains r) || p.preds.any (fun r => preds.contains r))
/-- The entry still blocks a reader at time `now`: a fixed result before its distance, or a variable one not written. -/
def pendOpen (p : Pend) (now : Nat) : Bool :=
  match p.due with
  | some d => decide (now < d)
  | none => true

end Sys2Proof.Machine
end

