-- ==== Sys2Proof/Machine/Flags.lean ====
section
/-!
DEFINITION. Number formats, rounding and the floating-point events (spec/11_number_formats.md, R215 to R231), FPSTAT (R31) and
the special functions of Table 12-5. A finite value is an exact dyadic number; every rounding goes through `roundTo` or
`roundInt`.
-/
namespace Sys2Proof.Machine

/-! ### Exact values -/

/-- A value of a floating-point format: NaN, an infinity, or (−1)^neg × m × 2^e. A zero keeps its sign. -/
inductive FVal where
  | nan
  | inf (neg : Bool)
  | fin (neg : Bool) (m : Nat) (e : Int)
  deriving DecidableEq, Repr

/-- What a format does with an all-ones exponent (Table 11-1). -/
inductive FKind where
  | ieee | e4m3 | e2m1
  deriving DecidableEq, Repr

/-- A floating-point format: exponent bits, fraction bits, bias (Table 11-1). -/
structure Fmt where
  eb : Nat
  fb : Nat
  bias : Nat
  kind : FKind
  deriving DecidableEq, Repr

def fmt64 : Fmt := ⟨11, 52, 1023, .ieee⟩
def fmt32 : Fmt := ⟨8, 23, 127, .ieee⟩
def fmt16 : Fmt := ⟨5, 10, 15, .ieee⟩
def fmtBf16 : Fmt := ⟨8, 7, 127, .ieee⟩
def fmtE5m2 : Fmt := ⟨5, 2, 15, .ieee⟩
def fmtE4m3 : Fmt := ⟨4, 3, 7, .e4m3⟩
def fmtE2m1 : Fmt := ⟨2, 1, 1, .e2m1⟩

/-- Bits of the format without the sign. -/
def Fmt.low (f : Fmt) : Nat := f.eb + f.fb
/-- Code of the canonical NaN (Table 11-2); a NaN becomes +0 in E2M1 (Table 11-7). -/
def Fmt.nan (f : Fmt) : Nat :=
  match f.kind with
  | .ieee => (2 ^ f.eb - 1) * 2 ^ f.fb + 2 ^ (f.fb - 1)
  | .e4m3 => 0x7F
  | .e2m1 => 0
/-- Code of +infinity where the format has one. -/
def Fmt.inf (f : Fmt) : Nat := (2 ^ f.eb - 1) * 2 ^ f.fb
/-- Code of the largest finite value (Table 11-1). -/
def Fmt.maxCode (f : Fmt) : Nat :=
  match f.kind with
  | .ieee => (2 ^ f.eb - 1) * 2 ^ f.fb - 1
  | .e4m3 => 0x7E
  | .e2m1 => 7
/-- Exponent of the unit in the last place of subnormals: 1 − bias − f. -/
def Fmt.qmin (f : Fmt) : Int := 1 - f.bias - f.fb
/-- Exponent of the smallest normal value. -/
def Fmt.emin (f : Fmt) : Int := 1 - f.bias
/-- The largest finite value as n × 2^q. -/
def Fmt.maxQ (f : Fmt) : Int := f.qmin + (f.maxCode / 2 ^ f.fb : Nat) - 1
/-- Numerator of the largest finite value. -/
def Fmt.maxN (f : Fmt) : Nat := f.maxCode % 2 ^ f.fb + 2 ^ f.fb

/-- The value of a code (R215, R218). -/
def decodeF (f : Fmt) (x : Nat) : FVal :=
  let ng := bitAt x f.low
  let ex := x / 2 ^ f.fb % 2 ^ f.eb
  let fr := x % 2 ^ f.fb
  let top := 2 ^ f.eb - 1
  if f.kind = .ieee ∧ ex = top then (if fr = 0 then .inf ng else .nan)
  else if f.kind = .e4m3 ∧ ex = top ∧ fr = 7 then .nan
  else if ex = 0 then
    (if f.kind = .e2m1 ∧ fr = 0 then .fin false 0 0 else .fin ng fr f.qmin)
  else .fin ng (fr + 2 ^ f.fb) (f.qmin + (ex - 1 : Nat))

/-! ### Events (R229, FPSTAT[4:0] order of Table 2-3) -/

def evInvalid : Nat := 1
def evDivZero : Nat := 2
def evOverflow : Nat := 4
def evUnderflow : Nat := 8
def evInexact : Nat := 16
/-- Union of event sets. -/
def evUnion (a b : Nat) : Nat := a ||| b
/-- The event when the condition holds. -/
def evIf (c : Bool) (e : Nat) : Nat := if c then e else 0

/-! ### Rounding (R225 to R228) -/

/-- A magnitude m × 2^e as n × 2^q with n an integer rounded by the mode (R225), and whether it changed. -/
def roundMag (ng : Bool) (m : Nat) (e q : Int) (mode : Nat) : Nat × Bool :=
  if q ≤ e then (m * 2 ^ (e - q).toNat, false)
  else
    let d := (q - e).toNat
    let n := m / 2 ^ d
    let r := m % 2 ^ d
    let half := 2 ^ (d - 1)
    let up :=
      match mode with
      | 0 => decide (half < r) || (r == half && n % 2 == 1)
      | 1 => false
      | 2 => !ng && r != 0
      | 3 => ng && r != 0
      | _ => decide (half ≤ r)
    (if up then n + 1 else n, r != 0)

/-- Overflow delivers the greatest finite value instead of infinity or NaN (Table 11-7). -/
def overflowToMax (f : Fmt) (ng : Bool) (mode : Nat) (sat : Bool) : Bool :=
  sat || f.kind == .e2m1 || mode == 1 || (mode == 2 && ng) || (mode == 3 && !ng)

/-- The code with the sign placed; E2M1 has no −0 (R224). -/
def Fmt.signed (f : Fmt) (ng : Bool) (code : Nat) : Nat :=
  if f.kind = .e2m1 ∧ code = 0 then 0 else if ng then code + 2 ^ f.low else code

/-- round_to(x, fmt, mode) with the events of R227 (R225, R226): what is delivered for an infinite x, or a NaN, and differs from it is
inexact. (DEDUCED, log 14) -/
def roundTo (f : Fmt) (mode : Nat) (sat : Bool) : FVal → Nat × Nat
  | .nan => (f.nan, evIf (f.kind == .e2m1) (evUnion evInvalid evInexact))
  | .inf ng =>
    if f.kind = .ieee then (f.signed ng (if sat then f.maxCode else f.inf), evIf sat evInexact)
    else if f.kind = .e4m3 then ((if sat then f.signed ng f.maxCode else f.nan), evUnion evInvalid evInexact)
    else (f.signed ng f.maxCode, evUnion evInvalid evInexact)
  | .fin ng m e =>
    if m = 0 then (f.signed ng 0, 0)
    else
      let q0 := e + (Nat.log2 m : Nat) - f.fb
      let q := if q0 < f.qmin then f.qmin else q0
      let nx := roundMag ng m e q mode
      if f.maxQ < q ∨ (q = f.maxQ ∧ f.maxN < nx.1) then
        let code :=
          if overflowToMax f ng mode sat then f.signed ng f.maxCode
          else if f.kind = .e4m3 then f.nan else f.signed ng f.inf
        (code, evUnion evOverflow evInexact)
      else
        let u := roundMag ng m e q0 mode
        let tiny := decide (q0 + f.fb < f.emin) && !(q0 + f.fb + 1 == f.emin && u.1 == 2 ^ (f.fb + 1))
        (f.signed ng (nx.1 + (q - f.qmin).toNat * 2 ^ f.fb),
          evUnion (evIf nx.2 evInexact) (evIf (tiny && nx.2) evUnderflow))

/-- Least and greatest value of an integer type of `n` bits (R219). -/
def intLo (n : Nat) (sgn : Bool) : Int := if sgn then -((2 ^ (n - 1) : Nat) : Int) else 0
/-- Greatest value. -/
def intHi (n : Nat) (sgn : Bool) : Int := if sgn then ((2 ^ (n - 1) : Nat) : Int) - 1 else ((2 ^ n : Nat) : Int) - 1
/-- saturate (Table 2-12). -/
def saturate (x : Int) (n : Nat) (sgn : Bool) : Int := max (intLo n sgn) (min x (intHi n sgn))
/-- The low `n` bits of an integer, as a number: the pattern that `wrap` delivers (Table 2-12). -/
def wrapNat (x : Int) (n : Nat) : Nat := (x % ((2 ^ n : Nat) : Int)).toNat

/-- round_to into an integer type (R228): the pattern and the events. -/
def roundInt (n : Nat) (sgn : Bool) (mode : Nat) : FVal → Nat × Nat
  | .nan => (0, evInvalid)
  | .inf ng => (wrapNat (if ng then intLo n sgn else intHi n sgn) n, evInvalid)
  | .fin ng m e =>
    let r := roundMag ng m e 0 mode
    let v : Int := if ng then -(r.1 : Int) else (r.1 : Int)
    if v < intLo n sgn ∨ intHi n sgn < v then (wrapNat (saturate v n sgn) n, evInvalid)
    else (wrapNat v n, evIf r.2 evInexact)

/-! ### Exact arithmetic -/

/-- Scale by 2^k. -/
def FVal.scale (k : Int) : FVal → FVal
  | .fin ng m e => .fin ng m (e + k)
  | x => x
/-- Negate. -/
def FVal.neg : FVal → FVal
  | .nan => .nan
  | .inf ng => .inf (!ng)
  | .fin ng m e => .fin (!ng) m e
/-- The value is NaN. -/
def FVal.isNan : FVal → Bool
  | .nan => true
  | _ => false
/-- The value is an infinity. -/
def FVal.isInf : FVal → Bool
  | .inf _ => true
  | _ => false
/-- The value is a zero. -/
def FVal.isZero : FVal → Bool
  | .fin _ m _ => m == 0
  | _ => false
/-- The sign. -/
def FVal.sign : FVal → Bool
  | .nan => false
  | .inf ng => ng
  | .fin ng _ _ => ng
/-- The exact value of an integer. -/
def ofInt (x : Int) : FVal := .fin (decide (x < 0)) x.natAbs 0
/-- A finite value as an integer multiple of 2^e0, for e0 no greater than its exponent. -/
def unitsAt (e0 : Int) (ng : Bool) (m : Nat) (e : Int) : Int :=
  let v : Int := ((m * 2 ^ (e - e0).toNat : Nat) : Int)
  if ng then -v else v

/-- The exact sum; an exact zero sum takes its sign by IEEE 754-2019 (R246). -/
def fAdd (mode : Nat) : FVal → FVal → FVal
  | .nan, _ => .nan
  | _, .nan => .nan
  | .inf a, .inf b => if a = b then .inf a else .nan
  | .inf a, _ => .inf a
  | _, .inf b => .inf b
  | .fin na ma ea, .fin nb mb eb =>
    let e0 := min ea eb
    let v := unitsAt e0 na ma ea + unitsAt e0 nb mb eb
    if v = 0 then .fin (if na = nb then na else mode == 3) 0 0 else .fin (decide (v < 0)) v.natAbs e0
/-- The exact product; infinity times zero is NaN. -/
def fMul : FVal → FVal → FVal
  | .nan, _ => .nan
  | _, .nan => .nan
  | .inf a, y => if y.isZero then .nan else .inf (a != y.sign)
  | x, .inf b => if x.isZero then .nan else .inf (x.sign != b)
  | .fin na ma ea, .fin nb mb eb => .fin (na != nb) (ma * mb) (ea + eb)
/-- Compare (R252): none when unordered; −0 equals +0. -/
def fCmp : FVal → FVal → Option Ordering
  | .nan, _ => none
  | _, .nan => none
  | .inf a, .inf b => some (if a = b then .eq else if a then .lt else .gt)
  | .inf a, _ => some (if a then .lt else .gt)
  | _, .inf b => some (if b then .gt else .lt)
  | .fin na ma ea, .fin nb mb eb =>
    let e0 := min ea eb
    some (compare (unitsAt e0 na ma ea) (unitsAt e0 nb mb eb))

/-- Result code and events of fadd and dadd (R246, R253). -/
def addF (f : Fmt) (mode : Nat) (x y : Nat) : Nat × Nat :=
  let a := decodeF f x
  let b := decodeF f y
  let v := fAdd mode a b
  let r := roundTo f mode false v
  (r.1, if v.isNan then evInvalid else r.2)
/-- Result code and events of fmul and dmul (R246). -/
def mulF (f : Fmt) (mode : Nat) (x y : Nat) : Nat × Nat :=
  let v := fMul (decodeF f x) (decodeF f y)
  let r := roundTo f mode false v
  (r.1, if v.isNan then evInvalid else r.2)
/-- Result code and events of the fused words (R249): `np` negates the product, `na` the addend. -/
def fmaF (f : Fmt) (mode : Nat) (np na : Bool) (x y z : Nat) : Nat × Nat :=
  let p := fMul (decodeF f x) (decodeF f y)
  let c := decodeF f z
  let v := fAdd mode (if np then p.neg else p) (if na then c.neg else c)
  let r := roundTo f mode false v
  (r.1, if v.isNan then evInvalid else r.2)
/-- Result code and events of fmin and fmax, dmin and dmax (R247). -/
def minmaxF (f : Fmt) (isMax : Bool) (x y : Nat) : Nat × Nat :=
  let a := decodeF f x
  let b := decodeF f y
  let ev := evIf (a.isNan || b.isNan) evInvalid
  match fCmp a b with
  | none => (if a.isNan && b.isNan then f.nan else if a.isNan then y else x, ev)
  | some .lt => (if isMax then y else x, ev)
  | some .gt => (if isMax then x else y, ev)
  | some .eq => (if (a.sign != b.sign) && (isMax == a.sign) then y else x, ev)
/-- Result and events of fcmp and dcmp under a condition code (Table 12-6, Table 2-8). -/
def cmpF (f : Fmt) (cond x y : Nat) : Bool × Nat :=
  match fCmp (decodeF f x) (decodeF f y) with
  | none =>
    match cond with
    | 0 => (false, 0)
    | 1 => (true, 0)
    | 6 => (true, 0)
    | 7 => (false, 0)
    | _ => (false, evInvalid)
  | some o =>
    match cond with
    | 0 => (o == .eq, 0)
    | 1 => (o != .eq, 0)
    | 2 => (o == .lt, 0)
    | 3 => (o != .gt, 0)
    | 4 => (o == .gt, 0)
    | 5 => (o != .lt, 0)
    | 6 => (false, 0)
    | _ => (true, 0)
/-- The class mask of fclass (R248). -/
def classF (x : Nat) : Nat :=
  match decodeF fmt32 x with
  | .nan => if bitAt x 22 then 512 else 256
  | .inf ng => if ng then 1 else 128
  | .fin ng m _ =>
    if m = 0 then (if ng then 8 else 16)
    else if m < 2 ^ 23 then (if ng then 4 else 32)
    else (if ng then 2 else 64)

/-! ### FPSTAT and FPX (R229, R234) -/

/-- Detail of FPX for an event set under trap enables, when an enabled event is raised (R229). -/
def fpTrap (fpstat : Word) (ev : Nat) : Option Nat :=
  let t := fld fpstat 8 5 &&& ev
  if t = 0 then none
  else some (if bitAt t 0 then 0 else if bitAt t 1 then 1 else if bitAt t 2 then 2 else 3)
/-- FPSTAT after the flags of an event set are added. -/
def fpFlags (fpstat : Word) (ev : Nat) : Word := fpstat ||| BitVec.ofNat 32 (ev % 32)
/-- FPSTAT after `wrsr` with value x (R33). -/
def fpWrite (f x : Word) : Word :=
  BitVec.ofNat 32 (fld x 8 5 * 256 + (fld f 0 5 &&& (31 - fld x 0 5)))

/-! ### Special functions (R250, R251) -/

/-- Square root of `n`, rounded down: `k` result bits are tried from the top. -/
def isqrtGo (n : Nat) : Nat → Nat → Nat
  | 0, r => r
  | k + 1, r => if (r + 2 ^ k) * (r + 2 ^ k) ≤ n then isqrtGo n k (r + 2 ^ k) else isqrtGo n k r
/-- Square root of a number below 2^(2k). -/
def isqrt (k n : Nat) : Nat := isqrtGo n k 0

/-- A quotient n / d with enough bits, and a sticky last bit: a value that rounds as n / d does, times 2^e. -/
def quotient (ng : Bool) (n d : Nat) (e : Int) : FVal :=
  let v := n * 2 ^ 64 / d
  .fin ng (2 * v + (if n * 2 ^ 64 % d = 0 then 0 else 1)) (e - 65)
/-- √(m × 2^e) with a sticky last bit. -/
def sqrtVal (m : Nat) (e : Int) : FVal :=
  let odd := e % 2
  let n := m * 2 ^ (64 + odd.toNat)
  let r := isqrt 64 n
  .fin false (2 * r + (if r * r = n then 0 else 1)) ((e - odd) / 2 - 33)
/-- The magnitude is a power of two. -/
def isPow2 (m : Nat) : Bool := m != 0 && m == 2 ^ Nat.log2 m

/-- Exponent of one ulp of FP32 at a magnitude m × 2^e. -/
def ulpExp (m : Nat) (e : Int) : Int := max (e + (Nat.log2 m : Nat) - 23) (-149)

/-- A rational is at most u: n1 × 2^e1 ≤ n2 × 2^e2. -/
def leScaled (n1 : Nat) (e1 : Int) (n2 : Nat) (e2 : Int) : Bool :=
  let e0 := min e1 e2
  decide (n1 * 2 ^ (e1 - e0).toNat ≤ n2 * 2 ^ (e2 - e0).toNat)

/-- A value lies within `u` × 2^`eu` of an approximation; both are finite, as integers at a common exponent. -/
def within (x y : FVal) (u : Nat) (eu : Int) : Bool :=
  match x, y with
  | .fin nx mx ex, .fin ny my ey =>
    let e0 := min ex (min ey eu)
    decide ((unitsAt e0 nx mx ex - unitsAt e0 ny my ey).natAbs ≤ u * 2 ^ (eu - e0).toNat)
  | _, _ => false

/-- The value a special function delivers where Table 12-5 gives a bound: the free value when it lies within the bound of the
approximation `y` (whose own error is below 2^-20 of the bound), else `y` rounded by nearest-even, which always does.
(DESIGN CHOICE, log 8) -/
def bounded (free : Nat) (y : FVal) (u : Nat) (eu : Int) : Nat :=
  if within (decodeF fmt32 free) y u eu then free else (roundTo fmt32 0 false y).1

/-- Bound of `k` ulp at `y`, shrunk by 2^-20 for the error of `y`. -/
def boundUlp (free : Nat) (y : FVal) (k : Nat) : Nat :=
  match y with
  | .fin _ m e => bounded free y (k * 2 ^ 20 - 1) (ulpExp m e - 20)
  | _ => free

/-- frcp (Table 12-5). -/
def frcpF (x : Nat) : Nat × Nat :=
  match decodeF fmt32 x with
  | .nan => (fmt32.nan, evInvalid)
  | .inf ng => (fmt32.signed ng 0, 0)
  | .fin ng m e =>
    if m = 0 then (fmt32.signed ng fmt32.inf, evDivZero)
    else
      let y := quotient ng 1 m (-e)
      let r := roundTo fmt32 0 false y
      if bitAt r.2 2 then (fmt32.signed ng fmt32.inf, evUnion evOverflow evInexact)
      else if isPow2 m && decide (e + (Nat.log2 m : Nat) ≤ 126) then r
      else
        let small := !(leScaled m e 1 126)
        (boundUlp (Config.frcp (BitVec.ofNat 32 x)).toNat y 1, evUnion evInexact (evIf small evUnderflow))
/-- frsq (Table 12-5). -/
def frsqF (x : Nat) : Nat × Nat :=
  match decodeF fmt32 x with
  | .nan => (fmt32.nan, evInvalid)
  | .inf ng => if ng then (fmt32.nan, evInvalid) else (0, 0)
  | .fin ng m e =>
    if m = 0 then (fmt32.signed ng fmt32.inf, evDivZero)
    else if ng then (fmt32.nan, evInvalid)
    else if isPow2 m && (e + (Nat.log2 m : Nat)) % 2 == 0 then
      roundTo fmt32 0 false (.fin false 1 (-((e + (Nat.log2 m : Nat)) / 2)))
    else
      let odd := e % 2
      -- 1/√(m 2^e) = √(2^(128 - odd) / m) 2^(-(e - odd)/2 - 64)
      let n := 2 ^ (128 - odd.toNat) / m
      let y : FVal := .fin false (2 * isqrt 65 n + 1) (-((e - odd) / 2) - 65)
      (boundUlp (Config.frsq (BitVec.ofNat 32 x)).toNat y 2, evInexact)
/-- fsqrt (Table 12-5). -/
def fsqrtF (mode x : Nat) : Nat × Nat :=
  match decodeF fmt32 x with
  | .nan => (fmt32.nan, evInvalid)
  | .inf ng => if ng then (fmt32.nan, evInvalid) else (fmt32.inf, 0)
  | .fin ng m e =>
    if m = 0 then (fmt32.signed ng 0, 0)
    else if ng then (fmt32.nan, evInvalid)
    else roundTo fmt32 mode false (sqrtVal m e)

/-- ⌊2^360 × π⌋. -/
def piFix : Nat := 0x3243f6a8885a308d313198a2e03707344a4093822299f31d0082efa98ec4e6c89452821e638d01377be5466cf34
/-- ⌊2^120 × ln 2⌋. -/
def ln2Fix : Nat := 0xb17217f7d1cf79abc9e3b39803f2f6

/-- Terms of a power series at 2^-120: each term is the last times r / 2^120 divided by the next factors. -/
def expGo (r : Int) : Nat → Nat → Int → Int → Int
  | 0, _, _, acc => acc
  | k + 1, n, t, acc =>
    let t' := t * r / ((2 ^ 120 : Nat) : Int) / (n : Int)
    expGo r k (n + 1) t' (acc + t')
/-- Alternating series of sine and cosine. -/
def trigGo (r2 : Int) : Nat → Nat → Int → Int → Int
  | 0, _, _, acc => acc
  | k + 1, n, t, acc =>
    let t' := -(t * r2 / ((2 ^ 120 : Nat) : Int)) / ((n * (n + 1) : Nat) : Int)
    trigGo r2 k (n + 2) t' (acc + t')
/-- A fixed-point number at 2^-120 as a value. -/
def ofFix (x : Int) : FVal := .fin (decide (x < 0)) x.natAbs (-120)

/-- |x| modulo 2π at 2^-120, for |x| = m × 2^e with e at least −149. -/
def mod2pi (m : Nat) (e : Int) : Int :=
  let x := if 0 ≤ e then m * 2 ^ (360 + e.toNat) else m * 2 ^ 360 / 2 ^ (-e).toNat
  ((x % (2 * piFix)) / 2 ^ 240 : Nat)
/-- sin of m × 2^e to about 2^-110. -/
def sinFix (m : Nat) (e : Int) : Int :=
  let r := mod2pi m e
  trigGo (r * r / ((2 ^ 120 : Nat) : Int)) 40 2 r r
/-- cos of m × 2^e to about 2^-110. -/
def cosFix (m : Nat) (e : Int) : Int :=
  let r := mod2pi m e
  trigGo (r * r / ((2 ^ 120 : Nat) : Int)) 40 1 ((2 ^ 120 : Nat) : Int) ((2 ^ 120 : Nat) : Int)

/-- fsin (Table 12-5). -/
def fsinF (x : Nat) : Nat × Nat :=
  match decodeF fmt32 x with
  | .nan => (fmt32.nan, evInvalid)
  | .inf _ => (fmt32.nan, evInvalid)
  | .fin ng m e =>
    if m = 0 then (fmt32.signed ng 0, 0)
    else
      let y := ofFix (if ng then -(sinFix m e) else sinFix m e)
      (bounded (Config.fsin (BitVec.ofNat 32 x)).toNat y (2 ^ 40 - 1) (-61), evInexact)
/-- fcos (Table 12-5). -/
def fcosF (x : Nat) : Nat × Nat :=
  match decodeF fmt32 x with
  | .nan => (fmt32.nan, evInvalid)
  | .inf _ => (fmt32.nan, evInvalid)
  | .fin _ m e =>
    if m = 0 then (0x3F800000, 0)
    else (bounded (Config.fcos (BitVec.ofNat 32 x)).toNat (ofFix (cosFix m e)) (2 ^ 40 - 1) (-61), evInexact)

/-- fex2 (Table 12-5). -/
def fex2F (x : Nat) : Nat × Nat :=
  match decodeF fmt32 x with
  | .nan => (fmt32.nan, evInvalid)
  | .inf ng => (if ng then 0 else fmt32.inf, 0)
  | .fin ng m e =>
    -- x at 2^-120; an |x| of 2^8 or more is out of range both ways
    let big := leScaled 1 8 m e
    let cut : Nat := if -120 ≤ e then m * 2 ^ (e + 120).toNat else m / 2 ^ (-120 - e).toNat
    -- a negative x below 2^-120 stays below 0, so that the result stays below 1
    let mag : Nat := if ng ∧ e < -120 ∧ m ≠ 0 then cut + 1 else cut
    let fx : Int := if ng then -(mag : Int) else (mag : Int)
    let n := fx / ((2 ^ 120 : Nat) : Int)
    let fr := fx % ((2 ^ 120 : Nat) : Int)
    let whole := m == 0 || (fr == 0 && decide (-120 ≤ e))
    if big then (if ng then (boundUlp (Config.fex2 (BitVec.ofNat 32 x)).toNat (.fin false 1 (-200)) 2, evUnion evUnderflow evInexact)
      else (fmt32.inf, evUnion evOverflow evInexact))
    else if 128 ≤ n then (fmt32.inf, evUnion evOverflow evInexact)
    else if whole && decide (-149 ≤ n) then roundTo fmt32 0 false (.fin false 1 n)
    else
      let r := fr * (ln2Fix : Int) / ((2 ^ 120 : Nat) : Int)
      let y := expGo r 40 1 ((2 ^ 120 : Nat) : Int) ((2 ^ 120 : Nat) : Int)
      (boundUlp (Config.fex2 (BitVec.ofNat 32 x)).toNat ((ofFix y).scale n) 2,
        evUnion evInexact (evIf (decide (n < -126)) evUnderflow))

/-- Terms of the series of artanh at 2^-120. -/
def artanhGo (z2 : Int) : Nat → Nat → Int → Int → Int
  | 0, _, _, acc => acc
  | k + 1, n, t, acc =>
    let t' := t * z2 / ((2 ^ 120 : Nat) : Int)
    artanhGo z2 k (n + 2) t' (acc + t' / (n : Int))
/-- flg2 (Table 12-5). -/
def flg2F (x : Nat) : Nat × Nat :=
  match decodeF fmt32 x with
  | .nan => (fmt32.nan, evInvalid)
  | .inf ng => if ng then (fmt32.nan, evInvalid) else (fmt32.inf, 0)
  | .fin ng m e =>
    if m = 0 then (fmt32.signed true fmt32.inf, evDivZero)
    else if ng then (fmt32.nan, evInvalid)
    else
      let k := Nat.log2 m
      let n : Int := e + (k : Nat)
      if isPow2 m then roundTo fmt32 0 false (ofInt n)
      else
        -- m = 2^k (1 + f); z = f / (2 + f); ln(1 + f) = 2 artanh z
        let z : Int := (((m - 2 ^ k) * 2 ^ 120 / (m + 2 ^ k) : Nat) : Int)
        let a := artanhGo (z * z / ((2 ^ 120 : Nat) : Int)) 60 3 z z
        let y := ofFix (n * ((2 ^ 120 : Nat) : Int) + 2 * a * ((2 ^ 120 : Nat) : Int) / (ln2Fix : Int))
        let free := (Config.flg2 (BitVec.ofNat 32 x)).toNat
        let near := leScaled 1 (-1) m e && leScaled m e 1 1
        (if near then bounded free y (2 ^ 20 - 1) (-42) else boundUlp free y 2, evInexact)

/-! ### Block headers (R220 to R224) -/

/-- Family and scale fields of a header (Table 11-4). -/
def hdrFamily (h : Nat) : Nat := bits h 7 5
/-- The E8M0 scale. -/
def hdrScale (h : Nat) : Nat := bits h 15 8
/-- Magnitudes of the E2M1 special value in quarters (Table 11-6). -/
def specialQuarters (k : Nat) : Nat :=
  [0, 1, 3, 5, 7, 10, 14, 20, 32, 40, 48, 64, 80, 96, 128, 192].getD k 0
/-- Bits of an element of a family (Table 11-5). -/
def famBits (fam : Nat) : Nat := if fam = 1 ∨ fam = 5 then 4 else if fam = 7 then 16 else 8
/-- An element's value with its remap and before its scale (R222 to R224). -/
def elemValue (h code : Nat) : FVal :=
  match hdrFamily h with
  | 1 => if code % 16 = 8 ∧ bits h 3 0 ≠ 0 then .fin (bitAt h 4) (specialQuarters (bits h 3 0)) (-2) else decodeF fmtE2m1 (code % 16)
  | 2 => decodeF fmtE4m3 (code % 256)
  | 3 => decodeF fmtE5m2 (code % 256)
  | 4 => ofInt (sextInt code 8)
  | 5 => ofInt (sextInt code 4)
  | 7 => decodeF fmtBf16 (code % 65536)
  | _ => .nan
/-- An element decoded with its scale (R222, R223): NaN for scale 0xFF and for family 6. -/
def elemDecode (h code : Nat) : FVal :=
  if hdrFamily h = 7 then elemValue h code
  else if hdrScale h = 0xFF ∨ hdrFamily h = 6 ∨ hdrFamily h = 0 then .nan
  else (elemValue h code).scale ((hdrScale h : Int) - 127)

end Sys2Proof.Machine
end

