-- ==== Sys2Proof/Machine/Issue.lean ====
section
/-!
DEFINITION. How a word is entered: the checks of R51 in their order, the role check (R171), the guard and the executing set
(R23 to R25, R203), the scoreboard (R199 to R201), slots (R30) and coverage (R39). `runWord` is shared by every word; a word's own
effect is its `body`. The vote (R188 to R193) stands at the end.
-/
namespace Sys2Proof.Machine

/-- A word at its issue. -/
structure Ctx where
  gid : Nat
  g : Group
  cur : Cur
  /-- The target word. -/
  w : Word
  h : Hints
  /-- The `opx` fields in force. -/
  o : OpxHint
  hasOpx : Bool
  /-- The executing set (R23), and its lanes that no check at issue faulted. -/
  active : BitVec 64 := 0
  go : BitVec 64 := 0
  /-- U = 1 (R25). -/
  u : Bool
  tok : Nat
  /-- The ac at issue. -/
  now : Nat
  /-- The state in which sources are read (R55, R201). -/
  rs : State
  /-- The wait times and last issues of the group's lanes before the word, which stand if it cannot issue yet (R193). -/
  waits : List (Nat × Nat) := []
  deriving DecidableEq, Repr

/-- The PC of R37. -/
def Ctx.pcR (x : Ctx) : DWord := x.cur.pc - BitVec.ofNat 64 (4 * x.cur.run.length)
/-- The word's own address (R22, R37). -/
def Ctx.pc (x : Ctx) : DWord := x.cur.pc
/-- The address after the word. -/
def Ctx.next (x : Ctx) : DWord := x.cur.pc + 4
/-- The core pair that executes the word. -/
def Ctx.pair (x : Ctx) : Nat := pairOf x.g.core
/-- Key of a lane of the word's group. -/
def Ctx.lk (x : Ctx) (l : Nat) : Nat := Sys2Proof.Machine.lk x.gid l
/-- The origin of the word's major (R44). -/
def Ctx.origin (x : Ctx) : Nat := originOf (majorOf x.w)
/-- A fault of the word: class, detail, and its ADDR, INFO and SUB fields. -/
def Ctx.fi (x : Ctx) (cls detail : Nat) (addr : Nat := 0) (info : Nat := 0) (sub : Nat := 0) : FaultInfo :=
  ⟨causeOf cls x.origin detail, sub, addr, info, x.u⟩
/-- An ILLEGAL fault by its subcode (R52). -/
def Ctx.illegal (x : Ctx) (sub : Nat) : FaultInfo :=
  ⟨causeOf 0 (if sub = 6 ∨ sub = 9 then 0 else x.origin) (illegalDetail sub), sub, 0, 0, x.u⟩

/-- Coverage ends (R39); where a fault or another `sched` cuts it short, its yield is dropped. (DESIGN CHOICE, log 17) -/
def endCover (s : State) (gid : Nat) : State := modGroup s gid fun g => { g with cover := none }
/-- A taken transfer ends the coverage, with its yield (R39). (DEDUCED, log 17) -/
def endCoverTaken (s : State) (gid : Nat) : State :=
  modGroup s gid fun g =>
    match g.cover with
    | some c => { g with cover := none, yielded := g.yielded || c.yld, yieldAc := if c.yld then g.lastIssue + 1 else g.yieldAc }
    | none => g

/-- fault() in one lane (R54). -/
def Ctx.raise (x : Ctx) (s : State) (l : Nat) (f : FaultInfo) : State :=
  takeFault (endCover s x.gid) x.gid l f x.pcR x.next x.w
/-- fault() in every lane of a set, in increasing order (R419). -/
def Ctx.raiseAll (x : Ctx) (s : State) (m : BitVec 64) (f : FaultInfo) : State :=
  (lanesOf m).foldl (fun t l => x.raise t l f) s
/-- fault() in a lane; under U = 1 every lane of the executing set faults (R25, R419). -/
def Ctx.fail (x : Ctx) (s : State) (l : Nat) (f : FaultInfo) : State :=
  if x.u then x.raiseAll s x.go f else x.raise s l f

/-- The lowest lane of a set. -/
def lowest (m : BitVec 64) : Nat := ((lanesOf m).head?).getD 0
/-- The executions of the word: the lane whose operands are used and the lanes that take the result (R25, R55). -/
def Ctx.acts (x : Ctx) : List (Nat × BitVec 64) :=
  if x.go = 0 then []
  else if x.u then [(lowest x.active, x.go)] else (lanesOf x.go).map fun l => (l, bitMask l)

/-- What a word does in a lane: registers, predicates and floating-point events. -/
structure LaneRes where
  regs : List (Nat × Word) := []
  preds : List (Nat × Bool) := []
  ev : Nat := 0
  deriving DecidableEq, Repr

/-- Write predicates of a lane. -/
def setPregs (s : State) (k : Nat) (ps : List (Nat × Bool)) : State := ps.foldl (fun t p => setPreg t k p.1 p.2) s
/-- A lane takes a result under R229 and R234: it writes and ORs its flags, or raises FPX. -/
def Ctx.deliver (x : Ctx) (s : State) (l : Nat) (r : LaneRes) : State :=
  match fpTrap (laneAt s (x.lk l)).fpstat r.ev with
  | some d => x.raise s l (x.fi 19 d 0 r.ev)
  | none =>
    let s := setPregs (setVregs s (x.lk l) r.regs) (x.lk l) r.preds
    if r.ev = 0 then s else modLane s (x.lk l) fun y => { y with fpstat := fpFlags y.fpstat r.ev }
/-- Every execution of the word delivers a result computed from the sources of its lane, read in `x.rs` (R55). -/
def Ctx.perLane (x : Ctx) (s : State) (f : Nat → LaneRes) : State :=
  x.acts.foldl (fun t a => (lanesOf a.2).foldl (fun u l => x.deliver u l (f (x.lk a.1))) t) s
/-- As `perLane` with the index of the lane that writes: the lane words (R235). -/
def Ctx.perWriter (x : Ctx) (s : State) (f : Nat → LaneRes) : State :=
  (lanesOf x.go).foldl (fun u l => x.deliver u l (f l)) s

/-- The words of R181 hold their whole group until their results are written: spawn, fend, rdy and park. -/
def holdsGroup (w : Word) : Bool := (majorOf w == 0x06 && decide (fld w 0 3 ≤ 2)) || (majorOf w == 0x05 && fld w 0 3 == 6)
/-- A port of the word's partition is free again: the word has not issued (R190). -/
def freePort (s : State) (g : Group) (port : Nat) : State :=
  match s.ports.get? (g.core * 12 + g.part) with
  | some u => { s with ports := s.ports.put (g.core * 12 + g.part) (if port = 0 then { u with zero := false } else { u with one := false }) }
  | none => s
/-- The lanes of the issuing set wait before the word: it has not issued, and its port is free for another lane set. They try again after
the next event or tick; at a word of R181 no other lane of the group issues meanwhile. -/
def Ctx.wait (x : Ctx) (s : State) : State :=
  let s := (lanesOf x.cur.lanes).foldl (fun t l =>
    modLane t (x.lk l) fun y => if y.held = .none then
      { y with pc := x.cur.pc, run := x.cur.run, held := .retry, wait := (x.waits.getD l (0, 0)).1, lastAc := (x.waits.getD l (0, 0)).2 } else y) s
  let s := { freePort s x.g x.cur.port with board := s.board.filter fun p => p.tok != x.tok }
  modGroup s x.gid fun g =>
    { g with cover := x.g.cover, notBefore := x.g.notBefore, yielded := x.g.yielded, yieldAc := x.g.yieldAc, slots := x.g.slots, lastIssue := x.g.lastIssue,
             batch := x.g.batch, only := if holdsGroup x.w then x.cur.lanes else x.g.only }

/-! ### Entering a word -/

/-- The word stands covered by a `sched` (R39): its run holds one, or an earlier one still covers it. -/
def coverFor (g : Group) (h : Hints) : Option Cover :=
  match h.sched with
  | some w => some ⟨[fld w 20 4, fld w 16 4, fld w 12 4], fld w 3 1 == 1⟩
  | none => g.cover

/-- The range index of a `pre` is not below the length of the header's table (R43). -/
def preRangeBad (s : State) (x : Ctx) : Bool :=
  match x.h.pre with
  | some p => p.2 != 0xFF && decide ((((headerAt s x.g.kdom x.g.kentry).map (·.live.length)).getD 0) ≤ p.2)
  | none => false

/-- Steps 1 to 7 of R51, the range index of a `pre` (R43) and the role check (R171): the first failure, raised in every lane of
the issuing set. The range index is judged after the register checks of step 7, and its cause has the origin of the target's major.
(DESIGN CHOICE, log 49) -/
def checkWord (s : State) (x : Ctx) : Option FaultInfo :=
  let w := x.w
  let m := majorOf w
  let us := regUses w x.o x.hasOpx x.g.window x.g.width
  let reserved := (0x19 ≤ m && m ≤ 0x1F) || (0x2D ≤ m && m ≤ 0x2F) || (0x34 ≤ m && m ≤ 0x3E)
  if reserved then some { x.illegal 1 with group := false }
  else if (kindsOf x.cur.run).any fun k => !hintAccepted w (fencePromotes w x.o) k then some { x.illegal 7 with group := false }
  else if x.hasOpx && (x.h.opxBad || !opxHonoured (honours w) x.o) then some { x.illegal 8 with group := false }
  else if minorReserved w then some { x.illegal 2 with group := false }
  else if usedBad w || runValueBad w x.o x.h.imx then some { x.illegal 3 with group := false }
  else if unusedBad w || (m == 0x25 && fld w 0 4 < 4 && fld w 9 6 != 0 && !fencePromotes w x.o) then
    some { x.illegal 4 with group := false }
  else if uBad w then some { x.illegal 5 with group := false }
  else match srBad w with
    | some sub => some { x.illegal sub with group := false }
    | none =>
      match operandFail us x.g.window with
      | some d => some { x.fi 1 d with group := false }
      | none =>
        if preRangeBad s x then some { x.fi 1 2 with group := false }
        else if !roleMay x.g.role m then some { x.fi 4 0 with group := false }
        else none

/-- The predicate numbers a word reads, its guard first. -/
def Ctx.predSrc (x : Ctx) : List Nat := (guardFields x.w).1 :: (predUses x.w x.o x.hasOpx).1
/-- The registers a word reads. -/
def Ctx.regSrc (x : Ctx) : List Nat := srcRegs (regUses x.w x.o x.hasOpx x.g.window x.g.width)
/-- The registers a word writes; of `mcvt`, those of the rows of its format (R336). -/
def Ctx.regDst (x : Ctx) : List Nat :=
  let ds := dstRegs (regUses x.w x.o x.hasOpx x.g.window x.g.width)
  let m1 := vreg x.rs (x.lk (lowest x.cur.lanes)) (fld x.w 1 6 + 1)
  if majorOf x.w = 0x33 ∧ fld x.w 10 3 = 3 ∧ fld m1 28 4 ≠ 8 then ds.filter fun r => decide (r < fld x.w 13 6 + 128 / x.g.width) else ds
/-- The predicates a word writes, p0 apart (R29). -/
def Ctx.predDst (x : Ctx) : List Nat := (predUses x.w x.o x.hasOpx).2.filter (· != 0)

/-- One early read of a register that a fixed-latency word writes: the old or the new value, by a free choice (R39, R201; DESIGN CHOICE,
log 1). -/
def earlyReg (k r : Nat) (p : Pend) (a : State × State) : State × State :=
  let (b, s) := takeBit a.2
  (if b then setVreg a.1 k r (p.old.rd (k * 128 + r)) else a.1, s)
/-- One early read of a predicate. -/
def earlyPred (k q : Nat) (p : Pend) (a : State × State) : State × State :=
  let (b, s) := takeBit a.2
  (if b then setPreg a.1 k q ((p.oldPreds.rd k).getLsbD q) else a.1, s)
/-- The values that a covered word was to read as they stood before unwaited results (R201). -/
def oldValues (x : Ctx) (s : State) : State :=
  x.g.early.foldl (fun t e => if e.1 / 8192 = x.gid ∧ has x.cur.lanes (e.1 / 128 % 64) then { t with vregs := t.vregs.wr e.1 e.2 } else t) s
/-- The state in which a covered word reads its sources with scheduling checking off, and the state with the free choices
spent. (DEDUCED, log 17) -/
def earlyReads (x : Ctx) (s : State) : State × State :=
  s.board.foldl (fun a p =>
    if p.gid = x.gid ∧ pendOpen p x.now ∧ p.due.isSome then
      (lanesOf (p.lanes &&& x.cur.lanes)).foldl (fun a l =>
        let a := (p.regs.filter fun r => x.regSrc.contains r).foldl (fun a r => earlyReg (x.lk l) r p a) a
        (p.preds.filter fun q => x.predSrc.contains q).foldl (fun a q => earlyPred (x.lk l) q p a) a) a
    else a) (oldValues x s, s)
/-- The registers that a covered word would read before a variable-latency word has written them, and for which no choice has been made. -/
def unwaited (x : Ctx) (s : State) : List Nat :=
  dedup (s.board.flatMap fun p =>
    if p.gid = x.gid ∧ p.due.isNone then
      ((lanesOf (p.lanes &&& x.cur.lanes)).flatMap fun l => (p.regs.filter fun r => x.regSrc.contains r).map fun r => x.lk l * 128 + r).filter fun k =>
        (x.g.early.get? k).isNone
    else [])
/-- Each unwaited read of a covered word takes the old value or waits for the new one, by a free choice (R201; DESIGN CHOICE, log 1): the
old values chosen, whether some read waits, and the state with the choices spent. -/
def chooseOld (x : Ctx) (s : State) : Tab Word × Bool × State :=
  (unwaited x s).foldl (fun a k =>
    let (b, t) := takeBit a.2.2
    if b then (a.1.put k (s.vregs.rd k), a.2.1, t) else (a.1, true, t)) (x.g.early, false, s)

/-- The executing set (R23): lanes of the issuing set whose guard holds. -/
def guardSet (x : Ctx) : BitVec 64 :=
  let g := guardFields x.w
  maskOf ((lanesOf x.cur.lanes).filter fun l => preg x.rs (x.lk l) g.1 != g.2)

/-- The operands of a lane that the uniform claim compares (R25): registers, predicates, and the register that `rdsr` reads. -/
def uniformOps (x : Ctx) (l : Nat) : List Word × List Bool :=
  let k := x.lk l
  (x.regSrc.map (vreg x.rs k) ++
    (if majorOf x.w = 0 ∧ fld x.w 9 6 = 3 then [sreg x.rs x.g k l (fld x.w 0 9)] else []),
   ((predUses x.w x.o x.hasOpx).1).map (preg x.rs k))
/-- The set that a false uniform claim faults, when uniform checking finds one (R25, R203). -/
def uniformBad (x : Ctx) : Option (BitVec 64) :=
  let m := majorOf x.w
  if !(x.u && x.g.uchk) then none
  else if formatOf m = some .J then (if x.active ≠ x.cur.lanes then some x.cur.lanes else none)
  else if m = 0x18 ∧ 5 ≤ fld x.w 0 3 then none
  else if (lanesOf x.active).any fun l => uniformOps x l != uniformOps x (lowest x.active) then some x.active
  else none

/-- The first check at issue that an executing lane fails: gate (R139), transaction (R374), scoreboard (R201), poison (R465). -/
def laneCheck (s : State) (x : Ctx) (covered : Bool) (l : Nat) : Option FaultInfo :=
  let k := x.lk l
  let hit := fun (var : Bool) (regs preds : List Nat) =>
    s.board.any fun p => p.due.isNone == var && pendOpen p x.now && pendHits p x.gid (bitMask l) regs preds
  match (if x.g.gate.isSome then gateBars x.w else none) with
  | some (c, d) => some (x.fi c d)
  | none =>
    if (laneAt s k).txn.isSome ∧ !txnMay x.w then some (x.fi 12 2)
    else if covered && x.g.schk && hit false x.regSrc x.predSrc then some (x.fi 2 0)
    else if covered && x.g.schk && hit true x.regSrc x.predSrc then some (x.fi 2 1)
    else if covered && x.g.schk && hit true x.regDst x.predDst then some (x.fi 2 2)
    else match x.regSrc.find? fun r => s.poisonRegs.contains (k * 128 + r) with
      | some r => some (x.fi 20 1 r)
      | none => none

/-- A lane of the issuing set past the word (R22), its run used up. -/
def passed (x : Ctx) (y : Lane) : Lane := { y with pc := x.next, run := [], held := .none, lastAc := x.now + 1, wait := 0 }
/-- The choices of R201 that the lanes of a set have used. -/
def usedEarly (x : Ctx) (t : Tab Word) : Tab Word := t.filter fun e => !(e.1 / 8192 == x.gid && has x.cur.lanes (e.1 / 128 % 64))
/-- The group past the word: its issue time and its coverage move on (R39, R190), and an inverted batch counts the ac (R193). -/
def passGroup (x : Ctx) (g : Group) : Group :=
  let g := { g with lastIssue := x.now, only := 0, early := usedEarly x g.early, batch := if g.lastIssue = x.now then g.batch else g.batch - 1 }
  match coverFor g x.h with
  | some ⟨st :: rest, y⟩ =>
    { g with notBefore := x.now + 1 + st, cover := if rest = [] then none else some ⟨rest, y⟩,
             yielded := g.yielded || (rest = [] && y), yieldAc := if rest = [] && y then x.now + 1 else g.yieldAc }
  | _ => { g with cover := none }
/-- The lanes go past the word, and the group's issue times and coverage move on (R39, R190). -/
def advance (x : Ctx) (s : State) : State :=
  modGroup (modLanes s x.gid x.cur.lanes fun _ y => passed x y) x.gid (passGroup x)

/-- The scoreboard entry of a word's results, with the old values of a fixed-latency result; earlier entries that are due go. -/
def pendNew (x : Ctx) (s : State) : State :=
  let regs := x.regDst
  let preds := x.predDst
  let keep := s.board.filter fun p => pendOpen p x.now
  let keep := keep.map fun p =>
    if p.due.isNone ∧ pendHits p x.gid x.go regs preds then
      { p with clash := p.clash ++ (lanesOf (p.lanes &&& x.go)).flatMap fun l => (p.regs.filter fun r => regs.contains r).map fun r => x.lk l * 128 + r }
    else p
  if regs = [] ∧ preds = [] then { s with board := keep }
  else
    let due := match latency x.w x.g.width with
      | some 0 => some x.now
      | some n => some (x.now + n)
      | none => none
    let old : Tab Word := (lanesOf x.go).foldl (fun t l => regs.foldl (fun t r => t.wr (x.lk l * 128 + r) (vreg s (x.lk l) r)) t) []
    let oldP : Tab (BitVec 128) := (lanesOf x.go).foldl (fun t l => t.wr (x.lk l) (laneAt s (x.lk l)).preds) []
    let p : Pend := { gid := x.gid, lanes := x.go, regs := regs, preds := preds, due := due, tok := x.tok, old := old, oldPreds := oldP }
    { s with board := keep ++ [p],
             poisonRegs := s.poisonRegs.filter fun r => !(r / 8192 == x.gid && has x.go (r / 128 % 64) && regs.contains (r % 128)) }

/-- The word names a slot, or sl7 by its major (R30, R259). -/
def namesSlot (w : Word) : Option Nat :=
  if slotField w ≠ 7 then some (slotField w)
  else if majorOf w = 0x12 ∨ (majorOf w = 0x17 ∧ fld w 0 3 = 2) then some 7
  else none

/-- What entering a word gives: it ends before its own effect, or its effect takes place in a context and state. -/
inductive Entry where
  | stop (t : State)
  | run (x : Ctx) (t : State)
  deriving DecidableEq, Repr

/-- The context of a word at issue, before the guard. -/
def ctxOf (s : State) (g : Group) (c : Cur) (w : Word) : Ctx :=
  let h := hintsOf c.run
  { gid := c.gid, g := g, cur := c, w := w, h := h, o := opxEff h, hasOpx := h.opx.isSome, u := uBit w,
    tok := s.nextId, now := acNow s (dieOf g.core), rs := s,
    waits := (upTo 0 64).map fun l => ((laneAt s (lk c.gid l)).wait, (laneAt s (lk c.gid l)).lastAc) }

/-- The results of a word booked on the scoreboard (R199), and its slot taken (R30). -/
def booked (x : Ctx) (s : State) : State :=
  match namesSlot x.w with
  | some n => setSlot (pendNew x s) x.gid n x.tok true
  | none => pendNew x s
/-- The faults of executing lanes that fail a check at issue. -/
def laneFaults (s : State) (x : Ctx) (covered : Bool) : List (Nat × FaultInfo) :=
  (lanesOf x.active).filterMap fun l => (laneCheck s x covered l).map fun f => (l, f)
/-- The faults that a check at issue raises: in the lanes that fail it, or, of a uniform word, in its whole executing set (R25, R55). -/
def issueFaults (s : State) (x : Ctx) (covered : Bool) : List (Nat × FaultInfo) :=
  match x.u, laneFaults s x covered with
  | true, e :: _ => (lanesOf x.active).map fun l => (l, e.2)
  | _, bad => bad
/-- The lanes of the executing set that fail a check at issue raise; the others take the word's effect. -/
def enterLanes (x : Ctx) (covered : Bool) (s : State) : Entry :=
  let bad := issueFaults s x covered
  let s := bad.foldl (fun t e => x.raise t e.1 e.2) s
  let x := { x with go := x.active &&& ~~~(maskOf (bad.map (·.1))) }
  if x.go = 0 then .stop s else .run x (booked x s)
/-- A word with an empty executing set completes at once and releases the slot it names (R23). -/
def releaseNamed (x : Ctx) (s : State) : State :=
  match namesSlot x.w with
  | some n => modGroup s x.gid fun y => { y with slots := y.slots.del n }
  | none => s
/-- The executing set is known: R23, then the uniform claim (R25, R203), then the lanes' checks. -/
def enterSet (x : Ctx) (covered : Bool) (s : State) : Entry :=
  if x.active = 0 then .stop (releaseNamed x s)
  else match uniformBad x with
    | some m => .stop (x.raiseAll s m { x.fi 3 0 with group := true })
    | none => enterLanes x covered s

/-- Enter a word: R51, R171, R23 to R25, R201, R203, R374. `s` no longer holds the choice of the vote. -/
def enter (w : Word) (c : Cur) (s : State) : Entry :=
  match s.groups.get? c.gid with
  | none => .stop s
  | some g =>
    let x := ctxOf s g c w
    let covered := (coverFor g x.h).isSome
    let s := advance x { s with nextId := s.nextId + 1 }
    match checkWord s x with
    | some f => .stop (x.raiseAll s c.lanes f)
    | none =>
      let c := if covered && !g.schk then chooseOld x s else ([], false, s)
      if c.2.1 then .stop (modGroup (x.wait c.2.2) x.gid fun y => { y with early := c.1 })
      else
        let x := { x with g := { g with early := c.1 } }
        let r := if covered && !g.schk then earlyReads x c.2.2 else (c.2.2, c.2.2)
        enterSet { x with g := g, rs := r.1, active := guardSet { x with rs := r.1 } } covered r.2

/-- After a word's effect: a slot whose word has nothing in flight is clear (R30). -/
def finish (x : Ctx) (s : State) : State :=
  if (namesSlot x.w).isSome ∨ latency x.w x.g.width = none then retireTok s x.gid x.tok else s

/-- A word executes for the issuing set that the vote chose. -/
def runWord (i : Instr) (body : Ctx → State → State) (s : State) : Out :=
  match s.cur with
  | none => .fault .noIssuingSet
  | some c =>
    match enter (encode i) c { s with cur := none } with
    | .stop t => .next t
    | .run x t => .next (finish x (body x t))

/-- A hint word executes (R35): it joins the run of its lanes; a kind already there raises ILLEGAL 0x06, reserved bits of a
`sched` raise 0x03. (DEDUCED, log 10) -/
def runHint (i : Instr) (body : Ctx → State → State) (s : State) : Out :=
  match s.cur with
  | none => .fault .noIssuingSet
  | some c =>
    let s := { s with cur := none }
    match s.groups.get? c.gid with
    | none => .next s
    | some g =>
      let w := encode i
      let x := { ctxOf s g c w with u := false }
      if (kindsOf c.run).contains (fld w 24 2) then .next (x.raiseAll s c.lanes (x.illegal 6))
      else if usedBad w then .next (x.raiseAll s c.lanes (x.illegal 3))
      else
        let s := (lanesOf c.lanes).foldl (fun t l =>
          modLane t (x.lk l) fun y => { y with pc := x.next, run := c.run ++ [w], port := c.port, lastAc := x.now + 1, wait := 0 }) s
        .next (body x (modGroup s c.gid fun y => { y with lastIssue := x.now, batch := if y.lastIssue = x.now then y.batch else y.batch - 1 }))

/-! ### The vote (R188 to R193) -/

/-- What a fetch at an address gives (R189): the word, a miss, or a failed translation. -/
inductive Fetch where
  | word (w : Word)
  | miss
  | fail (f : AccFail)
  deriving DecidableEq, Repr

/-- Fetch through the pair's L1 on the load-store path under the group's stamp (R189). -/
def fetch (s : State) (g : Group) (va : Nat) : Fetch :=
  match translate s g.stamp va false with
  | .error f => .fail f
  | .ok (pa, p) =>
    match arenaCheck s p va false with
    | some f => .fail f
    | none =>
      match l1Read s (pairOf g.core) 0 pa 4 p with
      | some b => .word (BitVec.ofNat 32 (leNat b))
      | none => .miss

/-- The ac in which a group's core stands. -/
def acOf (s : State) (gid : Nat) : Nat := ((s.groups.get? gid).map fun g => acNow s (dieOf g.core)).getD 0
/-- The lane sets of a group: PC, run and lanes, each lane that is not held and has not issued in this ac (R188, R190). (DEDUCED, log 6) -/
def laneSets (s : State) (gid : Nat) : List (DWord × List Word × BitVec 64) :=
  (upTo 0 64).foldl (fun acc l =>
    match s.lanes.get? (lk gid l) with
    | some y =>
      if y.held ≠ .none ∨ y.lastAc = acOf s gid + 1 then acc
      else if acc.any fun e => e.1 == y.pc && e.2.1 == y.run then
        acc.map fun e => if e.1 == y.pc && e.2.1 == y.run then (e.1, e.2.1, e.2.2 ||| bitMask l) else e
      else acc ++ [(y.pc, y.run, bitMask l)]
    | none => acc) []

/-- The word's wait mask is met (R39). -/
def waitMet (g : Group) (h : Hints) : Bool :=
  match h.sched with
  | some w => (upTo 0 8).all fun k => !bitAt (fld w 4 8) k || (g.slots.get? k).isNone
  | none => true
/-- An uncovered word's sources and destinations have been written (R188, R200). -/
def interlocked (s : State) (x : Ctx) : Bool :=
  s.board.any fun p => pendOpen p x.now && pendHits p x.gid x.cur.lanes (x.regSrc ++ x.regDst) (x.predSrc ++ x.predDst)

/-- The group is held at a `rdy` or `park` until every result of it is written (R181). (DESIGN CHOICE, log 25) -/
def groupHeld (s : State) (gid : Nat) : Bool :=
  (s.posts.any fun e => e.2.gid == gid && !e.2.free) || (s.parks.any fun e => e.2.gid == gid)
/-- The group is named by a pre-emption request whose window is still open, or has ended (R429, R431). -/
def inWindowOf (s : State) (gid : Nat) (ended : Bool) : Bool :=
  s.preempts.any fun e => e.2.groups.contains gid && decide (e.2.windowEnd ≤ s.wall) == ended
/-- A team of a cooperative grid may run: every team of the grid is resident (R109). (DESIGN CHOICE, log 31) -/
def coopReady (s : State) (t : Team) : Bool :=
  match t.grid.bind fun g => s.grids.get? g with
  | some g => !g.coop || (decide (g.teams ≤ g.placedTeams.length + g.lostTeams) &&
      g.placedTeams.all fun i => ((s.teams.get? i).map fun y => y.saved.isNone).getD true)
  | none => true
/-- The group may issue at all: it is resident and running, its function is not held back, its die is up, and no grace window that
covers it has ended. -/
def groupRuns (s : State) (gid : Nat) (g : Group) : Bool :=
  let f := funcAt s g.func
  !groupHeld s gid && !g.retired && (!f.halted || inWindowOf s gid false) && !f.resetting && (!f.sliced || f.running || inWindowOf s gid false) &&
  !inWindowOf s gid true && !s.dieDown.contains (dieOf g.core) &&
  (match s.teams.get? g.team with
   | some t => t.saved.isNone && coopReady s t
   | none => true)

/-- The word that a lane set would issue, when it is ready (R188). -/
def readySet (s : State) (gid : Nat) (g : Group) (e : DWord × List Word × BitVec 64) : Option Cur :=
  let now := acNow s (dieOf g.core)
  if now < g.notBefore then none
  else if g.only &&& liveMask s gid ≠ 0 ∧ g.only &&& e.2.2 = 0 then none
  else match fetch s g e.1.toNat with
    | .word w =>
      let c : Cur := ⟨gid, e.2.2, e.1, e.2.1, w, 0⟩
      if isHint w then some c
      else
        let x := ctxOf s g c w
        if !waitMet g x.h then none
        else if (coverFor g x.h).isNone && interlocked s x then none
        else some c
    | _ => none

/-- The fairness threshold in force (R193, Table 28-1). -/
def fairness (s : State) : Nat := (s.record.map (·.fairness)).getD Config.fairnessDefault
/-- A ready lane set of the group has waited as long as the threshold. -/
def starved (s : State) (gid : Nat) (g : Group) : Bool :=
  (laneSets s gid).any fun e => (readySet s gid g e).isSome && (lanesOf e.2.2).any fun l => decide (fairness s ≤ (laneAt s (lk gid l)).wait)
/-- An inverted batch is in force: 32 ac in which the group issues, and no longer than a ready lane set has waited that long (R193). -/
def inverted (s : State) (gid : Nat) (g : Group) : Bool := decide (1 < g.batch) && starved s gid g
/-- The ready lane sets of a group, lowest PC first (R190 step 2), or longest wait first in an inverted batch (R193); the wait of a lane set
that was formed of lanes which had waited differently is the greatest of theirs. (DESIGN CHOICE, log 6) -/
def readySets (s : State) (gid : Nat) (g : Group) : List Cur :=
  let rs := (laneSets s gid).filterMap (readySet s gid g)
  let key (c : Cur) : Nat :=
    if !inverted s gid g then c.pc.toNat
    else (2 ^ 64 - ((lanesOf c.lanes).foldl (fun m l => max m (laneAt s (lk gid l)).wait) 0)) * 2 ^ 64 + c.pc.toNat
  rs.foldl (fun acc c =>
    let lo := acc.takeWhile fun d => key d ≤ key c
    lo ++ c :: acc.drop lo.length) []

/-- Groups of a partition that have a ready lane set, each with its sets. -/
def candidates (s : State) (core part : Nat) : List (Nat × Group × List Cur) :=
  s.groups.filterMap fun e =>
    if e.2.core = core ∧ e.2.part = part ∧ groupRuns s e.1 e.2 then
      match readySets s e.1 e.2 with
      | [] => none
      | rs => some (e.1, e.2, rs)
    else none

/-- The first group comes before the second (R190 step 1): priority, then age, then placement. -/
def before (a b : Group) : Bool :=
  if a.prio ≠ b.prio then decide (b.prio < a.prio)
  else if a.lastIssue ≠ b.lastIssue then decide (a.lastIssue < b.lastIssue)
  else decide (a.placed < b.placed)

/-- A candidate takes its place among ranked ones. -/
def rankIn (a : Nat × Group × List Cur) : List (Nat × Group × List Cur) → List (Nat × Group × List Cur)
  | [] => [a]
  | b :: t => if before b.2.1 a.2.1 then b :: rankIn a t else a :: b :: t
/-- The candidates in the order of R190 step 1. -/
def ranked : List (Nat × Group × List Cur) → List (Nat × Group × List Cur)
  | [] => []
  | a :: t => rankIn a (ranked t)
/-- The group sits out the vote of an ac: a yield of an earlier ac is still to be answered while another group is ready, or it sits out
this one (R192). -/
def sitsOut (now : Nat) (cs : List (Nat × Group × List Cur)) (e : Nat × Group × List Cur) : Bool :=
  e.2.1.satOut == now + 1 || (e.2.1.yielded && decide (e.2.1.yieldAc ≤ now) && cs.any fun d => d.1 != e.1)
/-- The lane set may take the port: its run, if it has begun one, issues there (R192). -/
def onPort (s : State) (port : Nat) (c : Cur) : Bool := c.run == [] || (laneAt s (lk c.gid (lowest c.lanes))).port == port
/-- The candidates that take part in a vote, in the order of R190 step 1. -/
def voters (s : State) (core part : Nat) : List (Nat × Group × List Cur) :=
  let all := candidates s core part
  ranked (all.filter fun e => !sitsOut (acNow s (dieOf core)) all e)
/-- The lane set that takes a port: the first one, group by group, that may issue there and has another PC than the lane set that takes the
other port (R190 steps 2 and 3, R192). -/
def portPick (s : State) (cs : List (Nat × Group × List Cur)) (port : Nat) (other : Option Cur) : Option Cur :=
  (cs.findSome? fun e => e.2.2.find? fun c => onPort s port c && other.all fun d => d.gid != c.gid || d.pc != c.pc).map fun c => { c with port := port }
/-- A lane set that a vote chose still stands: its lanes go on from the same word, and none has been held or has issued. -/
def stands (s : State) (c : Cur) : Bool :=
  (laneSets s c.gid).any (fun e => e.1 == c.pc && e.2.1 == c.run && c.lanes &&& ~~~e.2.2 == 0) && ((s.groups.get? c.gid).map (groupRuns s c.gid)).getD false
/-- The waits and batches of a group at the vote of an ac (R193): each ready lane set has waited one more, until it issues; the group enters an
inverted batch when one has waited as long as the threshold, and leaves it when it is over. -/
def countGroup (s : State) (gid : Nat) (g : Group) : State :=
  if !groupRuns s gid g then s
  else
    let t := ((laneSets s gid).filter fun l => (readySet s gid g l).isSome).foldl (fun u l =>
      (lanesOf l.2.2).foldl (fun v i => modLane v (lk gid i) fun y => { y with wait := y.wait + 1 }) u) s
    let hungry := starved t gid g
    if hungry && decide (1 < g.batch) || !hungry && g.batch == 0 then t
    else modGroup t gid fun y => { y with batch := if hungry then 33 else 0 }
/-- The waits and batches of a partition's groups at its first vote of an ac. -/
def countPart (s : State) (core part : Nat) : State :=
  s.groups.foldl (fun t e => if e.2.core = core ∧ e.2.part = part then countGroup t e.1 e.2 else t) s
/-- The state in which a partition votes: at its first vote of the ac the waits have been counted. -/
def counted (s : State) (core part : Nat) : State :=
  if (s.ports.get? (core * 12 + part)).isNone then countPart s core part else s
/-- The group of port 0 first: port 1 goes to it while it has another ready lane set (R190). -/
def firstGroup (g : Option Nat) (cs : List (Nat × Group × List Cur)) : List (Nat × Group × List Cur) :=
  cs.filter (fun e => some e.1 == g) ++ cs.filter fun e => some e.1 != g
/-- The lane sets that the first vote of an ac chooses for the two ports, together (R190). -/
def pickBoth (s : State) (core part : Nat) : Option Cur × Option Cur :=
  let cs := voters s core part
  let p := portPick s cs 0 none
  (p, portPick s cs 1 p)
/-- The vote of a partition (R190, R192): the lane set that issues next in this ac. The first vote chooses for both ports; where a chosen
set could not issue after all, its port is offered again. -/
def voteOf (s : State) (core part : Nat) : Option Cur :=
  match s.ports.get? (core * 12 + part) with
  | none =>
    let b := pickBoth (countPart s core part) core part
    if b.1.isSome then b.1 else b.2
  | some u =>
    match u.next.filter (stands s) with
    | some c => some c
    | none =>
      let cs := firstGroup u.group (voters s core part)
      let p := if u.zero then none else portPick s cs 0 none
      if p.isSome then p else if u.one then none else portPick s cs 1 none

/-- What the partition's vote holds once lane set `c` has taken its port. -/
def portsAfter (s : State) (core part : Nat) (c : Cur) : Ports :=
  match s.ports.get? (core * 12 + part) with
  | none =>
    let b := pickBoth (countPart s core part) core part
    if c.port = 0 then { zero := true, group := some c.gid, next := b.2 } else { one := true }
  | some u => if c.port = 0 then { u with zero := true } else { u with one := true, next := none }
/-- The state after a vote: the port is taken, and a group that has yielded in an earlier ac sits this vote out, its age 0 (R192). -/
def takePort (s : State) (core part : Nat) (c : Cur) : State :=
  let now := acNow s (dieOf core)
  let t := counted s core part
  { t with
    ports := t.ports.put (core * 12 + part) (portsAfter s core part c)
    groups := t.groups.map fun (e : Nat × Group) =>
      if e.2.core = core ∧ e.2.part = part ∧ e.2.yielded ∧ e.2.yieldAc ≤ now ∧ e.1 ≠ c.gid then (e.1, { e.2 with yielded := false, satOut := now + 1, lastIssue := now }) else e
    cur := some c }

end Sys2Proof.Machine
end

