-- ==== Sys2Proof/Machine/Release.lean ====
section
/-!
DEFINITION. The release that several words make before their own effect (R273, R295, R346): earlier accesses of the lanes
complete, then the pair's dirty lines are written back, then the word goes on.
-/
namespace Sys2Proof.Machine

/-- A word's release by its lanes, then its effect, or the wait. -/
def Ctx.releasing (x : Ctx) (s : State) (k : Nat) (act : State → State) : State :=
  match releaseAt s x.gid x.go x.pair x.g.stamp k with
  | .ok t => act t
  | .error t => x.wait t

end Sys2Proof.Machine
end

