-- ==== Sys2Proof/Machine/Memory.lean ====
section
/-!
DEFINITION. The memory path: addresses and checks (R286), the TLB, results on their way, scratchpad bytes, loads, stores,
prefetch, fences and `waita` (majors 0x20 to 0x25, R286 to R297), and the arrival of an access at its home slice (R344).
-/
namespace Sys2Proof.Machine

/-! ### Addresses and checks -/

/-- The address of an access in lane key `k` (R286). -/
def Ctx.va (x : Ctx) (k a : Nat) : Nat := (BitVec.ofInt 64 (((vpair x.rs k a).toNat : Int) + immM x.h)).toNat

/-- Where an address leads: a scratchpad byte, or a physical address with its page entry. -/
inductive Place where
  | spm (key : Nat)
  | mem (pa : Nat) (p : Page)
  deriving DecidableEq, Repr

/-- The five bits of an access's size, and whether it writes (Table 23-3). (DEDUCED, log 24) -/
def accSize (n : Nat) (write : Bool) : Nat := n % 32 + (if write then 256 else 0)
/-- The INFO field of a failed access (Table 23-3). -/
def accInfo (f : AccFail) (n : Nat) (write : Bool) : Nat := if 7 ≤ f.cls ∧ f.cls ≤ 10 then accSize n write else 0
/-- The fault of a failed access. -/
def Ctx.accFault (x : Ctx) (f : AccFail) (n : Nat) (write : Bool) : FaultInfo := x.fi f.cls f.detail f.addr (accInfo f n write)

/-- The scratchpad window for a group: gate (R139), the words that may name it (R266), the team's banks. -/
def windowPlace (s : State) (g : Group) (va : Nat) (win : Bool) : Except AccFail Place :=
  if g.gate.isSome then .error ⟨9, 2, va⟩
  else if !win then .error ⟨8, 2, va⟩
  else match (teamOf? s g).bind fun t => spmAt t (va - Config.spmWindow) with
    | some k => .ok (.spm k)
    | none => .error ⟨9, 0, va⟩
/-- The checks of R286 for an access of `n` bytes (0: no alignment). `win` says that the word may name the window. -/
def placeOf (s : State) (g : Group) (va n : Nat) (write win : Bool) : Except AccFail Place :=
  if n ≠ 0 ∧ va % n ≠ 0 then .error ⟨7, 0, va⟩
  else if inWindow va then windowPlace s g va win
  else match translate s g.stamp va write with
    | .error f => .error f
    | .ok (pa, p) =>
      match arenaCheck s p va write with
      | some f => .error f
      | none => .ok (.mem pa p)

/-! ### The TLB (R280) -/

/-- The entry translates an address for a domain. -/
def TlbEntry.holds (e : TlbEntry) (dom va : Nat) : Bool := e.dom == dom && decide (e.va ≤ va) && decide (va < e.va + e.size)
/-- The pair's TLB holds the page of an address for the domain. -/
def tlbHit (s : State) (pair dom va : Nat) : Bool := s.tlb.any fun e => e.pair == pair && e.holds dom va
/-- The number of the smallest page that holds an address. -/
def pageNo (va : Nat) : Nat := va / Config.page
/-- The quadrant of a core in the module: die times 4 plus quadrant (R11, R280). -/
def quadOf (core : Nat) : Nat := core / 16
/-- The domains resident on either core of a pair (R280). -/
def pairDomains (s : State) (pair : Nat) : List Nat :=
  dedup (((upTo (pair * 16) 16).filterMap fun i => s.slots.get? i).filterMap fun x => if fld x.dpid 31 1 = 1 then some (fld x.dpid 0 6) else none)
/-- A pair's entries of a domain. -/
def tlbOf (s : State) (pair dom : Nat) : List TlbEntry := s.tlb.filter fun e => e.pair == pair && e.dom == dom
/-- The pair's entries that stand in the pool: those of a domain beyond the 24 that it used last; a domain not resident there is guaranteed
none (R280). -/
def pooled (s : State) (pair : Nat) : List TlbEntry :=
  (dedup ((s.tlb.filter fun e => e.pair == pair).map (·.dom))).flatMap fun d =>
    (tlbOf s pair d).drop (if (pairDomains s pair).contains d then Config.tlbGuaranteed else 0)
/-- Entries of the pool: those that no resident domain is guaranteed. -/
def poolSize (s : State) (pair : Nat) : Nat := Config.tlbEntries - Config.tlbGuaranteed * (pairDomains s pair).length
/-- A new entry of a pair, the one used last (R280): where the pool then holds too many, its least recently used entry leaves. -/
def tlbAdd (s : State) (e : TlbEntry) : State :=
  let s := { s with tlb := e :: s.tlb.filter (· != e) }
  let pool := pooled s e.pair
  if pool.length ≤ poolSize s e.pair then s
  else { s with tlb := s.tlb.filter fun t => some t != (s.tlb.filter fun t => pool.contains t).getLast? }
/-- The entries of a pair that translate the addresses are the ones used last (R280). -/
def tlbUse (pair dom : Nat) (vas : List Nat) (s : State) : State :=
  let used (e : TlbEntry) : Bool := e.pair == pair && vas.any (e.holds dom)
  { s with tlb := s.tlb.filter used ++ s.tlb.filter fun e => !used e }
/-- Addresses of a group whose translation must still be walked: outside the window, below the top, no TLB entry, and no failed
walk answered for this group (R420). -/
def unwalked (s : State) (gid : Nat) (g : Group) (vas : List Nat) : List Nat :=
  dedup ((vas.filter fun va => !inWindow va && decide (va < Config.vaEnd) && !tlbHit s (pairOf g.core) g.stamp va &&
    !s.noPage.contains (gid, g.stamp, pageNo va)).map pageNo)
/-- A miss goes to the quadrant's service (R280): an entry of the service answers it, it joins the walk of its page, or it takes a walk
slot; with none free it waits. -/
def startWalk (gid : Nat) (g : Group) (s : State) (page : Nat) : State :=
  let q := quadOf g.core
  match s.service.find? fun e => e.pair == q && e.holds g.stamp (page * Config.page) with
  | some e => tlbAdd s { e with pair := pairOf g.core }
  | none => match s.walks.find? fun e => e.2.quad == q && e.2.dom == g.stamp && e.2.page == page with
    | some (i, w) => if w.waiters.contains gid then s else { s with walks := s.walks.put i { w with waiters := w.waiters ++ [gid] } }
    | none =>
      if Config.walkSlots ≤ (s.walks.filter fun e => e.2.quad == q).length then s
      else { (fresh s).2 with walks := s.walks.put (fresh s).1 ⟨q, g.stamp, page, [gid]⟩ }
/-- A word's addresses are translated: it goes on, or waits for the walks of the pages it misses. Answers of failed walks are
taken when the word goes on. -/
def Ctx.translated (x : Ctx) (s : State) (vas : List Nat) (act : State → State) : State :=
  match unwalked s x.gid x.g vas with
  | [] => act (tlbUse x.pair x.g.stamp vas { s with noPage := s.noPage.filter fun e => e.1 != x.gid })
  | ps => x.wait (ps.foldl (startWalk x.gid x.g) s)

/-! ### Results and scratchpad bytes -/

/-- Put a result of the word on its way; lanes that acquire with it are held until it is written (R289, R346). -/
def Ctx.send (x : Ctx) (s : State) (regs : List (Nat × Nat × Word)) (acq : List Nat := []) : State :=
  if regs = [] ∧ acq = [] then s
  else
    let s := acq.foldl (fun t k => modLane t k fun y => { y with held := .result }) s
    let r : Result := { tok := x.tok, gid := x.gid, regs := regs, acq := acq, major := majorOf x.w }
    { (fresh s).2 with results := s.results.put (fresh s).1 r }
/-- Bytes of a scratchpad place. -/
def spmBytes (s : State) (key n : Nat) : List Byte := (upTo key n).map fun a => s.spm.rd a
/-- A byte of a range of the scratchpad is poisoned (R465). -/
def spmPoisoned (s : State) (key n : Nat) : Bool := (upTo key n).any fun a => s.poisonSpm.contains a
/-- Write scratchpad bytes; lanes that wait on a word that is written read it again (R297). -/
def spmWrite (s : State) (key : Nat) (bs : List Byte) : State :=
  let s := { s with spm := ((upTo key bs.length).zip bs).foldl (fun (t : Tab Byte) (e : Nat × Byte) => t.wr e.1 e.2) s.spm,
                    poisonSpm := s.poisonSpm.filter fun a => !(decide (key ≤ a) && decide (a < key + bs.length)) }
  let hit (h : Held) : Bool :=
    match h with
    | .waita core bank off _ => decide (spmKey core bank off < key + bs.length) && decide (key < spmKey core bank off + 8)
    | _ => false
  if s.lanes.any fun e => hit e.2.held then
    { s with lanes := s.lanes.map fun (e : Nat × Lane) => if hit e.2.held then (e.1, { e.2 with held := .none }) else e }
  else s

/-- Register writes of a load of kind `f` at `d` (Table 2-10; 8 is `.hdr`). -/
def loadRegs (f d : Nat) (bs : List Byte) : List (Nat × Word) :=
  let n := leNat bs
  match f with
  | 0 => [(d, BitVec.ofInt 32 (sextInt n 8))]
  | 2 => [(d, BitVec.ofInt 32 (sextInt n 16))]
  | 5 => [(d, BitVec.ofNat 32 n), (d + 1, BitVec.ofNat 32 (n / 2 ^ 32))]
  | 6 => (upTo 0 4).map fun i => (d + i, BitVec.ofNat 32 (n / 2 ^ (32 * i)))
  | _ => [(d, BitVec.ofNat 32 n)]
/-- The same value to every lane of a set. -/
def Ctx.spread (x : Ctx) (m : BitVec 64) (rs : List (Nat × Word)) : List (Nat × Nat × Word) :=
  (lanesOf m).flatMap fun l => rs.map fun r => (x.lk l, r.1, r.2)
/-- Bytes that a store of `n` bytes takes from the registers at `d` (R293). -/
def storeBytes (s : State) (k d n : Nat) : List Byte :=
  leBytes n ((upTo 0 ((n + 3) / 4)).foldl (fun m i => m + (vreg s k (d + i)).toNat * 2 ^ (32 * i)) 0)

/-! ### Transactional accesses (R373) -/

/-- Doom an open transaction with a reason and cause; the first reason stands. -/
def doom (s : State) (k reason cause : Nat) : State :=
  modLane s k fun y =>
    match y.txn with
    | some t => if t.doom.isSome then y else { y with txn := some { t with doom := some (reason, cause) } }
    | none => y
/-- The lane's transaction is doomed. (DEDUCED, log 19) -/
def doomed (s : State) (k : Nat) : Bool :=
  match (laneAt s k).txn with
  | some t => t.doom.isSome
  | none => false
/-- Bytes joined to a set's line; none when a fifth line would be needed. With `keep` a byte that stands there already keeps its value: a
read set holds what was read first, so a byte read again with another value cannot pass validation (R373, R377). -/
def joinLine (ls : List TxLine) (pa : Nat) (p : Page) (bs : List (Nat × Byte)) (keep : Bool := false) : Option (List TxLine) :=
  let add (t : Tab Byte) : Tab Byte := bs.foldl (fun m e => if keep && (m.get? e.1).isSome then m else m.put e.1 e.2) t
  if ls.any fun l => l.pa == pa / 64 then some (ls.map fun l => if l.pa = pa / 64 then { l with bytes := add l.bytes } else l)
  else if 4 ≤ ls.length then none
  else some (ls ++ [⟨pa / 64, p.dom, p.arena, p.gen, add []⟩])
/-- A byte of the transaction's write set. (DEDUCED, log 19) -/
def txWritten (t : Txn) (pa : Nat) : Option Byte := (t.writes.find? fun l => l.pa == pa / 64).bind fun l => l.bytes.get? (pa % 64)
/-- What a transactional read finds: bytes of W are taken from W, the others at the home (R373). -/
def txBytes (s : State) (t : Txn) (pa n : Nat) (p : Page) : List Byte := (upTo pa n).map fun a => (txWritten t a).getD (homeByte s p.tag a)
/-- A transactional read of bytes at the home: the line joins R with the bytes read there; a fifth line dooms the transaction with reason 7
(R373). -/
def txReadHome (s : State) (k pa n : Nat) (p : Page) : State :=
  match (laneAt s k).txn with
  | none => s
  | some t =>
    let home := (upTo pa n).filter fun a => (txWritten t a).isNone
    match joinLine t.reads pa p (home.map fun a => (a % 64, homeByte s p.tag a)) true with
    | none => doom s k 7 0
    | some rs => modLane s k fun y => { y with txn := some { t with reads := rs } }
/-- Free register values for a load whose transaction is doomed by that load: the manual states none (DESIGN CHOICE, log 1). -/
def freeBytes : Nat → State → List Byte × State
  | 0, s => ([], s)
  | n + 1, s =>
    let (w, s) := takeWord s
    let (r, s) := freeBytes n s
    (w.setWidth 8 :: r, s)

/-! ### Loads (R289, R290, R292) -/

/-- Which load a word is: its cached path, or bypass; what it may name. -/
structure LoadOp where
  path : Option Nat
  win : Bool
  deriving DecidableEq, Repr

/-- The lane makes the operation, or takes its value (R25). -/
def AtomOp.names (o : AtomOp) (k : Nat) : Bool := o.lane == k || (o.gid == k / 64 && has o.lanes (k % 64))
/-- The lane makes the access, or takes its value. -/
def Access.names (a : Access) (k : Nat) : Bool := a.lane == k || (a.gid == k / 64 && has a.lanes (k % 64))
/-- An atomic of the lane, sent before access `below`, is still on its way to the line (R345, R362). -/
def ownAtom (s : State) (k line : Nat) (below : Option Nat) : Bool :=
  s.atoms.any fun e => e.2.pa / 64 == line && !e.2.inSpm && (e.2.ops.any fun o => o.names k) &&
    (match below with
     | some i => decide (e.1 < i)
     | none => true)
/-- A fill that the lane waits for is on its way to the line on the path: a later load of the lane is served behind it (R345). -/
def ownFill (s : State) (k path line : Nat) (below : Option Nat) : Bool :=
  s.acc.any fun e => e.2.lane == k && e.2.kind == .fill path && e.2.pa / 64 == line &&
    (match below with
     | some i => decide (e.1 < i)
     | none => true)
/-- An atomic or reduction of the lane is on its way to bytes of a bank (R345). -/
def ownSpmAtom (s : State) (k key n : Nat) : Bool :=
  s.atoms.any fun e => e.2.inSpm && (e.2.ops.any fun o => o.lane == k) && decide (e.2.pa < key + n) && decide (key < e.2.pa + e.2.size)
/-- The value that a load finds without going to a home: its lines' copy (R272), or none. -/
def loadHit (s : State) (x : Ctx) (op : LoadOp) (k pa n : Nat) (p : Page) (f : Nat) : Option (List Byte) :=
  match op.path with
  | none => none
  | some path =>
    if ownAtom s k (pa / 64) none || ownFill s k path (pa / 64) none then none
    else if f = 8 then (l1Hit s x.pair path pa p).bind fun l => if l.fresh = 0 then none else some (leBytes 2 l.header.toNat)
    else l1Read s x.pair path pa n p
/-- Cache class last-use invalidates a clean line after the read (R272). -/
def lastUse (s : State) (pair path pa : Nat) (p : Page) : State :=
  match s.l1.get? (l1Key pair path (pa / 64) p.tag) with
  | some l => if l.dmask = 0 then { s with l1 := s.l1.del (l1Key pair path (pa / 64) p.tag) } else s
  | none => s
/-- A host access that fails: the lanes raise XLATE detail 3 once it has completed (R281). -/
def Ctx.hostFault (x : Ctx) (s : State) (a : Access) (m : BitVec 64) (va n : Nat) (write : Bool) : State :=
  x.raiseAll (sendAcc s { a with kind := .failed, lanes := 0 }) m (x.accFault ⟨8, 3, va⟩ n write)

/-- One execution of a load: the lane whose operands are used and the lanes that take the value. -/
def loadOne (x : Ctx) (op : LoadOp) (d a f cls : Nat) (acq promote : Bool) (s : State) (c : Nat × BitVec 64) : State :=
  let k := x.lk c.1
  let va := x.va k a
  let n := if f = 8 then 2 else kindBytes f
  let al := if f = 8 then 0 else n
  let acqs := if acq then (lanesOf c.2).map x.lk else []
  let inTxn := (laneAt s k).txn.isSome && !inWindow va
  let give (s : State) (bs : List Byte) : State := x.send s (x.spread c.2 (loadRegs f d bs)) acqs
  if inTxn && doomed s k then give s (rep n 0)
  else match placeOf s x.g va al false (op.win && !promote) with
    | .error e =>
      if inTxn then
        let (bs, s) := freeBytes n s
        give (doom s k 9 (causeOf e.cls x.origin e.detail)) bs
      else x.raiseAll s c.2 (x.accFault e n false)
    | .ok (.spm key) => if spmPoisoned s key n then x.raiseAll s c.2 (x.fi 20 1 (key / 32768 % 32)) else give s (spmBytes s key n)
    | .ok (.mem pa p) =>
      let acc : Access :=
        { kind := .readHome, tok := x.tok, gid := x.gid, lane := k, pair := x.pair, dom := p.dom, arena := p.arena, gen := p.gen,
          pa := if f = 8 then pa / 64 * 64 else pa, size := n, lkind := f, reg := d, lanes := c.2, acq := acq, promote := promote, cc := cls }
      if inTxn then
        if poisoned s pa then
          let (bs, s) := freeBytes n s
          give (doom s k 9 (causeOf 20 x.origin 0)) bs
        else
          let r := hostFails s pa
          if r.1 then
            let (bs, s) := freeBytes n r.2
            give (doom s k 9 (causeOf 8 x.origin 3)) bs
          else sendAcc r.2 { acc with kind := .txRead }
      else match (if promote then none else loadHit s x op k pa n p f) with
        | some bs =>
          let s := give (l1Use s x.pair (op.path.getD 0) (pa / 64) p.tag) bs
          if cls = 3 then lastUse s x.pair (op.path.getD 0) pa p else s
        | none =>
          if poisoned s pa then x.raiseAll s c.2 (x.fi 20 0 (va / 64 * 64))
          else
            let r := hostFails s pa
            if r.1 then x.hostFault r.2 acc c.2 va n false
            else
              let s := if acq then acqs.foldl (fun t q => modLane t q fun y => { y with held := .result }) r.2 else r.2
              sendAcc s { acc with kind := match op.path with
                | some path => .fill path
                | none => .readHome }

/-- The addresses of a word's executions. -/
def Ctx.vas (x : Ctx) (a : Nat) : List Nat := x.acts.map fun c => x.va (x.lk c.1) a
/-- Those that an access of `n` bytes passes on to translation: a misaligned one touches no TLB (R286). -/
def Ctx.alignedVas (x : Ctx) (a n : Nat) : List Nat := (x.vas a).filter fun va => va % n == 0
/-- An access of some execution to a bank must follow an atomic of its lane that is on its way there (R345). -/
def Ctx.behindSpmAtom (x : Ctx) (s : State) (a n : Nat) : Bool :=
  x.acts.any fun c => match placeOf s x.g (x.va (x.lk c.1) a) 0 false true with
    | .ok (.spm key) => ownSpmAtom s (x.lk c.1) key n
    | _ => false
/-- An `mld` or `mst` for which the lane signed is still moving a byte of a range, in banks or in memory: a later access of the lane comes
after it (R325). -/
def ownMat (s : State) (gid l : Nat) (spm : Bool) (a n : Nat) : Bool :=
  s.mops.any fun e => e.2.gid == gid && has e.2.signed l && e.2.locs.any fun o =>
    o.2.1.isNone == spm && decide (o.2.2 < a + n) && decide (a < o.2.2 + (if fld e.2.word 0 1 = 1 then 8 else 4))
/-- An access of some execution must follow such an operation. -/
def Ctx.behindMat (x : Ctx) (s : State) (a n : Nat) : Bool :=
  x.acts.any fun c => (c.1 :: lanesOf c.2).any fun l => match placeOf s x.g (x.va (x.lk c.1) a) 0 false true with
    | .ok (.spm key) => ownMat s x.gid l true key n
    | .ok (.mem pa _) => ownMat s x.gid l false pa n
    | _ => false
/-- The body of a load word. -/
def loadBody (op : LoadOp) (d a f cls : Nat) (x : Ctx) (s : State) : State :=
  let n := if f = 8 then 1 else kindBytes f
  x.translated s (x.alignedVas a n) fun t =>
    if x.behindSpmAtom t a n || x.behindMat t a n then x.wait t
    else x.acts.foldl (fun u c => loadOne x op d a f cls (x.o.mode == 1) x.o.comm u c) t

/-- ld (R289): the load-store path, or the scratchpad bank. -/
def execLd (q : Qual) (d a : BitVec 6) (slot : BitVec 3) (k : BitVec 2) (f : BitVec 4) (s : State) : Out :=
  runWord (.ld q d a slot k f) (loadBody ⟨some 0, true⟩ d.toNat a.toNat f.toNat k.toNat) s
/-- ldc (R289): the constant path; the window raises XLATE 0x086. -/
def execLdc (q : Qual) (d a : BitVec 6) (slot : BitVec 3) (k : BitVec 2) (f : BitVec 4) (s : State) : Out :=
  runWord (.ldc q d a slot k f) (loadBody ⟨some 1, false⟩ d.toNat a.toNat f.toNat k.toNat) s
/-- ldt (R290): the tile-layout path; `.hdr` reads the header of the block. -/
def execLdt (q : Qual) (d a : BitVec 6) (slot : BitVec 3) (k : BitVec 2) (f : BitVec 4) (s : State) : Out :=
  runWord (.ldt q d a slot k f) (loadBody ⟨some 2, false⟩ d.toNat a.toNat f.toNat k.toNat) s
/-- ldnc (R289): the home slice, whatever the L1 holds. -/
def execLdnc (q : Qual) (d a : BitVec 6) (slot : BitVec 3) (k : BitVec 2) (f : BitVec 3) (s : State) : Out :=
  runWord (.ldnc q d a slot k f) (loadBody ⟨none, true⟩ d.toNat a.toNat f.toNat k.toNat) s

/-! ### Stores (R293) -/

/-- The page tag that an access carries. (DEDUCED, log 7) -/
def accPage (a : Access) : Page := ⟨0, 0, a.dom, a.arena, a.gen, true⟩
/-- The value that a fill would answer now. -/
def fillValue (s : State) (a : Access) (path : Nat) : List Byte :=
  let l := filledLine s a.pair path a.pa (accPage a)
  if a.lkind = 8 then leBytes 2 l.header.toNat else (upTo (a.pa % 64) a.size).map fun o => l.data.rd o
/-- A lane writes bytes on the load-store path: its earlier loads of them that are still on their way take their value now, so that none
returns the later write (R345, R350). (DESIGN CHOICE, log 21) -/
def fixLoads (s : State) (k pa n : Nat) : State :=
  { s with acc := s.acc.map fun (e : Nat × Access) =>
      if e.2.lane = k ∧ e.2.kind = .fill 0 ∧ e.2.got = none ∧ e.2.pa < pa + n ∧ pa < e.2.pa + e.2.size then
        (e.1, { e.2 with got := some (fillValue s e.2 0) })
      else e }
/-- One execution of a store. `nc` is `stnc`; `rel` writes through. -/
def storeOne (x : Ctx) (nc rel : Bool) (d a f cls : Nat) (s : State) (c : Nat × BitVec 64) : State :=
  let k := x.lk c.1
  let va := x.va k a
  let n := kindBytes f
  let bs := storeBytes x.rs k d n
  let inTxn := (laneAt s k).txn.isSome && !inWindow va
  if inTxn && doomed s k then s
  else match placeOf s x.g va n true true with
    | .error e => if inTxn then doom s k 9 (causeOf e.cls x.origin e.detail) else x.raiseAll s c.2 (x.accFault e n true)
    | .ok (.spm key) => spmWrite s key bs
    | .ok (.mem pa p) =>
      let acc : Access :=
        { kind := if nc then .merge else .through, tok := x.tok, gid := x.gid, lane := k, pair := x.pair, dom := p.dom, arena := p.arena,
          gen := p.gen, pa := pa, size := n, bytes := bs, cc := cls }
      match (laneAt s k).txn with
      | some t =>
        (match joinLine t.writes pa p ((upTo (pa % 64) n).zip bs) with
        | some ws => modLane s k fun y => { y with txn := some { t with writes := ws } }
        | none => doom s k 8 0)
      | none =>
        let r := if nc || rel then hostFails s pa else (false, s)
        if r.1 then x.hostFault r.2 acc c.2 va n true
        else if nc then sendAcc r.2 acc
        else if rel then sendAcc (l1Write (fixLoads r.2 k pa n) x.pair 0 pa p bs false cls) acc
        else l1Write (fixLoads s k pa n) x.pair 0 pa p bs true cls
/-- The executions of a store that fail the checks of R286, with the fault; those of a transaction fail in it (R373). -/
def storeFails (x : Ctx) (a n : Nat) (s : State) : List (BitVec 64 × FaultInfo) :=
  x.acts.filterMap fun c =>
    let va := x.va (x.lk c.1) a
    if (laneAt s (x.lk c.1)).txn.isSome && !inWindow va then none
    else match placeOf s x.g va n true true with
      | .error e => some (c.2, x.accFault e n true)
      | .ok _ => none
/-- A store of some execution must wait for an earlier load of its lane to the same bytes: one whose line an engine owns, which returns the
engine's value (R284), or a transactional one, which has still to join the read set (R373). -/
def Ctx.behindLoad (x : Ctx) (s : State) (a n : Nat) : Bool :=
  x.acts.any fun c =>
    let k := x.lk c.1
    s.acc.any fun e => e.2.lane == k && (e.2.kind == .txRead || (e.2.kind == .fill 0 && e.2.got.isNone && engineOwned s (e.2.pa / 64))) &&
      match placeOf s x.g (x.va k a) 0 true true with
      | .ok (.mem pa _) => decide (e.2.pa < pa + n) && decide (pa < e.2.pa + e.2.size)
      | _ => false
/-- The body of a store word: the checks of R286, then a release makes its release part, then the stores (R293, R346). -/
def storeBody (nc : Bool) (d a f cls : Nat) (x : Ctx) (s : State) : State :=
  let n := kindBytes f
  x.translated s (x.alignedVas a n) fun t =>
    if x.behindSpmAtom t a n || x.behindMat t a n || (!nc && x.behindLoad t a n) then x.wait t
    else if x.o.mode = 2 then
      let bad := storeFails x a n t
      let t := bad.foldl (fun u e => x.raiseAll u e.1 e.2) t
      let y : Ctx := { x with go := bad.foldl (fun m e => m &&& ~~~e.1) x.go }
      if y.go = 0 then t else y.releasing t 2 fun u => y.acts.foldl (storeOne y nc true d a f cls) u
    else x.acts.foldl (storeOne x nc false d a f cls) t
/-- st (R293). -/
def execSt (q : Qual) (d a : BitVec 6) (slot : BitVec 3) (k : BitVec 2) (f : BitVec 4) (s : State) : Out :=
  runWord (.st q d a slot k f) (storeBody false d.toNat a.toNat f.toNat k.toNat) s
/-- stnc (R293): merges at the home slice; no L1 copy changes. -/
def execStnc (q : Qual) (d a : BitVec 6) (slot : BitVec 3) (k : BitVec 2) (f : BitVec 3) (s : State) : Out :=
  runWord (.stnc q d a slot k f) (storeBody true d.toNat a.toNat f.toNat k.toNat) s

/-! ### Prefetch (R294) -/

/-- One execution of a prefetch: the window raises XLATE 0x086, or DOMAIN 0x096 inside a gate (R139, R287); every other failure drops it
(R294). A miss of the TLB goes to the quadrant's service, as every miss does (R280). -/
def prefOne (x : Ctx) (path : Option Nat) (a cls : Nat) (s : State) (c : Nat × BitVec 64) : State :=
  let k := x.lk c.1
  let va := x.va k a
  if (laneAt s k).txn.isSome then s
  else if inWindow va then x.raiseAll s c.2 (x.accFault (if x.g.gate.isSome then ⟨9, 2, va⟩ else ⟨8, 2, va⟩) 0 false)
  else match placeOf s x.g va 0 false false with
    | .ok (.mem pa pg) =>
      let s := (unwalked s x.gid x.g [va]).foldl (startWalk x.gid x.g) s
      if poisoned s pa then s
      else sendAcc s { kind := match path with
                         | some p => .fill p
                         | none => .readHome, tok := 0, gid := x.gid, lane := noLane, pair := x.pair, dom := pg.dom, arena := pg.arena, gen := pg.gen, pa := pa / 64 * 64, size := 0, cc := cls }
    | _ => s
/-- pref.l1 (R294): the line goes to the pair's L1 on the path that `opx` names. -/
def execPrefL1 (q : Qual) (a : BitVec 6) (slot : BitVec 3) (k : BitVec 2) (s : State) : Out :=
  runWord (.prefL1 q a slot k) (fun x t => x.acts.foldl (prefOne x (some x.o.path.toNat) a.toNat k.toNat) t) s
/-- pref.home (R294): the line goes to its home slice. -/
def execPrefHome (q : Qual) (a : BitVec 6) (slot : BitVec 3) (k : BitVec 2) (s : State) : Out :=
  runWord (.prefHome q a slot k) (fun x t => x.acts.foldl (prefOne x none a.toNat k.toNat) t) s

/-! ### Fences (R295, R296) -/

/-- The lanes acquire at a scope. -/
def Ctx.acquire (x : Ctx) (s : State) (k : Nat) : State := acquireAt s x.pair x.g.stamp k
/-- The promotion part of a fence in one lane: a request at the line's home holds the lane until the pair that prm names has
flushed (R292, R295). -/
def promoteOne (x : Ctx) (a : Nat) (s : State) (l : Nat) : State :=
  match placeOf s x.g (x.va (x.lk l) a) 0 false false with
  | .ok (.mem pa p) =>
    let s := modLane s (x.lk l) fun y => { y with held := .result }
    sendAcc s { kind := .promote, tok := x.tok, gid := x.gid, lane := x.lk l, pair := x.pair, dom := p.dom, arena := p.arena, gen := p.gen, pa := pa, size := 0, acq := true, promote := true }
  | _ => s
/-- Lanes whose promoted address fails, with the fault (R295 step 3). -/
def promoteFails (x : Ctx) (a : Nat) (s : State) : List (Nat × FaultInfo) :=
  (lanesOf x.go).filterMap fun l =>
    match placeOf s x.g (x.va (x.lk l) a) 0 false false with
    | .error e => some (l, x.accFault e 0 false)
    | .ok _ => none
/-- fence (R295): wait, release part, promotion, acquire part. -/
def execFence (gd : Guard) (a : BitVec 6) (slot : BitVec 3) (k ord : BitVec 2) (s : State) : Out :=
  runWord (.fence gd a slot k ord) (fun x t =>
    let rel := if ord = 0 then 0 else k.toNat
    let acq (u : State) : State := if ord = 1 then u else x.acquire u k.toNat
    if x.o.comm then
      x.translated t ((lanesOf x.go).map fun l => x.va (x.lk l) a.toNat) fun u =>
        let bad := promoteFails x a.toNat u
        let u := bad.foldl (fun v e => x.raise v e.1 e.2) u
        let y : Ctx := { x with go := x.go &&& ~~~(maskOf (bad.map (·.1))) }
        if y.go = 0 then u
        else y.releasing u rel fun v => (lanesOf y.go).foldl (promoteOne y a.toNat) v
    else x.releasing t rel acq) s
/-- The fresh bits of a domain's copies on a path clear, sealed arenas spared (R296). -/
def clearPath (s : State) (pair dom path : Nat) : State :=
  { s with l1 := s.l1.map fun (e : Nat × L1Line) =>
      if keyPair e.1 = pair ∧ keyPath e.1 = path ∧ e.2.dom = dom ∧ !sealedWhole s e.2.arena e.2.gen then (e.1, { e.2 with fresh := 0 }) else e }
/-- pfence (R296). -/
def execPfence (gd : Guard) (p : BitVec 4) (slot : BitVec 3) (s : State) : Out :=
  runWord (.pfence gd p slot) (fun x t =>
    x.releasing t (if p.getLsbD 0 then 2 else 0) fun u =>
      ((upTo 0 3).filter fun i => p.getLsbD i).foldl (fun v i => clearPath v x.pair x.g.stamp i) u) s

/-! ### waita (R297) -/

/-- The condition of `waita`: 0 equal, 1 not equal, 2 unsigned at-least. -/
def waitaCond (c w v : Nat) : Bool := if c = 0 then w == v else if c = 1 then w != v else decide (v ≤ w)
/-- Lanes are held before the word, which they execute again when released (R297, R300). -/
def Ctx.hold (x : Ctx) (s : State) (m : BitVec 64) (h : Nat → Held) : State :=
  (lanesOf m).foldl (fun t l => modLane t (x.lk l) fun y => { y with pc := x.cur.pc, run := x.cur.run, held := h l }) s
/-- One execution of `waita`. -/
def waitaOne (x : Ctx) (c d a : Nat) (s : State) (e : Nat × BitVec 64) : State :=
  let k := x.lk e.1
  let va := x.va k a
  if va % 8 ≠ 0 then x.raiseAll s e.2 (x.accFault ⟨7, 0, va⟩ 8 false)
  else if !inWindow va then x.raiseAll s e.2 (x.accFault ⟨8, 2, va⟩ 8 false)
  else match windowPlace s x.g va true with
    | .ok (.spm key) =>
      let w := leNat (spmBytes s key 8)
      if spmPoisoned s key 8 then x.raiseAll s e.2 (x.fi 20 1 (key / 32768 % 32))
      else if waitaCond c w (vpair x.rs k d).toNat then
        x.send (x.acquire s 2) (x.spread e.2 (pairWrites d (BitVec.ofNat 64 w)))
      else x.hold s e.2 fun _ => .waita (key / 2 ^ 20) (key / 2 ^ 15 % 32) (key % 2 ^ 15) x.tok
    | .error f => x.raiseAll s e.2 (x.accFault f 8 false)
    | .ok (.mem _ _) => s
/-- The lanes of the group that still wait at this word wait under the token of its new issue, so that the slot clears only when the last
result is written (R30, R287); scoreboard entries of which nothing is left go. -/
def waitaAdopt (x : Ctx) (s : State) : State :=
  let s := { s with lanes := s.lanes.map fun (e : Nat × Lane) => match e.2.held with
      | .waita c b o _ => if e.1 / 64 = x.gid ∧ e.2.pc = x.cur.pc then (e.1, { e.2 with held := .waita c b o x.tok }) else e
      | _ => e }
  (s.board.filter fun p => p.gid == x.gid && p.due.isNone && p.tok != x.tok).foldl (fun t p => retireTok t x.gid p.tok) s
/-- waita (R297). It follows the atomics and matrix stores of its lanes to the bytes (R325, R345). -/
def execWaita (q : Qual) (d a : BitVec 6) (slot : BitVec 3) (c : BitVec 2) (s : State) : Out :=
  runWord (.waita q d a slot c) (fun x t =>
    if x.behindSpmAtom t a.toNat 8 || x.behindMat t a.toNat 8 then x.wait t else x.acts.foldl (waitaOne x c.toNat d.toNat a.toNat) (waitaAdopt x t)) s

/-! ### HOME_SLICE_ACCESS (R344) -/

/-- The access may be served as far as its own line goes: what it waits for is gone, its line is not owned, and earlier accesses it must
follow are done (R284, R345); of the lanes of one word the lower comes first (R287). A prefetch of an owned line is dropped (R294). -/
def lineReady (s : State) (i : Nat) (a : Access) : Bool :=
  let line := a.pa / 64
  !(a.deps.any fun d => (s.acc.get? d).isSome) && (!engineOwned s line || a.size == 0 && a.kind != .promote) &&
  (match a.kind with
   | .merge | .readHome => !ownAtom s a.lane line (some i) &&
      !(s.acc.any fun e => decide (e.1 < i) && (e.2.lane == a.lane || e.2.tok == a.tok) && e.2.pa / 64 == line && (e.2.kind == .merge || e.2.kind == .readHome))
   | .writeBack _ => !throughOpen s a.pair line none && !atomOpen s a.pair line (some i)
   | .through | .victim _ => !throughOpen s a.pair line (some i) && !atomOpen s a.pair line (some i)
   | .fill path => !ownAtom s a.lane line (some i) && !ownFill s a.lane path line (some i) &&
      (path != 0 || !(s.acc.any fun e => e.2.pair == a.pair && e.2.pa / 64 == line && (match e.2.kind with
        | .victim _ => true
        | _ => false)))
   | _ => true)
/-- The access travels as a packet of the request class from its pair to a home slice (Table 19-1). -/
def isRequest (a : Access) : Bool :=
  decide (a.pair < noPair) && match a.kind with
    | .fill _ | .readHome | .txRead | .merge | .through | .writeBack _ | .victim _ => true
    | _ => false
/-- Two addresses have one home slice under the newest map, where a forwarding stub sends requests of an older epoch too (R386, R389). -/
def sameHome (s : State) (a b : Nat) : Bool := homeNo (sliceHome s a) == homeNo (sliceHome s b)
/-- An earlier request of the same pair is on its way to the same slice and arrives first (R386). One whose line holds it back has arrived
already. -/
def requestBefore (s : State) (i : Nat) (a : Access) : Bool :=
  isRequest a && ((s.acc.any fun e => decide (e.1 < i) && isRequest e.2 && e.2.pair == a.pair && sameHome s e.2.pa a.pa && lineReady s e.1 e.2) ||
    s.atoms.any fun e => decide (e.1 < i) && !e.2.inSpm && e.2.buffered.isNone && e.2.pair == a.pair && sameHome s e.2.pa a.pa &&
      !(e.2.deps.any fun d => (s.acc.get? d).isSome) && !engineOwned s (e.2.pa / 64) && e.2.asked.isNone)
/-- The access may be served: its line is ready for it and no earlier request is before it on its route. -/
def accReady (s : State) (i : Nat) (a : Access) : Bool := lineReady s i a && !requestBefore s i a
/-- The prm entry of another pair, which a promotion at a line must have flush (R292, R355). -/
def promotionPair (s : State) (line pair : Nat) : Option Nat :=
  match s.prm.get? line with
  | some v => if v % 128 = pair then none else some v
  | none => none
/-- Lanes that a result releases, with its acquire at a scope (R274, R289, R346). -/
def releaseResult (s : State) (ks : List Nat) (scope : Nat := 2) : State :=
  ks.foldl (fun t k =>
    let t := match t.groups.get? (k / 64) with
      | some g => acquireAt t (pairOf g.core) g.stamp scope
      | none => t
    modLane t k fun y => if y.held = .result then { y with held := .none } else y) s
/-- The access without its entry. -/
def dropAcc (s : State) (i : Nat) : State := { s with acc := s.acc.del i }
/-- A value for the lanes of an access, as a result on its way. -/
def answer (s : State) (a : Access) (bs : List Byte) : State :=
  if a.lanes = 0 then s
  else
    let ks := (lanesOf a.lanes).map (lk a.gid)
    let r : Result :=
      { tok := a.tok, gid := a.gid, regs := ks.flatMap fun k => (loadRegs a.lkind a.reg bs).map fun r => (k, r.1, r.2), acq := if a.acq then ks else [] }
    { (fresh s).2 with results := s.results.put (fresh s).1 r }
/-- The tag of an access is gone: its arena has been dropped since (R161). -/
def tagGone (s : State) (a : Access) : Bool :=
  arenaState s a.arena a.gen != .live && arenaState s a.arena a.gen != .sealed
/-- The reads in flight under a tag that a drop takes have reached their caches before the drop point, and return what stands there
(R160, R161). One that a line holds back reaches the parent's zero state. (DEDUCED, log 7) -/
def freezeReads (s : State) (gone : Nat → Nat → Bool) : State :=
  { s with acc := s.acc.map fun (e : Nat × Access) =>
      if gone e.2.arena e.2.gen && lineReady s e.1 e.2 then
        match e.2.kind with
        | .fill path => (e.1, { e.2 with kind := .answered, got := some (e.2.got.getD (fillValue s e.2 path)) })
        | .readHome => (e.1, { e.2 with kind := .answered, got := some (homeBytes s e.2.tag e.2.pa e.2.size) })
        | _ => e
      else e }
/-- An access that its home serves. A read that reaches a line poisoned meanwhile had its value before the error, and leaves no copy; a
prefetch is then dropped. (DEDUCED, log 42) A read whose arena has been dropped finds the zero state, and a store is discarded (R161). -/
def serveAcc (s : State) (i : Nat) (a : Access) : State :=
  let line := a.pa / 64
  let p := accPage a
  let done (s : State) : State := retireTok (dropAcc s i) a.gid a.tok
  match a.kind with
  | .fill path =>
    let bs := a.got.getD (fillValue s a path)
    if engineOwned s line then done s
    else if tagGone s a then done (answer s a (rep a.size 0))
    else
      let s := if poisoned s a.pa then s else l1Fill s a.pair path a.pa p a.tc a.cc
      let s := answer s a bs
      done (if a.cc = 3 then lastUse s a.pair path a.pa p else s)
  | .readHome =>
    if engineOwned s line then done s
    else if tagGone s a then done (answer s a (rep a.size 0))
    else
      let bs := homeBytes s a.tag a.pa a.size
      done (answer (if poisoned s a.pa then s else touchRead s a.pair a.tc a.cc a.tag line) a bs)
  | .answered => done (answer s a (a.got.getD []))
  | .txRead =>
    if doomed s a.lane then done (answer s a (rep a.size 0))
    else if tagGone s a then done (answer (doom s a.lane 9 (causeOf 10 1 0)) a (rep a.size 0))
    else
      let bs := match (laneAt s a.lane).txn with
        | some t => txBytes s t a.pa a.size p
        | none => homeBytes s a.tag a.pa a.size
      done (answer (touch (txReadHome s a.lane a.pa a.size p) a.tc 0 a.tag line false) a bs)
  | .merge => done (if tagGone s a then s else mergeHome s a.tc a.cc a.tag a.pa a.bytes)
  | .through => done (if tagGone s a then s else mergeHome s a.tc a.cc a.tag a.pa a.bytes)
  | .writeBack path => done (writeBack s (l1Key a.pair path line a.tag))
  | .victim l => done (mergeLine s a.pair line l)
  | .hostBack => done (hostWrite s (hostKey line a.tag))
  | .promote => done (releaseResult s [a.lane])
  | .failed => done s
/-- A promotion that finds another pair named asks that pair to flush first; when that flush is done and no release has named a pair
anew, prm becomes invalid and the request is answered (R292, R355). -/
def serveRequest (s : State) (i : Nat) (a : Access) : State :=
  let line := a.pa / 64
  if !a.promote then serveAcc s i a
  else match promotionPair s line a.pair with
    | none => serveAcc s i a
    | some v =>
      if a.asked = some v then serveAcc { s with prm := s.prm.del line } i a
      else
        let f := startFlush s a.gid noLane (v % 128) a.dom 2
        if f.1 = [] then serveAcc { f.2 with prm := f.2.prm.del line } i a
        else { f.2 with acc := f.2.acc.put i { a with deps := f.1, asked := some v } }
/-- A slice takes a replica of a sealed line homed elsewhere, as a demand fill (R279). -/
def takeReplica (s : State) (slice line tag : Nat) : Option State :=
  let home := homeNo (sliceHome s (line * 64))
  if slice < 128 ∧ slice ≠ home ∧ (sliceWay s home line tag).isSome ∧ sealedWhole s (tagArena tag) (tagGen tag) ∧ (sliceWay s slice line tag).isNone then
    some (sliceInsert s slice line tag 0 0 .replica)
  else none
/-- HOME_SLICE_ACCESS (R344): a request reaches its home, a pair writes a dirty line back, or a line is evicted or replicated. Copies and
slice lines may also leave for fills that the manual does not name (page tables, Jasper's frames). (DESIGN CHOICE, log 22) -/
def execHomeSliceAccess (what : HomeAccess) (s : State) : Out :=
  let no : Out := .refused (.notEnabled "HOME_SLICE_ACCESS")
  match what with
  | .request i =>
    match s.acc.get? i with
    | some a => if accReady s i a then .next (serveRequest s i a) else no
    | none => no
  | .writeBack key =>
    match s.l1.get? key with
    | some l => if l.dmask ≠ 0 ∧ wbReady s (keyPair key) (keyLine key) then .next (writeBack s key) else no
    | none => no
  | .evict key => if (s.l1.get? key).isSome then .next (l1Evict s key) else no
  | .evictSlice key => if (s.slices.get? key).isSome then .next (sliceEvict s key) else no
  | .replicate slice line tag =>
    match takeReplica s slice line tag with
    | some t => .next t
    | none => no

/-! ### DEPENDENCY_SLOT_CLEAR and TRANSLATION_WALK -/

/-- A register result is superseded by a covered write that did not wait for it (R201 detail 2). -/
def clashes (s : State) (tok gid k r : Nat) : Bool :=
  s.board.any fun p => p.tok == tok && p.gid == gid && p.clash.contains (k * 128 + r)
/-- Write one register of a result into a lane, or into its image when it is saved (R439); where a covered word has written the register since,
either value stays. -/
def writeResult (tok gid : Nat) (s : State) (r : Nat × Nat × Word) : State :=
  if !laneLive s r.1 then imageVreg s r.1 r.2.1 r.2.2
  else if clashes s tok gid r.1 r.2.1 then
    let (b, s) := takeBit s
    if b then setVreg s r.1 r.2.1 r.2.2 else s
  else setVreg s r.1 r.2.1 r.2.2
/-- DEPENDENCY_SLOT_CLEAR (R30): a variable-latency result is written; the slot clears with the word's last one. -/
def execDependencySlotClear (res : Nat) (s : State) : Out :=
  match s.results.get? res with
  | none => .refused (.notEnabled "DEPENDENCY_SLOT_CLEAR")
  | some r =>
    let s := { s with results := s.results.del res }
    if voided s r.gid r.tok then .next (retireTok s r.gid r.tok)
    else
    let s := r.regs.foldl (writeResult r.tok r.gid) s
    let s := r.preds.foldl (fun t p => latePreg t p.1 p.2.1 p.2.2) s
    let s := r.fp.foldl (fun t e => modLane t e.1 fun y => { y with fpstat := fpFlags y.fpstat e.2 }) s
    let s := releaseResult s r.acq r.scope
    let s := retireTok s r.gid r.tok
    -- R234, R250: the lanes that waited at a word of major 0x12 take their events as faults
    .next (r.traps.foldl (fun t k => match (laneAt t k).held with
      | .faultSlot f w next pc => takeFault (endCover t r.gid) r.gid (k % 64) f pc next w
      | _ => t) s)
/-- A new entry of a quadrant's service, the oldest leaving when all are in use (R280). (DESIGN CHOICE, log 22) -/
def serviceAdd (s : State) (e : TlbEntry) : State :=
  let mine := s.service.filter fun t => t.pair == e.pair
  { s with service := e :: if mine.length < Config.serviceEntries then s.service else s.service.filter fun t => some t != mine.getLast? }
/-- The line of Jasper's tables that a walk reads for an address of a domain: the entry of 8 bytes of its page in one of the function's
table frames (R267, R280). (DESIGN CHOICE, log 34) -/
def walkLine (s : State) (dom page : Nat) : Option Nat :=
  let fs := s.frames.filter fun f => f.use == .table && some f.func == funcOfDom s dom
  (fs[page / 8192 % fs.length]?).map fun f => (f.pa + page % 8192 * 8) / 64
/-- The walk's read is a fill of the translation class at the line's home slice (R277, R280). -/
def walkFill (s : State) (dom page : Nat) : State :=
  match walkLine s dom page with
  | some line => touch s 4 0 (tagNo dom 0 0) line false
  | none => s
/-- TRANSLATION_WALK (R280, R420): a walk reads the tables and answers every miss that waits on its page. -/
def execTranslationWalk (walk : Nat) (s : State) : Out :=
  match s.walks.get? walk with
  | none => .refused (.notEnabled "TRANSLATION_WALK")
  | some w =>
    let s := walkFill { s with walks := s.walks.del walk } w.dom w.page
    match (pageAt s w.dom (w.page * Config.page)).filter fun e => !entryPoisoned s w.dom e.1 with
    | some (base, p) =>
      let pairs := dedup (w.waiters.filterMap fun g => (s.groups.get? g).map fun y => pairOf y.core)
      .next (pairs.foldl (fun t pr => tlbAdd t ⟨pr, w.dom, base, p.size⟩) (serviceAdd s ⟨w.quad, w.dom, base, p.size⟩))
    | none => .next { s with noPage := s.noPage ++ w.waiters.map fun g => (g, w.dom, w.page) }

end Sys2Proof.Machine
end

