-- ==== Sys2Proof/Machine/Arenas.lean ====
section
/-!
DEFINITION. Arenas: handles, carving and bumping, the five words of major 0x29 (R143 to R166), and the events by which seals and
drops take their course.
-/
namespace Sys2Proof.Machine

/-! ### Handles and numbers -/

/-- The descriptor of a number; an unlisted number is free at generation 0 (R143). -/
def arenaAt (s : State) (n : Nat) : Arena := (s.arenas.get? n).getD {}
/-- Change the descriptor of a number. -/
def modArena (s : State) (n : Nat) (f : Arena → Arena) : State := { s with arenas := s.arenas.put n (f (arenaAt s n)) }
/-- The number that a handle names (R143). -/
def handleNo (h : Word) : Nat := fld h 0 12
/-- The handle of a number. -/
def handleOf (s : State) (n : Nat) : Word := BitVec.ofNat 32 ((arenaAt s n).gen * 4096 + n)
/-- The number is live, sealed or draining. -/
def arenaLives (a : Arena) : Bool := a.state == .live || a.state == .sealed || a.state == .draining
/-- The handle matches a number of the domain, in a state that `aqry` reports (R155). -/
def handleMatches (s : State) (dom : Nat) (h : Word) : Bool :=
  let a := arenaAt s (handleNo h)
  fld h 16 16 == 0 && arenaLives a && a.gen == fld h 12 4 && a.dom == dom
/-- check_handle (R150): the handle is current (R143). -/
def handleCurrent (s : State) (dom : Nat) (h : Word) : Bool :=
  handleMatches s dom h && (arenaAt s (handleNo h)).state != .draining
/-- The children of a number that are live, sealed or draining (R155, R163). -/
def childrenOf (s : State) (n : Nat) : List Nat :=
  let d := (arenaAt s n).dom
  (s.arenas.filter fun e => e.2.depth != 0 && e.2.parent == n && e.2.dom == d && arenaLives e.2).map (·.1)
/-- A number with its descendants, parents first; the depth of a tree is at most 7 (R145). -/
def subtree (s : State) : Nat → Nat → List Nat
  | 0, n => [n]
  | d + 1, n => n :: (childrenOf s n).flatMap (subtree s d)
/-- Numbers that a domain holds besides its root: live, sealed, draining or waiting to be recycled (R146). -/
def numbersHeld (s : State) (dom : Nat) : Nat :=
  (s.arenas.filter fun e => e.2.dom == dom && e.2.state != .free && !(s.funcs.any fun f => f.2.root == some e.1)).length
/-- The lowest free number. -/
def lowestFree (s : State) : Option Nat := (upTo 0 Config.arenas).find? fun n => (arenaAt s n).state == .free

/-! ### Pages of a range (R147, R159) -/

/-- The mapped pages of a domain that overlap a virtual range, with their first addresses. -/
def rangePages (s : State) (dom base len : Nat) : List (Nat × Page) :=
  s.pages.filterMap fun e =>
    if e.1 / 2 ^ 57 = dom ∧ e.1 % 2 ^ 57 < base + len ∧ base < e.1 % 2 ^ 57 + e.2.size then some (e.1 % 2 ^ 57, e.2) else none
/-- A page that a range cuts is replaced by 64 KiB pages with the same frames (R147). -/
def splitPage (dom base len : Nat) (s : State) (e : Nat × Page) : State :=
  if base ≤ e.1 ∧ e.1 + e.2.size ≤ base + len then s
  else
    let small := (upTo 0 (e.2.size / Config.page)).foldl (fun (t : Tab Page) i =>
      t.put (pageKey dom (e.1 + i * Config.page)) { e.2 with size := Config.page, pa := e.2.pa + i * Config.page }) (s.pages.del (pageKey dom e.1))
    { s with pages := small }
/-- Pages of a range cut to it. -/
def splitRange (s : State) (dom base len : Nat) : State := (rangePages s dom base len).foldl (splitPage dom base len) s
/-- The pages of a range take a tag. -/
def retagRange (s : State) (dom base len arena : Nat) : State :=
  let gen := (arenaAt s arena).gen
  (rangePages s dom base len).foldl (fun t e => { t with pages := t.pages.put (pageKey dom e.1) { e.2 with arena := arena, gen := gen } }) s
/-- The frames of a range are marked zero (R159). -/
def zeroPages (s : State) (dom base len : Nat) : State :=
  (rangePages s dom base len).foldl (fun t e => zeroRange t e.2.pa e.2.size) s
/-- Every tag array. -/
def allPlaces : BitVec 256 := BitVec.allOnes 256
/-- A tag array's filter has room for an entry (R158). -/
def filterRoom (s : State) (place : Nat) : Bool := decide ((s.filters.filter fun e => e.left.getLsbD place).length < Config.filterEntries)
/-- The tag arrays whose filters have room. -/
def roomMask (s : State) : BitVec 256 :=
  if s.filters.length < Config.filterEntries then allPlaces
  else (upTo 0 256).foldl (fun m p => if filterRoom s p then m ||| BitVec.ofNat 256 (2 ^ p) else m) 0
/-- An entry goes to every tag array: a full filter takes it once one of its entries has retired (R157, R158). -/
def addFilter (s : State) (arena gen : Nat) (ranges : List (Nat × Nat)) : State :=
  { s with filters := s.filters ++ [⟨arena, gen, ranges, roomMask s, ~~~roomMask s⟩] }
/-- An entry of a carve goes to every tag array that has room for it; in the others its lines are invalidated at once (R151, R158).
(DESIGN CHOICE, log 26) -/
def addRangeFilter (s : State) (arena gen : Nat) (ranges : List (Nat × Nat)) : State :=
  let m := roomMask s
  let hit (line : Nat) : Bool := ranges.any fun r => decide (r.1 ≤ line * 64) && decide (line * 64 < r.1 + r.2)
  let t := { s with filters := s.filters ++ [⟨arena, gen, ranges, m, 0⟩] }
  if m = allPlaces then t
  else
    let t := { t with l1 := t.l1.filter fun l => m.getLsbD (keyPair l.1) || !(l.2.arena == arena && l.2.gen == gen && hit (keyLine l.1)),
                      filters := t.filters.filter fun e => e.left != 0 || e.todo != 0 }
    sliceDrop t fun line tag => !m.getLsbD (128 + homeNo (sliceHome t (line * 64))) && tagArena tag == arena && tagGen tag == gen && hit line
/-- Every array has taken the entries of the arenas (R157 step 2). -/
def filtersTaken (s : State) (ns : List Nat) : Bool := s.filters.all fun e => !ns.contains e.arena || e.todo == 0
/-- The L1 line of a table key matches a filter entry whose pair has not been swept (R158). -/
def filterHits (e : FilterEntry) (l : Nat × L1Line) : Bool :=
  e.left.getLsbD (keyPair l.1) && e.arena == l.2.arena && e.gen == l.2.gen &&
    (e.ranges == [] || e.ranges.any fun r => decide (r.1 ≤ keyLine l.1 * 64) && decide (keyLine l.1 * 64 < r.1 + r.2))
/-- The entries end with their lines invalidated, in every L1 and slice. -/
def retireFilters (s : State) (p : FilterEntry → Bool) : State :=
  let gone := s.filters.filter p
  let t := { s with l1 := s.l1.filter fun l => !(gone.any fun e => filterHits e l), filters := s.filters.filter fun e => !p e }
  if gone = [] then t
  else sliceDrop t fun line tag => filtered { s with filters := gone } (128 + homeNo (sliceHome s (line * 64))) (tagArena tag) (tagGen tag) line

/-! ### Carving and bumping (R148, R151, R152) -/

/-- Bump by `n` at alignment `al`: the address and the descriptor after, or the QUOTA detail. -/
def bumpArena (a : Arena) (n al : Nat) : Except Nat (Nat × Arena) :=
  let at' := alignUp a.bump al
  if a.rangeEnd < at' + n then .error 1
  else if a.quota < a.charge + (at' - a.bump) + n then .error 0
  else .ok (at', { a with charge := a.charge + (at' - a.bump) + n, bump := at' + n })
/-- What an arena word raises: class and detail. -/
abbrev ArenaFail := Nat × Nat
/-- The checks and the carve of `anew` (R151): the parent, the child's number, the parent after and the base. -/
def anewPlan (s : State) (dom : Nat) (h : Word) (q : Nat) : Except ArenaFail (Nat × Nat × Arena × Nat) :=
  if q = 0 ∨ q % 65536 ≠ 0 ∨ 2 ^ 48 ≤ q then .error (1, 2)
  else if descPoisoned s (handleNo h) then .error (20, 2)
  else if !handleCurrent s dom h then .error (10, 1)
  else
    let p := arenaAt s (handleNo h)
    if p.state = .sealed then .error (10, 2)
    else if p.depth = 7 then .error (11, 2)
    else if Config.numbersPerDomain ≤ numbersHeld s p.dom then .error (11, 3)
    else match bumpArena p q Config.page with
      | .error d => .error (11, d)
      | .ok (base, p') => match lowestFree s with
        | some c => .ok (handleNo h, c, p', base)
        | none => .error (11, 3)
/-- A child of quota `q` at `base`: the parent's copies of the range are discarded, the range is zero and carries its tag. The
child's descriptor is written whole (R465). -/
def carve (s : State) (p c : Nat) (p' : Arena) (base q : Nat) : State :=
  let old := arenaAt s p
  let s := { s with arenas := s.arenas.put p p' }
  let s := modArena s c fun a =>
    { a with state := .live, dom := old.dom, depth := old.depth + 1, parent := p, quota := q, charge := 0, base := base, rangeEnd := base + q, bump := base }
  let s := splitRange s old.dom base q
  let line := ((descRegion s).1 + 64 * c) / 64
  let s := if descPoisoned s c then { s with poison := s.poison.filter (· != line) } else s
  let pgs := (rangePages s old.dom base q).map fun e => (e.2.pa, e.2.size)
  retagRange (zeroPages (if pgs = [] then s else addRangeFilter s p old.gen pgs) old.dom base q) old.dom base q c
/-- An engine operation, or a posted receive, whose destination overlaps a range has not completed (R151). -/
def rangeOwned (s : State) (dom base len : Nat) : Bool :=
  (s.engs.any fun o => o.2.dom == dom && o.2.dests.any fun r => decide (r.1 < base + len) && decide (base < r.1 + r.2)) ||
  (s.recvs.any fun r => r.2.dom == dom && decide (r.2.addr < base + len) && decide (base < r.2.addr + r.2.greatest))
/-- The numbers of the pages of an `mld` or `mst` in flight. -/
def MatOp.arenas (o : MatOp) : List Nat := o.locs.filterMap fun l => l.2.1.map (·.arena)
/-- A write under a tag of the numbers is still on its way. -/
def tagWrites (s : State) (ns : List Nat) : Bool :=
  (s.acc.any fun e => ns.contains e.2.arena && (match e.2.kind with
    | .merge | .through | .victim _ | .writeBack _ => true
    | _ => false)) ||
  (s.atoms.any fun e => !e.2.inSpm && ns.contains e.2.arena) || (s.mops.any fun e => e.2.arenas.any fun a => ns.contains a)
/-- A read or prefetch under a tag is still on its way to a line of a range: served after the carve it would leave a copy there under the
parent's tag (R160). -/
def rangeReads (s : State) (dom arena base len : Nat) : Bool :=
  let pgs := rangePages s dom base len
  s.acc.any fun e => e.2.arena == arena && pgs.any fun p => decide (p.2.pa ≤ e.2.pa) && decide (e.2.pa < p.2.pa + p.2.size)
/-- Each execution of an arena word: a failure raised in its lanes, or a state and the registers its lanes receive. -/
def Ctx.arenaEach (x : Ctx) (s : State) (f : State → Nat → Except ArenaFail (State × List (Nat × Word))) : State :=
  x.acts.foldl (fun t a =>
    match f t (x.lk a.1) with
    | .error e => x.raiseAll t a.2 (x.fi e.1 e.2)
    | .ok (u, rs) => x.send u (x.spread a.2 rs)) s
/-- One `anew` (R151). -/
def anewOne (x : Ctx) (d : Nat) (s : State) (k : Nat) : Except ArenaFail (State × List (Nat × Word)) :=
  let q := (vpair x.rs k (d + 2)).toNat
  match anewPlan s x.g.stamp (vreg x.rs k d) q with
  | .error e => .error e
  | .ok (p, c, p', base) =>
    let t := carve s p c p' base q
    .ok (t, (d, handleOf t c) :: pairWrites (d + 2) (BitVec.ofNat 64 base))
/-- An `anew` must wait: an engine writes the range that it would carve, or an access under the parent's tag is still on its way there.
(DESIGN CHOICE, log 26) -/
def anewBlocked (x : Ctx) (d : Nat) (s : State) (k : Nat) : Bool :=
  let q := (vpair x.rs k (d + 2)).toNat
  match anewPlan s x.g.stamp (vreg x.rs k d) q with
  | .error _ => false
  | .ok (p, _, _, base) => rangeOwned s (arenaAt s p).dom base q || tagWrites s [p] || rangeReads s (arenaAt s p).dom p base q
/-- Some execution of an `anew`, after those before it, must wait. -/
def anewWaits (x : Ctx) (d : Nat) : List (Nat × BitVec 64) → State → Bool
  | [], _ => false
  | a :: t, s => anewBlocked x d s (x.lk a.1) || (match anewOne x d s (x.lk a.1) with
    | .error _ => anewWaits x d t s
    | .ok r => anewWaits x d t r.1)
/-- anew (R151): carves a child; waits while an engine writes the range. -/
def execAnew (q : Qual) (d : BitVec 6) (slot : BitVec 3) (s : State) : Out :=
  runWord (.anew q d slot) (fun x t =>
    if anewWaits x d.toNat x.acts t then x.wait t else x.arenaEach t (anewOne x d.toNat)) s
/-- One `alloc` (R152). -/
def allocOne (x : Ctx) (d : Nat) (s : State) (k : Nat) : Except ArenaFail (State × List (Nat × Word)) :=
  let h := vreg x.rs k d
  let al := (vreg x.rs k (d + 1)).toNat
  let n := (vpair x.rs k (d + 2)).toNat
  if 16 < al ∨ 2 ^ 48 ≤ n then .error (1, 2)
  else if descPoisoned s (handleNo h) then .error (20, 2)
  else if !handleCurrent s x.g.stamp h then .error (10, 1)
  else
    let a := arenaAt s (handleNo h)
    if a.state = .sealed then .error (10, 2)
    else match bumpArena a n (2 ^ al) with
      | .error e => .error (11, e)
      | .ok (at', a') => .ok ({ s with arenas := s.arenas.put (handleNo h) a' }, pairWrites (d + 2) (BitVec.ofNat 64 at'))
/-- alloc (R152). -/
def execAlloc (q : Qual) (d : BitVec 6) (slot : BitVec 3) (s : State) : Out :=
  runWord (.alloc q d slot) (fun x t => x.arenaEach t (allocOne x d.toNat)) s
/-- What `aqry` writes (R155). -/
def aqryRegs (s : State) (dom : Nat) (h : Word) (d : Nat) : List (Nat × Word) :=
  if handleMatches s dom h then
    let n := handleNo h
    let a := arenaAt s n
    let parent := if a.depth = 0 then 0 else (handleOf s a.parent).toNat
    let st := match a.state with
      | .live => 1
      | .sealed => 2
      | _ => 3
    (d, BitVec.ofNat 32 (parent + a.depth * 2 ^ 16 + (if a.depth = 0 then 2 ^ 19 else 0) + st * 2 ^ 20)) ::
      (d + 1, BitVec.ofNat 32 (childrenOf s n).length) :: pairWrites (d + 2) (BitVec.ofNat 64 (a.quota - a.charge))
  else (d, 0) :: (d + 1, 0) :: pairWrites (d + 2) 0
/-- One `aqry` (R155): it never faults on the handle, and raises INTEGRITY where the descriptor is poisoned (R465). -/
def aqryOne (x : Ctx) (d : Nat) (s : State) (k : Nat) : Except ArenaFail (State × List (Nat × Word)) :=
  let h := vreg x.rs k d
  if descPoisoned s (handleNo h) then .error (20, 2) else .ok (s, aqryRegs s x.g.stamp h d)
/-- aqry (R155). -/
def execAqry (q : Qual) (d : BitVec 6) (slot : BitVec 3) (s : State) : Out :=
  runWord (.aqry q d slot) (fun x t => x.arenaEach t (aqryOne x d.toNat)) s

/-! ### Seals (R153, R164) -/

/-- One `aseal`, after its release: a seal is requested, or an arena already sealed stays as it is. -/
def asealOne (x : Ctx) (d : Nat) (s : State) (k : Nat) : Except ArenaFail (State × List (Nat × Word)) :=
  let h := vreg x.rs k d
  if descPoisoned s (handleNo h) then .error (20, 2)
  else if !handleCurrent s x.g.stamp h then .error (10, 1)
  else
    let a := arenaAt s (handleNo h)
    if a.depth = 0 then .error (10, 3)
    else if a.state = .sealed ∧ !(s.seals.any fun e => e.2.arena == handleNo h) then .ok (s, [])
    else
      let f := fresh s
      .ok ({ f.2 with seals := s.seals.put f.1 ⟨handleNo h, a.gen, a.state == .sealed, x.gid, x.tok, []⟩ }, [])
/-- aseal (R153). -/
def execAseal (q : Qual) (d : BitVec 6) (slot : BitVec 3) (s : State) : Out :=
  runWord (.aseal q d slot) (fun x t => x.releasing t 2 fun u => x.arenaEach u (asealOne x d.toNat)) s
/-- An operation or a posted receive with a destination in one of the numbers is outstanding. -/
def engineWrites (s : State) (ns : List Nat) : Bool :=
  (s.engs.any fun e => e.2.arenas.any fun a => a.2 && ns.contains a.1) || (s.recvs.any fun e => e.2.arenas.any fun a => ns.contains a)
/-- An operation or a posted receive has one of the numbers registered (R162). -/
def engineNames (s : State) (ns : List Nat) : Bool :=
  (s.engs.any fun e => e.2.arenas.any fun a => ns.contains a.1) || (s.recvs.any fun e => e.2.arenas.any fun a => ns.contains a)
/-- The seals of an arena at a stage. -/
def sealsOf (s : State) (arena : Nat) (taken : Bool) : List (Nat × Seal) := s.seals.filter fun e => e.2.arena == arena && e.2.taken == taken
/-- Seals end and their slots clear. -/
def endSeals (s : State) (es : List (Nat × Seal)) : State :=
  es.foldl (fun t e => retireTok { t with seals := t.seals.del e.1 } e.2.gid e.2.tok) s
/-- ARENA_SEAL_POINT (R153): the arena and every descendant are marked sealed; an arena that a drop has reached meanwhile ends
its seal. -/
def execArenaSealPoint (arena : Nat) (s : State) : Out :=
  match sealsOf s arena false with
  | [] => .refused (.notEnabled "ARENA_SEAL_POINT")
  | es =>
    let ns := subtree s 7 arena
    let old := es.filter fun e => e.2.gen != (arenaAt s arena).gen || !((arenaAt s arena).state == .live || (arenaAt s arena).state == .sealed)
    if old ≠ [] then .next (endSeals s old)
    else if engineWrites s ns then .refused (.notEnabled "ARENA_SEAL_POINT")
    else
      let t := ns.foldl (fun t n => modArena t n fun a => if a.state = .live then { a with state := .sealed } else a) s
      .next { t with seals := t.seals.map fun (e : Nat × Seal) => if e.2.arena = arena then (e.1, { e.2 with taken := true, members := ns }) else e }
/-- The sweep of a seal: dirty lines of the arenas go home and every L1 copy of them goes (R164). -/
def sealSweep (s : State) (ns : List Nat) : State :=
  let mine (l : L1Line) : Bool := ns.contains l.arena && (arenaAt s l.arena).gen == l.gen
  let t := s.l1.foldl (fun t e => if mine e.2 ∧ e.2.dmask ≠ 0 then writeBack t e.1 else t) s
  { t with l1 := t.l1.filter fun e => !mine e.2 }
/-- ARENA_SEAL_COMPLETE (R164). -/
def execArenaSealComplete (arena : Nat) (s : State) : Out :=
  match sealsOf s arena true with
  | [] => .refused (.notEnabled "ARENA_SEAL_COMPLETE")
  | es =>
    let ns := subtree s 7 arena
    if tagWrites s ns then .refused (.notEnabled "ARENA_SEAL_COMPLETE") else .next (sealSweep (endSeals s es) ns)

/-! ### Drops (R154, R157 to R163) -/

/-- The drop point of an arena (R154, R163): it is draining and its children are to be marked; every cache's filter takes it, and the reads
that have reached a cache before return what stands there. -/
def markDraining (s : State) (n : Nat) : State :=
  let gen := (arenaAt s n).gen
  addFilter (modArena (freezeReads s fun a g => a == n && g == gen) n fun a => { a with state := .draining }) n gen []
/-- The checks of one `adrop` (R154). -/
def adropFail (x : Ctx) (s : State) (h : Word) : Option ArenaFail :=
  let n := handleNo h
  if descPoisoned s n then some (20, 2)
  else if !handleCurrent s x.g.stamp h then some (10, 1)
  else if (arenaAt s n).depth = 0 then some (10, 3)
  else none
/-- One `adrop`: a drop that goes to its arena's home. -/
def adropOne (x : Ctx) (d pn : Nat) (s : State) (e : Nat × BitVec 64) : State :=
  let h := vreg x.rs (x.lk e.1) d
  match adropFail x s h with
  | some f => x.raiseAll s e.2 (x.fi f.1 f.2)
  | none =>
    let n := handleNo h
    let r : Drop := { root := n, members := [], unmarked := [(n, (arenaAt s n).gen)], gid := x.gid, tok := x.tok, lanes := e.2, pred := pn, pc := x.pcR, next := x.next, word := x.w }
    { (fresh s).2 with drops := s.drops.put (fresh s).1 r }
/-- adrop (R154): once the lane's earlier accesses have completed the drop goes to its arena's home, where pA is written at the drop point or the
refusal; the slot clears at completion. -/
def execAdrop (q : Qual) (d a : BitVec 6) (slot : BitVec 3) (s : State) : Out :=
  runWord (.adrop q d a slot) (fun x t =>
    if anyOutstanding t x.gid x.go then x.wait t
    else x.acts.foldl (adropOne x d.toNat (predNo a.toNat x.o.pxA)) t) s
/-- The lanes of a drop have their predicate; it is no pending result any more (R154, R200). -/
def dropAnswer (s : State) (d : Drop) (b : Bool) : State :=
  let s := if voided s d.gid d.tok then s else (lanesOf d.lanes).foldl (fun t l => latePreg t (lk d.gid l) d.pred b) s
  { s with board := (s.board.map fun p => if p.tok = d.tok then { p with lanes := p.lanes &&& ~~~d.lanes } else p).filter fun p => p.tok != d.tok || p.lanes != 0 }
/-- A drop that ends at its arena's home without a drop point. -/
def dropEnd (s : State) (i : Nat) (d : Drop) : State := retireTok { s with drops := s.drops.del i } d.gid d.tok
/-- A drop reaches its arena's home (R154): the handle has become stale, a seal is in progress, an engine names the arena, or it is the drop
point. -/
def dropPoint (s : State) (i : Nat) (d : Drop) : Option State :=
  let a := arenaAt s d.root
  if !(d.unmarked.contains (d.root, a.gen)) ∨ !(a.state == .live || a.state == .sealed) then
    let one (t : State) (l : Nat) : State :=
      if !laneLive t (lk d.gid l) ∨ voided t d.gid d.tok then t
      else takeFault t d.gid l ⟨causeOf 10 (originOf (majorOf d.word)) 1, 0, 0, 0, uBit d.word⟩ d.pc d.next d.word
    some (dropEnd ((lanesOf d.lanes).foldl one (dropAnswer s { d with pred := 0 } false)) i d)
  else if s.seals.any fun e => e.2.arena == d.root then none
  else if engineNames s (subtree s 7 d.root) then some (dropEnd (dropAnswer s d false) i d)
  else
    let kids := (childrenOf s d.root).map fun c => (c, (arenaAt s c).gen)
    let t := dropAnswer (markDraining s d.root) d true
    some { t with drops := t.drops.put i { d with members := [d.root], unmarked := kids } }
/-- DRAIN_MARK (R154, R163): a drop reaches its arena's home, or its mark a child's; one already draining under its own drop is skipped. -/
def execDrainMark (arena : Nat) (s : State) : Out :=
  match s.drops.find? fun e => e.2.unmarked.any fun u => u.1 == arena with
  | none => .refused (.notEnabled "DRAIN_MARK")
  | some (i, d) =>
    if d.members = [] then
      match dropPoint s i d with
      | some t => .next t
      | none => .refused (.notEnabled "DRAIN_MARK")
    else
      let rest := d.unmarked.filter (·.1 != arena)
      let st := (arenaAt s arena).state
      if d.unmarked.contains (arena, (arenaAt s arena).gen) ∧ (st = .live ∨ st = .sealed) then
        let kids := (childrenOf s arena).map fun c => (c, (arenaAt s c).gen)
        let t := markDraining s arena
        .next { t with drops := t.drops.put i { d with members := d.members ++ [arena], unmarked := rest ++ kids } }
      else .next { s with drops := s.drops.put i { d with unmarked := rest } }
/-- Waiting continuations whose record lies in a range are discarded with a trace record (R165). -/
def discardConts (s : State) (dom : Nat) (inRange : Nat → Bool) : State :=
  s.tags.foldl (fun t e =>
    if e.dom ≠ dom then t
    else
      let gone := e.waiters.filter fun w => match w with
        | .record a => inRange a
        | .lane _ => false
      gone.foldl (fun u w => match w with
        | .record a =>
          let u := putTag u dom e.func e.tag fun y => { y with waiters := y.waiters.filter (· != w) }
          lostCont u e.func 0x0A4 dom a e.tag
        | .lane _ => u) t) s
/-- A number is freed with its generation incremented, or held at generation 15 until a full walk that starts now has ended (R149,
R166). -/
def freeNumber (s : State) (n : Nat) : State :=
  let s := if (arenaAt s n).gen = 15 then addFilter s n 15 [] else s
  modArena s n fun a => if a.gen = 15 then { a with state := .held } else { gen := a.gen + 1 }
/-- What the parent gets back (R148). -/
def returnQuota (s : State) (parent : Nat) (a : Arena) : State :=
  modArena s parent fun p => { p with charge := p.charge - a.quota, bump := if a.rangeEnd = p.bump then a.base else p.bump }
/-- A number goes into a list before the numbers of lower ranges. -/
def insertByBase (s : State) (n : Nat) : List Nat → List Nat
  | [] => [n]
  | m :: t => if (arenaAt s m).base ≤ (arenaAt s n).base then n :: m :: t else m :: insertByBase s n t
/-- Numbers in falling order of their ranges. -/
def byBase (s : State) : List Nat → List Nat
  | [] => []
  | n :: t => insertByBase s n (byBase s t)
/-- Every TLB and translation service forgets a range of a domain (R104, R157). -/
def forgetRange (s : State) (dom base len : Nat) : State :=
  let keep (e : TlbEntry) : Bool := !(e.dom == dom && decide (e.va < base + len) && decide (base < e.va + e.size))
  { s with tlb := s.tlb.filter keep, service := s.service.filter keep }
/-- The completion of a drop (R157, R159, R165, R166). (DESIGN CHOICE, log 26) -/
def dropComplete (s : State) (i : Nat) (d : Drop) : State :=
  let a := arenaAt s d.root
  let len := a.rangeEnd - a.base
  let s := discardConts s a.dom fun v => decide (a.base ≤ v) && decide (v < a.rangeEnd)
  let s := splitRange s a.dom a.base len
  let pgs := rangePages s a.dom a.base len
  let s := forgetRange s a.dom a.base len
  let s := retireFilters s fun f => pgs.any fun e => f.ranges.any fun r => decide (r.1 < e.2.pa + e.2.size) && decide (e.2.pa < r.1 + r.2)
  let s := retagRange (zeroPages s a.dom a.base len) a.dom a.base len a.parent
  let s := returnQuota s a.parent a
  let s := d.members.foldl freeNumber s
  retireTok { s with drops := s.drops.del i } d.gid d.tok
/-- An access or request with a tag of the numbers is still on its way (R157 step 3). -/
def tagInFlight (s : State) (ns : List Nat) : Bool :=
  (s.acc.any fun e => ns.contains e.2.arena && e.2.kind != .hostBack) || (s.atoms.any fun e => !e.2.inSpm && ns.contains e.2.arena) ||
  (s.mops.any fun e => e.2.arenas.any fun a => ns.contains a)
/-- A park whose record lies in a range has not registered yet (R165). -/
def parkIn (s : State) (dom base len : Nat) : Bool := s.parks.any fun p => p.2.dom == dom && decide (base ≤ p.2.addr) && decide (p.2.addr < base + len)
/-- ARENA_DROP_COMPLETE (R157): every descendant is marked, every filter has its entry, drops begun below have completed, and no access
under the tags is on its way. -/
def execArenaDropComplete (arena : Nat) (s : State) : Out :=
  match s.drops.find? fun e => e.2.root == arena && e.2.members != [] with
  | none => .refused (.notEnabled "ARENA_DROP_COMPLETE")
  | some (i, d) =>
    let a := arenaAt s d.root
    if d.unmarked ≠ [] ∨ tagInFlight s d.members ∨ !filtersTaken s d.members ∨ parkIn s a.dom a.base (a.rangeEnd - a.base) ∨
        s.drops.any (fun e => e.1 ≠ i ∧ d.members.contains (arenaAt s e.2.root).parent) then
      .refused (.notEnabled "ARENA_DROP_COMPLETE")
    else .next (dropComplete s i d)
/-- A tag array has been walked: an entry leaves it, or one that had no room takes the place. -/
def walkEntry (place : Nat) (a : List FilterEntry × Nat) (e : FilterEntry) : List FilterEntry × Nat :=
  let bit := BitVec.ofNat 256 (2 ^ place)
  if e.left.getLsbD place then (a.1 ++ [{ e with left := e.left &&& ~~~bit }], a.2)
  else if e.todo.getLsbD place ∧ a.2 < Config.filterEntries then (a.1 ++ [{ e with left := e.left ||| bit, todo := e.todo &&& ~~~bit }], a.2 + 1)
  else (a.1 ++ [e], a.2)
/-- DISCARD_SWEEP (R158): a tag array is walked; its matching lines go, and an entry that every array has walked retires. -/
def execDiscardSweep (place : Nat) (s : State) : Out :=
  if 256 ≤ place ∨ !(s.filters.any fun e => e.left.getLsbD place) then .refused (.notEnabled "DISCARD_SWEEP")
  else
    let keep := s.l1.filter fun l => !(keyPair l.1 == place && s.filters.any fun e => filterHits e l)
    let t := if place < 128 then s
      else sliceDrop s fun line tag => homeNo (sliceHome s (line * 64)) == place - 128 && filtered s place (tagArena tag) (tagGen tag) line
    let fs := (s.filters.foldl (walkEntry place) ([], 0)).1
    .next { t with l1 := keep, filters := fs.filter fun e => e.left != 0 || e.todo != 0 }
/-- ARENA_NUMBER_RECYCLE (R166): a number held at generation 15 is free at 0 once no filter entry of it is left. -/
def execArenaNumberRecycle (arena : Nat) (s : State) : Out :=
  if (arenaAt s arena).state = .held ∧ !(s.filters.any fun e => e.arena == arena) then .next { s with arenas := s.arenas.del arena }
  else .refused (.notEnabled "ARENA_NUMBER_RECYCLE")

end Sys2Proof.Machine
end

