-- ==== Sys2Proof/Machine/Atomic.lean ====
section
/-!
DEFINITION. Atomics and reductions (R360 to R370), lane transactions (R371 to R380) and their arrival at the homes.
-/
namespace Sys2Proof.Machine

/-! ### Homes (R276) -/

/-- The place of a home in the order in which a commit visits it (R376). -/
def homeRank (s : State) (pa : Nat) : Nat := homeNo (sliceHome s pa)

/-! ### Values (R361, R363 to R365) -/

/-- The lesser or greater of two FP32 values; NaN when either is NaN; −0 below +0. -/
def fminmaxNan (isMax : Bool) (x y : Nat) : Nat :=
  if (decodeF fmt32 x).isNan || (decodeF fmt32 y).isNan then fmt32.nan else (minmaxF fmt32 isMax x y).1
/-- The value that an operation stores (Table 18-2); none when it writes nothing. -/
def atomNew (kind bitsN : Nat) (sgn : Bool) (m v b : Nat) : Option Nat :=
  let i (p : Nat) : Int := if sgn then sextInt p bitsN else (p : Int)
  match kind with
  | 0 => some (wrapNat (i m + i v) bitsN)
  | 1 => some (m &&& v)
  | 2 => some (m ||| v)
  | 3 => some (m ^^^ v)
  | 4 => some (if i v < i m then v else m)
  | 5 => some (if i m < i v then v else m)
  | 6 => some v
  | 7 => if m = b then some v else none
  | 8 => some (if i b ≤ i m then 0 else wrapNat (i m + 1) bitsN)
  | 9 => some (if i b ≤ i m then m else wrapNat (max (min (i m + i v) (i b)) (intLo bitsN sgn)) bitsN)
  | 10 => some (roundTo fmt32 0 false (fAdd 0 (decodeF fmt32 m) (decodeF fmt32 v))).1
  | 11 => some (fminmaxNan true m v)
  | _ => some (fminmaxNan false m v)

/-- The bytes of a location: a bank or a home. -/
def locRead (s : State) (inSpm : Bool) (tag pa n : Nat) : Nat := leNat (if inSpm then spmBytes s pa n else homeBytes s tag pa n)
/-- Write a location. -/
def locWrite (s : State) (inSpm : Bool) (tag pa n v : Nat) : State :=
  if inSpm then spmWrite s pa (leBytes n v) else mergeHome s 0 0 tag pa (leBytes n v)

/-! ### The words -/

/-- The operands of an atomic word in a lane (Table 18-1): v, and b or c. -/
def atomOperands (x : Ctx) (k d kind n : Nat) : Nat × Nat :=
  let r (i : Nat) : Nat := if n = 8 then (vpair x.rs k (d + 2 * i)).toNat else (vreg x.rs k (d + i)).toNat
  if kind = 7 then (r 1, r 0) else if kind = 8 then (0, r 0) else if kind = 9 then (r 0, r 1) else (r 0, 0)
/-- Where an atomic goes (R362): the first failure, or a place. -/
def atomPlace (x : Ctx) (s : State) (va n kind : Nat) (promote : Bool) : Except AccFail Place :=
  if va % n ≠ 0 then .error ⟨7, 0, va⟩
  else if inWindow va then
    if x.g.gate.isSome then .error ⟨9, 2, va⟩
    else if 10 ≤ kind then .error ⟨13, 0, va⟩
    else if promote then .error ⟨13, 1, va⟩
    else match windowPlace s x.g va true with
      | .ok (.spm k) => if spmPoisoned s k n then .error ⟨20, 1, k / 32768 % 32⟩ else .ok (.spm k)
      | r => r
  else match placeOf s x.g va 0 true false with
    | .ok (.mem pa p) => if poisoned s pa then .error ⟨20, 0, va / 64 * 64⟩ else .ok (.mem pa p)
    | r => r
/-- The pair's dirty bytes of a line go home, and its fresh bits clear on every path (R362): the write-backs to wait for. -/
def atomClean (s : State) (x : Ctx) (pa : Nat) (p : Page) (k : Nat) : List Nat × State :=
  let line := pa / 64
  let stale (e : Nat × L1Line) : Nat × L1Line :=
    if keyPair e.1 = x.pair ∧ keyLine e.1 = line ∧ e.2.dom = x.g.stamp then (e.1, { e.2 with fresh := 0 }) else e
  let s := { s with l1 := s.l1.map stale }
  let go (a : Access) : Bool := match a.kind with
    | .victim _ | .through => true
    | _ => false
  let out := (s.acc.filter fun e => e.2.pair == x.pair && e.2.pa / 64 == line && go e.2).map (·.1)
  match s.l1.get? (l1Key x.pair 0 line p.tag) with
  | some l =>
    if l.dmask = 0 then (out, s)
    else
      let a : Access := { kind := .writeBack 0, tok := 0, gid := x.gid, lane := k, pair := x.pair, dom := l.dom, arena := l.arena, gen := l.gen, pa := line * 64, size := 64 }
      ((fresh s).1 :: out, sendAcc s a)
  | none => (out, s)
/-- One execution's request goes out. -/
def atomGo (x : Ctx) (isAtom : Bool) (d kind n : Nat) (s : State) (c : Nat × BitVec 64) (va : Nat) (pl : Place) : State :=
  let k := x.lk c.1
  let md := x.o.mode.toNat
  let vb := atomOperands x k d kind n
  let op : AtomOp :=
    { gid := x.gid, lane := k, tok := x.tok, reg := d, lanes := c.2, isAtom := isAtom, v := vb.1, b := vb.2, acq := md == 1 || md == 3, scope := fld x.w 4 2, promote := x.o.comm && md != 0,
      va := va, pc := x.pcR, next := x.next, word := x.w }
  let comm := x.o.comm && md == 0
  let s := if op.acq then (lanesOf c.2).foldl (fun t l => modLane t (x.lk l) fun y => { y with held := .result }) s else s
  match pl with
  | .spm key =>
    let q : AtomReq := { ops := [op], kind := kind, signed := itypeSigned x.o, size := n, pair := x.pair, dom := x.g.stamp, arena := 0, gen := 0, pa := key, inSpm := true, rel := 2 ≤ md, buffered := if comm then some x.now else none, comm := comm }
    { (fresh s).2 with atoms := s.atoms.put (fresh s).1 q }
  | .mem pa p =>
    let w := atomClean s x pa p k
    let q : AtomReq := { ops := [op], kind := kind, signed := itypeSigned x.o, size := n, pair := x.pair, dom := p.dom, arena := p.arena, gen := p.gen, pa := pa, inSpm := false, rel := 2 ≤ md, buffered := if comm then some x.now else none, comm := comm, deps := w.1, epoch := epochOf s pa }
    { (fresh w.2).2 with atoms := w.2.atoms.put (fresh w.2).1 q }
/-- As `atomGo`, unless the host transaction of the access fails (R281). -/
def atomSend (x : Ctx) (isAtom : Bool) (d kind n : Nat) (s : State) (c : Nat × BitVec 64) (va : Nat) (pl : Place) : State :=
  match pl with
  | .spm _ => atomGo x isAtom d kind n s c va pl
  | .mem pa p =>
    let r := hostFails s pa
    let a : Access := { kind := .failed, tok := x.tok, gid := x.gid, lane := x.lk c.1, pair := x.pair, dom := p.dom, arena := p.arena, gen := p.gen, pa := pa, size := n }
    if r.1 then x.hostFault r.2 a c.2 va n true else atomGo x isAtom d kind n r.2 c va pl
/-- The scope of the release part: a core-scope release toward another die acts at device scope (R355). -/
def atomRelScope (x : Ctx) (s : State) (pls : List Place) : Nat :=
  let k := fld x.w 4 2
  if k = 1 ∧ pls.any (fun p => match p with
    | .mem pa _ => (sliceHome s pa).1 != dieOf x.g.core
    | .spm _ => false) then 2 else k
/-- The body of `atom` and `red` (R362). -/
def atomBody (isAtom : Bool) (d a kind : Nat) (x : Ctx) (s : State) : State :=
  let n := if kind < 10 ∧ itypeBits x.o = 64 then 8 else 4
  let md := x.o.mode.toNat
  x.translated s (x.alignedVas a n) fun t =>
    if x.behindMat t a n then x.wait t
    else
    let tries := x.acts.map fun c => (c, x.va (x.lk c.1) a, atomPlace x t (x.va (x.lk c.1) a) n kind (x.o.comm && md != 0))
    let t := tries.foldl (fun u e => match e.2.2 with
      | .error f => x.raiseAll u e.1.2 (x.accFault f n true)
      | .ok _ => u) t
    let good := tries.filterMap fun e => match e.2.2 with
      | .ok p => some (e.1, e.2.1, p)
      | .error _ => none
    if good = [] then t
    else
      let go (u : State) : State := good.foldl (fun v e => atomSend x isAtom d kind n v e.1 e.2.1 e.2.2) u
      if 2 ≤ md then
        let y : Ctx := { x with go := good.foldl (fun m e => m ||| e.1.2) 0 }
        y.releasing t (atomRelScope x t (good.map (·.2.2))) go
      else go t
/-- atom (R362): vD receives the value that the location held. -/
def execAtom (q : Qual) (d a : BitVec 6) (slot : BitVec 3) (k : BitVec 2) (f : BitVec 4) (s : State) : Out :=
  runWord (.atom q d a slot k f) (atomBody true d.toNat a.toNat f.toNat) s
/-- red (R362): as `atom`, with no register written. -/
def execRed (q : Qual) (d a : BitVec 6) (slot : BitVec 3) (k : BitVec 2) (f : BitVec 4) (s : State) : Out :=
  runWord (.red q d a slot k f) (atomBody false d.toNat a.toNat f.toNat) s

/-! ### At the home (R367, R368) -/

/-- Two requests share a lane. -/
def shareLane (a b : AtomReq) : Bool := a.ops.any fun o => b.ops.any fun p => o.lane == p.lane
/-- Two requests carry operations of one word. -/
def shareTok (a b : AtomReq) : Bool := a.ops.any fun o => b.ops.any fun p => o.tok == p.tok
/-- Two requests name one line, or one word of a bank. -/
def sameLoc (a b : AtomReq) : Bool := a.inSpm == b.inSpm && a.pa / 64 == b.pa / 64
/-- Two requests go to one home: a bank, or a slice. -/
def oneHome (s : State) (a b : AtomReq) : Bool :=
  a.inSpm == b.inSpm && (if a.inSpm then a.pa / 32768 == b.pa / 32768 else sameHome s a.pa b.pa)
/-- An earlier request must be applied first (R367, R368): one of the same lane to the location, or one of the same word to the home, not
both annotated. -/
def mustFollow (s : State) (i : Nat) (q : AtomReq) : Bool :=
  s.atoms.any fun e => decide (e.1 < i) && ((sameLoc e.2 q && shareLane e.2 q) || (oneHome s e.2 q && shareTok e.2 q)) && !(e.2.comm && q.comm)
/-- An earlier access of one of the lanes to the line has still to be served (R345, R367). -/
def behindAcc (s : State) (i : Nat) (q : AtomReq) : Bool :=
  !q.inSpm && s.acc.any fun e => decide (e.1 < i) && e.2.pa / 64 == q.pa / 64 && isRequest e.2 && q.ops.any fun o => e.2.names o.lane || o.names e.2.lane
/-- What the request waits for is gone and its line is not owned. -/
def atomFree (s : State) (q : AtomReq) : Bool :=
  q.buffered.isNone && !(q.deps.any fun d => (s.acc.get? d).isSome) && (q.inSpm || !engineOwned s (q.pa / 64))
/-- An earlier request of the pair is on its way to the same slice and arrives first (R386). -/
def atomBehind (s : State) (i : Nat) (q : AtomReq) : Bool :=
  !q.inSpm && ((s.acc.any fun e => decide (e.1 < i) && isRequest e.2 && e.2.pair == q.pair && sameHome s e.2.pa q.pa && lineReady s e.1 e.2) ||
    s.atoms.any fun e => decide (e.1 < i) && !e.2.inSpm && e.2.pair == q.pair && sameHome s e.2.pa q.pa && atomFree s e.2 && e.2.asked.isNone)
/-- The request may be applied at its home. -/
def atomReady (s : State) (i : Nat) (q : AtomReq) : Bool := atomFree s q && !mustFollow s i q && !behindAcc s i q && !atomBehind s i q
/-- Apply one operation; answers the value the location held. -/
def applyOp (q : AtomReq) (s : State) (o : AtomOp) : Nat × State :=
  let m := locRead s q.inSpm q.tag q.pa q.size
  match atomNew q.kind (8 * q.size) q.signed m o.v o.b with
  | some v => (m, locWrite s q.inSpm q.tag q.pa q.size v)
  | none => (m, if q.inSpm then s else touch s 0 0 q.tag (q.pa / 64) false)
/-- The answer of an operation to its lanes. (DESIGN CHOICE, log 46) -/
def answerOp (q : AtomReq) (s : State) (o : AtomOp) (m : Nat) : State :=
  let ks := (lanesOf o.lanes).map (lk o.gid)
  let regs := if o.isAtom then ks.flatMap fun k => (loadRegs (if q.size = 8 then 5 else 4) o.reg (leBytes q.size m)).map fun r => (k, r.1, r.2) else []
  if regs = [] ∧ !o.acq then s
  else
    let r : Result := { tok := o.tok, gid := o.gid, regs := regs, acq := if o.acq then ks else [], scope := o.scope }
    { (fresh s).2 with results := s.results.put (fresh s).1 r }
/-- A combined `fadd` group (R367): the operands summed, then added to the location with one rounding; every lane receives the
value that stood before. -/
def applyFaddGroup (q : AtomReq) (s : State) : State :=
  let m := locRead s q.inSpm q.tag q.pa q.size
  let sum := match q.ops with
    | [] => 0
    | o :: t => t.foldl (fun v p => (roundTo fmt32 0 false (fAdd 0 (decodeF fmt32 v) (decodeF fmt32 p.v))).1) o.v
  let s := locWrite s q.inSpm q.tag q.pa q.size (roundTo fmt32 0 false (fAdd 0 (decodeF fmt32 m) (decodeF fmt32 sum))).1
  q.ops.foldl (fun t o => answerOp q t o m) s
/-- The prm entry whose pair must flush before a request is applied: for a promotion, or before a core-scope release sets prm (R355). -/
def atomFlushPair (s : State) (q : AtomReq) : Option Nat :=
  let core := q.rel && q.ops.any fun o => o.scope == 1
  if q.inSpm then none
  else if (q.ops.any (·.promote)) || (core && (sliceHome s q.pa).1 == q.pair / 32) then promotionPair s (q.pa / 64) q.pair else none
/-- prm after the request (R355): a promotion that flushed a pair clears it; a core-scope release on the home die sets it. -/
def atomPrm (s : State) (q : AtomReq) : State :=
  let line := q.pa / 64
  let s := if (q.ops.any (·.promote)) && (promotionPair s line q.pair).isSome then { s with prm := s.prm.del line } else s
  if !q.inSpm && q.rel && (q.ops.any fun o => o.scope == 1) && (sliceHome s q.pa).1 == q.pair / 32 then { (fresh s).2 with prm := s.prm.put line (q.pair + 128 * (fresh s).1) } else s
/-- The pair's copies of the line read the home again (R345, R362). (DESIGN CHOICE, log 21) -/
def unfreshLine (s : State) (pair line : Nat) : State :=
  { s with l1 := s.l1.map fun (e : Nat × L1Line) => if keyPair e.1 = pair ∧ keyLine e.1 = line then (e.1, { e.2 with fresh := e.2.dmask }) else e }
/-- Apply a request. -/
def applyReq (s : State) (i : Nat) (q : AtomReq) : State :=
  let s := atomPrm { s with atoms := s.atoms.del i } q
  let s := if q.kind = 10 ∧ q.comm then applyFaddGroup q s
    else q.ops.foldl (fun t o => let r := applyOp q t o; answerOp q r.2 o r.1) s
  let s := if q.inSpm then s else unfreshLine s q.pair (q.pa / 64)
  q.ops.foldl (fun t o => retireTok t o.gid o.tok) s
/-- The check at the home (R362, R366): the tag's arena, and the line read or the bytes of the bank. -/
def homeFail (s : State) (q : AtomReq) : Option (Nat × Nat) :=
  if q.inSpm then (if spmPoisoned s q.pa q.size then some (20, 1) else none)
  else match arenaState s q.arena q.gen with
    | .live => if poisoned s q.pa then some (20, 0) else none
    | .sealed => some (10, 2)
    | _ => some (10, 0)
/-- The lanes of a request that fails at its home raise, in increasing order, at the atomic; it changes nothing there (R366). -/
def failReq (s : State) (i : Nat) (q : AtomReq) (c : Nat × Nat) : State :=
  let s := { s with atoms := s.atoms.del i }
  let one (o : AtomOp) (t : State) (l : Nat) : State :=
    let addr := if c.1 ≠ 20 then o.va else if q.inSpm then q.pa / 32768 % 32 else o.va / 64 * 64
    if !laneLive t (lk o.gid l) ∨ voided t o.gid o.tok then t
    else takeFault (endCover t o.gid) o.gid l ⟨causeOf c.1 1 c.2, 0, addr, if c.1 = 10 then q.size + 256 else 0, uBit o.word⟩ o.pc o.next o.word
  q.ops.foldl (fun t o => retireTok ((lanesOf o.lanes).foldl (one o) t) o.gid o.tok) s
/-- ATOMIC_APPLY (R366, R368). -/
def execAtomicApply (req : Nat) (s : State) : Out :=
  match s.atoms.get? req with
  | none => .refused (.notEnabled "ATOMIC_APPLY")
  | some q =>
    if !atomReady s req q then .refused (.notEnabled "ATOMIC_APPLY")
    else match homeFail s q with
    | some c => .next (failReq s req q c)
    | none => match atomFlushPair s q with
      | some v =>
        let f := startFlush s ((q.ops.head?.map (·.gid)).getD 0) noLane (v % 128) q.dom 2
        if q.asked = some v then .next (applyReq s req q)
        else if f.1 = [] then .next (applyReq f.2 req q)
        else .next { f.2 with atoms := f.2.atoms.put req { q with deps := f.1, asked := some v } }
      | none => .next (applyReq s req q)
/-- A non-annotated access of a lane of the request to its location, still in flight, lies between two requests that would be merged: an
annotated atomic stays on its side of it (R367). -/
def mergeCrosses (s : State) (lo i : Nat) (q : AtomReq) : Bool :=
  (s.atoms.any fun e => decide (lo < e.1) && decide (e.1 < i) && !e.2.comm && sameLoc e.2 q && shareLane e.2 q) ||
  (!q.inSpm && s.acc.any fun e => decide (lo < e.1) && decide (e.1 < i) && e.2.pa / 64 == q.pa / 64 && isRequest e.2 && q.ops.any fun o => e.2.names o.lane)
/-- COMBINING_BUFFER_FLUSH (R367): the named held requests of one pair, kind, type, location and domain leave the buffer as one request, in the
place of the first of them. -/
def execCombiningBufferFlush (ids : List Nat) (s : State) : Out :=
  let qs := ids.filterMap fun i => s.atoms.get? i
  match qs with
  | [] => .refused (.notEnabled "COMBINING_BUFFER_FLUSH")
  | q :: t =>
    let lo := ids.foldl min (ids.headD 0)
    if qs.length ≠ ids.length ∨ dedup ids ≠ ids ∨ qs.any (fun r => r.buffered.isNone) ∨ ((ids.zip qs).any fun e => mergeCrosses s lo e.1 e.2) ∨
        t.any (fun r => r.pair ≠ q.pair ∨ r.kind ≠ q.kind ∨ r.signed ≠ q.signed ∨ r.size ≠ q.size ∨ r.dom ≠ q.dom ∨ r.pa ≠ q.pa ∨ r.inSpm ≠ q.inSpm) then
      .refused (.notEnabled "COMBINING_BUFFER_FLUSH")
    else
      let s := ids.foldl (fun u i => { u with atoms := u.atoms.del i }) s
      let m : AtomReq := { q with ops := qs.flatMap (·.ops), buffered := none, deps := qs.flatMap (·.deps) }
      .next { s with atoms := s.atoms.put lo m }
/-- The reads of a line held at its home with the tag of the first (R278). -/
def gathered (s : State) (line : Nat) : List (Nat × Access) :=
  let rs := s.acc.filter fun e => e.2.pa / 64 == line && !e.2.promote && accReady s e.1 e.2 &&
    (match e.2.kind with
     | .fill _ => true
     | .readHome => true
     | _ => false)
  match rs with
  | [] => []
  | e :: _ => rs.filter fun f => f.2.dom == e.2.dom && f.2.arena == e.2.arena && f.2.gen == e.2.gen
/-! ### Transactions (R371 to R380) -/

/-- The status word of Table 18-8. -/
def txStatus (reason : Nat) (lane cause ucode : Nat := 0) : Word := BitVec.ofNat 32 (reason + lane * 2 ^ 7 + cause * 2 ^ 15 + ucode * 2 ^ 24)
/-- A transaction closes with a status. -/
def txClose (s : State) (k : Nat) (st : Word) : State := modLane s k fun y => { y with txn := none, txStat := st, commit := none }
/-- txb (R372): a device-scope release, then an open transaction with empty sets. -/
def execTxb (gd : Guard) (s : State) : Out :=
  runWord (.txb gd) (fun x t =>
    let bad := (lanesOf x.go).filter fun l => (laneAt t (x.lk l)).txn.isSome
    let t := bad.foldl (fun u l => x.raise u l (x.fi 12 0)) t
    let y : Ctx := { x with go := x.go &&& ~~~(maskOf bad) }
    if y.go = 0 then t
    else y.releasing t 2 fun u => (lanesOf y.go).foldl (fun v l =>
      modLane v (y.lk l) fun z => { z with txn := some {}, txStat := txStatus 1 }) u) s
/-- The lines of a set. -/
def setLines (ls : List TxLine) : List Nat := ls.map (·.pa)
/-- Two transactions conflict (R375). -/
def txConflict (a b : Txn) : Bool :=
  (setLines a.writes).any (fun l => (setLines b.reads ++ setLines b.writes).contains l) || (setLines b.writes).any (fun l => (setLines a.reads).contains l)
/-- The lanes of `txe` judged in increasing order: the survivors, and the status with which each other lane fails (R375). -/
def txJudge (s : State) (x : Ctx) (ls : List Nat) : List Nat × List (Nat × Word) :=
  ls.foldl (fun a l =>
    match (laneAt s (x.lk l)).txn with
    | none => a
    | some t =>
      match t.doom with
      | some (r, c) => (a.1, a.2 ++ [(l, txStatus r 0 c)])
      | none =>
        match a.1.find? fun k => match (laneAt s (x.lk k)).txn with
          | some u => txConflict u t
          | none => false with
        | some k => (a.1, a.2 ++ [(l, txStatus 4 k)])
        | none => (a.1 ++ [l], a.2)) ([], [])
/-- A transactional read of the lane has not been served: its line has still to join the read set. (DEDUCED, log 19) -/
def txReading (s : State) (k : Nat) : Bool := s.acc.any fun e => e.2.lane == k && e.2.kind == .txRead
/-- Such a read of some executing lane. -/
def Ctx.txReads (x : Ctx) (s : State) : Bool := (lanesOf x.go).any fun l => txReading s (x.lk l)
/-- The homes of a transaction's lines under the slice maps in force (R376): line, home. -/
def txHomes (s : State) (k : Nat) : List (Nat × Nat) :=
  match (laneAt s k).txn with
  | some t => (t.reads ++ t.writes).map fun l => (l.pa, homeRank s (l.pa * 64))
  | none => []
/-- txe (R375): conflicts resolved, failed lanes closed; the survivors are held for their commit (R376). -/
def execTxe (gd : Guard) (d : BitVec 6) (slot : BitVec 3) (s : State) : Out :=
  runWord (.txe gd d slot) (fun x t =>
    if x.txReads t then x.wait t
    else
    let bad := (lanesOf x.go).filter fun l => (laneAt t (x.lk l)).txn.isNone
    let t := bad.foldl (fun u l => x.raise u l (x.fi 12 1)) t
    let pn := predNo d.toNat x.o.pxD
    let j := txJudge t x ((lanesOf x.go).filter fun l => !bad.contains l)
    let t := if j.2 = [] then t else x.acquire t 2
    let t := j.2.foldl (fun u e => setPreg (txClose u (x.lk e.1) e.2) (x.lk e.1) pn false) t
    j.1.foldl (fun u l => modLane u (x.lk l) fun y => { y with commit := some ⟨pn, x.tok, txHomes t (x.lk l)⟩, held := .result }) t) s
/-- txa (R378). -/
def execTxa (gd : Guard) (d : BitVec 6) (s : State) : Out :=
  runWord (.txa gd d) (fun x t => if x.txReads t then x.wait t else (lanesOf x.go).foldl (fun u l =>
    let c := (vreg x.rs (x.lk l) d.toNat).toNat
    if (laneAt u (x.lk l)).txn.isNone then x.raise u l (x.fi 12 1)
    else if 256 ≤ c then x.raise u l (x.fi 1 2)
    else txClose u (x.lk l) (txStatus 3 0 0 c)) t) s
/-- The status that `txq` reads (R379). -/
def txQuery (y : Lane) : Word :=
  match y.txn with
  | some t => match t.doom with
    | some (r, c) => txStatus r 0 c
    | none => txStatus 1
  | none => y.txStat
/-- txq (R379). -/
def execTxq (gd : Guard) (d : BitVec 6) (slot : BitVec 3) (s : State) : Out :=
  runWord (.txq gd d slot) (fun x t =>
    x.send t ((lanesOf x.go).map fun l => (x.lk l, d.toNat, txQuery (laneAt t (x.lk l))))) s
/-- The reason and cause for which a line stops a commit, if any (R376). -/
def txLineFail (s : State) (write : Bool) (l : TxLine) : Option (Nat × Nat) :=
  if engineOwned s l.pa then some (6, 0)
  else match arenaState s l.arena l.gen with
    | .sealed => if write then some (9, 0x0A6) else none
    | .live => none
    | _ => some (9, 0x0A4)
/-- The bytes read no longer hold the values read (R376). -/
def txStale (s : State) (l : TxLine) : Bool := l.bytes.any fun e => homeByte s l.tag (l.pa * 64 + e.1) != e.2
/-- The first failure that the homes of a transaction find, in ascending order of the homes that the maps in force at `txe` gave its lines
(R376). -/
def txValidate (s : State) (c : Commit) (t : Txn) : Option (Nat × Nat) :=
  let ls := t.reads.map (fun l => (false, l)) ++ t.writes.map (fun l => (true, l))
  let rank (l : TxLine) : Nat := ((c.homes.find? fun e => e.1 == l.pa).map (·.2)).getD (homeRank s (l.pa * 64))
  let ranks := dedup (ls.map fun e => rank e.2)
  let sorted := ranks.foldl (fun acc r => acc.filter (· < r) ++ r :: acc.filter (r < ·)) []
  sorted.findSome? fun r =>
    let here := ls.filter fun e => rank e.2 == r
    match here.findSome? fun e => if engineOwned s e.2.pa then some (6, 0) else none with
    | some f => some f
    | none => match here.findSome? fun e => txLineFail s e.1 e.2 with
      | some f => some f
      | none => if here.any fun e => !e.1 && txStale s e.2 then some (5, 0) else none
/-- A lane's commit: validation at the homes, then the commit or the failure; the lane acquires at device scope (R376). -/
def commitLane (s : State) (k : Nat) (c : Commit) (t : Txn) : State :=
  let fail := txValidate s c t
  let s := match fail with
    | some _ => s
    | none => t.writes.foldl (fun u l => touch (l.bytes.foldl (fun v e => setHomeByte v l.tag (l.pa * 64 + e.1) e.2) u) 0 0 l.tag l.pa true) s
  let s := txClose s k (match fail with
    | some (r, cause) => txStatus r 0 cause
    | none => txStatus 2)
  retireTok (setPreg (releaseResult s [k]) k c.pred fail.isNone) (k / 64) c.tok
/-- TXN_COMMIT (R376). (DESIGN CHOICE, log 16) -/
def execTxnCommit (gid lane : Nat) (s : State) : Out :=
  match s.lanes.get? (lk gid lane) with
  | none => .refused (.notEnabled "TXN_COMMIT")
  | some y =>
    match y.commit, y.txn with
    | some c, some t => .next (commitLane s (lk gid lane) c t)
    | _, _ => .refused (.notEnabled "TXN_COMMIT")
/-- A commit of the lane that is under way is made (R380). -/
def commitOpen (s : State) (k : Nat) : State :=
  match (laneAt s k).commit, (laneAt s k).txn with
  | some c, some t => commitLane s k c t
  | _, _ => s
/-- A gate aborts, the commits of its lanes that are under way made first (R140, R380). -/
def leaveTarget (s : State) (gid code : Nat) : State :=
  abortGate ((lanesOf (liveMask s gid)).foldl (fun t l => commitOpen t (lk gid l)) s) gid code

end Sys2Proof.Machine
end

