-- ==== Sys2Proof/Machine/Flit.lean ====
section
/-!
DEFINITION. Lossless exponent compression of FP64 partials in reduction flits (R399, Table 19-8).
-/
namespace Sys2Proof.Machine

/-- Biased exponent of an FP64 value. -/
def expOf (v : Nat) : Nat := bits v 62 52
/-- The least biased exponent from 1 to 2046 among the values, 0 for none. -/
def flitBase (vs : List Nat) : Nat :=
  ((vs.map expOf).filter fun e => decide (1 ≤ e) && decide (e ≤ 2046)).foldl (fun m e => if m = 0 then e else min m e) 0
/-- The value is not packed under a base. -/
def flitEscapes (base v : Nat) : Bool := base == 0 || decide (expOf v < 1) || decide (2046 < expOf v) || decide (base + 15 ≤ expOf v)
/-- The 57-bit slot of a value: sign, delta and fraction, or zero when it escapes. -/
def flitSlot (base v : Nat) : Nat := if flitEscapes base v then 0 else bits v 63 63 * 2 ^ 56 + (expOf v - base) * 2 ^ 52 + v % 2 ^ 52
/-- The escape mask of the values, the first in bit 0. -/
def flitMask (base : Nat) : List Nat → Nat
  | [] => 0
  | v :: t => (if flitEscapes base v then 1 else 0) + 2 * flitMask base t
/-- The slots of the values, the first in the low bits. -/
def flitSlots (base : Nat) : List Nat → Nat
  | [] => 0
  | v :: t => flitSlot base v + 2 ^ 57 * flitSlots base t
/-- A list cut into flits of at most seven, in order; every flit but the last is full. -/
def sevens : Nat → List Nat → List (List Nat)
  | 0, _ => []
  | n + 1, vs => if vs = [] then [] else vs.take 7 :: sevens n (vs.drop 7)
/-- A reduction flit's 480-bit payload for eight values, and the escape flits that follow it. -/
def packFlit (vs : List Nat) : Nat × List (List Nat) :=
  let b := flitBase vs
  (b + 2 ^ 11 * flitMask b vs + 2 ^ 19 * flitSlots b vs, sevens vs.length (vs.filter (flitEscapes b)))
/-- The value that a slot stands for. -/
def slotValue (base slot : Nat) : Nat := bits slot 56 56 * 2 ^ 63 + (base + bits slot 55 52) * 2 ^ 52 + slot % 2 ^ 52
/-- `n` values rebuilt from base, mask, slots and escaped values. -/
def unpackSlots (base : Nat) : Nat → Nat → Nat → List Nat → List Nat
  | 0, _, _, _ => []
  | n + 1, mask, slots, esc =>
    if mask % 2 = 1 then esc.headD 0 :: unpackSlots base n (mask / 2) (slots / 2 ^ 57) esc.tail
    else slotValue base (slots % 2 ^ 57) :: unpackSlots base n (mask / 2) (slots / 2 ^ 57) esc
/-- The eight values that a receiver rebuilds from a reduction flit and its escape flits. -/
def unpackFlit (payload : Nat) (esc : List (List Nat)) : List Nat :=
  unpackSlots (payload % 2 ^ 11) 8 (bits payload 18 11) (payload / 2 ^ 19) esc.flatten
/-- A partial of a collective as it stands after it has crossed a bridge or a link in a reduction flit. Which values share its flit is free of
effect, so it is sent beside zeros. -/
def crossed (v : Nat) : Nat :=
  let f := packFlit (v :: List.replicate 7 0)
  (unpackFlit f.1 f.2).headD 0

end Sys2Proof.Machine
end

