-- ==== Sys2Proof/Machine/Control.lean ====
section
/-!
DEFINITION. Control words: branches, divergence regions, barriers and the end of a lane (R204 to R213).
-/
namespace Sys2Proof.Machine

/-- branch_target() (R22, R204). -/
def Ctx.target (x : Ctx) (off : BitVec 21) : DWord := BitVec.ofInt 64 ((x.pc.toNat : Int) + 4 * immJ x.h off)
/-- A lane goes to an address, or raises ILLEGAL 0x09 when the word before it is a hint (R36). -/
def Ctx.transfer (x : Ctx) (s : State) (l : Nat) (t : DWord) : State :=
  if ontoHint s x.g t then x.fail s l (x.illegal 9)
  else modLane (endCoverTaken s x.gid) (x.lk l) fun y => { y with pc := t, run := [] }

/-- bra (R205). -/
def execBra (q : Qual) (off : BitVec 21) (s : State) : Out :=
  runWord (.bra q off) (fun x t =>
    if ontoHint t x.g (x.target off) then x.raiseAll t x.go (x.illegal 9)
    else (lanesOf x.go).foldl (fun u l => x.transfer u l (x.target off)) t) s
/-- call (R206): the return pair is vW−2:vW−1 and holds this word's address plus 4. -/
def execCall (q : Qual) (off : BitVec 21) (s : State) : Out :=
  runWord (.call q off) (fun x t =>
    if ontoHint t x.g (x.target off) then x.raiseAll t x.go (x.illegal 9)
    else (lanesOf x.go).foldl (fun u l =>
      x.transfer (setVregs u (x.lk l) (pairWrites (x.g.window - 2) x.next)) l (x.target off)) t) s
/-- divr (R207): opens an entry whose members are the executing lanes. -/
def execDivr (gd : Guard) (off : BitVec 21) (s : State) : Out :=
  runWord (.divr gd off) (fun x t =>
    let j := x.target off
    match t.groups.get? x.gid with
    | none => t
    | some g =>
      -- R7: the target is not greater than the word's own address
      if immJ x.h off ≤ 0 then x.raiseAll t x.go (x.fi 6 3)
      else if ontoHint t x.g j then x.raiseAll t x.go (x.illegal 9)
      else if g.entries.length = g.divmax then x.raiseAll t x.go (x.fi 6 0)
      else modGroup t x.gid fun g => { g with entries := g.entries ++ [⟨j, x.go, g.seq, 0⟩], seq := g.seq + 1 }) s
/-- The entries of a lane, innermost first (R196): the list is in order of creation. -/
def entriesOf (es : List DivEntry) (l : Nat) : List DivEntry := (es.filter fun e => has e.mask l).reverse
/-- A lane leaves its `n` innermost entries (R208). -/
def leaveEntries (es : List DivEntry) (l n : Nat) : List DivEntry :=
  let out := ((entriesOf es l).take n).map (·.seq)
  es.map fun e => if out.contains e.seq then { e with mask := e.mask &&& ~~~(bitMask l) } else e
/-- brk (R208): the lanes leave `n` regions and go to the target. -/
def execBrk (c : BitVec 5) (off : BitVec 21) (s : State) : Out :=
  runWord (.brk c off) (fun x t =>
    (lanesOf x.go).foldl (fun u l =>
      match u.groups.get? x.gid with
      | none => u
      | some g =>
        if (entriesOf g.entries l).length < c.toNat then x.raise u l (x.fi 6 2)
        else if ontoHint u x.g (x.target off) then x.raise u l (x.illegal 9)
        else x.transfer (modGroup u x.gid fun g => { g with entries := leaveEntries g.entries l c.toNat }) l (x.target off)) t) s
/-- A register-supplied transfer (R209): ALIGN 0x070 for a target that is no multiple of 4. -/
def Ctx.indirect (x : Ctx) (s : State) (target : Nat → DWord) : State :=
  x.acts.foldl (fun t a =>
    let d := target (x.lk a.1)
    if d.toNat % 4 ≠ 0 then x.raiseAll t a.2 (x.fi 7 0 d.toNat 4)
    else if ontoHint t x.g d then x.raiseAll t a.2 (x.illegal 9)
    else (lanesOf a.2).foldl (fun u l => x.transfer u l d) t) s
/-- brx (R209): vpair(A) + 4 × vB. -/
def execBrx (q : Qual) (a b : BitVec 6) (s : State) : Out :=
  runWord (.brx q a b) (fun x t => x.indirect t fun k =>
    vpair x.rs k a.toNat + BitVec.ofNat 64 (4 * (vreg x.rs k b.toNat).toNat)) s
/-- ret (R209). -/
def execRet (q : Qual) (a : BitVec 6) (s : State) : Out :=
  runWord (.ret q a) (fun x t => x.indirect t fun k => vpair x.rs k a.toNat) s
/-- join (R197, R210): an executing lane arrives at its innermost entry and is held, or raises DIVERGE 0x061. -/
def execJoin (gd : Guard) (s : State) : Out :=
  runWord (.join gd) (fun x t =>
    (lanesOf x.go).foldl (fun u l =>
      match (entriesOf ((u.groups.get? x.gid).getD x.g).entries l).head? with
      | some e =>
        if e.pc = x.pcR then
          modLane (modGroup u x.gid fun g =>
            { g with entries := g.entries.map fun y => if y.seq = e.seq then { y with arrived := y.arrived ||| bitMask l } else y })
            (x.lk l) fun y => { y with held := .join }
        else x.raise u l (x.fi 6 1)
      | none => x.raise u l (x.fi 6 1)) t) s
/-- exit (R211): the executing lanes end at once, without a release. -/
def execExit (gd : Guard) (s : State) : Out :=
  runWord (.exit gd) (fun x t => (lanesOf x.go).foldl (fun u l => endLane u (x.lk l)) t) s
/-- cdecl (R212): the executing set becomes the declared set of cN. -/
def execCdecl (q : Qual) (c : BitVec 4) (s : State) : Out :=
  runWord (.cdecl q c) (fun x t =>
    match ((t.groups.get? x.gid).getD x.g).conv.get? c.toNat with
    | some y =>
      if y.signed ≠ 0 then x.raiseAll t x.go (x.fi 5 1)
      else modGroup t x.gid fun g => { g with conv := g.conv.put c.toNat { declared := x.go } }
    | none => modGroup t x.gid fun g => { g with conv := g.conv.put c.toNat { declared := x.go } }) s

/-- The scope of a word whose default is `dflt` (Table 2-6). -/
def Ctx.scopeOr (x : Ctx) (dflt : Nat) : Nat := if x.hasOpx then x.o.scope.toNat else dflt
/-- A lane arrives at barrier `k` of a scope and is held (R213). -/
def arriveBar (s : State) (gid : Nat) (g : Group) (k scope l : Nat) : State :=
  let key := lk gid l
  let s := modLane s key fun y => { y with held := .bar k scope }
  let add (b : Tab (List Nat)) (n : Nat) : Tab (List Nat) := b.put n (((b.get? n).getD []) ++ [key])
  match scope with
  | 0 => modGroup s gid fun g => { g with bars := g.bars.put k (((g.bars.get? k).getD 0) ||| bitMask l) }
  | 1 => modTeam s g.team fun t => { t with bars := add t.bars k }
  | _ =>
    match (s.teams.get? g.team).bind (·.grid) with
    | some gr => modGrid s gr fun y => { y with bars := add y.bars (16 * scope + k) }
    | none => s
/-- The header of the group is cooperative (Table 4-2 coop). -/
def coopGroup (s : State) (g : Group) : Bool := ((headerAt s g.kdom g.kentry).map (·.coop)).getD false
/-- bar (R213): a release at the word's scope, then the lanes arrive and are held. -/
def execBar (gd : Guard) (k : BitVec 4) (s : State) : Out :=
  runWord (.bar gd k) (fun x t =>
    let sc := x.scopeOr 1
    if 2 ≤ sc ∧ !coopGroup t x.g then x.raiseAll t x.go (x.fi 1 3)
    else x.releasing t sc fun u => (lanesOf x.go).foldl (fun v l => arriveBar v x.gid x.g k.toNat sc l) u) s

end Sys2Proof.Machine
end

