-- ==== Sys2Proof/Machine/Fibre.lean ====
section
/-!
DEFINITION. Fibre words: spawn, park, rdy, await, fend, wake (R181 to R187), and the events of the ready tables and bin timers
(R173, R174, R177, R183, R185).
-/
namespace Sys2Proof.Machine

/-- Lanes that fail a check are raised; the others go on as the executing set, and their effects stand (R55; R53, which would withhold the
word's effect from them, gives way). (DEDUCED, log 52) -/
def Ctx.sift (x : Ctx) (s : State) (bad : Nat → Option FaultInfo) : Ctx × State :=
  let fs : List (BitVec 64 × FaultInfo) := x.acts.filterMap fun a => (bad a.1).map fun f => (a.2, f)
  let t := fs.foldl (fun t e => x.raiseAll t e.1 e.2) s
  ({ x with go := fs.foldl (fun m e => m &&& ~~~e.1) x.go }, t)
/-- The lane of an execution that stands for it: the one whose operands are used, or the lowest that takes the result. -/
def standLane (a : Nat × BitVec 64) : Nat := if has a.2 a.1 then a.1 else lowest a.2
/-- The same register value to every lane of an execution, at once: the lanes were held until it (R181). -/
def Ctx.give (x : Ctx) (s : State) (m : BitVec 64) (rs : List (Nat × Word)) : State :=
  (lanesOf m).foldl (fun t l => setVregs t (x.lk l) rs) s
/-- Lanes of a set are held until results are written. -/
def Ctx.holdResult (x : Ctx) (s : State) (m : BitVec 64) : State :=
  (lanesOf m).foldl (fun t l => modLane t (x.lk l) fun y => { y with held := .result }) s

/-! ### spawn (R182) -/

/-- The check of `spawn` that a lane fails. -/
def spawnFail (x : Ctx) (s : State) (a l : Nat) : Option FaultInfo :=
  let e := (vpair x.rs (x.lk l) a).toNat
  if e % 4 ≠ 0 then some (x.fi 7 0 e 4)
  else match headerAt s x.g.stamp e with
    | none => some (x.fi 1 2)
    | some h => if h.teamg ≠ 0 ∨ h.coop ∨ h.roled then some (x.fi 1 3) else none
/-- One `spawn`: the fibre enters its bin, or is refused with a status. -/
def spawnOne (x : Ctx) (d a b : Nat) (sys : Bool) (s : State) (e : Nat × BitVec 64) : State :=
  let k := x.lk e.1
  let en := (vpair x.rs k a).toNat
  match headerAt s x.g.stamp en with
  | none => s
  | some h =>
    let f : Fibre := { args := (upTo b 4).map (vreg x.rs k), resume := en, sys := sys }
    let r := binInsert s (dieOf x.g.core) x.g.stamp x.g.func en h f
    x.give r.2 e.2 [(d, BitVec.ofNat 32 r.1)]
/-- spawn (R182): checks, a release at the word's scope (R110), then the insertions in increasing lane order. -/
def execSpawn (q : Qual) (d a b : BitVec 6) (s : State) : Out :=
  runWord (.spawn q d a b) (fun x t =>
    let r := x.sift t (spawnFail x t a.toNat)
    if r.1.go = 0 then r.2
    else r.1.releasing r.2 (x.scopeOr 2) fun u => r.1.acts.foldl (spawnOne x d.toNat a.toNat b.toNat (x.scopeOr 2 == 3)) u) s

/-! ### park (R183) -/

/-- The checks of `park` on its operands. -/
def parkFail (x : Ctx) (d a l : Nat) : Option FaultInfo :=
  let m := vpair x.rs (x.lk l) d
  let av := (vpair x.rs (x.lk l) a).toNat
  let live := lanesOf m
  if live.any fun n => decide (x.g.window ≤ n) then some (x.fi 1 0)
  else if 16 < live.length then some (x.fi 1 2)
  else if av % 128 ≠ 0 then some (x.fi 7 1 av)
  else none
/-- Entries that a new waiter of a tag takes: its own, and the tag's when it is absent. -/
def waiterNeed (s : State) (dom : Nat) (t : Word) : Nat := if (tagEntry? s dom t).isSome then 1 else 2
/-- No waiter entry is free for the tag of a `park`. -/
def parkFull (x : Ctx) (b : Nat) (s : State) (l : Nat) : Bool :=
  let t := vreg x.rs (x.lk l) b
  !entryRoom s x.g.func (tagHome t) (waiterNeed s x.g.stamp t)
/-- The lanes of a word above `l` make it after lane `l`: until then they wait, and no other lane of the group issues (R176, R181). A fault of
lane `l` has ended the coverage. -/
def Ctx.others (x : Ctx) (l : Nat) (s : State) : State :=
  let rest := x.go &&& ~~~(bitMask l)
  let cut := laneLive s (x.lk l) && (laneAt s (x.lk l)).held == .result
  if rest = 0 then s
  else
    let t := ({ x with cur := { x.cur with lanes := rest } } : Ctx).wait s
    if cut then t else endCover t x.gid
/-- The record store and hold of one `park`, its reservation and release made; a failure gives the reservation up. A record on a host page
whose transaction fails raises XLATE detail 3 (R281). -/
def parkOne (x : Ctx) (d a b : Nat) (s : State) (l : Nat) : State :=
  let k := x.lk l
  let t := vreg x.rs k b
  let av := (vpair x.rs k a).toNat
  match placeOf s x.g av 0 true false with
  | .ok (.mem pa p) =>
    match hostLineFails s x.g.stamp av true 2 128 with
    | (some va, s) => x.raise (dropReserved s k) l (x.accFault ⟨8, 3, va⟩ 128 true)
    | (none, s) =>
      let y := laneAt s k
      let live := (lanesOf (vpair x.rs k d)).map fun r => (r, vreg x.rs k r)
      let bs := recordBytes x.next.toNat x.g.kentry y.preds live t x.g.stamp false y.fpstat
      let part (o : Nat) : Access :=
        { kind := .merge, tok := x.tok, gid := x.gid, lane := k, pair := x.pair, dom := p.dom, arena := p.arena, gen := p.gen, pa := pa + o, size := 64, bytes := (bs.drop o).take 64 }
      let i := s.nextId
      let s := sendAcc (sendAcc s (part 0)) (part 64)
      let r : Park := { lane := k, gid := x.gid, dom := x.g.stamp, func := x.g.func, tag := t, addr := av, deps := [i, i + 1] }
      let f := fresh (modLane s k fun y => { y with parkTag := none })
      x.holdResult { f.2 with parks := f.2.parks.put f.1 r } (bitMask l)
  | .ok (.spm _) => s
  | .error f => x.raise (dropReserved s k) l (x.accFault f 128 true)
/-- The waiter entry that a lane's `park` reserves, and that it keeps while it waits for its release (R183). -/
def parkReserve (x : Ctx) (b : Nat) (s : State) (l : Nat) : State :=
  if (laneAt s (x.lk l)).parkTag.isSome then s
  else
    let t := vreg x.rs (x.lk l) b
    modLane (putTag s x.g.stamp x.g.func t fun e => { e with reserved := e.reserved + 1 }) (x.lk l) fun y => { y with parkTag := some t }
/-- The `park` of the lowest lane: its checks, its waiter entry, its release, then its record; the lanes above it follow. -/
def parkFirst (x : Ctx) (d a b : Nat) (s : State) : State :=
  let l := lowest x.go
  let y : Ctx := { x with go := bitMask l }
  match parkFail x d a l with
  | some f => x.others l (x.raise s l f)
  | none => y.translated s [(vpair x.rs (x.lk l) a).toNat] fun u =>
    if (laneAt u (x.lk l)).parkTag.isNone && parkFull x b u l then x.others l (x.raise u l (x.fi 18 0))
    else y.releasing (parkReserve x b u l) 2 fun v => x.others l (parkOne x d a b v l)
/-- park (R183): lane by lane; the record merges before the waiter registers. -/
def execPark (gd : Guard) (d a b : BitVec 6) (s : State) : Out :=
  runWord (.park gd d a b) (parkFirst · d.toNat a.toNat b.toNat) s
/-- PARK_REGISTRATION (R183): the record has merged; the waiter registers and the lane ends. Where the share of the tag's die has gone
meanwhile, the continuation is displaced (R124). -/
def execParkRegistration (park : Nat) (s : State) : Out :=
  match s.parks.get? park with
  | none => .refused (.notEnabled "PARK_REGISTRATION")
  | some p =>
    if p.deps.any fun i => (s.acc.get? i).isSome then .refused (.notEnabled "PARK_REGISTRATION")
    else
      let s := { s with parks := s.parks.del park }
      if entryShare s p.func (tagHome p.tag) = 0 then .next (displaced (endLane s p.lane) p.dom (((s.groups.get? p.gid).map (·.core)).getD 0) p.addr)
      else
        let s := putTag s p.dom p.func p.tag fun e => { e with reserved := e.reserved - 1, waiters := e.waiters ++ [.record p.addr] }
        .next (endLane (releaseWaiters p.dom p.func p.tag 1 s) p.lane)

/-! ### rdy (R184) and posts (R177) -/

/-- One `rdy`: the post leaves for its tag's home and its lanes are held for the status. -/
def rdyOne (x : Ctx) (d a b : Nat) (sys : Bool) (s : State) (e : Nat × BitVec 64) : State :=
  let k := x.lk e.1
  let p : Post := { dom := x.g.stamp, func := x.g.func, tag := vreg x.rs k a, n := (vreg x.rs k b).toNat, gid := x.gid, lanes := e.2, reg := d, free := false, sys := sys }
  let f := fresh s
  x.holdResult { f.2 with posts := f.2.posts.put f.1 p } e.2
/-- rdy (R184). -/
def execRdy (q : Qual) (d a b : BitVec 6) (s : State) : Out :=
  runWord (.rdy q d a b) (fun x t => x.releasing t (x.scopeOr 2) fun u => x.acts.foldl (rdyOne x d.toNat a.toNat b.toNat (x.scopeOr 2 == 3)) u) s
/-- A post by an engine, a delivery or `eret` leaves for its tag's home. -/
def sendPost (s : State) (dom f : Nat) (t : Word) (n : Nat) (sys : Bool := false) : State :=
  let p : Post := { dom := dom, func := f, tag := t, n := n, free := true, sys := sys }
  { (fresh s).2 with posts := s.posts.put (fresh s).1 p }
/-- A post finds no entry and no room for one (R184, R303). -/
def postBlocked (s : State) (p : Post) : Bool :=
  (tagEntry? s p.dom p.tag).isNone && p.n != 0 && !entryRoom s p.func (tagHome p.tag) 1
/-- An earlier post of the same group has still to arrive: the lanes of one word arrive in increasing order (R176). -/
def postBehind (s : State) (i : Nat) (p : Post) : Bool := s.posts.any fun e => decide (e.1 < i) && e.2.gid == p.gid && !e.2.free
/-- TAG_POST_ARRIVAL (R177, R184): the post is serialised at its entry. A `rdy` that finds no free entry is refused with status 1;
any other post waits for one. -/
def execTagPostArrival (post' : Nat) (s : State) : Out :=
  match s.posts.get? post' with
  | none => .refused (.notEnabled "TAG_POST_ARRIVAL")
  | some p =>
    if (p.free ∧ postBlocked s p) ∨ (!p.free ∧ postBehind s post' p) then .refused (.notEnabled "TAG_POST_ARRIVAL")
    else
      let blocked := postBlocked s p
      let s := { s with posts := s.posts.del post' }
      let s := if blocked then s else post s p.dom p.func p.tag p.n p.sys
      .next ((lanesOf p.lanes).foldl (fun t l =>
        let k := lk p.gid l
        if !laneLive t k then t
        else modLane (setVreg t k p.reg (if blocked then 1 else 0)) k fun y => if y.held = .result then { y with held := .none } else y) s)

/-! ### await (R185) -/

/-- The check of `await` on its time limit. -/
def awaitFail (x : Ctx) (b l : Nat) : Option FaultInfo :=
  if (vreg x.rs (x.lk l) b).toNat / 2 ^ 20 ≠ 0 then some (x.fi 1 2) else none
/-- One `await`: a count is taken, or the lanes go on at once with false, or they wait. -/
def awaitOne (x : Ctx) (pn a b : Nat) (s : State) (e : Nat × BitVec 64) : State :=
  let k := x.lk e.1
  let t := vreg x.rs k a
  let w := (vreg x.rs k b).toNat
  let r := takeOne s x.g.stamp x.g.func t
  let put (s : State) (v : Bool) : State := (lanesOf e.2).foldl (fun u l => setPreg u (x.lk l) pn v) s
  if r.1 then put (x.acquire r.2 2) true
  else if w = 0 ∨ !entryRoom s x.g.func (tagHome t) (waiterNeed s x.g.stamp t) then put s false
  else
    let i := standLane e
    let s := x.hold s e.2 fun l => .await t (x.now + w) pn (if l = i then e.2 else 0)
    registerWaiter s x.g.stamp x.g.func t (.lane (x.lk i))
/-- await (R185). -/
def execAwait (q : Qual) (d a b : BitVec 6) (s : State) : Out :=
  runWord (.await q d a b) (fun x t =>
    let r := x.sift t (awaitFail x b.toNat)
    r.1.acts.foldl (awaitOne x (predNo d.toNat x.o.pxD) a.toNat b.toNat) r.2) s
/-- A waiting lane gives up its place at its tag. -/
def dropWaiter (s : State) (dom f : Nat) (t : Word) (k : Nat) : State :=
  if (tagEntry? s dom t).isNone then s
  else putTag s dom f t fun e => { e with waiters := e.waiters.filter fun w => w != .lane k }
/-- AWAIT_TIMEOUT (R185). -/
def execAwaitTimeout (gid lane : Nat) (s : State) : Out :=
  match s.groups.get? gid, s.lanes.get? (lk gid lane) with
  | some g, some y =>
    (match y.held with
    | .await t deadline _ members =>
      if members = 0 ∨ acNow s (dieOf g.core) < deadline then .refused (.notEnabled "AWAIT_TIMEOUT")
      else .next (wakeAwait (dropWaiter s g.stamp g.func t (lk gid lane)) (lk gid lane) false)
    | _ => .refused (.notEnabled "AWAIT_TIMEOUT"))
  | _, _ => .refused (.notEnabled "AWAIT_TIMEOUT")

/-! ### fend and wake (R186, R187) -/

/-- fend (R186): a device-scope release, then the lanes end. -/
def execFend (gd : Guard) (s : State) : Out :=
  runWord (.fend gd) (fun x t => x.releasing t 2 fun u => (lanesOf x.go).foldl (fun v l => endLane v (x.lk l)) u) s
/-- The dies that a `wake` covers. -/
def Ctx.covered (x : Ctx) : List Nat := if x.scopeOr 2 < 2 then [dieOf x.g.core] else upTo 0 Config.dies
/-- The bins of a domain at an entry address on a die, under any header, launch as on timer expiry. -/
def flushBins (dom entry : Nat) (s : State) (die : Nat) : State :=
  s.bins.foldl (fun t e => if e.1 / 256 = die ∧ e.2.dom = dom ∧ e.2.entry = entry then launchBin t e.1 else t) s
/-- wake in flush mode (R187). -/
def execWake (q : Qual) (a : BitVec 6) (s : State) : Out :=
  runWord (.wake q a) (fun x t =>
    x.acts.foldl (fun u e => x.covered.foldl (flushBins x.g.stamp (vpair x.rs (x.lk e.1) a.toNat).toNat) u) t) s
/-- The check of a bin time. -/
def wakeFail (x : Ctx) (b l : Nat) : Option FaultInfo :=
  let v := (vreg x.rs (x.lk l) b).toNat
  if v = 0 ∨ 1000 < v then some (x.fi 1 2) else none
/-- wake in timer mode (R187): timers that start later take the new time. -/
def execWakeTmr (q : Qual) (b : BitVec 6) (s : State) : Out :=
  runWord (.wakeTmr q b) (fun x t =>
    let r := x.sift t (wakeFail x b.toNat)
    r.1.acts.foldl (fun u e => modFunc u x.g.func fun f =>
      { f with binTime := x.covered.foldl (fun bt d => setAt bt d (vreg x.rs (x.lk e.1) b.toNat).toNat) f.binTime }) r.2) s
/-- BIN_TIMER_EXPIRY (R173, R174). -/
def execBinTimerExpiry (die bin : Nat) (s : State) : Out :=
  match s.bins.get? (die * 256 + bin) with
  | some b =>
    (match b.timer with
    | some t =>
      if bin < 256 ∧ t ≤ s.wall then .next (launchBin { s with bins := s.bins.put (die * 256 + bin) { b with timer := none } } (die * 256 + bin))
      else .refused (.notEnabled "BIN_TIMER_EXPIRY")
    | none => .refused (.notEnabled "BIN_TIMER_EXPIRY"))
  | none => .refused (.notEnabled "BIN_TIMER_EXPIRY")
/-- CONTINUATION_BIN_ENTRY (R174): a held continuation enters its bin once that has room; its waiter entry is free from then. -/
def execContinuationBinEntry (held : Nat) (s : State) : Out :=
  match s.heldConts.get? held with
  | none => .refused (.notEnabled "CONTINUATION_BIN_ENTRY")
  | some c =>
    match headerAt s c.dom c.kentry with
    | none => .refused (.notEnabled "CONTINUATION_BIN_ENTRY")
    | some h =>
      match binInsert { s with heldConts := s.heldConts.del held } c.die c.dom c.func c.entry h c.fibre with
      | (0, t) => .next t
      | _ => .refused (.notEnabled "CONTINUATION_BIN_ENTRY")

end Sys2Proof.Machine
end

