-- ==== Sys2Proof/Machine/Place.lean ====
section
/-!
DEFINITION. Places on cores: partition slots and their registers (R128 to R132), register windows, banks and tiles, the placement of
teams and bin groups (R108, R167, R173, R472), claims and grants (R108), and loans of margin cores (R115, R116).
-/
namespace Sys2Proof.Machine

/-! ### What is taken on a core -/

/-- Bytes of register file that a group's window and divergence entries take (R86 check 4, R138). -/
def windowBytes (width window divmax : Nat) : Nat := width * (window + divmax) * 4
/-- A taken range of the register file: domain, partition, first byte, bytes. -/
structure RfUse where
  dom : Nat
  part : Nat
  base : Nat
  len : Nat
  deriving DecidableEq, Repr
/-- The register ranges in use on a core: windows of resident groups, and callers' windows behind open gates. -/
def rfUses (s : State) (core : Nat) : List RfUse :=
  s.groups.flatMap fun e =>
    let g := e.2
    if g.core ≠ core ∨ g.retired then []
    else ⟨g.stamp, g.part, g.rfBase, windowBytes g.width g.window g.divmax⟩ ::
      (match g.gate with
       | some f => [⟨f.stamp, g.part, f.rfBase, windowBytes g.width f.window f.divmax⟩]
       | none => [])
/-- The tile ranges in use on a core: domain, first tile, tiles (R131, R452). -/
def tileUses (s : State) (core : Nat) : List (Nat × Nat × Nat) :=
  s.teams.filterMap fun e =>
    match e.2.tbase[core - e.2.core]? with
    | some b => if e.2.core ≤ core ∧ e.2.tiles ≠ 0 then some (e.2.dom, b, e.2.tiles) else none
    | none => none
/-- The banks in use on a core, with their domains. -/
def bankUses (s : State) (core : Nat) : List (Nat × Nat) :=
  s.teams.flatMap fun e => e.2.banks.filterMap fun b => if b.1 = core then some (e.2.dom, b.2) else none
/-- The domains resident on a core (R128); posted receives and queued arrivals keep a slot valid (R390). -/
def residents (s : State) (core : Nat) : List Nat :=
  dedup ((rfUses s core).map (·.dom) ++ (tileUses s core).map (·.1) ++ (bankUses s core).map (·.1) ++
    s.recvs.filterMap (fun e => if e.2.core = core then some e.2.dom else none) ++ s.queues.filterMap (fun e => if e.2.core = core then some e.2.dom else none))
/-- The least interval that covers ranges: start and end; 0, 0 for none. -/
def hull (rs : List (Nat × Nat)) : Nat × Nat :=
  match rs with
  | [] => (0, 0)
  | r :: t => t.foldl (fun h e => (min h.1 e.1, max h.2 (e.1 + e.2))) (r.1, r.1 + r.2)
/-- The register range of a domain on a core in KiB, the same in each partition (Table 7-2). -/
def rfHull (us : List RfUse) (dom : Nat) : Nat × Nat :=
  hull ((us.filter (·.dom == dom)).map fun u => (u.base / 1024, (u.base + u.len + 1023) / 1024 - u.base / 1024))
/-- The tile range of a domain on a core. -/
def tileHull (us : List (Nat × Nat × Nat)) (dom : Nat) : Nat × Nat := hull ((us.filter (·.1 == dom)).map (·.2))
/-- Two half-open intervals meet. -/
def meets (a b : Nat × Nat) : Bool := decide (a.1 < b.2) && decide (b.1 < a.2)
/-- A slot grows only at the ends of its range: a range `r` that touches or meets the interval `h` (R130). -/
def adjoins (r h : Nat × Nat) : Bool := decide (r.1 ≤ h.2) && decide (h.1 ≤ r.2)
/-- A register range fits: it is free in its partition, and the domain's slot can grow to it at one of its ends (R130). -/
def rfFits (us : List RfUse) (part dom base len : Nat) : Bool :=
  let us' := ⟨dom, part, base, len⟩ :: us
  let h := rfHull us dom
  decide (base + len ≤ Config.rfBytes) && (!(us.any fun u => u.dom == dom) || adjoins (base, base + len) (h.1 * 1024, h.2 * 1024)) &&
  !(us.any fun u => u.part == part && meets (base, base + len) (u.base, u.base + u.len)) &&
  !(us.any fun u => u.dom != dom && meets (rfHull us' dom) (rfHull us u.dom))
/-- The lowest place for a window inside the register range that the domain's slot has already. (DESIGN CHOICE, log 20) -/
def rfInside (us : List RfUse) (part dom len : Nat) : Option Nat :=
  let h := rfHull us dom
  if us.any fun u => u.dom == dom then
    ((upTo (h.1 * 16) ((h.2 - h.1) * 16)).find? fun i => decide (i * 64 + len ≤ h.2 * 1024) &&
      !(us.any fun u => u.part == part && meets (i * 64, i * 64 + len) (u.base, u.base + u.len))).map (· * 64)
  else none
/-- A place for a window in a partition: inside the slot's range, else the lowest to which the slot can grow (R130, R472). (DESIGN CHOICE,
log 20) -/
def rfFind (us : List RfUse) (part dom len : Nat) : Option Nat :=
  match rfInside us part dom len with
  | some b => some b
  | none => ((upTo 0 (Config.rfBytes / 64)).find? fun i => rfFits us part dom (i * 64) len).map (· * 64)
/-- The place that a group takes in a partition: its slot grows only where no partition has room inside the slot's range (R130, R472). -/
def rfPlace (us : List RfUse) (part dom len : Nat) : Option Nat :=
  match rfInside us part dom len with
  | some b => some b
  | none => if (upTo 0 12).any fun p => (rfInside us p dom len).isSome then none else rfFind us part dom len
/-- A tile range is free. -/
def tileFree (us : List (Nat × Nat × Nat)) (b n : Nat) : Bool := !(us.any fun u => meets (b, b + n) (u.2.1, u.2.1 + u.2.2))
/-- The lowest place for a tile range inside the slot's range, else the lowest to which the slot can grow (R131). (DESIGN CHOICE, log 20) -/
def tileFind (s : State) (core dom n : Nat) : Option Nat :=
  let us := tileUses s core
  let h := tileHull us dom
  if n = 0 then some 0
  else match (upTo h.1 (h.2 + 1 - h.1 - n)).find? fun b => tileFree us b n with
    | some b => some b
    | none => (upTo 0 (Config.tiles + 1 - n)).find? fun b =>
      tileFree us b n && (!(us.any fun u => u.1 == dom) || adjoins (b, b + n) h) && !(us.any fun u => u.1 != dom && meets (tileHull ((dom, b, n) :: us) dom) (tileHull us u.1))
/-- The lowest free banks of a core. (DESIGN CHOICE, log 20) -/
def bankFind (s : State) (core n : Nat) : Option (List (Nat × Nat)) :=
  let used := (bankUses s core).map (·.2)
  let free := (upTo 0 Config.banks).filter fun b => !used.contains b
  if free.length < n then none else some ((free.take n).map fun b => (core, b))
/-- Write-backs are still on their way from a pair that their domain has left: its ways pass to no other domain before they have merged
(R132). -/
def pairLeaving (s : State) (pair : Nat) : Bool :=
  s.acc.any fun e => e.2.pair == pair && (slotOf s pair e.2.dom).isNone && (match e.2.kind with
    | .victim _ => true
    | _ => false)
/-- The domain is resident on the core, or a slot is free and the pair's ways are (R128, R132). -/
def slotRoom (s : State) (core dom : Nat) : Bool :=
  (residents s core).contains dom || (decide ((residents s core).length < Config.slots) && !pairLeaving s (pairOf core))

/-! ### Slot registers (Table 7-2) -/

/-- The slot of a core. -/
def slotAt (s : State) (core k : Nat) : Slot := (s.slots.get? (core * 8 + k)).getD {}
/-- The way mask of a domain in a pair: the one it holds, else its partner's, else the lowest way that no slot of the pair holds
(R130). -/
def waysFor (s : State) (core dom : Nat) : Word :=
  let pair := core / 2 * 2
  let all := (upTo (pair * 8) 16).map fun i => (s.slots.get? i).getD {}
  match all.find? fun x => slotHolds x dom && x.dpl1 != 0 with
  | some x => x.dpl1
  | none =>
    let used := all.foldl (fun (m : Word) x => m ||| x.dpl1) 0
    match (upTo 0 16).find? fun w => !used.getLsbD w with
    | some w => BitVec.ofNat 32 (2 ^ w)
    | none => 0
/-- The registers of a domain's slot on a core. -/
def slotFor (s : State) (core dom : Nat) : Slot :=
  let r := rfHull (rfUses s core) dom
  let t := tileHull (tileUses s core) dom
  let gates := (s.groups.filter fun e => e.2.core == core && e.2.gate.isSome && e.2.stamp == dom).length
  { dpid := BitVec.ofNat 32 (2 ^ 31 + dom), dprf := BitVec.ofNat 32 ((r.2 - r.1) * 2 ^ 16 + r.1),
    dpspm := BitVec.ofNat 32 ((bankUses s core).foldl (fun n b => if b.1 = dom then n + 2 ^ b.2 else n) 0),
    dpacc := BitVec.ofNat 32 ((t.2 - t.1) * 2 ^ 16 + t.1), dpl1 := waysFor s core dom, dpgate := BitVec.ofNat 32 gates }
/-- A domain that leaves a pair: its ways are written back and invalidated (R132). -/
def leavePair (s : State) (pair dom : Nat) : State :=
  ((s.l1.filter fun e => keyPair e.1 == pair && e.2.dom == dom).map (·.1)).foldl l1Evict s
/-- Slot `k` follows its domain's residency. -/
def syncSlot (core : Nat) (s : State) (k : Nat) : State :=
  let x := slotAt s core k
  let dom := fld x.dpid 0 6
  if fld x.dpid 31 1 = 0 then s
  else if (residents s core).contains dom then { s with slots := s.slots.put (core * 8 + k) (slotFor s core dom) }
  else
    let s := { s with slots := s.slots.del (core * 8 + k) }
    let other := core / 2 * 2 + (1 - core % 2)
    if (upTo 0 8).any fun j => slotHolds (slotAt s other j) dom then s else leavePair s (core / 2) dom
/-- A domain newly resident takes the lowest free slot. -/
def takeSlot (core : Nat) (s : State) (dom : Nat) : State :=
  if (upTo 0 8).any fun k => slotHolds (slotAt s core k) dom then s
  else match (upTo 0 8).find? fun k => fld (slotAt s core k).dpid 31 1 == 0 with
    | some k => { s with slots := s.slots.put (core * 8 + k) (slotFor s core dom) }
    | none => s
/-- The slots of a core as its residents require (R128, R130). -/
def syncCore (s : State) (core : Nat) : State :=
  let s := (upTo 0 8).foldl (syncSlot core) s
  (residents s core).foldl (takeSlot core) s
/-- Every core on which something is or was resident. -/
def syncSlots (s : State) : State :=
  let cores := s.groups.map (·.2.core) ++ s.teams.flatMap (fun e => if e.2.pair then [e.2.core, e.2.core + 1] else [e.2.core]) ++ s.slots.map (·.1 / 8)
  (dedup cores).foldl syncCore s

/-! ### Far memory of a function (R267, R433) -/

/-- Bytes of a team's full image: team header, group records with every register of W, every bank and every tile (R433 to R438).
(DESIGN CHOICE, log 34) -/
def imageBytes (h : Header) (groups : Nat) : Nat :=
  alignUp (512 + groups * alignUp (256 + 64 * h.width + windowBytes h.width h.window h.divmax) 64 + (64 + h.banks * Config.bankBytes) +
    alignUp ((if Config.banks < h.banks then 2 else 1) * h.tiles * 1028) 64) 4096
/-- The far channels of a function. -/
def channelsOf (s : State) (f : Nat) : List Nat := (upTo 0 Config.channels).filter fun c => (funcAt s f).channels.getLsbD c
/-- The ranges of far memory that pages and module-reserved frames take in a channel: first address and bytes. -/
def farUses (s : State) (chan : Nat) : List (Nat × Nat) :=
  ((s.pages.map fun e => (e.2.pa, e.2.size)) ++ s.frames.map fun e => (e.pa, e.size)).filter fun r => r.1 / Config.channelBytes == chan
/-- Where the frames of a channel end: at the header region (R270), and in a channel of the steward's at the place that the descriptor region
has or may move to (R144). (DESIGN CHOICE, log 34) -/
def farTop (s : State) (chan : Nat) : Nat :=
  if (funcAt s 0).channels.getLsbD chan then Config.channelMappable - Config.descBytes else Config.channelMappable
/-- The lowest free frame of a channel at an alignment; it lies wholly within the channel (R267). (DESIGN CHOICE, log 20) -/
def frameIn (s : State) (chan size al : Nat) : Option Nat :=
  let us := farUses s chan
  let free (p : Nat) : Bool :=
    p / Config.channelBytes == chan && decide (p % Config.channelBytes + size ≤ farTop s chan) && !(us.any fun u => meets (p, p + size) (u.1, u.1 + u.2))
  ((chan * Config.channelBytes :: us.map fun u => alignUp (u.1 + u.2) al).filter free).foldl (fun (m : Option Nat) p => match m with
    | some q => some (min p q)
    | none => some p) none
/-- A module-reserved frame is drawn from a function's far channels, the lowest that has room (R267). (DESIGN CHOICE, log 34) -/
def drawFrame (s : State) (use : FrameUse) (f size al : Nat) : Option State :=
  ((channelsOf s f).findSome? fun c => frameIn s c size al).map fun pa => { s with frames := s.frames ++ [⟨use, f, pa, size⟩] }
/-- The frame of a team's image is given back (R452). -/
def dropImageFrame (s : State) (tid : Nat) : State := { s with frames := s.frames.filter fun e => e.use != .image tid }
/-- Page entries of a domain's tables, those of the vault window among them (R268). -/
def tableEntries (s : State) (dom : Nat) : Nat := s.pages.foldl (fun n e => if e.1 / 2 ^ 57 = dom then n + 1 else n) (Config.vwSpan / Config.page)
/-- Frames that a function's page tables need: 64 KiB for every 8,192 entries begun. (DESIGN CHOICE, log 34) -/
def tablesNeeded (s : State) (f : Nat) : Nat := match (funcAt s f).dom with
  | some d => (tableEntries s d + 8191) / 8192
  | none => 0
/-- Frames of a use that a function holds. -/
def framesOf (s : State) (use : FrameUse) (f : Nat) : List Frame := s.frames.filter fun e => e.use == use && e.func == f
/-- A function's page tables have the frames that they need. -/
def tablesHeld (s : State) (f : Nat) : Bool := decide (tablesNeeded s f ≤ (framesOf s .table f).length)
/-- Frames are drawn for a function's page tables while they need one and a channel has room. -/
def drawTables (f : Nat) : Nat → State → State
  | 0, s => s
  | n + 1, s =>
    if tablesHeld s f then s
    else match drawFrame s .table f Config.page Config.page with
      | some u => drawTables f n u
      | none => s
/-- A frame of page tables or of Jasper's state stays: its channel is still its function's, and it is needed. -/
def frameStays (s : State) (seen : List Frame) (e : Frame) : Bool :=
  let here := (funcAt s e.func).channels.getLsbD (e.pa / Config.channelBytes)
  match e.use with
  | .image _ => true
  | .jasper => here
  | .table => here && decide ((seen.filter fun x => x.use == .table && x.func == e.func).length < tablesNeeded s e.func)
/-- The frames that stay, in order. -/
def keepFrames (s : State) : List Frame := s.frames.foldl (fun l e => if frameStays s l e then l ++ [e] else l) []
/-- The module-reserved frames follow what they hold: each function's page tables, and Jasper's own state in the steward's channels (R267).
(DESIGN CHOICE, log 34) -/
def syncFrames (s : State) : State :=
  let s := { s with frames := keepFrames s }
  let s := s.funcs.foldl (fun t e => drawTables e.1 (tablesNeeded t e.1) t) s
  if framesOf s .jasper 0 = [] then (drawFrame s .jasper 0 Config.page Config.page).getD s else s

/-! ### Making teams -/

/-- A fibre takes lane `l` of a group: its registers, predicates, FPSTAT and PC (R85, R180, R182). -/
def seatLane (gid : Nat) (s : State) (e : Nat × Fibre) : State :=
  let k := lk gid e.1
  let f := e.2
  let s := { s with lanes := s.lanes.put k { pc := BitVec.ofNat 64 f.resume, preds := f.preds ||| 1, fpstat := f.fpstat } }
  setVregs s k (((upTo 0 f.args.length).zip f.args) ++ f.live)
/-- A group to be placed: its position, GRIDIX and fibres. -/
structure Seat where
  pos : Nat
  gridix : Word
  fibres : List Fibre
  deriving DecidableEq, Repr
/-- Role of a position (R83, R170). -/
def roleOf (h : Header) (pos : Nat) : Nat := if h.roled then h.rolemap / 4 ^ pos % 4 else 0
/-- Place one group of a team on a partition; 12 to 23 are the partitions of the pair's second core. A group that has issued no word yet counts
its age from its placement (R190). (DESIGN CHOICE, log 6) -/
def placeGroup (tid f dom core prio : Nat) (h : Header) (s : State) (part : Nat) (st : Seat) : Option State :=
  let c := core + part / 12
  match rfPlace (rfUses s c) (part % 12) dom (windowBytes h.width h.window h.divmax) with
  | none => none
  | some base =>
    let gid := s.nextId
    let g : Group :=
      { team := tid, core := c, part := part % 12, pos := st.pos, width := h.width, gridix := st.gridix, prio := prio, stamp := dom, func := f,
        kdom := dom, kentry := h.entry, window := h.window, divmax := h.divmax, uchk := h.uchk, schk := h.schk, role := roleOf h st.pos,
        rfBase := base, lastIssue := acNow s (dieOf c), placed := gid }
    let s := { (fresh s).2 with groups := s.groups.put gid g }
    let s := modTeam s tid fun t => { t with groups := t.groups ++ [gid] }
    some (((upTo 0 st.fibres.length).zip st.fibres).foldl (seatLane gid) s)
/-- Place the groups of a team, all of them or none. -/
def placeGroups (tid f dom core prio : Nat) (h : Header) : State → List (Nat × Seat) → Option State
  | s, [] => some s
  | s, e :: t => match placeGroup tid f dom core prio h s e.1 e.2 with
    | some u => placeGroups tid f dom core prio h u t
    | none => none
/-- The banks of a team on its core or pair (R266). -/
def teamBanks (s : State) (core n : Nat) : Option (List (Nat × Nat)) :=
  match bankFind s core (min n Config.banks), bankFind s (core + 1) (n - min n Config.banks) with
  | some a, some b => some (a ++ b)
  | _, _ => none
/-- The tile ranges of a team: one on each of its cores (R131). -/
def teamTiles (s : State) (core dom n : Nat) (pair : Bool) : Option (List Nat) :=
  match tileFind s core dom n, (if pair then (tileFind s (core + 1) dom n).map fun b => [b] else some []) with
  | some a, some r => some (a :: r)
  | _, _ => none
/-- A header's team spans a core pair (R82, R167). -/
def pairTeam (h : Header) : Bool := decide (Config.banks < h.banks)
/-- The scope at which the first instruction of placed fibres acquires: system, where one of them was spawned or released at that scope (R93,
R110, R178). -/
def seatScope (seats : List (Nat × Seat)) : Nat := if seats.any fun e => e.2.fibres.any (·.sys) then 3 else 2
/-- Place a team on a core or pair (R167): its banks, tiles, windows and lanes, and the frame of its image; the first word of each lane
follows an acquire (R93, R110, R178). None when there is no room, for the team or for its full image (R433). -/
def placeTeam (s : State) (f dom core prio : Nat) (h : Header) (teamix : Word) (grid : Option Nat) (seats : List (Nat × Seat)) : Option (Nat × State) :=
  let pair := pairTeam h
  if (pair ∧ core % 2 ≠ 0) ∨ !slotRoom s core dom ∨ (pair ∧ !slotRoom s (core + 1) dom) ∨ seats.any (fun e => (if pair then 24 else 12) ≤ e.1) then none
  else match teamBanks s core h.banks, teamTiles s core dom h.tiles pair, drawFrame s (.image s.nextId) f (imageBytes h seats.length) 4096 with
    | some banks, some tb, some s =>
      let tid := s.nextId
      let t : Team :=
        { dom := dom, func := f, core := core, pair := pair, kentry := h.entry, teamix := teamix, grid := grid, groups := [], prio := prio,
          banks := banks, tiles := h.tiles, tbase := tb }
      (placeGroups tid f dom core prio h { (fresh s).2 with teams := s.teams.put tid t } seats).map fun u =>
        (tid, acquireAt (syncCore (syncCore u core) (if pair then core + 1 else core)) (pairOf core) dom (seatScope seats))
    | _, _, _ => none

/-! ### Cores of a unit set (R113 to R116) -/

/-- A function's own core, guaranteed or margin. -/
def ownsCore (s : State) (f core : Nat) : Bool := (funcAt s f).cores.getLsbD core || (funcAt s f).margin.getLsbD core
/-- The function holds a core on a die. -/
def holdsDie (s : State) (f die : Nat) : Bool := (upTo (die * 64) 64).any fun c => ownsCore s f c || s.loans.get? c == some f
/-- A pre-emption of the domain is open on the core. -/
def preempting (s : State) (dom core : Nat) : Bool := s.preempts.any fun e => e.2.dom == dom && e.2.cores.contains core
/-- Placements of the function on the core are not held back: the die is up, the function runs, and no other time-sliced function is still
there. -/
def coreOpen (s : State) (f core : Nat) : Bool :=
  let x := funcAt s f
  decide (core < Config.cores) && !s.dieDown.contains (dieOf core) && !x.halted && !x.resetting && (!x.sliced || x.running) &&
  !preempting s (x.dom.getD 64) core && (!x.sliced || !(s.groups.any fun e => e.2.core == core && !e.2.retired && e.2.func != f && (funcAt s e.2.func).sliced))
/-- The function may place work on a core of its own: one that is not lent. -/
def ownMay (s : State) (f core : Nat) : Bool := coreOpen s f core && ownsCore s f core && (s.loans.get? core).isNone
/-- A core that is another owner's becomes lent; the owner's placement ends its availability. -/
def noteUse (s : State) (f core : Nat) : State :=
  let s := { s with available := s.available.filter (· != core) }
  if ownsCore s f core then s else { s with loans := s.loans.put core f }
/-- The owner of a margin core. -/
def marginOwner (s : State) (core : Nat) : Option Nat := (s.funcs.find? fun e => e.2.margin.getLsbD core).map (·.1)

/-! ### Grids (R108, R109) -/

/-- Groups that a team index creates (R108 Indices). -/
def teamGroups (g : Grid) (ix : Nat) : Nat := min (g.teamg + 1) (g.groups - ix * (g.teamg + 1))
/-- The seats of a team of a grid: every lane of each group starts at the entry with the argument words (R85). -/
def gridSeats (g : Grid) (h : Header) (ix : Nat) (parts : List Nat) : List (Nat × Seat) :=
  ((upTo 0 parts.length).zip parts).map fun e =>
    (e.2, ⟨e.1, BitVec.ofNat 32 (ix * (g.teamg + 1) + e.1), rep h.width { args := g.args, resume := h.entry }⟩)
/-- The header of a grid. -/
def gridHeader (s : State) (g : Grid) : Option Header := headerAt s g.dom g.kentry
/-- Place team `ix` of a grid where `may` allows a core. -/
def placeGridTeamBy (may : State → Nat → Nat → Bool) (s : State) (gr : Nat) (g : Grid) (ix core : Nat) (parts : List Nat) : Option State :=
  match gridHeader s g with
  | none => none
  | some h =>
    if parts.length ≠ teamGroups g ix ∨ !may s g.func core ∨ (pairTeam h ∧ !may s g.func (core + 1)) then none
    else match placeTeam s g.func g.dom core g.prio h (BitVec.ofNat 32 ix) (some gr) (gridSeats g h ix parts) with
      | none => none
      | some (tid, t) =>
        let cs := if pairTeam h then [core, core + 1] else [core]
        let t := cs.foldl (fun u c => noteUse u g.func c) t
        some (modGrid t gr fun y => { y with placedTeams := y.placedTeams ++ [tid], pairs := dedup (y.pairs ++ [pairOf core]) })
/-- A partition with room for each group in turn, of `k` partitions on one or two cores: the first that fits. -/
def pickParts (dom len k : Nat) : Nat → List RfUse × List RfUse → List Nat → List Nat
  | 0, _, acc => acc
  | n + 1, us, acc =>
    match (upTo 0 k).findSome? fun p => (rfPlace (if p < 12 then us.1 else us.2) (p % 12) dom len).map fun b => (p, b) with
    | none => acc
    | some (p, b) =>
      let u : RfUse := ⟨dom, p % 12, b, len⟩
      pickParts dom len k n (if p < 12 then (u :: us.1, us.2) else (us.1, u :: us.2)) (acc ++ [p])
/-- Partitions of a core or pair for the groups of a team of the grid. -/
def firstParts (s : State) (g : Grid) (h : Header) (core n : Nat) : List Nat :=
  pickParts g.dom (windowBytes h.width h.window h.divmax) (if pairTeam h then 24 else 12) n (rfUses s core, rfUses s (core + 1)) []
/-- Team `ix` of the grid placed on the first core of a die that has room for it. -/
def placeOnDie (may : State → Nat → Nat → Bool) (s : State) (g : Grid) (die ix : Nat) : Option State :=
  match gridHeader s g with
  | none => none
  | some h => (upTo (die * 64) 64).findSome? fun c => placeGridTeamBy may s 0 g ix c (firstParts s g h c (teamGroups g ix))
/-- How many teams of a list of indices a die can place at once, and the state with them placed. -/
def placeMany (may : State → Nat → Nat → Bool) (g : Grid) (die : Nat) : List Nat → State → Nat × State
  | [], s => (0, s)
  | ix :: t, s =>
    match placeOnDie may s g die (if ix < g.teams then ix else 0) with
    | some u => let r := placeMany may g die t u
                (r.1 + 1, r.2)
    | none => (0, s)
/-- Indices granted to a die and not yet started. -/
def unstarted (g : Grid) (die : Nat) : List Nat :=
  g.grants.flatMap fun b => if b.die = die then (upTo b.first b.count).filter fun i => !b.started.contains i else []
/-- Indices of the grid are still to be granted. -/
def ungranted (g : Grid) : Bool := !g.abandoned && !g.aborted && (decide (g.next ≠ g.teams) || g.again != [])

/-! ### Waiting placements, idle and lent cores (R115) -/

/-- The die on which a bin's group is placed: the bin's own, or the lowest-numbered that holds a core of the unit set. -/
def binDie (s : State) (f die : Nat) : Nat :=
  if holdsDie s f die then die else ((upTo 0 Config.dies).find? fun d => holdsDie s f d).getD die
/-- Every team of a cooperative grid can be placed at once on the function's own cores as they stand (R109). -/
def coopNow (s : State) (g : Grid) : Bool :=
  (g.dies.foldl (fun (a : Nat × State) d =>
    if s.dieDown.contains d then a else let r := placeMany ownMay g d (upTo a.1 (g.teams - a.1)) a.2
                                        (a.1 + r.1, r.2)) (0, s)).1 == g.teams
/-- A grid of which indices are still to be granted waits for room on a die: the function's own cores there can take no further team of it, or,
of a cooperative grid, its own cores cannot take every team (R109, R115). -/
def gridWaits (s : State) (g : Grid) (die : Nat) : Bool :=
  ungranted g && g.dies.contains die &&
  (if g.coop && g.next == 0 then !coopNow s g else (placeOnDie ownMay s g die (min g.next (g.teams - 1))).isNone)
/-- A placement of the function waits for room on a die: granted teams, launched bins and images that are not on a core yet, and grids with
indices still to be granted. -/
def waitingWork (s : State) (f die : Nat) : Bool :=
  (s.grids.any fun e => e.2.func == f && !e.2.aborted && unstarted e.2 die != []) ||
  (s.bins.any fun e => e.2.func == f && e.2.waiting.isSome && binDie s f (e.1 / 256) == die) ||
  (s.images.any fun e => e.2.teamRec.func == f) ||
  (s.grids.any fun e => e.2.func == f && gridWaits s e.2 die)
/-- The function may place work on the core: its own and not lent, or borrowed, or idle and free to borrow; an owner whose placement waits
for room lends no more (R115), and a core guaranteed to another function is never borrowed (R113). -/
def mayUse (coop : Bool) (s : State) (f core : Nat) : Bool :=
  ownMay s f core ||
  (coreOpen s f core && !coop &&
    (s.loans.get? core == some f || (s.available.contains core && (s.loans.get? core).isNone && !(funcAt s f).sliced && holdsDie s f (dieOf core))) &&
    !(s.funcs.any fun e => e.1 != f && e.2.cores.getLsbD core) &&
    !(match marginOwner s core with
      | some o => waitingWork s o (dieOf core)
      | none => false))
/-- `mayUse` of a team's core or pair. -/
def mayUseTeam (s : State) (f core : Nat) (pair coop : Bool) : Bool := mayUse coop s f core && (!pair || mayUse coop s f (core + 1))
/-- Place team `ix` of a grid on a core that its function may use. -/
def placeGridTeam (s : State) (gr : Nat) (g : Grid) (ix core : Nat) (parts : List Nat) : Option State :=
  placeGridTeamBy (mayUse g.coop) s gr g ix core parts

/-! ### Claims and grants (R108, R109) -/

/-- Teams, at most `n`, that a die can place at once beyond those that a list names (R108). -/
def claimRoom (s : State) (g : Grid) (die n : Nat) : Nat := (placeMany (mayUse g.coop) g die (upTo g.next n) s).1
/-- The granted teams of a cooperative grid that have not started can all be placed at once on their dies. -/
def restFits (s : State) (g : Grid) : Bool :=
  (g.dies.foldl (fun (a : Bool × State) d =>
    let ixs := unstarted g d
    let r := placeMany (mayUse g.coop) g d ixs a.2
    (a.1 && r.1 == ixs.length, r.2)) (true, s)).1
/-- A placement takes no room that a cooperative grid needs, one whose indices are granted and whose teams have not all started (R109).
(DESIGN CHOICE, log 31) -/
def coopKept (s t : State) : Bool :=
  s.grids.all fun e => !e.2.coop || e.2.aborted || !restFits s e.2 || restFits t ((t.grids.get? e.1).getD e.2)
/-- A claim of `count` teams by a die is open: it has room for them, and none of its own waits (R108). -/
def mayClaimPart (s : State) (g : Grid) (die count : Nat) : Bool :=
  !(g.claims.any fun c => c.1 == die) && unstarted g die == [] && decide (count ≤ claimRoom s g die 16)
/-- Teams that a die, or the grid, has claimed in the round that is open. -/
def claimed (g : Grid) (p : Nat → Bool) : Nat := g.claims.foldl (fun n c => if p c.1 then n + c.2 else n) 0
/-- A claim in the one round of a cooperative grid: every team can be placed at once, and the die has room for all that it has claimed
(R109). -/
def mayClaimCoop (s : State) (g : Grid) (die count : Nat) : Bool :=
  coopNow s g && decide (claimed g (fun _ => true) + count ≤ g.teams) && decide (claimed g (· == die) + count ≤ claimRoom s g die (claimed g (· == die) + count))
/-- A claim of at most 16 teams may be made. -/
def mayClaim (s : State) (g : Grid) (die count : Nat) : Bool :=
  ungranted g && g.dies.contains die && !s.dieDown.contains die && decide (0 < count) && decide (count ≤ 16) &&
  (if g.coop && g.next == 0 then mayClaimCoop s g die count else mayClaimPart s g die count)
/-- GRID_CLAIM (R108). -/
def execGridClaim (grid die count : Nat) (s : State) : Out :=
  match s.grids.get? grid with
  | none => .refused (.notEnabled "GRID_CLAIM")
  | some g =>
    if !mayClaim s g die count then .refused (.notEnabled "GRID_CLAIM")
    else .next (modGrid s grid fun y => { y with claims := y.claims ++ [(die, count)] })
/-- Consecutive runs of a list of indices are granted as batches. -/
def grantOf (die : Nat) : List Nat → List Grant
  | [] => []
  | i :: t =>
    match grantOf die t with
    | b :: r => if b.first = i + 1 then { b with first := i, count := b.count + 1 } :: r else ⟨i, 1, die, []⟩ :: b :: r
    | [] => [⟨i, 1, die, []⟩]
/-- The oldest claim of a grid is answered, first from the indices to be granted again, with consecutive indices; the deputy has the counter
and the table first (R108). -/
def answerClaim (g : Grid) : Grid :=
  match g.claims with
  | [] => g
  | (die, n) :: rest =>
    let old := g.again.take n
    let m := min (n - old.length) (g.teams - g.next)
    let ixs := old ++ upTo g.next m
    { g with claims := rest, again := g.again.drop n, next := g.next + m, mirror := g.next + m, grants := g.grants ++ grantOf die ixs }
/-- The claims of a cooperative grid are answered in one round, once they take every index (R109). -/
def answerAll (g : Grid) : Grid := g.claims.foldl (fun y _ => answerClaim y) g
/-- CLAIM_GRANT (R108): the oldest claim is answered. The round of a cooperative grid is answered whole, or, where its teams no longer fit
so, made again (R109). -/
def execClaimGrant (grid : Nat) (s : State) : Out :=
  match s.grids.get? grid with
  | none => .refused (.notEnabled "CLAIM_GRANT")
  | some g =>
    if g.claims = [] ∨ g.abandoned ∨ g.aborted then .refused (.notEnabled "CLAIM_GRANT")
    else if g.coop ∧ g.next = 0 then
      if claimed g (fun _ => true) < g.teams then .refused (.notEnabled "CLAIM_GRANT")
      else .next (modGrid s grid fun y => if restFits s (answerAll y) then answerAll y else { y with claims := [] })
    else .next (modGrid s grid answerClaim)
/-- TEAM_PLACEMENT (R108, R472): a granted team starts on a core of its die. -/
def execTeamPlacement (grid team core : Nat) (parts : List Nat) (s : State) : Out :=
  match s.grids.get? grid with
  | none => .refused (.notEnabled "TEAM_PLACEMENT")
  | some g =>
    if g.aborted ∨ !(unstarted g (dieOf core)).contains team then .refused (.notEnabled "TEAM_PLACEMENT")
    else match placeGridTeam s grid g team core parts with
      | none => .refused (.notEnabled "TEAM_PLACEMENT")
      | some t =>
        let t := modGrid t grid fun y =>
          { y with grants := y.grants.map fun (b : Grant) => if b.first ≤ team ∧ team < b.first + b.count then { b with started := b.started ++ [team] } else b }
        if coopKept s t then .next t else .refused (.notEnabled "TEAM_PLACEMENT")

/-! ### Bin groups (R173, R174) -/

/-- A bin after its group is placed: what came while it waited takes effect, and an empty bin is free. -/
def binAfter (s : State) (key width : Nat) : State :=
  match s.bins.get? key with
  | none => s
  | some b =>
    if b.fibres = [] then { s with bins := s.bins.del key }
    else if b.again ∨ width ≤ b.fibres.length then launchBin { s with bins := s.bins.put key { b with again := false } } key
    else s
/-- BIN_GROUP_PLACEMENT (R173): the launched fibres take the lanes of a new group in order, in a team of its own (R167). -/
def execBinGroupPlacement (die bin core part : Nat) (s : State) : Out :=
  let key := die * 256 + bin
  match s.bins.get? key with
  | none => .refused (.notEnabled "BIN_GROUP_PLACEMENT")
  | some b =>
    match b.waiting, headerAt s b.dom b.kentry with
    | some fs, some h =>
      if 256 ≤ bin ∨ dieOf core ≠ binDie s b.func die ∨ !mayUseTeam s b.func core (pairTeam h) false then .refused (.notEnabled "BIN_GROUP_PLACEMENT")
      else match placeTeam s b.func b.dom core 1 h 0xFFFFFFFF none [(part, ⟨0, 0xFFFFFFFF, fs⟩)] with
        | none => .refused (.notEnabled "BIN_GROUP_PLACEMENT")
        | some (_, t) =>
          let t := (if pairTeam h then [core, core + 1] else [core]).foldl (fun u c => noteUse u b.func c) t
          if !coopKept s t then .refused (.notEnabled "BIN_GROUP_PLACEMENT")
          else .next (binAfter { t with bins := t.bins.put key { b with waiting := none } } key h.width)
    | _, _ => .refused (.notEnabled "BIN_GROUP_PLACEMENT")

/-! ### Loans (R115, R116) -/

/-- A group of a domain is resident on a core. -/
def domOn (s : State) (dom core : Nat) : Bool :=
  s.groups.any fun e => !e.2.retired && e.2.core == core && (e.2.stamp == dom || (match e.2.gate with
    | some f => f.stamp == dom
    | none => false))
/-- MARGIN_CORE_IDLE (R115): the owner has had no group on the core for 10 µs and waits for no room. -/
def execMarginCoreIdle (core : Nat) (s : State) : Out :=
  match marginOwner s core with
  | none => .refused (.notEnabled "MARGIN_CORE_IDLE")
  | some f =>
    let idle := match s.idleSince.get? (core * 64 + (funcAt s f).dom.getD 64) with
      | some t => decide (t + ticksOfUs 10 ≤ s.wall)
      | none => true
    if domOn s ((funcAt s f).dom.getD 64) core ∨ !idle ∨ waitingWork s f (dieOf core) ∨ s.available.contains core ∨ (s.loans.get? core).isSome ∨
        Config.cores ≤ core then .refused (.notEnabled "MARGIN_CORE_IDLE")
    else .next { s with available := core :: s.available }
/-- A pre-emption request for a domain acts on the group: its stamp, or the stamp behind its gate (R140, R427). -/
def stampedBy (dom : Nat) (g : Group) : Bool :=
  g.stamp == dom || (match g.gate with
    | some f => f.stamp == dom
    | none => false)
/-- A team of the domain that has not retired holds banks or tiles on one of the cores (R116). -/
def teamOn (dom : Nat) (cores : List Nat) (t : Team) : Bool :=
  !t.retired && t.saved.isNone && t.dom == dom &&
  cores.any fun c => t.banks.any (fun b => b.1 == c) || (t.tiles != 0 && decide (t.core ≤ c) && decide (c < t.core + t.tbase.length))
/-- The groups on which a request for a domain acts: those of the teams that have a group of it, or banks or tiles, on the cores, a team being
saved as one unit (R116, R427, R432). (DEDUCED, log 30) -/
def groupsOf (s : State) (dom : Nat) (cores : List Nat) : List Nat :=
  let ts := s.groups.filterMap (fun e => if !e.2.retired && stampedBy dom e.2 && cores.contains e.2.core then some e.2.team else none) ++
    (s.teams.filter fun e => teamOn dom cores e.2).map (·.1)
  (s.groups.filter fun e => !e.2.retired && ts.contains e.2.team).map (·.1)
/-- LOAN_REVOCATION (R116): the borrower's groups on the core are asked to pre-empt, in its own window or 20 µs, whichever is
shorter; a core on which it has nothing returns at once. -/
def execLoanRevocation (core : Nat) (s : State) : Out :=
  match s.loans.get? core with
  | none => .refused (.notEnabled "LOAN_REVOCATION")
  | some f =>
    let x := funcAt s f
    let dom := x.dom.getD 64
    let owner := (s.funcs.find? fun e => ownsCore s e.1 core).map (·.1)
    let need := match owner with
      | some o => waitingWork s o (dieOf core)
      | none => true
    if !need ∨ s.preempts.any (fun e => e.2.dom = dom ∧ e.2.cores = [core] ∧ e.2.source = 2) then .refused (.notEnabled "LOAN_REVOCATION")
    else if (residents s core).contains dom then
      .next { (fresh s).2 with preempts := s.preempts.put s.nextId ⟨dom, [core], groupsOf s dom [core], s.wall + ticksOfUs (min x.grace 20), 2⟩ }
    else .next { s with loans := s.loans.del core }

end Sys2Proof.Machine
end

