-- ==== Sys2Proof/Machine/Gate.lean ====
section
/-!
DEFINITION. Gates: the gate table, `gate` and `gret` (R136 to R142).
-/
namespace Sys2Proof.Machine

/-- A fault of a group act, marked so in its record (R419). -/
def Ctx.fg (x : Ctx) (cls detail : Nat) (addr : Nat := 0) : FaultInfo := { x.fi cls detail addr with group := true }

/-- A gate descriptor (Table 7-3). -/
structure GateDesc where
  target : Nat
  window : Nat
  divmax : Nat
  callers : Nat
  entry : Nat
  deriving DecidableEq, Repr

/-- The descriptor that 64 bytes hold, when it is valid (R137). -/
def gateDesc (b : List Byte) : Option GateDesc :=
  let ctl := leNat (b.take 4)
  let w := bits ctl 14 8
  if bitAt ctl 31 && bits ctl 30 20 == 0 && !bitAt ctl 15 && bits ctl 7 6 == 0 && decide (16 ≤ w) && decide (w ≤ 64) && w % 2 == 0 &&
      (((b.drop 4).take 4) ++ ((b.drop 0x18).take 40)).all (· == 0) then
    some ⟨bits ctl 5 0, w, bits ctl 19 16, leNat ((b.drop 8).take 8), leNat ((b.drop 16).take 8)⟩
  else none
/-- The descriptor `k` as its home slice holds it (R136), none when it is not valid; or why its line cannot be read: a failed transaction of a
host page (R281), or poison (R465). A table that is not mapped holds no valid descriptor. (DEDUCED, log 30) -/
def readGate (s : State) (k : Nat) : Except AccFail (Option GateDesc) × State :=
  match (funcAt s 0).root with
  | none => (.ok none, s)
  | some r =>
    let va := ((s.arenas.get? r).map (·.base)).getD 0 + 64 * k
    let h := domHostFails s 0 va false
    if h.1 then (.error ⟨8, 3, va⟩, h.2)
    else (match domBytes s 0 va 64 with
      | .ok b => .ok (gateDesc b)
      | .error f => if f.cls = 20 then .error f else .ok none, h.2)
/-- A window for the target would take a slot of the core, whose pair still writes back lines of a domain that has left it (R132). -/
def gateHeld (s : State) (core dom : Nat) : Bool :=
  !(residents s core).contains dom && decide ((residents s core).length < Config.slots) && pairLeaving s (pairOf core)
/-- The target's function, when it is assigned, running and not resetting (R138). -/
def gateTarget (s : State) (dom : Nat) : Option Nat :=
  match funcOfDom s dom with
  | some f => if (funcAt s f).halted ∨ (funcAt s f).resetting then none else some f
  | none => none
/-- A group act takes part with every live lane, and none has faulted at issue. -/
def groupWhole (x : Ctx) : Bool := x.go == x.active && x.active == liveMask x.rs x.gid
/-- A convergence register of the group has a declared set that is not signed (R138). -/
def convPending (g : Group) : Bool := g.conv.any fun e => e.2.declared != 0
/-- The group's slots are clear and its accesses have completed, those of lanes that have ended among them. -/
def groupQuiet (s : State) (gid : Nat) : Bool :=
  ((s.groups.get? gid).map fun g => g.slots == []).getD true &&
  !(s.acc.any fun e => e.2.gid == gid && e.2.lane != noLane) && !(s.atoms.any fun e => e.2.ops.any fun o => o.gid == gid) &&
  !(s.results.any fun e => e.2.gid == gid) && !(s.mops.any fun e => e.2.gid == gid)
/-- Enter the target's code (R138). -/
def gateEnter (x : Ctx) (s : State) (pd : Nat) (d : GateDesc) (f base : Nat) : State :=
  let g := (s.groups.get? x.gid).getD x.g
  let ls := lanesOf x.go
  let regs : Tab Word := ls.foldl (fun t l => (upTo 0 64).foldl (fun t r => t.wr (l * 128 + r) (vreg s (x.lk l) r)) t) []
  let preds : Tab (BitVec 128) := ls.foldl (fun t l => t.put l (laneAt s (x.lk l)).preds) []
  let fr : GateFrame :=
    ⟨g.stamp, g.func, x.next, pd, g.window, g.divmax, g.rfBase, regs, preds, g.entries, s.poisonRegs.filter fun r => r / 8192 == x.gid⟩
  let domid := BitVec.ofNat 32 (g.func * 64 + g.stamp)
  let s := endCoverTaken s x.gid
  let s := modGroup s x.gid fun y =>
    { y with stamp := d.target, func := f, window := d.window, divmax := d.divmax, rfBase := base, entries := [], gate := some fr }
  let s := { s with board := s.board.filter (fun p => p.gid != x.gid), poisonRegs := s.poisonRegs.filter fun r => r / 8192 != x.gid || decide (r % 128 < 8) }
  let s := ls.foldl (fun t l =>
    let k := x.lk l
    let keep := (upTo 0 8).map fun r => (r, vreg s k r)
    let t := setVregs { t with vregs := t.vregs.clear (k * 128) 128 } k (keep ++ [(8, domid)])
    modLane t k fun y => { y with pc := BitVec.ofNat 64 d.entry, run := [], preds := 1 }) s
  acquire s x.pair d.target
/-- The place of the target's window (R128, R130), unless a cooperative grid needs the room (R109). -/
def gateWindow (x : Ctx) (s : State) (pd : Nat) (d : GateDesc) (f : Nat) (g : Group) : Option Nat :=
  (rfFind (rfUses s g.core) g.part d.target (windowBytes g.width d.window d.divmax)).filter fun b => coopKept s (gateEnter x s pd d f b)
/-- gate (R138): a group act. -/
def execGate (gd : Guard) (d : BitVec 6) (imm : BitVec 9) (s : State) : Out :=
  runWord (.gate gd d imm) (fun x t =>
    let pd := predNo d.toNat x.o.pxD
    let g := (t.groups.get? x.gid).getD x.g
    if !groupWhole x || g.gate.isSome || convPending g then x.raiseAll t x.go (x.fg 17 3)
    else if 63 < imm.toNat then x.raiseAll t x.go (x.fg 1 2)
    else if !groupQuiet { t with groups := t.groups.put x.gid { g with slots := g.slots.filter fun e => e.2 != x.tok } } x.gid then x.wait t
    else match readGate t imm.toNat with
      | (.error f, t) => x.raiseAll t x.go { x.accFault f 64 false with group := true }
      | (.ok none, t) => x.raiseAll t x.go (x.fg 17 0)
      | (.ok (some de), t) =>
        match gateTarget t de.target with
        | none => x.raiseAll t x.go (x.fg 17 0)
        | some f =>
          if !bitAt de.callers x.g.stamp then x.raiseAll t x.go (x.fg 17 1)
          else if de.entry % 4 ≠ 0 then x.raiseAll t x.go { x.fi 7 0 de.entry 4 with group := true }
          else if ontoHint t { g with stamp := de.target } (BitVec.ofNat 64 de.entry) then x.raiseAll t x.go { x.illegal 9 with group := true }
          else if gateHeld t g.core de.target then x.wait t
          else
            match (if slotRoom t g.core de.target then gateWindow x t pd de f g else none) with
            | some base => gateEnter x t pd de f base
            | none => (lanesOf x.go).foldl (fun u l => setPreg (setVreg u (x.lk l) 0 0x112) (x.lk l) pd false) t) s
/-- Leave the target's code (R141): v0 to v7 cross, the caller's frame comes back. -/
def gateLeave (x : Ctx) (s : State) (fr : GateFrame) : State :=
  let s := endCoverTaken s x.gid
  let s := modGroup s x.gid fun y =>
    { y with stamp := fr.stamp, func := fr.func, window := fr.window, divmax := fr.divmax, rfBase := fr.rfBase, entries := fr.entries, gate := none }
  let s := { s with
    board := s.board.filter (fun p => p.gid != x.gid),
    poisonRegs := s.poisonRegs.filter (fun r => r / 8192 != x.gid || decide (r % 128 < 8)) ++ fr.poison.filter fun r => decide (8 ≤ r % 128) }
  (lanesOf x.go).foldl (fun t l =>
    let k := x.lk l
    let r := (upTo 0 8).map fun i => (i, vreg s k i)
    let t := { t with vregs := t.vregs.clear (k * 128) 128 }
    let t := setVregs t k ((upTo 0 64).map fun i => (i, fr.regs.rd (l * 128 + i)))
    let t := setVregs t k r
    modLane t k fun y => { y with pc := fr.retPc, run := [], preds := setBit128 ((fr.preds.get? l).getD 1) fr.pred true }) s
/-- gret (R141): a group act. -/
def execGret (gd : Guard) (s : State) : Out :=
  runWord (.gret gd) (fun x t =>
    let g := (t.groups.get? x.gid).getD x.g
    match g.gate with
    | none => x.raiseAll t x.go (x.fg 17 3)
    | some fr =>
      if !groupWhole x then x.raiseAll t x.go (x.fg 17 3)
      else if !groupQuiet t x.gid then x.wait t
      else x.releasing t 2 fun u => gateLeave x u fr) s

end Sys2Proof.Machine
end

