-- ==== Sys2Proof/Machine/Engine.lean ====
section
/-!
DEFINITION. The engines: cpy, cpyg, cpys and coll (R301 to R312), their acceptance, lines, recalls, completion and failure (R283, R284,
R302 to R306), and collectives (R309 to R312).
-/
namespace Sys2Proof.Machine

/-! ### Parameters (Table 14-4) -/

/-- A parameter register. -/
def EngOp.p (o : EngOp) (i : Nat) : Nat := ((o.params[i]?).getD 0).toNat
/-- A parameter pair. -/
def EngOp.pp (o : EngOp) (i : Nat) : Nat := o.p i + o.p (i + 1) * 2 ^ 32
/-- The completion-word offset. -/
def EngOp.cwOff (o : EngOp) : Nat := o.p 6
/-- The header mode of `cpy`. -/
def EngOp.hmode (o : EngOp) : Nat := if o.kind = 0 then o.p 5 % 4 else 2
/-- Element size of `cpyg`, `cpys`, `coll` in bytes. -/
def EngOp.esz (o : EngOp) : Nat := if o.kind = 3 then [4, 8, 4, 2].getD (bits (o.p 4) 30 28) 4 else 2 ^ bits (o.p 5) 26 24
/-- Element count of `cpyg`, `cpys` and `coll`. -/
def EngOp.cnt (o : EngOp) : Nat := if o.kind = 3 then bits (o.p 4) 23 0 else bits (o.p 5) 23 0
/-- Kind, operation, type, id, participants and rank of a collective. -/
def EngOp.ckind (o : EngOp) : Nat := bits (o.p 4) 25 24
def EngOp.cop (o : EngOp) : Nat := bits (o.p 4) 27 26
def EngOp.ctype (o : EngOp) : Nat := bits (o.p 4) 30 28
def EngOp.cid (o : EngOp) : Nat := bits (o.p 5) 7 0
def EngOp.cn (o : EngOp) : Nat := bits (o.p 5) 19 8 + 1
def EngOp.crank (o : EngOp) : Nat := bits (o.p 5) 31 20
/-- Bytes of the destination of a collective (R310). -/
def EngOp.collLen (o : EngOp) : Nat :=
  match o.ckind with
  | 1 => o.cnt / o.cn * o.esz
  | 2 => o.cn * o.cnt * o.esz
  | _ => o.cnt * o.esz
/-- The contiguous source: address and bytes. Kind 4 is a graph's copy node, whose parameters are its source, destination and bytes (R92). -/
def EngOp.srcRange (o : EngOp) : Nat × Nat :=
  match o.kind with
  | 0 => (o.pp 0, o.p 4)
  | 1 => (0, 0)
  | 2 => (o.pp 2, o.cnt * o.esz)
  | 3 => (o.pp 0, o.cnt * o.esz)
  | _ => (o.pp 0, o.pp 4)
/-- The contiguous destination. -/
def EngOp.dstRange (o : EngOp) : Nat × Nat :=
  match o.kind with
  | 0 => (o.pp 2, o.p 4)
  | 1 => (o.pp 2, o.cnt * o.esz)
  | 2 => (0, 0)
  | 3 => (o.pp 2, o.collLen)
  | _ => (o.pp 2, o.pp 4)
/-- The element addresses of a gather or scatter, mod 2^64 (R308). -/
def EngOp.elems (o : EngOp) : List Nat := o.idx.map fun i => (o.pp 0 + i * o.esz) % 2 ^ 64

/-- A parameter outside its range or a nonzero zero bit: OPERAND 0x01E (R301, R307, R308, R309, R310). -/
def engBadParams (o : EngOp) : Bool :=
  (if o.cw then o.p 6 % 8 != 0 || decide (2 ^ 21 ≤ o.p 6) else o.p 6 != 0) || (!o.tg && o.p 7 != 0) ||
  (match o.kind with
   | 0 => bits (o.p 5) 15 2 != 0 || o.p 5 % 4 == 3
   | 3 => bitAt (o.p 4) 31 || decide (3 < o.ctype) || o.cop == 3 || (decide (2 ≤ o.ckind) && o.cop != 0) || decide (o.cn ≤ o.crank) ||
      ((o.ckind == 1 || o.ckind == 3) && o.cnt % o.cn != 0)
   | _ => decide (2 ^ 21 ≤ o.p 4) || o.p 4 % 4 != 0 || decide (2 ^ 27 ≤ o.p 5) || decide (6 < bits (o.p 5) 26 24))
/-- Source and destination of a copy overlap (R307). -/
def engOverlap (o : EngOp) : Bool :=
  o.kind == 0 && o.p 4 != 0 && meets (o.pp 0, o.pp 0 + o.p 4) (o.pp 2, o.pp 2 + o.p 4)
/-- The first misaligned address, with its INFO: bytes and direction of the access (R302, R307, R308, R414; of a collective by its element
size). (DEDUCED, log 24) -/
def engMisaligned (o : EngOp) : Option (Nat × Nat) :=
  let al := match o.kind with
    | 0 => if o.hmode < 2 then 64 else 1
    | _ => o.esz
  let as : List (Nat × Nat) := match o.kind with
    | 0 => (if o.hmode = 0 then [(o.pp 0, accSize o.srcRange.2 false)] else []) ++ [(o.pp 2, accSize o.dstRange.2 true), (o.p 4, accSize o.dstRange.2 true)]
    | 1 => [(o.pp 0, accSize o.esz false), (o.pp 2, accSize o.dstRange.2 true)]
    | 2 => [(o.pp 0, accSize o.esz true), (o.pp 2, accSize o.srcRange.2 false)]
    | _ => [(o.pp 0, accSize o.srcRange.2 false), (o.pp 2, accSize o.dstRange.2 true)]
  as.find? fun a => a.1 % al != 0

/-! ### Places -/

/-- Where an engine address leads: an offset in the team's scratchpad, or memory. -/
inductive EngPlace where
  | spm (off : Nat)
  | mem (pa : Nat) (p : Page)
  deriving DecidableEq, Repr
/-- Banks of an operation's team, in bytes: those of its image while it is saved. -/
def teamBytes (s : State) (tid : Nat) : Nat :=
  match s.teams.get? tid with
  | none => 0
  | some t => match t.saved with
    | none => t.banks.length * Config.bankBytes
    | some i => ((s.images.get? i).map fun m => m.teamRec.banks.length * Config.bankBytes).getD 0
/-- Where an address within one 64 KiB block leads for an engine (R302): `gate` bars the scratchpad, `late` gives the detail of a draining
tag (1 at acceptance, 0 at a read). Bank bounds are checked at issue alone (R133). -/
def engPlace (s : State) (dom : Nat) (gate : Bool) (va : Nat) (write : Bool) (late : Nat) : Except AccFail EngPlace :=
  if inWindow va then
    let off := va - Config.spmWindow
    if gate then .error ⟨9, 2, va⟩ else .ok (.spm off)
  else match translate s dom va write with
    | .error f => .error f
    | .ok (pa, p) =>
      match arenaState s p.arena p.gen with
      | .draining => .error ⟨10, late, va⟩
      | .sealed => if write then .error ⟨10, 2, va⟩ else .ok (.mem pa p)
      | _ => .ok (.mem pa p)
/-- A range cut at the multiples of `al`. -/
def cutRange (al : Nat) : Nat → Nat → Nat → List (Nat × Nat)
  | 0, _, _ => []
  | f + 1, va, n =>
    if n = 0 then []
    else
      let m := min n (al - va % al)
      (va, m) :: cutRange al f (va + m) (n - m)
/-- The pieces of a range, cut at `al`. -/
def cuts (al : Nat) (r : Nat × Nat) : List (Nat × Nat) := cutRange al (r.2 / al + 2) r.1 r.2
/-- The ranges that an operation checks at acceptance, with their direction (R302, R308). -/
def engChecked (o : EngOp) : List (Nat × Nat × Bool) :=
  (cuts Config.page o.srcRange).map (fun r => (r.1, r.2, false)) ++ (cuts Config.page o.dstRange).map (fun r => (r.1, r.2, true)) ++
  (if o.kind = 2 then o.elems.map fun e => (e, o.esz, true) else [])
/-- The operation was issued inside a gate: it has no team. -/
def EngOp.gated (o : EngOp) : Bool := o.team == 0
/-- Every source range of an operation. -/
def EngOp.sources (o : EngOp) : List (Nat × Nat) := o.srcRange :: (if o.kind = 1 then o.elems.map fun e => (e, o.esz) else [])
/-- Every destination range of an operation. -/
def EngOp.targets (o : EngOp) : List (Nat × Nat) := o.dstRange :: (if o.kind = 2 then o.elems.map fun e => (e, o.esz) else [])
/-- A destination or the completion word lies in the team's scratchpad (R305). -/
def EngOp.hitsSpm (o : EngOp) : Bool := o.cw || o.targets.any fun r => r.2 != 0 && meets (r.1, r.1 + r.2) (Config.spmWindow, Config.vaEnd)
/-- The first failure of the checks of places, with the bytes and direction of its range (R302 step 1, R307). -/
def engCheckPlaces (s : State) (o : EngOp) : Option (AccFail × Nat) :=
  (engChecked o).findSome? fun r =>
    (match engPlace s o.dom o.gated r.1 r.2.2 1 with
    | .error f => some f
    | .ok (.mem pa p) =>
      if descPoisoned s p.arena then some ⟨20, 2, r.1⟩
      else if r.2.2 ∧ o.hmode = 1 ∧ o.p 5 / 65536 ≠ 0 ∧ isHost pa then some ⟨8, 2, r.1⟩ else none
    | .ok (.spm off) => if teamBytes s o.team < off + r.2.1 then some ⟨9, 0, r.1⟩ else none).map fun f => (f, accSize r.2.1 r.2.2)
/-- The completion word and the index list lie within the team's banks (R302). -/
def engBankFail (s : State) (o : EngOp) : Option (AccFail × Nat) :=
  let bad (off n : Nat) : Bool := o.gated || decide (teamBytes s o.team < off + n)
  let det := if o.gated then 2 else 0
  if o.cw ∧ bad o.cwOff 8 then some (⟨9, det, Config.spmWindow + o.cwOff⟩, accSize 8 true)
  else if (o.kind = 1 ∨ o.kind = 2) ∧ bad (o.p 4) (4 * o.cnt) then some (⟨9, det, Config.spmWindow + o.p 4⟩, accSize (4 * o.cnt) false)
  else none
/-- The INFO field of an engine's failure (Table 23-3): the completion word's offset for an XLATE, ARENA or INTEGRITY failure, `sz` for an
ALIGN or DOMAIN failure. -/
def engInfo (off sz : Nat) (f : AccFail) : Nat :=
  if f.cls = 8 ∨ f.cls = 10 ∨ f.cls = 20 then off else if f.cls = 7 ∨ f.cls = 9 then sz else 0

/-! ### Scratchpad by team offset (R305) -/

/-- A byte of a team's scratchpad: in its banks, or in its image while it is saved. -/
def teamGet (s : State) (tid off : Nat) : Byte :=
  match s.teams.get? tid with
  | none => 0
  | some t => match t.saved with
    | none => ((spmAt t off).map fun k => s.spm.rd k).getD 0
    | some i => ((s.images.get? i).map fun m => m.spm.rd off).getD 0
/-- Bytes of a team's scratchpad. -/
def teamBytesAt (s : State) (tid off n : Nat) : List Byte := (upTo off n).map (teamGet s tid)
/-- Write bytes of a team's scratchpad from an offset in one bank. -/
def teamPut (s : State) (tid off : Nat) (bs : List Byte) : State :=
  match s.teams.get? tid with
  | none => s
  | some t => match t.saved with
    | none => match spmAt t off with
      | some k => spmWrite s k bs
      | none => s
    | some i => match s.images.get? i with
      | some m =>
        let sp := ((upTo off bs.length).zip bs).foldl (fun (t : Tab Byte) (e : Nat × Byte) => t.wr e.1 e.2) m.spm
        { s with images := s.images.put i { m with spm := sp } }
      | none => s

/-! ### The words (R301, R302) -/

/-- The operation that a lane's parameters make. -/
def engOpOf (x : Ctx) (kind d a : Nat) (cw tg : Bool) (scope : Nat) (s : State) (k : Nat) : EngOp :=
  let team := if x.g.gate.isSome then 0 else x.g.team
  let o : EngOp :=
    { kind := kind, gid := x.gid, core := x.g.core, team := team, grid := (teamOf? s x.g).bind (·.grid), func := x.g.func, dom := x.g.stamp,
      lane := k, tok := x.tok, params := (upTo d 8).map (vreg x.rs k), cwVal := if cw then (vpair x.rs k a).toNat else 0, cw := cw, tg := tg,
      scope := scope }
  if kind = 1 ∨ kind = 2 then { o with idx := (upTo 0 o.cnt).map fun i => leNat (teamBytesAt s team (o.p 4 + 4 * i) 4) } else o
/-- The checks of an engine word in a lane (R302 step 1). -/
def engFail (x : Ctx) (s : State) (o : EngOp) : Option FaultInfo :=
  let acc (f : AccFail × Nat) : FaultInfo := x.fi f.1.cls f.1.detail f.1.addr (engInfo o.cwOff f.2 f.1)
  if engBadParams o then some (x.fi 1 2)
  else if engOverlap o then some (x.fi 1 3)
  else match engMisaligned o with
    | some a => some (x.fi 7 0 a.1 a.2)
    | none => match engBankFail s o with
      | some f => some (acc f)
      | none => (engCheckPlaces s o).map acc
/-- The first address of ranges that lies in host memory: there a transaction may fail (R281; DESIGN CHOICE, log 51). -/
def hostOf (s : State) (o : EngOp) (rs : List (Nat × Nat × Bool)) : Option Nat :=
  rs.findSome? fun r =>
    match engPlace s o.dom o.gated r.1 r.2.2 0 with
    | .ok (.mem pa _) => if isHost pa then some r.1 else none
    | _ => none
/-- The arenas that an operation registers (R162). -/
def engArenas (s : State) (o : EngOp) : List (Nat × Bool) :=
  ((engChecked o).filterMap fun r => match engPlace s o.dom o.gated r.1 r.2.2 1 with
    | .ok (.mem _ p) => some (p.arena, r.2.2)
    | _ => none).foldl (fun acc a => if acc.contains a then acc else acc ++ [a]) []
/-- An operation waits for acceptance; its arenas and destinations are known from its issue on (R162). -/
def putEng (s : State) (o : EngOp) : State :=
  { (fresh s).2 with engs := s.engs.put (fresh s).1 { o with arenas := engArenas s o, dests := o.targets } }
/-- One engine word: its faults are precise, a failed transaction of a host page that step 1 checks among them (R281, R302), and the
operation waits for acceptance. (DESIGN CHOICE, log 28) -/
def engOne (x : Ctx) (kind d a : Nat) (cw tg : Bool) (scope : Nat) (s : State) (e : Nat × BitVec 64) : State :=
  let o := engOpOf x kind d a cw tg scope s (x.lk e.1)
  match engFail x s o with
  | some f => x.raiseAll s e.2 f
  | none =>
    let h := (hostOf s o (engChecked o)).map fun va => (va, takeBit s)
    match h with
    | some (va, true, t) => x.raiseAll t e.2 (x.fi 8 3 va o.cwOff)
    | some (_, false, t) => putEng t o
    | none => putEng s o
/-- An index list is read behind the lane's own atomics and matrix stores, which may still be on their way to it (R308, R345). -/
def engWaits (kind : Nat) (x : Ctx) (s : State) : Bool :=
  (kind == 1 || kind == 2) && x.acts.any fun e =>
    matOutstanding s x.gid e.1 || s.atoms.any fun q => q.2.inSpm && q.2.ops.any fun o => o.lane == x.lk e.1
/-- The body of an engine word. -/
def engBody (kind d a : Nat) (cw tg : Bool) (scope : Nat) (x : Ctx) (s : State) : State :=
  if engWaits kind x s then x.wait s else x.acts.foldl (engOne x kind d a cw tg scope) s
/-- cpy (R307). -/
def execCpy (q : Qual) (d a : BitVec 6) (slot : BitVec 3) (k : BitVec 2) (cw tg : Bool) (s : State) : Out :=
  runWord (.cpy q d a slot k cw tg) (engBody 0 d.toNat a.toNat cw tg k.toNat) s
/-- cpyg (R308). -/
def execCpyg (q : Qual) (d a : BitVec 6) (slot : BitVec 3) (k : BitVec 2) (cw tg : Bool) (s : State) : Out :=
  runWord (.cpyg q d a slot k cw tg) (engBody 1 d.toNat a.toNat cw tg k.toNat) s
/-- cpys (R308). -/
def execCpys (q : Qual) (d a : BitVec 6) (slot : BitVec 3) (k : BitVec 2) (cw tg : Bool) (s : State) : Out :=
  runWord (.cpys q d a slot k cw tg) (engBody 2 d.toNat a.toNat cw tg k.toNat) s
/-- coll (R309). -/
def execColl (q : Qual) (d a : BitVec 6) (slot : BitVec 3) (k : BitVec 2) (cw tg : Bool) (s : State) : Out :=
  runWord (.coll q d a slot k cw tg) (engBody 3 d.toNat a.toNat cw tg k.toNat) s

/-! ### Pieces -/

/-- A part of the destination within one line, and where its bytes come from (an offset of the combined data of a collective). -/
structure Piece where
  dva : Nat
  n : Nat
  sva : Nat
  deriving DecidableEq, Repr
/-- The pieces of an operation in order. -/
def engPieces (o : EngOp) : List Piece :=
  match o.kind with
  | 0 | 4 => (cuts 64 o.dstRange).map fun r => ⟨r.1, r.2, o.pp 0 + (r.1 - o.pp 2)⟩
  | 1 => ((upTo 0 o.elems.length).zip o.elems).map fun e => ⟨o.pp 2 + e.1 * o.esz, o.esz, e.2⟩
  | 2 => ((upTo 0 o.elems.length).zip o.elems).map fun e => ⟨e.2, o.esz, o.pp 2 + e.1 * o.esz⟩
  | _ => (cuts 64 o.dstRange).map fun r => ⟨r.1, r.2, r.1 - o.pp 2⟩
/-- The bank of the first poisoned byte of a team's scratchpad range (R465); an image holds none. -/
def teamPoison (s : State) (tid off n : Nat) : Option Nat :=
  match s.teams.get? tid with
  | none => none
  | some t => if t.saved.isSome then none
    else ((upTo off n).findSome? fun o => (spmAt t o).bind fun k => if s.poisonSpm.contains k then some (k / 32768 % 32) else none)
/-- A byte of a scratchpad source: banks that the team has given up since hold nothing that the manual states (R452). (DESIGN CHOICE,
log 28) -/
def srcByte (s : State) (o : EngOp) (off : Nat) : Byte := if teamBytes s o.team ≤ off then Config.goneByte o.tok off else teamGet s o.team off
/-- Read bytes of a source as it stands at its home or in the banks (R306). -/
def engRead (s : State) (o : EngOp) : Nat → Nat → Nat → Except AccFail (List Byte)
  | 0, _, _ => .ok []
  | f + 1, va, n =>
    if n = 0 then .ok []
    else
      let m := min n (64 - va % 64)
      match engPlace s o.dom o.gated va false 0 with
      | .error e => .error e
      | .ok pl =>
        let r : Except AccFail (List Byte) := match pl with
          | .spm off => match teamPoison s o.team off m with
            | some b => .error ⟨20, 1, b⟩
            | none => .ok ((upTo off m).map (srcByte s o))
          | .mem pa p =>
            if poisoned s pa && !((upTo pa m).all fun a => (o.read.get? a).isSome) then .error ⟨20, 0, va / 64 * 64⟩
            else .ok ((upTo pa m).map fun a => (o.read.get? a).getD (homeByte s p.tag a))
        match r, engRead s o f (va + m) (n - m) with
        | .error e, _ => .error e
        | _, .error e => .error e
        | .ok a, .ok b => .ok (a ++ b)
/-- The header of the source block of a copied block (R307 mode 0). -/
def srcHeader (s : State) (o : EngOp) (sva : Nat) : BitVec 16 :=
  match engPlace s o.dom o.gated sva false 0 with
  | .ok (.mem pa _) => homeHdr s pa
  | _ => 0
/-- The bytes of a piece and the header its block takes, or the failure (R304). -/
def pieceData (s : State) (o : EngOp) (c : Piece) : Except AccFail (List Byte × Option (BitVec 16)) :=
  match (if o.kind = 3 then
      match o.data with
      | some d => Except.ok ((d.drop c.sva).take c.n)
      | none => .ok []
    else engRead s o 4 c.sva c.n) with
  | .error f => .error f
  | .ok bs =>
    let host : Bool := match engPlace s o.dom o.gated c.dva true 1 with
      | .ok (.mem pa _) => isHost pa
      | _ => false
    let h := if o.hmode = 0 then some (srcHeader s o c.sva) else if o.hmode = 1 then some (BitVec.ofNat 16 (o.p 5 / 65536)) else none
    let bad : Bool := match engPlace s o.dom o.gated c.dva true 1 with
      | .ok (.mem pa _) => poisoned s pa && decide (c.n < 64)
      | _ => false
    -- R465: a write of less than a poisoned line
    if bad then .error ⟨20, 3, c.dva / 64 * 64⟩
    else if host && h.getD 0 != 0 then .error ⟨8, 2, c.dva⟩ else .ok (bs, if host then none else h)
/-- The physical line of a piece's destination and the tag of its page; none in the scratchpad. -/
def pieceHome (s : State) (o : EngOp) (c : Piece) : Option (Nat × Nat) :=
  match engPlace s o.dom o.gated c.dva true 1 with
  | .ok (.mem pa p) => some (pa / 64, p.tag)
  | _ => none
/-- The physical line of a piece's destination; none in the scratchpad. -/
def pieceLine (s : State) (o : EngOp) (c : Piece) : Option Nat := (pieceHome s o c).map (·.1)
/-- The read of a piece's source reaches its home slice (R277, R283). -/
def srcTouch (s : State) (o : EngOp) (va : Nat) : State :=
  match engPlace s o.dom o.gated va false 0 with
  | .ok (.mem pa p) => touch s 1 0 p.tag (pa / 64) false
  | _ => s
/-- A frame of a copy's source lies under a destination line: the result is unpredictable (R307). (DESIGN CHOICE, log 15) -/
def aliased (s : State) (o : EngOp) (line : Nat) : Bool :=
  (o.kind == 0 || o.kind == 4) && (cuts Config.page o.srcRange).any fun r =>
    match engPlace s o.dom o.gated r.1 false 0 with
    | .ok (.mem pa _) => meets (pa, pa + r.2) (line * 64, line * 64 + 64)
    | _ => false
/-- One byte of a destination. -/
def putByte (o : EngOp) (s : State) (va : Nat) (b : Byte) : State :=
  match engPlace s o.dom o.gated va true 1 with
  | .ok (.spm off) => teamPut s o.team off [b]
  | .ok (.mem pa p) => setHomeByte s p.tag pa b
  | .error _ => s
/-- The bytes of a piece are written; a byte that an earlier element also names keeps either value (R308). -/
def putPiece (o : EngOp) (earlier : List Piece) (s : State) (c : Piece) (bs : List Byte) : State :=
  ((upTo c.dva c.n).zip bs).foldl (fun t e =>
    if o.kind = 2 ∧ earlier.any (fun d => decide (d.dva ≤ e.1) && decide (e.1 < d.dva + d.n)) then
      let r := takeBit t
      if r.1 then putByte o r.2 e.1 e.2 else r.2
    else putByte o t e.1 e.2) s
/-- Write pieces in order, with their headers; a whole line written is no longer poisoned (R465). -/
def writePieces (o : EngOp) : List Piece → List (Piece × List Byte × Option (BitVec 16)) → State → State
  | _, [], s => s
  | done, (c, bs, h) :: t, s =>
    let line := pieceLine s o c
    let r := if line.any (aliased s o) then freeBytes c.n s else (bs, s)
    let s := putPiece o done (if o.kind = 3 then r.2 else srcTouch r.2 o c.sva) c r.1
    let s := match pieceHome s o c with
      | some l => touch s 1 0 l.2 l.1 true
      | none => s
    let s := match line, h with
      | some l, some v => { s with hdr := s.hdr.wr l v }
      | _, _ => s
    let s := match line with
      | some l => if c.n = 64 then { s with poison := s.poison.filter (· != l) } else s
      | none => s
    writePieces o (done ++ [c]) t s
/-- The data of pieces, or the first failure. -/
def allData (s : State) (o : EngOp) : List Piece → Except AccFail (List (Piece × List Byte × Option (BitVec 16)))
  | [] => .ok []
  | c :: t => match pieceData s o c, allData s o t with
    | .error f, _ => .error f
    | _, .error f => .error f
    | .ok d, .ok r => .ok ((c, d.1, d.2) :: r)
/-- The pieces still to be written: scratchpad ones, and those whose line is still owned. -/
def leftPieces (s : State) (o : EngOp) : List Piece :=
  (engPieces o).filter fun c => match pieceLine s o c with
    | some l => o.owned.contains l
    | none => true
/-- The data of an operation can be had: a collective's instance is complete. -/
def dataReady (o : EngOp) : Bool := o.kind != 3 || o.data.isSome

/-! ### Completion (R303, R304) -/

/-- A host-backed destination line reaches host memory under system scope (R303). -/
def scopeFlush (s : State) (o : EngOp) : State :=
  if o.scope < 3 then s
  else (engPieces o).foldl (fun t c => match pieceHome t o c with
    | some l => hostWrite t (hostKey l.1 l.2)
    | none => t) s
/-- The completion word, the tag, and the end of the operation. -/
def endEng (s : State) (i : Nat) (o : EngOp) (v : Nat) : State :=
  let s := { s with engs := s.engs.del i }
  let s := if o.cw then teamPut s o.team o.cwOff (leBytes 8 v) else s
  let s := if o.tg then sendPost s o.dom o.func (BitVec.ofNat 32 (o.p 7)) 1 (o.scope == 3) else s
  retireTok s o.gid o.tok
/-- An operation completes with the data of what is left. (DESIGN CHOICE, log 28) -/
def completeEng (s : State) (i : Nat) (o : EngOp) (ds : List (Piece × List Byte × Option (BitVec 16))) : State :=
  endEng (scopeFlush (writePieces o [] ds s) o) i o o.cwVal
/-- INFO of a failure after acceptance (Table 23-3): the completion word's offset, or the size of the read that met another domain's page. -/
def failInfo (o : EngOp) (cause : Nat) : Nat :=
  if cause / 16 = 9 then accSize (if o.kind = 1 then o.esz else 0) false else if o.cw then o.cwOff else 0
/-- A failure after acceptance (R304): the completion of R303, its release first, with the failure value. -/
def failEng (s : State) (i : Nat) (o : EngOp) (cause addr : Nat) : State :=
  let s := endEng (scopeFlush s o) i o (0xFFFFFFFF * 2 ^ 32 + cause)
  detachedFault s o.dom { cause := cause, addr := addr, info := failInfo o cause } o.core
/-- The destination lines that an operation registers as owned (R283). -/
def engLines (s : State) (o : EngOp) : List Nat := dedup ((engPieces o).filterMap (pieceLine s o))
/-- Bytes of the destination. -/
def engEmpty (o : EngOp) : Bool := (engPieces o).isEmpty
/-- Acceptance, after its release (R302 steps 2 to 4). -/
def acceptEng (s : State) (i : Nat) (o : EngOp) : State :=
  let o' : EngOp := { o with accepted := true, owned := engLines s o }
  let s := retireTok { s with engs := s.engs.put i o' } o.gid o.tok
  if engEmpty o then endEng s i o' o.cwVal else s
/-- Every home slice of the destination lines has a free range record (R283). -/
def recordsFree (s : State) (o : EngOp) : Bool :=
  let slice (l : Nat) : Nat := homeNo (sliceHome s (l * 64))
  (dedup ((engLines s o).map slice)).all fun k => decide ((s.engs.filter fun e => e.2.owned.any fun l => slice l == k).length < Config.rangeRecords)
/-- Accepted operations of a domain on a core (R302: 64 entries for each partition slot); a graph's copy has no lane and takes none. -/
def entriesTaken (s : State) (core dom : Nat) : Nat :=
  (s.engs.filter fun e => e.2.accepted && e.2.node.isNone && e.2.core == core && e.2.dom == dom).length
/-- ENGINE_OP_ACCEPT (R302): an entry and the range records are free and the release at device scope is made; the first turn may only start
its flush. -/
def execEngineOpAccept (op : Nat) (s : State) : Out :=
  match s.engs.get? op with
  | none => .refused (.notEnabled "ENGINE_OP_ACCEPT")
  | some o =>
    if o.accepted ∨ o.node.isSome ∨ outstanding s o.lane ∨ matOutstanding s o.gid (o.lane % 64) ∨ !recordsFree s o ∨ Config.engineEntries ≤ entriesTaken s o.core o.dom ∨ o.deps.any (fun d => (s.acc.get? d).isSome) then
      .refused (.notEnabled "ENGINE_OP_ACCEPT")
    else if o.deps = [] then
      let f := startFlush s o.gid noLane (pairOf o.core) o.dom 2
      if f.1 = [] then .next (acceptEng f.2 op o) else .next { f.2 with engs := f.2.engs.put op { o with deps := f.1 } }
    else .next (acceptEng s op o)
/-- ENGINE_RECALL (R284): the engine writes an owned line ahead of its other lines. -/
def execEngineRecall (op line : Nat) (s : State) : Out :=
  match s.engs.get? op with
  | none => .refused (.notEnabled "ENGINE_RECALL")
  | some o =>
    if !o.accepted ∨ !o.owned.contains line ∨ !dataReady o ∨ o.failed.isSome then .refused (.notEnabled "ENGINE_RECALL")
    else match allData s o ((engPieces o).filter fun c => pieceLine s o c == some line) with
      | .error _ => .refused (.notEnabled "ENGINE_RECALL")
      | .ok ds =>
        let t := writePieces o [] ds s
        .next { t with engs := t.engs.put op { o with owned := o.owned.filter (· != line) } }
/-- ENGINE_OP_COMPLETE (R303). -/
def execEngineOpComplete (op : Nat) (s : State) : Out :=
  match s.engs.get? op with
  | none => .refused (.notEnabled "ENGINE_OP_COMPLETE")
  | some o =>
    if !o.accepted ∨ o.node.isSome ∨ !dataReady o ∨ o.failed.isSome then .refused (.notEnabled "ENGINE_OP_COMPLETE")
    else match allData s o (leftPieces s o) with
      | .error _ => .refused (.notEnabled "ENGINE_OP_COMPLETE")
      | .ok ds => .next (completeEng s op o ds)
/-- Why an accepted operation fails, with the address concerned (R304, R312). -/
def engFailure (s : State) (o : EngOp) : Option (Nat × Nat) :=
  match o.failed with
  | some c => some c
  | none =>
    if !dataReady o then none
    else match allData s o (leftPieces s o) with
      | .error f => some (causeOf f.cls 3 f.detail, f.addr)
      | .ok _ => none
/-- The first address of the operation that lies in host memory, gathered elements included. -/
def engHost (s : State) (o : EngOp) : Option Nat :=
  hostOf s o (engChecked o ++ (if o.kind = 1 then o.elems.map fun e => (e, o.esz, false) else []))
/-- Why an accepted operation may fail: as `engFailure`, or at a host page. -/
def engMayFail (s : State) (o : EngOp) : Option (Nat × Nat) :=
  match engFailure s o with
  | some c => some c
  | none => (engHost s o).map fun va => (causeOf 8 3 3, va)
/-- Change an operation. -/
def modEng (s : State) (i : Nat) (f : EngOp → EngOp) : State :=
  match s.engs.get? i with
  | some o => { s with engs := s.engs.put i (f o) }
  | none => s
/-- Fail the operations of an instance, those that have not failed already. -/
def failColl (s : State) (ids : List Nat) (cause : Nat) : State :=
  ids.foldl (fun t i => modEng t i fun o => if o.failed.isSome then o else { o with failed := some (cause, 0) }) s
/-- The other participants of an operation that have arrived: of its complete instance, or of the one that it waits in. -/
def matesOf (s : State) (i : Nat) (o : EngOp) : List Nat :=
  o.mates ++ ((s.colls.find? fun c => c.2.ops.contains i).map fun c => c.2.ops).getD []
/-- ENGINE_OP_FAILURE (R304); a participant's failure fails the others of its instance that have arrived (R312). -/
def execEngineOpFailure (op : Nat) (s : State) : Out :=
  match s.engs.get? op with
  | none => .refused (.notEnabled "ENGINE_OP_FAILURE")
  | some o =>
    match (if o.accepted && o.node.isNone then engMayFail s o else none) with
    | some c => .next (failColl (failEng s op o c.1 c.2) (matesOf s op o) (causeOf 14 3 2))
    | none => .refused (.notEnabled "ENGINE_OP_FAILURE")

/-! ### READ_GATHER_REPLY (R278) -/

/-- The tag under which an accepted operation of a word reads a source line. -/
def engReads (s : State) (o : EngOp) (line : Nat) : Option Nat :=
  if !o.accepted ∨ o.node.isSome then none
  else (o.sources.flatMap (cuts 64)).findSome? fun r => match engPlace s o.dom o.gated r.1 false 0 with
    | .ok (.mem pa p) => if pa / 64 = line then some p.tag else none
    | _ => none
/-- An operation has bytes of a source line, each as it stands now or as it will stand when the operation needs it (R306; DESIGN CHOICE,
log 1). -/
def captureLine (i line tag : Nat) (s : State) : State :=
  (upTo (line * 64) 64).foldl (fun t a =>
    let b := takeBit t
    if b.1 then modEng b.2 i fun o => { o with read := o.read.put a (homeByte s tag a) } else b.2) s
/-- READ_GATHER_REPLY (R278): one reply answers the held reads of a line under one tag, those of engines among them. -/
def execReadGatherReply (line : Nat) (s : State) : Out :=
  let rs := gathered s line
  let es := s.engs.filterMap fun e => (engReads s e.2 line).map fun t => (e.1, t)
  match rs.map (·.2.tag) ++ es.map (·.2) with
  | [] => .refused (.notEnabled "READ_GATHER_REPLY")
  | tag :: _ =>
    let t := rs.foldl (fun t r => serveAcc t r.1 r.2) s
    .next ((es.filter fun e => e.2 == tag && !poisoned s (line * 64)).foldl (fun t e => captureLine e.1 line tag t) t)

/-! ### Collectives (R309 to R312) -/

/-- The ranks at the leaves of a combining tree. -/
def treeRanks : CTree → List Nat
  | .leaf r => [r]
  | .node a b => treeRanks a ++ treeRanks b
/-- Every rank below `n` stands at exactly one leaf. -/
def treeCovers (t : CTree) (n : Nat) : Bool :=
  (treeRanks t).length == n && (upTo 0 n).all fun r => (treeRanks t).contains r
/-- Combine the values of the leaves. -/
def treeEval (f : Nat → Nat) (c : Nat → Nat → Nat) : CTree → Nat
  | .leaf r => f r
  | .node a b => c (treeEval f c a) (treeEval f c b)
/-- The format of a collective's floating elements. -/
def collFmt (ty : Nat) : Fmt := if ty = 0 then fmt32 else if ty = 1 then fmt64 else fmtBf16
/-- The combined element: `f` gives the element of a rank (R311). -/
def collElem (ty op : Nat) (t : CTree) (f : Nat → Nat) : Nat :=
  if ty = 2 then
    let i (x : Nat) : Int := sextInt x 32
    treeEval f (fun a b => if op = 0 then wrapNat (i a + i b) 32 else if op = 1 then (if i a < i b then b else a) else (if i b < i a then b else a)) t
  else
    let m := collFmt ty
    if (treeRanks t).any fun r => (decodeF m (f r)).isNan then m.nan
    else if op = 0 then
      let wide (r : Nat) : Nat := crossed (roundTo fmt64 0 false (decodeF m (f r))).1
      (roundTo m 0 false (decodeF fmt64 (treeEval wide (fun a b => crossed (roundTo fmt64 0 false (fAdd 0 (decodeF fmt64 a) (decodeF fmt64 b))).1) t))).1
    else treeEval f (fun a b => (minmaxF m (op == 1) a b).1) t
/-- Element `i` of a source. -/
def srcElem (es : Nat) (src : List Byte) (i : Nat) : Nat := leNat ((src.drop (i * es)).take es)
/-- The destination bytes of rank `r` (R310), from the sources by rank. -/
def collData (o : EngOp) (t : CTree) (srcs : List (List Byte)) (r : Nat) : List Byte :=
  let es := o.esz
  let n := o.cn
  let blk := o.cnt / n
  let el (i : Nat) : List Byte := leBytes es (collElem o.ctype o.cop t fun j => srcElem es (srcs.getD j []) i)
  match o.ckind with
  | 0 => (upTo 0 o.cnt).flatMap el
  | 1 => (upTo (r * blk) blk).flatMap el
  | 2 => (upTo 0 n).flatMap fun j => srcs.getD j []
  | _ => (upTo 0 n).flatMap fun j => ((srcs.getD j []).drop (r * blk * es)).take (blk * es)
/-- The participants agree (R312). -/
def collAgree (os : List EngOp) : Bool :=
  match os with
  | [] => true
  | o :: t => t.all fun p => p.cn == o.cn && p.cnt == o.cnt && p.ckind == o.ckind && p.cop == o.cop && p.ctype == o.ctype
/-- A complete instance: failures of R312, else the combined data of every participant. Participants that disagree are found before two that
hold one rank, and both before one that has failed already (R304), of which only the others hear. (DESIGN CHOICE, log 28) -/
def finishColl (s : State) (ids : List Nat) (t : CTree) : State :=
  let os := ids.filterMap fun i => (s.engs.get? i).map fun o => (i, o)
  if !collAgree (os.map (·.2)) then failColl s ids (causeOf 14 3 0)
  else if dedup (os.map (·.2.crank)) ≠ os.map (·.2.crank) then failColl s ids (causeOf 14 3 1)
  else if os.length < ids.length ∨ os.any fun e => e.2.failed.isSome then failColl s ids (causeOf 14 3 2)
  else
    let rd := os.map fun e => (e.1, e.2, engRead s e.2 (e.2.srcRange.2 / 64 + 2) e.2.srcRange.1 e.2.srcRange.2)
    match rd.findSome? fun e => match e.2.2 with
      | .error f => some (e.1, causeOf f.cls 3 f.detail, f.addr)
      | .ok _ => none with
    | some (bad, why) => failColl (modEng s bad fun o => { o with failed := some why }) ids (causeOf 14 3 2)
    | none =>
      let byRank (r : Nat) : List Byte := ((rd.find? fun e => e.2.1.crank == r).bind fun e => match e.2.2 with
        | .ok b => some b
        | .error _ => none).getD []
      let srcs := (upTo 0 os.length).map byRank
      os.foldl (fun u e =>
        let v := (cuts 64 e.2.srcRange).foldl (fun v r => srcTouch v e.2 r.1) u
        modEng v e.1 fun o => { o with data := some (collData o t srcs o.crank), mates := ids }) s
/-- The operation has arrived at its id's home. -/
def arrived (s : State) (i : Nat) (o : EngOp) : Bool := o.data.isSome || o.failed.isSome || s.colls.any fun c => c.2.ops.contains i
/-- COLLECTIVE_ARRIVAL (R309): a participant joins the open instance of its domain and id, or opens one; the last of an instance
completes it with the combining shape `tree`. An instance has the `n` of its first arrival. (DESIGN CHOICE, log 28) -/
def execCollectiveArrival (op : Nat) (tree : CTree) (s : State) : Out :=
  match s.engs.get? op with
  | none => .refused (.notEnabled "COLLECTIVE_ARRIVAL")
  | some o =>
    if o.kind ≠ 3 ∨ !o.accepted ∨ arrived s op o then .refused (.notEnabled "COLLECTIVE_ARRIVAL")
    else
      let open' := s.colls.find? fun c => c.2.dom == o.dom && c.2.id == o.cid
      -- R312: an instance whose time is over fails before another participant arrives
      if open'.any fun c => decide (c.2.first + ticksOfUs 100000 ≤ s.wall) then .refused (.notEnabled "COLLECTIVE_ARRIVAL")
      else
      let r := match open' with
        | some (i, c) => (i, { c with ops := c.ops ++ [op] }, s)
        | none => ((fresh s).1, ⟨o.dom, o.cid, o.cn, [op], s.wall⟩, (fresh s).2)
      if r.2.1.ops.length < r.2.1.n then .next { r.2.2 with colls := r.2.2.colls.put r.1 r.2.1 }
      else if !treeCovers tree r.2.1.n then .refused (.notEnabled "COLLECTIVE_ARRIVAL")
      else .next (finishColl { r.2.2 with colls := r.2.2.colls.del r.1 } r.2.1.ops tree)
/-- COLLECTIVE_TIMEOUT (R312): 100 ms after the first arrival of an instance that still lacks participants. -/
def execCollectiveTimeout (id : Nat) (s : State) : Out :=
  match s.colls.get? id with
  | none => .refused (.notEnabled "COLLECTIVE_TIMEOUT")
  | some c =>
    if s.wall < c.first + ticksOfUs 100000 then .refused (.notEnabled "COLLECTIVE_TIMEOUT")
    else .next (failColl { s with colls := s.colls.del id } c.ops (causeOf 14 3 3))

end Sys2Proof.Machine
end

