-- ==== Sys2Proof/Machine/Matrix.lean ====
section
/-!
DEFINITION. The matrix engine: fragments and masks (R314 to R317), signing and issue (R318 to R320), the accumulator store (R322 to
R324), sliced products (R329 to R332) and the words of majors 0x30 to 0x33 (R328 to R337).
-/
namespace Sys2Proof.Machine

/-! ### Fragments (R314, R315) -/

/-- Row `i` of a fragment of `len`-byte rows at register `a` of a group of width `w`. -/
def fragRow (rs : State) (gid a w len i : Nat) : List Byte :=
  (upTo 0 len).map fun b =>
    let v := vreg rs (lk gid (i + 16 * (b % (w / 4) / 4))) (a + b / (w / 4))
    BitVec.ofNat 8 (v.toNat / 256 ^ (b % 4))
/-- The 16 rows of a fragment. -/
def fragRows (rs : State) (gid a w len : Nat) : List (List Byte) := (upTo 0 16).map (fragRow rs gid a w len)
/-- The header register after a fragment: lane i holds the header of row i. -/
def fragHdrs (rs : State) (gid a : Nat) : List Nat := (upTo 0 16).map fun i => fld (vreg rs (lk gid i) a) 0 16
/-- The word of lane `l` in register `r` of a fragment with these rows. -/
def fragWord (rows : List (List Byte)) (w l r : Nat) : Word :=
  BitVec.ofNat 32 (leNat (((rows.getD (l % 16) []).drop (r * (w / 4) + 4 * (l / 16))).take 4))
/-- Element `k` of `n` bits of a row (R315). -/
def rowElem (row : List Byte) (k n : Nat) : Nat := leNat ((row.drop (k * n / 8)).take ((n + 7) / 8)) / 2 ^ (k * n % 8) % 2 ^ n

/-- Depth of a product, element bits, and header family of an element format (Tables 15-1, 11-5). -/
def fmtDepth (f : Nat) : Nat := if f < 2 then 16 else if f = 4 ∨ f = 6 then 64 else 32
/-- Bits of an element. -/
def fmtBits (f : Nat) : Nat := if f < 2 then 16 else if f = 4 ∨ f = 6 then 4 else 8
/-- Header family of an element format (R315). -/
def fmtFamily (f : Nat) : Nat := [0, 0, 2, 3, 1, 4, 5].getD f 0
/-- Decoded, scaled value of an element of a floating format under a header, or with none (R315, R222). -/
def elemVal (f : Nat) (hdr : Option Nat) (code : Nat) : FVal :=
  if f = 0 then decodeF fmt16 code
  else if f = 1 then decodeF fmtBf16 code
  else match hdr with
    | none => elemDecode (0x7F00 + 32 * fmtFamily f) code
    | some h => if hdrFamily h = fmtFamily f then elemDecode h code else .nan
/-- Raw integer of an element of an integer format. -/
def elemInt (f code : Nat) : Int := sextInt code (fmtBits f)

/-- Depth element `k` of `depth` is unmasked (R317). -/
def depthOn (dm depth k : Nat) : Bool :=
  (upTo 0 16).all fun q => !(decide (q * depth < (k + 1) * 16) && decide (k * 16 < (q + 1) * depth)) || bitAt dm q
/-- Row mask, column mask, depth mask (or stride), tile and format fields of the M pair (Table 15-2). -/
def mRow (m0 i : Nat) : Bool := bitAt m0 i
def mCol (m0 j : Nat) : Bool := bitAt m0 (16 + j)
def mLow (m1 : Nat) : Nat := m1 % 2 ^ 16
def mTile (m1 : Nat) : Nat := bits m1 27 16
def mFmt (m1 : Nat) : Nat := bits m1 31 28
/-- The indices of the unmasked elements of a tile, row by row. -/
def unmasked (m0 : Nat) : List Nat := (upTo 0 256).filter fun e => mRow m0 (e / 16) && mCol m0 (e % 16)

/-! ### The accumulator store (R322, R323) -/

/-- A word of a physical tile. -/
def tileWord (s : State) (tile e : Nat) : Word := s.tiles.rd (tile * 256 + e)
/-- Write a word of a physical tile. -/
def setTileWord (s : State) (tile e : Nat) (v : Word) : State := { s with tiles := s.tiles.wr (tile * 256 + e) v }
/-- The FP64 element of a pair. -/
def tilePair (s : State) (tile e : Nat) : Nat := (tileWord s tile e).toNat + (tileWord s (tile + 1) e).toNat * 2 ^ 32
/-- Write an FP64 element of a pair. -/
def setTilePair (s : State) (tile e v : Nat) : State :=
  setTileWord (setTileWord s tile e (BitVec.ofNat 32 v)) (tile + 1) e (BitVec.ofNat 32 (v / 2 ^ 32))
/-- The side words of an extent become zero (R323). -/
def clearSide (s : State) (base n : Nat) : State := { s with side := (upTo base n).foldl (fun (t : Tab Word) i => t.wr i 0) s.side }
/-- Minor of a MACC word. -/
def macc (w : Word) : Nat := fld w 10 3
/-- T of an X-format word. -/
def xT (w : Word) : Bool := fld w 0 1 == 1
/-- Tiles of a word's extent (R322). -/
def extentLen (w : Word) : Nat :=
  match majorOf w with
  | 0x32 => if xT w then 6 else 5
  | 0x33 => if xT w then 2 else 1
  | _ => 1
/-- A tile pair is needed. -/
def needsPair (w : Word) : Bool := xT w && (majorOf w == 0x32 || majorOf w == 0x33)
/-- The operation writes a tile. -/
def writesTile (w : Word) : Bool := majorOf w != 0x33 || macc w == 0 || macc w == 2
/-- The check of an extent (R322): class and detail. -/
def extentFail (tiles : Nat) (w : Word) (t : Nat) : Option (Nat × Nat) :=
  if 4095 < t + extentLen w - 1 then some (1, 2)
  else if needsPair w ∧ t % 2 ≠ 0 then some (1, 1)
  else if tiles < t + extentLen w then some (9, 0)
  else none
/-- The physical number of a team's tile on a core. -/
def physTile (t : Team) (core n : Nat) : Nat := core * 4096 + t.tbase.getD (core - t.core) 0 + n

/-! ### Issue (R319, R320 step 4) -/

/-- The value checks of the words in table order (R316, R328, R331, R334 to R337): class and detail. -/
def matValueFail (w : Word) (m1 : Nat) : Option (Nat × Nat) :=
  let f := mFmt m1
  match majorOf w with
  | 0x32 => if f < 2 ∨ (!xT w ∧ 5 < f) ∨ (xT w ∧ 9 < f) then some (1, 2) else none
  | 0x33 => match macc w with
    | 0 => if f ≠ 0 then some (1, 2) else none
    | 1 => if f ≠ 0 then some (1, 2) else none
    | 2 => if f ≠ 0 ∨ mLow m1 ≠ 0 then some (1, 2) else none
    | 3 => if 1 < mLow m1 ∨ !(f = 0 ∨ f = 1 ∨ f = 8) then some (1, 2) else if xT w then some (1, 3) else none
    | _ => if mLow m1 ≠ 0 ∨ 1 < f ∨ (f = 1 ∧ xT w) then some (1, 2) else none
  | _ => if 6 < f then some (1, 2) else if xT w ∧ f ≤ 1 then some (1, 3) else none
/-- Registers of the M pair, and of the A pair of `mld` and `mst`, in a lane (R319). -/
def matPairs (rs : State) (gid l : Nat) (w : Word) : List Word :=
  let k := lk gid l
  let m := fld w 1 6
  let a := fld w 13 6
  [vreg rs k m, vreg rs k (m + 1)] ++ (if majorOf w = 0x33 ∧ macc w < 2 then [vreg rs k a, vreg rs k (a + 1)] else [])
/-- A fault of a matrix word (origin 2), marked as a group act. -/
def matFault (cls detail : Nat) (addr : Nat := 0) (info : Nat := 0) : FaultInfo := ⟨causeOf cls 2 detail, 0, addr, info, true⟩
/-- The fault of an access of `mld` or `mst`, with origin 2; an offset outside the team's banks has origin 1 (R266, R334, Table 7-1). -/
def matAccFault (f : AccFail) (n : Nat) (write : Bool) : FaultInfo :=
  { matFault f.cls f.detail f.addr (accInfo f n write) with cause := causeOf f.cls (if f.cls = 9 ∧ f.detail = 0 then 1 else 2) f.detail }
/-- Where each unmasked element of `mld` or `mst` lies (R334). -/
def matPlaces (s : State) (g : Group) (w : Word) (m0 m1 addr path : Nat) : List (Nat × Nat × Except AccFail Place) :=
  let z := if xT w then 8 else 4
  let stride := if mLow m1 = 0 then 16 * z else 4 * mLow m1
  let st := macc w == 1
  (unmasked m0).map fun e =>
    let va := (addr + e / 16 * stride + e % 16 * z) % 2 ^ 64
    (e, va, placeOf s g va z st (path == 0))
/-- The place as `MatOp.locs` holds it. -/
def locOf (e : Nat) : Place → Nat × Option Page × Nat
  | .spm k => (e, none, k)
  | .mem pa p => (e, some p, pa)
/-- The first failed place that is not refused at its L1 or slice, then the first that is (R334). -/
def placeFail (ps : List (Nat × Nat × Except AccFail Place)) (arena : Bool) : Option AccFail :=
  ps.findSome? fun e => match e.2.2 with
    | .error f => if (f.cls == 10) == arena then some f else none
    | .ok _ => none
/-- The places that passed, before the first that failed. (DESIGN CHOICE, log 27) -/
def goodPlaces : List (Nat × Nat × Except AccFail Place) → List (Nat × Option Page × Nat)
  | [] => []
  | e :: t => match e.2.2 with
    | .ok p => locOf e.1 p :: goodPlaces t
    | .error _ => []
/-- One element of a tile is stored as `st` stores (R293, R334), after the earlier loads of the lanes `ks` (R325, R350). -/
def storeElem (pair base z : Nat) (ks : List Nat) (s : State) (e : Nat × Option Page × Nat) : State :=
  let bs := leBytes z (if z = 8 then tilePair s base e.1 else (tileWord s base e.1).toNat)
  match e.2.1 with
  | none => spmWrite s e.2.2 bs
  | some p => l1Write (ks.foldl (fun t k => fixLoads t k e.2.2 z) s) pair 0 e.2.2 p bs true
/-- The PCI Express transaction of some host line that an `mld` must fetch fails: the first such place, by free choices (R281; DESIGN CHOICE,
log 51). -/
def matHost (pair path z : Nat) : List (Nat × Nat × Except AccFail Place) → State → Option AccFail × State
  | [], s => (none, s)
  | e :: t, s => match e.2.2 with
    | .ok (.mem pa p) =>
      let r := if (l1Read s pair path pa z p).isSome then (false, s) else hostFails s pa
      if r.1 then (some ⟨8, 3, e.2.1⟩, r.2) else matHost pair path z t r.2
    | _ => matHost pair path z t s
/-- A poisoned byte or tile among what the operation reads (R465); a line is read at its home only where the pair's copy does not hold the bytes,
as by `ld`. -/
def matPoison (s : State) (pair path : Nat) (w : Word) (base : Nat) (ps : List (Nat × Nat × Except AccFail Place)) : Option FaultInfo :=
  let reads := !(majorOf w == 0x31) && !(majorOf w == 0x33 && (macc w == 0 || macc w == 2))
  let z := if xT w then 8 else 4
  match (if reads then (upTo base (extentLen w)).find? fun t => s.poisonTiles.contains t else none) with
  | some t => some (matFault 20 1 (t % 4096))
  | none =>
    if majorOf w = 0x33 ∧ macc w = 0 then
      ps.findSome? fun e => match e.2.2 with
        | .ok (.spm k) => if spmPoisoned s k z then some (matFault 20 1 (k / 32768 % 32)) else none
        | .ok (.mem pa p) => if poisoned s pa && (l1Read s pair path pa z p).isNone then some (matFault 20 0 (e.2.1 / 64 * 64)) else none
        | .error _ => none
    else none
/-- A fault of an operation at its issue faults every signed lane that has not ended (R320). -/
def matRaise (s : State) (gid : Nat) (y : Conv) (m : BitVec 64) (f : FaultInfo) : State :=
  (lanesOf m).foldl (fun t l =>
    takeFault (endCover t gid) gid l f (y.addr - BitVec.ofNat 64 (4 * y.run.length)) (y.addr + 4) y.word) s
/-- Held lanes go past the word at which they were held. -/
def goPast (s : State) (gid : Nat) (m : BitVec 64) : State :=
  (lanesOf m).foldl (fun t l => modLane t (lk gid l) fun y => { y with held := .none, pc := y.pc + 4, run := [] }) s
/-- The operation that issues, its operands read in `rs`. -/
def matOpOf (rs : State) (gid c : Nat) (g : Group) (t : Team) (y : Conv) (live : BitVec 64) (m0 m1 path : Nat)
    (locs : List (Nat × Option Page × Nat)) : MatOp :=
  let w := y.word
  let a := fld w 13 6
  let b := fld w 7 6
  let frag := majorOf w < 0x33
  let len := if majorOf w = 0x32 then 64 else 32
  let hr := xT w && majorOf w < 0x32
  { gid := gid, team := g.team, core := g.core, tok := y.tok, word := w, pc := y.addr, conv := c, signed := live, declared := y.declared,
    m0 := m0, m1 := m1, base := physTile t g.core (mTile m1), width := g.width,
    rowsA := if frag then fragRows rs gid a g.width len else [], rowsB := if frag then fragRows rs gid b g.width len else [],
    hdrA := if hr then fragHdrs rs gid (a + 128 / g.width) else [], hdrB := if hr then fragHdrs rs gid (b + 128 / g.width) else [],
    locs := locs, path := path }
/-- A set is complete: the operation issues for its signed lanes (R318 to R320). -/
def matIssue (rs : State) (gid c : Nat) (g : Group) (t : Team) (y : Conv) (live : BitVec 64) (s : State) : State :=
  let w := y.word
  let k := lk gid (lowest live)
  let m := fld w 1 6
  let m0 := (vreg rs k m).toNat
  let m1 := (vreg rs k (m + 1)).toNat
  let addr := (vpair rs k (fld w 13 6)).toNat
  let path := (opxEff (hintsOf y.run)).path.toNat
  let clear (s : State) : State := modGroup s gid fun g => { g with conv := g.conv.put c { declared := y.declared } }
  let op (ps : List (Nat × Nat × Except AccFail Place)) : MatOp := matOpOf rs gid c g t y live m0 m1 path (goodPlaces ps)
  let fail (f : FaultInfo) : State := retireTok (matRaise (clear s) gid y live f) gid y.tok
  if g.uchk && (lanesOf live).any fun l => matPairs rs gid l w != matPairs rs gid (lowest live) w then fail (matFault 3 0)
  else match matValueFail w m1 with
    | some f => fail (matFault f.1 f.2)
    | none => match extentFail t.tiles w (mTile m1) with
      | some f => fail (matFault f.1 f.2 (if f.1 = 9 then mTile m1 else 0))
      | none =>
        let mem := majorOf w == 0x33 && macc w < 2
        let z := if xT w then 8 else 4
        let ps := if mem then matPlaces s g w m0 m1 addr path else []
        let base := physTile t g.core (mTile m1)
        match placeFail ps false with
        | some f => fail (matAccFault f z (macc w == 1))
        | none => match placeFail ps true with
          | some f =>
            -- R334: the elements of an `mst` before the refused one are stored, in the order of R324
            let s := clear s
            let s := if macc w = 1 ∧ goodPlaces ps ≠ [] then { (fresh s).2 with mops := s.mops.put (fresh s).1 (op ps) } else s
            retireTok (matRaise s gid y live (matAccFault f z (macc w == 1))) gid y.tok
          | none => match matPoison s (pairOf g.core) path w base ps with
            | some f => fail f
            | none =>
              match (if mem && macc w == 0 then matHost (pairOf g.core) path z ps s else (none, s)) with
              | (some f, s) => retireTok (matRaise (clear s) gid y live (matAccFault f z false)) gid y.tok
              | (none, s) =>
                let s := clear s
                let s := { (fresh s).2 with mops := s.mops.put (fresh s).1 (op ps) }
                if majorOf w = 0x32 then s else goPast s gid live
/-- The set of a convergence register is complete when every declared lane has signed or ended (R318). -/
def matTry (rs : State) (gid c : Nat) (s : State) : State :=
  match s.groups.get? gid with
  | none => s
  | some g => match g.conv.get? c, s.teams.get? g.team with
    | some y, some t =>
      let alive := liveMask s gid
      let live := y.signed &&& alive
      if y.signed = 0 ∨ y.declared &&& alive &&& ~~~y.signed ≠ 0 then s
      else if live = 0 then
        retireTok (modGroup s gid fun g => { g with conv := g.conv.put c { declared := y.declared } }) gid y.tok
      else matIssue rs gid c g t y live s
    | _, _ => s

/-! ### Signing (R318, R320 step 3) -/

/-- The check of a signing lane (Table 15-3): the detail. -/
def signFail (x : Ctx) (s : State) (c l : Nat) : Option Nat :=
  match (((s.groups.get? x.gid).getD x.g).conv.get? c) with
  | none => some 0
  | some y => if y.declared = 0 then some 0 else if !has y.declared l then some 2 else if y.signed ≠ 0 ∧ y.addr ≠ x.pc then some 3 else none
/-- The lanes sign: they are held, and the operation's token is the first signer's (R325). Where signers reach the word under different runs, as
through an address that R36 exempts, the last signer's run gives the `opx` of the operation and the PC of its fault records.
(DESIGN CHOICE, log 27) -/
def signAll (x : Ctx) (c : Nat) (m : BitVec 64) (s : State) : State :=
  match (((s.groups.get? x.gid).getD x.g).conv.get? c) with
  | none => s
  | some y =>
    let tok := if y.signed = 0 then x.tok else y.tok
    let s := x.hold s m fun _ => .sign c
    let s := modGroup s x.gid fun g =>
      { g with conv := g.conv.put c { y with signed := y.signed ||| m, addr := x.pc, run := x.cur.run, word := x.w, tok := tok },
               slots := g.slots.map fun (e : Nat × Nat) => if e.2 = x.tok then (e.1, tok) else e }
    { s with board := s.board.map fun (p : Pend) => if p.tok = x.tok then { p with tok := tok } else p }
/-- The body of an X-format word. A CONVERGE fault of a signing lane, which faults that lane alone, is marked as one of a group act all the same.
(DESIGN CHOICE, log 27) -/
def signBody (c : Nat) (x : Ctx) (s : State) : State :=
  let bad := (lanesOf x.go).filterMap fun l => (signFail x s c l).map fun d => (l, d)
  let s := bad.foldl (fun t e => x.raise t e.1 { x.fi 5 e.2 with group := true }) s
  let m := x.go &&& ~~~(maskOf (bad.map (·.1)))
  if m = 0 then s else matTry { s with vregs := x.rs.vregs } x.gid c (signAll x c m s)

/-- mma (R328). -/
def execMma (c : BitVec 4) (slot : BitVec 3) (a b m : BitVec 6) (t : Bool) (s : State) : Out :=
  runWord (.mma c slot a b m t) (signBody c.toNat) s
/-- mmaz (R328). -/
def execMmaz (c : BitVec 4) (slot : BitVec 3) (a b m : BitVec 6) (t : Bool) (s : State) : Out :=
  runWord (.mmaz c slot a b m t) (signBody c.toNat) s
/-- mmas (R331): the signed lanes stay held until the operation completes. -/
def execMmas (c : BitVec 4) (slot : BitVec 3) (a b m : BitVec 6) (t : Bool) (s : State) : Out :=
  runWord (.mmas c slot a b m t) (signBody c.toNat) s
/-- mld (R334). -/
def execMld (c : BitVec 4) (slot : BitVec 3) (a m : BitVec 6) (t : Bool) (s : State) : Out :=
  runWord (.mld c slot a m t) (signBody c.toNat) s
/-- mst (R334). -/
def execMst (c : BitVec 4) (slot : BitVec 3) (a m : BitVec 6) (t : Bool) (s : State) : Out :=
  runWord (.mst c slot a m t) (signBody c.toNat) s
/-- mzero (R335). -/
def execMzero (c : BitVec 4) (slot : BitVec 3) (m : BitVec 6) (t : Bool) (s : State) : Out :=
  runWord (.mzero c slot m t) (signBody c.toNat) s
/-- mcvt (R336). -/
def execMcvt (c : BitVec 4) (slot : BitVec 3) (a m : BitVec 6) (s : State) : Out :=
  runWord (.mcvt c slot a m) (signBody c.toNat) s
/-- mamax (R337). -/
def execMamax (c : BitVec 4) (slot : BitVec 3) (a m : BitVec 6) (t : Bool) (s : State) : Out :=
  runWord (.mamax c slot a m t) (signBody c.toNat) s
/-- A word of no row (R51): a hint with reserved bits joins its run; any other word raises the first failure of R51; `mcvt` with
T = 1 passes those checks: its lanes sign, and the operation raises OPERAND 0x01B at its issue (R320, R336). -/
def execIllegalEncoding (w : Word) (s : State) : Out :=
  if isHint w then runHint (.illegalEncoding w) (fun _ t => t) s
  else runWord (.illegalEncoding w) (signBody (fld w 22 4)) s

/-! ### Products (R328 to R331) -/

/-- The exact sum of a list of terms; an empty sum is +0 (R328). -/
def sumTerms : List FVal → FVal
  | [] => .fin false 0 0
  | v :: t => t.foldl (fAdd 0) v
/-- The unmasked depth elements. -/
def depthList (dm depth : Nat) : List Nat := (upTo 0 depth).filter (depthOn dm depth)
/-- One element of `mma` or `mmaz` (R328, R230). -/
def mmaElem (o : MatOp) (old : Option Nat) (i j : Nat) : Nat :=
  let f := mFmt o.m1
  let n := fmtBits f
  let ks := depthList (mLow o.m1) (fmtDepth f)
  let ra := o.rowsA.getD i []
  let rb := o.rowsB.getD j []
  if 5 ≤ f then
    wrapNat (ks.foldl (fun (z : Int) k => z + elemInt f (rowElem ra k n) * elemInt f (rowElem rb k n)) (match old with
      | some v => sextInt v 32
      | none => 0)) 32
  else
    let ha := o.hdrA[i]?
    let hb := o.hdrB[j]?
    let ps := ks.map fun k => fMul (elemVal f ha (rowElem ra k n)) (elemVal f hb (rowElem rb k n))
    let ts := match old with
      | some v => decodeF fmt32 v :: ps
      | none => ps
    (roundTo fmt32 0 false (sumTerms ts)).1
/-- mma and mmaz at completion. -/
def mmaDone (o : MatOp) (s : State) : State :=
  let z := majorOf o.word == 0x31
  let s := (upTo 0 256).foldl (fun t e =>
    if mRow o.m0 (e / 16) && mCol o.m0 (e % 16) then
      setTileWord t o.base e (BitVec.ofNat 32 (mmaElem o (if z then none else some (tileWord s o.base e).toNat) (e / 16) (e % 16)))
    else if z then setTileWord t o.base e 0 else t) s
  clearSide s o.base 1

/-- Depth and format of an `mmas`. -/
def mmasDepth (w : Word) : Nat := if xT w then 8 else 16
/-- The values of a row of an `mmas` fragment at the unmasked depth elements. -/
def mmasRow (w : Word) (dm : Nat) (row : List Byte) : List (Nat × FVal) :=
  (depthList dm (mmasDepth w)).map fun k =>
    (k, if xT w then decodeF fmt64 (rowElem row k 64) else decodeF fmt32 (rowElem row k 32))
/-- The exponent of the least power of two above every magnitude of a row; none for a row of zeros (R329). -/
def rowScale (vs : List (Nat × FVal)) : Option Int :=
  vs.foldl (fun a e => match e.2 with
    | .fin _ m x =>
      if m = 0 then a
      else
        let z := x + (Nat.log2 m : Nat) + 1
        (match a with
         | some y => some (max y z)
         | none => some z)
    | _ => a) none
/-- ⌊|v| / 2^al × 2^(7u)⌋. -/
def sliceFloor (v : FVal) (al : Int) (u : Nat) : Nat :=
  match v with
  | .fin _ m x =>
    let e := x - al + (7 * u : Nat)
    if 0 ≤ e then m * 2 ^ e.toNat else m / 2 ^ (-e).toNat
  | _ => 0
/-- σ_u of an element (R329). -/
def slice (v : FVal) (al : Option Int) (u : Nat) : Int :=
  match al with
  | none => 0
  | some a =>
    let d : Int := (sliceFloor v a u : Nat) - 128 * (sliceFloor v a (u - 1) : Nat)
    match v with
    | .fin true _ _ => -d
    | _ => d
/-- The passes of a slice count in order (R330). -/
def passes (n : Nat) : List (Nat × Nat) :=
  (upTo 2 n).flatMap fun z => (upTo 1 (z - 1)).map fun u => (u, z - u)
/-- The value that a pass adds to an element's partial sum, in units of 2^−72 (R330). -/
def passValue (as bs : List (Nat × FVal)) (al be : Option Int) (p : Nat × Nat) : Int :=
  let sum := (as.zip bs).foldl (fun (z : Int) e => z + slice e.1.2 al p.1 * slice e.2.2 be p.2) 0
  sum * (2 ^ (72 - 7 * (p.1 + p.2)) : Nat)
/-- The first shadow tile. -/
def shadowBase (o : MatOp) : Nat := o.base + (if xT o.word then 2 else 1)
/-- The partial sum of an element, from its shadow tiles. -/
def shadowGet (s : State) (o : MatOp) (e : Nat) : Int :=
  sextInt ((upTo 0 4).foldl (fun n q => n + (tileWord s (shadowBase o + q) e).toNat * 2 ^ (32 * q)) 0) 128
/-- Write the partial sum of an element. -/
def shadowPut (o : MatOp) (e : Nat) (v : Int) (s : State) : State :=
  (upTo 0 4).foldl (fun t q => setTileWord t (shadowBase o + q) e (BitVec.ofNat 32 (wrapNat v 128 / 2 ^ (32 * q)))) s
/-- The pass at which an `mmas` begins (R331). -/
def startPass (s : State) (o : MatOp) : Nat :=
  let w := s.side.rd o.base
  if fld w 31 1 = 1 ∧ fld w 24 4 = mFmt o.m1 ∧ (fld w 30 1 == 1) = xT o.word then fld w 0 8 else 0
/-- The partial sum of an element before the first pass of this run. -/
def startSum (s : State) (o : MatOp) (e : Nat) : Int := if startPass s o = 0 then 0 else shadowGet s o e
/-- Rows and scales of an `mmas`. -/
def mmasRows (o : MatOp) (rows : List (List Byte)) : List (List (Nat × FVal)) := rows.map (mmasRow o.word (mLow o.m1))
/-- An element's partial sum after the passes from `p` to `q`. -/
def partialSum (s : State) (o : MatOp) (e p q : Nat) : Int :=
  let as := (mmasRows o o.rowsA).getD (e / 16) []
  let bs := (mmasRows o o.rowsB).getD (e % 16) []
  ((passes (mFmt o.m1)).drop p |>.take (q - p)).foldl (fun z x => z + passValue as bs (rowScale as) (rowScale bs) x) (startSum s o e)
/-- The value is NaN or infinite. -/
def notFinite (v : FVal) : Bool := v.isNan || v.isInf
/-- The result of an element of an `mmas` (R331). -/
def mmasElem (s : State) (o : MatOp) (e : Nat) : Nat :=
  let f := if xT o.word then fmt64 else fmt32
  let old := if xT o.word then tilePair s o.base e else (tileWord s o.base e).toNat
  let ov := decodeF f old
  let as := (mmasRows o o.rowsA).getD (e / 16) []
  let bs := (mmasRows o o.rowsB).getD (e % 16) []
  if (as ++ bs).any (fun v => notFinite v.2) ∨ ov.isNan then f.nan
  else if ov.isInf then old
  else
    let z := partialSum s o e (startPass s o) (passes (mFmt o.m1)).length
    let v : FVal := .fin (decide (z < 0)) z.natAbs (((rowScale as).getD 0) + ((rowScale bs).getD 0) - 72)
    if z = 0 then (roundTo f 0 false ov).1 else
      let r := fAdd 0 ov v
      match r with
      | .fin _ 0 _ => 0
      | _ => (roundTo f 0 false r).1
/-- A word of each shadow tile takes a free value (R6). -/
def freeShadow (o : MatOp) : Nat → State → State
  | 0, s => s
  | n + 1, s =>
    let r := takeWord s
    freeShadow o n (setTileWord r.2 (shadowBase o + n / 256) (n % 256) r.1)
/-- mmas at completion: every remaining pass has run. -/
def mmasDone (o : MatOp) (s : State) : State :=
  let t := (unmasked o.m0).foldl (fun t e =>
    if xT o.word then setTilePair t o.base e (mmasElem s o e) else setTileWord t o.base e (BitVec.ofNat 32 (mmasElem s o e))) s
  clearSide (freeShadow o 1024 t) o.base (extentLen o.word)
/-- The pass that is next when an `mmas` has run `n` more passes, the one in progress among them (R332). -/
def nextPass (s : State) (o : MatOp) (n : Nat) : Nat := startPass s o + max n 1
/-- A product that starts afresh begins with every partial sum of its extent at zero, those of masked elements too (R331). -/
def freshSums (s : State) (o : MatOp) : State := if startPass s o = 0 then { s with tiles := s.tiles.clear (shadowBase o * 256) 1024 } else s
/-- An `mmas` stops after `n` more passes, which leave one to run: the side word tells the next pass (R331, R332). -/
def mmasStop (o : MatOp) (n : Nat) (s : State) : State :=
  let p := startPass s o
  let q := nextPass s o n
  let t := (unmasked o.m0).foldl (fun t e => shadowPut o e (partialSum s o e p q) t) (freshSums s o)
  let w := BitVec.ofNat 32 (2 ^ 31 + (if xT o.word then 2 ^ 30 else 0) + mFmt o.m1 * 2 ^ 24 + q)
  { t with side := t.side.wr o.base w }

/-! ### MACC words at completion (R334 to R337) -/

/-- One element read as `ld` reads on the path: the pair's copy, filled first when its bytes are not fresh. -/
def loadElem (pair path z : Nat) (a : List (Nat × Nat) × State) (e : Nat × Option Page × Nat) : List (Nat × Nat) × State :=
  match e.2.1 with
  | none => (a.1 ++ [(e.1, leNat (spmBytes a.2 e.2.2 z))], a.2)
  | some p =>
    match l1Read a.2 pair path e.2.2 z p with
    | some b => (a.1 ++ [(e.1, leNat b)], l1Use a.2 pair path (e.2.2 / 64) p.tag)
    | none =>
      let v := leNat ((upTo (e.2.2 % 64) z).map fun o => (filledLine a.2 pair path e.2.2 p).data.rd o)
      (a.1 ++ [(e.1, v)], if poisoned a.2 e.2.2 then a.2 else l1Fill a.2 pair path e.2.2 p)
/-- mld. -/
def mldDone (o : MatOp) (s : State) : State :=
  let z := if xT o.word then 8 else 4
  let r := o.locs.foldl (loadElem (pairOf o.core) o.path z) ([], s)
  let s := r.1.foldl (fun t e => if z = 8 then setTilePair t o.base e.1 e.2 else setTileWord t o.base e.1 (BitVec.ofNat 32 e.2)) r.2
  clearSide s o.base (extentLen o.word)
/-- mst. -/
def mstDone (o : MatOp) (s : State) : State :=
  o.locs.foldl (storeElem (pairOf o.core) o.base (if xT o.word then 8 else 4) ((lanesOf o.signed).map (lk o.gid))) s
/-- mzero. -/
def mzeroDone (o : MatOp) (s : State) : State :=
  clearSide ((unmasked o.m0).foldl (fun t e => if xT o.word then setTilePair t o.base e 0 else setTileWord t o.base e 0) s) o.base (extentLen o.word)
/-- The rows of the fragment that `mcvt` makes (R336). -/
def mcvtRows (s : State) (o : MatOp) : List (List Byte) :=
  let f := mFmt o.m1
  (upTo 0 16).map fun i => (upTo 0 16).flatMap fun k =>
    let e := if bitAt o.m1 0 then k * 16 + i else i * 16 + k
    let v := if mRow o.m0 (e / 16) && mCol o.m0 (e % 16) then (tileWord s o.base e).toNat else 0
    if f = 8 then leBytes 4 (roundTo fmt32 0 false (decodeF fmt32 v)).1
    else leBytes 2 (roundTo (if f = 0 then fmt16 else fmtBf16) 0 false (decodeF fmt32 v)).1
/-- mcvt: the declared lanes that have not ended receive their bytes. -/
def mcvtDone (o : MatOp) (s : State) : State :=
  let rows := mcvtRows s o
  let n := (if mFmt o.m1 = 8 then 256 else 128) / o.width
  (lanesOf (o.declared &&& liveMask s o.gid)).foldl (fun t l =>
    setVregs t (lk o.gid l) ((upTo 0 n).map fun r => (fld o.word 13 6 + r, fragWord rows o.width l r))) s
/-- The greatest magnitude of a tile's unmasked elements (R337). -/
def mamaxValue (s : State) (o : MatOp) : Nat :=
  if xT o.word then
    let m := (unmasked o.m0).foldl (fun m e => max m (tilePair s o.base e % 2 ^ 63)) 0
    if fmt64.inf < m then fmt64.nan else m
  else if mFmt o.m1 = 1 then
    (unmasked o.m0).foldl (fun m e => max m (tileWord s o.base e).toInt.natAbs) 0
  else
    let m := (unmasked o.m0).foldl (fun m e => max m ((tileWord s o.base e).toNat % 2 ^ 31)) 0
    if fmt32.inf < m then fmt32.nan else m
/-- mamax. -/
def mamaxDone (o : MatOp) (s : State) : State :=
  let v := mamaxValue s o
  let d := fld o.word 13 6
  let rs := if xT o.word then pairWrites d (BitVec.ofNat 64 v) else [(d, BitVec.ofNat 32 v)]
  (lanesOf (o.declared &&& liveMask s o.gid)).foldl (fun t l => setVregs t (lk o.gid l) rs) s

/-! ### MATRIX_OP_COMPLETE (R324) -/

/-- The extents of two operations meet, and one of them writes (R324). -/
def tilesClash (a b : MatOp) : Bool :=
  (writesTile a.word || writesTile b.word) && meets (a.base, a.base + extentLen a.word) (b.base, b.base + extentLen b.word)
/-- The word is an `mld` or an `mst`. -/
def isMove (w : Word) : Bool := majorOf w == 0x33 && decide (macc w < 2)
/-- Bytes of an element that an `mld` or `mst` moves. -/
def moveSize (o : MatOp) : Nat := if xT o.word then 8 else 4
/-- Two moves of one lane meet at some byte, and one of them stores (R325). -/
def movesClash (a b : MatOp) : Bool :=
  isMove a.word && isMove b.word && a.gid == b.gid && a.signed &&& b.signed != 0 && (macc a.word == 1 || macc b.word == 1) &&
  a.locs.any fun e => b.locs.any fun f => e.2.1.isNone == f.2.1.isNone && meets (e.2.2, e.2.2 + moveSize a) (f.2.2, f.2.2 + moveSize b)
/-- An element of a move must follow an access that one of its lanes has on its way: an atomic on the bytes of a bank, and for an `mld` an atomic
or a fill of the line, for an `mst` a load that an engine's line still holds up (R284, R306, R325, R345). -/
def moveBehind (s : State) (i : Nat) (o : MatOp) (e : Nat × Option Page × Nat) : Bool :=
  let mine := (lanesOf o.signed).map (lk o.gid)
  match e.2.1 with
  | none => s.atoms.any fun q => decide (q.1 < i) && q.2.inSpm && meets (q.2.pa, q.2.pa + q.2.size) (e.2.2, e.2.2 + moveSize o) &&
      q.2.ops.any fun p => mine.any p.names
  | some _ =>
    if macc o.word = 0 then
      engineOwned s (e.2.2 / 64) || mine.any (fun k => ownFill s k o.path (e.2.2 / 64) (some i)) ||
        s.atoms.any fun q => decide (q.1 < i) && !q.2.inSpm && q.2.pa / 64 == e.2.2 / 64 && q.2.ops.any fun p => mine.any p.names
    else engineOwned s (e.2.2 / 64) && s.acc.any fun a => decide (a.1 < i) && a.2.kind == .fill 0 && a.2.got.isNone && mine.contains a.2.lane &&
      meets (a.2.pa, a.2.pa + a.2.size) (e.2.2, e.2.2 + moveSize o)
/-- The operation may complete: earlier operations on its tiles are done (R324), and a move follows the earlier moves and accesses of its lanes
(R325). -/
def matReady (s : State) (i : Nat) (o : MatOp) : Bool :=
  !(s.mops.any fun e => decide (e.1 < i) && (tilesClash e.2 o || movesClash e.2 o)) && (!isMove o.word || !(o.locs.any (moveBehind s i o)))
/-- What an operation does to tiles, memory and registers. -/
def matEffect (o : MatOp) (s : State) : State :=
  match majorOf o.word with
  | 0x30 => mmaDone o s
  | 0x31 => mmaDone o s
  | 0x32 => mmasDone o s
  | _ => match macc o.word with
    | 0 => mldDone o s
    | 1 => mstDone o s
    | 2 => mzeroDone o s
    | 3 => mcvtDone o s
    | _ => mamaxDone o s
/-- Held lanes of an `mmas` go on (R319). -/
def releaseSigned (o : MatOp) (s : State) : State :=
  (lanesOf o.signed).foldl (fun t l => modLane t (lk o.gid l) fun y =>
    if y.held = .sign o.conv then { y with held := .none, pc := y.pc + 4, run := [] } else y) s
/-- MATRIX_OP_COMPLETE (R324, R325). -/
def execMatrixOpComplete (op : Nat) (s : State) : Out :=
  match s.mops.get? op with
  | none => .refused (.notEnabled "MATRIX_OP_COMPLETE")
  | some o =>
    if !matReady s op o then .refused (.notEnabled "MATRIX_OP_COMPLETE")
    else
      let s := matEffect o { s with mops := s.mops.del op }
      let s := if majorOf o.word = 0x32 then releaseSigned o s else s
      .next (retireTok s o.gid o.tok)

end Sys2Proof.Machine
end

