-- ==== Sys2Proof/Machine/Sys.lean ====
section
/-!
DEFINITION. The System words but `eret` and `recfg` (R32 to R34, R214, R422, R423) and the four hints (R35, R39, R40, R41, R43).
-/
namespace Sys2Proof.Machine

/-- nop (R32): no state changes. -/
def execNop (s : State) : Out := runWord .nop (fun _ t => t) s
/-- trap (R422): TRAPINSN 0x150 in every executing lane, with the code in SUB. -/
def execTrap (gd : Guard) (imm : BitVec 9) (s : State) : Out :=
  runWord (.trap gd imm) (fun x t => x.raiseAll t x.go (x.fi 21 0 0 0 imm.toNat)) s
/-- Debug is enabled for the function (R423). -/
def debugOn (s : State) (f : Nat) : Bool := bitAt (funcAt s f).traceMask 63
/-- dbg (R423): DEBUG 0x160 while debug is enabled, else as `nop`. -/
def execDbg (gd : Guard) (imm : BitVec 9) (s : State) : Out :=
  runWord (.dbg gd imm) (fun x t => if debugOn t x.g.func then x.raiseAll t x.go (x.fi 22 0 0 0 imm.toNat) else t) s
/-- rdsr (R33). -/
def execRdsr (q : Qual) (d : BitVec 6) (imm : BitVec 9) (s : State) : Out :=
  runWord (.rdsr q d imm) (fun x t =>
    x.acts.foldl (fun u a =>
      let v := sreg x.rs x.g (x.lk a.1) a.1 imm.toNat
      (lanesOf a.2).foldl (fun u l => x.deliver u l { regs := [(d.toNat, v)] }) u) t) s
/-- wrsr (R33): each executing lane updates its own FPSTAT; under U = 1 from the lowest lane's value. -/
def execWrsr (q : Qual) (d : BitVec 6) (imm : BitVec 9) (s : State) : Out :=
  runWord (.wrsr q d imm) (fun x t =>
    x.acts.foldl (fun u a =>
      let v := vreg x.rs (x.lk a.1) d.toNat
      (lanesOf a.2).foldl (fun u l => modLane u (x.lk l) fun y => { y with fpstat := fpWrite y.fpstat v }) u) t) s
/-- clk (R34): the ac elapsed on the core, or module time in ns. An `imx` before a word whose IMM9 is a number is accepted and its payload
ignored, here and in `eret`, `gate`, `trap` and `dbg`. (DESIGN CHOICE, log 50) -/
def execClk (q : Qual) (d : BitVec 6) (imm : BitVec 9) (s : State) : Out :=
  runWord (.clk q d imm) (fun x t => x.perLane t fun _ =>
    { regs := pairWrites d.toNat (BitVec.ofNat 64 (if imm = 0 then acNow t (dieOf x.g.core) else nsNow t)) }) s
/-- yield (R192, R214): the group takes no part in the next vote in which another group is ready. -/
def execYield (s : State) : Out :=
  runWord .yield (fun x t => modGroup t x.gid fun g => { g with yielded := true, yieldAc := x.now + 1 }) s

/-- sched (R39): joins the run of its target. -/
def execSched (s0 s1 s2 : BitVec 4) (wait : BitVec 8) (yld : Bool) (s : State) : Out :=
  runHint (.sched s0 s1 s2 wait yld) (fun _ t => t) s
/-- imx (R40). -/
def execImx (payload : BitVec 24) (s : State) : Out := runHint (.imx payload) (fun _ t => t) s
/-- opx (R41). -/
def execOpx (o : OpxHint) (s : State) : Out := runHint (.opx o) (fun _ t => t) s
/-- A grace window is open for the group: a request that named it when it arrived (R427 to R429). -/
def windowOpen (s : State) (gid : Nat) : Bool := inWindowOf s gid false
/-- The range index of a `pre` word is not below the length of the header's table (R43). -/
def rangesBad (s : State) (g : Group) (ranges : Nat) : Bool :=
  ranges != 0xFF && decide ((((headerAt s g.kdom g.kentry).map (·.live.length)).getD 0) ≤ ranges)
/-- pre (R43, R429): inside a grace window the lanes halt at the boundary before the run; a range index out of its table is no boundary,
and the run's target raises its fault. -/
def execPre (live : BitVec 16) (ranges : BitVec 8) (s : State) : Out :=
  runHint (.pre live ranges) (fun x t =>
    if windowOpen t x.gid && !rangesBad t x.g ranges.toNat then
      (lanesOf x.cur.lanes).foldl (fun u l =>
        modLane u (x.lk l) fun y => { y with pc := x.pcR, run := [], held := .prePoint live ranges.toNat }) (endCover t x.gid)
    else t) s

end Sys2Proof.Machine
end

