-- ==== Sys2Proof/Machine/Preempt.lean ====
section
/-!
DEFINITION. Pre-emption (R427 to R441): what a pre point holds, what a save writes, the end of a grace window, the restore of a team
from its image, and the decision points of a time-slice pool (R118).
-/
namespace Sys2Proof.Machine

/-! ### Freeing what a team holds -/

/-- The tiles of a core that lie in one interval and outside another are zeroed, side words and poison with them. -/
def zeroTiles (core : Nat) (was now : Nat × Nat) (s : State) : State :=
  let gone (tile : Nat) : Bool :=
    tile / 4096 == core && decide (was.1 ≤ tile % 4096) && decide (tile % 4096 < was.2) && !(decide (now.1 ≤ tile % 4096) && decide (tile % 4096 < now.2))
  { s with tiles := s.tiles.filter fun x => !gone (x.1 / 256), side := s.side.filter fun x => !gone x.1, poisonTiles := s.poisonTiles.filter fun x => !gone x }
/-- A team gives its banks and tiles back; what leaves the domain's partition is zeroed: the banks, and every tile that its slot no longer
covers (R124, R131). -/
def vacateTeam (s : State) (tid : Nat) : State :=
  match s.teams.get? tid with
  | none => s
  | some t =>
    let cores := upTo t.core t.tbase.length
    let was := cores.map fun c => (c, tileHull (tileUses s c) t.dom)
    let s := modTeam s tid fun y => { y with banks := [], tbase := [] }
    let s := t.banks.foldl (fun (u : State) b =>
      let k := spmKey b.1 b.2 0
      { u with spm := u.spm.clear k Config.bankBytes, poisonSpm := u.poisonSpm.filter fun a => decide (a < k) || decide (k + Config.bankBytes ≤ a) }) s
    was.foldl (fun u e => zeroTiles e.1 e.2 (tileHull (tileUses u e.1) t.dom) u) s
/-- A retired team's banks, tiles and reserved image space are freed together (R433, R452). -/
def freeTeam (s : State) (tid : Nat) : State := dropImageFrame (vacateTeam s tid) tid

/-! ### Pre points (R429) -/

/-- A request is in force for the group. -/
def requested (s : State) (gid : Nat) : Bool := s.preempts.any fun e => e.2.groups.contains gid
/-- The lane stands at a word whose run begins with a `pre`. -/
def atPre (y : Lane) : Bool := (y.held == .none || y.held == .retry) && (match y.run with
  | w :: _ => isHint w && fld w 24 2 == 3
  | [] => false)
/-- Lanes of requested groups that reach a pre point are held there; a range index out of its table is none (R43). (DESIGN CHOICE, log 33) -/
def holdPre (s : State) : State :=
  if s.preempts = [] then s
  else
    { s with lanes := s.lanes.map fun (e : Nat × Lane) =>
        let p := ((hintsOf e.2.run).pre).getD (0, 0xFF)
        if atPre e.2 && requested s (e.1 / 64) && ((s.groups.get? (e.1 / 64)).map fun g => !rangesBad s g p.2).getD true then
          (e.1, { e.2 with held := .prePoint p.1 p.2 })
        else e }
/-- Every live lane of the group is held at a pre point. -/
def atRest (s : State) (gid : Nat) : Bool :=
  (lanesOf (liveMask s gid)).all fun l => match (laneAt s (lk gid l)).held with
    | .prePoint _ _ => true
    | _ => false
/-- A request ends: groups that it still held at a pre point go on (R428). -/
def endPreempt (s : State) (id : Nat) : State :=
  let s := { s with preempts := s.preempts.del id }
  { s with lanes := s.lanes.map fun (e : Nat × Lane) => match e.2.held with
      | .prePoint _ _ => if requested s (e.1 / 64) then e else (e.1, { e.2 with held := .none })
      | _ => e }

/-! ### The save (R430, R431, R434 to R438) -/

/-- A save waits for the results of a word of the major: not for those of ARENA and MSG words (R393, R431). -/
def savesAfter (major : Nat) : Bool := major != 0x29 && major != 0x2C
/-- Nothing of the group is in flight that the save waits for (R431): an `mmas` may be, and so may ARENA words and accepted messages; a fault
delivery past its first step completes first (R425). -/
def groupDrained (s : State) (gid : Nat) : Bool :=
  !(s.acc.any fun e => e.2.gid == gid) && !(s.atoms.any fun e => e.2.ops.any fun o => o.gid == gid) &&
  !(s.results.any fun e => e.2.gid == gid && savesAfter e.2.major) &&
  !(s.mops.any fun e => e.2.gid == gid && majorOf e.2.word != 0x32) && !(s.posts.any fun e => e.2.gid == gid && !e.2.free) &&
  !(s.parks.any fun e => e.2.gid == gid) && !(s.engs.any fun e => e.2.gid == gid && !e.2.accepted) &&
  !(s.lanes.any fun e => e.1 / 64 == gid && (e.2.commit.isSome || (match e.2.held with
    | .deliver _ _ _ _ _ => true
    | _ => false))) &&
  ((s.groups.get? gid).map fun g => flushReady s (pairOf g.core) g.stamp && (match g.gate with
    | some f => flushReady s (pairOf g.core) f.stamp
    | none => true)).getD true
/-- The groups of a team that have not retired. -/
def liveGroups (s : State) (t : Team) : List (Nat × Group) :=
  t.groups.filterMap fun g => match s.groups.get? g with
    | some x => if x.retired then none else some (g, x)
    | none => none
/-- The team's groups have nothing in flight that its save waits for. -/
def teamDrained (s : State) (t : Team) : Bool := (liveGroups s t).all fun e => groupDrained s e.1
/-- An operation or a posted receive targets the team's scratchpad (R128, R430, R439, R452). -/
def targeted (s : State) (tid : Nat) : Bool :=
  (s.engs.any fun e => e.2.team == tid && e.2.hitsSpm) || s.recvs.any fun e => e.2.team == tid
/-- An ARENA word in flight has the token (R150, R436). -/
def arenaTok (s : State) (tok : Nat) : Bool :=
  (s.results.any fun e => e.2.tok == tok && e.2.major == 0x29) || (s.drops.any fun e => e.2.tok == tok) || s.seals.any fun e => e.2.tok == tok
/-- Quads that a light save holds: those of the live maps and of the registers that ARENA words in flight write (R430). -/
def savedQuads (s : State) (gid : Nat) : BitVec 16 :=
  let m := (lanesOf (liveMask s gid)).foldl (fun (m : BitVec 16) l => match (laneAt s (lk gid l)).held with
    | .prePoint q _ => m ||| q
    | _ => m) 0
  s.board.foldl (fun (m : BitVec 16) p => if p.gid = gid ∧ arenaTok s p.tok then p.regs.foldl (fun m r => m ||| BitVec.ofNat 16 (2 ^ (r / 4))) m else m) m
/-- Add a range word to a list sorted by offset. -/
def addRange (w : Nat) : List Nat → List Nat
  | [] => [w]
  | v :: t => if w / 65536 ≤ v / 65536 then w :: v :: t else v :: addRange w t
/-- Overlapping neighbours of a sorted list become one, unless its length would not fit a range word (R84, R437). -/
def joinRanges : List Nat → List Nat
  | [] => []
  | w :: t => match joinRanges t with
    | [] => [w]
    | v :: r =>
      let a := w / 65536
      let b := max (a + w % 65536) (v / 65536 + v % 65536)
      if v / 65536 < a + w % 65536 ∧ b - a < 65536 then (a * 65536 + (b - a)) :: r else w :: v :: r
/-- The scratchpad ranges named by the range indices of the held lanes, sorted and merged (R430, R437). -/
def savedRanges (s : State) (gs : List (Nat × Group)) : List Nat :=
  let ws := gs.flatMap fun e => (lanesOf (liveMask s e.1)).flatMap fun l => match (laneAt s (lk e.1 l)).held with
    | .prePoint _ r => if r = 0xFF then [] else
        ((((headerAt s e.2.kdom e.2.kentry).map (·.live)).getD []).getD r []).filter fun w => w % 65536 != 0
    | _ => []
  joinRanges (ws.foldr addRange [])
/-- A lane stops at its word: its place at a tag, its waiter entry, its signature and its release are given up; one held at a `join`, a `bar`
or a pre point stays so; an open transaction is doomed (R431, R436). -/
def calmLane (gid : Nat) (g : Group) (s : State) (l : Nat) : State :=
  let k := lk gid l
  match s.lanes.get? k with
  | none => s
  | some y =>
    let s := dropReserved s k
    let s := match y.held with
      | .prePoint _ _ => modLane s k fun z => { z with rel := none, wait := 0, lastAc := 0 }
      | .join => modLane s k fun z => { z with rel := none, wait := 0, lastAc := 0 }
      | .bar _ _ => modLane s k fun z => { z with rel := none, wait := 0, lastAc := 0 }
      | h =>
        let s := match h with
          | .await t _ _ _ => dropWaiter s g.stamp g.func t k
          | _ => s
        modLane s k fun z => { z with pc := z.pc - BitVec.ofNat 64 (4 * z.run.length), run := [], held := .none, rel := none, wait := 0, lastAc := 0 }
    if y.txn.isSome then doom s k 10 0 else s
/-- A halted group before it is written: its gate aborted, its lanes stopped, its signatures gone (R326, R431). -/
def calmGroup (s : State) (e : Nat × Group) : State :=
  let s := if e.2.gate.isSome then leaveTarget s e.1 0x112 else s
  let g := (s.groups.get? e.1).getD e.2
  let s := (upTo 0 64).foldl (calmLane e.1 g) s
  let s := modGroup s e.1 fun y =>
    { y with conv := y.conv.map fun (c : Nat × Conv) => (c.1, { declared := c.2.declared }), cover := none, notBefore := 0, yielded := false, satOut := 0, only := 0, early := [], batch := 0,
             slots := y.slots.filter fun p => arenaTok s p.2 }
  flushNow { s with board := s.board.filter fun p => p.gid != e.1, noPage := s.noPage.filter fun n => n.1 != e.1 } (pairOf g.core) g.stamp
/-- The record of a stopped group (R436): `light` is its saved set, when it was at rest. -/
def groupImage (s : State) (gid : Nat) (g : Group) (light : Option (BitVec 16)) : GroupImage :=
  let q := light.getD (BitVec.allOnes 16)
  { group := g, light := light.isSome, quads := q,
    lanes := s.lanes.filterMap fun e => if e.1 / 64 = gid then some (e.1 % 64, e.2) else none,
    regs := s.vregs.filterMap fun e =>
      if e.1 / 8192 = gid ∧ e.1 % 128 < g.window ∧ q.getLsbD (e.1 % 128 / 4) ∧ laneLive s (e.1 / 128) then some (e.1 % 8192, e.2) else none }
/-- A group leaves the core (R431). -/
def removeGroup (s : State) (gid : Nat) : State :=
  { s with groups := s.groups.del gid, lanes := s.lanes.filter fun e => e.1 / 64 != gid, vregs := s.vregs.filter fun e => e.1 / 8192 != gid }
/-- The bytes of a team's scratchpad that a save writes (R437). -/
def savedSpm (s : State) (t : Team) (whole : Bool) (ranges : List Nat) : Tab Byte :=
  let all : List (Nat × Byte) := s.spm.filterMap fun e =>
    match ((upTo 0 t.banks.length).zip t.banks).find? fun b => spmKey b.2.1 b.2.2 0 / Config.bankBytes == e.1 / Config.bankBytes with
    | some b => some (b.1 * Config.bankBytes + e.1 % Config.bankBytes, e.2)
    | none => none
  let keep := if whole then all else all.filter fun e => ranges.any fun w => decide (w / 65536 * 32 ≤ e.1) && decide (e.1 < (w / 65536 + w % 65536) * 32)
  keep.foldl (fun (m : Tab Byte) e => m.put e.1 e.2) []
/-- The team tile of a physical tile: position of its core times 4096 plus its number. -/
def teamTile (t : Team) (tile : Nat) : Option Nat :=
  match t.tbase[tile / 4096 - t.core]? with
  | some b => if t.core ≤ tile / 4096 ∧ b ≤ tile % 4096 ∧ tile % 4096 < b + t.tiles then some ((tile / 4096 - t.core) * 4096 + (tile % 4096 - b)) else none
  | none => none
/-- Save a team (R431, R432): its groups stop and leave, and its image holds them, its scratchpad and its tiles. -/
def saveTeam (s : State) (tid : Nat) : State :=
  match s.teams.get? tid with
  | none => s
  | some t =>
    let gs := liveGroups s t
    let rest (e : Nat × Group) : Bool := e.2.gate.isNone && atRest s e.1
    let light : List (Nat × Option (BitVec 16)) := gs.map fun e => (e.1, if rest e then some (savedQuads s e.1) else none)
    let target := targeted s tid
    let whole := !(gs.all rest) || target
    let ranges := if whole then [] else savedRanges s gs
    let s := gs.foldl calmGroup s
    let recs : List (Nat × GroupImage) := t.groups.filterMap fun gid => (s.groups.get? gid).map fun g =>
      (gid, groupImage s gid g (((light.find? fun e => e.1 == gid).bind (·.2))))
    let img : Image :=
      { team := tid, teamRec := t, groups := recs, wholeSpm := whole, ranges := ranges, spm := savedSpm s t whole ranges,
        tiles := (s.tiles.filterMap fun e => (teamTile t (e.1 / 256)).map fun n => (n * 256 + e.1 % 256, e.2)),
        side := (s.side.filterMap fun e => (teamTile t e.1).map fun n => (n, e.2)), order := s.nextId, targeted := target }
    let s := t.groups.foldl removeGroup s
    let s := vacateTeam s tid
    let id := s.nextId
    modTeam { (fresh s).2 with images := s.images.put id img } tid fun y => { y with saved := some id }
/-- Teams at rest under an open request are saved at once (R429). -/
def saveRested (s : State) : State :=
  if s.preempts = [] then s
  else s.teams.foldl (fun u e =>
    match u.teams.get? e.1 with
    | some t =>
      let gs := liveGroups u t
      if t.saved.isNone && !t.retired && gs != [] && gs.all (fun g => requested u g.1 && g.2.gate.isNone && atRest u g.1) && teamDrained u t &&
          !(u.mops.any fun o => o.2.team == e.1) then saveTeam u e.1 else u
    | none => u) s

/-! ### The events -/

/-- A request arrives (R427). -/
def openPreempt (s : State) (dom : Nat) (cores : List Nat) (window source : Nat) : State :=
  { (fresh s).2 with preempts := s.preempts.put s.nextId ⟨dom, cores, groupsOf s dom cores, s.wall + ticksOfUs window, source⟩ }
/-- PREEMPT_REQUEST (R427): a request that names its own window. -/
def execPreemptRequest (dom : Nat) (cores : List Nat) (windowUs : Nat) (s : State) : Out :=
  if (funcOfDom s dom).isNone ∨ cores.any (fun c => decide (Config.cores ≤ c)) ∨ windowUs = 0 ∨ 1000 < windowUs then .refused (.notEnabled "PREEMPT_REQUEST")
  else .next (openPreempt s dom cores windowUs 3)
/-- Teams of a request that are still on their cores. -/
def unsavedTeams (s : State) (p : Preempt) : List Nat :=
  dedup (p.groups.filterMap fun g => match s.groups.get? g with
    | some x => if x.retired then none else some x.team
    | none => none)
/-- A sliced product at a halt: it stops after the pass in progress, or that pass is its last and it completes (R331, R332). -/
def stopOne (o : MatOp) (n : Nat) (s : State) : State :=
  if nextPass s o n < (passes (mFmt o.m1)).length then mmasStop o n s else releaseSigned o (mmasDone o s)
/-- Sliced products of a team stop at their pass (R332). -/
def stopSliced (tid passes : Nat) (s : State) : State :=
  s.mops.foldl (fun u e => if e.2.team = tid ∧ majorOf e.2.word = 0x32 then
    retireTok (stopOne e.2 passes { u with mops := u.mops.del e.1 }) e.2.gid e.2.tok else u) s
/-- A team whose window is over may be saved now: what its save waits for has happened, and its sliced products may run (R431). -/
def haltReady (s : State) (tid : Nat) : Bool :=
  ((s.teams.get? tid).map (teamDrained s)).getD true && !(s.mops.any fun e => e.2.team == tid && !matReady s e.1 e.2)
/-- GRACE_WINDOW_END (R431, R432, R448): the window is over, and the teams of the request that are ready are saved, each without waiting for the
others; `passes` is how many more passes a sliced product runs before it stops. -/
def execGraceWindowEnd (req passes : Nat) (s : State) : Out :=
  match s.preempts.get? req with
  | none => .refused (.notEnabled "GRACE_WINDOW_END")
  | some p =>
    let ts := (unsavedTeams s p).filter (haltReady s)
    if s.wall < p.windowEnd ∨ ts = [] then .refused (.notEnabled "GRACE_WINDOW_END")
    else .next (ts.foldl (fun u t => saveTeam (stopSliced t passes u) t) s)

/-! ### Restore (R440) -/

/-- A saved team may be restored now: no request holds it, nothing still completes into its image, its function runs. -/
def restorable (s : State) (m : Image) : Bool :=
  !(m.groups.any fun e => requested s e.1) && m.groups.all (fun e => e.2.group.slots == []) && !(funcAt s m.teamRec.func).halted
/-- The first image precedes the second: priority, then save order. -/
def restoreBefore (a b : Image) : Bool :=
  if a.teamRec.prio ≠ b.teamRec.prio then decide (b.teamRec.prio < a.teamRec.prio) else decide (a.order < b.order)
/-- A restored lane: one that was held at a pre point goes on there. -/
def resumed (y : Lane) : Lane := match y.held with
  | .prePoint _ _ => { y with held := .none }
  | _ => y
/-- A saved group takes its place on a partition: its window, lanes and registers are written (R440 step 5). -/
def restoreGroup (core : Nat) (s : State) (e : (Nat × GroupImage) × Nat) : Option State :=
  let gid := e.1.1
  let g := e.1.2.group
  let c := core + e.2 / 12
  match rfPlace (rfUses s c) (e.2 % 12) g.stamp (windowBytes g.width g.window g.divmax) with
  | none => none
  | some base =>
    let g := { g with core := c, part := e.2 % 12, rfBase := base, lastIssue := acNow s (dieOf c), placed := s.nextId }
    some { (fresh s).2 with
      groups := s.groups.put gid g, lanes := e.1.2.lanes.foldl (fun (t : Tab Lane) y => t.put (lk gid y.1) (resumed y.2)) s.lanes,
      vregs := e.1.2.regs.foldl (fun (t : Tab Word) r => t.put (gid * 8192 + r.1) r.2) s.vregs }
/-- The groups of an image in order, or none when one has no room. -/
def restoreGroups (core : Nat) : State → List ((Nat × GroupImage) × Nat) → Option State
  | s, [] => some s
  | s, e :: t => match restoreGroup core s e with
    | some u => restoreGroups core u t
    | none => none
/-- The record of a team that is rebuilt on a core with banks and tiles there. -/
def restoredTeam (t : Team) (core : Nat) (banks : List (Nat × Nat)) (tb : List Nat) : Team := { t with core := core, banks := banks, tbase := tb, saved := none }
/-- A team is rebuilt on a core as far as its scratchpad, its tiles and its retired groups (R440 steps 2 to 4). -/
def restoreBase (s : State) (image core : Nat) (m : Image) (t : Team) : State :=
  let s := { s with teams := s.teams.put m.team t, images := s.images.del image }
  -- every tile and side word of the team takes the value in the image, zero where it holds none
  let s := (upTo 0 t.tbase.length).foldl (fun u i => zeroTiles (core + i) (t.tbase.getD i 0, t.tbase.getD i 0 + t.tiles) (0, 0) u) s
  let s := m.spm.foldl (fun (u : State) e => match spmAt t e.1 with
    | some k => { u with spm := u.spm.wr k e.2 }
    | none => u) s
  let s := m.tiles.foldl (fun (u : State) e => setTileWord u (physTile t (core + e.1 / 256 / 4096) (e.1 / 256 % 4096)) (e.1 % 256) e.2) s
  let s := { s with side := m.side.foldl (fun (z : Tab Word) e => z.wr (physTile t (core + e.1 / 4096) (e.1 % 4096)) e.2) s.side }
  m.groups.foldl (fun (u : State) e => if e.2.group.retired then { u with groups := u.groups.put e.1 { e.2.group with core := core } } else u) s
/-- A rebuilt team's cores take its domain and its lanes acquire (R440 step 5). -/
def restoreEnd (s : State) (core : Nat) (t : Team) : State :=
  let cs := if t.pair then [core, core + 1] else [core]
  let s := cs.foldl (fun v c => syncCore (noteUse v t.func c) c) s
  let s := match t.grid with
    | some gr => modGrid s gr fun y => { y with pairs := dedup (y.pairs ++ [pairOf core]) }
    | none => s
  acquire s (pairOf core) t.dom
/-- The groups of an image that had not retired, in order. -/
def Image.liveOnes (m : Image) : List (Nat × GroupImage) := m.groups.filter fun e => !e.2.group.retired
/-- A team is rebuilt on a core, its live groups on the partitions named, where room is (R440). -/
def restoreOn (s : State) (image core : Nat) (parts : List Nat) (m : Image) (t : Team) : Option State :=
  if parts.length ≠ m.liveOnes.length ∨ t.pair && core % 2 != 0 ∨ !slotRoom s core t.dom ∨ (t.pair && !slotRoom s (core + 1) t.dom) then none
  else match teamBanks s core m.teamRec.banks.length, teamTiles s core t.dom t.tiles t.pair with
    | some banks, some tb =>
      (restoreGroups core (restoreBase s image core m (restoredTeam t core banks tb)) (m.liveOnes.zip parts)).map fun u => restoreEnd u core t
    | _, _ => none
/-- Partitions of a core or pair for the groups of an image that had not retired: the first that fit. -/
def imageParts (s : State) (m : Image) (pair : Bool) (c : Nat) : List Nat :=
  match m.liveOnes with
  | e :: _ => pickParts e.2.group.stamp (windowBytes e.2.group.width e.2.group.window e.2.group.divmax) (if pair then 24 else 12) m.liveOnes.length
      (rfUses s c, rfUses s (c + 1)) []
  | [] => []
/-- The image is restored on the first core of its function's own unit set that has room. -/
def restoreAny (s : State) (image : Nat) (m : Image) (t : Team) : Option State :=
  (upTo 0 Config.cores).findSome? fun c =>
    if !mayUseTeam s t.func c t.pair true then none else restoreOn s image c (imageParts s m t.pair c) m t
/-- Every saved team of a grid can be restored at once. -/
def savedFit (s : State) (gr : Nat) : Bool :=
  (s.images.foldl (fun (a : Option State) e => a.bind fun u => if e.2.teamRec.grid == some gr then
    (u.teams.get? e.2.team).bind fun t => restoreAny u e.1 e.2 t else some u) (some s)).isSome
/-- An image waits only for room: it is restorable, and a cooperative grid that lost cores while it was halted fits whole (R121). -/
def restoreReady (s : State) (m : Image) : Bool :=
  restorable s m && (match m.teamRec.grid with
    | some gr => (match s.grids.get? gr with
      | some g => !(g.coop && g.shrunk) || savedFit s gr
      | none => true)
    | none => true)
/-- The team of an image may be rebuilt on the core now: no other image of the function comes first, and the core
lies in the function's own unit set. -/
def mayRestore (s : State) (image core : Nat) (parts : List Nat) (m : Image) (t : Team) : Bool :=
  restoreReady s m && !(s.images.any fun e => e.1 != image && e.2.teamRec.func == t.func && restoreBefore e.2 m && restoreReady s e.2) &&
  mayUseTeam s t.func core t.pair true && parts.all fun p => decide (p < if t.pair then 24 else 12)
/-- CONTEXT_RESTORE (R440): the team of an image is rebuilt on a core; `parts` are the partitions of its groups that had not retired,
in order. -/
def execContextRestore (image core : Nat) (parts : List Nat) (s : State) : Out :=
  match s.images.get? image with
  | none => .refused (.notEnabled "CONTEXT_RESTORE")
  | some m =>
    match s.teams.get? m.team with
    | none => .refused (.notEnabled "CONTEXT_RESTORE")
    | some t =>
      if !mayRestore s image core parts m t then .refused (.notEnabled "CONTEXT_RESTORE")
      else match restoreOn s image core parts m t with
        | none => .refused (.notEnabled "CONTEXT_RESTORE")
        | some u => if coopKept s u then .next u else .refused (.notEnabled "CONTEXT_RESTORE")

/-! ### Time-slice pools (R117, R118) -/

/-- The function has work: groups on cores or saved, in a gate or not, bins that wait, grids whose teams have not all started. -/
def hasWork (s : State) (f : Nat) : Bool :=
  !(funcAt s f).halted && ((s.groups.any fun e => !e.2.retired && (e.2.func == f || ((s.teams.get? e.2.team).map (·.func)) == some f)) || (s.images.any fun e => e.2.teamRec.func == f) ||
    (s.bins.any fun e => e.2.func == f && e.2.waiting.isSome) || s.grids.any fun e => e.2.func == f && !e.2.aborted && decide (e.2.placedTeams.length + e.2.lostTeams < e.2.teams))
/-- The functions of a function's pool, itself among them. -/
def poolOf (s : State) (f : Nat) : List Nat :=
  (s.funcs.filter fun e => e.2.sliced && e.2.cores == (funcAt s f).cores).map (·.1)
/-- A function may be chosen: it has work and its budget is above zero. -/
def mayRun (s : State) (f : Nat) : Bool := hasWork s f && decide (2 ^ 40 < (funcAt s f).budget)
/-- The choice of R118: the greatest budget, ties to the lowest number. -/
def poolChoice (s : State) (fs : List Nat) : Option Nat :=
  fs.foldl (fun (b : Option Nat) f =>
    if !mayRun s f then b
    else match b with
      | some g => if (funcAt s g).budget < (funcAt s f).budget then some f else b
      | none => some f) none
/-- The cores of a function's pool. -/
def poolCores (s : State) (f : Nat) : List Nat := (upTo 0 Config.cores).filter fun c => (funcAt s f).cores.getLsbD c
/-- A function of a pool runs no longer: on each core of the pool where it has groups it is pre-empted in its own window, by a request of that
core alone, since each core is given over as soon as it has been saved (R118, R448). -/
def poolLeave (s : State) (f : Nat) : State :=
  let x := funcAt s f
  let dom := x.dom.getD 64
  let s := modFunc s f fun y => { y with running := false }
  if s.preempts.any (fun e => e.2.source == 1 && e.2.dom == dom) then s
  else ((poolCores s f).filter fun c => groupsOf s dom [c] != []).foldl (fun t c => openPreempt t dom [c] x.grace 1) s
/-- The running function of a pool whose work is over, while no function of the pool may run, runs no longer (R117, R118). -/
def poolRests (s : State) (fs : List Nat) : Option Nat :=
  match fs.find? fun f => (funcAt s f).running, poolChoice s fs with
  | some r, none => if hasWork s r then none else some r
  | _, _ => none
/-- POOL_DECISION_POINT (R118): `fn` names a function of the pool. The running function has no work, or its budget is spent while a
rival may run: the pool's other functions leave it and the chosen function runs, or none where none may. -/
def execPoolDecisionPoint (fn : Nat) (s : State) : Out :=
  if !(funcAt s fn).sliced then .refused (.notEnabled "POOL_DECISION_POINT")
  else
    let fs := poolOf s fn
    let cur := fs.find? fun f => (funcAt s f).running
    let rivals := fs.filter fun f => some f != cur
    let due := match cur with
      | none => true
      | some r => !hasWork s r || (decide ((funcAt s r).budget ≤ 2 ^ 40) && rivals.any (mayRun s))
    match poolChoice s fs, poolRests s fs with
    | some c, _ =>
      if !due ∨ some c = cur then .refused (.notEnabled "POOL_DECISION_POINT")
      else
        .next (modFunc ((fs.filter (· != c)).foldl poolLeave s) c fun y => { y with running := true })
    | none, some r => .next (poolLeave s r)
    | none, none => .refused (.notEnabled "POOL_DECISION_POINT")
/-- Pools settle: a function without work no longer runs where none may take its place (R117, R118). -/
def settlePools (s : State) : State :=
  s.funcs.foldl (fun t e => if e.2.sliced ∧ poolRests t (poolOf t e.1) = some e.1 then poolLeave t e.1 else t) s

end Sys2Proof.Machine
end

