-- ==== Sys2Proof/Machine/Reconf.lean ====
section
/-!
DEFINITION. Reconfiguration lists (R119 to R121) and `recfg` (R122).
-/
namespace Sys2Proof.Machine

/-- The unsigned field of `n` bytes at an offset. -/
def fAt (b : List Byte) (o n : Nat) : Nat := leNat ((b.drop o).take n)
/-- Every byte of the ranges (offset, length) is zero. -/
def zeroAt (b : List Byte) (rs : List (Nat × Nat)) : Bool := rs.all fun r => ((b.drop r.1).take r.2).all (· == 0)

/-- Unassigned byte ranges of an entry by its type (Table 6-2). -/
def cfgUnused : Nat → List (Nat × Nat)
  | 0 => [(2, 6), (9, 23)]
  | 2 => [(2, 6), (9, 7)]
  | 3 => [(2, 6), (12, 20)]
  | 4 => [(2, 6), (9, 1), (15, 17)]
  | 5 => [(2, 6), (9, 3), (18, 14)]
  | 6 => [(2, 6), (12, 20)]
  | _ => [(2, 30)]
/-- A body field lies outside its range (reason 3). -/
def cfgRange (b : List Byte) : Bool :=
  match fAt b 0 1 with
  | 0 => fAt b 8 1 == 0 || decide (63 < fAt b 8 1)
  | 2 => decide (3 < fAt b 8 1) || fAt b 16 8 &&& fAt b 24 8 != 0
  | 4 => decide (3 < fAt b 8 1) || decide (64 < fAt b 10 2) || decide (256 < fAt b 12 2) || fAt b 14 1 == 0
  | 5 =>
    if fAt b 8 1 = 0 then fAt b 12 4 != 0 || fAt b 16 2 != 0
    else decide (1 < fAt b 8 1) || decide (fAt b 12 4 < 50) || decide (100000 < fAt b 12 4) || fAt b 16 2 == 0 || decide (1024 < fAt b 16 2)
  | 6 => fAt b 8 4 == 0 || decide (1000 < fAt b 8 4)
  | _ => false
/-- A core that the entry's bitmaps grant is another function's (reason 4). -/
def cfgHeld (s : State) (f : Nat) (b : List Byte) : Bool :=
  match fAt b 0 1 with
  | 2 => (upTo 0 64).any fun c =>
      let core := fAt b 8 1 * 64 + c
      (bitAt (fAt b 16 8) c || bitAt (fAt b 24 8) c) && s.funcs.any fun e =>
        e.1 != f && ((e.2.cores.getLsbD core && !(bitAt (fAt b 16 8) c && e.2.sliced && (funcAt s f).sliced)) || e.2.margin.getLsbD core)
  | 3 => s.funcs.any fun e => e.1 != f && (e.2.channels &&& BitVec.ofNat 32 (fAt b 8 4)) != 0
  | _ => false
/-- Replace the bits of a die in a core set. -/
def setDie (m : BitVec 256) (die bits : Nat) : BitVec 256 :=
  (m &&& ~~~(BitVec.ofNat 256 ((2 ^ 64 - 1) * 2 ^ (die * 64)))) ||| BitVec.ofNat 256 (bits * 2 ^ (die * 64))
/-- The root arena that a domain has. -/
def rootOf (s : State) (dom : Nat) : Option Nat :=
  (s.arenas.find? fun e => e.2.dom == dom && e.2.depth == 0 && e.2.state == .live).map (·.1)
/-- The configuration after an entry (Table 6-2). (DESIGN CHOICE, log 35) -/
def cfgApply (s : State) (b : List Byte) : State :=
  let f := fAt b 1 1
  match fAt b 0 1 with
  | 0 => { s with funcs := s.funcs.put f { dom := some (fAt b 8 1), root := rootOf s (fAt b 8 1) } }
  | 1 => { s with funcs := s.funcs.del f }
  | 2 => modFunc s f fun x => { x with cores := setDie x.cores (fAt b 8 1) (fAt b 16 8), margin := setDie x.margin (fAt b 8 1) (fAt b 24 8) }
  | 3 => modFunc s f fun x => { x with channels := BitVec.ofNat 32 (fAt b 8 4) }
  | 4 => modFunc s f fun x => { x with blocks := setAt x.blocks (fAt b 8 1) (fAt b 10 2), bins := setAt x.bins (fAt b 8 1) (fAt b 12 2), weight := fAt b 14 1 }
  | 5 => modFunc s f fun x =>
      if fAt b 8 1 = 0 then { x with sliced := false, sliceUs := 0, rate := 0, running := false }
      else { x with sliced := true, sliceUs := fAt b 12 4, rate := fAt b 16 2, budget := 2 ^ 40 + 716800 * fAt b 12 4, running := x.sliced && x.running }
  | 6 => modFunc s f fun x => { x with grace := fAt b 8 4 }
  | _ => s
/-- The sum of a share over all functions. -/
def shareSum (s : State) (g : Func → Nat) : Nat := s.funcs.foldl (fun n e => n + g e.2) 0
/-- A guaranteed core goes that holds a team of a cooperative grid of the function, which is not halted (reason 6). -/
def coopLoses (s t : State) (f : Nat) : Bool :=
  !(funcAt s f).halted && s.teams.any fun e =>
    !e.2.retired && e.2.saved.isNone && e.2.func == f &&
    ((e.2.grid.bind fun g => s.grids.get? g).map (·.coop)).getD false &&
    ((funcAt s f).cores.getLsbD e.2.core && !(funcAt t f).cores.getLsbD e.2.core ||
      e.2.pair && (funcAt s f).cores.getLsbD (e.2.core + 1) && !(funcAt t f).cores.getLsbD (e.2.core + 1))
/-- The lowest-numbered reason for which an entry fails against a configuration (Table 6-3, reason 7 apart). -/
def cfgFail (s : State) (b : List Byte) : Option Nat :=
  let ty := fAt b 0 1
  let f := fAt b 1 1
  let known := (s.funcs.get? f).isSome && (funcAt s f).dom.isSome
  let t := cfgApply s b
  let k := funcAt t 0
  if 7 < ty ∨ !zeroAt b (cfgUnused ty) then some 1
  else if 16 < f ∨ (!known ∧ ty ≠ 0 ∧ ty ≠ 7) ∨ (known ∧ ty = 0) then some 2
  else if cfgRange b then some 3
  else if cfgHeld s f b then some 4
  else if ty = 4 ∧ (64 < shareSum t (fun x => x.blocks.getD (fAt b 8 1) 0) ∨ 256 < shareSum t fun x => x.bins.getD (fAt b 8 1) 0) then some 5
  else if ty = 2 ∧ coopLoses s t f then some 6
  else if ty = 1 ∧ ((funcAt s f).modules ≠ [] ∨ s.groups.any (fun e => !e.2.retired && e.2.func == f) ∨ s.runs.any fun e => e.1 / 64 == f && !e.2.ended) then some 8
  else if (f = 0 ∧ (ty = 1 ∨ (ty = 5 ∧ fAt b 8 1 = 1))) ∨ (f = 0 ∧ ty = 2 ∧ k.cores ||| k.margin = 0) ∨ (f = 0 ∧ ty = 3 ∧ k.channels = 0) then some 9
  else if ty = 0 ∧ s.funcs.any (fun e => e.2.dom == some (fAt b 8 1)) then some 10
  else none
/-- A function's set breaks reason 7 in a configuration. -/
def poolBad (s : State) (f : Nat) : Bool :=
  let x := funcAt s f
  let all := x.cores ||| x.margin
  (s.funcs.any fun e => e.1 != f &&
    ((x.sliced && e.2.sliced && (x.cores &&& e.2.cores) != 0 && x.cores != e.2.cores) ||
     (x.sliced && !e.2.sliced && (x.cores &&& (e.2.cores ||| e.2.margin)) != 0) || (!x.sliced && e.2.sliced && (all &&& e.2.cores) != 0))) ||
  (x.sliced && decide (1024 < s.funcs.foldl (fun n e => if e.2.sliced ∧ e.2.cores = x.cores then n + e.2.rate else n) 0))
/-- The entries of a list. -/
def entries (b : List Byte) : Nat → List (List Byte)
  | 0 => []
  | n + 1 => b.take 32 :: entries (b.drop 32) n
/-- Entries are checked and applied in order: the configuration after them, or the index and reason of the first that fails. -/
def cfgRun (s : State) : Nat → List (List Byte) → Except (Nat × Nat) State
  | _, [] => .ok s
  | i, b :: t => match cfgFail s b with
    | some r => .error (i, r)
    | none => cfgRun (cfgApply s b) (i + 1) t
/-- Index of the last entry that set the cores or the mode of a function whose set breaks reason 7. -/
def lastBad (t : State) (es : List (List Byte)) : Nat :=
  ((upTo 0 es.length).zip es).foldl (fun n e => if (fAt e.2 0 1 = 2 ∨ fAt e.2 0 1 = 5) ∧ poolBad t (fAt e.2 1 1) then e.1 else n) 0

/-- A function leaves a core at the commit, as a lent core that is revoked, or at once when nothing of it is there; a guaranteed core that
stays in its own margin is no loan (R121). -/
def cfgLeave (f dom window : Nat) (s : State) (core : Nat) : State :=
  let s := { s with loans := if ownsCore s f core then s.loans.del core else s.loans.put core f }
  if (residents s core).contains dom then
    { (fresh s).2 with preempts := s.preempts.put s.nextId ⟨dom, [core], groupsOf s dom [core], s.wall + ticksOfUs window, 2⟩ }
  else { s with loans := s.loans.del core }
/-- A function's table share on a die has gone: its tags there go, with their counts and reservations, and each continuation that waits is lost
with a detached fault (R124, R175). No core holds such a continuation: the fault and its trace record name core 0 of the tag's home die, as
the manual names none. (DESIGN CHOICE, log 35) -/
def shareGone (s : State) (f : Nat) : State :=
  let gone (e : TagEntry) : Bool := e.func == f && (funcAt s f).blocks.getD (tagHome e.tag) 0 == 0
  (s.tags.filter gone).foldl (fun (t : State) e => e.waiters.foldl (fun (v : State) w => match w with
    | .record a => displaced v e.dom (tagHome e.tag * 64) a
    | .lane _ => v) t) { s with tags := s.tags.filter fun e => !gone e }
/-- A share of blocks that has shrunk gives up tags with no waiter until what is left fits (R124). (DESIGN CHOICE, log 35) -/
def shareFit (f die : Nat) : Nat → State → State
  | 0, s => s
  | n + 1, s =>
    if entryRoom s f die 0 then s
    else match s.tags.find? fun e => e.func == f && tagHome e.tag == die && e.waiters == [] && e.reserved == 0 with
      | some e => shareFit f die n (putTag s e.dom f e.tag fun y => { y with count := 0 })
      | none => s
/-- A bin is emptied: its fibres are held as released continuations, none of them discarded (R124, R174). (DESIGN CHOICE, log 35) -/
def emptyBin (s : State) (key : Nat) : State :=
  match s.bins.get? key with
  | none => s
  | some b =>
    ((b.waiting.getD []) ++ b.fibres).foldl (fun t x =>
      { (fresh t).2 with heldConts := t.heldConts.put (fresh t).1 ⟨key / 256, b.dom, b.func, b.entry, b.kentry, x, false⟩ }) { s with bins := s.bins.del key }
/-- Bins of a function on a die beyond its share are emptied (R124, R175). -/
def binsFit (s : State) (f die : Nat) : State :=
  (((s.bins.filter fun e => e.1 / 256 == die && e.2.func == f).map (·.1)).drop ((funcAt s f).bins.getD die 0)).foldl emptyBin s
/-- A function's tags and bins as its shares now allow (R124). -/
def sharesFit (s : State) (f : Nat) : State :=
  (upTo 0 Config.dies).foldl (fun t d => binsFit (shareFit f d t.tags.length t) f d) (shareGone s f)
/-- Nothing of a function that is no longer assigned stays in bins or held. -/
def dropFunc (s : State) (f : Nat) : State :=
  { s with bins := s.bins.filter fun e => e.2.func != f, heldConts := s.heldConts.filter fun e => e.2.func != f, tags := s.tags.filter fun e => e.func != f }
/-- The steward's lowest channel has changed: the descriptor region moves, and with it the poison of its lines (R144). -/
def moveRegion (old s : State) : State :=
  let a := (descRegion old).1 / 64
  let b := (descRegion s).1 / 64
  if a = b then s else { s with poison := s.poison.map fun l => if a ≤ l ∧ l < (descRegion old).2 / 64 then b + (l - a) else l }
/-- A vault whose owner changed is marked zero; its lines go, and write-backs of them that are on their way (R268). -/
def vaultZero (s : State) (core : Nat) : State :=
  let pa := Config.paVault + core * 2 ^ 24
  let gone (a : Access) : Bool := a.pa / 2 ^ 24 == pa / 2 ^ 24 && (match a.kind with
    | .victim _ => true
    | _ => false)
  { zeroRange s pa (2 ^ 24) with l1 := s.l1.filter fun e => !(keyLine e.1 / 2 ^ 18 == pa / 2 ^ 24), acc := s.acc.filter fun e => !gone e.2 }
/-- The function and the domain to which a core's vault belongs (R268). -/
def vaultHolder (s : State) (core : Nat) : Nat × Option Nat := (vaultOwner s core, (funcAt s (vaultOwner s core)).dom)
/-- A loan after the commit: it ends when its core is the borrower's own, and is revoked when the core is guaranteed to another function, or
its owner has changed (R113, R116, R121). -/
def loanAfter (old : State) (t : State) (e : Nat × Nat) : State :=
  if ownsCore t e.2 e.1 ∨ (funcAt t e.2).dom.isNone then { t with loans := t.loans.del e.1 }
  else if (t.funcs.any fun g => g.1 != e.2 && g.2.cores.getLsbD e.1) ∨ marginOwner old e.1 ≠ marginOwner t e.1 then
    cfgLeave e.2 ((funcAt t e.2).dom.getD 64) (min (funcAt t e.2).grace 20) t e.1
  else t
/-- Cores that leave a function's unit set at the commit. -/
def coresLost (old s : State) (f : Nat) : List Nat := (upTo 0 Config.cores).filter fun c => ownsCore old f c && !ownsCore s f c
/-- Cores of a function that it holds no longer as it did, and has not lent: those that leave its unit set or its guaranteed set (R121). -/
def coresRevoked (old s : State) (f : Nat) : List Nat :=
  (upTo 0 Config.cores).filter fun c => (old.loans.get? c).isNone && ((ownsCore old f c && !ownsCore s f c) || ((funcAt old f).cores.getLsbD c && !(funcAt s f).cores.getLsbD c))
/-- What a commit causes: cores that leave a function are revoked, loans whose owner changed too (R121), vaults whose owner changed, or its
domain, are marked zero (R124, R268), the descriptor region moves (R144), and shares that shrank are emptied (R124). Pages mapped on a far
channel that a FARCH entry takes from their function stay mapped and usable, as the manual says nothing of them. (DESIGN CHOICE, log 35) -/
def cfgConsequences (old s : State) : State :=
  let s := old.funcs.foldl (fun (t : State) e =>
    let t : State := if e.2.halted && coresLost old s e.1 != [] then
      { t with grids := t.grids.map fun (g : Nat × Grid) => if g.2.func = e.1 then (g.1, { g.2 with shrunk := true }) else g } else t
    (coresRevoked old s e.1).foldl (cfgLeave e.1 (e.2.dom.getD 64) (min e.2.grace 20)) t) s
  let s := old.loans.foldl (loanAfter old) s
  let s := ((upTo 0 Config.cores).filter fun c => vaultHolder old c != vaultHolder s c).foldl vaultZero s
  let s := { moveRegion old s with available := s.available.filter fun c => s.funcs.any fun e => e.2.margin.getLsbD c }
  old.funcs.foldl (fun t e => if (funcAt t e.1).dom.isSome then sharesFit t e.1 else dropFunc t e.1) s
/-- jasper_commit (R121): status, index and reason, and the state after the commit point. -/
def jasperCommit (s : State) (b : List Byte) (n : Nat) : (Nat × Nat × Nat) × State :=
  let es := entries b n
  match cfgRun s 0 es with
  | .error (i, r) => ((5, i, r), s)
  | .ok t =>
    if t.funcs.any fun e => poolBad t e.1 then ((5, lastBad t es, 7), s)
    else ((0, 0xFFFFFFFF, 0), cfgConsequences s t)

/-- The check of `recfg` that a lane fails before its list is read. (DESIGN CHOICE, log 36) -/
def recfgFail (x : Ctx) (d l : Nat) : Option FaultInfo :=
  let k := x.lk l
  let n := (vreg x.rs k (d + 2)).toNat
  if x.g.stamp ≠ 0 then some (x.fi 9 3)
  else if (vpair x.rs k d).toNat % 32 ≠ 0 ∨ n = 0 ∨ 256 < n then some (x.fi 1 2) else none
/-- One list: read at its home after an acquire, then checked and applied; the transaction of a host line may fail (R281). -/
def recfgOne (x : Ctx) (d : Nat) (s : State) (e : Nat × BitVec 64) : State :=
  let k := x.lk e.1
  let n := (vreg x.rs k (d + 2)).toNat
  let va := (vpair x.rs k d).toNat
  match domRead s x.g.stamp va 257 (32 * n) with
  | .error f => x.raiseAll s e.2 (x.accFault f 64 false)
  | .ok b =>
    match hostLineFails s x.g.stamp va false 257 (32 * n) with
    | (some a, s) => x.raiseAll s e.2 (x.accFault ⟨8, 3, a⟩ 64 false)
    | (none, s) =>
      let r := jasperCommit (x.acquire s 2) b n
      x.give r.2 e.2 [(d, BitVec.ofNat 32 r.1.1), (d + 1, BitVec.ofNat 32 r.1.2.1), (d + 2, BitVec.ofNat 32 r.1.2.2)]
/-- An engine owns a line of a list: the word waits for its recall (R284). -/
def recfgWaits (x : Ctx) (d : Nat) (s : State) : Bool :=
  x.acts.any fun e => domOwned s x.g.stamp (vpair x.rs (x.lk e.1) d).toNat (32 * (vreg x.rs (x.lk e.1) (d + 2)).toNat)
/-- recfg (R122). -/
def execRecfg (q : Qual) (d : BitVec 6) (s : State) : Out :=
  runWord (.recfg q d) (fun x t =>
    let r := x.sift t (recfgFail x d.toNat)
    if r.1.go = 0 then r.2
    else r.1.translated r.2 (r.1.acts.map fun e => (vpair x.rs (x.lk e.1) d.toNat).toNat) fun v =>
      r.1.releasing v 2 fun w => if recfgWaits r.1 d.toNat w then x.wait w else r.1.acts.foldl (recfgOne r.1 d.toNat) w) s

end Sys2Proof.Machine
end

