-- ==== Sys2Proof/Machine/Command.lean ====
section
/-!
DEFINITION. The command page (R95 to R99), the capture of commands and their completion records (R100 to R102, R106), and the commands
that act on memory, arenas, functions and the configuration (R101, R104, R105, R121, R123, R469, R470).
-/
namespace Sys2Proof.Machine

/-! ### The command page -/

/-- The function's command page exists (R95, R461). -/
def pageOf (s : State) (fn : Nat) : Bool := s.up && (fn == 0 || (decide (fn ≤ 16) && (funcAt s fn).dom.isSome))
/-- Records that the completion queue holds: 2^(lsize + 4). -/
def cqSize (x : Func) : Nat := 2 ^ (fld x.cqcfg 0 4 + 4)
/-- Records written and not consumed (R97). -/
def unconsumed (x : Func) : Nat := (x.wpos + cqSize x - x.cqhead.toNat % cqSize x) % cqSize x
/-- Records are withheld (R97). -/
def withheld (x : Func) : Bool := unconsumed x + 1 == cqSize x
/-- A record of the function is still to be written: queued, or owed by a run or by a command in progress (R97). -/
def recordsOwed (s : State) (fn : Nat) : Bool :=
  let x := funcAt s fn
  x.records != [] || x.waiting != [] || s.runs.any fun e => e.1 / 64 == fn && !e.2.ended
/-- Writes to CQLO, CQHI and CQCFG are ignored (R97). -/
def cqLocked (s : State) (fn : Nat) : Bool := (funcAt s fn).slotbsy != 0 || recordsOwed s fn
/-- The first unassigned byte that is not zero. -/
def firstNonzero (b : List Byte) (rs : List (Nat × Nat)) : Option Nat :=
  (rs.flatMap fun r => upTo r.1 r.2).find? fun o => b.getD o 0 != 0
/-- The least of some offsets. -/
def leastOf (os : List (Option Nat)) : Option Nat := os.foldl (fun (m : Option Nat) o => match m, o with
  | some a, some b => some (min a b)
  | none, o => o
  | m, none => m) none
/-- A parameter that is out of range gives its offset. -/
def offIf (bad : Bool) (o : Nat) : Option Nat := if bad then some o else none
/-- A function field names no function (R101): a number from 1 to 16 that no domain is assigned to names none. (DESIGN CHOICE, log 32) -/
def fnBad (s : State) (b : List Byte) (o : Nat) : Bool :=
  let f := fAt b o 2
  f != 0xFFFF && (decide (16 < f) || (f != 0 && (funcAt s f).dom.isNone))
/-- The function that a function field names. -/
def fnOf (fn : Nat) (b : List Byte) (o : Nat) : Nat := if fAt b o 2 = 0xFFFF then fn else fAt b o 2
/-- A range meets the scratchpad window or the vault window. -/
def inWindows (va len : Nat) : Bool :=
  meets (va, va + len) (Config.spmWindow, Config.vaEnd) || meets (va, va + len) (Config.vw, Config.vw + Config.vwSpan)
/-- Bytes of a page by its size code. -/
def pageBytes (c : Nat) : Nat := [0x10000, 0x200000, 0x40000000].getD c 0x10000
/-- The range of a MEM.MAP is out of range or meets a window (R469 checks 1 and 2): the offset. -/
def mapRangeBad (va len size : Nat) : Option Nat :=
  if va % size ≠ 0 ∨ Config.vaEnd ≤ va then some 0x10
  else if len % size ≠ 0 ∨ len = 0 ∨ Config.vaEnd < va + len then some 0x18
  else offIf (inWindows va len) 0x10
/-- The source of a MEM.MAP is out of range (R469 check 5). -/
def mapSourceBad (src len size : Nat) (host : Bool) : Bool :=
  if host then src % size != 0 || decide (2 ^ 51 ≤ src) || decide (2 ^ 51 < src + len) else src != 0
/-- The arena owns every byte of the range (R147). -/
def arenaOwns (s : State) (dom a va len : Nat) : Bool :=
  let x := arenaAt s a
  arenaLives x && x.dom == dom && decide (x.base ≤ va) && decide (va + len ≤ x.rangeEnd) &&
    !((childrenOf s a).any fun c => meets (va, va + len) ((arenaAt s c).base, (arenaAt s c).rangeEnd))
/-- Checks 3 to 5 of R469, in order: the status and offset of the first that fails. -/
def mapStateBad (s : State) (dom arena va len src size : Nat) (host : Bool) : Option (Nat × Nat) :=
  if !arenaOwns s dom arena va len then some (3, 0x28)
  else if rangePages s dom va len ≠ [] then some (6, 0)
  else if mapSourceBad src len size host then some (3, 0x20)
  else none
/-- The parameters of a MEM.MAP at capture (R100): the first of checks 1 to 5 of R469 when it gives status 3, and the reserved bits. A failure of
check 4 comes before check 5 and leaves no status 3; it is found again at the start. (DEDUCED, log 36) -/
def mapBad (s : State) (fn : Nat) (b : List Byte) : List (Option Nat) :=
  let ctl := fAt b 0x28 4
  let va := fAt b 0x10 8
  let len := fAt b 0x18 8
  let size := pageBytes (ctl % 4)
  [match mapRangeBad va len size with
   | some o => some o
   | none => match mapStateBad s (((funcAt s fn).dom).getD 64) (bits ctl 27 16) va len (fAt b 0x20 8) size (bitAt ctl 2) with
     | some (3, o) => some o
     | _ => none,
   offIf (ctl % 4 == 3 || bits ctl 15 4 != 0 || bits ctl 31 28 != 0) 0x28]
/-- The offset of the lowest parameter out of range or unassigned byte that is not zero (R100, Table 5-3): a field with a bit out of range
gives the field's own, and a kick of a graph that is not there names the graph's. (DESIGN CHOICE, log 32) -/
def paramBad (s : State) (fn : Nat) (b : List Byte) : Option Nat :=
  let hdr := leastOf [offIf (fAt b 2 1 / 2 != 0) 2, firstNonzero b [(8, 8)]]
  let r : List (Option Nat) := match fAt b 0 2 with
    | 1 => [firstNonzero b [(0x20, 32)]]
    | 2 => [firstNonzero b [(0x1C, 36)]]
    | 3 => [offIf (decide (63 < fAt b 0x10 2) || (s.graphs.get? (fn * 64 + fAt b 0x10 2)).isNone) 0x10, firstNonzero b [(0x12, 46)]]
    | 4 => [offIf (decide (63 < fAt b 0x10 2)) 0x10, offIf (decide (1 < fAt b 0x12 2)) 0x12, firstNonzero b [(0x14, 44)]]
    | 5 => mapBad s fn b ++ [firstNonzero b [(0x2C, 20)]]
    | 6 => [offIf (inWindows (fAt b 0x10 8) (fAt b 0x18 8)) 0x10, firstNonzero b [(0x20, 32)]]
    | 7 => [firstNonzero b [(0x12, 6), (0x30, 16)]]
    | 8 => [offIf (!(fAt b 0x18 8 == 0 || (upTo 16 15).any fun k => fAt b 0x18 8 == 2 ^ k)) 0x18, offIf (fnBad s b 0x28) 0x28, firstNonzero b [(0x2A, 22)]]
    | 9 => [offIf (fAt b 0x10 2 == 0 || fAt b 0x10 2 == 0xFFFF || fnBad s b 0x10) 0x10, offIf (decide (1 < fAt b 0x12 2)) 0x12, firstNonzero b [(0x14, 44)]]
    | 10 => [offIf (fnBad s b 0x10) 0x10, firstNonzero b [(0x12, 6), (0x20, 32)]]
    | 11 => [offIf (fAt b 0x10 8 % 32 != 0) 0x10, offIf (fAt b 0x18 4 == 0 || decide (256 < fAt b 0x18 4)) 0x18, firstNonzero b [(0x1C, 36)]]
    | _ => [offIf (fnBad s b 0x10) 0x10, firstNonzero b [(0x12, 46)]]
  leastOf (hdr :: r)
/-- Place of a command's function field, when it has one. -/
def fnField (op : Nat) : Option Nat := if op = 8 then some 0x28 else if op = 9 ∨ op = 10 ∨ op = 12 then some 0x10 else none
/-- The command is one for the physical function only, or names another function than the virtual function that sends it (R101). -/
def notPermitted (s : State) (fn : Nat) (b : List Byte) : Bool :=
  let op := fAt b 0 2
  (s.record.isNone && op != 10) ||
  (fn != 0 && (op == 7 || op == 9 || op == 11 || (match fnField op with
    | some o => fnOf fn b o != fn
    | none => false)))
/-- The function on which a command acts is halted, and the command is not exempt (Table 5-5, status 8). -/
def haltedFor (s : State) (fn : Nat) (b : List Byte) : Bool :=
  let op := fAt b 0 2
  let target := match fnField op with
    | some o => fnOf fn b o
    | none => fn
  (funcAt s target).halted && !(op == 10 || op == 12 || (op == 9 && fAt b 0x12 2 == 1))
/-- Statuses 1, 2, 3 and 8, decided at capture (R100). -/
def verdictOf (s : State) (fn : Nat) (b : List Byte) : Option (Nat × Nat) :=
  let op := fAt b 0 2
  if op = 0 ∨ 12 < op then some (1, 0)
  else if notPermitted s fn b then some (2, 0)
  else match paramBad s fn b with
    | some o => some (3, o)
    | none => if haltedFor s fn b then some (8, 0) else none

/-- The event by which a command starts that starts on capture (R99). -/
def promptEvent (fn slot : Nat) (b : List Byte) : List Turn :=
  let mode := fAt b 0x12 2
  match fAt b 0 2 with
  | 4 => [.event (if mode = 0 then .graphStopDrain fn slot else .graphStopAbort fn slot)]
  | 9 => [.event (if mode = 0 then .vfHalt fn slot else .vfResume fn slot)]
  | 10 => [.event (.vfQuery fn slot)]
  | 12 => [.event (.resetVf fn slot)]
  | _ => []
/-- A command is captured: an acquire at system scope for its work (R98); from a GRAPH.STOP on no node of its run starts (R103); one that
starts on capture starts next, unless records are withheld (R97, R99). (DESIGN CHOICE, log 32) -/
def capture (fn slot : Nat) (b : List Byte) (s : State) : State :=
  let x := funcAt s fn
  let v := verdictOf s fn b
  let s := dropCleanHost s (x.dom.getD 64)
  let s := modFunc s fn fun y =>
    { y with slots := y.slots.put slot { bytes := b, seq := x.captured, verdict := v }, captured := y.captured + 1, slotbsy := y.slotbsy ||| BitVec.ofNat 32 (2 ^ slot) }
  let s := if v.isNone ∧ fAt b 0 2 = 4 then
    { s with runs := s.runs.map fun (e : Nat × Run) => if e.1 = fn * 64 + fAt b 0x10 2 then (e.1, { e.2 with stopped := true }) else e } else s
  if v.isNone ∧ !withheld x then { s with agenda := promptEvent fn slot b ++ s.agenda } else s
/-- A bit of CMDERR for a slot write that is discarded (R96). -/
def errBit (c : Bool) (n : Nat) : Word := if c then BitVec.ofNat 32 (2 ^ n) else 0
/-- COMMAND_SLOT_WRITE (R96): captured, or discarded and recorded in CMDERR. (DESIGN CHOICE, log 32) -/
def execCommandSlotWrite (fn link offset : Nat) (bytes : List Byte) (s : State) : Out :=
  let x := funcAt s fn
  if !pageOf s fn ∨ 0x400 ≤ offset ∨ bytes = [] ∨ 1 < link ∨ s.hostDown.contains link then .refused (.notEnabled "COMMAND_SLOT_WRITE")
  else
    let shape := bytes.length != 64 || offset % 64 != 0
    let busy := (upTo (offset / 64) ((offset % 64 + bytes.length + 63) / 64)).any fun k => x.slotbsy.getLsbD k
    let noq := !shape && fld x.cqcfg 31 1 == 0
    if shape || busy || noq then .next (modFunc s fn fun y => { y with cmderr := y.cmderr ||| (errBit busy 0 ||| errBit shape 1 ||| errBit noq 2) })
    else .next (capture fn (offset / 64) bytes s)
/-- CQCFG_WRITE (R97, Table 5-1). -/
def execCqcfgWrite (fn link : Nat) (value : Word) (s : State) : Out :=
  if !pageOf s fn ∨ 1 < link ∨ s.hostDown.contains link then .refused (.notEnabled "CQCFG_WRITE")
  else if cqLocked s fn ∨ 12 < fld value 0 4 then .next s
  else
    let v := value &&& 0x8000000F
    .next (modFunc s fn fun y =>
      if fld v 31 1 = 1 then { y with cqcfg := v, wpos := 0, cqhead := 0, phase := true, link := link } else { y with cqcfg := v })
/-- CQHEAD_WRITE (R97). -/
def execCqheadWrite (fn : Nat) (value : Word) (s : State) : Out :=
  if !pageOf s fn then .refused (.notEnabled "CQHEAD_WRITE")
  else .next (modFunc s fn fun y => { y with cqhead := value &&& 0xFFFF })
/-- REGISTER_WRITE (R5, R97, Table 5-1): CQLO, CQHI and CMDERR; every other byte of the page ignores it. -/
def execRegisterWrite (fn offset : Nat) (value : Word) (s : State) : Out :=
  if !pageOf s fn ∨ offset < 0x400 ∨ 0x1000 ≤ offset ∨ offset % 4 ≠ 0 ∨ offset = 0x408 ∨ offset = 0x40C then .refused (.notEnabled "REGISTER_WRITE")
  else if offset = 0x400 then .next (if cqLocked s fn then s else modFunc s fn fun y => { y with cqlo := value &&& 0xFFFFF000 })
  else if offset = 0x404 then .next (if cqLocked s fn then s else modFunc s fn fun y => { y with cqhi := value })
  else if offset = 0x414 then .next (modFunc s fn fun y => { y with cmderr := y.cmderr &&& ~~~value })
  else .next s
/-- A read of a command-page register (R95, Table 5-1): what the host sees. A byte of a command slot reads as zero too. (DESIGN CHOICE, log 32) -/
def pageRead (s : State) (fn offset : Nat) : Word :=
  let x := funcAt s fn
  match offset with
  | 0x400 => x.cqlo
  | 0x404 => x.cqhi
  | 0x408 => x.cqcfg
  | 0x40C => x.cqhead
  | 0x410 => x.slotbsy
  | 0x414 => x.cmderr
  | _ => 0

/-! ### Records -/

/-- The MSI-X vector that a command asks for (Table 5-2). -/
def vecOf (b : List Byte) : Option Nat := if fAt b 2 1 % 2 = 1 then some (fAt b 3 1) else none
/-- A record of a function waits to be written. -/
def pushRecord (s : State) (fn : Nat) (r : Record) : State := modFunc s fn fun x => { x with records := x.records ++ [r] }
/-- The final record of a command in a slot. -/
def finalRecord (s : State) (fn slot status : Nat) (info0 info1 : Nat := 0) : State :=
  match (funcAt s fn).slots.get? slot with
  | some c => pushRecord s fn ⟨BitVec.ofNat 32 (fAt c.bytes 4 4), fAt c.bytes 0 2, status, 0, slot, info0, info1, vecOf c.bytes⟩
  | none => s
/-- A command waits for its effect to finish. -/
def waitCmd (s : State) (fn slot what stage : Nat) : State :=
  match (funcAt s fn).slots.get? slot with
  | some c => modFunc s fn fun x =>
      { x with waiting := x.waiting ++ [⟨BitVec.ofNat 32 (fAt c.bytes 4 4), fAt c.bytes 0 2, slot, vecOf c.bytes, what, stage⟩] }
  | none => s
/-- The bytes of a record (Table 5-4). -/
def recordBytes32 (r : Record) (phase : Bool) (now : Nat) : List Byte :=
  leBytes 4 r.tag.toNat ++ leBytes 2 r.opcode ++ leBytes 1 r.status ++ leBytes 1 ((if phase then 128 else 0) + r.kind * 16 + r.slot) ++
    leBytes 8 r.info0 ++ leBytes 8 r.info1 ++ leBytes 8 now
/-- The link for a function's records (R99): the one through which the queue was enabled, or the other while that is down. -/
def linkFor (s : State) (x : Func) : Option Nat :=
  if !s.hostDown.contains x.link then some x.link else if !s.hostDown.contains (1 - x.link) then some (1 - x.link) else none
/-- COMPLETION_RECORD (R97, R102, R106): the function's next record is written, and its MSI-X message sent after a final one; a
command's first record frees its slot. (DESIGN CHOICE, log 42) -/
def execCompletionRecord (fn : Nat) (s : State) : Out :=
  let x := funcAt s fn
  match x.records, linkFor s x with
  | r :: rest, some link =>
    if withheld x then .refused (.notEnabled "COMPLETION_RECORD")
    else
      let base := x.cqhi.toNat * 2 ^ 32 + x.cqlo.toNat
      let s := writeHost s (base + 32 * x.wpos) (recordBytes32 r x.phase (nsNow s))
      let w := (x.wpos + 1) % cqSize x
      let s := modFunc s fn fun y => { y with records := rest, wpos := w, phase := if w = 0 then !y.phase else y.phase }
      let s := if r.kind = 2 then s else modFunc s fn fun y =>
        { y with slots := y.slots.del r.slot, slotbsy := y.slotbsy &&& ~~~(BitVec.ofNat 32 (2 ^ r.slot)) }
      .next (match r.vec with
        | some v => { s with msix := s.msix ++ [(fn, v, link)] }
        | none => s)
  | _, _ => .refused (.notEnabled "COMPLETION_RECORD")

/-! ### Starting a command (R99) -/

/-- The command starts on capture (R99): GRAPH.STOP, VF.HALT, VF.QUERY or RESET.VF. -/
def onCapture (c : Command) : Bool :=
  let op := fAt c.bytes 0 2
  op == 4 || op == 9 || op == 10 || op == 12
/-- It is the command's turn: nothing is withheld, none that starts on capture is still to start, and earlier commands have written their first
record; one that starts on capture waits only for those of its kind before it (R97, R99). -/
def cmdTurn (x : Func) (slot : Nat) (c : Command) : Bool :=
  !c.started && !withheld x &&
  (if onCapture c then x.slots.all fun e => e.1 == slot || e.2.started || !onCapture e.2 || decide (c.seq < e.2.seq)
   else x.slots.all fun e => e.1 == slot || (decide (c.seq < e.2.seq) && (e.2.started || !onCapture e.2)))
/-- A command with nothing against it at capture starts: `act` gets the function, the slot and the command's bytes. -/
def startCmd (name : String) (op fn slot : Nat) (s : State) (act : List Byte → State → Out) : Out :=
  match (funcAt s fn).slots.get? slot with
  | some c =>
    if fAt c.bytes 0 2 ≠ op ∨ c.verdict.isSome ∨ !cmdTurn (funcAt s fn) slot c then .refused (.notEnabled name)
    else act c.bytes (modFunc s fn fun y => { y with slots := y.slots.put slot { c with started := true } })
  | none => .refused (.notEnabled name)
/-- Commands refused at capture whose turn has come write their record (R100). -/
def refuseDue (s : State) : State :=
  s.funcs.foldl (fun u e => e.2.slots.foldl (fun (v : State) c =>
    match c.2.verdict with
    | some (st, i) =>
      if cmdTurn (funcAt v e.1) c.1 c.2 then finalRecord (modFunc v e.1 fun y => { y with slots := y.slots.put c.1 { c.2 with started := true } }) e.1 c.1 st i
      else v
    | none => v) u) s
/-- Bytes of host memory that Jasper reads by DMA, or the address that failed. -/
def hostRead (s : State) (addr n : Nat) : Except Nat (List Byte) :=
  if 2 ^ 51 < addr + n then .error (max addr (2 ^ 51))
  else match (upTo ((Config.paHost + addr) / 64) ((addr % 64 + n + 63) / 64)).find? fun l => s.poison.contains l with
    | some l => .error (max addr (l * 64 - Config.paHost))
    | none => .ok (readHost s addr n)

/-! ### Memory commands (R104, R469) -/

/-- A function's page tables have the frames that they need now, drawn as they grow; none where its channels have no room (R267). -/
def mapTables (f : Nat) (s : State) : Option State :=
  let t := drawTables f (tablesNeeded s f) s
  if tablesHeld t f then some t else none
/-- The channels of a function, the one at position `i` first. -/
def chansFrom (s : State) (f i : Nat) : List Nat :=
  let cs := (upTo 0 Config.channels).filter fun c => (funcAt s f).channels.getLsbD c
  cs.drop (i % max cs.length 1) ++ cs.take (i % max cs.length 1)
/-- Map `n` new far pages from an address up, round-robin over the function's channels (R267); none when a frame is missing. -/
def mapFar (f dom size arena : Nat) (writable : Bool) : Nat → Nat → Nat → State → Option State
  | 0, _, _, s => mapTables f s
  | n + 1, va, i, s =>
    match (chansFrom s f i).findSome? fun c => frameIn s c size size with
    | some pa => mapFar f dom size arena writable n (va + size) (i + 1)
        (zeroRange { s with pages := s.pages.put (pageKey dom va) ⟨size, pa, dom, arena, (arenaAt s arena).gen, writable⟩,
                            poisonPages := s.poisonPages.filter (· != pageKey dom va) } pa size)
    | none => none
/-- A host frame of 64 KiB passes to the domain: another held it last, or the domain itself and no page of it covers the frame now
(R124). (DEDUCED, log 36) -/
def framePasses (s : State) (dom pa : Nat) : Bool :=
  match s.hostHeld.find? fun h => decide (h.1 ≤ pa) && decide (pa < h.1 + h.2.1) with
  | some h => h.2.2 != dom || !(s.pages.any fun e => e.1 / 2 ^ 57 == dom && decide (e.2.pa ≤ pa) && decide (pa < e.2.pa + e.2.size))
  | none => false
/-- A host page goes to a domain: frames that pass to it are marked zero (R124). -/
def takeHost (dom pa size : Nat) (s : State) : State :=
  let fs := (upTo 0 (size / Config.page)).filterMap fun i => if framePasses s dom (pa + i * Config.page) then some (pa + i * Config.page) else none
  { fs.foldl (fun t f => zeroRange t f Config.page) s with hostHeld := (pa, size, dom) :: s.hostHeld }
/-- Map `n` host pages; none where the page tables have no frames. -/
def mapHost (f dom size arena : Nat) (writable : Bool) : Nat → Nat → Nat → State → Option State
  | 0, _, _, s => mapTables f s
  | n + 1, va, src, s =>
    let s := takeHost dom (Config.paHost + src) size s
    mapHost f dom size arena writable n (va + size) (src + size)
      { s with pages := s.pages.put (pageKey dom va) ⟨size, Config.paHost + src, dom, arena, (arenaAt s arena).gen, writable⟩,
               poisonPages := s.poisonPages.filter (· != pageKey dom va) }
/-- MEM_MAP (R469): checks 3 to 6 in order, as things stand at its start. -/
def execMemMap (fn slot : Nat) (s : State) : Out :=
  startCmd "MEM_MAP" 5 fn slot s fun b s =>
    let va := fAt b 0x10 8
    let len := fAt b 0x18 8
    let src := fAt b 0x20 8
    let ctl := fAt b 0x28 4
    let size := pageBytes (ctl % 4)
    let arena := bits ctl 27 16
    let dom := ((funcAt s fn).dom).getD 64
    match mapStateBad s dom arena va len src size (bitAt ctl 2) with
    | some (st, o) => .next (finalRecord s fn slot st o)
    | none =>
      match (if bitAt ctl 2 then mapHost fn dom size arena (bitAt ctl 3) (len / size) va src s
             else mapFar fn dom size arena (bitAt ctl 3) (len / size) va 0 s) with
      | some t => .next (finalRecord t fn slot 0)
      | none => .next (finalRecord s fn slot 4)
/-- A physical line lies in one of the pages. -/
def lineIn (ps : List (Nat × Page)) (line : Nat) : Bool := ps.any fun e => decide (e.2.pa ≤ line * 64) && decide (line * 64 < e.2.pa + e.2.size)
/-- A transaction has read or written a line of the pages. -/
def txnIn (ps : List (Nat × Page)) (y : Lane) : Bool :=
  match y.txn with
  | some t => (t.reads ++ t.writes).any fun l => lineIn ps l.pa
  | none => false
/-- An access translated in the pages has not completed (R104): those on their way, the buffers of transactions, and engine operations
that have been issued. (DESIGN CHOICE, log 36) -/
def pagesBusy (s : State) (dom : Nat) (ps : List (Nat × Page)) : Bool :=
  (s.acc.any fun e => lineIn ps (e.2.pa / 64)) || (s.atoms.any fun e => !e.2.inSpm && lineIn ps (e.2.pa / 64)) ||
  (s.engs.any fun e => e.2.owned.any (lineIn ps) || (e.2.dom == dom && (e.2.sources ++ e.2.targets).any fun r => r.2 != 0 && ps.any fun p => meets (r.1, r.1 + r.2) (p.1, p.1 + p.2.size))) ||
  (s.mops.any fun e => e.2.locs.any fun l => l.2.1.isSome && lineIn ps (l.2.2 / 64)) || s.lanes.any fun e => txnIn ps e.2
/-- Pages go: their copies are written back and leave every L1, host lines reach host memory and leave the slices, translations go (R104). -/
def unmapPages (s : State) (dom : Nat) (ps : List (Nat × Page)) : State :=
  let s := s.l1.foldl (fun t e => if lineIn ps (keyLine e.1) ∧ e.2.dmask ≠ 0 then writeBack t e.1 else t) s
  let s := { s with l1 := s.l1.filter fun e => !lineIn ps (keyLine e.1) }
  let s := s.hostLines.foldl (fun t e => if lineIn ps (e.1 / 2 ^ 22) then hostWrite t e.1 else t) s
  let s := sliceDrop s fun line _ => isHost (line * 64) && lineIn ps line
  let s := ps.foldl (fun t p => forgetRange t dom p.1 p.2.size) s
  { s with
    pages := ps.foldl (fun (t : Tab Page) e => t.del (pageKey dom e.1)) s.pages,
    poisonPages := s.poisonPages.filter fun k => !(ps.any fun e => pageKey dom e.1 == k) }
/-- MEM_UNMAP (R104): the mapped pages of the range go, once no access translated in it is on its way. -/
def execMemUnmap (fn slot : Nat) (s : State) : Out :=
  startCmd "MEM_UNMAP" 6 fn slot s fun b s =>
    let va := fAt b 0x10 8
    let len := fAt b 0x18 8
    let dom := ((funcAt s fn).dom).getD 64
    let s := splitRange s dom (va / Config.page * Config.page) (alignUp (va + len) Config.page - va / Config.page * Config.page)
    let ps := rangePages s dom va len
    if pagesBusy s dom ps then .refused (.notEnabled "MEM_UNMAP") else .next (finalRecord (unmapPages s dom ps) fn slot 0)

/-! ### Roots, trace buffers, queries and lists -/

/-- An address lies in the range of an arena, or in a vault of its function (R268). -/
def inArena (s : State) (a f va : Nat) : Bool :=
  (decide ((arenaAt s a).base ≤ va) && decide (va < (arenaAt s a).rangeEnd)) ||
  (decide (Config.vw ≤ va) && decide (va < Config.vw + Config.vwSpan) && vaultOwner s ((va - Config.vw) / 2 ^ 24) == f)
/-- An arena leaves as by a drop: the continuations that wait in it are discarded, its lines too, and its number is freed (R157, R165,
R470). -/
def dropRoot (f : Nat) (s : State) (a : Nat) : State :=
  let s := discardConts s (arenaAt s a).dom (inArena s a f)
  freeNumber (addFilter s a (arenaAt s a).gen []) a
/-- The drop of an arena would wait: for an access under its tag, an engine operation, a park, or room in a filter (R157). -/
def dropWaits (s : State) (f a : Nat) : Bool :=
  tagInFlight s [a] || engineNames s [a] || roomMask s != allPlaces || s.parks.any fun p => p.2.dom == (arenaAt s a).dom && inArena s a f p.2.addr
/-- Vault frames of a function's cores become zero (R268). -/
def zeroVaults (s : State) (f : Nat) : State :=
  (upTo 0 Config.cores).foldl (fun t c => if vaultOwner s c = f then vaultZero t c else t) s
/-- ARENA_ROOT (R470). -/
def execArenaRoot (fn slot : Nat) (s : State) : Out :=
  startCmd "ARENA_ROOT" 7 fn slot s fun b s =>
    let dom := fAt b 0x10 2
    let quota := fAt b 0x18 8
    let base := fAt b 0x20 8
    let len := fAt b 0x28 8
    let fail (st i : Nat) : Out := .next (finalRecord s fn slot st i)
    match funcOfDom s dom with
    | none => fail 3 0x10
    | some f =>
      if quota % 65536 ≠ 0 ∨ len < quota then fail 3 0x18
      else if base % 65536 ≠ 0 ∨ Config.vaEnd ≤ base then fail 3 0x20
      else if len % 65536 ≠ 0 ∨ len = 0 ∨ Config.vaEnd < base + len then fail 3 0x28
      else if inWindows base len then fail 3 0x20
      else
        let old := (funcAt s f).root
        let busy := match old with
          | some a => childrenOf s a != [] || rangePages s dom (arenaAt s a).base ((arenaAt s a).rangeEnd - (arenaAt s a).base) != []
          | none => false
        if busy then fail 6 0
        else if (match old with
          | some a => dropWaits s f a
          | none => false) then .refused (.notEnabled "ARENA_ROOT")
        else match lowestFree s with
          | none => fail 4 0
          | some a =>
            let s := modArena s a fun x =>
              { x with state := .live, dom := dom, depth := 0, parent := 0, quota := quota, charge := 0, base := base, rangeEnd := base + len, bump := base }
            let s := modFunc s f fun y => { y with root := some a }
            let s := match old with
              | some o => zeroVaults (dropRoot f s o) f
              | none => s
            .next (finalRecord s fn slot 0 ((handleOf s a).toNat))
/-- TRACE_SET (R101, R123). -/
def execTraceSet (fn slot : Nat) (s : State) : Out :=
  startCmd "TRACE_SET" 8 fn slot s fun b s =>
    .next (finalRecord (modFunc s (fnOf fn b 0x28) fun x =>
      { x with traceAddr := fAt b 0x10 8, traceSize := fAt b 0x18 8, traceMask := fAt b 0x20 8 }) fn slot 0)
/-- The status block of a function (R101). -/
def queryBlock (s : State) (f : Nat) : List Byte :=
  let x := funcAt s f
  let count (m : BitVec 256) : Nat := ((upTo 0 Config.cores).filter fun c => m.getLsbD c).length
  let lent := (s.loans.filter fun e => e.2 != f && x.margin.getLsbD e.1).length
  let borrowed := (s.loans.filter fun e => e.2 == f).length
  let state := if s.record.isNone then 2 else if x.resetting then 2 else if x.halted then 1 else 0
  let runs := s.runs.foldl (fun n e => if e.1 / 64 = f ∧ !e.2.ended then n + 2 ^ (e.1 % 64) else n) 0
  leBytes 4 state ++ leBytes 4 (count x.cores) ++ leBytes 4 lent ++ leBytes 4 borrowed ++ leBytes 4 x.modules.length ++
    leBytes 4 (s.graphs.filter fun e => e.1 / 64 == f).length ++ leBytes 8 runs ++
    leBytes 8 ((x.root.map fun a => (arenaAt s a).charge).getD 0) ++ leBytes 8 x.traceDropped ++ rep 16 0
/-- VF_QUERY (R101). -/
def execVfQuery (fn slot : Nat) (s : State) : Out :=
  startCmd "VF_QUERY" 10 fn slot s fun b s =>
    .next (finalRecord (writeHost s (fAt b 0x18 8) (queryBlock s (fnOf fn b 0x10))) fn slot 0)
/-- CFG_COMMIT (R101, R121). -/
def execCfgCommit (fn slot : Nat) (s : State) : Out :=
  startCmd "CFG_COMMIT" 11 fn slot s fun b s =>
    match hostRead s (fAt b 0x10 8) (32 * fAt b 0x18 4) with
    | .error a => .next (finalRecord s fn slot 7 0 a)
    | .ok list =>
      let r := jasperCommit s list (fAt b 0x18 4)
      .next (if r.1.1 = 0 then finalRecord r.2 fn slot 0 else finalRecord r.2 fn slot 5 r.1.2.1 r.1.2.2)

/-! ### Halt, resume and reset (R101, R105, R140) -/

/-- Groups that are inside a gate into the domain leave it with a code (Table 7-4). -/
def abortVisitors (s : State) (dom code : Nat) : State :=
  s.groups.foldl (fun t e => match e.2.gate with
    | some _ => if e.2.stamp = dom ∧ !e.2.retired then leaveTarget t e.1 code else t
    | none => t) s
/-- Groups of a function that are still on cores. -/
def groupsLeft (s : State) (f : Nat) : List Nat :=
  (s.groups.filter fun e => !e.2.retired && ((s.teams.get? e.2.team).map fun t => t.func == f).getD false).map (·.1)
/-- VF_HALT (R101, R427): every core that holds a group of the domain, in the function's own window. -/
def execVfHalt (fn slot : Nat) (s : State) : Out :=
  startCmd "VF_HALT" 9 fn slot s fun b s =>
    if fAt b 0x12 2 ≠ 0 then .refused (.notEnabled "VF_HALT")
    else
      let f := fAt b 0x10 2
      let dom := ((funcAt s f).dom).getD 64
      let s := abortVisitors (modFunc s f fun x => { x with halted := true }) dom 0x110
      let cores := dedup ((s.groups.filter fun e => !e.2.retired && stampedBy dom e.2).map (·.2.core))
      if cores = [] then .next (finalRecord s fn slot 0)
      else .next (waitCmd (openPreempt s dom cores (funcAt s f).grace 0) fn slot f 0)
/-- A resume ends the halt's request while its window is open: its groups go on. Once the window is over they have halted, and the request
stands until they are saved, to be restored then (R428, R440). -/
def resumeRequest (s : State) (e : Nat × Preempt) : State :=
  if s.wall < e.2.windowEnd then endPreempt s e.1 else { s with preempts := s.preempts.put e.1 { e.2 with source := 4 } }
/-- VF_RESUME (R101, R428, R440): the halt's request ends; saved teams may be restored from now on. -/
def execVfResume (fn slot : Nat) (s : State) : Out :=
  startCmd "VF_RESUME" 9 fn slot s fun b s =>
    if fAt b 0x12 2 ≠ 1 then .refused (.notEnabled "VF_RESUME")
    else
      let f := fAt b 0x10 2
      let dom := ((funcAt s f).dom).getD 64
      let s := modFunc s f fun x => { x with halted := false }
      let s := s.preempts.foldl (fun u e => if e.2.dom = dom ∧ e.2.source = 0 then resumeRequest u e else u) s
      .next (finalRecord s fn slot 0)
/-- A lane leaves what it waits in: its place at a tag, or a waiter entry that it has reserved. -/
def leaveWaits (s : State) (g : Group) (k : Nat) : State :=
  let s := match (laneAt s k).held with
    | .await tag _ _ _ => dropWaiter s g.stamp g.func tag k
    | _ => s
  dropReserved s k
/-- A group ends without a save (R103): its lanes end where they stand, the commits under way made first (R380). A fault delivery past its first
step runs to its end (R415), unless the whole function is reset. -/
def endGroup (s : State) (gid : Nat) (reset : Bool := false) : State :=
  match s.groups.get? gid with
  | none => s
  | some g => (lanesOf (liveMask s gid)).foldl (fun t l =>
      let k := lk gid l
      match reset, (laneAt t k).held with
      | false, .deliver _ _ _ _ _ => t
      | _, _ => endLane (leaveWaits (commitOpen t k) g k) k) s
/-- The tables of a function with everything of it taken out (R105 steps 1 and 4): runs, grids, bins, tags and what is on its way. -/
def clearWork (s : State) (f dom : Nat) : State :=
  { s with
    runs := s.runs.filter fun e => e.1 / 64 != f, grids := s.grids.filter fun e => e.2.func != f,
    bins := s.bins.filter fun e => e.2.func != f, tags := s.tags.filter fun e => e.func != f, heldConts := s.heldConts.filter fun e => e.2.func != f,
    posts := s.posts.filter fun e => e.2.func != f, parks := s.parks.filter fun e => e.2.func != f, images := s.images.filter fun e => e.2.teamRec.func != f,
    preempts := s.preempts.filter fun e => e.2.dom != dom, recvs := s.recvs.filter fun e => e.2.dom != dom, queues := s.queues.filter fun e => e.2.dom != dom,
    detached := s.detached.filter fun e => e.2.dom != dom }
/-- RESET_VF (R105): step 1; the rest follows when the domain's engine operations have completed. A command whose record is discarded leaves
its slot, and its SLOTBSY bit clears. (DESIGN CHOICE, log 35) -/
def execResetVf (fn slot : Nat) (s : State) : Out :=
  startCmd "RESET_VF" 12 fn slot s fun b s =>
    let f := fnOf fn b 0x10
    let dom := ((funcAt s f).dom).getD 64
    let s := abortVisitors s dom 0x110
    let s := (groupsLeft s f).foldl (fun t g => endGroup t g true) s
    let s := clearWork s f dom
    let s := modFunc s f fun x =>
      let owed := x.slots.filter fun e => e.2.started && !(f == fn && e.1 == slot)
      { x with resetting := true, records := [], waiting := [], slots := x.slots.filter fun e => !(owed.any fun o => o.1 == e.1),
               slotbsy := owed.foldl (fun (m : Word) o => m &&& ~~~(BitVec.ofNat 32 (2 ^ o.1))) x.slotbsy }
    .next (waitCmd s fn slot f 1)
/-- Nothing of the domain is on its way (R105 step 2). -/
def resetDrained (s : State) (dom : Nat) : Bool :=
  !(s.engs.any fun e => e.2.dom == dom) && !(s.acc.any fun e => e.2.dom == dom) && !(s.atoms.any fun e => e.2.dom == dom) &&
  !(s.msgs.any fun e => e.2.dom == dom) && !(s.mops.any fun e => ((s.teams.get? e.2.team).map fun t => t.dom == dom).getD false) &&
  !(s.seals.any fun e => (arenaAt s e.2.arena).dom == dom) && !(s.drops.any fun e => (arenaAt s e.2.root).dom == dom)
/-- Steps 3 to 6 of R105: the root's children are dropped from the highest range down, so that its bump pointer comes back as far as
R148 lets it. (DESIGN CHOICE, log 35) -/
def resetClear (s : State) (f dom : Nat) : State :=
  let mine := (s.arenas.filter fun e => e.2.dom == dom && e.2.depth != 0 && arenaLives e.2).map (·.1)
  let kids := match (funcAt s f).root with
    | some a => byBase s (childrenOf s a)
    | none => []
  let s := kids.foldl (fun t n =>
    let a := arenaAt t n
    let t := forgetRange t dom a.base (a.rangeEnd - a.base)
    returnQuota (zeroPages (splitRange t dom a.base (a.rangeEnd - a.base)) dom a.base (a.rangeEnd - a.base)) a.parent a) s
  let s := mine.foldl (dropRoot f) s
  let ps := s.pages.filterMap fun e => if e.1 / 2 ^ 57 = dom then some (e.1 % 2 ^ 57, e.2) else none
  let s := unmapPages { s with kernels := s.kernels.filter fun h => h.dom != dom, graphs := s.graphs.filter fun e => e.1 / 64 != f } dom ps
  let ts := (s.teams.filter fun e => e.2.func == f).map (·.1)
  let s := ts.foldl freeTeam s
  let gs := (s.groups.filter fun e => ts.contains e.2.team).map (·.1)
  let s := gs.foldl removeGroup s
  let s := { s with teams := s.teams.filter fun e => e.2.func != f, board := s.board.filter fun p => !gs.contains p.gid,
                    results := s.results.filter fun e => !gs.contains e.2.gid }
  modFunc s f fun x => { x with resetting := false, modules := [], faultArea := none, faultEntry := none }

end Sys2Proof.Machine
end

