-- ==== Sys2Proof/Machine/Integer.lean ====
section
/-!
DEFINITION. Integer arithmetic, logic, shift and field words and the integer comparison: majors 0x08 to 0x0E (R233, R236 to R240).
-/
namespace Sys2Proof.Machine

/-- The w-bit pattern of a register operand (R233). -/
def Ctx.pat (x : Ctx) (k r : Nat) : Nat :=
  if itypeBits x.o = 64 then (vpair x.rs k r).toNat else (vreg x.rs k r).toNat
/-- A w-bit pattern read with the type's extension: opnd (R233). -/
def Ctx.val (x : Ctx) (p : Nat) : Int := if itypeSigned x.o then sextInt p (itypeBits x.o) else (p : Int)
/-- The pattern of an immediate: bits [w−1:0] of the value of R40. -/
def Ctx.immPat (x : Ctx) (imm : BitVec 9) : Nat := wrapNat (immI x.h imm) (itypeBits x.o)
/-- put (R233): the low w bits of a pattern to vD or to the pair at vD. -/
def Ctx.put (x : Ctx) (d p : Nat) : LaneRes :=
  if itypeBits x.o = 64 then { regs := pairWrites d (BitVec.ofNat 64 p) } else { regs := [(d, BitVec.ofNat 32 p)] }
/-- Deliver an exact integer: saturated under sat, else wrapped (R236). -/
def Ctx.putInt (x : Ctx) (d : Nat) (v : Int) : LaneRes :=
  x.put d (wrapNat (if x.o.sat then saturate v (itypeBits x.o) (itypeSigned x.o) else v) (itypeBits x.o))

/-- The exact integer of Table 12-2 by minor. -/
def intFn (f : Nat) (w : Nat) (a b : Int) : Int :=
  match f with
  | 0 => a + b
  | 1 => a - b
  | 2 => a * b
  | 3 => a * b / ((2 ^ w : Nat) : Int)
  | 4 => min a b
  | 5 => max a b
  | 6 => (a.natAbs : Int)
  | _ => -a
/-- A register-form word of major 0x08. -/
def intBody (f d a b : Nat) (x : Ctx) (s : State) : State :=
  x.perLane s fun k => x.putInt d (intFn f (itypeBits x.o) (x.val (x.pat k a)) (x.val (x.pat k b)))
/-- An immediate-form word of major 0x09: vD is the first operand of a binary word, the immediate the only operand of a unary one
(R45). -/
def intImmBody (f d : Nat) (imm : BitVec 9) (x : Ctx) (s : State) : State :=
  x.perLane s fun k =>
    let i := x.val (x.immPat imm)
    x.putInt d (if f < 6 then intFn f (itypeBits x.o) (x.val (x.pat k d)) i else intFn f (itypeBits x.o) i 0)

/-- Ones of the low `w` bits. -/
def popcount (w p : Nat) : Nat := ((upTo 0 w).filter fun i => bitAt p i).length
/-- Zeros above the highest one of `w` bits. -/
def leadZeros (w p : Nat) : Nat := if p = 0 then w else w - 1 - Nat.log2 p
/-- Bit i goes to bit w − 1 − i. -/
def bitReverse (w p : Nat) : Nat := (upTo 0 w).foldl (fun n i => if bitAt p i then n + 2 ^ (w - 1 - i) else n) 0
/-- The pattern of Table 12-3 by minor, `sel` apart. -/
def logicFn (f w a b : Nat) : Nat :=
  match f with
  | 0 => a &&& b
  | 1 => a ||| b
  | 2 => a ^^^ b
  | 3 => 2 ^ w - 1 - a
  | 5 => popcount w a
  | 6 => leadZeros w a
  | _ => bitReverse w a
/-- The predicate that `sel` reads: p0 with no `opx` (R237). -/
def Ctx.selPred (x : Ctx) (k : Nat) : Bool :=
  if x.hasOpx then preg x.rs k (predNo x.o.src3.toNat x.o.pxS3) else true
/-- A register-form word of major 0x0A. -/
def logicBody (f d a b : Nat) (x : Ctx) (s : State) : State :=
  x.perLane s fun k =>
    if f = 4 then x.put d (if x.selPred k then x.pat k a else x.pat k b)
    else x.put d (logicFn f (itypeBits x.o) (x.pat k a) (x.pat k b))
/-- An immediate-form word of major 0x0B. -/
def logicImmBody (f d : Nat) (imm : BitVec 9) (x : Ctx) (s : State) : State :=
  x.perLane s fun k =>
    let i := x.immPat imm
    if f = 4 then x.put d (if x.selPred k then x.pat k d else i)
    else if f < 3 then x.put d (logicFn f (itypeBits x.o) (x.pat k d) i)
    else x.put d (logicFn f (itypeBits x.o) i 0)

/-- The pattern of Table 12-4 by minor for shl to bfi; `t` is the old pattern of vD. -/
def shiftFn (f w : Nat) (sgn : Bool) (a n t : Nat) : Nat :=
  let pos := n % 256
  let len := n / 256 % 256
  match f with
  | 0 => if n < w then a * 2 ^ n % 2 ^ w else 0
  | 1 => if n < w then a / 2 ^ n else 0
  | 2 => wrapNat (sextInt a w / ((2 ^ (min n w) : Nat) : Int)) w
  | 3 => a * 2 ^ (n % w) % 2 ^ w + a / 2 ^ (w - n % w)
  | 4 =>
    let m := min len w
    let p := a / 2 ^ pos % 2 ^ m
    if m = 0 then 0 else if sgn then wrapNat (sextInt p m) w else p
  | _ =>
    if w ≤ pos ∨ len = 0 then t
    else
      let m := min (pos + len) w - pos
      t % 2 ^ pos + a % 2 ^ m * 2 ^ pos + t / 2 ^ (pos + m) * 2 ^ (pos + m)
/-- A register-form word of shl to bfi. -/
def shiftBody (f d a b : Nat) (x : Ctx) (s : State) : State :=
  x.perLane s fun k => x.put d (shiftFn f (itypeBits x.o) (itypeSigned x.o) (x.pat k a) (x.pat k b) (x.pat k d))
/-- An immediate-form word of shl to bfi. -/
def shiftImmBody (f d : Nat) (imm : BitVec 9) (x : Ctx) (s : State) : State :=
  x.perLane s fun k => x.put d (shiftFn f (itypeBits x.o) (itypeSigned x.o) (x.pat k d) (x.immPat imm) (x.pat k d))
/-- lea (R239): a pair plus an index. -/
def leaRes (d : Nat) (base : DWord) (i : Int) : LaneRes := { regs := pairWrites d (BitVec.ofInt 64 ((base.toNat : Int) + i)) }
/-- imad (R238): a × b + c. -/
def Ctx.imadRes (x : Ctx) (d k : Nat) (a b : Int) : LaneRes :=
  x.putInt d (a * b + x.val (x.pat k (if x.hasOpx then x.o.src3.toNat else d)))

/-- The conditions of icmp (Table 2-8 major 0x0E). -/
def intCond (c : Nat) (a b : Int) : Bool :=
  match c with
  | 0 => a == b
  | 1 => a != b
  | 2 => decide (a < b)
  | 3 => decide (a ≤ b)
  | 4 => decide (b < a)
  | _ => decide (b ≤ a)

/-- iadd (R236): a + b. -/
def execIadd (q : Qual) (d a b : BitVec 6) (s : State) : Out :=
  runWord (.iadd q d a b) (intBody 0 d.toNat a.toNat b.toNat) s
/-- isub (R236): a − b. -/
def execIsub (q : Qual) (d a b : BitVec 6) (s : State) : Out :=
  runWord (.isub q d a b) (intBody 1 d.toNat a.toNat b.toNat) s
/-- imul (R236): a × b. -/
def execImul (q : Qual) (d a b : BitVec 6) (s : State) : Out :=
  runWord (.imul q d a b) (intBody 2 d.toNat a.toNat b.toNat) s
/-- imulh (R236): the high w bits of a × b. -/
def execImulh (q : Qual) (d a b : BitVec 6) (s : State) : Out :=
  runWord (.imulh q d a b) (intBody 3 d.toNat a.toNat b.toNat) s
/-- imin (R236): the lesser. -/
def execImin (q : Qual) (d a b : BitVec 6) (s : State) : Out :=
  runWord (.imin q d a b) (intBody 4 d.toNat a.toNat b.toNat) s
/-- imax (R236): the greater. -/
def execImax (q : Qual) (d a b : BitVec 6) (s : State) : Out :=
  runWord (.imax q d a b) (intBody 5 d.toNat a.toNat b.toNat) s
/-- iabs (R236): abs(a). -/
def execIabs (q : Qual) (d a : BitVec 6) (s : State) : Out :=
  runWord (.iabs q d a) (intBody 6 d.toNat a.toNat 0) s
/-- ineg (R236): −a. -/
def execIneg (q : Qual) (d a : BitVec 6) (s : State) : Out :=
  runWord (.ineg q d a) (intBody 7 d.toNat a.toNat 0) s
/-- iadd, immediate form (R45, R236). -/
def execIaddImm (q : Qual) (d : BitVec 6) (imm : BitVec 9) (s : State) : Out :=
  runWord (.iaddImm q d imm) (intImmBody 0 d.toNat imm) s
/-- isub, immediate form (R45, R236). -/
def execIsubImm (q : Qual) (d : BitVec 6) (imm : BitVec 9) (s : State) : Out :=
  runWord (.isubImm q d imm) (intImmBody 1 d.toNat imm) s
/-- imul, immediate form (R45, R236). -/
def execImulImm (q : Qual) (d : BitVec 6) (imm : BitVec 9) (s : State) : Out :=
  runWord (.imulImm q d imm) (intImmBody 2 d.toNat imm) s
/-- imulh, immediate form (R45, R236). -/
def execImulhImm (q : Qual) (d : BitVec 6) (imm : BitVec 9) (s : State) : Out :=
  runWord (.imulhImm q d imm) (intImmBody 3 d.toNat imm) s
/-- imin, immediate form (R45, R236). -/
def execIminImm (q : Qual) (d : BitVec 6) (imm : BitVec 9) (s : State) : Out :=
  runWord (.iminImm q d imm) (intImmBody 4 d.toNat imm) s
/-- imax, immediate form (R45, R236). -/
def execImaxImm (q : Qual) (d : BitVec 6) (imm : BitVec 9) (s : State) : Out :=
  runWord (.imaxImm q d imm) (intImmBody 5 d.toNat imm) s
/-- iabs, immediate form (R45, R236). -/
def execIabsImm (q : Qual) (d : BitVec 6) (imm : BitVec 9) (s : State) : Out :=
  runWord (.iabsImm q d imm) (intImmBody 6 d.toNat imm) s
/-- ineg, immediate form (R45, R236). -/
def execInegImm (q : Qual) (d : BitVec 6) (imm : BitVec 9) (s : State) : Out :=
  runWord (.inegImm q d imm) (intImmBody 7 d.toNat imm) s
/-- and (R237). -/
def execAndV (q : Qual) (d a b : BitVec 6) (s : State) : Out :=
  runWord (.andV q d a b) (logicBody 0 d.toNat a.toNat b.toNat) s
/-- or (R237). -/
def execOrV (q : Qual) (d a b : BitVec 6) (s : State) : Out :=
  runWord (.orV q d a b) (logicBody 1 d.toNat a.toNat b.toNat) s
/-- xor (R237). -/
def execXorV (q : Qual) (d a b : BitVec 6) (s : State) : Out :=
  runWord (.xorV q d a b) (logicBody 2 d.toNat a.toNat b.toNat) s
/-- not (R237). -/
def execNotV (q : Qual) (d a : BitVec 6) (s : State) : Out :=
  runWord (.notV q d a) (logicBody 3 d.toNat a.toNat 0) s
/-- sel (R237). -/
def execSel (q : Qual) (d a b : BitVec 6) (s : State) : Out :=
  runWord (.sel q d a b) (logicBody 4 d.toNat a.toNat b.toNat) s
/-- popc (R237). -/
def execPopc (q : Qual) (d a : BitVec 6) (s : State) : Out :=
  runWord (.popc q d a) (logicBody 5 d.toNat a.toNat 0) s
/-- clz (R237). -/
def execClz (q : Qual) (d a : BitVec 6) (s : State) : Out :=
  runWord (.clz q d a) (logicBody 6 d.toNat a.toNat 0) s
/-- brev (R237). -/
def execBrev (q : Qual) (d a : BitVec 6) (s : State) : Out :=
  runWord (.brev q d a) (logicBody 7 d.toNat a.toNat 0) s
/-- and, immediate form (R45, R237). -/
def execAndImm (q : Qual) (d : BitVec 6) (imm : BitVec 9) (s : State) : Out :=
  runWord (.andImm q d imm) (logicImmBody 0 d.toNat imm) s
/-- or, immediate form (R45, R237). -/
def execOrImm (q : Qual) (d : BitVec 6) (imm : BitVec 9) (s : State) : Out :=
  runWord (.orImm q d imm) (logicImmBody 1 d.toNat imm) s
/-- xor, immediate form (R45, R237). -/
def execXorImm (q : Qual) (d : BitVec 6) (imm : BitVec 9) (s : State) : Out :=
  runWord (.xorImm q d imm) (logicImmBody 2 d.toNat imm) s
/-- not, immediate form (R45, R237). -/
def execNotImm (q : Qual) (d : BitVec 6) (imm : BitVec 9) (s : State) : Out :=
  runWord (.notImm q d imm) (logicImmBody 3 d.toNat imm) s
/-- sel, immediate form (R45, R237). -/
def execSelImm (q : Qual) (d : BitVec 6) (imm : BitVec 9) (s : State) : Out :=
  runWord (.selImm q d imm) (logicImmBody 4 d.toNat imm) s
/-- popc, immediate form (R45, R237). -/
def execPopcImm (q : Qual) (d : BitVec 6) (imm : BitVec 9) (s : State) : Out :=
  runWord (.popcImm q d imm) (logicImmBody 5 d.toNat imm) s
/-- clz, immediate form (R45, R237). -/
def execClzImm (q : Qual) (d : BitVec 6) (imm : BitVec 9) (s : State) : Out :=
  runWord (.clzImm q d imm) (logicImmBody 6 d.toNat imm) s
/-- brev, immediate form (R45, R237). -/
def execBrevImm (q : Qual) (d : BitVec 6) (imm : BitVec 9) (s : State) : Out :=
  runWord (.brevImm q d imm) (logicImmBody 7 d.toNat imm) s
/-- shl (R238). -/
def execShl (q : Qual) (d a b : BitVec 6) (s : State) : Out :=
  runWord (.shl q d a b) (shiftBody 0 d.toNat a.toNat b.toNat) s
/-- shr (R238). -/
def execShr (q : Qual) (d a b : BitVec 6) (s : State) : Out :=
  runWord (.shr q d a b) (shiftBody 1 d.toNat a.toNat b.toNat) s
/-- sar (R238). -/
def execSar (q : Qual) (d a b : BitVec 6) (s : State) : Out :=
  runWord (.sar q d a b) (shiftBody 2 d.toNat a.toNat b.toNat) s
/-- rot (R238). -/
def execRot (q : Qual) (d a b : BitVec 6) (s : State) : Out :=
  runWord (.rot q d a b) (shiftBody 3 d.toNat a.toNat b.toNat) s
/-- bfe (R238). -/
def execBfe (q : Qual) (d a b : BitVec 6) (s : State) : Out :=
  runWord (.bfe q d a b) (shiftBody 4 d.toNat a.toNat b.toNat) s
/-- bfi (R238). -/
def execBfi (q : Qual) (d a b : BitVec 6) (s : State) : Out :=
  runWord (.bfi q d a b) (shiftBody 5 d.toNat a.toNat b.toNat) s
/-- lea (R239): a pair plus an index of the type's width. -/
def execLea (q : Qual) (d a b : BitVec 6) (s : State) : Out :=
  runWord (.lea q d a b) (fun x t => x.perLane t fun k =>
    leaRes d.toNat (vpair x.rs k a.toNat) (x.val (x.pat k b.toNat))) s
/-- imad (R238): a × b + c. -/
def execImad (q : Qual) (d a b : BitVec 6) (s : State) : Out :=
  runWord (.imad q d a b) (fun x t => x.perLane t fun k =>
    x.imadRes d.toNat k (x.val (x.pat k a.toNat)) (x.val (x.pat k b.toNat))) s
/-- shl, immediate form (R45, R238). -/
def execShlImm (q : Qual) (d : BitVec 6) (imm : BitVec 9) (s : State) : Out :=
  runWord (.shlImm q d imm) (shiftImmBody 0 d.toNat imm) s
/-- shr, immediate form (R45, R238). -/
def execShrImm (q : Qual) (d : BitVec 6) (imm : BitVec 9) (s : State) : Out :=
  runWord (.shrImm q d imm) (shiftImmBody 1 d.toNat imm) s
/-- sar, immediate form (R45, R238). -/
def execSarImm (q : Qual) (d : BitVec 6) (imm : BitVec 9) (s : State) : Out :=
  runWord (.sarImm q d imm) (shiftImmBody 2 d.toNat imm) s
/-- rot, immediate form (R45, R238). -/
def execRotImm (q : Qual) (d : BitVec 6) (imm : BitVec 9) (s : State) : Out :=
  runWord (.rotImm q d imm) (shiftImmBody 3 d.toNat imm) s
/-- bfe, immediate form (R45, R238). -/
def execBfeImm (q : Qual) (d : BitVec 6) (imm : BitVec 9) (s : State) : Out :=
  runWord (.bfeImm q d imm) (shiftImmBody 4 d.toNat imm) s
/-- bfi, immediate form (R45, R238). -/
def execBfiImm (q : Qual) (d : BitVec 6) (imm : BitVec 9) (s : State) : Out :=
  runWord (.bfiImm q d imm) (shiftImmBody 5 d.toNat imm) s
/-- lea, immediate form (R239): the index is sext(imx : IMM9, 33). -/
def execLeaImm (q : Qual) (d : BitVec 6) (imm : BitVec 9) (s : State) : Out :=
  runWord (.leaImm q d imm) (fun x t => x.perLane t fun k =>
    leaRes d.toNat (vpair x.rs k d.toNat) (immI x.h imm)) s
/-- imad, immediate form (R45, R238). -/
def execImadImm (q : Qual) (d : BitVec 6) (imm : BitVec 9) (s : State) : Out :=
  runWord (.imadImm q d imm) (fun x t => x.perLane t fun k =>
    x.imadRes d.toNat k (x.val (x.pat k d.toNat)) (x.val (x.immPat imm))) s
/-- icmp (R240): the comparison to a predicate. -/
def execIcmp (q : Qual) (d a b : BitVec 6) (c : BitVec 3) (s : State) : Out :=
  runWord (.icmp q d a b c) (fun x t => x.perLane t fun k =>
    { preds := [(predNo d.toNat x.o.pxD, intCond c.toNat (x.val (x.pat k a.toNat)) (x.val (x.pat k b.toNat)))] }) s

end Sys2Proof.Machine
end

