-- ==== Sys2Proof/Machine/Float.lean ====
section
/-!
DEFINITION. The floating-point words of majors 0x10 to 0x15 (R246 to R255).
-/
namespace Sys2Proof.Machine

/-- A 32-bit register as a number. -/
def Ctx.n32 (x : Ctx) (k r : Nat) : Nat := (vreg x.rs k r).toNat
/-- A pair as a number. -/
def Ctx.n64 (x : Ctx) (k r : Nat) : Nat := (vpair x.rs k r).toNat
/-- A 32-bit result with its events. -/
def res32 (d : Nat) (r : Nat × Nat) : LaneRes := { regs := [(d, BitVec.ofNat 32 r.1)], ev := r.2 }
/-- A 64-bit result with its events. -/
def res64 (d : Nat) (r : Nat × Nat) : LaneRes := { regs := pairWrites d (BitVec.ofNat 64 r.1), ev := r.2 }
/-- The rounding mode in force (R225). -/
def Ctx.mode (x : Ctx) : Nat := x.o.mode.toNat
/-- The addend's register: src3, or vD with no `opx` (Table 2-6). -/
def Ctx.src3 (x : Ctx) (d : Nat) : Nat := if x.hasOpx then x.o.src3.toNat else d

/-- fadd (R246). -/
def execFadd (q : Qual) (d a b : BitVec 6) (s : State) : Out :=
  runWord (.fadd q d a b) (fun x t => x.perLane t fun k => res32 d.toNat (addF fmt32 x.mode (x.n32 k a.toNat) (x.n32 k b.toNat))) s
/-- fmul (R246). -/
def execFmul (q : Qual) (d a b : BitVec 6) (s : State) : Out :=
  runWord (.fmul q d a b) (fun x t => x.perLane t fun k => res32 d.toNat (mulF fmt32 x.mode (x.n32 k a.toNat) (x.n32 k b.toNat))) s
/-- fmin (R247). -/
def execFmin (q : Qual) (d a b : BitVec 6) (s : State) : Out :=
  runWord (.fmin q d a b) (fun x t => x.perLane t fun k => res32 d.toNat (minmaxF fmt32 false (x.n32 k a.toNat) (x.n32 k b.toNat))) s
/-- fmax (R247). -/
def execFmax (q : Qual) (d a b : BitVec 6) (s : State) : Out :=
  runWord (.fmax q d a b) (fun x t => x.perLane t fun k => res32 d.toNat (minmaxF fmt32 true (x.n32 k a.toNat) (x.n32 k b.toNat))) s
/-- fabs (R248): bit 31 cleared. -/
def execFabs (q : Qual) (d a : BitVec 6) (s : State) : Out :=
  runWord (.fabs q d a) (fun x t => x.perLane t fun k => { regs := [(d.toNat, vreg x.rs k a.toNat &&& 0x7FFFFFFF)] }) s
/-- fneg (R248): bit 31 inverted. -/
def execFneg (q : Qual) (d a : BitVec 6) (s : State) : Out :=
  runWord (.fneg q d a) (fun x t => x.perLane t fun k => { regs := [(d.toNat, vreg x.rs k a.toNat ^^^ 0x80000000)] }) s
/-- fclass (R248). -/
def execFclass (q : Qual) (d a : BitVec 6) (s : State) : Out :=
  runWord (.fclass q d a) (fun x t => x.perLane t fun k => { regs := [(d.toNat, BitVec.ofNat 32 (classF (x.n32 k a.toNat)))] }) s
/-- fsign (R248): vA with the sign of vB. -/
def execFsign (q : Qual) (d a b : BitVec 6) (s : State) : Out :=
  runWord (.fsign q d a b) (fun x t => x.perLane t fun k =>
    { regs := [(d.toNat, (vreg x.rs k a.toNat &&& 0x7FFFFFFF) ||| (vreg x.rs k b.toNat &&& 0x80000000))] }) s
/-- ffma (R249): one rounding; `np` negates the product, `na` the addend. -/
def execFfma (q : Qual) (d a b : BitVec 6) (na np : Bool) (s : State) : Out :=
  runWord (.ffma q d a b na np) (fun x t => x.perLane t fun k =>
    res32 d.toNat (fmaF fmt32 x.mode np na (x.n32 k a.toNat) (x.n32 k b.toNat) (x.n32 k (x.src3 d.toNat)))) s
/-- fcmp (R252). -/
def execFcmp (q : Qual) (d a b : BitVec 6) (c : BitVec 3) (s : State) : Out :=
  runWord (.fcmp q d a b c) (fun x t => x.perLane t fun k =>
    let r := cmpF fmt32 c.toNat (x.n32 k a.toNat) (x.n32 k b.toNat)
    { preds := [(predNo d.toNat x.o.pxD, r.1)], ev := r.2 }) s

/-- A word of major 0x12 (R250): sl7 is pending until the results of its lanes are written. The events of a lane are delivered then
(R234): a lane whose events meet an enable is held at the word, and raises FPX when the result is due (R37, R411). -/
def specialBody (f : Nat → Nat × Nat) (d a : Nat) (x : Ctx) (s : State) : State :=
  let out (l : Nat) : Nat × Nat := f (x.n32 (x.lk (if x.u then lowest x.active else l)) a)
  let trap (l : Nat) : Option Nat := fpTrap (laneAt s (x.lk l)).fpstat (out l).2
  let ok := (lanesOf x.go).filter fun l => (trap l).isNone
  let bad := (lanesOf x.go).filter fun l => (trap l).isSome
  let s := bad.foldl (fun t l =>
    let fi := x.fi 19 ((trap l).getD 0) 0 (out l).2
    modLane t (x.lk l) fun y => { y with held := .faultSlot fi x.w x.next x.pcR, run := [], pc := x.pcR }) s
  let (i, s) := fresh s
  let r : Result :=
    { tok := x.tok, gid := x.gid, regs := ok.map fun l => (x.lk l, d, BitVec.ofNat 32 (out l).1),
      fp := ok.map fun l => (x.lk l, (out l).2), traps := bad.map x.lk, major := majorOf x.w }
  { s with results := s.results.put i r }
/-- frcp (R251). -/
def execFrcp (q : Qual) (d a : BitVec 6) (s : State) : Out := runWord (.frcp q d a) (specialBody frcpF d.toNat a.toNat) s
/-- frsq (R251). -/
def execFrsq (q : Qual) (d a : BitVec 6) (s : State) : Out := runWord (.frsq q d a) (specialBody frsqF d.toNat a.toNat) s
/-- fsqrt (R251), rounded by the mode. -/
def execFsqrt (q : Qual) (d a : BitVec 6) (s : State) : Out :=
  runWord (.fsqrt q d a) (fun x t => specialBody (fsqrtF x.mode) d.toNat a.toNat x t) s
/-- fex2 (R251). -/
def execFex2 (q : Qual) (d a : BitVec 6) (s : State) : Out := runWord (.fex2 q d a) (specialBody fex2F d.toNat a.toNat) s
/-- flg2 (R251). -/
def execFlg2 (q : Qual) (d a : BitVec 6) (s : State) : Out := runWord (.flg2 q d a) (specialBody flg2F d.toNat a.toNat) s
/-- fsin (R251). -/
def execFsin (q : Qual) (d a : BitVec 6) (s : State) : Out := runWord (.fsin q d a) (specialBody fsinF d.toNat a.toNat) s
/-- fcos (R251). -/
def execFcos (q : Qual) (d a : BitVec 6) (s : State) : Out := runWord (.fcos q d a) (specialBody fcosF d.toNat a.toNat) s

/-- dadd (R253). -/
def execDadd (q : Qual) (d a b : BitVec 6) (s : State) : Out :=
  runWord (.dadd q d a b) (fun x t => x.perLane t fun k => res64 d.toNat (addF fmt64 x.mode (x.n64 k a.toNat) (x.n64 k b.toNat))) s
/-- dmul (R253). -/
def execDmul (q : Qual) (d a b : BitVec 6) (s : State) : Out :=
  runWord (.dmul q d a b) (fun x t => x.perLane t fun k => res64 d.toNat (mulF fmt64 x.mode (x.n64 k a.toNat) (x.n64 k b.toNat))) s
/-- dfma (R253): one rounding. -/
def execDfma (q : Qual) (d a b : BitVec 6) (s : State) : Out :=
  runWord (.dfma q d a b) (fun x t => x.perLane t fun k =>
    res64 d.toNat (fmaF fmt64 x.mode false false (x.n64 k a.toNat) (x.n64 k b.toNat) (x.n64 k (x.src3 d.toNat)))) s
/-- dmin (R253). -/
def execDmin (q : Qual) (d a b : BitVec 6) (s : State) : Out :=
  runWord (.dmin q d a b) (fun x t => x.perLane t fun k => res64 d.toNat (minmaxF fmt64 false (x.n64 k a.toNat) (x.n64 k b.toNat))) s
/-- dmax (R253). -/
def execDmax (q : Qual) (d a b : BitVec 6) (s : State) : Out :=
  runWord (.dmax q d a b) (fun x t => x.perLane t fun k => res64 d.toNat (minmaxF fmt64 true (x.n64 k a.toNat) (x.n64 k b.toNat))) s
/-- dcmp (R254): the condition in D[20:18], the predicate in D[17:15]. -/
def execDcmp (q : Qual) (c p : BitVec 3) (a b : BitVec 6) (s : State) : Out :=
  runWord (.dcmp q c p a b) (fun x t => x.perLane t fun k =>
    let r := cmpF fmt64 c.toNat (x.n64 k a.toNat) (x.n64 k b.toNat)
    { preds := [(p.toNat, r.1)], ev := r.2 }) s

/-- A packed word (R255): both halves, the union of their events. -/
def packedBody (f : Nat → Nat → Nat → Nat → Nat × Nat) (d a b : Nat) (x : Ctx) (s : State) : State :=
  x.perLane s fun k =>
    let u := x.n32 k a
    let v := x.n32 k b
    let w := x.n32 k (x.src3 d)
    let lo := f x.mode (u % 65536) (v % 65536) (w % 65536)
    let hi := f x.mode (u / 65536) (v / 65536) (w / 65536)
    { regs := [(d, BitVec.ofNat 32 (hi.1 * 65536 + lo.1))], ev := evUnion lo.2 hi.2 }
/-- hadd2 (R255). -/
def execHadd2 (q : Qual) (d a b : BitVec 6) (s : State) : Out :=
  runWord (.hadd2 q d a b) (packedBody (fun m u v _ => addF fmt16 m u v) d.toNat a.toNat b.toNat) s
/-- hmul2 (R255). -/
def execHmul2 (q : Qual) (d a b : BitVec 6) (s : State) : Out :=
  runWord (.hmul2 q d a b) (packedBody (fun m u v _ => mulF fmt16 m u v) d.toNat a.toNat b.toNat) s
/-- hfma2 (R255). -/
def execHfma2 (q : Qual) (d a b : BitVec 6) (s : State) : Out :=
  runWord (.hfma2 q d a b) (packedBody (fun m u v w => fmaF fmt16 m false false u v w) d.toNat a.toNat b.toNat) s
/-- bfadd2 (R255). -/
def execBfadd2 (q : Qual) (d a b : BitVec 6) (s : State) : Out :=
  runWord (.bfadd2 q d a b) (packedBody (fun m u v _ => addF fmtBf16 m u v) d.toNat a.toNat b.toNat) s
/-- bfmul2 (R255). -/
def execBfmul2 (q : Qual) (d a b : BitVec 6) (s : State) : Out :=
  runWord (.bfmul2 q d a b) (packedBody (fun m u v _ => mulF fmtBf16 m u v) d.toNat a.toNat b.toNat) s
/-- bffma2 (R255). -/
def execBffma2 (q : Qual) (d a b : BitVec 6) (s : State) : Out :=
  runWord (.bffma2 q d a b) (packedBody (fun m u v w => fmaF fmtBf16 m false false u v w) d.toNat a.toNat b.toNat) s

end Sys2Proof.Machine
end

