-- ==== Sys2Proof/Machine/Convert.lean ====
section
/-!
DEFINITION. Conversions and block words: majors 0x16 and 0x17 (R256 to R261).
-/
namespace Sys2Proof.Machine

/-- A format code of Table 2-9. -/
inductive CvtFmt where
  | flt (f : Fmt)
  | int (bits : Nat) (sgn : Bool)
  deriving DecidableEq, Repr

/-- Table 2-9. -/
def cvtFmt (c : Nat) : CvtFmt :=
  match c with
  | 0 => .flt fmt64
  | 1 => .flt fmt32
  | 2 => .flt fmt16
  | 3 => .flt fmtBf16
  | 4 => .flt fmtE4m3
  | 5 => .flt fmtE5m2
  | 6 => .flt fmtE2m1
  | 7 => .int 8 true
  | 8 => .int 16 true
  | 9 => .int 32 true
  | 10 => .int 64 true
  | 11 => .int 8 false
  | 12 => .int 16 false
  | 13 => .int 32 false
  | 14 => .int 64 false
  | _ => .int 4 true
/-- Bits of an element. -/
def CvtFmt.width : CvtFmt → Nat
  | .flt f => f.low + 1
  | .int n _ => n

/-- The pattern of the result and its events (R256). (DEDUCED, log 14) -/
def cvtFn (dst src : CvtFmt) (mode : Nat) (sat : Bool) (p : Nat) : Nat × Nat :=
  match dst, src with
  | .flt f, .flt g => roundTo f mode sat (decodeF g p)
  | .flt f, .int n sgn => roundTo f mode sat (ofInt (if sgn then sextInt p n else (p : Int)))
  | .int n sgn, .flt g => roundInt n sgn mode (decodeF g p)
  | .int n sgn, .int m sg =>
    let v : Int := if sg then sextInt p m else (p : Int)
    (wrapNat (if sat then saturate v n sgn else v) n, 0)

/-- cvt (R256): the element read from its place, converted, and written into its place; every other bit of each lane's vD stays.
(DEDUCED, log 13) -/
def execCvt (q : Qual) (d a : BitVec 6) (dst src : BitVec 4) (hi : Bool) (s : State) : Out :=
  runWord (.cvt q d a dst src hi) (fun x t => x.acts.foldl (fun t c => (lanesOf c.2).foldl (fun u l =>
    let k := x.lk c.1
    let fd := cvtFmt dst.toNat
    let fs := cvtFmt src.toNat
    let raw := if fs.width = 64 then x.n64 k a.toNat else x.n32 k a.toNat
    let p := (if fs.width = 16 ∧ hi then raw / 65536 else raw) % 2 ^ fs.width
    let r := cvtFn fd fs x.mode x.o.sat p
    let old := x.n32 (x.lk l) d.toNat
    x.deliver u l
      (if fd.width = 64 then res64 d.toNat r
       else if fd.width = 32 then res32 d.toNat r
       else if fd.width = 16 ∧ hi then res32 d.toNat (r.1 * 65536 + old % 65536, r.2)
       else res32 d.toNat (old / 2 ^ fd.width * 2 ^ fd.width + r.1, r.2))) t) t) s

/-- bhget (R257): the FP32 value of the scale. -/
def execBhget (q : Qual) (d a : BitVec 6) (s : State) : Out :=
  runWord (.bhget q d a) (fun x t => x.perLane t fun k =>
    let sc := fld (vreg x.rs k a.toNat) 8 8
    { regs := [(d.toNat, if sc = 0xFF then 0x7FC00000 else BitVec.ofNat 32 (roundTo fmt32 0 false (.fin false 1 ((sc : Int) - 127))).1)] }) s

/-- The family maximum of bhset (R258). -/
def famMax (fam : Nat) : Nat :=
  match fam with
  | 1 => 6
  | 2 => 448
  | 3 => 57344
  | 4 => 127
  | _ => 7
/-- The scale that bhset computes for an amax (R258). -/
def bhScale (fam : Nat) (v : FVal) : Nat :=
  if fam = 0 ∨ fam = 7 then 127
  else match v with
    | .fin _ m e => ((upTo 0 255).find? fun (sc : Nat) => leScaled m e (famMax fam) ((sc : Int) - 127)).getD 254
    | _ => 0xFF
/-- bhset (R258): a header from an amax. -/
def execBhset (q : Qual) (d a b : BitVec 6) (s : State) : Out :=
  runWord (.bhset q d a b) (fun x t =>
    x.acts.foldl (fun u c =>
      let k := x.lk c.1
      let h := x.n32 k b.toNat
      if 256 ≤ h ∨ hdrFamily h = 6 then x.raiseAll u c.2 (x.fi 1 2)
      else
        let sc := bhScale (hdrFamily h) (decodeF fmt32 (x.n32 k a.toNat))
        (lanesOf c.2).foldl (fun u l => x.deliver u l { regs := [(d.toNat, BitVec.ofNat 32 (sc * 256 + h))] }) u) t) s

/-- Greatest absolute value as FP32 bits; any NaN gives the canonical NaN (R259). -/
def amaxBits (ps : List Nat) : Nat :=
  if ps.any fun p => (decodeF fmt32 p).isNan then fmt32.nan
  else ps.foldl (fun m p => max m (p % 2 ^ 31)) 0
/-- amaxr (R259): the greatest abs(vA) of the executing set; it sets sl7 and raises no events. -/
def execAmaxr (gd : Guard) (d a : BitVec 6) (s : State) : Out :=
  runWord (.amaxr gd d a) (fun x t =>
    let v := BitVec.ofNat 32 (amaxBits ((lanesOf x.active).map fun l => x.n32 (x.lk l) a.toNat))
    let r : Result := { tok := x.tok, gid := x.gid, regs := (lanesOf x.go).map fun l => (x.lk l, d.toNat, v), major := majorOf x.w }
    { (fresh t).2 with results := t.results.put (fresh t).1 r }) s

/-- Floating format of a family. -/
def famFmt (fam : Nat) : Fmt := if fam = 1 then fmtE2m1 else if fam = 2 then fmtE4m3 else fmtE5m2
/-- An element of a block family from an FP32 value under a header (R260). -/
def packElem (h : Nat) (p : Nat) : Nat :=
  let fam := hdrFamily h
  if hdrScale h = 0xFF then (if fam ≤ 3 then (famFmt fam).nan else 0)
  else
    let v := (decodeF fmt32 p).scale (127 - (hdrScale h : Int))
    if fam ≤ 3 then (roundTo (famFmt fam) 0 true v).1
    else (roundInt (famBits fam) true 0 v).1
/-- The bit rules of R260 and R261: the family, the half-select and the zero bits. -/
def blkBad (h : Nat) (six : Bool) : Bool :=
  let fam := hdrFamily h
  fam == 0 || fam == 7 || (fam == 6 && !six) || (bitAt h 16 && fam != 6 && famBits fam == 8) || decide (2 ^ 17 ≤ h)
/-- pack (R260): four FP32 values quantised under a header. (DEDUCED, log 13) -/
def execPack (q : Qual) (d a b : BitVec 6) (s : State) : Out :=
  runWord (.pack q d a b) (fun x t =>
    x.acts.foldl (fun u c =>
      let k := x.lk c.1
      let h := x.n32 k b.toNat
      if blkBad h false then x.raiseAll u c.2 (x.fi 1 2)
      else
        let n := famBits (hdrFamily h)
        let v := (upTo 0 4).foldl (fun m i => m + packElem h (x.n32 k (a.toNat + i)) * 2 ^ (n * i)) 0
        (lanesOf c.2).foldl (fun u l =>
          let old := x.n32 (x.lk l) d.toNat
          let r := if n = 8 then v else if bitAt h 16 then v * 65536 + old % 65536 else old / 65536 * 65536 + v
          x.deliver u l { regs := [(d.toNat, BitVec.ofNat 32 r)] }) u) t) s
/-- unpack (R261): four elements decoded under a header. -/
def execUnpack (q : Qual) (d a b : BitVec 6) (s : State) : Out :=
  runWord (.unpack q d a b) (fun x t =>
    x.acts.foldl (fun u c =>
      let k := x.lk c.1
      let h := x.n32 k b.toNat
      if blkBad h true then x.raiseAll u c.2 (x.fi 1 2)
      else
        let n := famBits (hdrFamily h)
        let v := x.n32 k a.toNat / (if bitAt h 16 then 65536 else 1)
        let rs := (upTo 0 4).map fun i => roundTo fmt32 0 false (elemDecode h (v / 2 ^ (n * i) % 2 ^ n))
        let res : LaneRes :=
          { regs := (upTo 0 4).zip rs |>.map fun e => (d.toNat + e.1, BitVec.ofNat 32 e.2.1),
            ev := rs.foldl (fun m e => evUnion m e.2) 0 }
        (lanesOf c.2).foldl (fun u l => x.deliver u l res) u) t) s

end Sys2Proof.Machine
end

