-- ==== Sys2Proof/Machine/Load.lean ====
section
/-!
DEFINITION. Module images and MOD.LOAD (R81 to R89, R412): the checks of an image and of its kernel headers, the carving of loader arenas,
the placing of sections, relocation, sealing and registration.
-/
namespace Sys2Proof.Machine

/-! ### The image (Tables 4-4, 4-5) -/

/-- The counts and table offsets of an image header. -/
structure ImageHeader where
  sections : Nat
  arenas : Nat
  kernels : Nat
  symbols : Nat
  relocs : Nat
  strBytes : Nat
  secOff : Nat
  arOff : Nat
  kerOff : Nat
  symOff : Nat
  strOff : Nat
  deriving DecidableEq, Repr

/-- The image header, or none when it breaks R87. -/
def imageHeader (b : List Byte) : Option ImageHeader :=
  let h : ImageHeader :=
    ⟨fAt b 6 2, fAt b 8 2, fAt b 0xA 2, fAt b 0xC 4, fAt b 0x10 4, fAt b 0x14 4, fAt b 0x18 8, fAt b 0x20 8, fAt b 0x28 8, fAt b 0x30 8, fAt b 0x38 8⟩
  let n := b.length
  let ok :=
    decide (64 ≤ n) && decide (n ≤ 2 ^ 31) && fAt b 0 4 == 0x31494D4B && fAt b 4 2 == 1 && decide (1 ≤ h.sections) && decide (h.sections ≤ 64) &&
    decide (h.arenas ≤ 32) && decide (1 ≤ h.kernels) && decide (h.kernels ≤ 1024) && decide (h.symbols ≤ 65536) && decide (h.relocs ≤ 1048576) &&
    [h.secOff, h.arOff, h.kerOff, h.symOff, h.strOff].all (· % 8 == 0) && decide (h.secOff + 32 * h.sections ≤ n) &&
    decide (h.arOff + 16 * h.arenas ≤ n) && decide (h.kerOff + 64 * h.kernels ≤ n) && decide (h.symOff + 16 * h.symbols + 24 * h.relocs ≤ n) &&
    decide (h.strOff + h.strBytes ≤ n)
  if ok then some h else none
/-- Record `i` of a table. -/
def recAt (b : List Byte) (off size i : Nat) : List Byte := (b.drop (off + size * i)).take size
/-- A name is NUL-terminated within the string table. -/
def nameOk (b : List Byte) (h : ImageHeader) (o : Nat) : Bool :=
  decide (o < h.strBytes) && ((b.drop (h.strOff + o)).take (h.strBytes - o)).contains 0
/-- Section `i`. -/
def secAt (b : List Byte) (h : ImageHeader) (i : Nat) : List Byte := recAt b h.secOff 32 i
def secKind (r : List Byte) : Nat := fAt r 4 1
def secAlign (r : List Byte) : Nat := 2 ^ fAt r 5 1
def secArena (r : List Byte) : Nat := fAt r 6 2
def secSize (r : List Byte) : Nat := fAt r 8 8
def secOff (r : List Byte) : Nat := fAt r 16 8
def secFile (r : List Byte) : Nat := fAt r 24 8
/-- A section record breaks R88. -/
def secBad (b : List Byte) (h : ImageHeader) (r : List Byte) : Bool :=
  !nameOk b h (fAt r 0 4) || decide (2 < secKind r) || decide (fAt r 5 1 < 2) || decide (16 < fAt r 5 1) ||
    !(decide (secArena r < h.arenas) || secArena r == 0xFFFF) || decide (b.length < secOff r + secFile r) || decide (secSize r < secFile r)
/-- An arena record breaks R88; its flag bits [31:1] are taken to be zero. (DESIGN CHOICE, log 39) -/
def arenaRecBad (b : List Byte) (h : ImageHeader) (r : List Byte) : Bool :=
  !nameOk b h (fAt r 0 4) || decide (1 < fAt r 4 4) || fAt r 8 8 == 0 || fAt r 8 8 % 65536 != 0
/-- A symbol record breaks R88; its flag bits [15:1] are taken to be zero. (DESIGN CHOICE, log 39) -/
def symBad (b : List Byte) (h : ImageHeader) (r : List Byte) : Bool :=
  !nameOk b h (fAt r 0 4) || !(decide (fAt r 4 2 < h.sections) || fAt r 4 2 == 0xFFFF) || decide (1 < fAt r 6 2)
/-- A relocation record breaks R88; its byte 0x0B is zero. (DESIGN CHOICE, log 39) -/
def relBad (b : List Byte) (h : ImageHeader) (r : List Byte) : Bool :=
  decide (h.sections ≤ fAt r 8 2) || decide (3 < fAt r 10 1) || fAt r 11 1 != 0 || decide (h.symbols ≤ fAt r 12 4) ||
    decide (secSize (secAt b h (fAt r 8 2)) < fAt r 0 8 + (if fAt r 10 1 = 1 then 4 else 8))
/-- The first bad record of a table. -/
def firstBad (b : List Byte) (off size n : Nat) (bad : List Byte → Bool) : Option Nat := (upTo 0 n).find? fun i => bad (recAt b off size i)

/-! ### Kernel headers (Tables 4-1 to 4-3) -/

def hdrShape (r : List Byte) : Nat := fAt r 4 4
def hdrWindow (r : List Byte) : Nat := bits (hdrShape r) 29 23
def hdrDivmax (r : List Byte) : Nat := bits (hdrShape r) 22 19
def hdrTeamg (r : List Byte) : Nat := bits (hdrShape r) 18 13
def hdrBanks (r : List Byte) : Nat := bits (hdrShape r) 12 6
def hdrTiles (r : List Byte) : Nat := bits (fAt r 8 4) 12 0
def hdrLive (r : List Byte) : Nat := bits (fAt r 12 4) 7 0
def hdrRole (r : List Byte) (g : Nat) : Nat := fAt r 0x20 16 / 4 ^ g % 4
/-- The words of each entry of a header's live-range table (R84), by a reader of the word at an offset of its const section. -/
def liveWords (r : List Byte) (word : Nat → Nat) : List (List Nat) :=
  (upTo 0 (hdrLive r)).map fun e => (upTo 0 4).map fun w => word (fAt r 0x18 8 + 16 * e + 4 * w)
/-- The live-range table in the image: the file's bytes, and zero past them. -/
def hdrTable (b : List Byte) (h : ImageHeader) (r : List Byte) : List (List Nat) :=
  let sec := secAt b h (fAt r 0 1)
  liveWords r fun o => leNat ((upTo o 4).map fun i => if i < secFile sec then b.getD (secOff sec + i) 0 else 0)
/-- The live-range table of a kernel record does not lie within its const section (R88): an offset that step 1 of R89 refuses.
(DEDUCED, log 39) -/
def kerRecBad (b : List Byte) (h : ImageHeader) (r : List Byte) : Bool :=
  hdrLive r != 0 && decide (fAt r 0 1 < h.sections) && secKind (secAt b h (fAt r 0 1)) == 2 &&
    decide (secSize (secAt b h (fAt r 0 1)) < fAt r 0x18 8 + 16 * hdrLive r)
/-- The first check of Table 4-3 that kernel header `k` fails, the registration of another header apart. None concerns banks above 64: such a
header is registered, and its teams find no room. (DESIGN CHOICE, log 39) -/
def hdrFail (b : List Byte) (h : ImageHeader) (k : Nat) : Option Nat :=
  let r := recAt b h.kerOff 64 k
  let ident := fAt r 0 4
  let n := hdrTeamg r + 1
  let entrySec := secAt b h (fAt r 0x16 2)
  let entryOff := fAt r 0x10 6
  let size := 16 * 2 ^ bits (hdrShape r) 31 30 * (hdrWindow r + hdrDivmax r) * 4 * n
  if bits ident 31 8 ≠ 0x4B4801 ∨ hdrShape r % 4 ≠ 0 ∨ fAt r 8 4 / 8192 ≠ 0 ∨ fAt r 12 4 / 256 ≠ 0 ∨ fAt r 0x30 16 ≠ 0 ∨
      (if hdrLive r = 0 then fAt r 0 1 ≠ 0 else h.sections ≤ fAt r 0 1 ∨ secKind (secAt b h (fAt r 0 1)) ≠ 2) then some 1
  else if bits (hdrShape r) 31 30 = 3 ∨ hdrWindow r < 8 ∨ 64 < hdrWindow r ∨ hdrWindow r % 2 = 1 ∨ 4096 < hdrTiles r then some 2
  else if (if bitAt (hdrShape r) 2 then (upTo 0 64).any (fun g => if g < n then hdrRole r g = 0 else hdrRole r g ≠ 0) else fAt r 0x20 16 ≠ 0) then some 3
  else if (if hdrBanks r ≤ 32 then 1572864 else 3145728) < size then some 4
  else if h.sections ≤ fAt r 0x16 2 ∨ secKind entrySec ≠ 0 ∨ entryOff % 4 ≠ 0 ∨ secSize entrySec < entryOff + 4 then some 5
  else if (hdrTable b h r).any (fun e => e.any fun w => w % 65536 != 0 && decide (hdrBanks r * 32768 < (w / 65536 + w % 65536) * 32)) then some 6
  else if (upTo 0 k).any (fun j => fAt (recAt b h.kerOff 64 j) 0x10 8 == fAt r 0x10 8) then some 7
  else none
/-- A failure of a load: status, info0, info1. -/
abbrev LoadFail := Nat × Nat × Nat
/-- A failed image or record check (R89). -/
def recFail (part i : Nat) : LoadFail := (5, 0xFFFF + part * 2 ^ 24, i)
/-- A failed kernel-header check (R89). -/
def kerFail (k check : Nat) : LoadFail := (5, k + check * 2 ^ 16 + 3 * 2 ^ 24, k)
/-- Step 1 of R89. (DESIGN CHOICE, log 39) -/
def checkImage (b : List Byte) : Except LoadFail ImageHeader :=
  match imageHeader b with
  | none => .error (recFail 0 0)
  | some h =>
    match firstBad b h.secOff 32 h.sections (secBad b h) with
    | some i => .error (recFail 1 i)
    | none => match firstBad b h.arOff 16 h.arenas (arenaRecBad b h) with
      | some i => .error (recFail 2 i)
      | none => match (upTo 0 h.kernels).findSome? fun k =>
          if kerRecBad b h (recAt b h.kerOff 64 k) then some (recFail 3 k) else (hdrFail b h k).map (kerFail k) with
        | some e => .error e
        | none => match firstBad b h.symOff 16 h.symbols (symBad b h) with
          | some i => .error (recFail 4 i)
          | none => match firstBad b (h.symOff + 16 * h.symbols) 24 h.relocs (relBad b h) with
            | some i => .error (recFail 5 i)
            | none => .ok h

/-! ### Arenas and sections (R89 steps 2 and 3) -/

/-- Carve a loader arena from the root, as by `anew`, and see the discards in its range through: its number and base. -/
def carveLoader (s : State) (dom root q : Nat) : Option (Nat × Nat × State) :=
  match anewPlan s dom (handleOf s root) q with
  | .ok (p, c, p', base) =>
    let t := carve s p c p' base q
    some (c, base, if t.filters.length = s.filters.length then t else retireFilters t fun e => e.arena == p && e.ranges != [] && !s.filters.contains e)
  | .error _ => none
/-- A carving must wait as an `anew` must: an engine writes the range, or an access under the root's tag is on its way there (R151, R160). -/
def carveWaits (dom root : Nat) : List Nat → State → Bool
  | [], _ => false
  | q :: t, s => match anewPlan s dom (handleOf s root) q with
    | .ok (p, _, _, base) => rangeOwned s dom base q || tagWrites s [p] || rangeReads s dom p base q || (match carveLoader s dom root q with
      | some (_, _, u) => carveWaits dom root t u
      | none => false)
    | .error _ => false
/-- Carve several arenas in order: their numbers and the state, or the state in which one cannot be carved. -/
def carveAll (dom root : Nat) : List Nat → State → Except State (List Nat × State)
  | [], s => .ok ([], s)
  | q :: t, s => match carveLoader s dom root q with
    | some (c, _, u) => match carveAll dom root t u with
      | .ok r => .ok (c :: r.1, r.2)
      | .error v => .error v
    | none => .error s
/-- Sum of section sizes, each rounded up to its alignment, rounded up to 64 KiB and at least that (R88). -/
def quotaOf (ss : List (List Byte)) : Nat := max 65536 (alignUp (ss.foldl (fun n r => n + alignUp (secSize r) (secAlign r)) 0) 65536)
/-- Position of a section's arena among the loader arenas: the named ones, then code, then default. -/
def arenaPos (h : ImageHeader) (r : List Byte) : Nat :=
  if secKind r = 0 then h.arenas else if secArena r = 0xFFFF then h.arenas + 1 else secArena r
/-- The quotas of the loader arenas in order. -/
def loaderQuotas (b : List Byte) (h : ImageHeader) : List Nat :=
  let ss := (upTo 0 h.sections).map (secAt b h)
  ((upTo 0 h.arenas).map fun i => fAt (recAt b h.arOff 16 i) 8 8) ++
    [quotaOf (ss.filter fun r => secKind r == 0), quotaOf (ss.filter fun r => secKind r != 0 && secArena r == 0xFFFF)]
/-- Place the sections in their arenas at their alignment (R148 alloc): their addresses, or the state in which one has no room. -/
def placeSections (h : ImageHeader) (nums : List Nat) : List (List Byte) → State → Except State (List Nat × State)
  | [], s => .ok ([], s)
  | r :: t, s =>
    let a := nums.getD (arenaPos h r) 0
    match bumpArena (arenaAt s a) (secSize r) (secAlign r) with
    | .ok (va, x) => (match placeSections h nums t { s with arenas := s.arenas.put a x } with
      | .ok p => .ok (va :: p.1, p.2)
      | .error u => .error u)
    | .error _ => .error s
/-- Map the pages from `va` up that have no mapping, `n` of them, the first new one on channel `i` (R89 step 3): the state, or the one in
which no frame is left. -/
def mapMissing (f dom a : Nat) : Nat → Nat → Nat → State → Except State State
  | 0, _, _, s => .ok s
  | n + 1, va, i, s =>
    if (pageAt s dom va).isSome then mapMissing f dom a n (va + Config.page) i s
    else match mapFar f dom Config.page a true 1 va i s with
      | some u => mapMissing f dom a n (va + Config.page) (i + 1) u
      | none => .error s
/-- Map what is missing of an arena's range. -/
def mapArena (f dom : Nat) (s : State) (a : Nat) : Except State State :=
  mapMissing f dom a (((arenaAt s a).rangeEnd - (arenaAt s a).base) / Config.page) (arenaAt s a).base 0 s
/-- Map what is missing of several arenas. -/
def mapArenas (f dom : Nat) : List Nat → State → Except State State
  | [], s => .ok s
  | a :: t, s => match mapArena f dom s a with
    | .ok u => mapArenas f dom t u
    | .error u => .error u
/-- The loader's write of bytes at a domain's addresses (R89); what it does not write of a section is zero from the carving on (R151). -/
def loaderWrite (dom : Nat) : List Byte → Nat → State → State
  | [], _, s => s
  | x :: t, va, s =>
    let u := match pageAt s dom va with
      | some (base, p) => mergeHome s 0 0 p.tag (p.pa + (va - base)) [x]
      | none => s
    loaderWrite dom t (va + 1) u
/-- The loader's read. -/
def loaderRead (s : State) (dom va n : Nat) : Nat :=
  leNat ((upTo va n).map fun a => match pageAt s dom a with
    | some (base, p) => homeByte s p.tag (p.pa + (a - base))
    | none => 0)

/-! ### Relocation and registration (R89 steps 4 to 6) -/

/-- The value of symbol `i` once sections are placed. -/
def symValue (b : List Byte) (h : ImageHeader) (vas : List Nat) (i : Nat) : Nat :=
  let r := recAt b h.symOff 16 i
  if fAt r 4 2 = 0xFFFF then fAt r 8 8 else (vas.getD (fAt r 4 2) 0 + fAt r 8 8) % 2 ^ 64
/-- Apply relocation `i` (Table 3-4); none for an ABS32 value that does not fit. -/
def applyReloc (b : List Byte) (h : ImageHeader) (dom : Nat) (vas : List Nat) (s : State) (i : Nat) : Option State :=
  let r := recAt b (h.symOff + 16 * h.symbols) 24 i
  let at' := vas.getD (fAt r 8 2) 0 + fAt r 0 8
  let v := (symValue b h vas (fAt r 12 4) + fAt r 16 8) % 2 ^ 64
  let pair (x : Nat) : State :=
    let imx := loaderRead s dom at' 4
    let movi := loaderRead s dom (at' + 4) 4
    let s := loaderWrite dom (leBytes 4 (imx / 2 ^ 20 * 2 ^ 20 + x / 2 ^ 12)) at' s
    loaderWrite dom (leBytes 4 (movi / 2 ^ 15 * 2 ^ 15 + x % 2 ^ 12 * 8 + movi % 8)) (at' + 4) s
  match fAt r 10 1 with
  | 0 => some (loaderWrite dom (leBytes 8 v) at' s)
  | 1 => if 2 ^ 32 ≤ v then none else some (loaderWrite dom (leBytes 4 v) at' s)
  | 2 => some (pair (v % 2 ^ 32))
  | _ => some (pair (v / 2 ^ 32))
/-- Apply every relocation: the state after them, or the index of the first that fails and the state before it. -/
def applyRelocs (b : List Byte) (h : ImageHeader) (dom : Nat) (vas : List Nat) : Nat → Nat → State → Except (Nat × State) State
  | 0, _, s => .ok s
  | n + 1, i, s => match applyReloc b h dom vas s i with
    | some u => applyRelocs b h dom vas n (i + 1) u
    | none => .error (i, s)
/-- The header that is registered for kernel `k`, its live-range table as relocation has left it in memory. (DESIGN CHOICE, log 44) -/
def headerOf (s : State) (b : List Byte) (h : ImageHeader) (dom : Nat) (vas : List Nat) (k : Nat) : Header :=
  let r := recAt b h.kerOff 64 k
  { dom := dom, entry := vas.getD (fAt r 0x16 2) 0 + fAt r 0x10 6, gw := bits (hdrShape r) 31 30, window := hdrWindow r, divmax := hdrDivmax r,
    teamg := hdrTeamg r, banks := hdrBanks r, uchk := bitAt (hdrShape r) 5, schk := bitAt (hdrShape r) 4, coop := bitAt (hdrShape r) 3,
    roled := bitAt (hdrShape r) 2, tiles := hdrTiles r, rolemap := fAt r 0x20 16,
    live := liveWords r fun o => loaderRead s dom (vas.getD (fAt r 0 1) 0 + o) 4 }
/-- The bytes of `fault.entry` with its NUL (R412). -/
def faultEntryName : List Byte := [0x66, 0x61, 0x75, 0x6C, 0x74, 0x2E, 0x65, 0x6E, 0x74, 0x72, 0x79, 0]
/-- The image's global symbol `fault.entry`. -/
def faultSymbol (b : List Byte) (h : ImageHeader) : Option Nat :=
  (upTo 0 h.symbols).find? fun i =>
    let r := recAt b h.symOff 16 i
    fAt r 6 2 % 2 == 1 && (b.drop (h.strOff + fAt r 0 4)).take 12 == faultEntryName
/-- The address of the image's global symbol `fault.entry`, when it names the entry of a header that a bin can launch (R412). -/
def faultEntryOf (b : List Byte) (h : ImageHeader) (dom : Nat) (vas : List Nat) (s : State) : Option Nat :=
  match faultSymbol b h with
  | some i =>
    let v := symValue b h vas i
    (match headerAt s dom v with
    | some x => if x.teamg = 0 ∧ !x.coop ∧ !x.roled then some v else none
    | none => none)
  | none => none
/-- The fault entry is set; the first one carves the fault area (R412). -/
def setFaultEntry (f dom root : Nat) (e : Option Nat) (s : State) : Except State State :=
  match e with
  | none => .ok s
  | some v =>
    let s := modFunc s f fun x => { x with faultEntry := some v }
    if (funcAt s f).faultArea.isSome then .ok s
    else match carveLoader s dom root (512 * Config.faultSlots) with
      | some (c, base, u) => (match mapArena f dom u c with
        | .ok w => .ok (modFunc w f fun x => { x with faultArea := some base })
        | .error w => .error w)
      | none => .error s
/-- An arena that the loader carved leaves at once, as by a drop (R89, R157). -/
def dropCarved (f : Nat) (s : State) (n : Nat) : State :=
  let a := arenaAt s n
  let len := a.rangeEnd - a.base
  let s := retagRange (zeroPages (forgetRange s a.dom a.base len) a.dom a.base len) a.dom a.base len a.parent
  dropRoot f (returnQuota s a.parent a) n
/-- The numbers that are live now and were free before. -/
def carvedSince (old s : State) : List Nat := (s.arenas.filter fun e => arenaLives e.2 && (arenaAt old e.1).state == .free).map (·.1)
/-- A load that fails is undone (R89): the pages that it mapped go, the arenas that it carved are dropped, from the highest range down, and
nothing stays registered. -/
def undoLoad (f dom : Nat) (old s : State) : State :=
  let ns := byBase s (carvedSince old s)
  let ps := ns.flatMap fun n => (rangePages s dom (arenaAt s n).base ((arenaAt s n).rangeEnd - (arenaAt s n).base)).filter fun p => (pageAt old dom p.1).isNone
  let s := modFunc { s with kernels := old.kernels } f fun x => { x with faultEntry := (funcAt old f).faultEntry }
  ns.foldl (dropCarved f) (unmapPages s dom ps)
/-- Steps 2 to 6 of R89: the module's kernel entries and the state after the load, or the failure and the state in which it is met. Quotas that
their own sections do not fit, and a function with no root, are among the failures of step 2. (DESIGN CHOICE, log 39) -/
def loadImage (b : List Byte) (h : ImageHeader) (f dom : Nat) (s : State) : Except (LoadFail × State) (List Nat × State) :=
  match (funcAt s f).root with
  | none => .error ((4, 0, 0), s)
  | some root =>
    if 16 ≤ (funcAt s f).modules.length then .error ((4, 0, 0), s)
    else match carveAll dom root (loaderQuotas b h) s with
      | .error s => .error ((4, 0, 0), s)
      | .ok (nums, s) =>
        let ss := (upTo 0 h.sections).map (secAt b h)
        match placeSections h nums ss s with
        | .error s => .error ((4, 0, 0), s)
        | .ok (vas, s) =>
          match mapArenas f dom nums s with
          | .error s => .error ((4, 0, 0), s)
          | .ok s =>
            let s := (ss.zip vas).foldl (fun u e => loaderWrite dom ((b.drop (secOff e.1)).take (secFile e.1)) e.2 u) s
            match applyRelocs b h dom vas h.relocs 0 s with
            | .error (i, s) => .error (recFail 5 i, s)
            | .ok s =>
              let sealed := (upTo 0 h.arenas).filter fun i => fAt (recAt b h.arOff 16 i) 4 4 % 2 == 1
              let s := (nums.getD h.arenas 0 :: sealed.map fun i => nums.getD i 0).foldl (fun t a => modArena t a fun x => { x with state := .sealed }) s
              let hs := (upTo 0 h.kernels).map (headerOf s b h dom vas)
              match (upTo 0 h.kernels).find? fun k => ((hs[k]?).bind fun x => headerAt s dom x.entry).isSome with
              | some k => .error (kerFail k 7, s)
              | none =>
                let s := { s with kernels := s.kernels ++ hs }
                match setFaultEntry f dom root (faultEntryOf b h dom vas s) s with
                | .ok s => .ok (hs.map (·.entry), s)
                | .error s => .error ((4, 0, 0), s)
/-- A load that would carve its arenas now must wait (R151). -/
def loadWaits (b : List Byte) (h : ImageHeader) (f dom : Nat) (s : State) : Bool :=
  match (funcAt s f).root with
  | some root => carveWaits dom root (loaderQuotas b h ++ if (funcAt s f).faultArea.isNone && (faultSymbol b h).isSome then [512 * Config.faultSlots] else []) s
  | none => false
/-- The record that a function queues next can be written at once: the queue has room for it and for those before it, and a link is up. -/
def recordRoom (s : State) (fn : Nat) : Bool :=
  let x := funcAt s fn
  (linkFor s x).isSome && decide (unconsumed x + x.records.length + 1 < cqSize x)
/-- A function's records are written before anything else happens. -/
def writeRecords (s : State) (fn : Nat) : State :=
  { s with agenda := rep (funcAt s fn).records.length (.event (.completionRecord fn)) ++ s.agenda }
/-- MOD_LOAD (R89): the whole load, or one undone and a record that says what failed. A load that succeeds is made when its record can be
written, and no fibre sees it before that record. The module takes the lowest free index. (DESIGN CHOICE, log 39) -/
def execModLoad (fn slot : Nat) (s : State) : Out :=
  startCmd "MOD_LOAD" 1 fn slot s fun c s =>
    let dom := ((funcAt s fn).dom).getD 64
    let n := fAt c 0x18 8
    if 2 ^ 31 < n then .next (finalRecord s fn slot 5 0xFFFF 0)
    else match hostRead s (fAt c 0x10 8) n with
      | .error a => .next (finalRecord s fn slot 7 0 a)
      | .ok b =>
        match checkImage b with
        | .error e => .next (finalRecord s fn slot e.1 e.2.1 e.2.2)
        | .ok h =>
          if loadWaits b h fn dom s then .refused (.notEnabled "MOD_LOAD")
          else match loadImage b h fn dom s with
          | .error (e, t) => .next (finalRecord (undoLoad fn dom s t) fn slot e.1 e.2.1 e.2.2)
          | .ok (es, t) =>
            if !recordRoom s fn then .refused (.notEnabled "MOD_LOAD")
            else
            let i := ((upTo 0 16).find? fun i => (t.funcs.get? fn).isSome && ((funcAt t fn).modules.get? i).isNone).getD 0
            .next (writeRecords (finalRecord (modFunc t fn fun x => { x with modules := x.modules.put i es }) fn slot 0 i) fn)

end Sys2Proof.Machine
end

