-- ==== Sys2Proof/Machine/Graph.lean ====
section
/-!
DEFINITION. Resident task graphs: GRAPH.LOAD (R90, R91), runs (R92, R93, R102, R103), the walker's node events, the launch of grids
(R108, R109), and the end of a run (R456).
-/
namespace Sys2Proof.Machine

/-! ### Graph blocks (R90, Table 4-6) -/

/-- Node `i` of a block. -/
def nodeRec (b : List Byte) (i : Nat) : List Byte := recAt b 16 64 i
/-- The node that a record holds. -/
def nodeOf (r : List Byte) : Node :=
  let ty := bits (fAt r 0 4) 31 28
  { kind := ty, succs := (upTo 0 (bits (fAt r 0 4) 27 24)).map fun k => fAt r (0x30 + 2 * k) 2,
    kernel := if ty = 0 then fAt r 4 4 else 0, groups := if ty = 0 then fAt r 8 4 else 0, prio := if ty = 0 then fAt r 12 4 else 0,
    args := if ty = 0 then (upTo 0 8).map (fun k => BitVec.ofNat 32 (fAt r (0x10 + 4 * k) 4)) else [],
    src := if ty = 1 then fAt r 8 8 else 0, dst := if ty = 1 then fAt r 16 8 else 0, bytes := if ty = 1 then fAt r 24 8 else 0,
    cap := if ty = 3 then fAt r 4 4 else 0, cond := if ty = 2 ∨ ty = 3 then fAt r 8 8 else 0,
    entry := if ty = 3 then fAt r 16 2 else 0, exit := if ty = 3 then fAt r 18 2 else 0 }
/-- A node record breaks the layout of R90 or a rule of R91 that concerns it alone; the condition word of a while node is aligned as that of
a condition node. (DESIGN CHOICE, log 37) -/
def nodeBad (n kernels : Nat) (r : List Byte) : Bool :=
  let x := nodeOf r
  let cnt := bits (fAt r 0 4) 27 24
  decide (4 < x.kind) || fAt r 0 4 % 2 ^ 24 != 0 || decide (8 < cnt) || ((upTo cnt (8 - cnt)).any fun k => fAt r (0x30 + 2 * k) 2 != 0xFFFF) ||
    x.succs.any (fun j => decide (n ≤ j)) ||
    (match x.kind with
     | 0 => decide (kernels ≤ x.kernel) || x.groups == 0 || decide (3 < x.prio)
     | 1 => fAt r 4 4 != 0 || x.bytes == 0 || decide (2 ^ 40 < x.bytes) || !zeroAt r [(0x20, 16)]
     | 2 => fAt r 4 4 != 0 || x.cond % 4 != 0 || !zeroAt r [(0x10, 32)] || decide (cnt < 2)
     | 3 => x.cap == 0 || x.cond % 4 != 0 || decide (n ≤ x.entry) || decide (n ≤ x.exit) || !zeroAt r [(0x14, 28)]
     | _ => !zeroAt r [(4, 44)])
/-- The nodes that are reached from a set by successors, not past `stop`; `fuel` rounds. -/
def reach (ns : List Node) (stop : Nat) : Nat → List Nat → List Nat
  | 0, seen => seen
  | f + 1, seen =>
    let more := dedup (seen.flatMap fun i => if i = stop then [] else ((ns[i]?).map (·.succs)).getD [])
    match more.filter fun j => !seen.contains j with
    | [] => seen
    | new => reach ns stop f (seen ++ new)
/-- The body of a while node (R91). -/
def bodyOf (ns : List Node) (w : Nat) : List Nat :=
  match ns[w]? with
  | some x => if x.kind = 3 then reach ns x.exit ns.length [x.entry] else []
  | none => []
/-- The predecessors of a node: those that list it. -/
def predsOf (ns : List Node) (i : Nat) : List Nat := (upTo 0 ns.length).filter fun j => ((ns[j]?).map fun x => x.succs.contains i).getD false
/-- A node lies on a cycle of successor links. -/
def onCycle (ns : List Node) (i : Nat) : Bool := (reach ns ns.length ns.length (((ns[i]?).map (·.succs)).getD [])).contains i
/-- A while node's body breaks R91. -/
def bodyBad (ns : List Node) (w : Nat) : Bool :=
  match ns[w]? with
  | some x =>
    if x.kind ≠ 3 then false
    else
      let b := bodyOf ns w
      !b.contains x.exit || b.contains w || x.succs.contains x.entry || predsOf ns x.entry != [] ||
        ((upTo 0 ns.length).any fun v => v != w && ((ns[v]?).map fun y => y.kind == 3 && y.entry == x.entry).getD false) ||
        b.any (fun i => i != x.entry && (predsOf ns i).any fun j => !b.contains j) ||
        b.any (fun i => (((ns[i]?).map (·.succs)).getD []).any fun j => !b.contains j)
  | none => false
/-- How deep bodies nest at a while node. -/
def nesting (ns : List Node) : Nat → Nat → Nat
  | 0, _ => 0
  | f + 1, w => if ((ns[w]?).map (·.kind)).getD 0 = 3 then 1 + (bodyOf ns w).foldl (fun m i => max m (nesting ns f i)) 0 else 0
/-- The first node at which a block fails (R91); 0xFFFF for the block's own header. (DESIGN CHOICE, log 37) -/
def graphFail (s : State) (f : Nat) (b : List Byte) : Option Nat :=
  let n := fAt b 4 4
  match (funcAt s f).modules.get? (fAt b 8 4) with
  | none => some 0xFFFF
  | some ker =>
    if fAt b 0 4 ≠ 0x4852474B ∨ n = 0 ∨ 4096 < n ∨ fAt b 12 4 ≠ 0 ∨ b.length ≠ 16 + 64 * n then some 0xFFFF
    else
      let ns := (upTo 0 n).map fun i => nodeOf (nodeRec b i)
      match (upTo 0 n).find? fun i => nodeBad n ker.length (nodeRec b i) with
      | some i => some i
      | none => (upTo 0 n).find? fun i => onCycle ns i || bodyBad ns i || decide (4 < nesting ns 5 i)
/-- GRAPH_LOAD (R90, R91). The graph takes the lowest free index. (DESIGN CHOICE, log 37) -/
def execGraphLoad (fn slot : Nat) (s : State) : Out :=
  startCmd "GRAPH_LOAD" 2 fn slot s fun c s =>
    match hostRead s (fAt c 0x10 8) (fAt c 0x18 4) with
    | .error a => .next (finalRecord s fn slot 7 0 a)
    | .ok b =>
      match graphFail s fn b with
      | some i => .next (finalRecord s fn slot 5 i)
      | none => match (upTo (fn * 64) 64).find? fun k => (s.graphs.get? k).isNone with
        | none => .next (finalRecord s fn slot 4)
        | some k =>
          let g : Graph := ⟨fAt b 8 4, (upTo 0 (fAt b 4 4)).map fun i => nodeOf (nodeRec b i)⟩
          .next (finalRecord { s with graphs := s.graphs.put k g } fn slot 0 (k % 64))

/-! ### Runs (R92, R102) -/

/-- GRAPH_KICK (R102): an acceptance record, or a refusal. -/
def execGraphKick (fn slot : Nat) (s : State) : Out :=
  startCmd "GRAPH_KICK" 3 fn slot s fun c s =>
    let key := fn * 64 + fAt c 0x10 2
    match s.graphs.get? key with
    | none => .next (finalRecord s fn slot 3 0x10)
    | some g =>
      if (s.runs.get? key).isSome then .next (finalRecord s fn slot 6)
      else
        let r : Run := { tag := BitVec.ofNat 32 (fAt c 4 4), slot := slot, vec := vecOf c, nodes := rep g.nodes.length .unresolved }
        .next (pushRecord { s with runs := s.runs.put key r } fn ⟨r.tag, 3, 0, 1, slot, 0, 0, none⟩)
/-- Change a run. -/
def modRun (s : State) (key : Nat) (f : Run → Run) : State :=
  match s.runs.get? key with
  | some r => { s with runs := s.runs.put key (f r) }
  | none => s
/-- State of a node. -/
def Run.at (r : Run) (i : Nat) : NodeState := r.nodes.getD i .unresolved
/-- The node is resolved: completed or skipped. -/
def Run.done (r : Run) (i : Nat) : Bool := r.at i == .completed || r.at i == .skipped
/-- Set a node's state. -/
def setNode (s : State) (key i : Nat) (st : NodeState) : State := modRun s key fun r => { r with nodes := setAt r.nodes i st }
/-- A predecessor counts as completed for a node: it completed, and did not resolve the node as skipped (R92). -/
def Run.gave (r : Run) (j i : Nat) : Bool := r.at j == .completed && !r.cuts.contains (j, i)
/-- The while node whose body a node enters. -/
def ownerOf (ns : List Node) (i : Nat) : Option Nat := (upTo 0 ns.length).find? fun w => ((ns[w]?).map fun x => x.kind == 3 && x.entry == i).getD false
/-- A node's conditions to start are met (R92). -/
def nodeReady (g : Graph) (r : Run) (i : Nat) : Bool :=
  r.at i == .unresolved && decide (i < g.nodes.length) &&
  (match ownerOf g.nodes i with
   | some w => r.at w == .running
   | none =>
     let ps := predsOf g.nodes i
     ps == [] || (ps.all r.done && ps.any fun j => r.gave j i))
/-- The run goes on: no stop, no failure (R93, R103, R109). -/
def Run.open (r : Run) : Bool := !r.stopped && !r.notFit && r.failNode == 0xFFFF
/-- The walker may start node `i`, of a kind: the function's walker runs (R101). -/
def startable (s : State) (fn graph node kind : Nat) : Option (Graph × Run × Node) :=
  match s.graphs.get? (fn * 64 + graph), s.runs.get? (fn * 64 + graph) with
  | some g, some r => match g.nodes[node]? with
    | some x => if x.kind = kind ∧ nodeReady g r node ∧ r.open ∧ !(funcAt s fn).halted ∧ !(funcAt s fn).resetting ∧ graph < 64 then some (g, r, x) else none
    | none => none
  | _, _ => none
/-- A word that the walker reads at its home (R93). (DESIGN CHOICE, log 38) -/
def walkerRead (s : State) (dom va : Nat) : Except AccFail Nat :=
  match domBytes s dom va 4 with
  | .ok b => .ok (leNat b)
  | .error e => .error e
/-- A failed read ends the run (R93). -/
def failRun (s : State) (key node cause : Nat) : State := modRun s key fun r => if r.failNode = 0xFFFF then { r with failNode := node, failCause := cause } else r
/-- JOIN_NODE (R92). -/
def execJoinNode (fn graph node : Nat) (s : State) : Out :=
  match startable s fn graph node 4 with
  | some _ => .next (setNode s (fn * 64 + graph) node .completed)
  | none => .refused (.notEnabled "JOIN_NODE")
/-- CONDITION_NODE (R92, R93). -/
def execConditionNode (fn graph node : Nat) (s : State) : Out :=
  match startable s fn graph node 2 with
  | some (_, _, x) =>
    let key := fn * 64 + graph
    (match walkerRead s (((funcAt s fn).dom).getD 64) x.cond with
    | .error e => .next (failRun s key node (causeOf e.cls 0 e.detail))
    | .ok v =>
      let j := x.succs.getD (min v (x.succs.length - 1)) 0
      .next (modRun (setNode s key node .completed) key fun r =>
        { r with cuts := r.cuts ++ ((x.succs.filter (· != j)).map fun k => (node, k)) }))
  | none => .refused (.notEnabled "CONDITION_NODE")
/-- A while node's body with the bodies inside it. -/
def deepBody (ns : List Node) : Nat → Nat → List Nat
  | 0, w => bodyOf ns w
  | f + 1, w => bodyOf ns w ++ (bodyOf ns w).flatMap (deepBody ns f)
/-- A new iteration of a while node: its body is unresolved; what an earlier iteration still has under way ends without resolving a
node. (DESIGN CHOICE, log 37) -/
def newIteration (g : Graph) (key node : Nat) (s : State) : State :=
  let body := deepBody g.nodes 4 node
  let s := { s with grids := s.grids.map fun (e : Nat × Grid) =>
    if e.2.func * 64 + e.2.graph = key ∧ body.contains e.2.node then (e.1, { e.2 with orphan := true }) else e }
  modRun s key fun r =>
    let copies := body.filter fun i => r.at i == .running && ((g.nodes[i]?).map fun x => x.kind == 1).getD false
    { r with orphans := r.orphans ++ dedup copies, cuts := r.cuts.filter fun c => !body.contains c.1,
             nodes := setAt (body.foldl (fun ns i => setAt ns i .unresolved) r.nodes) node .running }
/-- A while node has read its word `v`: a new iteration, or its completion (R92). -/
def whileRead (g : Graph) (key node : Nat) (x : Node) (v : Nat) (s : State) : State :=
  let it := ((s.runs.get? key).bind fun r => r.iters.get? node).getD 0
  if v ≠ 0 ∧ it < x.cap then newIteration g key node (modRun s key fun r => { r with iters := r.iters.put node (it + 1) })
  else modRun s key fun r => { r with nodes := setAt r.nodes node .completed, capped := r.capped || v != 0 }
/-- WHILE_NODE (R92, R93). -/
def execWhileNode (fn graph node : Nat) (s : State) : Out :=
  match startable s fn graph node 3 with
  | some (g, _, x) =>
    let key := fn * 64 + graph
    (match walkerRead s (((funcAt s fn).dom).getD 64) x.cond with
    | .error e => .next (failRun s key node (causeOf e.cls 0 e.detail))
    | .ok v => .next (whileRead g key node x v (modRun s key fun r => { r with iters := r.iters.del node })))
  | none => .refused (.notEnabled "WHILE_NODE")
/-- WHILE_BODY_EXIT (R92): the exit node has resolved; the word is read again. -/
def execWhileBodyExit (fn graph node : Nat) (s : State) : Out :=
  let key := fn * 64 + graph
  match s.graphs.get? key, s.runs.get? key with
  | some g, some r =>
    (match g.nodes[node]? with
    | some x =>
      if x.kind ≠ 3 ∨ r.at node ≠ .running ∨ !r.done x.exit ∨ !r.open ∨ (funcAt s fn).halted ∨ (funcAt s fn).resetting ∨ 64 ≤ graph then
        .refused (.notEnabled "WHILE_BODY_EXIT")
      else (match walkerRead s (((funcAt s fn).dom).getD 64) x.cond with
        | .error e => .next (failRun s key node (causeOf e.cls 0 e.detail))
        | .ok v => .next (whileRead g key node x v s))
    | none => .refused (.notEnabled "WHILE_BODY_EXIT"))
  | _, _ => .refused (.notEnabled "WHILE_BODY_EXIT")
/-- The lowest core of a function: the core of a detached fault of its copy nodes. -/
def coreOf (s : State) (f : Nat) : Nat := ((upTo 0 Config.cores).find? fun c => ownsCore s f c).getD 0
/-- The engine operation of a copy node: one that no word has issued, accepted at its start (R92, R283). -/
def copyOp (s : State) (fn graph node : Nat) (x : Node) : EngOp :=
  { kind := 4, gid := 0, core := coreOf s fn, team := 0, grid := none, func := fn, dom := ((funcAt s fn).dom).getD 64, lane := noLane, tok := 0,
    params := [x.src, x.dst, x.bytes].flatMap fun v => [BitVec.ofNat 32 v, BitVec.ofNat 32 (v / 2 ^ 32)], cwVal := 0, cw := false, tg := false, scope := 2,
    accepted := true, node := some (fn * 64 + graph, node) }
/-- The operation with its destination lines and arenas registered (R162, R283). -/
def copyReg (s : State) (o : EngOp) : EngOp :=
  { o with arenas := engArenas s o, dests := o.targets, owned := engLines s o, idx := engLines s o }
/-- COPY_NODE_START (R92, R283): a copy engine takes the copy once the range records of its destination are free. -/
def execCopyNodeStart (fn graph node : Nat) (s : State) : Out :=
  match startable s fn graph node 1 with
  | some (_, _, x) =>
    let o := copyOp s fn graph node x
    if !recordsFree s o then .refused (.notEnabled "COPY_NODE_START")
    else .next (setNode { (fresh s).2 with engs := s.engs.put s.nextId (copyReg s o) } (fn * 64 + graph) node .running)
  | none => .refused (.notEnabled "COPY_NODE_START")
/-- Write bytes of a domain line by line, those lines apart that a recall has written already; the state after those before a failure, and the
failure. (DESIGN CHOICE, log 38) -/
def copyOut (s : State) (dom : Nat) (done : List Nat) : Nat → Nat → List Byte → State × Option AccFail
  | 0, _, _ => (s, none)
  | f + 1, va, bs =>
    if bs = [] then (s, none)
    else
      let m := 64 - va % 64
      match translate s dom va true with
      | .error e => (s, some e)
      | .ok (pa, p) => match arenaCheck s p va true with
        | some e => (s, some e)
        | none =>
          if done.contains (pa / 64) then copyOut s dom done f (va + m) (bs.drop m)
          else if poisoned s pa ∧ (bs.take m).length < 64 then (s, some ⟨20, 3, va / 64 * 64⟩)
          else
            let s := mergeHome s 1 0 p.tag pa (bs.take m)
            let s := if (bs.take m).length = 64 then { s with poison := s.poison.filter (· != pa / 64) } else s
            copyOut s dom done f (va + m) (bs.drop m)
/-- The physical lines of a range that are mapped for the domain. -/
def rangeLines (s : State) (dom va n : Nat) : List Nat :=
  (cuts 64 (va, n)).filterMap fun r => match translate s dom r.1 false with
    | .ok (pa, _) => some (pa / 64)
    | .error _ => none
/-- The bytes that a copy writes to `n` bytes from `dst`: one whose place is a source byte too holds a free value (DESIGN CHOICE, log 1). -/
def freeOverlap (src dst n : Nat) : Nat → List Byte → State → List Byte × State
  | _, [], s => ([], s)
  | i, b :: t, s =>
    if src ≤ dst + i ∧ dst + i < src + n then
      let r := freeOverlap src dst n (i + 1) t { s with freeCtr := s.freeCtr + 1 }
      (Config.freeByte s.freeCtr :: r.1, r.2)
    else
      let r := freeOverlap src dst n (i + 1) t s
      (b :: r.1, r.2)
/-- A copy is made, or it fails: nothing more is written where a source line fails, and the lines before the first failing destination line
otherwise; at a host page its transaction may fail (R281, R304). (DESIGN CHOICE, log 38) -/
def runCopy (s : State) (o : EngOp) : State :=
  let src := o.pp 0
  let dst := o.pp 2
  let n := o.pp 4
  let fault (s : State) (e : AccFail) : State := detachedFault s o.dom { cause := causeOf e.cls 3 e.detail, addr := e.addr } o.core
  let host := (cuts Config.page (src, n) ++ cuts Config.page (dst, n)).find? fun r => match translate s o.dom r.1 false with
    | .ok (pa, _) => isHost pa
    | .error _ => false
  match domRead s o.dom src (n / 64 + 2) n with
  | .error e => fault s e
  | .ok bs =>
    let b := if host.isSome then takeBit s else (false, s)
    if b.1 then fault b.2 ⟨8, 3, (host.map (·.1)).getD 0⟩
    else
      let r := freeOverlap src dst n 0 bs b.2
      match copyOut r.2 o.dom (o.idx.filter fun l => !o.owned.contains l) (n / 64 + 2) dst r.1 with
      | (t, some e) => fault t e
      | (t, none) => t
/-- The operation of a copy node that has been under way the longest. -/
def copyOpOf (s : State) (key node : Nat) : Option (Nat × EngOp) := s.engs.find? fun e => e.2.node == some (key, node)
/-- A copy node's copy has ended: the node completes, or one of an earlier iteration is over; in a run that a reset has ended nothing
follows. -/
def copyEnded (key node : Nat) (s : State) : State :=
  match s.runs.get? key with
  | some r => if r.orphans.contains node then modRun s key fun r => { r with orphans := r.orphans.erase node }
      else if r.at node = .running then setNode s key node .completed else s
  | none => s
/-- COPY_NODE_COMPLETE (R92 to R94): the last byte is written, once no other engine owns a line of the copy (R284), and no line is owned any
more; a failure is a detached fault and the node still completes. -/
def execCopyNodeComplete (fn graph node : Nat) (s : State) : Out :=
  match copyOpOf s (fn * 64 + graph) node with
  | some (i, o) =>
    let t := { s with engs := s.engs.del i }
    if 64 ≤ graph ∨ (rangeLines s o.dom (o.pp 0) (o.pp 4) ++ rangeLines s o.dom (o.pp 2) (o.pp 4)).any (engineOwned t) then
      .refused (.notEnabled "COPY_NODE_COMPLETE")
    else .next (copyEnded (fn * 64 + graph) node (runCopy t o))
  | none => .refused (.notEnabled "COPY_NODE_COMPLETE")

/-! ### Kernel nodes (R108, R109) -/

/-- Dies that hold a core of a function's unit set and are alive, lowest first (R108). -/
def gridDies (s : State) (f : Nat) : List Nat :=
  (upTo 0 Config.dies).filter fun d => !s.dieDown.contains d && (upTo (d * 64) 64).any fun c => ownsCore s f c
/-- Groups of a header that the partitions of one empty core, or pair, hold. -/
def emptyGroups (h : Header) : Nat :=
  (if pairTeam h then 2 else 1) * (12 * (Config.rfBytes / max (windowBytes h.width h.window h.divmax) 1))
/-- Teams of a header that the banks and tiles of one empty core, or pair, hold; `m` where the header takes neither. -/
def emptyRoom (h : Header) (m : Nat) : Nat :=
  min (if h.banks = 0 then m else (if pairTeam h then 2 else 1) * Config.banks / h.banks) (if h.tiles = 0 then m else Config.tiles / h.tiles)
/-- Whole teams of a header that fit on one empty core or pair beside `r` more groups, those of `k` further teams (R86 check 4, R109). -/
def emptyFit (h : Header) (r k : Nat) : Nat :=
  let c := emptyGroups h
  if c < r then 0 else min ((c - r) / (h.teamg + 1)) (emptyRoom h (c + k) - k)
/-- Cores, or whole pairs, of a function's guaranteed and margin set on live dies. -/
def fitPlaces (s : State) (f : Nat) (pair : Bool) : Nat :=
  ((upTo 0 Config.cores).filter fun c => ownsCore s f c && !s.dieDown.contains (dieOf c) && (!pair || (c % 2 == 0 && ownsCore s f (c + 1)))).length
/-- The teams of a cooperative grid of `groups` groups cannot all be placed on empty cores: neither as if the last team were whole, nor with that
team, whose groups are the rest, on a place of its own or beside whole ones (R109). -/
def coopTooBig (s : State) (f : Nat) (h : Header) (groups : Nat) : Bool :=
  let n := h.teamg + 1
  let whole := (groups - 1) / n
  let last := groups - whole * n
  let p := fitPlaces s f (pairTeam h)
  decide (emptyFit h 0 0 * p < whole + 1) &&
    (p == 0 || decide (emptyGroups h < last) || emptyRoom h 1 == 0 || decide (emptyFit h 0 0 * (p - 1) + emptyFit h last 1 < whole))
/-- KERNEL_NODE_START (R92, R107 to R109). -/
def execKernelNodeStart (fn graph node : Nat) (s : State) : Out :=
  match startable s fn graph node 0 with
  | some (g, _, x) =>
    let key := fn * 64 + graph
    let dom := ((funcAt s fn).dom).getD 64
    let entry := (((funcAt s fn).modules.get? g.modl).bind fun es => es[x.kernel]?).getD 0
    (match headerAt s dom entry with
    | none => .refused (.notEnabled "KERNEL_NODE_START")
    | some h =>
      let teams := (x.groups + h.teamg) / (h.teamg + 1)
      if h.coop ∧ coopTooBig s fn h x.groups then .next (modRun s key fun r => { r with notFit := true, failNode := node, failCause := 0 })
      else
        let ds := gridDies s fn
        let gr : Grid :=
          { func := fn, dom := dom, graph := graph, node := node, kentry := entry, groups := x.groups, teams := teams, teamg := h.teamg, coop := h.coop,
            prio := x.prio, args := x.args, dies := ds, leader := ds.getD 0 0, deputy := ds.getD 1 (ds.getD 0 0) }
        .next (setNode { (fresh s).2 with grids := s.grids.put s.nextId gr } key node .running))
  | none => .refused (.notEnabled "KERNEL_NODE_START")

/-! ### Stops and the end of a run -/

/-- A saved team ends without a restore: its image goes and its groups have retired. -/
def dropImage (s : State) (tid : Nat) : State :=
  match (s.teams.get? tid).bind (·.saved) with
  | none => s
  | some i =>
    let gs := ((s.images.get? i).map (·.groups)).getD []
    let s := gs.foldl (fun (t : State) e => { t with groups := t.groups.put e.1 { e.2.group with retired := true } }) s
    modTeam { s with images := s.images.del i } tid fun t => { t with saved := none }
/-- The running grids of a graph halt without a save (R103). -/
def abortGrids (s : State) (fn graph : Nat) : State :=
  s.grids.foldl (fun t e =>
    if e.2.func ≠ fn ∨ e.2.graph ≠ graph then t
    else
      let t := modGrid t e.1 fun y => { y with aborted := true, claims := [] }
      e.2.placedTeams.foldl (fun u tid => match u.teams.get? tid with
        | some x => (liveGroups u x).foldl (fun v g => endGroup v g.1) (dropImage u tid)
        | none => u) t) s
/-- GRAPH_STOP_DRAIN (R103). -/
def execGraphStopDrain (fn slot : Nat) (s : State) : Out :=
  startCmd "GRAPH_STOP_DRAIN" 4 fn slot s fun c s =>
    let key := fn * 64 + fAt c 0x10 2
    if fAt c 0x12 2 ≠ 0 then .refused (.notEnabled "GRAPH_STOP_DRAIN")
    else if (s.runs.get? key).isNone then .next (finalRecord s fn slot 0)
    else .next (waitCmd (modRun s key fun r => { r with stopped := true }) fn slot key 0)
/-- GRAPH_STOP_ABORT (R103). -/
def execGraphStopAbort (fn slot : Nat) (s : State) : Out :=
  startCmd "GRAPH_STOP_ABORT" 4 fn slot s fun c s =>
    let key := fn * 64 + fAt c 0x10 2
    if fAt c 0x12 2 ≠ 1 then .refused (.notEnabled "GRAPH_STOP_ABORT")
    else if (s.runs.get? key).isNone then .next (finalRecord s fn slot 0)
    else .next (waitCmd (abortGrids (modRun s key fun r => { r with stopped := true }) fn (fAt c 0x10 2)) fn slot key 0)
/-- Nodes inside some body. -/
def inBodies (ns : List Node) : List Nat := (upTo 0 ns.length).flatMap (bodyOf ns)
/-- Nodes all of whose predecessors were skipped are skipped (R92). -/
def skipNodes (g : Graph) (r : Run) : Run :=
  let skip (r : Run) (i : Nat) : Run :=
    let ps := predsOf g.nodes i
    if r.at i = .unresolved ∧ (ownerOf g.nodes i).isNone ∧ ps ≠ [] ∧ ps.all r.done ∧ !(ps.any fun j => r.gave j i) then { r with nodes := setAt r.nodes i .skipped } else r
  let pass (r : Run) (_ : Nat) : Run := (upTo 0 g.nodes.length).foldl skip r
  (upTo 0 g.nodes.length).foldl pass r
/-- Work of a run is under way: a kernel or copy node runs, or one of an earlier iteration does. -/
def runBusy (s : State) (key : Nat) (r : Run) (g : Graph) : Bool :=
  r.orphans != [] || (s.grids.any fun e => e.2.func * 64 + e.2.graph == key) ||
  (upTo 0 g.nodes.length).any fun i => r.at i == .running && ((g.nodes[i]?).map fun x => decide (x.kind < 2)).getD false
/-- The run has ended (R92, R93, R103): every node outside the bodies is resolved, or nothing more may start, and nothing of the run is under
way that its release must cover. (DEDUCED, log 37) -/
def runOver (s : State) (key : Nat) (r : Run) (g : Graph) : Bool :=
  !runBusy s key r g && (!r.open || (upTo 0 g.nodes.length).all fun i => r.done i || (inBodies g.nodes).contains i)
/-- The run-end record (R102, R106). (DESIGN CHOICE, log 37) -/
def runEnd (r : Run) : Record :=
  let status := if r.stopped then 9 else if r.open then 0 else 10
  let flag (b : Bool) (n : Nat) : Nat := if b then 2 ^ n else 0
  { tag := r.tag, opcode := 3, status := status, kind := 2, slot := r.slot,
    info0 := r.failNode + r.failCause % 512 * 2 ^ 16 + flag r.capped 32 + flag r.stopped 33 + flag r.dieLost 34 + flag r.notFit 35, info1 := r.lost, vec := r.vec }
/-- Commands of a function that wait on an object at a stage are answered. -/
def answerWaits (s : State) (fn op what : Nat) : State :=
  let ws := (funcAt s fn).waiting.filter fun w => w.opcode == op && w.what == what
  let s := modFunc s fn fun x => { x with waiting := x.waiting.filter fun w => !(w.opcode == op && w.what == what) }
  ws.foldl (fun t w => pushRecord t fn ⟨w.tag, w.opcode, 0, 0, w.slot, 0, 0, w.vec⟩) s
/-- Runs settle: nodes are skipped, and an ended run makes its system-scope release and owes its record, then a stop's (R102, R103). -/
def settleRuns (s : State) : State :=
  s.runs.foldl (fun t e =>
    match t.graphs.get? e.1 with
    | none => t
    | some g =>
      let r := skipNodes g e.2
      if runOver t e.1 r g then
        let f := e.1 / 64
        let t := flushHostNow { t with runs := t.runs.del e.1 } (((funcAt t f).dom).getD 64)
        answerWaits (pushRecord t f (runEnd r)) f 4 e.1
      else { t with runs := t.runs.put e.1 r }) s

end Sys2Proof.Machine
end

