-- ==== Sys2Proof/Machine/Message.lean ====
section
/-!
DEFINITION. Messages: msend, mrecv, mprobe (R390 to R397) and the arrival of a message at its slot.
-/
namespace Sys2Proof.Machine

/-- The module number of the record in force (R108). -/
def moduleNo (s : State) : Nat := (s.record.map (·.modl)).getD 0
/-- A module can be reached: this one, or one toward which a live link of the record's link table leads (R398). -/
def moduleReached (s : State) (m : Nat) : Bool :=
  m == moduleNo s || (upTo 0 24).any fun l => ((s.record.map fun (r : ConfigRecord) => r.links.getD m 0).getD 0).testBit l && !s.linksDown.contains l
/-- The live links toward a module, in increasing number (R398). -/
def liveLinks (s : State) (m : Nat) : List Nat :=
  (upTo 0 24).filter fun l => ((s.record.map fun (r : ConfigRecord) => r.links.getD m 0).getD 0).testBit l && !s.linksDown.contains l
/-- The link of a flow: number flow mod n among the n live links toward its module, `flow` being source core + destination core (R398). -/
def flowLink (s : State) (m flow : Nat) : Option Nat := (liveLinks s m)[flow % (liveLinks s m).length]?
/-- A flit is sent on its flow's link, under the next sequence number of its class, and is kept for a resend; the flit whose number comes again
has been acknowledged, a sequence having 8 bits. With no live link it is lost (R398). (DESIGN CHOICE, log 29) -/
def sendFlit (s : State) (f : SentFlit) : State :=
  match flowLink s f.dest f.flow with
  | none => s
  | some l =>
    let n := (s.linkTxSeq.get? (l * 8 + f.cls)).getD 0
    { s with linkTxSeq := s.linkTxSeq.put (l * 8 + f.cls) ((n + 1) % 256)
             linkTx := (s.linkTx.filter fun g => !(g.link == l && g.cls == f.cls && g.seq == n)) ++ [{ f with link := l, seq := n }] }
/-- The 64 bytes of a flit (Table 19-7). -/
def flitBytes (f : SentFlit) : List Byte :=
  let b := leBytes 2 (f.cls * 2 ^ 13 + f.dest * 2 ^ 9 + (if f.last then 256 else 0) + f.seq) ++ (f.payload ++ List.replicate (60 - f.payload.length) 0)
  b ++ leBytes 2 (Config.crc16 b).toNat
/-- A packet leaves in flits of 60 payload bytes, the last one marked; `fuel` is more than their number. -/
def sendPacket (cls dest flow : Nat) : Nat → List Byte → State → State
  | 0, _, s => s
  | n + 1, bs, s =>
    let s := sendFlit s { link := 0, cls := cls, dest := dest, flow := flow, last := decide (bs.length ≤ 60), seq := 0, payload := bs.take 60 }
    if bs.length ≤ 60 then s else sendPacket cls dest flow n (bs.drop 60) s
/-- A message for another module leaves as a packet of class 3 on its flow's link. -/
def sendMsg (s : State) (m : Msg) : State :=
  if m.modl = moduleNo s then s
  else
    let bs := Config.messagePacket m.source m.dom m.core m.tag m.payload
    sendPacket 3 m.modl (m.source % 256 + m.core) (bs.length + 1) bs s
/-- The domain holds a slot on the core (R128). -/
def holdsSlot (s : State) (core dom : Nat) : Bool := (upTo 0 8).any fun k => slotHolds (slotAt s core k) dom
/-- The core lies in the function's unit set. -/
def inUnitSet (s : State) (f core : Nat) : Bool := ownsCore s f core || s.loans.get? core == some f
/-- A receive or probe matches an arrival (R392). -/
def msgMatches (tag mask : Word) (sel : Nat) (atag : Word) (src : Nat) : Bool := (atag ^^^ tag) &&& mask == 0 && (sel == 0xFFFF || sel == src)
/-- The word form of a message (Table 19-5). -/
def wordForm (tag : Word) (src len : Nat) (trunc : Bool) : Nat :=
  2 ^ 63 + (if trunc then 2 ^ 62 else 0) + len * 2 ^ 48 + src * 2 ^ 32 + tag.toNat
/-- Checks that a range leads somewhere, in 64-byte pieces; late as in `engPlace`. A read, and a delivery that writes less than a whole
line, meets poison (R465). -/
def rangeFail (s : State) (dom tid : Nat) (gate : Bool) (va n : Nat) (write : Bool) (late : Nat) : Option AccFail :=
  (cuts 64 (va, n)).findSome? fun r => match engPlace s dom gate r.1 write late with
    | .error f => some f
    | .ok (.mem pa _) =>
      if poisoned s pa && !write then some ⟨20, 0, r.1 / 64 * 64⟩
      else if poisoned s pa && late == 0 && decide (r.2 < 64) then some ⟨20, 3, r.1 / 64 * 64⟩
      else none
    | .ok (.spm off) =>
      if (late == 1 || !write) && decide (teamBytes s tid < off + r.2) then some ⟨9, 0, r.1⟩
      else if write then none else (teamPoison s tid off r.2).map fun b => ⟨20, 1, b⟩

/-- A range has a byte in host memory. -/
def rangeHost (s : State) (dom : Nat) (gate : Bool) (va n : Nat) (write : Bool) : Bool :=
  (cuts 64 (va, n)).any fun r => match engPlace s dom gate r.1 write 0 with
    | .ok (.mem pa _) => isHost pa
    | _ => false
/-- The PCI Express transaction of a range in host memory may fail (R281; DESIGN CHOICE, log 51). -/
def rangeFails (s : State) (dom : Nat) (gate : Bool) (va n : Nat) (write : Bool) : Bool × State :=
  if rangeHost s dom gate va n write then takeBit s else (false, s)
/-- The lines of a range are reached at their home slices, by the message class (R277). -/
def rangeTouch (dom : Nat) (gate : Bool) (va n : Nat) (write : Bool) (s : State) : State :=
  (cuts 64 (va, n)).foldl (fun t r => match engPlace t dom gate r.1 write 0 with
    | .ok (.mem pa p) => touch t 2 0 p.tag (pa / 64) write
    | _ => t) s

/-! ### msend (R393) -/

/-- The parameter block is in range (Table 19-4). -/
def msendBad (p3 : Nat) : Bool := decide (2 ^ 21 ≤ p3) || decide (256 < bits p3 20 12)
/-- The team that an MSG word's scratchpad addresses name: none inside a gate. -/
def Ctx.msgTeam (x : Ctx) : Nat := if x.g.gate.isSome then 0 else x.g.team
/-- The checks of `msend` on its block. -/
def msendFail (x : Ctx) (d l : Nat) : Option FaultInfo :=
  if msendBad (vreg x.rs (x.lk l) (d + 3)).toNat then some (x.fi 1 2) else none
/-- The message that one execution sends, its payload read at the homes; or the fault of the read. -/
def msendOne (x : Ctx) (d a : Nat) (s : State) (e : Nat × BitVec 64) : State :=
  let k := x.lk e.1
  let va := (vpair x.rs k d).toNat
  let p3 := (vreg x.rs k (d + 3)).toNat
  let n := bits p3 20 12
  match rangeFail s x.g.stamp x.msgTeam x.g.gate.isSome va n false 0 with
  | some f => x.raiseAll s e.2 (x.fi f.cls f.detail f.addr (engInfo 0 (accSize n false) f))
  | none =>
    let o : EngOp :=
      { kind := 0, gid := x.gid, core := x.g.core, team := x.msgTeam, grid := none, func := x.g.func, dom := x.g.stamp, lane := k, tok := x.tok,
        params := [], cwVal := 0, cw := false, tg := false, scope := 0 }
    let h := rangeFails s x.g.stamp x.g.gate.isSome va n false
    match (if h.1 then .error ⟨8, 3, va⟩ else engRead s o 8 va n) with
    | .error f => x.raiseAll h.2 e.2 (x.fi f.cls f.detail f.addr (engInfo 0 (accSize n false) f))
    | .ok bs =>
      let s := rangeTouch x.g.stamp x.g.gate.isSome va n false h.2
      let m : Msg :=
        { dom := x.g.stamp, func := x.g.func, source := moduleNo s * 256 + x.g.core, tag := vreg x.rs k (d + 2), payload := bs, core := bits p3 7 0,
          modl := bits p3 11 8, gid := x.gid, lanes := e.2, reg := a, tok := x.tok }
      sendMsg { (fresh s).2 with msgs := s.msgs.put (fresh s).1 m } m
/-- A payload line that an engine still owns is recalled first (R284). -/
def msendWaits (x : Ctx) (d : Nat) (s : State) : Bool :=
  x.acts.any fun e => domOwned s x.g.stamp (vpair x.rs (x.lk e.1) d).toNat (bits (vreg x.rs (x.lk e.1) (d + 3)).toNat 20 12)
/-- msend (R393): checks, the release at scope K, then the payload read and the sending in increasing lane order. -/
def execMsend (q : Qual) (d a : BitVec 6) (slot : BitVec 3) (k : BitVec 2) (s : State) : Out :=
  runWord (.msend q d a slot k) (fun x t =>
    let r := x.sift t (msendFail x d.toNat)
    if r.1.go = 0 then r.2
    else if msendWaits r.1 d.toNat r.2 then r.1.wait r.2
    else r.1.releasing r.2 k.toNat fun u => r.1.acts.foldl (msendOne x d.toNat a.toNat) u) s

/-! ### Delivery (R394) -/

/-- A delivered message fills the buffer, releases, writes the word form and posts the ready tag; a buffer that can no longer be
written gives the failure value and a detached fault. -/
def deliver (s : State) (r : Recv) (tag : Word) (src : Nat) (payload : List Byte) : State :=
  let n := min payload.length r.greatest
  let put (v : Nat) (s : State) : State :=
    let s := teamPut s r.team r.cwOff (leBytes 8 v)
    if r.post then sendPost s r.dom r.func r.ready 1 (r.scope == 3) else s
  let h := rangeFails s r.dom false r.addr n true
  let s := h.2
  match (if h.1 then some ⟨8, 3, r.addr⟩ else rangeFail s r.dom r.team false r.addr n true 0) with
  | some f =>
    let cause := causeOf f.cls 3 f.detail
    detachedFault (put (0xFFFFFFFF * 2 ^ 32 + cause) s) r.dom { cause := cause, addr := f.addr, info := engInfo r.cwOff (accSize n true) f } r.core
  | none =>
    let o : EngOp :=
      { kind := 0, gid := 0, core := r.core, team := r.team, grid := none, func := r.func, dom := r.dom, lane := 0, tok := 0,
        params := [BitVec.ofNat 32 0, 0, BitVec.ofNat 32 r.addr, BitVec.ofNat 32 (r.addr / 2 ^ 32), BitVec.ofNat 32 n, 2], cwVal := 0,
        cw := false, tg := false, scope := r.scope }
    let s := rangeTouch r.dom false r.addr n true (((upTo r.addr n).zip payload).foldl (fun t e => putByte o t e.1 e.2) s)
    let whole := (cuts 64 (r.addr, n)).filterMap fun c => match engPlace s r.dom false c.1 true 1 with
      | .ok (.mem pa _) => if c.2 = 64 then some (pa / 64) else none
      | _ => none
    let s := { s with poison := s.poison.filter fun l => !whole.contains l }
    put (wordForm tag src payload.length (decide (r.greatest < payload.length))) (scopeFlush s o)

/-! ### mrecv (R394) -/

/-- The checks of `mrecv` on its block, its buffer as an engine destination and its completion word. -/
def mrecvFail (x : Ctx) (s : State) (d l : Nat) : Option FaultInfo :=
  let k := x.lk l
  let p (i : Nat) : Nat := (vreg x.rs k (d + i)).toNat
  let off := p 5 % 2 ^ 21
  if 2 ^ 25 ≤ p 4 ∨ 256 < bits (p 4) 24 16 ∨ bits (p 5) 30 21 ≠ 0 ∨ off % 8 ≠ 0 ∨ (!bitAt (p 5) 31 ∧ p 6 ≠ 0) ∨ p 7 ≠ 0 then some (x.fi 1 2)
  else if teamBytes s x.g.team < off + 8 then some (x.fi 9 0 (Config.spmWindow + off) (accSize 8 true))
  else (rangeFail s x.g.stamp x.g.team false (vpair x.rs k d).toNat (bits (p 4) 24 16) true 1).map fun f =>
    x.fi f.cls f.detail f.addr (engInfo off (accSize (bits (p 4) 24 16) true) f)
/-- The receive that a block describes. -/
def recvOf (x : Ctx) (s : State) (d scope k : Nat) : Recv :=
  let p (i : Nat) : Nat := (vreg x.rs k (d + i)).toNat
  let va := (vpair x.rs k d).toNat
  let n := bits (p 4) 24 16
  let ars := dedup ((cuts 64 (va, n)).filterMap fun r => match engPlace s x.g.stamp false r.1 true 1 with
    | .ok (.mem _ pg) => some pg.arena
    | _ => none)
  { core := x.g.core, dom := x.g.stamp, func := x.g.func, team := x.g.team, grid := (teamOf? s x.g).bind (·.grid), addr := va,
    tag := vreg x.rs k (d + 2), mask := vreg x.rs k (d + 3), sel := p 4 % 2 ^ 16, greatest := n, cwOff := p 5 % 2 ^ 21, post := bitAt (p 5) 31,
    ready := vreg x.rs k (d + 6), scope := scope, arenas := ars }
/-- One `mrecv`: the oldest matching arrival is delivered, or the receive is posted, or the table is full. -/
def mrecvOne (x : Ctx) (d a scope : Nat) (s : State) (e : Nat × BitVec 64) : State :=
  let r := recvOf x s d scope (x.lk e.1)
  let give (s : State) (v : Word) : State := x.send s (x.spread e.2 [(a, v)])
  match s.queues.find? fun q => q.2.core == r.core && q.2.dom == r.dom && msgMatches r.tag r.mask r.sel q.2.tag q.2.source with
  | some (i, q) => give (deliver { s with queues := s.queues.del i } r q.tag q.source q.payload) 1
  | none =>
    if Config.receives ≤ (s.recvs.filter fun t => t.2.core == r.core && t.2.dom == r.dom).length then give s 2
    else give { (fresh s).2 with recvs := s.recvs.put (fresh s).1 r } 0
/-- mrecv (R394). -/
def execMrecv (q : Qual) (d a : BitVec 6) (slot : BitVec 3) (k : BitVec 2) (s : State) : Out :=
  runWord (.mrecv q d a slot k) (fun x t =>
    let r := x.sift t (mrecvFail x t d.toNat)
    r.1.acts.foldl (mrecvOne x d.toNat a.toNat k.toNat) r.2) s

/-! ### mprobe (R395) -/

/-- The checks of `mprobe` on its block. -/
def mprobeFail (x : Ctx) (d l : Nat) : Option FaultInfo :=
  if 2 ^ 16 ≤ (vreg x.rs (x.lk l) (d + 2)).toNat ∨ vreg x.rs (x.lk l) (d + 3) ≠ 0 then some (x.fi 1 2) else none
/-- What `mprobe` returns. -/
def probeValue (s : State) (core dom : Nat) (tag mask : Word) (sel : Nat) : Nat :=
  match s.queues.find? fun q => q.2.core == core && q.2.dom == dom && msgMatches tag mask sel q.2.tag q.2.source with
  | some (_, q) => wordForm q.tag q.source q.payload.length false
  | none => 0
/-- mprobe (R395): consumes nothing. -/
def execMprobe (q : Qual) (d a : BitVec 6) (slot : BitVec 3) (k : BitVec 2) (s : State) : Out :=
  runWord (.mprobe q d a slot k) (fun x t =>
    let r := x.sift t (mprobeFail x d.toNat)
    r.1.acts.foldl (fun u e =>
      let v (i : Nat) : Word := vreg x.rs (x.lk e.1) (d.toNat + i)
      x.send u (x.spread e.2 (pairWrites a.toNat (BitVec.ofNat 64 (probeValue u x.g.core x.g.stamp (v 0) (v 1) (v 2).toNat))))) r.2) s

/-! ### MESSAGE_ARRIVAL (R392, R393, R396) -/

/-- An earlier message of the same sender to the same core must arrive first (R386). -/
def msgBehind (s : State) (i : Nat) (m : Msg) : Bool :=
  s.msgs.any fun e => decide (e.1 < i) && e.2.source == m.source && e.2.core == m.core && e.2.modl == m.modl && e.2.dom == m.dom
/-- The status of an arrival and the state after it (Table 19-6). A module that can be reached answers for its own slots: any status.
(DESIGN CHOICE, log 29) -/
def arriveMsg (s : State) (m : Msg) : Nat × State :=
  if m.modl ≠ moduleNo s ∧ moduleReached s m.modl then takeNat s 4
  else if m.modl ≠ moduleNo s ∨ !inUnitSet s m.func m.core ∨ !holdsSlot s m.core m.dom then (3, s)
  else match s.recvs.find? fun r => r.2.core == m.core && r.2.dom == m.dom && msgMatches r.2.tag r.2.mask r.2.sel m.tag m.source with
    | some (i, r) => (0, deliver { s with recvs := s.recvs.del i } r m.tag m.source m.payload)
    | none =>
      if Config.overflowEntries ≤ (s.queues.filter fun q => q.2.core == m.core && q.2.dom == m.dom).length then
        (2, detachedFault s m.dom { cause := causeOf 15 3 0, info := m.source + m.payload.length * 2 ^ 16 + m.tag.toNat * 2 ^ 32 } m.core)
      else (1, { (fresh s).2 with queues := s.queues.put (fresh s).1 ⟨m.core, m.dom, m.source, m.tag, m.payload⟩ })
/-- The function of a domain. -/
def funcNoOf (s : State) (dom : Nat) : Nat := ((s.funcs.find? fun e => e.2.dom == some dom).map (·.1)).getD 64
/-- A message that another module's core sent, as its slot finds it: the oldest whole packet of the links holds it, in a layout that the
event's parameters stand for. (DESIGN CHOICE, log 29) -/
def linkedMsg (s : State) (source dom core : Nat) (tag : Word) (payload : List Byte) : Msg :=
  { dom := dom, func := funcNoOf s dom, source := source, tag := tag, payload := payload, core := core, modl := moduleNo s, gid := 0, lanes := 0, reg := 0, tok := 0 }
/-- MESSAGE_ARRIVAL: the slot decides, and the status leaves for the sender's register, which may be another module's. -/
def execMessageArrival (msg : MessageRef) (s : State) : Out :=
  match msg with
  | .sent i =>
    match s.msgs.get? i with
    | none => .refused (.notEnabled "MESSAGE_ARRIVAL")
    | some m =>
      if msgBehind s i m then .refused (.notEnabled "MESSAGE_ARRIVAL")
      else
        let r := arriveMsg { s with msgs := s.msgs.del i } m
        let res : Result := { tok := m.tok, gid := m.gid, regs := (lanesOf m.lanes).map fun l => (lk m.gid l, m.reg, BitVec.ofNat 32 r.1), major := 0x2C }
        .next { (fresh r.2).2 with results := r.2.results.put (fresh r.2).1 res }
  | .linked source dom core tag payload =>
    if !s.up ∨ 4096 ≤ source ∨ source / 256 = moduleNo s ∨ !moduleReached s (source / 256) ∨ 256 ≤ core ∨ 256 < payload.length then
      .refused (.notEnabled "MESSAGE_ARRIVAL")
    else match s.linkMsgs with
      | [] => .refused (.notEnabled "MESSAGE_ARRIVAL")
      | _ :: rest => .next (arriveMsg { s with linkMsgs := rest } (linkedMsg s source dom core tag payload)).2

end Sys2Proof.Machine
end

