-- ==== Sys2Proof/Machine/Retire.lean ====
section
/-!
DEFINITION. Retirement (R451 to R458): the resources of a retired team, and grid completion.
-/
namespace Sys2Proof.Machine

/-- No X-format operation of a team is in flight and nothing accepted still writes its scratchpad (R452). -/
def teamIdle (s : State) (tid : Nat) : Bool := !(s.mops.any fun e => e.2.team == tid) && !targeted s tid
/-- A team leaves the tables with its groups. -/
def deleteTeam (s : State) (tid : Nat) : State :=
  match s.teams.get? tid with
  | some t => { t.groups.foldl (fun u g => { removeGroup u g with board := u.board.filter fun p => p.gid != g }) s with teams := s.teams.del tid }
  | none => s
/-- TEAM_RESOURCES_FREE (R452). -/
def execTeamResourcesFree (team : Nat) (s : State) : Out :=
  match s.teams.get? team with
  | some t =>
    if !t.retired ∨ !teamIdle s team ∨ (t.banks = [] ∧ t.tbase = [] ∧ t.grid.isSome) then .refused (.notEnabled "TEAM_RESOURCES_FREE")
    else
      let s := freeTeam s team
      .next (if t.grid.isNone then deleteTeam s team else s)
  | none => .refused (.notEnabled "TEAM_RESOURCES_FREE")

/-- The groups of a grid's teams. -/
def gridGroups (s : State) (g : Grid) : List Nat := g.placedTeams.flatMap fun t => ((s.teams.get? t).map (·.groups)).getD []
/-- Every team of a grid has been granted and has retired, or counts as lost; an aborted or abandoned grid starts no more (R103, R108). -/
def teamsOver (s : State) (g : Grid) : Bool :=
  g.placedTeams.all (fun t => ((s.teams.get? t).map (·.retired)).getD true) &&
  (g.aborted || decide (g.teams ≤ g.placedTeams.length + g.lostTeams))
/-- A result that Table 27-1 waits for: a load's, an atomic's, or that of an ARENA or MSG word; a word of major 0x12 or 0x17 is none of them. -/
def awaitedResult (major : Nat) : Bool := major != 0x12 && major != 0x17
/-- Every access and operation of the grid's lanes has completed (Table 27-1): of the X-format operations, those that access memory. -/
def gridDrained (s : State) (id : Nat) (gs : List Nat) : Bool :=
  !(s.acc.any fun e => gs.contains e.2.gid && e.2.lane != noLane) && !(s.atoms.any fun e => e.2.ops.any fun o => gs.contains o.gid) &&
  !(s.mops.any fun e => gs.contains e.2.gid && isMove e.2.word) && !(s.engs.any fun e => e.2.grid == some id) && !(s.msgs.any fun e => gs.contains e.2.gid) &&
  !(s.seals.any fun e => gs.contains e.2.gid) && !(s.drops.any fun e => gs.contains e.2.gid) && !(s.results.any fun e => gs.contains e.2.gid && awaitedResult e.2.major) &&
  !(s.recvs.any fun e => e.2.grid == some id)
/-- The dirty bytes of the grid's pairs can merge now (R284). -/
def gridFlushable (s : State) (g : Grid) : Bool := g.pairs.all fun p => flushReady s p g.dom
/-- The release of a grid at its completion (R454). -/
def gridRelease (s : State) (g : Grid) : State := flushHostNow (g.pairs.foldl (fun t p => flushNow t p g.dom) s) g.dom
/-- The trace record of a completion (R458); an aborted grid ends by another event (R457). -/
def gridTrace (s : State) (g : Grid) (created : Nat) : State :=
  if (funcAt s g.func).traceMask % 2 = 0 ∨ g.aborted then s
  else trace s g.func 1 (g.leader * 64) g.dom (leBytes 2 g.graph ++ leBytes 2 g.node ++ leBytes 4 created ++ leBytes 4 g.lostGroups ++ leBytes 4 g.faulted)
/-- A team of a grid that is complete leaves the tables, or stays for as long as its banks and tiles are held (R452). -/
def leaveGrid (s : State) (tid : Nat) : State :=
  if teamIdle s tid then deleteTeam (freeTeam s tid) tid else modTeam s tid fun t => { t with grid := none }
/-- GRID_COMPLETION (R453 to R458): the release, the trace record, and the end of the grid's node. -/
def execGridCompletion (grid : Nat) (s : State) : Out :=
  match s.grids.get? grid with
  | some g =>
    let gs := gridGroups s g
    if !teamsOver s g ∨ !gridDrained s grid (gs ++ g.lostGids) ∨ !gridFlushable s g then .refused (.notEnabled "GRID_COMPLETION")
    else
      let s := gridTrace (gridRelease s g) g (gs.length + g.lostStarted)
      let s := g.placedTeams.foldl leaveGrid s
      let key := g.func * 64 + g.graph
      let s := modRun { s with grids := s.grids.del grid } key fun r => { r with lost := r.lost + g.lostGroups, dieLost := r.dieLost || g.dieLost }
      .next (if g.orphan then s else setNode s key g.node .completed)
  | none => .refused (.notEnabled "GRID_COMPLETION")

end Sys2Proof.Machine
end

