-- ==== Sys2Proof/Machine/Shake.lean ====
section
/-!
DEFINITION. SHAKE256, the function that R462 names for the digest of a configuration record. The manual uses it by name: its rounds, constants
and padding are those of FIPS 202. (PRESUMED, log 41)
-/
namespace Sys2Proof.Machine

/-- Lane (x, y) of a Keccak state of 25 lanes. -/
def kLane (a : List (BitVec 64)) (x y : Nat) : BitVec 64 := a.getD (x % 5 + 5 * (y % 5)) 0
/-- Rotation offset of lane x + 5 y. -/
def kOffsets : List Nat := [0, 1, 62, 28, 27, 36, 44, 6, 55, 20, 3, 10, 43, 25, 39, 41, 45, 15, 21, 8, 18, 2, 61, 56, 14]
/-- Round constants. -/
def kConstants : List (BitVec 64) :=
  [0x0000000000000001, 0x0000000000008082, 0x800000000000808A, 0x8000000080008000, 0x000000000000808B, 0x0000000080000001,
   0x8000000080008081, 0x8000000000008009, 0x000000000000008A, 0x0000000000000088, 0x0000000080008009, 0x000000008000000A] ++
  [0x000000008000808B, 0x800000000000008B, 0x8000000000008089, 0x8000000000008003, 0x8000000000008002, 0x8000000000000080,
   0x000000000000800A, 0x800000008000000A, 0x8000000080008081, 0x8000000000008080, 0x0000000080000001, 0x8000000080008008]
/-- Step theta: every lane takes the parities of two neighbouring columns. -/
def kTheta (a : List (BitVec 64)) : List (BitVec 64) :=
  let c := (upTo 0 5).map fun x => (upTo 0 5).foldl (fun v y => v ^^^ kLane a x y) 0
  (upTo 0 25).map fun i => a.getD i 0 ^^^ c.getD ((i + 4) % 5) 0 ^^^ (c.getD ((i + 1) % 5) 0).rotateLeft 1
/-- Steps rho and pi: lanes are rotated and moved. -/
def kRhoPi (a : List (BitVec 64)) : List (BitVec 64) :=
  (upTo 0 25).map fun i =>
    let j := (i % 5 + 3 * (i / 5)) % 5 + 5 * (i % 5)
    (a.getD j 0).rotateLeft (kOffsets.getD j 0)
/-- Step chi, the one that is not linear. -/
def kChi (a : List (BitVec 64)) : List (BitVec 64) :=
  (upTo 0 25).map fun i => a.getD i 0 ^^^ (~~~(kLane a (i + 1) (i / 5)) &&& kLane a (i + 2) (i / 5))
/-- One round, with step iota's constant. -/
def kRound (a : List (BitVec 64)) (c : BitVec 64) : List (BitVec 64) :=
  match kChi (kRhoPi (kTheta a)) with
  | h :: t => (h ^^^ c) :: t
  | [] => []
/-- The permutation of 24 rounds. -/
def keccak (a : List (BitVec 64)) : List (BitVec 64) := kConstants.foldl kRound a
/-- Bytes of a block in a SHAKE256 state. -/
def shakeRate : Nat := 136
/-- Blocks of a padded input, absorbed one after another; `n` is at least their number. -/
def absorb : Nat → List Byte → List (BitVec 64) → List (BitVec 64)
  | 0, _, a => a
  | n + 1, bs, a =>
    if bs = [] then a
    else absorb n (bs.drop shakeRate) (keccak ((upTo 0 25).map fun i => a.getD i 0 ^^^ BitVec.ofNat 64 (leNat (((bs.take shakeRate).drop (8 * i)).take 8))))
/-- The padded input: its suffix bits 1111, then a one, zeros and a one, to whole blocks. -/
def shakePad (bs : List Byte) : List Byte :=
  let n := shakeRate - bs.length % shakeRate
  bs ++ (if n = 1 then [0x9F] else [0x1F] ++ List.replicate (n - 2) 0 ++ [0x80])
/-- The 64-byte SHAKE256 digest of a byte string: it lies within the first block squeezed (R462). -/
def shakeDigest (bs : List Byte) : List Byte :=
  let p := shakePad bs
  (absorb (p.length / shakeRate) p (List.replicate 25 0)).flatMap (fun v => leBytes 8 v.toNat) |>.take 64

end Sys2Proof.Machine
end

