-- ==== Sys2Proof/Machine/Module.lean ====
section
/-!
DEFINITION. The module: bring-up under a signed record (R460, R461), attestation and the sideband bus (R462, R468), power and heat (R463,
R464), scrubbing and slice maps (R387 to R389, R465, R466), dies that fail (R108), Poldom links (R398) and host links (R99).
-/
namespace Sys2Proof.Machine

/-! ### The configuration record (R460, Table 28-1) -/

/-- A copy of the record is valid against the highest counter accepted before. -/
def copyValid (ctr : Nat) (b : List Byte) : Bool :=
  b.length == 0xE00 && fAt b 0 4 == 0x5243534B && Config.signatureOk b && decide (ctr ≤ fAt b 4 4) && decide (fAt b 8 1 ≤ 15) &&
    decide (128 ≤ fAt b 10 2) && decide (fAt b 10 2 ≤ 4096) && decide (1000 ≤ fAt b 12 4) && decide (fAt b 12 4 ≤ 2800) && zeroAt b [(0x420, 992)]
/-- The record that a copy holds. -/
def recordOf (b : List Byte) : ConfigRecord :=
  { counter := fAt b 4 4, modl := fAt b 8 1, fairness := fAt b 10 2, power := fAt b 12 4, retired := BitVec.ofNat 128 (fAt b 16 16),
    links := (upTo 0 16).map (fun m => fAt b (0x20 + 64 * m) 4), bytes := b }
/-- The copy that Jasper uses: the valid one with the higher counter. -/
def chooseRecord (s : State) : Option ConfigRecord :=
  let cs := [s.flashA, s.flashB].filter (copyValid s.flashCtr)
  cs.foldl (fun (m : Option ConfigRecord) b => match m with
    | some r => if r.counter < fAt b 4 4 then some (recordOf b) else m
    | none => some (recordOf b)) none

/-! ### Slice maps (R387 to R389) -/

/-- The map of a die. -/
def smapAt (s : State) (die : Nat) : SliceMap := (s.smap.get? die).getD { map := upTo 0 32 }
/-- A live slice of a slice's quadrant, the lowest-numbered. -/
def quadMate (m : SliceMap) (slice : Nat) : Option Nat :=
  (upTo (slice / 8 * 8) 8).find? fun k => k != slice && !m.retired.contains k
/-- The map without a slice: every entry that names it is repointed (R387). -/
def retireSlice (m : SliceMap) (slice : Nat) : Option SliceMap :=
  if m.retired.contains slice then none
  else (quadMate m slice).map fun k =>
    { m with map := m.map.map fun x => if x = slice then k else x, epoch := m.epoch + 1, retired := m.retired ++ [slice], stubs := m.stubs ++ [slice] }
/-- The map with a slice returned: its own entry points back to it. -/
def returnSlice (m : SliceMap) (slice : Nat) : SliceMap :=
  { m with map := setAt m.map slice slice, epoch := m.epoch + 1, retired := m.retired.filter (· != slice) }
/-- The errors of a slice within the last second (R466). -/
def recentErrors (s : State) (key : Nat) : List Nat := ((s.softErr.get? key).getD []).filter fun t => decide (s.wall < t + ticksOfUs 1000000)
/-- A line that a new map homes elsewhere is handed over with its state; a replica is discarded (R279, R388). -/
def handOver (die : Nat) (s : State) (e : Nat × SliceLine) : State :=
  let h := sliceHome s (e.2.line * 64)
  if e.1 / 65536 = homeNo h ∨ (h.1 ≠ die ∧ e.1 / 65536 / 32 ≠ die) then s
  else
    let s := { s with slices := s.slices.del e.1 }
    if e.2.state = .replica then s
    else
      let w := freeWay s (homeNo h) e.2.line
      { w.2 with slices := w.2.slices.put (setKey (homeNo h) e.2.line + w.1) e.2 }
/-- A new map takes effect on a die, and the lines that it moves go to their new homes (R387, R388). -/
def installMap (s : State) (die : Nat) (m : SliceMap) : State := s.slices.foldl (handOver die) { s with smap := s.smap.put die m }
/-- SLICE_MAP_INSTALL (R387, R466): a slice that met three errors within 1 s is retired, or one that errors did not retire is returned once
its stub has gone. -/
def execSliceMapInstall (die slice : Nat) (retire : Bool) (s : State) : Out :=
  let m := smapAt s die
  if Config.dies ≤ die ∨ 32 ≤ slice ∨ !s.up then .refused (.notEnabled "SLICE_MAP_INSTALL")
  else if retire then
    match retireSlice m slice with
    | some m' => if (recentErrors s (die * 32 + slice)).length < 3 then .refused (.notEnabled "SLICE_MAP_INSTALL")
      else .next (installMap s die { m' with failed := slice :: m'.failed })
    | none => .refused (.notEnabled "SLICE_MAP_INSTALL")
  else if !m.retired.contains slice ∨ m.failed.contains slice ∨ m.stubs.contains slice ∨ ((s.record.map fun r => r.retired.getLsbD (32 * die + slice)).getD false) then
    .refused (.notEnabled "SLICE_MAP_INSTALL")
  else .next (installMap s die (returnSlice m slice))
/-- A request of an older epoch than the die's map is still on its way to a home of the die (R387, R389). -/
def dieRequests (s : State) (die : Nat) : Bool :=
  let old (pa epoch : Nat) : Bool := (sliceHome s pa).1 == die && decide (epoch < (smapAt s die).epoch)
  (s.acc.any fun e => old e.2.pa e.2.epoch) || (s.atoms.any fun e => !e.2.inSpm && old e.2.pa e.2.epoch)
/-- FORWARDING_STUB_RETIRE (R389). -/
def execForwardingStubRetire (die slice : Nat) (s : State) : Out :=
  let m := smapAt s die
  if !m.stubs.contains slice ∨ dieRequests s die then .refused (.notEnabled "FORWARDING_STUB_RETIRE")
  else .next { s with smap := s.smap.put die { m with stubs := m.stubs.filter (· != slice) } }
/-- A list with a number in it. -/
def addOnce (n : Nat) (l : List Nat) : List Nat := if l.contains n then l else n :: l
/-- BACKGROUND_SCRUB (R465, R466): a vault or far-memory line is read and rewritten, in its turn at the home. A single-bit error is traced; an uncorrectable one
poisons the line, and the slice that met three within 1 s is retired. An error elsewhere poisons a register, a byte, a tile or a
translation entry. (DESIGN CHOICE, log 41) -/
def execBackgroundScrub (line : Nat) (found : SoftError) (s : State) : Out :=
  let pa := line * 64
  if !s.up ∨ Config.paVaultEnd ≤ pa ∨ engineOwned s line then .refused (.notEnabled "BACKGROUND_SCRUB")
  else match found with
    | .none => .next s
    | .singleBit => .next (trace s 0 2 0xFFFF 0 (leBytes 8 pa))
    | .register lane reg =>
      if !laneLive s lane ∨ 64 ≤ reg then .refused (.notEnabled "BACKGROUND_SCRUB") else .next { s with poisonRegs := addOnce (lane * 128 + reg) s.poisonRegs }
    | .scratchpad byte =>
      if Config.cores * 2 ^ 20 ≤ byte then .refused (.notEnabled "BACKGROUND_SCRUB") else .next { s with poisonSpm := addOnce byte s.poisonSpm }
    | .tile t =>
      if Config.cores * 4096 ≤ t then .refused (.notEnabled "BACKGROUND_SCRUB") else .next { s with poisonTiles := addOnce t s.poisonTiles }
    | .entry dom va =>
      if (s.pages.get? (pageKey dom va)).isNone then .refused (.notEnabled "BACKGROUND_SCRUB")
      else .next { s with poisonPages := addOnce (pageKey dom va) s.poisonPages }
    | .uncorrectable =>
      let h := sliceHome s pa
      let key := h.1 * 32 + h.2
      let es := recentErrors s key ++ [s.wall]
      let s := { s with poison := addOnce line s.poison, softErr := s.softErr.put key es }
      .next (if es.length < 3 then s else match retireSlice (smapAt s h.1) h.2 with
        | some m => installMap s h.1 { m with failed := h.2 :: m.failed }
        | none => s)

/-! ### Dies that fail (R108) -/

/-- A group is lost with its die: its lanes end. A transaction whose commit point has not passed writes nothing at any home, for the commit point
and all its writes are one step, TXN_COMMIT (R380, log 16). -/
def loseGroup (s : State) (gid : Nat) : State :=
  match s.groups.get? gid with
  | none => s
  | some g => (lanesOf (liveMask s gid)).foldl (fun t l => endLane (leaveWaits t g (lk gid l)) (lk gid l)) s
/-- A team is lost with its die: its groups end and it leaves the tables. -/
def loseTeam (s : State) (tid : Nat) : State :=
  match s.teams.get? tid with
  | none => s
  | some t =>
    let n := t.groups.length
    let s := t.groups.foldl loseGroup s
    let s := { s with mops := s.mops.filter fun e => e.2.team != tid, recvs := s.recvs.filter fun e => e.2.team != tid }
    let s := deleteTeam s tid
    match t.grid with
    | some g => modGrid s g fun y =>
        { y with placedTeams := y.placedTeams.filter (· != tid), lostTeams := y.lostTeams + 1, lostGroups := y.lostGroups + n, lostStarted := y.lostStarted + n,
                 lostGids := y.lostGids ++ t.groups, dieLost := true }
    | none => s
/-- Team indices of a grid that were never started. -/
def neverStarted (g : Grid) : List Nat :=
  (g.grants.flatMap fun b => (upTo b.first b.count).filter fun i => !b.started.contains i) ++ g.again ++ upTo g.next (g.teams - g.next)
/-- A grid is abandoned: what was never started is lost (R108). -/
def abandon (g : Grid) : Grid :=
  let ixs := dedup (neverStarted g)
  { g with abandoned := true, dieLost := true, claims := [], grants := [], again := [], lostTeams := g.lostTeams + ixs.length,
           lostGroups := g.lostGroups + ixs.foldl (fun n i => n + teamGroups g i) 0 }
/-- A grid after die `d` has failed (Table 5-7): leadership moves, and what was granted to the die and not started is granted again. -/
def gridAfter (down : List Nat) (wall d : Nat) (g : Grid) : Grid :=
  let back := (g.grants.filter fun b => b.die == d).flatMap fun b => (upTo b.first b.count).filter fun i => !b.started.contains i
  let g := { g with claims := g.claims.filter (fun c => c.1 != d), again := g.again ++ back, grants := g.grants.filter fun b => b.die != d }
  let alive := g.dies.filter fun x => !down.contains x
  let tooSoon : Bool := match g.elected with
    | some t => decide (wall < t + ticksOfUs 2)
    | none => false
  if g.abandoned ∨ !g.dies.contains d then g
  else if alive = [] ∨ (g.leader = d ∧ tooSoon) then abandon g
  else if g.leader = d then
    { g with leader := g.deputy, deputy := ((alive.filter (· != g.deputy)).head?).getD g.deputy, next := g.mirror, elected := some wall }
  else if g.deputy = d then { g with deputy := ((alive.filter (· != g.leader)).head?).getD g.leader, elected := some wall }
  else g
/-- The teams that live on a die. -/
def teamsOnDie (s : State) (die : Nat) : List (Nat × Team) := s.teams.filter fun e => dieOf e.2.core == die && !e.2.retired && e.2.saved.isNone
/-- A die is declared failed: its teams, its caches and what its cores have under way go. A copy of a graph runs on, for it names no
core. (DESIGN CHOICE, log 40) -/
def failDie (s : State) (die : Nat) : State :=
  let s := { s with dieDown := s.dieDown ++ [die] }
  let ts := teamsOnDie s die
  let gids := ts.flatMap (·.2.groups)
  let s := (ts.map (·.1)).foldl loseTeam s
  let s := { s with
    l1 := s.l1.filter fun e => !(keyPair e.1 / 32 == die), acc := s.acc.filter fun e => !(e.2.pair / 32 == die),
    atoms := s.atoms.filter fun e => !(e.2.pair / 32 == die), engs := s.engs.filter fun e => e.2.node.isSome || !(dieOf e.2.core == die),
    msgs := s.msgs.filter fun e => !gids.contains e.2.gid }
  { s with grids := s.grids.map fun (e : Nat × Grid) => (e.1, gridAfter s.dieDown s.wall die e.2) }
/-- DIE_FAILURE (R108). -/
def execDieFailure (die : Nat) (s : State) : Out :=
  if Config.dies ≤ die ∨ s.dieDown.contains die ∨ !s.up then .refused (.notEnabled "DIE_FAILURE") else .next (failDie s die)

/-! ### Power and heat (R463, R464) -/

/-- A power share in mW under the record's limit (Table 1-3). -/
def shareLimit (s : State) (share : Nat) : Nat :=
  [1800000, 320000, 260000, 300000].getD share 0 * ((s.record.map (·.power)).getD 2800) / 2800
/-- Throttle steps of a share: 8 of 43.75 MHz for the compute dies, one for the others. -/
def maxLevel (share : Nat) : Nat := if share = 0 then 8 else 1
/-- Where a share of a die is kept; the links' share is the module's alone (Table 1-3). -/
def powerKey (share die : Nat) : Nat := if share = 3 then 12 else share * 4 + die
/-- Level of a share on a die. -/
def levelAt (s : State) (share die : Nat) : Nat := (s.throttle.get? (powerKey share die)).getD 0
/-- One step of throttling. -/
def throttleUp (s : State) (share die : Nat) : State :=
  let k := powerKey share die
  { s with throttle := s.throttle.put k (min (maxLevel share) (levelAt s share die + 1)), below := s.below.del k }
/-- What a share draws in the module, in mW: the sum over its dies (R463). -/
def powerSum (s : State) (share : Nat) : Nat := (upTo (4 * share) 4).foldl (fun n k => n + (s.power.get? k).getD 0) 0
/-- POWER_MEASUREMENT (R463): a die's part of a share, averaged over 1 ms, in mW. The whole share is compared with Table 1-3: over it the die is
throttled by one step, and a step is lifted after 1 ms below 90 %. (DESIGN CHOICE, log 41) -/
def execPowerMeasurement (share die milliwatts : Nat) (s : State) : Out :=
  if 3 < share ∨ Config.dies ≤ die ∨ !s.up then .refused (.notEnabled "POWER_MEASUREMENT")
  else
    let k := powerKey share die
    let lim := shareLimit s share
    let s := { s with power := s.power.put k milliwatts }
    let sum := powerSum s share
    if lim < sum then .next (throttleUp { s with below := s.below.filter fun e => e.1 / 4 != share } share die)
    else if lim * 9 ≤ sum * 10 then .next { s with below := s.below.filter fun e => e.1 / 4 != share }
    else match s.below.get? k with
      | none => .next { s with below := s.below.put k s.wall }
      | some t =>
        if t + ticksOfUs 1000 ≤ s.wall ∧ levelAt s share die ≠ 0 then
          .next { s with throttle := s.throttle.put k (levelAt s share die - 1), below := s.below.put k s.wall }
        else .next s
/-- THERMAL_LIMIT (R464): at 105 °C the die is throttled, at 120 °C it is stopped and declared failed. -/
def execThermalLimit (die celsius : Nat) (s : State) : Out :=
  if Config.dies ≤ die ∨ celsius < 105 ∨ !s.up ∨ s.dieDown.contains die then .refused (.notEnabled "THERMAL_LIMIT")
  else
    let s := { s with temps := s.temps.put die celsius }
    .next (if 120 ≤ celsius then failDie s die else throttleUp s 0 die)

/-! ### Links (R99, R398) -/

/-- Poldom links of a module. -/
def poldomLinks : Nat := 24
/-- A packet with a flit's payload added; the flit after a last one begins a new packet (Table 19-7). (DESIGN CHOICE, log 29) -/
def takeFlit (old : Option LinkPacket) (flit : List Byte) : LinkPacket :=
  let was := match old with
    | some p => if p.whole then [] else p.bytes
    | none => []
  { bytes := was ++ (flit.drop 2).take 60, whole := bitAt (fAt flit 0 2) 8 }
/-- A flit for another module goes on toward it. The flits of a packet take one flow's link; which flow, the packet says, in a layout that the
manual does not give. (DESIGN CHOICE, log 29) -/
def forwardFlit (s : State) (k : Nat) (flit : List Byte) : State :=
  let h := fAt flit 0 2
  let f := match s.linkFwd.get? k with
    | some n => (n, s)
    | none => takeNat s 512
  let t := sendFlit f.2 { link := 0, cls := bits h 15 13, dest := bits h 12 9, flow := f.1, last := bitAt h 8, seq := 0, payload := (flit.drop 2).take 60 }
  { t with linkFwd := if bitAt h 8 then t.linkFwd.del k else t.linkFwd.put k f.1 }
/-- A flit for this module joins its packet; a whole packet of class 3 waits for the slot that its message names. -/
def keepFlit (s : State) (k : Nat) (flit : List Byte) : State :=
  let p := takeFlit (s.linkRx.get? k) flit
  { s with linkRx := s.linkRx.put k p, linkMsgs := if p.whole && k % 8 == 3 then s.linkMsgs ++ [p.bytes] else s.linkMsgs }
/-- LINK_FLIT_RECEIVE (R398): a flit with a bad CRC, or out of sequence for its class, is discarded and comes again; any other is accepted, and is
this module's or goes on toward another. -/
def execLinkFlitReceive (link : Nat) (flit : List Byte) (s : State) : Out :=
  if poldomLinks ≤ link ∨ flit.length ≠ 64 ∨ s.linksDown.contains link ∨ !s.up then .refused (.notEnabled "LINK_FLIT_RECEIVE")
  else if Config.crc16 (flit.take 62) ≠ BitVec.ofNat 16 (fAt flit 62 2) then .next s
  else
    let k := link * 8 + bits (fAt flit 0 2) 15 13
    let want := (s.linkSeq.get? k).getD 0
    if fAt flit 0 1 ≠ want then .next s
    else
      let s := { s with linkSeq := s.linkSeq.put k ((want + 1) % 256) }
      .next (if bits (fAt flit 0 2) 12 9 = moduleNo s then keepFlit s k flit else forwardFlit s k flit)
/-- A flit of a link that went down leaves again on its flow's new link, unless its acknowledgement had come. (DESIGN CHOICE, log 29) -/
def resend (s : State) (f : SentFlit) : State :=
  let r := takeBit s
  if r.1 then r.2 else sendFlit r.2 f
/-- LINK_DOWN (R398): the unacknowledged flits of the link are sent again, in their order and before any later flit of their flows. -/
def execLinkDown (link : Nat) (s : State) : Out :=
  if poldomLinks ≤ link ∨ s.linksDown.contains link then .refused (.notEnabled "LINK_DOWN")
  else
    let mine := s.linkTx.filter fun f => f.link == link
    .next (mine.foldl resend { s with linksDown := s.linksDown ++ [link], linkTx := s.linkTx.filter fun f => f.link != link })
/-- HOST_LINK_DOWN (R99). -/
def execHostLinkDown (link : Nat) (s : State) : Out :=
  if 1 < link ∨ s.hostDown.contains link then .refused (.notEnabled "HOST_LINK_DOWN") else .next { s with hostDown := s.hostDown ++ [link] }
/-- HOST_LINK_UP (R99). -/
def execHostLinkUp (link : Nat) (s : State) : Out :=
  if !s.hostDown.contains link then .refused (.notEnabled "HOST_LINK_UP") else .next { s with hostDown := s.hostDown.filter (· != link) }

/-! ### The sideband bus and attestation (R462, R468) -/

/-- ALERT_N is low: a die is failed, a slice is retired, or a throttle is in force (R468). -/
def alertLow (s : State) : Bool := s.dieDown != [] || s.sramDown != [] || (s.smap.any fun e => e.2.retired != []) || s.throttle.any fun e => e.2 != 0
/-- SIDEBAND_READ (R468): what the bus returns. (DESIGN CHOICE, log 41) -/
def execSidebandRead (what : SidebandItem) (s : State) : Out :=
  let out : List Byte := match what with
    | .temperature d => leBytes 2 ((s.temps.get? d).getD (Config.sensor d s.wall))
    | .power k => leBytes 4 (powerSum s k)
    | .dieState d => leBytes 1 (if s.dieDown.contains d then 1 else 0)
    | .sliceState d k => leBytes 1 (if (smapAt s d).retired.contains k then 1 else 0)
    | .recordCounter => leBytes 4 ((s.record.map (·.counter)).getD 0)
  .next { s with sbOut := out }
/-- ATTESTATION_QUOTE (R462). -/
def execAttestationQuote (nonce : List Byte) (s : State) : Out :=
  match s.record with
  | some r =>
    if nonce.length ≠ 32 then .refused (.notEnabled "ATTESTATION_QUOTE")
    else
      let body := Config.romHash ++ shakeDigest r.bytes ++ leBytes 4 r.counter ++ leBytes 8 (nsNow s) ++ nonce
      .next { s with sbOut := body ++ Config.identitySign body }
  | none => .refused (.notEnabled "ATTESTATION_QUOTE")

/-! ### Bring-up (R461, R468) -/

/-- PWR_OK (R468). -/
def execPwrOk (s : State) : Out := if s.pwrOk then .refused (.notEnabled "PWR_OK") else .next { s with pwrOk := true }
/-- The outcomes of `n` die tests, each free (DESIGN CHOICE, log 1): the numbers that fail. (DESIGN CHOICE, log 40) -/
def testSome (n : Nat) (s : State) : List Nat × State :=
  (upTo 0 n).foldl (fun a d =>
    let r := takeBit a.2
    (if r.1 then a.1 ++ [d] else a.1, r.2)) ([], s)
/-- The die tests of bring-up (R461 step 2): the eight SRAM base dies, two under each compute die, then the compute dies. A compute die over a
failed base die has lost its vaults and takes no part either. (DEDUCED, log 40) -/
def testDies (s : State) : List Nat × State :=
  let a := testSome 8 s
  let b := testSome Config.dies { a.2 with sramDown := a.1 }
  ((upTo 0 Config.dies).filter fun d => b.1.contains d || a.1.any fun k => k / 2 == d, b.2)
/-- The steward's initial configuration (R461 step 4): one core and one channel of the lowest live die, shares on each live die. -/
def stewardStart (down : List Nat) : Func :=
  let live := (upTo 0 Config.dies).filter fun d => !down.contains d
  let d := live.headD 0
  { dom := some 0, cores := if live = [] then 0 else BitVec.ofNat 256 (2 ^ (d * 64)), channels := if live = [] then 0 else BitVec.ofNat 32 (2 ^ (d * 8)),
    blocks := (upTo 0 4).map fun k => if down.contains k then 0 else 8, bins := (upTo 0 4).map fun k => if down.contains k then 0 else 8,
    weight := 16, grace := Config.graceDefault }
/-- The slice map of a die at bring-up: the retired slices of the record left out. -/
def bringUpMap (r : ConfigRecord) (die : Nat) : SliceMap :=
  let m := (upTo 0 32).foldl (fun (m : SliceMap) k => if r.retired.getLsbD (32 * die + k) then (retireSlice m k).getD m else m) { map := upTo 0 32 }
  { m with epoch := 0, stubs := [] }
/-- What a module reset leaves: flash, links, supplies, host memory and far memory; vaults and headers are zeroed (R461 step 3).
(DESIGN CHOICE, log 5) -/
def afterReset (s : State) : State :=
  { State.reset with
    agenda := s.agenda, freeCtr := s.freeCtr, nextId := s.nextId, flashA := s.flashA, flashB := s.flashB, flashCtr := s.flashCtr, pwrOk := s.pwrOk,
    hostDown := s.hostDown, linksDown := s.linksDown, temps := s.temps, msix := s.msix, mem := Tab.clear s.mem Config.paVault (Config.paVaultEnd - Config.paVault) }
/-- MODULE_RESET (R460, R461): bring-up once the supplies are in range; with no valid record only function 0's page answers. -/
def execModuleReset (s : State) : Out :=
  if !s.pwrOk then .refused (.notEnabled "MODULE_RESET")
  else
    let t := afterReset s
    match chooseRecord s with
    | none => .next { t with up := true, dieDown := upTo 0 Config.dies }
    | some r =>
      let (bad, t) := testDies t
      .next { t with
        up := true, record := some r, flashCtr := r.counter, dieDown := bad, funcs := t.funcs.put 0 (stewardStart bad),
        smap := (upTo 0 Config.dies).foldl (fun (m : Tab SliceMap) d => m.put d (bringUpMap r d)) [] }

end Sys2Proof.Machine
end

