-- ==== Sys2Proof/Machine/Move.lean ====
section
/-!
DEFINITION. The words of majors 0x0F and 0x18: moves, lane words and predicates (R235, R241 to R245, R262 to R264).
-/
namespace Sys2Proof.Machine

/-- mov (R241). -/
def execMov (q : Qual) (d a : BitVec 6) (s : State) : Out :=
  runWord (.mov q d a) (fun x t => x.perLane t fun k => { regs := [(d.toNat, vreg x.rs k a.toNat)] }) s
/-- movi (R241): sext(IMM12, 12), or payload[19:0] : IMM12 after an `imx`. -/
def execMovi (q : Qual) (d : BitVec 6) (imm : BitVec 12) (s : State) : Out :=
  runWord (.movi q d imm) (fun x t => x.perLane t fun _ => { regs := [(d.toNat, immMovi x.h imm)] }) s

/-- The lane that `shfl` and `bcast` read in lane `l`, or none for the reading lane's own value (R242). -/
def shflSource (x : Ctx) (l b : Nat) : Nat :=
  let s := (vreg x.rs (x.lk l) b).toNat % x.g.width
  if has x.active s then s else l
/-- shfl (R242): another lane's vA, or the lane's own when that lane is not executing. -/
def execShfl (gd : Guard) (d a b : BitVec 6) (s : State) : Out :=
  runWord (.shfl gd d a b) (fun x t => x.perWriter t fun l =>
    { regs := [(d.toNat, vreg x.rs (x.lk (shflSource x l b.toNat)) a.toNat)] }) s
/-- vote (R243): every executing lane holds the same vA. -/
def execVote (gd : Guard) (d a : BitVec 6) (s : State) : Out :=
  runWord (.vote gd d a) (fun x t =>
    let v := vreg x.rs (x.lk (lowest x.active)) a.toNat
    let all := (lanesOf x.active).all fun l => vreg x.rs (x.lk l) a.toNat == v
    x.perWriter t fun _ => { preds := [(predNo d.toNat x.o.pxD, all)] }) s
/-- ballot (R243): the mask of executing lanes whose pA is 1. -/
def execBallot (gd : Guard) (d a : BitVec 6) (s : State) : Out :=
  runWord (.ballot gd d a) (fun x t =>
    let m := maskOf ((lanesOf x.active).filter fun l => preg x.rs (x.lk l) (predNo a.toNat x.o.pxA))
    x.perWriter t fun _ => { regs := pairWrites d.toNat m }) s
/-- bcast (R242): lane k's vA, or the lowest executing lane's; k at or beyond the width raises OPERAND 0x012. -/
def execBcast (gd : Guard) (d a b : BitVec 6) (s : State) : Out :=
  runWord (.bcast gd d a b) (fun x t =>
    if x.g.width ≤ b.toNat then x.raiseAll t x.go (x.fi 1 2)
    else
      let k := if has x.active b.toNat then b.toNat else lowest x.active
      x.perWriter t fun _ => { regs := [(d.toNat, vreg x.rs (x.lk k) a.toNat)] }) s

/-- The reduction of `redg` over patterns (R244): every op is exact and independent of order. -/
def redgFn (x : Ctx) (op : Nat) (ps : List Nat) : Nat :=
  match ps with
  | [] => 0
  | p :: t =>
    match op with
    | 0 => wrapNat ((p :: t).foldl (fun v n => v + x.val n) 0) (itypeBits x.o)
    | 1 => t.foldl (fun v n => if x.val n < x.val v then n else v) p
    | 2 => t.foldl (fun v n => if x.val v < x.val n then n else v) p
    | 3 => t.foldl (fun v n => v &&& n) p
    | 4 => t.foldl (fun v n => v ||| n) p
    | _ => t.foldl (fun v n => v ^^^ n) p
/-- redg (R244): reduces vA over the executing set. -/
def execRedg (gd : Guard) (d a b : BitVec 6) (s : State) : Out :=
  runWord (.redg gd d a b) (fun x t =>
    let v := redgFn x b.toNat ((lanesOf x.active).map fun l => x.pat (x.lk l) a.toNat)
    x.perWriter t fun _ => x.put d.toNat v) s
/-- lane (R245): LANEIX, the rank among the executing lanes, or their number. -/
def execLane (gd : Guard) (d b : BitVec 6) (s : State) : Out :=
  runWord (.lane gd d b) (fun x t => x.perWriter t fun l =>
    let v := match b.toNat with
      | 0 => l
      | 1 => ((lanesOf x.active).filter fun i => i < l).length
      | _ => (lanesOf x.active).length
    { regs := [(d.toNat, BitVec.ofNat 32 v)] }) s

/-- A predicate word of two sources (R262). -/
def predBody (f : Bool → Bool → Bool) (d a b : Nat) (x : Ctx) (s : State) : State :=
  x.perLane s fun k =>
    { preds := [(predNo d x.o.pxD, f (preg x.rs k (predNo a x.o.pxA)) (preg x.rs k (predNo b x.o.pxB)))] }
/-- pand (R262). -/
def execPand (q : Qual) (d a b : BitVec 6) (s : State) : Out :=
  runWord (.pand q d a b) (predBody (fun u v => u && v) d.toNat a.toNat b.toNat) s
/-- por (R262). -/
def execPor (q : Qual) (d a b : BitVec 6) (s : State) : Out :=
  runWord (.por q d a b) (predBody (fun u v => u || v) d.toNat a.toNat b.toNat) s
/-- pxor (R262). -/
def execPxor (q : Qual) (d a b : BitVec 6) (s : State) : Out :=
  runWord (.pxor q d a b) (predBody (fun u v => u != v) d.toNat a.toNat b.toNat) s
/-- pnot (R262). -/
def execPnot (q : Qual) (d a : BitVec 6) (s : State) : Out :=
  runWord (.pnot q d a) (fun x t => x.perLane t fun k =>
    { preds := [(predNo d.toNat x.o.pxD, !(preg x.rs k (predNo a.toNat x.o.pxA)))] }) s
/-- pmov vD, pw.k (R263): vD[i] := p(32k + i). -/
def execPmovToV (q : Qual) (d : BitVec 6) (k : BitVec 2) (s : State) : Out :=
  runWord (.pmovToV q d k) (fun x t => x.perLane t fun l =>
    let v := (upTo 0 32).foldl (fun n i => if preg x.rs l (32 * k.toNat + i) then n + 2 ^ i else n) 0
    { regs := [(d.toNat, BitVec.ofNat 32 v)] }) s
/-- pmov pw.k, vA (R263): p(32k + i) := vA[i]; p0 is not written. -/
def execPmovToP (q : Qual) (a : BitVec 6) (k : BitVec 2) (s : State) : Out :=
  runWord (.pmovToP q a k) (fun x t => x.perLane t fun l =>
    { preds := (upTo 0 32).map fun i => (32 * k.toNat + i, (vreg x.rs l a.toNat).getLsbD i) }) s
/-- The executing lanes whose pA is 1 (R264). -/
def predLanes (x : Ctx) (a : Nat) : List Nat := (lanesOf x.active).filter fun l => preg x.rs (x.lk l) (predNo a x.o.pxA)
/-- pcnt (R264). -/
def execPcnt (q : Qual) (d a : BitVec 6) (s : State) : Out :=
  runWord (.pcnt q d a) (fun x t => x.perWriter t fun _ =>
    { regs := [(d.toNat, BitVec.ofNat 32 (predLanes x a.toNat).length)] }) s
/-- pany (R264). -/
def execPany (q : Qual) (d a : BitVec 6) (s : State) : Out :=
  runWord (.pany q d a) (fun x t => x.perWriter t fun _ =>
    { preds := [(predNo d.toNat x.o.pxD, (predLanes x a.toNat).length != 0)] }) s
/-- pall (R264). -/
def execPall (q : Qual) (d a : BitVec 6) (s : State) : Out :=
  runWord (.pall q d a) (fun x t => x.perWriter t fun _ =>
    { preds := [(predNo d.toNat x.o.pxD, (predLanes x a.toNat).length == (lanesOf x.active).length)] }) s

end Sys2Proof.Machine
end

