-- ==== Sys2Proof/Machine/Return.lean ====
section
/-!
DEFINITION. The return from a fault, `eret` (R424), and the retries of a fault that found no slot (R416).
-/
namespace Sys2Proof.Machine

/-- The address is a slot of the domain's fault area. -/
def isSlot (s : State) (f a : Nat) : Bool :=
  match (funcAt s f).faultArea with
  | some fa => decide (fa ≤ a) && decide (a < fa + 512 * Config.faultSlots) && (a - fa) % 512 == 0
  | none => false
/-- The address operand of `eret` names a slot. -/
def eretFail (x : Ctx) (s : State) (d l : Nat) : Option FaultInfo :=
  if isSlot s x.g.func (vpair x.rs (x.lk l) d).toNat then none else some (x.fi 1 2)
/-- A slot's resumption at `resume`: it is checked, RESUME is rewritten in mode 1, the slot's tag is posted, and the lane
ends. A fault leaves the record as it stands (R55). The resume address is exempt from R36 where a kernel header names it. -/
def eretResume (x : Ctx) (a mode l pc resume : Nat) (tag : Word) (s : State) : State :=
  if resume % 4 ≠ 0 then x.raise s l (x.fi 7 0 resume 4)
  else if mode = 0 ∧ resume ≠ pc ∧ ontoHint s x.g (BitVec.ofNat 64 resume) then x.raise s l (x.illegal 9)
  else if mode = 1 then
    match translate s x.g.stamp a true with
    | .error f => x.raise s l (x.accFault f 8 true)
    | .ok _ => endLane (returnFault ((domWrite s x.g.stamp a (leBytes 8 resume)).getD s) x.g.stamp x.g.func a tag false) (x.lk l)
  else endLane (returnFault s x.g.stamp x.g.func a tag false) (x.lk l)
/-- One `eret`, its release made: the slot is read at its home. A slot on a host page whose transaction fails raises XLATE detail 3
(R281). -/
def eretOne (x : Ctx) (d mode : Nat) (s : State) (l : Nat) : State :=
  let a := (vpair x.rs (x.lk l) d).toNat
  match domRead s x.g.stamp a 5 256 with
  | .error f => x.raise s l (x.accFault f 64 false)
  | .ok r =>
    match hostLineFails s x.g.stamp a false 4 256 with
    | (some va, s) => x.raise s l (x.accFault ⟨8, 3, va⟩ 64 false)
    | (none, s) =>
      let at8 (o : Nat) : Nat := leNat ((r.drop o).take 8)
      let tag := slotTag s x.g.stamp ((funcAt s x.g.func).faultArea.getD 0) a r
      if at8 0x80 % 2 ^ 32 = 0 then x.raise s l (x.fi 1 2)
      else if mode ≠ 2 ∧ leNat ((r.drop 0xB3).take 1) % 2 = 0 then x.raise s l (x.fi 1 3)
      else if mode = 2 then endLane (returnFault s x.g.stamp x.g.func a tag true) (x.lk l)
      else eretResume x a mode l (at8 0x88) (if mode = 1 then at8 0x90 else at8 0) tag s
/-- eret (R424). -/
def execEret (gd : Guard) (d : BitVec 6) (imm : BitVec 9) (s : State) : Out :=
  runWord (.eret gd d imm) (fun x t =>
    let r := x.sift t (eretFail x t d.toNat)
    if r.1.go = 0 then r.2
    else r.1.translated r.2 ((lanesOf r.1.go).map fun l => (vpair x.rs (x.lk l) d.toNat).toNat) fun u =>
      r.1.releasing u 2 fun v => (lanesOf r.1.go).foldl (eretOne x d.toNat imm.toNat) v) s

/-- FAULT_SLOT_RETRY (R415, R416): a lane that waits for a slot raises its fault again, and one that has a slot goes on with its delivery;
`lane` 64 names the waiting detached fault `gid`, which is delivered as before, its trace record written already (R135).
(DESIGN CHOICE, log 43) -/
def execFaultSlotRetry (gid lane : Nat) (s : State) : Out :=
  if lane = 64 then
    match s.detached.get? gid with
    | some d => .next (deliverDetached { s with detached := s.detached.del gid } d.dom d.fault d.core d.flags d.pc d.word d.domid)
    | none => .refused (.notEnabled "FAULT_SLOT_RETRY")
  else
    match s.lanes.get? (lk gid lane) with
    | some y =>
      (match y.held with
      | .faultSlot f w next pc => .next (takeFault s gid lane f pc next w)
      | .deliver i f w next pc => .next (deliverFault s gid lane i f pc next w)
      | _ => .refused (.notEnabled "FAULT_SLOT_RETRY"))
    | none => .refused (.notEnabled "FAULT_SLOT_RETRY")

end Sys2Proof.Machine
end

