-- ==== Sys2Proof/Machine/Rings.lean ====
section
/-!
DEFINITION. Stage rings: the five words of major 0x2A (R298 to R300).
-/
namespace Sys2Proof.Machine

/-- The five words (Table 14-3). -/
inductive RingOp where
  | init | rsv | fill | take | free
  deriving DecidableEq, Repr

/-- A ring of a team; one never initialised has every counter zero (R298). -/
def ringAt (t : Team) (r : Nat) : Ring := (t.rings.get? r).getD {}
/-- A lane of the team waits on the ring. -/
def ringWaiters (s : State) (t : Team) (r : Nat) (take : Bool) : List (Nat × BitVec 64) :=
  s.lanes.filterMap fun e =>
    match e.2.held with
    | .ring r' tk m => if r' = r ∧ tk = take ∧ m ≠ 0 ∧ t.groups.contains (e.1 / 64) then some (e.1, m) else none
    | _ => none
/-- The first check of R300 that an execution fails: class and detail. -/
def ringFail (s : State) (t : Option Team) (op : RingOp) (v : Nat) : Option (Nat × Nat) :=
  let n := v / 65536
  if v % 65536 / 16 ≠ 0 ∨ (op ≠ .init ∧ n ≠ 0) then some (1, 2)
  else match t with
    | none => some (16, 3)
    | some t =>
      let g := ringAt t (v % 16)
      if t.banks = [] then some (16, 3)
      else match op with
        | .init =>
          if n = 0 ∨ 4096 < n then some (1, 2)
          else if 0 < g.res ∨ 0 < g.taken ∨ ringWaiters s t (v % 16) true ≠ [] ∨ ringWaiters s t (v % 16) false ≠ [] then some (16, 2)
          else none
        | .fill => if g.n = 0 then some (16, 0) else if g.res = 0 then some (16, 1) else none
        | .free => if g.n = 0 then some (16, 0) else if g.taken = 0 then some (16, 1) else none
        | _ => if g.n = 0 then some (16, 0) else none
/-- The counter change of an operation that need not wait (Table 14-3). -/
def ringStep (op : RingOp) (n : Nat) (g : Ring) : Ring :=
  match op with
  | .init => ⟨n, n, 0, 0, 0⟩
  | .rsv => { g with free := g.free - 1, res := g.res + 1 }
  | .fill => { g with res := g.res - 1, full := g.full + 1 }
  | .take => { g with full := g.full - 1, taken := g.taken + 1 }
  | .free => { g with taken := g.taken - 1, free := g.free + 1 }
/-- The operation must wait for a count. -/
def ringWaits (op : RingOp) (g : Ring) : Bool :=
  match op with
  | .rsv => g.free == 0
  | .take => g.full == 0
  | _ => false
/-- Change a ring of a team. -/
def modRing (s : State) (team r : Nat) (f : Ring → Ring) : State :=
  modTeam s team fun t => { t with rings := t.rings.put r (f (ringAt t r)) }
/-- A waiting lane has its count: it and the lanes with it go past the word. -/
def ringGo (s : State) (k : Nat) (members : BitVec 64) : State :=
  (lanesOf members).foldl (fun t l => modLane t (lk (k / 64) l) fun y => { y with held := .none, pc := y.pc + 4, run := [] }) s
/-- A count that becomes available releases one of the lanes that wait for it, by a free choice (R300). -/
def ringWake (s : State) (team r : Nat) (take : Bool) : State :=
  match s.teams.get? team with
  | none => s
  | some t =>
    match ringWaiters s t r take with
    | [] => s
    | ws =>
      let c := takeNat s ws.length
      let w := ws.getD c.1 (0, 0)
      ringGo (modRing c.2 team r (ringStep (if take then .take else .rsv) 0)) w.1 w.2
/-- One execution of a ring word. -/
def ringOne (op : RingOp) (d : Nat) (x : Ctx) (s : State) (a : Nat × BitVec 64) : State :=
  let v := (vreg x.rs (x.lk a.1) d).toNat
  let t := teamOf? s x.g
  match ringFail s t op v with
  | some f => x.raiseAll s a.2 (x.fi f.1 f.2)
  | none =>
    let r := v % 16
    if ringWaits op ((t.map fun t => ringAt t r).getD {}) then
      x.hold s a.2 fun l => .ring r (op == .take) (if l = a.1 ∨ !has a.2 a.1 ∧ l = lowest a.2 then a.2 else 0)
    else
      let s := modRing s x.g.team r (ringStep op (v / 65536))
      match op with
      | .fill => ringWake s x.g.team r true
      | .free => ringWake s x.g.team r false
      | _ => s
/-- The body of a ring word: `rfill` and `rfree` release at core scope first (Table 14-3). -/
def ringBody (op : RingOp) (d : Nat) (x : Ctx) (s : State) : State :=
  let go (t : State) : State := x.acts.foldl (ringOne op d x) t
  if op = .fill ∨ op = .free then x.releasing s 1 go else go s

/-- rinit (R300). -/
def execRinit (q : Qual) (d : BitVec 6) (s : State) : Out := runWord (.rinit q d) (ringBody .init d.toNat) s
/-- rsv (R300): acquires at core scope, which changes no L1 copy (R274). -/
def execRsv (q : Qual) (d : BitVec 6) (s : State) : Out := runWord (.rsv q d) (ringBody .rsv d.toNat) s
/-- rfill (R300). -/
def execRfill (q : Qual) (d : BitVec 6) (s : State) : Out := runWord (.rfill q d) (ringBody .fill d.toNat) s
/-- rtake (R300). -/
def execRtake (q : Qual) (d : BitVec 6) (s : State) : Out := runWord (.rtake q d) (ringBody .take d.toNat) s
/-- rfree (R300). -/
def execRfree (q : Qual) (d : BitVec 6) (s : State) : Out := runWord (.rfree q d) (ringBody .free d.toNat) s

end Sys2Proof.Machine
end

