-- ==== Sys2Proof/Machine/Vote.lean ====
section
/-!
DEFINITION. Fetch and fairness events: the fill of a code line (R189) and inverted batches (R193).
-/
namespace Sys2Proof.Machine

/-- Lanes of a set fault at a word that cannot be fetched; the word is unknown (DESIGN CHOICE, log 1). -/
def fetchFault (s : State) (gid : Nat) (e : DWord × List Word × BitVec 64) (f : FaultInfo) : State :=
  let r := takeWord s
  (lanesOf e.2.2).foldl (fun t l => takeFault (endCover t gid) gid l f (e.1 - BitVec.ofNat 64 (4 * e.2.1.length)) (e.1 + 4) r.1) r.2
/-- INSTRUCTION_FETCH_FILL (R189): the code line at a lane set's PC arrives in the pair's L1, or its fetch faults; a code line in host memory
whose transaction fails raises XLATE detail 3 with origin 0 (R281). -/
def execInstructionFetchFill (gid pc : Nat) (s : State) : Out :=
  match s.groups.get? gid, (laneSets s gid).find? fun e => e.1.toNat == pc with
  | some g, some e =>
    (match groupRuns s gid g, fetch s g pc with
    | false, _ => .refused (.notEnabled "INSTRUCTION_FETCH_FILL")
    | true, .word _ => .refused (.notEnabled "INSTRUCTION_FETCH_FILL")
    | true, .fail f => .next (fetchFault s gid e { cause := causeOf f.cls 0 f.detail, addr := f.addr, info := accInfo f 4 false })
    | true, .miss =>
      match translate s g.stamp pc false with
      | .error _ => .refused (.notEnabled "INSTRUCTION_FETCH_FILL")
      | .ok (pa, p) =>
        if engineOwned s (pa / 64) then .refused (.notEnabled "INSTRUCTION_FETCH_FILL")
        else if poisoned s pa then .next (fetchFault s gid e { cause := causeOf 20 0 0, addr := pc / 64 * 64 })
        else
          let r := hostFails s pa
          if r.1 then .next (fetchFault r.2 gid e { cause := causeOf 8 0 3, addr := pc, info := accInfo ⟨8, 3, pc⟩ 4 false })
          else .next (l1Fill r.2 (pairOf g.core) 0 pa p 3))
  | _, _ => .refused (.notEnabled "INSTRUCTION_FETCH_FILL")

/-- INVERTED_BATCH_START (R193). -/
def execInvertedBatchStart (gid : Nat) (s : State) : Out :=
  match s.groups.get? gid with
  | some g =>
    if g.batch ≠ 0 ∨ !groupRuns s gid g ∨ !starved s gid g then .refused (.notEnabled "INVERTED_BATCH_START")
    else .next { s with groups := s.groups.put gid { g with batch := 33 } }
  | none => .refused (.notEnabled "INVERTED_BATCH_START")
/-- INVERTED_BATCH_END (R193): 32 issuing ac have passed, or no ready lane set has waited that long at a vote. -/
def execInvertedBatchEnd (gid : Nat) (s : State) : Out :=
  match s.groups.get? gid with
  | some g =>
    if g.batch = 0 ∨ (g.batch ≠ 1 ∧ (starved s gid g ∨ g.lastIssue = acNow s (dieOf g.core))) then .refused (.notEnabled "INVERTED_BATCH_END")
    else .next { s with groups := s.groups.put gid { g with batch := 0 } }
  | none => .refused (.notEnabled "INVERTED_BATCH_END")

end Sys2Proof.Machine
end

