-- ==== Sys2Proof/Machine/Dispatch.lean ====
section
/-!
DEFINITION. The instruction dispatch: one arm per constructor of `Instr`, each a direct call of that instruction's meaning.
-/
namespace Sys2Proof.Machine

/-- What an instruction or event does. -/
def exec (i : Instr) (s : State) : Host.Outcome State Fault Refusal :=
  match i with
  | .nop => Sys2Proof.Machine.execNop s
  | .trap gd imm => Sys2Proof.Machine.execTrap gd imm s
  | .dbg gd imm => Sys2Proof.Machine.execDbg gd imm s
  | .rdsr q d imm => Sys2Proof.Machine.execRdsr q d imm s
  | .wrsr q d imm => Sys2Proof.Machine.execWrsr q d imm s
  | .clk q d imm => Sys2Proof.Machine.execClk q d imm s
  | .yield => Sys2Proof.Machine.execYield s
  | .eret gd d imm => Sys2Proof.Machine.execEret gd d imm s
  | .recfg q d => Sys2Proof.Machine.execRecfg q d s
  | .bra q off => Sys2Proof.Machine.execBra q off s
  | .call q off => Sys2Proof.Machine.execCall q off s
  | .divr gd off => Sys2Proof.Machine.execDivr gd off s
  | .brk c off => Sys2Proof.Machine.execBrk c off s
  | .brx q a b => Sys2Proof.Machine.execBrx q a b s
  | .ret q a => Sys2Proof.Machine.execRet q a s
  | .join gd => Sys2Proof.Machine.execJoin gd s
  | .exit gd => Sys2Proof.Machine.execExit gd s
  | .cdecl q c => Sys2Proof.Machine.execCdecl q c s
  | .bar gd k => Sys2Proof.Machine.execBar gd k s
  | .fend gd => Sys2Proof.Machine.execFend gd s
  | .wake q a => Sys2Proof.Machine.execWake q a s
  | .wakeTmr q b => Sys2Proof.Machine.execWakeTmr q b s
  | .spawn q d a b => Sys2Proof.Machine.execSpawn q d a b s
  | .park gd d a b => Sys2Proof.Machine.execPark gd d a b s
  | .rdy q d a b => Sys2Proof.Machine.execRdy q d a b s
  | .await q d a b => Sys2Proof.Machine.execAwait q d a b s
  | .gate gd d imm => Sys2Proof.Machine.execGate gd d imm s
  | .gret gd => Sys2Proof.Machine.execGret gd s
  | .iadd q d a b => Sys2Proof.Machine.execIadd q d a b s
  | .isub q d a b => Sys2Proof.Machine.execIsub q d a b s
  | .imul q d a b => Sys2Proof.Machine.execImul q d a b s
  | .imulh q d a b => Sys2Proof.Machine.execImulh q d a b s
  | .imin q d a b => Sys2Proof.Machine.execImin q d a b s
  | .imax q d a b => Sys2Proof.Machine.execImax q d a b s
  | .iabs q d a => Sys2Proof.Machine.execIabs q d a s
  | .ineg q d a => Sys2Proof.Machine.execIneg q d a s
  | .iaddImm q d imm => Sys2Proof.Machine.execIaddImm q d imm s
  | .isubImm q d imm => Sys2Proof.Machine.execIsubImm q d imm s
  | .imulImm q d imm => Sys2Proof.Machine.execImulImm q d imm s
  | .imulhImm q d imm => Sys2Proof.Machine.execImulhImm q d imm s
  | .iminImm q d imm => Sys2Proof.Machine.execIminImm q d imm s
  | .imaxImm q d imm => Sys2Proof.Machine.execImaxImm q d imm s
  | .iabsImm q d imm => Sys2Proof.Machine.execIabsImm q d imm s
  | .inegImm q d imm => Sys2Proof.Machine.execInegImm q d imm s
  | .andV q d a b => Sys2Proof.Machine.execAndV q d a b s
  | .orV q d a b => Sys2Proof.Machine.execOrV q d a b s
  | .xorV q d a b => Sys2Proof.Machine.execXorV q d a b s
  | .notV q d a => Sys2Proof.Machine.execNotV q d a s
  | .sel q d a b => Sys2Proof.Machine.execSel q d a b s
  | .popc q d a => Sys2Proof.Machine.execPopc q d a s
  | .clz q d a => Sys2Proof.Machine.execClz q d a s
  | .brev q d a => Sys2Proof.Machine.execBrev q d a s
  | .andImm q d imm => Sys2Proof.Machine.execAndImm q d imm s
  | .orImm q d imm => Sys2Proof.Machine.execOrImm q d imm s
  | .xorImm q d imm => Sys2Proof.Machine.execXorImm q d imm s
  | .notImm q d imm => Sys2Proof.Machine.execNotImm q d imm s
  | .selImm q d imm => Sys2Proof.Machine.execSelImm q d imm s
  | .popcImm q d imm => Sys2Proof.Machine.execPopcImm q d imm s
  | .clzImm q d imm => Sys2Proof.Machine.execClzImm q d imm s
  | .brevImm q d imm => Sys2Proof.Machine.execBrevImm q d imm s
  | .shl q d a b => Sys2Proof.Machine.execShl q d a b s
  | .shr q d a b => Sys2Proof.Machine.execShr q d a b s
  | .sar q d a b => Sys2Proof.Machine.execSar q d a b s
  | .rot q d a b => Sys2Proof.Machine.execRot q d a b s
  | .bfe q d a b => Sys2Proof.Machine.execBfe q d a b s
  | .bfi q d a b => Sys2Proof.Machine.execBfi q d a b s
  | .lea q d a b => Sys2Proof.Machine.execLea q d a b s
  | .imad q d a b => Sys2Proof.Machine.execImad q d a b s
  | .shlImm q d imm => Sys2Proof.Machine.execShlImm q d imm s
  | .shrImm q d imm => Sys2Proof.Machine.execShrImm q d imm s
  | .sarImm q d imm => Sys2Proof.Machine.execSarImm q d imm s
  | .rotImm q d imm => Sys2Proof.Machine.execRotImm q d imm s
  | .bfeImm q d imm => Sys2Proof.Machine.execBfeImm q d imm s
  | .bfiImm q d imm => Sys2Proof.Machine.execBfiImm q d imm s
  | .leaImm q d imm => Sys2Proof.Machine.execLeaImm q d imm s
  | .imadImm q d imm => Sys2Proof.Machine.execImadImm q d imm s
  | .icmp q d a b c => Sys2Proof.Machine.execIcmp q d a b c s
  | .mov q d a => Sys2Proof.Machine.execMov q d a s
  | .movi q d imm => Sys2Proof.Machine.execMovi q d imm s
  | .shfl gd d a b => Sys2Proof.Machine.execShfl gd d a b s
  | .vote gd d a => Sys2Proof.Machine.execVote gd d a s
  | .ballot gd d a => Sys2Proof.Machine.execBallot gd d a s
  | .bcast gd d a b => Sys2Proof.Machine.execBcast gd d a b s
  | .redg gd d a b => Sys2Proof.Machine.execRedg gd d a b s
  | .lane gd d b => Sys2Proof.Machine.execLane gd d b s
  | .fadd q d a b => Sys2Proof.Machine.execFadd q d a b s
  | .fmul q d a b => Sys2Proof.Machine.execFmul q d a b s
  | .fmin q d a b => Sys2Proof.Machine.execFmin q d a b s
  | .fmax q d a b => Sys2Proof.Machine.execFmax q d a b s
  | .fabs q d a => Sys2Proof.Machine.execFabs q d a s
  | .fneg q d a => Sys2Proof.Machine.execFneg q d a s
  | .fclass q d a => Sys2Proof.Machine.execFclass q d a s
  | .fsign q d a b => Sys2Proof.Machine.execFsign q d a b s
  | .ffma q d a b na np => Sys2Proof.Machine.execFfma q d a b na np s
  | .frcp q d a => Sys2Proof.Machine.execFrcp q d a s
  | .frsq q d a => Sys2Proof.Machine.execFrsq q d a s
  | .fsqrt q d a => Sys2Proof.Machine.execFsqrt q d a s
  | .fex2 q d a => Sys2Proof.Machine.execFex2 q d a s
  | .flg2 q d a => Sys2Proof.Machine.execFlg2 q d a s
  | .fsin q d a => Sys2Proof.Machine.execFsin q d a s
  | .fcos q d a => Sys2Proof.Machine.execFcos q d a s
  | .fcmp q d a b c => Sys2Proof.Machine.execFcmp q d a b c s
  | .dadd q d a b => Sys2Proof.Machine.execDadd q d a b s
  | .dmul q d a b => Sys2Proof.Machine.execDmul q d a b s
  | .dfma q d a b => Sys2Proof.Machine.execDfma q d a b s
  | .dmin q d a b => Sys2Proof.Machine.execDmin q d a b s
  | .dmax q d a b => Sys2Proof.Machine.execDmax q d a b s
  | .dcmp q c p a b => Sys2Proof.Machine.execDcmp q c p a b s
  | .hadd2 q d a b => Sys2Proof.Machine.execHadd2 q d a b s
  | .hmul2 q d a b => Sys2Proof.Machine.execHmul2 q d a b s
  | .hfma2 q d a b => Sys2Proof.Machine.execHfma2 q d a b s
  | .bfadd2 q d a b => Sys2Proof.Machine.execBfadd2 q d a b s
  | .bfmul2 q d a b => Sys2Proof.Machine.execBfmul2 q d a b s
  | .bffma2 q d a b => Sys2Proof.Machine.execBffma2 q d a b s
  | .cvt q d a dst src hi => Sys2Proof.Machine.execCvt q d a dst src hi s
  | .bhget q d a => Sys2Proof.Machine.execBhget q d a s
  | .bhset q d a b => Sys2Proof.Machine.execBhset q d a b s
  | .amaxr gd d a => Sys2Proof.Machine.execAmaxr gd d a s
  | .pack q d a b => Sys2Proof.Machine.execPack q d a b s
  | .unpack q d a b => Sys2Proof.Machine.execUnpack q d a b s
  | .pand q d a b => Sys2Proof.Machine.execPand q d a b s
  | .por q d a b => Sys2Proof.Machine.execPor q d a b s
  | .pxor q d a b => Sys2Proof.Machine.execPxor q d a b s
  | .pnot q d a => Sys2Proof.Machine.execPnot q d a s
  | .pmovToV q d k => Sys2Proof.Machine.execPmovToV q d k s
  | .pmovToP q a k => Sys2Proof.Machine.execPmovToP q a k s
  | .pcnt q d a => Sys2Proof.Machine.execPcnt q d a s
  | .pany q d a => Sys2Proof.Machine.execPany q d a s
  | .pall q d a => Sys2Proof.Machine.execPall q d a s
  | .ld q d a slot k f => Sys2Proof.Machine.execLd q d a slot k f s
  | .st q d a slot k f => Sys2Proof.Machine.execSt q d a slot k f s
  | .ldc q d a slot k f => Sys2Proof.Machine.execLdc q d a slot k f s
  | .ldt q d a slot k f => Sys2Proof.Machine.execLdt q d a slot k f s
  | .ldnc q d a slot k f => Sys2Proof.Machine.execLdnc q d a slot k f s
  | .stnc q d a slot k f => Sys2Proof.Machine.execStnc q d a slot k f s
  | .fence gd a slot k ord => Sys2Proof.Machine.execFence gd a slot k ord s
  | .pfence gd p slot => Sys2Proof.Machine.execPfence gd p slot s
  | .waita q d a slot c => Sys2Proof.Machine.execWaita q d a slot c s
  | .prefL1 q a slot k => Sys2Proof.Machine.execPrefL1 q a slot k s
  | .prefHome q a slot k => Sys2Proof.Machine.execPrefHome q a slot k s
  | .atom q d a slot k f => Sys2Proof.Machine.execAtom q d a slot k f s
  | .red q d a slot k f => Sys2Proof.Machine.execRed q d a slot k f s
  | .txb gd => Sys2Proof.Machine.execTxb gd s
  | .txe gd d slot => Sys2Proof.Machine.execTxe gd d slot s
  | .txa gd d => Sys2Proof.Machine.execTxa gd d s
  | .txq gd d slot => Sys2Proof.Machine.execTxq gd d slot s
  | .anew q d slot => Sys2Proof.Machine.execAnew q d slot s
  | .alloc q d slot => Sys2Proof.Machine.execAlloc q d slot s
  | .aseal q d slot => Sys2Proof.Machine.execAseal q d slot s
  | .adrop q d a slot => Sys2Proof.Machine.execAdrop q d a slot s
  | .aqry q d slot => Sys2Proof.Machine.execAqry q d slot s
  | .rinit q d => Sys2Proof.Machine.execRinit q d s
  | .rsv q d => Sys2Proof.Machine.execRsv q d s
  | .rfill q d => Sys2Proof.Machine.execRfill q d s
  | .rtake q d => Sys2Proof.Machine.execRtake q d s
  | .rfree q d => Sys2Proof.Machine.execRfree q d s
  | .cpy q d a slot k cw tg => Sys2Proof.Machine.execCpy q d a slot k cw tg s
  | .cpyg q d a slot k cw tg => Sys2Proof.Machine.execCpyg q d a slot k cw tg s
  | .cpys q d a slot k cw tg => Sys2Proof.Machine.execCpys q d a slot k cw tg s
  | .coll q d a slot k cw tg => Sys2Proof.Machine.execColl q d a slot k cw tg s
  | .msend q d a slot k => Sys2Proof.Machine.execMsend q d a slot k s
  | .mrecv q d a slot k => Sys2Proof.Machine.execMrecv q d a slot k s
  | .mprobe q d a slot k => Sys2Proof.Machine.execMprobe q d a slot k s
  | .mma c slot a b m t => Sys2Proof.Machine.execMma c slot a b m t s
  | .mmaz c slot a b m t => Sys2Proof.Machine.execMmaz c slot a b m t s
  | .mmas c slot a b m t => Sys2Proof.Machine.execMmas c slot a b m t s
  | .mld c slot a m t => Sys2Proof.Machine.execMld c slot a m t s
  | .mst c slot a m t => Sys2Proof.Machine.execMst c slot a m t s
  | .mzero c slot m t => Sys2Proof.Machine.execMzero c slot m t s
  | .mcvt c slot a m => Sys2Proof.Machine.execMcvt c slot a m s
  | .mamax c slot a m t => Sys2Proof.Machine.execMamax c slot a m t s
  | .sched s0 s1 s2 wait yld => Sys2Proof.Machine.execSched s0 s1 s2 wait yld s
  | .imx payload => Sys2Proof.Machine.execImx payload s
  | .opx x => Sys2Proof.Machine.execOpx x s
  | .pre live ranges => Sys2Proof.Machine.execPre live ranges s
  | .completionRecord fn => Sys2Proof.Machine.execCompletionRecord fn s
  | .modLoad fn slot => Sys2Proof.Machine.execModLoad fn slot s
  | .graphLoad fn slot => Sys2Proof.Machine.execGraphLoad fn slot s
  | .graphKick fn slot => Sys2Proof.Machine.execGraphKick fn slot s
  | .graphStopDrain fn slot => Sys2Proof.Machine.execGraphStopDrain fn slot s
  | .graphStopAbort fn slot => Sys2Proof.Machine.execGraphStopAbort fn slot s
  | .memMap fn slot => Sys2Proof.Machine.execMemMap fn slot s
  | .memUnmap fn slot => Sys2Proof.Machine.execMemUnmap fn slot s
  | .arenaRoot fn slot => Sys2Proof.Machine.execArenaRoot fn slot s
  | .traceSet fn slot => Sys2Proof.Machine.execTraceSet fn slot s
  | .vfHalt fn slot => Sys2Proof.Machine.execVfHalt fn slot s
  | .vfResume fn slot => Sys2Proof.Machine.execVfResume fn slot s
  | .vfQuery fn slot => Sys2Proof.Machine.execVfQuery fn slot s
  | .cfgCommit fn slot => Sys2Proof.Machine.execCfgCommit fn slot s
  | .resetVf fn slot => Sys2Proof.Machine.execResetVf fn slot s
  | .kernelNodeStart fn graph node => Sys2Proof.Machine.execKernelNodeStart fn graph node s
  | .copyNodeStart fn graph node => Sys2Proof.Machine.execCopyNodeStart fn graph node s
  | .copyNodeComplete fn graph node => Sys2Proof.Machine.execCopyNodeComplete fn graph node s
  | .conditionNode fn graph node => Sys2Proof.Machine.execConditionNode fn graph node s
  | .whileNode fn graph node => Sys2Proof.Machine.execWhileNode fn graph node s
  | .whileBodyExit fn graph node => Sys2Proof.Machine.execWhileBodyExit fn graph node s
  | .joinNode fn graph node => Sys2Proof.Machine.execJoinNode fn graph node s
  | .gridClaim grid die count => Sys2Proof.Machine.execGridClaim grid die count s
  | .claimGrant grid => Sys2Proof.Machine.execClaimGrant grid s
  | .teamPlacement grid team core parts => Sys2Proof.Machine.execTeamPlacement grid team core parts s
  | .instructionFetchFill gid pc => Sys2Proof.Machine.execInstructionFetchFill gid pc s
  | .invertedBatchStart gid => Sys2Proof.Machine.execInvertedBatchStart gid s
  | .invertedBatchEnd gid => Sys2Proof.Machine.execInvertedBatchEnd gid s
  | .dependencySlotClear res => Sys2Proof.Machine.execDependencySlotClear res s
  | .matrixOpComplete op => Sys2Proof.Machine.execMatrixOpComplete op s
  | .binTimerExpiry die bin => Sys2Proof.Machine.execBinTimerExpiry die bin s
  | .binGroupPlacement die bin core part => Sys2Proof.Machine.execBinGroupPlacement die bin core part s
  | .continuationBinEntry held => Sys2Proof.Machine.execContinuationBinEntry held s
  | .tagPostArrival post => Sys2Proof.Machine.execTagPostArrival post s
  | .parkRegistration park => Sys2Proof.Machine.execParkRegistration park s
  | .awaitTimeout gid lane => Sys2Proof.Machine.execAwaitTimeout gid lane s
  | .engineOpAccept op => Sys2Proof.Machine.execEngineOpAccept op s
  | .engineOpComplete op => Sys2Proof.Machine.execEngineOpComplete op s
  | .engineOpFailure op => Sys2Proof.Machine.execEngineOpFailure op s
  | .engineRecall op line => Sys2Proof.Machine.execEngineRecall op line s
  | .collectiveArrival op tree => Sys2Proof.Machine.execCollectiveArrival op tree s
  | .collectiveTimeout id => Sys2Proof.Machine.execCollectiveTimeout id s
  | .messageArrival msg => Sys2Proof.Machine.execMessageArrival msg s
  | .readGatherReply line => Sys2Proof.Machine.execReadGatherReply line s
  | .combiningBufferFlush ids => Sys2Proof.Machine.execCombiningBufferFlush ids s
  | .atomicApply req => Sys2Proof.Machine.execAtomicApply req s
  | .txnCommit gid lane => Sys2Proof.Machine.execTxnCommit gid lane s
  | .translationWalk walk => Sys2Proof.Machine.execTranslationWalk walk s
  | .arenaSealPoint arena => Sys2Proof.Machine.execArenaSealPoint arena s
  | .arenaSealComplete arena => Sys2Proof.Machine.execArenaSealComplete arena s
  | .drainMark arena => Sys2Proof.Machine.execDrainMark arena s
  | .arenaDropComplete arena => Sys2Proof.Machine.execArenaDropComplete arena s
  | .discardSweep place => Sys2Proof.Machine.execDiscardSweep place s
  | .arenaNumberRecycle arena => Sys2Proof.Machine.execArenaNumberRecycle arena s
  | .faultSlotRetry gid lane => Sys2Proof.Machine.execFaultSlotRetry gid lane s
  | .preemptRequest dom cores windowUs => Sys2Proof.Machine.execPreemptRequest dom cores windowUs s
  | .graceWindowEnd req passes => Sys2Proof.Machine.execGraceWindowEnd req passes s
  | .contextRestore image core parts => Sys2Proof.Machine.execContextRestore image core parts s
  | .marginCoreIdle core => Sys2Proof.Machine.execMarginCoreIdle core s
  | .loanRevocation core => Sys2Proof.Machine.execLoanRevocation core s
  | .poolDecisionPoint fn => Sys2Proof.Machine.execPoolDecisionPoint fn s
  | .gridCompletion grid => Sys2Proof.Machine.execGridCompletion grid s
  | .teamResourcesFree team => Sys2Proof.Machine.execTeamResourcesFree team s
  | .moduleReset => Sys2Proof.Machine.execModuleReset s
  | .pwrOk => Sys2Proof.Machine.execPwrOk s
  | .forwardingStubRetire die slice => Sys2Proof.Machine.execForwardingStubRetire die slice s
  | .illegalEncoding w => Sys2Proof.Machine.execIllegalEncoding w s
  | .homeSliceAccess what => Sys2Proof.Machine.execHomeSliceAccess what s
  | .commandSlotWrite fn link offset bytes => Sys2Proof.Machine.execCommandSlotWrite fn link offset bytes s
  | .cqcfgWrite fn link value => Sys2Proof.Machine.execCqcfgWrite fn link value s
  | .cqheadWrite fn value => Sys2Proof.Machine.execCqheadWrite fn value s
  | .registerWrite fn offset value => Sys2Proof.Machine.execRegisterWrite fn offset value s
  | .dieFailure die => Sys2Proof.Machine.execDieFailure die s
  | .powerMeasurement share die milliwatts => Sys2Proof.Machine.execPowerMeasurement share die milliwatts s
  | .thermalLimit die celsius => Sys2Proof.Machine.execThermalLimit die celsius s
  | .backgroundScrub line found => Sys2Proof.Machine.execBackgroundScrub line found s
  | .sliceMapInstall die slice retire => Sys2Proof.Machine.execSliceMapInstall die slice retire s
  | .linkFlitReceive link flit => Sys2Proof.Machine.execLinkFlitReceive link flit s
  | .linkDown link => Sys2Proof.Machine.execLinkDown link s
  | .sidebandRead what => Sys2Proof.Machine.execSidebandRead what s
  | .attestationQuote nonce => Sys2Proof.Machine.execAttestationQuote nonce s
  | .hostLinkDown link => Sys2Proof.Machine.execHostLinkDown link s
  | .hostLinkUp link => Sys2Proof.Machine.execHostLinkUp link s

end Sys2Proof.Machine
end

