-- ==== Sys2Proof/Machine/Settle.lean ====
section
/-!
DEFINITION. What completes in the step in which its last condition is met: reconvergence entries (R197), barriers (R213), matrix sets
(R318), the retirement of groups and teams (R451, R452), runs (R92), saves of teams at rest (R429), loans that return (R116), commands
whose effect is finished, and partition slots (R128).
-/
namespace Sys2Proof.Machine

/-! ### Reconvergence and barriers -/

/-- Held lanes go on. -/
def freeLanes (s : State) (ks : List Nat) (h : Held → Bool) : State :=
  ks.foldl (fun t k => modLane t k fun y => if h y.held then { y with held := .none } else y) s
/-- An entry is complete: every member that has not ended has arrived, or no member is left (R197). -/
def entryOver (s : State) (gid : Nat) (e : DivEntry) : Bool := e.mask &&& liveMask s gid &&& ~~~e.arrived == 0
/-- Complete entries of a group are freed and their held lanes go on. -/
def settleEntries (s : State) (gid : Nat) : State :=
  match s.groups.get? gid with
  | none => s
  | some g =>
    match g.entries.filter (entryOver s gid) with
    | [] => s
    | es =>
      let s := { s with groups := s.groups.put gid { g with entries := g.entries.filter fun e => !entryOver s gid e } }
      es.foldl (fun t e => freeLanes t ((lanesOf (e.mask &&& e.arrived)).map (lk gid)) (· == .join)) s
/-- Lanes released from a barrier acquire at its scope (R213, R274). -/
def leaveBar (s : State) (ks : List Nat) (k scope : Nat) : State :=
  let s := freeLanes s ks (· == .bar k scope)
  ks.foldl (fun t l => match t.groups.get? (l / 64) with
    | some g => acquireAt t (pairOf g.core) g.stamp scope
    | none => t) s
/-- The lanes of some groups that have not ended. -/
def liveKeys (s : State) (gs : List Nat) : List Nat := gs.flatMap fun g => (lanesOf (liveMask s g)).map (lk g)
/-- Complete group-scope barriers of a group. -/
def settleGroupBars (s : State) (gid : Nat) : State :=
  match s.groups.get? gid with
  | none => s
  | some g => g.bars.foldl (fun t b =>
      let live := liveMask t gid
      if b.2 ≠ 0 ∧ live &&& ~~~b.2 = 0 then
        leaveBar (modGroup t gid fun y => { y with bars := y.bars.del b.1 }) ((lanesOf (live &&& b.2)).map (lk gid)) b.1 0
      else t) s
/-- Complete core-scope barriers of a team. -/
def settleTeamBars (s : State) (tid : Nat) : State :=
  match s.teams.get? tid with
  | none => s
  | some t =>
    if t.saved.isSome then s
    else t.bars.foldl (fun u b =>
      if (liveKeys u t.groups).all fun k => b.2.contains k then leaveBar (modTeam u tid fun y => { y with bars := y.bars.del b.1 }) (b.2.filter (laneLive u)) b.1 1
      else u) s
/-- Every team of a grid is resident: none saved, none still to be placed. -/
def gridWhole (s : State) (g : Grid) : Bool :=
  decide (g.teams ≤ g.placedTeams.length + g.lostTeams) && g.placedTeams.all fun t => ((s.teams.get? t).map fun y => y.saved.isNone).getD true
/-- Complete device- and system-scope barriers of a grid. -/
def settleGridBars (s : State) (gr : Nat) : State :=
  match s.grids.get? gr with
  | none => s
  | some g =>
    if g.bars = [] ∨ !gridWhole s g then s
    else g.bars.foldl (fun u b =>
      if (liveKeys u (gridGroups u g)).all fun k => b.2.contains k then
        leaveBar (modGrid u gr fun y => { y with bars := y.bars.del b.1 }) (b.2.filter (laneLive u)) (b.1 % 16) (b.1 / 16)
      else u) s
/-- Complete matrix sets of a group (R318). -/
def settleMatrix (s : State) (gid : Nat) : State :=
  match s.groups.get? gid with
  | none => s
  | some g => g.conv.foldl (fun t c => if c.2.signed = 0 then t else matTry t gid c.1 t) s

/-! ### Retirement (R451, R452) -/

/-- A group none of whose lanes is left retires: its window, entries, declarations and slots are free. -/
def settleGroup (s : State) (gid : Nat) : State :=
  match s.groups.get? gid with
  | none => s
  | some g =>
    if g.retired ∨ liveMask s gid ≠ 0 then s
    else { s with
      groups := s.groups.put gid { g with retired := true, entries := [], conv := [], slots := [], bars := [], gate := none, cover := none },
      vregs := s.vregs.clear (gid * 8192) 8192, poisonRegs := s.poisonRegs.filter (fun r => r / 8192 != gid), board := s.board.filter fun p => p.gid != gid }
/-- A team whose groups have all retired retires: barriers, rings and posted receives go (R390, R452). -/
def settleTeam (s : State) (tid : Nat) : State :=
  match s.teams.get? tid with
  | none => s
  | some t =>
    if t.retired ∨ t.saved.isSome ∨ t.groups = [] ∨ !(t.groups.all fun g => ((s.groups.get? g).map (·.retired)).getD true) then s
    else
      let s := { s with teams := s.teams.put tid { t with retired := true, bars := [], rings := [] }, recvs := s.recvs.filter fun e => e.2.team != tid }
      match t.grid with
      | some gr => modGrid s gr fun y => { y with retiredTeams := y.retiredTeams + 1 }
      | none => s

/-! ### Loans, requests and commands -/

/-- The domain holds registers, banks or tiles on the core. -/
def holdsCore (s : State) (dom core : Nat) : Bool :=
  domOn s dom core || (bankUses s core).any (fun b => b.1 == dom) || (tileUses s core).any fun b => b.1 == dom
/-- A lent core on which the borrower has nothing left returns (R116). (DESIGN CHOICE, log 43) -/
def settleLoans (s : State) : State :=
  if s.loans = [] then s
  else s.loans.foldl (fun t e => if holdsCore t ((funcAt t e.2).dom.getD 64) e.1 then t else { t with loans := t.loans.del e.1 }) s
/-- A request that no resume or choice ends is over: nothing of it is left, and a revoked owner has placed its work, or there is none
(R440); so is a halt that a resume has ended, once what had halted is saved (R428). (DESIGN CHOICE, log 33) -/
def requestOver (s : State) (p : Preempt) : Bool :=
  unsavedTeams s p == [] && (p.source == 3 || p.source == 1 || p.source == 4 || (p.source == 2 && p.cores.all fun c =>
    match s.funcs.find? fun e => ownsCore s e.1 c with
    | some e => e.2.dom == some p.dom || domOn s (e.2.dom.getD 64) c || !waitingWork s e.1 (dieOf c)
    | none => true))
/-- Requests that are over end. -/
def settleRequests (s : State) : State :=
  if s.preempts = [] then s else s.preempts.foldl (fun t e => if requestOver t e.2 then endPreempt t e.1 else t) s
/-- A halt of the function still asks for saves: its window runs, or a resume ended it with groups that had halted (R428). -/
def haltStands (s : State) (f : Nat) : Bool :=
  s.preempts.any fun e => some e.2.dom == (funcAt s f).dom && (e.2.source == 0 || e.2.source == 4)
/-- Commands whose effect is finished owe their record: a halt whose groups are saved, a reset whose operations have completed. -/
def settleCommands (s : State) : State :=
  s.funcs.foldl (fun t e => e.2.waiting.foldl (fun u w =>
    if w.opcode = 9 ∧ (groupsLeft u w.what = [] ∨ !haltStands u w.what) then answerWaits u e.1 9 w.what
    else if w.opcode = 12 ∧ resetDrained u (((funcAt u w.what).dom).getD 64) then
      answerWaits (resetClear u w.what (((funcAt u w.what).dom).getD 64)) e.1 12 w.what
    else u) t) s
/-- A core on which a domain has a group is not idle for it (R115): when it had its last group there is kept for 10 µs, and a core that its owner
uses is not available to others. -/
def settleIdle (s : State) : State :=
  let busy := s.groups.filter fun e => !e.2.retired
  let kept := s.idleSince.filter fun e => decide (s.wall < e.2 + ticksOfUs 10)
  let stamp (m : Tab Nat) (core dom : Nat) : Tab Nat := m.put (core * 64 + dom) s.wall
  let seen := busy.foldl (fun m e => match e.2.gate with
    | some g => stamp (stamp m e.2.core e.2.stamp) e.2.core g.stamp
    | none => stamp m e.2.core e.2.stamp) kept
  { s with idleSince := seen, available := s.available.filter fun c => match marginOwner s c with
      | some f => !domOn s ((funcAt s f).dom.getD 64) c
      | none => true }

/-- A gate in whose target code a lane has faulted aborts (R140). -/
def settleGate (s : State) (gid : Nat) : State :=
  match (s.groups.get? gid).bind (·.abort) with
  | some c => leaveTarget s gid c
  | none => s

/-- What settles after a turn. -/
def settle (s : State) : State :=
  let gs := s.groups.map (·.1)
  let s := gs.foldl settleGate s
  let s := gs.foldl settleEntries s
  let s := gs.foldl settleGroupBars s
  let s := (s.teams.map (·.1)).foldl settleTeamBars s
  let s := (s.grids.map (·.1)).foldl settleGridBars s
  let s := gs.foldl settleMatrix s
  let s := gs.foldl settleGroup s
  let s := (s.teams.map (·.1)).foldl settleTeam s
  let s := settleRuns s
  let s := settlePools (saveRested (holdPre s))
  let s := settleRequests (settleLoans s)
  let s := refuseDue (settleCommands s)
  settleIdle (syncFrames (syncSlots s))

end Sys2Proof.Machine
end

