-- ==== Sys2Proof/Machine/Turn.lean ====
section
/-!
DEFINITION. Who moves next and what surrounds a turn: the choice of a turn, a tick of time, what settles in the same step once a
turn has been taken, and how a word is placed where the next turn fetches it.
-/
namespace Sys2Proof.Machine

/-- Held lanes of a word that could not issue try again (R188). -/
def clearRetry (s : State) : State :=
  if s.lanes.any fun e => e.2.held == .retry then
    { s with lanes := s.lanes.map fun e => if e.2.held = .retry then (e.1, { e.2 with held := .none }) else e }
  else s

/-- The partition and lane set that would issue next, when one is ready. -/
def nextIssue (s : State) : Option (Nat × Nat × Cur) :=
  s.groups.findSome? fun e => (voteOf s e.2.core e.2.part).map fun c => (e.2.core, e.2.part, c)

/-- Events of work on its way. -/
def flightEvents (s : State) : List Instr :=
  s.results.map (fun e => Instr.dependencySlotClear e.1) ++ s.acc.map (fun e => Instr.homeSliceAccess (.request e.1)) ++
  s.atoms.map (fun e => if e.2.buffered.isSome then Instr.combiningBufferFlush [e.1] else Instr.atomicApply e.1) ++
  s.mops.map (fun e => Instr.matrixOpComplete e.1) ++ s.walks.map (fun e => Instr.translationWalk e.1) ++
  s.parks.map (fun e => Instr.parkRegistration e.1) ++ s.posts.map (fun e => Instr.tagPostArrival e.1) ++ s.msgs.map (fun e => Instr.messageArrival (.sent e.1)) ++
  s.engs.flatMap (fun e => match e.2.node with
    | some (key, node) => [Instr.copyNodeComplete (key / 64) (key % 64) node]
    | none => [Instr.engineOpAccept e.1, Instr.engineOpComplete e.1, Instr.engineOpFailure e.1]) ++
  s.seals.flatMap (fun e => [Instr.arenaSealPoint e.2.arena, Instr.arenaSealComplete e.2.arena]) ++
  s.drops.flatMap (fun e => e.2.unmarked.map (fun u => Instr.drainMark u.1) ++ [Instr.arenaDropComplete e.2.root]) ++
  s.lanes.flatMap (fun e => if e.2.commit.isSome then [Instr.txnCommit (e.1 / 64) (e.1 % 64)] else [])
/-- Events of groups, bins and teams. -/
def groupEvents (s : State) : List Instr :=
  s.groups.flatMap (fun e => (laneSets s e.1).map fun l => Instr.instructionFetchFill e.1 l.1.toNat) ++
  s.groups.flatMap (fun e => [Instr.invertedBatchStart e.1, Instr.invertedBatchEnd e.1]) ++
  s.lanes.flatMap (fun e => match e.2.held with
    | .await _ _ _ _ => [Instr.awaitTimeout (e.1 / 64) (e.1 % 64)]
    | .faultSlot _ _ _ _ => [Instr.faultSlotRetry (e.1 / 64) (e.1 % 64)]
    | .deliver _ _ _ _ _ => [Instr.faultSlotRetry (e.1 / 64) (e.1 % 64)]
    | _ => []) ++
  s.detached.map (fun e => Instr.faultSlotRetry e.1 64) ++ s.heldConts.map (fun e => Instr.continuationBinEntry e.1) ++
  s.bins.map (fun e => Instr.binTimerExpiry (e.1 / 256) (e.1 % 256)) ++
  s.bins.flatMap (fun e => if e.2.waiting.isNone then [] else
    (upTo 0 Config.cores).flatMap fun c => (upTo 0 12).map fun p => Instr.binGroupPlacement (e.1 / 256) (e.1 % 256) c p) ++
  s.teams.map (fun e => Instr.teamResourcesFree e.1) ++ s.preempts.map (fun e => Instr.graceWindowEnd e.1 1)
/-- The most teams that a die may claim of a grid in one claim. -/
def claimCount (s : State) (g : Grid) (d : Nat) : Nat :=
  if g.coop && g.next == 0 then
    let mine := claimed g (· == d)
    min 16 (min (g.teams - claimed g fun _ => true) (claimRoom s g d (mine + 16) - mine))
  else claimRoom s g d 16
/-- Events of grids, runs and commands. -/
def walkerEvents (s : State) : List Instr :=
  s.grids.flatMap (fun e => Instr.gridCompletion e.1 :: Instr.claimGrant e.1 :: e.2.dies.flatMap (fun d => (unstarted e.2 d).flatMap fun i =>
    (upTo (d * 64) 64).filterMap fun c => (gridHeader s e.2).map fun h => Instr.teamPlacement e.1 i c (firstParts s e.2 h c (teamGroups e.2 i))) ++
    e.2.dies.filterMap fun d => if mayClaim s e.2 d 1 then some (Instr.gridClaim e.1 d (claimCount s e.2 d)) else none) ++
  s.runs.flatMap (fun e => (upTo 0 e.2.nodes.length).flatMap fun i =>
    let f := e.1 / 64
    let g := e.1 % 64
    [Instr.joinNode f g i, Instr.conditionNode f g i, Instr.whileNode f g i, Instr.whileBodyExit f g i, Instr.copyNodeStart f g i,
     Instr.copyNodeComplete f g i, Instr.kernelNodeStart f g i]) ++
  s.funcs.flatMap (fun e => Instr.completionRecord e.1 :: e.2.slots.flatMap fun c =>
    [Instr.modLoad e.1 c.1, Instr.graphLoad e.1 c.1, Instr.graphKick e.1 c.1, Instr.graphStopDrain e.1 c.1, Instr.graphStopAbort e.1 c.1,
     Instr.memMap e.1 c.1, Instr.memUnmap e.1 c.1, Instr.arenaRoot e.1 c.1, Instr.traceSet e.1 c.1, Instr.vfHalt e.1 c.1, Instr.vfResume e.1 c.1,
     Instr.vfQuery e.1 c.1, Instr.cfgCommit e.1 c.1, Instr.resetVf e.1 c.1]) ++
  s.funcs.flatMap (fun e => if e.2.sliced then [Instr.poolDecisionPoint e.1] else [])
/-- A combining shape for the ranks 0 to `n`: one after another. -/
def chainTree : Nat → CTree
  | 0 => .leaf 0
  | n + 1 => .node (chainTree n) (.leaf (n + 1))
/-- Events of restores, loans, collectives, recycled numbers and stubs. -/
def moduleEvents (s : State) : List Instr :=
  s.images.flatMap (fun e => ((upTo 0 Config.cores).filter fun c => mayUseTeam s e.2.teamRec.func c e.2.teamRec.pair true).map fun c =>
    Instr.contextRestore e.1 c (imageParts s e.2 e.2.teamRec.pair c)) ++
  s.loans.map (fun e => Instr.loanRevocation e.1) ++
  s.funcs.flatMap (fun e => ((upTo 0 Config.cores).filter fun c => e.2.margin.getLsbD c).map Instr.marginCoreIdle) ++
  s.engs.filterMap (fun e => if e.2.kind = 3 then some (Instr.collectiveArrival e.1 (chainTree (e.2.cn - 1))) else none) ++
  s.colls.map (fun e => Instr.collectiveTimeout e.1) ++
  (if (s.arenas.any fun e => e.2.state == .held) || decide (Config.filterEntries ≤ s.filters.length) then (upTo 0 256).map Instr.discardSweep else []) ++
  s.arenas.filterMap (fun e => if e.2.state = .held then some (Instr.arenaNumberRecycle e.1) else none) ++
  s.smap.flatMap (fun e => e.2.stubs.map (Instr.forwardingStubRetire e.1))
/-- The events that the device's own agents may take next, in the order in which an empty agenda tries them (DESIGN CHOICE, log 2). -/
def ownEvents (s : State) : List Instr := flightEvents s ++ groupEvents s ++ walkerEvents s ++ moduleEvents s

/-- Budgets of time-sliced functions move by a tick (R117): a running function, or one whose groups still leave the pool, is charged. -/
def tickBudget (s : State) (x : Func) : Func :=
  if !x.sliced then x
  else
    let charged := x.running || s.preempts.any fun e => e.2.source == 1 && some e.2.dom == x.dom && unsavedTeams s e.2 != []
    { x with budget := min (2 ^ 40 + 2 * 716800 * x.sliceUs) (x.budget + x.rate - (if charged then 1024 else 0)) }
/-- A partition's ac ends (R190 to R193). Where it took no vote, its ready lane sets have waited all the same, and groups that have all yielded
have let the vote pass: their ages are 0. -/
def endAc (s : State) (core part : Nat) : State :=
  if (s.ports.get? (core * 12 + part)).isSome then s
  else
    let now := acNow s (dieOf core)
    let all := candidates s core part
    let out := (all.filter fun e => e.2.1.yielded && sitsOut now all e).map (·.1)
    let t := countPart s core part
    { t with groups := t.groups.map fun (e : Nat × Group) => if out.contains e.1 then (e.1, { e.2 with yielded := false, lastIssue := now }) else e }
/-- The partitions of a die that hold a group. -/
def partsOf (s : State) (die : Nat) : List Nat :=
  dedup ((s.groups.filter fun e => dieOf e.2.core == die).map fun e => e.2.core * 12 + e.2.part)
/-- An ac of a die ends. -/
def tickDie (die : Nat) (s : State) : State := (partsOf s die).foldl (fun t k => endAc t (k / 12) (k % 12)) s
/-- 1/700 MHz of wall time passes (R12, R463; DESIGN CHOICE, log 3): a die's ac ends when its clock has moved that far. -/
def tickTime (s : State) : State :=
  let acs := (upTo 0 Config.dies).foldl (fun (t : Tab Nat) d => t.put d ((t.get? d).getD 0 + 16 - min 8 ((s.throttle.get? d).getD 0))) s.acs
  let moved := (upTo 0 Config.dies).filter fun d => (acs.get? d).getD 0 / 16 != acNow s d
  let s := moved.foldl (fun t d => tickDie d t) s
  { s with wall := s.wall + 1, acs := acs, ports := s.ports.filter fun e => !moved.contains (dieOf (e.1 / 12)),
           funcs := s.funcs.map fun (e : Nat × Func) => (e.1, tickBudget s e.2) }

/-- What a turn executes, and the state it executes in; nothing for a tick or a vote that finds no ready lane set. -/
def prepare : Turn → State → Option Instr × State
  | .event i, s => (some i, s)
  | .issue core part, s =>
    match voteOf s core part with
    | some c => (some (decode c.word), takePort s core part c)
    | none => (none, s)
  | .tick, s => (none, tickTime s)
  | .host addr bytes, s => (none, if addr + bytes.length ≤ 2 ^ 51 then writeHost s addr bytes else s)

/-- What follows a turn in the same step. -/
def afterTurn (t : Turn) (s : State) : State :=
  match t with
  | .issue _ _ => settle s
  | _ => settle (clearRetry s)

/-! ### Placing a word (DESIGN CHOICE, log 5) -/

/-- Where the loaded word stands when nothing runs yet. -/
def bootVa : Nat := 0x10000
/-- The header of the kernel that stands for a loaded program: width 16, W = 64, divmax 15, all checking off. -/
def bootHeader : Header :=
  { dom := 0, entry := bootVa, gw := 0, window := 64, divmax := 15, teamg := 0, banks := 1, uchk := false, schk := false,
    coop := false, roled := false, tiles := 1, rolemap := 0, live := [] }
/-- The steward's domain with a root arena, one page of code and one team of one group of 16 fibres on core 0, at the word.
(DESIGN CHOICE, log 5) -/
def bootState (s : State) (w : Word) : State :=
  let g : Group :=
    { team := 1, core := 0, part := 0, pos := 0, width := 16, gridix := 0, prio := 1, stamp := 0, func := 0, kdom := 0,
      kentry := bootVa, window := 64, divmax := 15, uchk := false, schk := false, role := 0, rfBase := 0 }
  let t : Team :=
    { dom := 0, func := 0, core := 0, pair := false, kentry := bootVa, teamix := 0xFFFFFFFF, grid := none, groups := [1], prio := 1,
      banks := [(0, 0)], tiles := 1, tbase := [0] }
  { s with
    up := true, pwrOk := true, nextId := max s.nextId 2,
    funcs := s.funcs.put 0 { funcAt s 0 with dom := some 0, cores := 3, channels := 1, root := some 1, blocks := [1, 1, 1, 1], bins := [8, 8, 8, 8], halted := false },
    arenas := s.arenas.put 1 { state := .live, dom := 0, quota := 0x1000000, charge := 0x10000, base := 0, rangeEnd := 0x1000000, bump := 0x20000 },
    pages := s.pages.put (pageKey 0 bootVa) ⟨Config.page, bootVa, 0, 1, 0, true⟩,
    tlb := ⟨0, 0, bootVa, Config.page⟩ :: s.tlb,
    kernels := bootHeader :: s.kernels,
    teams := s.teams.put 1 t, groups := s.groups.put 1 g,
    lanes := (upTo 0 16).foldl (fun m l => m.put (lk 1 l) { pc := BitVec.ofNat 64 bootVa }) s.lanes,
    l1 := s.l1.put (l1Key 0 0 (bootVa / 64) (tagNo 0 1 0)) { dom := 0, arena := 1, gen := 0, fresh := BitVec.allOnes 64, data := ((upTo 0 4).zip (leBytes 4 w.toNat)).foldl (fun m e => m.wr e.1 e.2) [] } }
/-- A word written over the word that a lane set fetches next, in the copy its pair reads. -/
def patchWord (s : State) (c : Cur) (w : Word) : State :=
  match s.groups.get? c.gid with
  | none => s
  | some g =>
    match translate s g.stamp c.pc.toNat false with
    | .error _ => s
    | .ok (pa, p) => l1Write s (pairOf g.core) 0 pa p (leBytes 4 w.toNat) false
/-- The word placed so that the very next step executes it: over the word of the lane set that issues next, else as the first
word of a loaded program. -/
def placeWord (s : State) (w : Word) : State :=
  match nextIssue s with
  | some (core, part, c) => { patchWord s c w with agenda := [.issue core part] }
  | none => { bootState s w with agenda := [.issue 0 0] }

end Sys2Proof.Machine
end

