-- ==== Sys2Proof/Machine/Step.lean ====
section
/-!
DEFINITION. One step of the machine: the next turn of its agents (DESIGN CHOICE, log 2) executes its word or event through `exec`, and what
completes with it settles. Three outcomes: a next state, a fault, a refusal.
-/
namespace Sys2Proof.Machine

/-- What a turn does in a state. -/
def stepTurn (t : Turn) (s : State) : Host.Outcome State Fault Refusal :=
  match prepare t s with
  | (none, u) => .next (afterTurn t u)
  | (some i, u) =>
    match exec i u with
    | .next v => .next (afterTurn t v)
    | .fault f => .fault f
    | .refused r => .refused r

/-- The event takes place and changes the state. -/
def moves (s : State) (i : Instr) : Bool :=
  match exec i s with
  | .next t => decide (t ≠ s)
  | .fault _ => false
  | .refused _ => false
/-- The turn that follows when the agenda names none (DESIGN CHOICE, log 2): work of the device's own agents, then an issue, then time. -/
def autoTurn (s : State) : Turn :=
  match (ownEvents s).find? (moves s) with
  | some i => .event i
  | none => match nextIssue s with
    | some (core, part, _) => .issue core part
    | none => .tick
/-- The next turn, and the state without it: time does not pass before every ready lane set that a port is free for has issued (R190, R194). -/
def popTurn (s : State) : Turn × State :=
  match s.agenda with
  | .tick :: r => match nextIssue s with
    | some (core, part, _) => (.issue core part, s)
    | none => (.tick, { s with agenda := r })
  | t :: r => (t, { s with agenda := r })
  | [] => (autoTurn s, s)

/-- One step. -/
def step (s : State) : Host.Outcome State Fault Refusal := stepTurn (popTurn s).1 (popTurn s).2

/-- `s` with the word `w` placed where the next step fetches (DESIGN CHOICE, log 5). -/
def State.withFetchWord (s : State) (_nbits w : Nat) : State := placeWord s (BitVec.ofNat 32 w)

end Sys2Proof.Machine
end

