-- ==== Sys2Proof/Machine/Image.lean ====
section
/-!
DEFINITION. The byte layout of a context image (R434 to R438): what a save writes, from the data that `Image` holds.
-/
namespace Sys2Proof.Machine

/-- A little-endian field of `n` bytes. -/
def fieldBytes (n v : Nat) : List Byte := leBytes n v
/-- Zero bytes up to a multiple of 64. -/
def padded (bs : List Byte) : List Byte := bs ++ rep (alignUp bs.length 64 - bs.length) 0

/-! ### Group records (R436) -/

/-- The registers that a group record holds: those of the quads present, below W. -/
def GroupImage.present (g : GroupImage) : List Nat := (upTo 0 g.group.window).filter fun n => g.quads.getLsbD (n / 4)
/-- The lanes that had not ended. -/
def GroupImage.mask (g : GroupImage) : Nat := g.lanes.foldl (fun m e => m + 2 ^ e.1) 0
/-- The group header. -/
def GroupImage.head (g : GroupImage) : List Byte :=
  let x := g.group
  fieldBytes 4 x.gridix.toNat ++
  fieldBytes 4 (x.width + x.window * 2 ^ 8 + x.divmax * 2 ^ 16 + x.role * 2 ^ 20 + (if g.light then 2 ^ 22 else 0)) ++
  fieldBytes 4 g.quads.toNat ++
  fieldBytes 4 ((dedup (x.slots.map (·.1))).foldl (fun m k => m + 2 ^ k) 0) ++
  fieldBytes 8 g.mask ++ rep 8 0 ++
  ((upTo 0 16).flatMap fun c => fieldBytes 8 (((x.conv.get? c).map fun v => v.declared.toNat).getD 0)) ++
  ((upTo 0 16).flatMap fun k => fieldBytes 4 (((x.bars.get? k).map fun m => (lanesOf m).length).getD 0)) ++ rep 32 0
/-- The `held` field of a lane entry. -/
def heldCode : Held → Nat
  | .join => 1
  | .bar k sc => 2 + k * 16 + sc * 256
  | .prePoint _ _ => 3
  | _ => 0
/-- A lane entry. -/
def laneEntry (y : Lane) : List Byte :=
  fieldBytes 8 y.pc.toNat ++ fieldBytes 16 y.preds.toNat ++ fieldBytes 4 y.fpstat.toNat ++ fieldBytes 4 (heldCode y.held) ++
  fieldBytes 4 (txQuery y).toNat ++ fieldBytes 4 (if y.txn.isSome then 1 else 0) ++ rep 24 0
/-- Lane word `n` of the register that a divergence entry occupies (Table 10-1). -/
def entryWord (e : DivEntry) (n : Nat) : Nat :=
  match n with
  | 0 => e.pc.toNat % 2 ^ 32
  | 1 => e.pc.toNat / 2 ^ 32 % 2 ^ 25
  | 2 => e.mask.toNat % 2 ^ 32
  | 3 => e.mask.toNat / 2 ^ 32
  | 4 => 2 ^ 31 + e.seq % 2 ^ 16
  | _ => 0
/-- A group record: header, lane entries, register section and divergence section; that of a retired group is its header alone. The
register of each live divergence entry is its place in the group's list of entries. (DESIGN CHOICE, log 34) -/
def GroupImage.bytes (g : GroupImage) : List Byte :=
  if g.lanes = [] then g.head
  else
    let ls := upTo 0 g.group.width
    g.head ++
    (ls.flatMap fun l => match g.lanes.get? l with
      | some y => laneEntry y
      | none => rep 64 0) ++
    (g.present.flatMap fun n => ls.flatMap fun l => fieldBytes 4 (if (g.lanes.get? l).isSome then (g.regs.rd (l * 128 + n)).toNat else 0)) ++
    ((upTo 0 g.group.divmax).flatMap fun i => ls.flatMap fun l => fieldBytes 4 (((g.group.entries[i]?).map fun e => entryWord e l).getD 0))

/-! ### The team header (R434, R435) -/

/-- A ring entry. -/
def ringEntry (r : Ring) : List Byte := fieldBytes 4 (r.n + r.free * 2 ^ 16) ++ fieldBytes 4 (r.res + r.full * 2 ^ 16) ++ fieldBytes 4 r.taken ++ rep 4 0
/-- Every group record, in team position order, a retired group's among them. -/
def Image.records (m : Image) : List Byte := m.groups.flatMap fun g => g.2.bytes
/-- Cores that the team occupies. -/
def Image.cores (m : Image) : Nat := if m.teamRec.pair then 2 else 1
/-- The scratchpad section (R437). -/
def Image.scratch (m : Image) : List Byte :=
  padded ((if m.wholeSpm then fieldBytes 4 0 else fieldBytes 4 m.ranges.length ++ m.ranges.flatMap (fieldBytes 4))) ++
  (if m.wholeSpm then (upTo 0 (m.teamRec.banks.length * Config.bankBytes)).map m.spm.rd
   else m.ranges.flatMap fun w => (upTo (w / 65536 * 32) (w % 65536 * 32)).map m.spm.rd)
/-- The tile section (R438): per core, its tiles and then its side words. -/
def Image.tileBytes (m : Image) : List Byte :=
  (upTo 0 m.cores).flatMap fun c =>
    ((upTo (c * 4096 * 256) (m.teamRec.tiles * 256)).flatMap fun n => fieldBytes 4 (m.tiles.rd n).toNat) ++
    ((upTo (c * 4096) m.teamRec.tiles).flatMap fun n => fieldBytes 4 (m.side.rd n).toNat)
/-- The offset of the scratchpad section. -/
def Image.spOff (m : Image) : Nat := 512 + m.records.length
/-- The offset of the tile section. -/
def Image.tlOff (m : Image) : Nat := alignUp (m.spOff + m.scratch.length) 64
/-- Bytes of the image as written. -/
def Image.size (m : Image) : Nat := m.tlOff + m.tileBytes.length
/-- The team header (Table 24-2). -/
def Image.head (m : Image) : List Byte :=
  let t := m.teamRec
  let flag (b : Bool) (n : Nat) : Nat := if b then 2 ^ n else 0
  fieldBytes 4 0x31585443 ++ fieldBytes 2 1 ++ fieldBytes 2 (flag (!m.wholeSpm) 0 + flag t.pair 1 + flag m.targeted 2) ++
  fieldBytes 8 t.kentry ++ fieldBytes 4 (t.func * 64 + t.dom) ++ fieldBytes 4 t.teamix.toNat ++ fieldBytes 4 t.groups.length ++ fieldBytes 4 t.prio ++
  fieldBytes 8 m.spOff ++ fieldBytes 8 m.tlOff ++ fieldBytes 8 m.size ++ rep 8 0 ++
  ((upTo 0 16).flatMap fun k => fieldBytes 4 (((t.bars.get? k).map (·.length)).getD 0)) ++
  ((upTo 0 16).flatMap fun r => ringEntry ((t.rings.get? r).getD {})) ++ rep 128 0
/-- The bytes of the image (R434): its parts in order, each at a multiple of 64. -/
def Image.bytes (m : Image) : List Byte :=
  m.head ++ m.records ++ padded m.scratch ++ m.tileBytes

end Sys2Proof.Machine
end

