-- ==== Sys2Proof/WellFormed.lean ====
section
/-!
DEFINITION. Well-formed instructions. A word instruction is well formed when the checks of R51 that depend on the word alone pass
(steps 1 and 3 to 6, Table 2-11); a word with no row of the opcode table is well formed as `illegalEncoding`; an event is well
formed when its operands name places that a KS960-M has (spec/01_device_overview.md, Table 1-1).
-/
namespace Sys2Proof

/-- A function number: the steward 0 or a virtual function 1 to 16 (spec/05_host_commands_and_launch.md). -/
def fnOk (fn : Nat) : Bool := decide (fn < 17)
/-- A command slot of a command page. -/
def cmdOk (fn slot : Nat) : Bool := fnOk fn && decide (slot < 16)
/-- A graph of a function. -/
def graphOk (fn graph : Nat) : Bool := fnOk fn && decide (graph < 64)
/-- A die. -/
def dieOk (die : Nat) : Bool := decide (die < Config.dies)
/-- A core, numbered over the module. -/
def coreOk (core : Nat) : Bool := decide (core < Config.cores)
/-- A lane of a group. -/
def laneOk (lane : Nat) : Bool := decide (lane < 64)
/-- A home slice of a die. -/
def sliceOk (die slice : Nat) : Bool := dieOk die && decide (slice < 32)
/-- The partitions named for the groups of a team; 12 to 23 are those of a pair's second core. -/
def partsOk (parts : List Nat) : Bool := parts.all fun p => decide (p < 2 * Config.partitions)

/-- The instruction is well formed. -/
def Instr.wf : Instr → Bool
  | .fence gd _ slot k ord => (staticSub (encode (.fence gd 0 slot k ord))).isNone
  | .illegalEncoding w => decide (decode w = .illegalEncoding w)
  | .completionRecord fn => fnOk fn
  | .modLoad fn slot | .graphLoad fn slot | .graphKick fn slot | .graphStopDrain fn slot | .graphStopAbort fn slot | .memMap fn slot
  | .memUnmap fn slot | .arenaRoot fn slot | .traceSet fn slot | .vfHalt fn slot | .vfResume fn slot | .vfQuery fn slot
  | .cfgCommit fn slot | .resetVf fn slot => cmdOk fn slot
  | .kernelNodeStart fn graph _ | .copyNodeStart fn graph _ | .copyNodeComplete fn graph _ | .conditionNode fn graph _
  | .whileNode fn graph _ | .whileBodyExit fn graph _ | .joinNode fn graph _ => graphOk fn graph
  | .gridClaim _ die count => dieOk die && decide (0 < count)
  | .claimGrant _ | .invertedBatchStart _ | .invertedBatchEnd _ | .dependencySlotClear _ | .matrixOpComplete _
  | .continuationBinEntry _ | .tagPostArrival _ | .parkRegistration _ | .engineOpAccept _ | .engineOpComplete _ | .engineOpFailure _
  | .engineRecall _ _ | .collectiveArrival _ _ | .collectiveTimeout _ | .messageArrival _ | .readGatherReply _
  | .combiningBufferFlush _ | .atomicApply _ | .translationWalk _ | .gridCompletion _ | .teamResourcesFree _ | .moduleReset | .pwrOk
  | .homeSliceAccess _ | .backgroundScrub _ _ | .linkFlitReceive _ _ | .linkDown _ | .sidebandRead _ => true
  | .teamPlacement _ _ core parts | .contextRestore _ core parts => coreOk core && partsOk parts
  | .instructionFetchFill _ pc => decide (pc % 4 = 0)
  | .binTimerExpiry die bin => dieOk die && decide (bin < Config.binsPerDie)
  | .binGroupPlacement die bin core part => dieOk die && decide (bin < Config.binsPerDie) && coreOk core && partsOk [part]
  | .awaitTimeout _ k | .txnCommit _ k => laneOk k
  | .faultSlotRetry _ k => decide (k ≤ 64)
  | .arenaSealPoint arena | .arenaSealComplete arena | .drainMark arena | .arenaDropComplete arena | .arenaNumberRecycle arena =>
    decide (0 < arena) && decide (arena < Config.arenas)
  | .discardSweep place => decide (place < 256)
  | .preemptRequest _ cores windowUs => cores.all coreOk && decide (0 < windowUs)
  | .graceWindowEnd _ passes => decide (0 < passes)
  | .marginCoreIdle core | .loanRevocation core => coreOk core
  | .poolDecisionPoint fn => fnOk fn
  | .forwardingStubRetire die slice | .sliceMapInstall die slice _ => sliceOk die slice
  | .commandSlotWrite fn link offset bytes => fnOk fn && decide (link < 2) && decide (offset + bytes.length ≤ 4096)
  | .cqcfgWrite fn link _ => fnOk fn && decide (link < 2)
  | .cqheadWrite fn _ => fnOk fn
  | .registerWrite fn offset _ => fnOk fn && decide (offset < 4096) && decide (offset % 4 = 0)
  | .dieFailure die | .thermalLimit die _ => dieOk die
  | .powerMeasurement _ die _ => dieOk die
  | .attestationQuote nonce => decide (nonce.length = 32)
  | .hostLinkDown link | .hostLinkUp link => decide (link < 2)
  | i => (staticSub (encode i)).isNone

end Sys2Proof
end

