-- ==== Sys2Proof/Safety.lean ====
section
/-!
DEFINITION. The terms in which statements about runs are made: the canonical form of a state, the conditions under which a word
passes every check at its issue, and what a word that writes registers of its executing lanes leaves.
-/
namespace Sys2Proof.Machine

/-- The tables that reads and writes of registers, lanes, groups, banks, memory, headers, copies, slice lines and tiles go through stand in their
canonical form. -/
def State.wf (s : State) : Bool :=
  Memory.wf s.mem && s.vregs.sorted && s.lanes.sorted && s.groups.sorted && s.spm.sorted && s.hdr.sorted && s.hostLines.sorted &&
  s.hostLines.all (fun e => e.2.data.sorted) && s.l1.all (fun e => e.2.data.sorted) && s.tiles.sorted && s.side.sorted &&
  s.l1.sorted && s.slices.sorted

/-- The context in which the word of `i` stands at its issue, its executing set found by the guard (R23). -/
def atIssue (i : Instr) (c : Cur) (g : Group) (s : State) : Ctx :=
  { ctxOf s g c (encode i) with active := guardSet (ctxOf s g c (encode i)), go := guardSet (ctxOf s g c (encode i)) }

/-- The word of `i` passes every check at its issue for the lane set `c` of group `g`: the vote chose `c`, no step of R51 and no
role check (R171) fails, a covered word meets no pending write and its lanes hold no early value (R201), the guard holds in some lane (R23), the uniform claim holds
(R25), and no executing lane fails a check of gates, transactions or poison (R139, R374, R465). -/
def issues (i : Instr) (s : State) (c : Cur) (g : Group) : Bool :=
  let x := atIssue i c g s
  decide (s.cur = some c) && decide (s.groups.get? c.gid = some g) && (checkWord s x).isNone &&
  ((coverFor g x.h).isNone || (!interlocked s x && decide (usedEarly x g.early = g.early))) && decide (x.active ≠ 0) && (uniformBad x).isNone &&
  (lanesOf x.active).all fun l => (laneCheck s x false l).isNone

/-- The last write of a register in a list of writes, or the old value. -/
def lastReg (rs : List (Nat × Word)) (n : Nat) (old : Word) : Word := rs.foldl (fun v r => if r.1 = n then r.2 else v) old
/-- The predicates of a lane after a list of writes. -/
def lastPreds (ps : List (Nat × Bool)) (old : BitVec 128) : BitVec 128 := ps.foldl (fun v p => setBit128 v p.1 p.2) old

/-- The group after a word's issue: only its issue times, its coverage (R39), the early values that the word has used (R201), the lanes that
alone may issue (R181), the ac left of a batch (R193) and its slots may differ. -/
def groupPassed (x : Ctx) (g g' : Group) : Prop :=
  g' = { g with lastIssue := x.now, only := 0, early := usedEarly x g.early, notBefore := g'.notBefore, cover := g'.cover,
                yielded := g'.yielded, yieldAc := g'.yieldAc, slots := g'.slots,
                batch := if g.lastIssue = x.now then g.batch else g.batch - 1 }

/-- What a word leaves that delivers `f l` to each lane `l` of its executing set and does nothing else: the registers and predicates
that `f` names, the sticky flags of its events (R229), the lanes past the word; every other register, lane and group, all of memory and
every other part of the state stay. -/
def delivers (x : Ctx) (f : Nat → LaneRes) (s t : State) : Prop :=
  (∀ l, l < 64 → ∀ n, n < 128 → vreg t (x.lk l) n = if has x.active l then lastReg (f l).regs n (vreg s (x.lk l) n) else vreg s (x.lk l) n) ∧
  (∀ k, k / 64 ≠ x.gid → ∀ n, n < 128 → vreg t k n = vreg s k n) ∧
  (∀ l, l < 64 → t.lanes.get? (x.lk l) = (s.lanes.get? (x.lk l)).map fun y =>
    if has x.active l then { passed x y with preds := lastPreds (f l).preds y.preds, fpstat := fpFlags y.fpstat (f l).ev }
    else if has x.cur.lanes l then passed x y else y) ∧
  (∀ k, k / 64 ≠ x.gid → t.lanes.get? k = s.lanes.get? k) ∧
  (∃ g', t.groups.get? x.gid = some g' ∧ groupPassed x x.g g') ∧
  (∀ h, h ≠ x.gid → t.groups.get? h = s.groups.get? h) ∧
  (∀ q a, homeByte t q a = homeByte s q a) ∧
  t = { s with cur := none, nextId := s.nextId + 1, vregs := t.vregs, lanes := t.lanes, groups := t.groups, board := t.board,
               poisonRegs := t.poisonRegs }

/-- The executing lanes take the events of `f` without a trap (R229, R234). -/
def noTrap (x : Ctx) (f : Nat → LaneRes) (s : State) : Prop :=
  ∀ l, has x.active l = true → fpTrap (laneAt s (x.lk l)).fpstat (f l).ev = none

/-- The lane whose operands an execution uses for lane `l`: its own, or the lowest executing lane's under U = 1 (R25, R55). -/
def Ctx.opLane (x : Ctx) (l : Nat) : Nat := x.lk (if x.u then lowest x.active else l)

/-- Whenever the word of `i` passes its checks at issue and each executing lane `l` meets `ok x l`, it answers a next state in which
each executing lane `l` has taken the result `f x l` and nothing else has changed. -/
def Delivers (i : Instr) (ok : Ctx → Nat → Prop) (f : Ctx → Nat → LaneRes) : Prop :=
  ∀ (s : State) (c : Cur) (g : Group), s.wf = true → issues i s c g = true →
    (∀ l, has (atIssue i c g s).active l = true → ok (atIssue i c g s) l) →
    ∃ t, exec i s = .next t ∧ delivers (atIssue i c g s) (f (atIssue i c g s)) s t
/-- No condition on the lanes. -/
def always (_ : Ctx) (_ : Nat) : Prop := True
/-- No event of the lane's result meets an enable of its FPSTAT (R229, R234). -/
def untrapped (f : Ctx → Nat → LaneRes) (x : Ctx) (l : Nat) : Prop := fpTrap (laneAt x.rs (x.lk l)).fpstat (f x l).ev = none

/-! ### Words with other effects -/

/-- The state in which a word that passes its checks takes its effect: the vote's choice is used up, the word has its token, and the
issuing set stands past the word. -/
def issued (i : Instr) (c : Cur) (g : Group) (s : State) : State :=
  advance (ctxOf { s with cur := none } g c (encode i)) { s with cur := none, nextId := s.nextId + 1 }
/-- Its context: `atIssue` with its sources read in that state. -/
def issuedCtx (i : Instr) (c : Cur) (g : Group) (s : State) : Ctx := { atIssue i c g s with rs := issued i c g s }
/-- The state with the word's results booked and its slot taken, as its effect finds it. -/
def ready (i : Instr) (c : Cur) (g : Group) (s : State) : State := booked (issuedCtx i c g s) (issued i c g s)

/-- Whenever the word of `i` passes its checks at issue and `ok` holds, it answers the next state that `eff` gives, a slot whose word
has nothing in flight being clear (R30). -/
def Runs (i : Instr) (ok : Ctx → State → Prop) (eff : Ctx → State → State) : Prop :=
  ∀ (s : State) (c : Cur) (g : Group), issues i s c g = true → ok (atIssue i c g s) s →
    exec i s = .next (finish (issuedCtx i c g s) (eff (issuedCtx i c g s) (ready i c g s)))
/-- Whenever the word of `i` passes its checks at issue and `ok` holds, it answers a next state for which `post` holds. -/
def Reaches (i : Instr) (ok : Ctx → State → Prop) (post : Ctx → State → State → Prop) : Prop :=
  ∀ (s : State) (c : Cur) (g : Group), s.wf = true → issues i s c g = true → ok (atIssue i c g s) s →
    ∃ t, exec i s = .next t ∧ post (atIssue i c g s) s t
/-- No condition on the state. -/
def anyState (_ : Ctx) (_ : State) : Prop := True

/-- The lanes after a word: executing lanes become `F l`, the other lanes of the issuing set stand past the word, all others stay. -/
def lanesBecome (x : Ctx) (F : Nat → Lane → Lane) (s t : State) : Prop :=
  (∀ l, l < 64 → t.lanes.get? (x.lk l) = (s.lanes.get? (x.lk l)).map fun y =>
    if has x.active l then F l y else if has x.cur.lanes l then passed x y else y) ∧
  (∀ k, k / 64 ≠ x.gid → t.lanes.get? k = s.lanes.get? k)
/-- The executing lanes have ended (R169); the other lanes of the issuing set stand past the word, all others stay. -/
def lanesEnd (x : Ctx) (s t : State) : Prop :=
  (∀ l, l < 64 → t.lanes.get? (x.lk l) = if has x.active l then none else
    (s.lanes.get? (x.lk l)).map fun y => if has x.cur.lanes l then passed x y else y) ∧
  (∀ k, k / 64 ≠ x.gid → t.lanes.get? k = s.lanes.get? k)
/-- The group after a word meets `G`; every other group stays. -/
def groupBecomes (x : Ctx) (G : Group → Prop) (s t : State) : Prop :=
  (∃ g', t.groups.get? x.gid = some g' ∧ G g') ∧ ∀ h, h ≠ x.gid → t.groups.get? h = s.groups.get? h
/-- Everything but lanes, groups, the scoreboard and poison marks of registers stays: registers, memory, every other unit. -/
def onlyControl (s t : State) : Prop :=
  t = { s with cur := none, nextId := s.nextId + 1, lanes := t.lanes, groups := t.groups, board := t.board, poisonRegs := t.poisonRegs }
/-- As `onlyControl`, with registers that may change too. -/
def onlyRegisters (s t : State) : Prop :=
  t = { s with cur := none, nextId := s.nextId + 1, vregs := t.vregs, lanes := t.lanes, groups := t.groups, board := t.board,
               poisonRegs := t.poisonRegs }

/-- Nothing holds back a release at scope `k` by the executing lanes: their accesses have completed (R295); at device or system scope the
write-backs of the pair's dirty lines have been made for each lane, or none is dirty (R273, R346); at system scope the same holds of the
domain's host-backed slice lines. -/
def releaseDone (x : Ctx) (s : State) (k : Nat) : Bool :=
  !anyOutstanding s x.gid x.active &&
  (decide (k < 2) ||
    (((victimsOf s x.pair x.g.stamp == [] && dirtyCopies s x.pair x.g.stamp == []) || (lanesOf x.active).all fun l => (relOf s (x.lk l)).isSome) &&
     ((lanesOf x.active).all fun l => !relWaits s (relOf s (x.lk l))) &&
     (decide (k < 3) || dirtyHost s x.g.stamp == [] || (lanesOf x.active).all fun l => match relOf s (x.lk l) with
       | some r => r.1
       | none => false)))

/-- The answers of failed walks taken by the word's group (R420) and its translations used (R280), as a memory word that goes on with the
addresses leaves them. -/
def Ctx.taken (x : Ctx) (s : State) (vas : List Nat) : State :=
  tlbUse x.pair x.g.stamp vas { s with noPage := s.noPage.filter fun e => e.1 != x.gid }
/-- No address of the list has to wait for a page walk (R280). -/
def Ctx.walked (x : Ctx) (s : State) (vas : List Nat) : Prop := unwalked s x.gid x.g vas = []
/-- The state after a release that nothing holds back: what the lanes noted of its write-backs is cleared. -/
def Ctx.released (x : Ctx) (s : State) (k : Nat) : State :=
  match releaseAt s x.gid x.go x.pair x.g.stamp k with
  | .ok t => t
  | .error t => t
/-- The home slice of a line holds it under a tag, or has an invalid way for it: an access there makes no line leave (R277). -/
def homeRoom (s : State) (tag line : Nat) : Bool :=
  let k := homeNo (sliceHome s (line * 64))
  (sliceWay s k line tag).isSome || (setWays s k line).any fun e => e.2.isNone
/-- A byte under tag `q` that an access to `line` under `tag` leaves where it is held: memory beyond the host's, or, where no line must leave
for it, the bytes of the same tag. -/
def undisturbed (s : State) (tag line q b : Nat) : Prop := isHost b = false ∨ (q = tag ∧ homeRoom s tag line = true)
/-- The PCI Express transactions of the next `n` host accesses do not fail: whether one does is open (R281; DESIGN CHOICE, log 51). -/
def hostAnswers (s : State) (n : Nat) : Prop := ∀ j, j < n → Config.freeBit (s.freeCtr + j) = false
/-- The state in which an access to a place goes out, its host transaction answered. -/
def hostSpent (s : State) : Place → State
  | .spm _ => s
  | .mem pa _ => (hostFails s pa).2
/-- The word's accesses go to their places outside a transaction, or to banks, and those to host memory are answered: `m` free choices are made by
each act at most. -/
def Ctx.placed (x : Ctx) (s : State) (pl : Nat × BitVec 64 → Place) (m : Nat) : Prop :=
  ∀ c ∈ x.acts, ((laneAt s (x.lk c.1)).txn = none ∨ ∃ key, pl c = .spm key) ∧ ∀ pa p, pl c = .mem pa p → isHost pa = true → hostAnswers s (m * x.acts.length)
/-- One act of a load that passes its checks, at its place (R289, R290, R292): a bank's bytes, and those of a copy that hits, are sent at once;
others are asked for at the home. A load with acquire holds its lanes until the value is written. -/
def loadAt (x : Ctx) (path : Option Nat) (d f cls : Nat) (acq promote : Bool) (s : State) (c : Nat × BitVec 64) : Place → State
  | .spm key => x.send s (x.spread c.2 (loadRegs f d (spmBytes s key (if f = 8 then 2 else kindBytes f)))) (if acq then (lanesOf c.2).map x.lk else [])
  | .mem pa p =>
    let n := if f = 8 then 2 else kindBytes f
    match (if promote then none else loadHit s x ⟨path, false⟩ (x.lk c.1) pa n p f) with
    | some bs =>
      let u := x.send (l1Use s x.pair (path.getD 0) (pa / 64) p.tag) (x.spread c.2 (loadRegs f d bs)) (if acq then (lanesOf c.2).map x.lk else [])
      if cls = 3 then lastUse u x.pair (path.getD 0) pa p else u
    | none =>
      sendAcc ((if acq then (lanesOf c.2).map x.lk else []).foldl (fun t q => modLane t q fun y => { y with held := .result }) (hostFails s pa).2)
        { kind := match path with
            | some q => .fill q
            | none => .readHome, tok := x.tok, gid := x.gid, lane := x.lk c.1, pair := x.pair, dom := p.dom, arena := p.arena, gen := p.gen,
          pa := if f = 8 then pa / 64 * 64 else pa, size := n, lkind := f, reg := d, lanes := c.2, acq := acq, promote := promote, cc := cls }
/-- One act of a store that passes its checks, at its place (R293): a bank takes the bytes at once, `st` writes the pair's copy, a release goes on
to the home too, `stnc` goes to the home alone. -/
def storeAt (x : Ctx) (nc rel : Bool) (d f cls : Nat) (s : State) (c : Nat × BitVec 64) : Place → State
  | .spm key => spmWrite s key (storeBytes x.rs (x.lk c.1) d (kindBytes f))
  | .mem pa p =>
    let n := kindBytes f
    let bs := storeBytes x.rs (x.lk c.1) d n
    let home (k : AccKind) : Access :=
      { kind := k, tok := x.tok, gid := x.gid, lane := x.lk c.1, pair := x.pair, dom := p.dom, arena := p.arena, gen := p.gen, pa := pa, size := n,
        bytes := bs, cc := cls }
    if nc then sendAcc (hostFails s pa).2 (home .merge)
    else if rel then sendAcc (l1Write (fixLoads (hostFails s pa).2 (x.lk c.1) pa n) x.pair 0 pa p bs false cls) (home .through)
    else l1Write (fixLoads s (x.lk c.1) pa n) x.pair 0 pa p bs true cls
/-- One act of a prefetch (R294): the line is asked for, or the prefetch is dropped. -/
def prefAt (x : Ctx) (path : Option Nat) (a cls : Nat) (s : State) (c : Nat × BitVec 64) : State :=
  match placeOf s x.g (x.va (x.lk c.1) a) 0 false false with
  | .ok (.mem pa p) =>
    if (laneAt s (x.lk c.1)).txn.isSome then s
    else
      let s := (unwalked s x.gid x.g [x.va (x.lk c.1) a]).foldl (startWalk x.gid x.g) s
      if poisoned s pa then s
      else sendAcc s { kind := match path with
                       | some q => .fill q
                       | none => .readHome, tok := 0, gid := x.gid, lane := noLane, pair := x.pair, dom := p.dom, arena := p.arena, gen := p.gen, pa := pa / 64 * 64, size := 0, cc := cls }
  | _ => s
/-- Byte `j` of the registers from vN up, little-endian (R293). -/
def regByte (s : State) (k n j : Nat) : Byte := (vreg s k (n + j / 4)).extractLsb' (8 * (j % 4)) 8
/-- The event `i` takes place in `s` and leaves a state that `post` describes. -/
def Occurs (i : Instr) (s : State) (post : State → Prop) : Prop := ∃ t, exec i s = .next t ∧ post t

end Sys2Proof.Machine
end

