-- ==== Sys2Proof/Certificates/Slice0/Obligations.lean ====
section
/-! DEFINITION. The statements for the provers, chapter by chapter of the spec. OBLIGATIONS.json lists them. -/
open Sys2Proof Sys2Proof.Machine

/-- Where `bad` holds of the operands of every execution, each raises the fault that `f` names, in its lanes and in order, and nothing else happens. -/
def allRaise (i : Instr) (bad : Ctx → Nat → Prop) (f : Ctx → Nat → FaultInfo) : Prop :=
  Runs i (fun x _ => ∀ c ∈ x.acts, bad x c.1) fun x t => x.acts.foldl (fun u c => x.raiseAll u c.2 (f x c.1)) t
/-- Where a check `fail` of a word fails in every execution, each raises the fault that the check names, and nothing else happens. -/
def allFail (i : Instr) (fail : Ctx → State → Nat → Option FaultInfo) : Prop :=
  ∀ f : Nat → FaultInfo, Runs i (fun x s => ∀ c ∈ x.acts, fail x s c.1 = some (f c.1)) fun x t => x.acts.foldl (fun u c => x.raiseAll u c.2 (f c.1)) t

/-! ### Words that write registers and predicates of their executing lanes -/

/-- R45, R236, Table 12-2: the exact integer, saturated or wrapped to the type, goes to vD, in the register and the immediate forms (where vD is
the first operand of a binary word); nothing else changes. -/
def Obligations.IntegerArithmeticDelivers : Prop :=
  (∀ q d a b, Delivers (.iadd q d a b) always fun x l =>
    x.putInt d.toNat (x.val (x.pat (x.opLane l) a.toNat) + x.val (x.pat (x.opLane l) b.toNat))) ∧
  (∀ q d a b, Delivers (.isub q d a b) always fun x l =>
    x.putInt d.toNat (x.val (x.pat (x.opLane l) a.toNat) - x.val (x.pat (x.opLane l) b.toNat))) ∧
  (∀ q d a b, Delivers (.imul q d a b) always fun x l =>
    x.putInt d.toNat (x.val (x.pat (x.opLane l) a.toNat) * x.val (x.pat (x.opLane l) b.toNat))) ∧
  (∀ q d a b, Delivers (.imulh q d a b) always fun x l =>
    x.putInt d.toNat ((x.val (x.pat (x.opLane l) a.toNat) * x.val (x.pat (x.opLane l) b.toNat)) / (2 ^ itypeBits x.o : Int))) ∧
  (∀ q d a b, Delivers (.imin q d a b) always fun x l =>
    x.putInt d.toNat (min (x.val (x.pat (x.opLane l) a.toNat)) (x.val (x.pat (x.opLane l) b.toNat)))) ∧
  (∀ q d a b, Delivers (.imax q d a b) always fun x l =>
    x.putInt d.toNat (max (x.val (x.pat (x.opLane l) a.toNat)) (x.val (x.pat (x.opLane l) b.toNat)))) ∧
  (∀ q d a, Delivers (.iabs q d a) always fun x l => x.putInt d.toNat ((x.val (x.pat (x.opLane l) a.toNat)).natAbs : Int)) ∧
  (∀ q d a, Delivers (.ineg q d a) always fun x l => x.putInt d.toNat (-x.val (x.pat (x.opLane l) a.toNat))) ∧
  (∀ q d imm, Delivers (.iaddImm q d imm) always fun x l =>
    x.putInt d.toNat (x.val (x.pat (x.opLane l) d.toNat) + x.val (x.immPat imm))) ∧
  (∀ q d imm, Delivers (.isubImm q d imm) always fun x l =>
    x.putInt d.toNat (x.val (x.pat (x.opLane l) d.toNat) - x.val (x.immPat imm))) ∧
  (∀ q d imm, Delivers (.imulImm q d imm) always fun x l =>
    x.putInt d.toNat (x.val (x.pat (x.opLane l) d.toNat) * x.val (x.immPat imm))) ∧
  (∀ q d imm, Delivers (.imulhImm q d imm) always fun x l =>
    x.putInt d.toNat ((x.val (x.pat (x.opLane l) d.toNat) * x.val (x.immPat imm)) / (2 ^ itypeBits x.o : Int))) ∧
  (∀ q d imm, Delivers (.iminImm q d imm) always fun x l =>
    x.putInt d.toNat (min (x.val (x.pat (x.opLane l) d.toNat)) (x.val (x.immPat imm)))) ∧
  (∀ q d imm, Delivers (.imaxImm q d imm) always fun x l =>
    x.putInt d.toNat (max (x.val (x.pat (x.opLane l) d.toNat)) (x.val (x.immPat imm)))) ∧
  (∀ q d imm, Delivers (.iabsImm q d imm) always fun x _ => x.putInt d.toNat ((x.val (x.immPat imm)).natAbs : Int)) ∧
  (∀ q d imm, Delivers (.inegImm q d imm) always fun x _ => x.putInt d.toNat (-x.val (x.immPat imm)))
/-- R237, Table 12-3: bitwise words on the w-bit patterns; `sel` takes vA where its predicate holds, p0 with no `opx`. What the bit counts and
the reversal of Table 12-3 are: the number of ones, the zeros above the highest one, bit i to w − 1 − i. -/
def Obligations.LogicAndBitCountsDeliver : Prop :=
  (∀ q d a b, Delivers (.andV q d a b) always fun x l => x.put d.toNat (x.pat (x.opLane l) a.toNat &&& x.pat (x.opLane l) b.toNat)) ∧
  (∀ q d a b, Delivers (.orV q d a b) always fun x l => x.put d.toNat (x.pat (x.opLane l) a.toNat ||| x.pat (x.opLane l) b.toNat)) ∧
  (∀ q d a b, Delivers (.xorV q d a b) always fun x l => x.put d.toNat (x.pat (x.opLane l) a.toNat ^^^ x.pat (x.opLane l) b.toNat)) ∧
  (∀ q d a, Delivers (.notV q d a) always fun x l => x.put d.toNat (2 ^ itypeBits x.o - 1 - x.pat (x.opLane l) a.toNat)) ∧
  (∀ q d a b, Delivers (.sel q d a b) always fun x l =>
    x.put d.toNat (if x.selPred (x.opLane l) then x.pat (x.opLane l) a.toNat else x.pat (x.opLane l) b.toNat)) ∧
  (∀ q d a, Delivers (.popc q d a) always fun x l => x.put d.toNat (popcount (itypeBits x.o) (x.pat (x.opLane l) a.toNat))) ∧
  (∀ q d a, Delivers (.clz q d a) always fun x l => x.put d.toNat (leadZeros (itypeBits x.o) (x.pat (x.opLane l) a.toNat))) ∧
  (∀ q d a, Delivers (.brev q d a) always fun x l => x.put d.toNat (bitReverse (itypeBits x.o) (x.pat (x.opLane l) a.toNat))) ∧
  (∀ q d imm, Delivers (.andImm q d imm) always fun x l => x.put d.toNat (x.pat (x.opLane l) d.toNat &&& x.immPat imm)) ∧
  (∀ q d imm, Delivers (.orImm q d imm) always fun x l => x.put d.toNat (x.pat (x.opLane l) d.toNat ||| x.immPat imm)) ∧
  (∀ q d imm, Delivers (.xorImm q d imm) always fun x l => x.put d.toNat (x.pat (x.opLane l) d.toNat ^^^ x.immPat imm)) ∧
  (∀ q d imm, Delivers (.notImm q d imm) always fun x _ => x.put d.toNat (2 ^ itypeBits x.o - 1 - x.immPat imm)) ∧
  (∀ q d imm, Delivers (.selImm q d imm) always fun x l =>
    x.put d.toNat (if x.selPred (x.opLane l) then x.pat (x.opLane l) d.toNat else x.immPat imm)) ∧
  (∀ q d imm, Delivers (.popcImm q d imm) always fun x _ => x.put d.toNat (popcount (itypeBits x.o) (x.immPat imm))) ∧
  (∀ q d imm, Delivers (.clzImm q d imm) always fun x _ => x.put d.toNat (leadZeros (itypeBits x.o) (x.immPat imm))) ∧
  (∀ q d imm, Delivers (.brevImm q d imm) always fun x _ => x.put d.toNat (bitReverse (itypeBits x.o) (x.immPat imm))) ∧
  (∀ w p : Nat, p < 2 ^ w →
    popcount w p = (List.range w).countP (fun i => p.testBit i) ∧
    (leadZeros w p ≤ w ∧ p < 2 ^ (w - leadZeros w p) ∧ (p ≠ 0 → p.testBit (w - 1 - leadZeros w p) = true)) ∧
    (∀ i, i < w → (bitReverse w p).testBit i = p.testBit (w - 1 - i)) ∧ bitReverse w p < 2 ^ w)
/-- R238, R239, Table 12-4: shifts, rotation, bit fields (bit by bit), multiply-add and address addition, register and immediate
forms. -/
def Obligations.ShiftFieldAndMultiplyAddDeliver : Prop :=
  (∀ q d a b, Delivers (.shl q d a b) always fun x l =>
    let n := x.pat (x.opLane l) b.toNat
    x.put d.toNat (if n < itypeBits x.o then x.pat (x.opLane l) a.toNat * 2 ^ n % 2 ^ itypeBits x.o else 0)) ∧
  (∀ q d a b, Delivers (.shr q d a b) always fun x l =>
    let n := x.pat (x.opLane l) b.toNat
    x.put d.toNat (if n < itypeBits x.o then x.pat (x.opLane l) a.toNat / 2 ^ n else 0)) ∧
  (∀ q d a b, Delivers (.sar q d a b) always fun x l =>
    let n := x.pat (x.opLane l) b.toNat
    x.put d.toNat (wrapNat (sextInt (x.pat (x.opLane l) a.toNat) (itypeBits x.o) / (2 ^ min n (itypeBits x.o) : Int)) (itypeBits x.o))) ∧
  (∀ q d a b, Delivers (.rot q d a b) always fun x l =>
    let n := x.pat (x.opLane l) b.toNat % itypeBits x.o
    let p := x.pat (x.opLane l) a.toNat
    x.put d.toNat (p * 2 ^ n % 2 ^ itypeBits x.o + p / 2 ^ (itypeBits x.o - n))) ∧
  (∀ q d a b, Delivers (.bfe q d a b) always fun x l =>
    x.put d.toNat (shiftFn 4 (itypeBits x.o) (itypeSigned x.o) (x.pat (x.opLane l) a.toNat) (x.pat (x.opLane l) b.toNat) 0)) ∧
  (∀ q d a b, Delivers (.bfi q d a b) always fun x l =>
    x.put d.toNat (shiftFn 5 (itypeBits x.o) (itypeSigned x.o) (x.pat (x.opLane l) a.toNat) (x.pat (x.opLane l) b.toNat) (x.pat (x.opLane l) d.toNat))) ∧
  (∀ q d a b, Delivers (.lea q d a b) always fun x l =>
    ⟨pairWrites d.toNat (BitVec.ofInt 64 ((vpair x.rs (x.opLane l) a.toNat).toNat + x.val (x.pat (x.opLane l) b.toNat))), [], 0⟩) ∧
  (∀ q d a b, Delivers (.imad q d a b) always fun x l =>
    x.putInt d.toNat (x.val (x.pat (x.opLane l) a.toNat) * x.val (x.pat (x.opLane l) b.toNat) +
      x.val (x.pat (x.opLane l) (if x.hasOpx then x.o.src3.toNat else d.toNat)))) ∧
  (∀ q d imm, Delivers (.shlImm q d imm) always fun x l =>
    x.put d.toNat (if x.immPat imm < itypeBits x.o then x.pat (x.opLane l) d.toNat * 2 ^ x.immPat imm % 2 ^ itypeBits x.o else 0)) ∧
  (∀ q d imm, Delivers (.shrImm q d imm) always fun x l =>
    x.put d.toNat (if x.immPat imm < itypeBits x.o then x.pat (x.opLane l) d.toNat / 2 ^ x.immPat imm else 0)) ∧
  (∀ q d imm, Delivers (.sarImm q d imm) always fun x l =>
    x.put d.toNat (wrapNat (sextInt (x.pat (x.opLane l) d.toNat) (itypeBits x.o) / (2 ^ min (x.immPat imm) (itypeBits x.o) : Int)) (itypeBits x.o))) ∧
  (∀ q d imm, Delivers (.rotImm q d imm) always fun x l =>
    let n := x.immPat imm % itypeBits x.o
    let p := x.pat (x.opLane l) d.toNat
    x.put d.toNat (p * 2 ^ n % 2 ^ itypeBits x.o + p / 2 ^ (itypeBits x.o - n))) ∧
  (∀ q d imm, Delivers (.bfeImm q d imm) always fun x l =>
    x.put d.toNat (shiftFn 4 (itypeBits x.o) (itypeSigned x.o) (x.pat (x.opLane l) d.toNat) (x.immPat imm) 0)) ∧
  (∀ q d imm, Delivers (.bfiImm q d imm) always fun x l =>
    x.put d.toNat (shiftFn 5 (itypeBits x.o) (itypeSigned x.o) (x.pat (x.opLane l) d.toNat) (x.immPat imm) (x.pat (x.opLane l) d.toNat))) ∧
  (∀ q d imm, Delivers (.leaImm q d imm) always fun x l =>
    ⟨pairWrites d.toNat (BitVec.ofInt 64 ((vpair x.rs (x.opLane l) d.toNat).toNat + immI x.h imm)), [], 0⟩) ∧
  (∀ q d imm, Delivers (.imadImm q d imm) always fun x l =>
    x.putInt d.toNat (x.val (x.pat (x.opLane l) d.toNat) * x.val (x.immPat imm) +
      x.val (x.pat (x.opLane l) (if x.hasOpx then x.o.src3.toNat else d.toNat)))) ∧
  (∀ (w : Nat) (sgn : Bool) (a n c i : Nat), (w = 32 ∨ w = 64) → a < 2 ^ w → c < 2 ^ w → i < w →
    let pos := n % 256
    let len := n / 256 % 256
    let m := min len w
    (shiftFn 4 w sgn a n c).testBit i = (if i < m then a.testBit (pos + i) else sgn && decide (m ≠ 0) && a.testBit (pos + m - 1)) ∧
    (shiftFn 5 w sgn a n c).testBit i = (if pos ≤ i ∧ i < min (pos + len) w then a.testBit (i - pos) else c.testBit i))

/-- The word whose bit `i` is `f i`. -/
def maskWord (f : Nat → Bool) : Word := BitVec.ofNat 32 (((List.range 32).map fun i => if f i then 2 ^ i else 0).sum)
/-- R240, R252, R254: comparisons write a predicate; an unordered floating-point comparison is governed by `cmpF`. R262 to R264: predicate
words. -/
def Obligations.ComparisonsAndPredicateWordsDeliver : Prop :=
  (∀ q d a b c, Delivers (.icmp q d a b c) always fun x l =>
    ⟨[], [(predNo d.toNat x.o.pxD, intCond c.toNat (x.val (x.pat (x.opLane l) a.toNat)) (x.val (x.pat (x.opLane l) b.toNat)))], 0⟩) ∧
  (∀ q d a b c, let f := fun (x : Ctx) (l : Nat) =>
      let r := cmpF fmt32 c.toNat (x.n32 (x.opLane l) a.toNat) (x.n32 (x.opLane l) b.toNat)
      (⟨[], [(predNo d.toNat x.o.pxD, r.1)], r.2⟩ : LaneRes)
    Delivers (.fcmp q d a b c) (untrapped f) f) ∧
  (∀ q c p a b, let f := fun (x : Ctx) (l : Nat) =>
      let r := cmpF fmt64 c.toNat (x.n64 (x.opLane l) a.toNat) (x.n64 (x.opLane l) b.toNat)
      (⟨[], [(p.toNat, r.1)], r.2⟩ : LaneRes)
    Delivers (.dcmp q c p a b) (untrapped f) f) ∧
  (∀ q d a b, Delivers (.pand q d a b) always fun x l => ⟨[], [(predNo d.toNat x.o.pxD,
    preg x.rs (x.opLane l) (predNo a.toNat x.o.pxA) && preg x.rs (x.opLane l) (predNo b.toNat x.o.pxB))], 0⟩) ∧
  (∀ q d a b, Delivers (.por q d a b) always fun x l => ⟨[], [(predNo d.toNat x.o.pxD,
    preg x.rs (x.opLane l) (predNo a.toNat x.o.pxA) || preg x.rs (x.opLane l) (predNo b.toNat x.o.pxB))], 0⟩) ∧
  (∀ q d a b, Delivers (.pxor q d a b) always fun x l => ⟨[], [(predNo d.toNat x.o.pxD,
    xor (preg x.rs (x.opLane l) (predNo a.toNat x.o.pxA)) (preg x.rs (x.opLane l) (predNo b.toNat x.o.pxB)))], 0⟩) ∧
  (∀ q d a, Delivers (.pnot q d a) always fun x l => ⟨[], [(predNo d.toNat x.o.pxD, !preg x.rs (x.opLane l) (predNo a.toNat x.o.pxA))], 0⟩) ∧
  (∀ q d k, Delivers (.pmovToV q d k) always fun x l => ⟨[(d.toNat, maskWord fun i => preg x.rs (x.opLane l) (32 * k.toNat + i))], [], 0⟩) ∧
  (∀ q a k, Delivers (.pmovToP q a k) always fun x l =>
    ⟨[], (upTo 0 32).map fun i => (32 * k.toNat + i, (vreg x.rs (x.opLane l) a.toNat).getLsbD i), 0⟩) ∧
  (∀ q d a, Delivers (.pcnt q d a) always fun x _ =>
    ⟨[(d.toNat, BitVec.ofNat 32 ((lanesOf x.active).countP fun l => preg x.rs (x.lk l) (predNo a.toNat x.o.pxA)))], [], 0⟩) ∧
  (∀ q d a, Delivers (.pany q d a) always fun x _ =>
    ⟨[], [(predNo d.toNat x.o.pxD, (lanesOf x.active).any fun l => preg x.rs (x.lk l) (predNo a.toNat x.o.pxA))], 0⟩) ∧
  (∀ q d a, Delivers (.pall q d a) always fun x _ =>
    ⟨[], [(predNo d.toNat x.o.pxD, (lanesOf x.active).all fun l => preg x.rs (x.lk l) (predNo a.toNat x.o.pxA))], 0⟩) ∧
  (∀ s k n b, preg s k 0 = true ∧ preg (setPreg s k 0 b) k n = preg s k n)

/-- R241 to R245: moves, reads of other lanes, reductions and lane quantities. A `bcast` of a lane beyond the width raises OPERAND detail 2. -/
def Obligations.MovesAndLaneWordsDeliver : Prop :=
  (∀ q d a, Delivers (.mov q d a) always fun x l => ⟨[(d.toNat, vreg x.rs (x.opLane l) a.toNat)], [], 0⟩) ∧
  (∀ q d imm, Delivers (.movi q d imm) always fun x _ => ⟨[(d.toNat, immMovi x.h imm)], [], 0⟩) ∧
  (∀ gd d a b, Delivers (.shfl gd d a b) always fun x l =>
    let k := (vreg x.rs (x.lk l) b.toNat).toNat % x.g.width
    ⟨[(d.toNat, vreg x.rs (x.lk (if has x.active k then k else l)) a.toNat)], [], 0⟩) ∧
  (∀ gd d a, Delivers (.vote gd d a) always fun x _ =>
    ⟨[], [(predNo d.toNat x.o.pxD, decide (∀ l ∈ lanesOf x.active, ∀ m ∈ lanesOf x.active,
      vreg x.rs (x.lk l) a.toNat = vreg x.rs (x.lk m) a.toNat))], 0⟩) ∧
  (∀ gd d a, Delivers (.ballot gd d a) always fun x _ =>
    ⟨pairWrites d.toNat (maskOf ((lanesOf x.active).filter fun l => preg x.rs (x.lk l) (predNo a.toNat x.o.pxA))), [], 0⟩) ∧
  (∀ gd d a b, Delivers (.bcast gd d a b) (fun x _ => b.toNat < x.g.width) fun x _ =>
    ⟨[(d.toNat, vreg x.rs (x.lk (if has x.active b.toNat then b.toNat else lowest x.active)) a.toNat)], [], 0⟩) ∧
  (∀ gd d a b, Runs (.bcast gd d a b) (fun x _ => x.g.width ≤ b.toNat) fun x t => x.raiseAll t x.active (x.fi 1 2)) ∧
  (∀ gd d a b, Delivers (.redg gd d a b) always fun x _ =>
    x.put d.toNat (redgFn x b.toNat ((lanesOf x.active).map fun l => x.pat (x.lk l) a.toNat))) ∧
  (∀ gd d b, Delivers (.lane gd d b) always fun x l =>
    ⟨[(d.toNat, BitVec.ofNat 32 (if b = 0 then l else if b = 1 then (lanesOf x.active).countP (fun i => i < l) else (lanesOf x.active).length))], [], 0⟩)

/-- The two halves of a packed word's result with the union of their events (R234, R255). -/
def packedRes (f : Nat → Nat → Nat → Nat → Nat × Nat) (d a b : Nat) (x : Ctx) (l : Nat) : LaneRes :=
  let c := if x.hasOpx then x.o.src3.toNat else d
  let lo := f x.o.mode.toNat (x.n32 (x.opLane l) a % 65536) (x.n32 (x.opLane l) b % 65536) (x.n32 (x.opLane l) c % 65536)
  let hi := f x.o.mode.toNat (x.n32 (x.opLane l) a / 65536) (x.n32 (x.opLane l) b / 65536) (x.n32 (x.opLane l) c / 65536)
  ⟨[(d, BitVec.ofNat 32 (hi.1 * 65536 + lo.1))], [], lo.2 ||| hi.2⟩
/-- R246 to R249, R253, R255: the floating-point words whose results go out at a fixed latency, in lanes whose events meet no enable. R255: the
packed words work on both halves of each lane; a lane with an enabled event in either half writes neither. -/
def Obligations.FloatAndPackedWordsDeliver : Prop :=
  (∀ q d a b, let f := fun (x : Ctx) (l : Nat) => res32 d.toNat (addF fmt32 x.o.mode.toNat (x.n32 (x.opLane l) a.toNat) (x.n32 (x.opLane l) b.toNat))
    Delivers (.fadd q d a b) (untrapped f) f) ∧
  (∀ q d a b, let f := fun (x : Ctx) (l : Nat) => res32 d.toNat (mulF fmt32 x.o.mode.toNat (x.n32 (x.opLane l) a.toNat) (x.n32 (x.opLane l) b.toNat))
    Delivers (.fmul q d a b) (untrapped f) f) ∧
  (∀ q d a b, let f := fun (x : Ctx) (l : Nat) => res32 d.toNat (minmaxF fmt32 false (x.n32 (x.opLane l) a.toNat) (x.n32 (x.opLane l) b.toNat))
    Delivers (.fmin q d a b) (untrapped f) f) ∧
  (∀ q d a b, let f := fun (x : Ctx) (l : Nat) => res32 d.toNat (minmaxF fmt32 true (x.n32 (x.opLane l) a.toNat) (x.n32 (x.opLane l) b.toNat))
    Delivers (.fmax q d a b) (untrapped f) f) ∧
  (∀ q d a, Delivers (.fabs q d a) always fun x l => ⟨[(d.toNat, vreg x.rs (x.opLane l) a.toNat &&& 0x7FFFFFFF)], [], 0⟩) ∧
  (∀ q d a, Delivers (.fneg q d a) always fun x l => ⟨[(d.toNat, vreg x.rs (x.opLane l) a.toNat ^^^ 0x80000000)], [], 0⟩) ∧
  (∀ q d a, Delivers (.fclass q d a) always fun x l => ⟨[(d.toNat, BitVec.ofNat 32 (classF (x.n32 (x.opLane l) a.toNat)))], [], 0⟩) ∧
  (∀ q d a b, Delivers (.fsign q d a b) always fun x l =>
    ⟨[(d.toNat, (vreg x.rs (x.opLane l) a.toNat &&& 0x7FFFFFFF) ||| (vreg x.rs (x.opLane l) b.toNat &&& 0x80000000))], [], 0⟩) ∧
  (∀ q d a b na np, let f := fun (x : Ctx) (l : Nat) => res32 d.toNat (fmaF fmt32 x.o.mode.toNat np na (x.n32 (x.opLane l) a.toNat)
      (x.n32 (x.opLane l) b.toNat) (x.n32 (x.opLane l) (if x.hasOpx then x.o.src3.toNat else d.toNat)))
    Delivers (.ffma q d a b na np) (untrapped f) f) ∧
  (∀ q d a b, let f := fun (x : Ctx) (l : Nat) => res64 d.toNat (addF fmt64 x.o.mode.toNat (x.n64 (x.opLane l) a.toNat) (x.n64 (x.opLane l) b.toNat))
    Delivers (.dadd q d a b) (untrapped f) f) ∧
  (∀ q d a b, let f := fun (x : Ctx) (l : Nat) => res64 d.toNat (mulF fmt64 x.o.mode.toNat (x.n64 (x.opLane l) a.toNat) (x.n64 (x.opLane l) b.toNat))
    Delivers (.dmul q d a b) (untrapped f) f) ∧
  (∀ q d a b, let f := fun (x : Ctx) (l : Nat) => res64 d.toNat (fmaF fmt64 x.o.mode.toNat false false (x.n64 (x.opLane l) a.toNat)
      (x.n64 (x.opLane l) b.toNat) (x.n64 (x.opLane l) (if x.hasOpx then x.o.src3.toNat else d.toNat)))
    Delivers (.dfma q d a b) (untrapped f) f) ∧
  (∀ q d a b, let f := fun (x : Ctx) (l : Nat) => res64 d.toNat (minmaxF fmt64 false (x.n64 (x.opLane l) a.toNat) (x.n64 (x.opLane l) b.toNat))
    Delivers (.dmin q d a b) (untrapped f) f) ∧
  (∀ q d a b, let f := fun (x : Ctx) (l : Nat) => res64 d.toNat (minmaxF fmt64 true (x.n64 (x.opLane l) a.toNat) (x.n64 (x.opLane l) b.toNat))
    Delivers (.dmax q d a b) (untrapped f) f) ∧
  (∀ q d a b, let f := packedRes (fun m u v _ => addF fmt16 m u v) d.toNat a.toNat b.toNat
    Delivers (.hadd2 q d a b) (untrapped f) f) ∧
  (∀ q d a b, let f := packedRes (fun m u v _ => mulF fmt16 m u v) d.toNat a.toNat b.toNat
    Delivers (.hmul2 q d a b) (untrapped f) f) ∧
  (∀ q d a b, let f := packedRes (fun m u v w => fmaF fmt16 m false false u v w) d.toNat a.toNat b.toNat
    Delivers (.hfma2 q d a b) (untrapped f) f) ∧
  (∀ q d a b, let f := packedRes (fun m u v _ => addF fmtBf16 m u v) d.toNat a.toNat b.toNat
    Delivers (.bfadd2 q d a b) (untrapped f) f) ∧
  (∀ q d a b, let f := packedRes (fun m u v _ => mulF fmtBf16 m u v) d.toNat a.toNat b.toNat
    Delivers (.bfmul2 q d a b) (untrapped f) f) ∧
  (∀ q d a b, let f := packedRes (fun m u v w => fmaF fmtBf16 m false false u v w) d.toNat a.toNat b.toNat
    Delivers (.bffma2 q d a b) (untrapped f) f)
/-- The word of `i` puts the results `f` of its executing lanes on their way and takes sl7; the lanes go on, no register is written yet. -/
def sendsSpecial (i : Instr) (d a : Nat) (f : Ctx → Nat → Nat × Nat) : Prop :=
  Reaches i (fun x s => ∀ l, has x.active l = true → fpTrap (laneAt s (x.lk l)).fpstat (f x (x.n32 (x.opLane l) a)).2 = none) fun x s t =>
    t.results = s.results.put (s.nextId + 1)
      { tok := s.nextId, gid := x.gid, regs := (lanesOf x.active).map fun l => (x.lk l, d, BitVec.ofNat 32 (f x (x.n32 (x.opLane l) a)).1),
        fp := (lanesOf x.active).map (fun l => (x.lk l, (f x (x.n32 (x.opLane l) a)).2)), major := majorOf x.w } ∧
    lanesBecome x (fun _ y => passed x y) s t ∧
    groupBecomes x (fun g' => groupPassed x x.g g' ∧ g'.slots.get? 7 = some s.nextId) s t ∧
    (∀ q b, homeByte t q b = homeByte s q b) ∧
    t = { s with cur := none, nextId := s.nextId + 2, lanes := t.lanes, groups := t.groups, board := t.board, poisonRegs := t.poisonRegs,
                 results := t.results }
/-- R229, R234, R250: a lane whose events meet an enable is held at the word of `i` with the FPX fault that it takes when the result is due;
its registers and FPSTAT stand. -/
def trapsSpecial (i : Instr) (a : Nat) (f : Ctx → Nat → Nat × Nat) : Prop :=
  Reaches i anyState fun x s t => ∀ l e, has x.active l = true →
    fpTrap (laneAt s (x.lk l)).fpstat (f x (x.n32 (x.opLane l) a)).2 = some e →
    (laneAt t (x.lk l)).held = .faultSlot (x.fi 19 e 0 (f x (x.n32 (x.opLane l) a)).2) x.w x.next x.pcR ∧ (laneAt t (x.lk l)).pc = x.pcR ∧
    (laneAt t (x.lk l)).fpstat = (laneAt s (x.lk l)).fpstat ∧ ∀ n, vreg t (x.lk l) n = vreg s (x.lk l) n
/-- R250, R251: a special function's results go out through sl7, in lanes whose events meet no enable; a lane whose events meet one is
held at the word; `amaxr` (R259) sends its result likewise, with the greatest magnitude of the executing set and no events. R251, Table 12-5: the special cases that the table names, with their events, and the
canonical NaN for a NaN. -/
def Obligations.SpecialFunctionsDeliver : Prop :=
  (∀ q d a, sendsSpecial (.frcp q d a) d.toNat a.toNat fun _ => frcpF) ∧
  (∀ q d a, sendsSpecial (.frsq q d a) d.toNat a.toNat fun _ => frsqF) ∧
  (∀ q d a, sendsSpecial (.fsqrt q d a) d.toNat a.toNat fun x => fsqrtF x.o.mode.toNat) ∧
  (∀ q d a, sendsSpecial (.fex2 q d a) d.toNat a.toNat fun _ => fex2F) ∧
  (∀ q d a, sendsSpecial (.flg2 q d a) d.toNat a.toNat fun _ => flg2F) ∧
  (∀ q d a, sendsSpecial (.fsin q d a) d.toNat a.toNat fun _ => fsinF) ∧
  (∀ q d a, sendsSpecial (.fcos q d a) d.toNat a.toNat fun _ => fcosF) ∧
  (∀ q d a, trapsSpecial (.frcp q d a) a.toNat fun _ => frcpF) ∧ (∀ q d a, trapsSpecial (.frsq q d a) a.toNat fun _ => frsqF) ∧
  (∀ q d a, trapsSpecial (.fsqrt q d a) a.toNat fun x => fsqrtF x.o.mode.toNat) ∧ (∀ q d a, trapsSpecial (.fex2 q d a) a.toNat fun _ => fex2F) ∧
  (∀ q d a, trapsSpecial (.flg2 q d a) a.toNat fun _ => flg2F) ∧ (∀ q d a, trapsSpecial (.fsin q d a) a.toNat fun _ => fsinF) ∧
  (∀ q d a, trapsSpecial (.fcos q d a) a.toNat fun _ => fcosF) ∧
  (∀ gd d a, Reaches (.amaxr gd d a) anyState fun x s t =>
    t.results = s.results.put (s.nextId + 1)
      { tok := s.nextId, gid := x.gid,
        regs := (lanesOf x.active).map (fun l => (x.lk l, d.toNat, BitVec.ofNat 32 (amaxBits ((lanesOf x.active).map fun m => x.n32 (x.lk m) a.toNat)))),
        major := majorOf x.w } ∧
    lanesBecome x (fun _ y => passed x y) s t ∧ groupBecomes x (fun g' => groupPassed x x.g g' ∧ g'.slots.get? 7 = some s.nextId) s t ∧
    (∀ q b, homeByte t q b = homeByte s q b) ∧
    t = { s with cur := none, nextId := s.nextId + 2, lanes := t.lanes, groups := t.groups, board := t.board, poisonRegs := t.poisonRegs,
                 results := t.results }) ∧
  (∀ p m, (decodeF fmt32 p).isNan = true → frcpF p = (0x7FC00000, evInvalid) ∧ frsqF p = (0x7FC00000, evInvalid) ∧
    fsqrtF m p = (0x7FC00000, evInvalid) ∧ fex2F p = (0x7FC00000, evInvalid) ∧ flg2F p = (0x7FC00000, evInvalid) ∧
    fsinF p = (0x7FC00000, evInvalid) ∧ fcosF p = (0x7FC00000, evInvalid)) ∧
  frcpF 0 = (0x7F800000, evDivZero) ∧ frcpF 0x80000000 = (0xFF800000, evDivZero) ∧ frcpF 0x7F800000 = (0, 0) ∧ frcpF 0xFF800000 = (0x80000000, 0) ∧
  frsqF 0 = (0x7F800000, evDivZero) ∧ frsqF 0x80000000 = (0xFF800000, evDivZero) ∧ frsqF 0x7F800000 = (0, 0) ∧ frsqF 0xFF800000 = (0x7FC00000, evInvalid) ∧
  frsqF 0xBF800000 = (0x7FC00000, evInvalid) ∧
  (∀ m, fsqrtF m 0 = (0, 0) ∧ fsqrtF m 0x80000000 = (0x80000000, 0) ∧ fsqrtF m 0x7F800000 = (0x7F800000, 0) ∧ fsqrtF m 0xBF800000 = (0x7FC00000, evInvalid)) ∧
  fex2F 0xFF800000 = (0, 0) ∧ fex2F 0x7F800000 = (0x7F800000, 0) ∧
  flg2F 0 = (0xFF800000, evDivZero) ∧ flg2F 0x80000000 = (0xFF800000, evDivZero) ∧ flg2F 0x7F800000 = (0x7F800000, 0) ∧ flg2F 0xBF800000 = (0x7FC00000, evInvalid) ∧
  fsinF 0x7F800000 = (0x7FC00000, evInvalid) ∧ fsinF 0 = (0, 0) ∧ fsinF 0x80000000 = (0x80000000, 0) ∧
  fcosF 0xFF800000 = (0x7FC00000, evInvalid) ∧ fcosF 0 = (0x3F800000, 0) ∧ fcosF 0x80000000 = (0x3F800000, 0) ∧
  frcpF 0x40800000 = (0x3E800000, 0) ∧ frsqF 0x40800000 = (0x3F000000, 0) ∧ fsqrtF 0 0x41100000 = (0x40400000, 0) ∧
  fex2F 0 = (0x3F800000, 0) ∧ fex2F 0x40400000 = (0x41000000, 0) ∧ flg2F 0x41000000 = (0x40400000, 0)
/-- The register that `cvt` writes: an element of less than a register goes to its place, and the other bits of the lane's own vD stay (R256). -/
def cvtRes (d a : Nat) (dst src : Nat) (hi : Bool) (x : Ctx) (l : Nat) : LaneRes :=
  let fd := cvtFmt dst
  let fs := cvtFmt src
  let raw := if fs.width = 64 then x.n64 (x.opLane l) a else x.n32 (x.opLane l) a
  let p := (if fs.width = 16 ∧ hi then raw / 65536 else raw) % 2 ^ fs.width
  let r := cvtFn fd fs x.o.mode.toNat x.o.sat p
  let old := x.n32 (x.lk l) d
  if fd.width = 64 then ⟨pairWrites d (BitVec.ofNat 64 r.1), [], r.2⟩
  else ⟨[(d, BitVec.ofNat 32 (if fd.width = 32 then r.1 else if fd.width = 16 ∧ hi then r.1 * 65536 + old % 65536 else old / 2 ^ fd.width * 2 ^ fd.width + r.1))], [], r.2⟩
/-- The register that `pack` writes (R260). -/
def packRes (d a b : Nat) (x : Ctx) (l : Nat) : LaneRes :=
  let h := x.n32 (x.opLane l) b
  let n := famBits (hdrFamily h)
  let e := fun i => packElem h (x.n32 (x.opLane l) (a + i))
  let v := e 0 + e 1 * 2 ^ n + e 2 * 2 ^ (2 * n) + e 3 * 2 ^ (3 * n)
  let old := x.n32 (x.lk l) d
  ⟨[(d, BitVec.ofNat 32 (if n = 8 then v else if bitAt h 16 then v * 65536 + old % 65536 else old / 65536 * 65536 + v))], [], 0⟩
/-- The registers that `unpack` writes (R261). -/
def unpackRes (d a b : Nat) (x : Ctx) (l : Nat) : LaneRes :=
  let h := x.n32 (x.opLane l) b
  let n := famBits (hdrFamily h)
  let v := x.n32 (x.opLane l) a / (if bitAt h 16 then 65536 else 1)
  let r := fun i => roundTo fmt32 0 false (elemDecode h (v / 2 ^ (n * i) % 2 ^ n))
  ⟨[(d, BitVec.ofNat 32 (r 0).1), (d + 1, BitVec.ofNat 32 (r 1).1), (d + 2, BitVec.ofNat 32 (r 2).1), (d + 3, BitVec.ofNat 32 (r 3).1)], [],
    (r 0).2 ||| (r 1).2 ||| (r 2).2 ||| (r 3).2⟩
/-- R256 to R258, R260, R261: conversions and block words, under headers that their checks admit; any other header raises OPERAND detail 2. -/
def Obligations.ConversionAndBlockWordsDeliver : Prop :=
  (∀ q d a dst src hi, Delivers (.cvt q d a dst src hi) (untrapped (cvtRes d.toNat a.toNat dst.toNat src.toNat hi))
    (cvtRes d.toNat a.toNat dst.toNat src.toNat hi)) ∧
  (∀ q d a, Delivers (.bhget q d a) always fun x l =>
    let sc := fld (vreg x.rs (x.opLane l) a.toNat) 8 8
    ⟨[(d.toNat, if sc = 0xFF then 0x7FC00000 else BitVec.ofNat 32 (roundTo fmt32 0 false (.fin false 1 ((sc : Int) - 127))).1)], [], 0⟩) ∧
  (∀ q d a b, Delivers (.bhset q d a b)
    (fun x l => x.n32 (x.opLane l) b.toNat < 256 ∧ hdrFamily (x.n32 (x.opLane l) b.toNat) ≠ 6) fun x l =>
    let h := x.n32 (x.opLane l) b.toNat
    ⟨[(d.toNat, BitVec.ofNat 32 (bhScale (hdrFamily h) (decodeF fmt32 (x.n32 (x.opLane l) a.toNat)) * 256 + h))], [], 0⟩) ∧
  (∀ q d a b, Delivers (.pack q d a b) (fun x l => blkBad (x.n32 (x.opLane l) b.toNat) false = false) (packRes d.toNat a.toNat b.toNat)) ∧
  (∀ q d a b, Delivers (.unpack q d a b)
    (fun x l => blkBad (x.n32 (x.opLane l) b.toNat) true = false ∧ untrapped (unpackRes d.toNat a.toNat b.toNat) x l)
    (unpackRes d.toNat a.toNat b.toNat)) ∧
  (∀ q d a b, allRaise (.bhset q d a b) (fun x l => 256 ≤ x.n32 (x.lk l) b.toNat ∨ hdrFamily (x.n32 (x.lk l) b.toNat) = 6) fun x _ => x.fi 1 2) ∧
  (∀ q d a b, allRaise (.pack q d a b) (fun x l => blkBad (x.n32 (x.lk l) b.toNat) false = true) fun x _ => x.fi 1 2) ∧
  (∀ q d a b, allRaise (.unpack q d a b) (fun x l => blkBad (x.n32 (x.lk l) b.toNat) true = true) fun x _ => x.fi 1 2)

/-! ### System words and hints -/

/-- R193: the ac left of a group's batch once a hint of it has issued. -/
def hintBatch (s : State) (g : Group) : Nat := if g.lastIssue = acNow s (dieOf g.core) then g.batch else g.batch - 1
/-- R35, R38: a hint word whose kind the run does not hold joins the run of its lanes, which stand past it; nothing else changes. A
second hint of a kind raises ILLEGAL 0x06 in every lane, and a `sched` with reserved bits ILLEGAL 0x03. -/
def joinsRun (i : Instr) : Prop :=
  ∀ (s : State) (c : Cur) (g : Group), s.cur = some c → s.groups.get? c.gid = some g →
    (kindsOf c.run).contains (fld (encode i) 24 2) = false → usedBad (encode i) = false →
    ∃ t, exec i s = .next t ∧
      (∀ l, l < 64 → t.lanes.get? (lk c.gid l) = (s.lanes.get? (lk c.gid l)).map fun y =>
        if has c.lanes l then { y with pc := c.pc + 4, run := c.run ++ [encode i], port := c.port, lastAc := acNow s (dieOf g.core) + 1, wait := 0 } else y) ∧
      (∀ k, k / 64 ≠ c.gid → t.lanes.get? k = s.lanes.get? k) ∧
      t.groups.get? c.gid = some { g with lastIssue := acNow s (dieOf g.core), batch := hintBatch s g } ∧ (∀ h, h ≠ c.gid → t.groups.get? h = s.groups.get? h) ∧
      t = { s with cur := none, lanes := t.lanes, groups := t.groups }
/-- R32, R33, R34, R423: `nop` and `dbg` with debug disabled do nothing; `rdsr` and `clk` write what they read. R33, R192, R214: `wrsr` writes
the trap enables and clears the sticky flags that are named, lane by lane; `yield` sets the group aside for the next vote. -/
def Obligations.SystemAndHintWords : Prop :=
  Delivers .nop always (fun _ _ => ⟨[], [], 0⟩) ∧
  (∀ gd imm, Delivers (.dbg gd imm) (fun x _ => debugOn x.rs x.g.func = false) fun _ _ => ⟨[], [], 0⟩) ∧
  (∀ q d imm, Delivers (.rdsr q d imm) always fun x l =>
    ⟨[(d.toNat, sreg x.rs x.g (x.opLane l) (if x.u then lowest x.active else l) imm.toNat)], [], 0⟩) ∧
  (∀ q d imm, Delivers (.clk q d imm) always fun x _ =>
    ⟨pairWrites d.toNat (BitVec.ofNat 64 (if imm = 0 then acNow x.rs (dieOf x.g.core) else nsNow x.rs)), [], 0⟩) ∧
  (∀ q d imm, Reaches (.wrsr q d imm) anyState fun x s t =>
    (∃ F : Nat → Lane → Lane, lanesBecome x F s t ∧ ∀ l y, F l y = { passed x y with fpstat := (F l y).fpstat } ∧
      (∀ b, b < 5 → (F l y).fpstat.getLsbD b = (y.fpstat.getLsbD b && !(vreg s (x.opLane l) d.toNat).getLsbD b)) ∧
      (∀ b, 8 ≤ b → b < 13 → (F l y).fpstat.getLsbD b = (vreg s (x.opLane l) d.toNat).getLsbD b) ∧
      (∀ b, (5 ≤ b ∧ b < 8) ∨ 13 ≤ b → (F l y).fpstat.getLsbD b = false)) ∧
    groupBecomes x (groupPassed x x.g) s t ∧ onlyControl s t) ∧
  (Reaches .yield anyState fun x s t =>
    lanesBecome x (fun _ y => passed x y) s t ∧ groupBecomes x (fun g' => groupPassed x x.g g' ∧ g'.yielded = true) s t ∧ onlyControl s t) ∧
  (∀ s0 s1 s2 w y, joinsRun (.sched s0 s1 s2 w y)) ∧ (∀ p, joinsRun (.imx p)) ∧ (∀ o, joinsRun (.opx o)) ∧
  (∀ live ranges s c g, windowOpen s c.gid = false ∨ rangesBad s g ranges.toNat = true → s.cur = some c → s.groups.get? c.gid = some g →
    (kindsOf c.run).contains 3 = false → ∃ t, exec (.pre live ranges) s = .next t ∧
      (∀ l, l < 64 → t.lanes.get? (lk c.gid l) = (s.lanes.get? (lk c.gid l)).map fun y =>
        if has c.lanes l then { y with pc := c.pc + 4, run := c.run ++ [encode (.pre live ranges)], port := c.port, lastAc := acNow s (dieOf g.core) + 1, wait := 0 } else y) ∧
      (∀ k, k / 64 ≠ c.gid → t.lanes.get? k = s.lanes.get? k) ∧
      t.groups.get? c.gid = some { g with lastIssue := acNow s (dieOf g.core), batch := hintBatch s g } ∧ (∀ h, h ≠ c.gid → t.groups.get? h = s.groups.get? h) ∧
      t = { s with cur := none, lanes := t.lanes, groups := t.groups }) ∧
  (∀ live ranges s c g, windowOpen s c.gid = true → rangesBad s g ranges.toNat = false → s.cur = some c → s.groups.get? c.gid = some g →
    (kindsOf c.run).contains 3 = false → ∃ t, exec (.pre live ranges) s = .next t ∧
      (∀ l, l < 64 → t.lanes.get? (lk c.gid l) = (s.lanes.get? (lk c.gid l)).map fun y =>
        if has c.lanes l then { y with pc := c.pc - BitVec.ofNat 64 (4 * c.run.length), run := [], port := c.port, lastAc := acNow s (dieOf g.core) + 1,
                                       wait := 0, held := .prePoint live ranges.toNat } else y) ∧
      (∀ k, k / 64 ≠ c.gid → t.lanes.get? k = s.lanes.get? k) ∧
      t.groups.get? c.gid = some { g with lastIssue := acNow s (dieOf g.core), cover := none, batch := hintBatch s g } ∧ (∀ h, h ≠ c.gid → t.groups.get? h = s.groups.get? h) ∧
      t = { s with cur := none, lanes := t.lanes, groups := t.groups }) ∧
  (∀ w s c g, isHint w = true → usedBad w = true → s.cur = some c → s.groups.get? c.gid = some g → (kindsOf c.run).contains (fld w 24 2) = false →
    let x := { ctxOf { s with cur := none } g c w with u := false }
    exec (.illegalEncoding w) s = .next (x.raiseAll { s with cur := none } c.lanes (x.illegal 3))) ∧
  (∀ p s c g, s.cur = some c → s.groups.get? c.gid = some g → (kindsOf c.run).contains 1 = true →
    exec (.imx p) s = .next ({ ctxOf { s with cur := none } g c (encode (.imx p)) with u := false }.raiseAll { s with cur := none } c.lanes
      { cause := causeOf 0 0 (illegalDetail 6), sub := 6 }))
/-! ### Control words -/

/-- The target of a `brx` with the operands of lane `l` (R206). -/
def brxTarget (x : Ctx) (a b l : Nat) : DWord := vpair x.rs (x.lk l) a + BitVec.ofNat 64 (4 * (vreg x.rs (x.lk l) b).toNat)
/-- R204, R205, R206, R209: a taken transfer puts the executing lanes at its target, and a `call` writes the return address, its own plus 4, to
the last pair of the window. A target that is the word after a hint raises ILLEGAL 0x09 (R36), and a register-supplied one that is no multiple of
4 ALIGN detail 0. -/
def Obligations.TransfersGoToTheirTargets : Prop :=
  (∀ q off, Reaches (.bra q off) (fun x s => ontoHint s x.g (x.target off) = false) fun x s t =>
    lanesBecome x (fun _ y => { passed x y with pc := BitVec.ofInt 64 (x.cur.pc.toNat + 4 * immJ x.h off) }) s t ∧
    groupBecomes x (fun g' => groupPassed x x.g g' ∧ g'.cover = none) s t ∧ onlyControl s t) ∧
  (∀ q off, Reaches (.call q off) (fun x s => ontoHint s x.g (x.target off) = false) fun x s t =>
    lanesBecome x (fun _ y => { passed x y with pc := BitVec.ofInt 64 (x.cur.pc.toNat + 4 * immJ x.h off) }) s t ∧
    (∀ l, has x.active l = true → vpair t (x.lk l) (x.g.window - 2) = x.cur.pc + 4) ∧
    (∀ l n, l < 64 → n < 128 → has x.active l = false ∨ (n ≠ x.g.window - 2 ∧ n ≠ x.g.window - 1) → vreg t (x.lk l) n = vreg s (x.lk l) n) ∧
    (∀ k n, k / 64 ≠ x.gid → n < 128 → vreg t k n = vreg s k n) ∧
    groupBecomes x (fun g' => groupPassed x x.g g' ∧ g'.cover = none) s t ∧ onlyRegisters s t) ∧
  (∀ q a b, Reaches (.brx q a b) (fun x s => ∀ l, has x.active l = true →
      let d := vpair s (x.opLane l) a.toNat + BitVec.ofNat 64 (4 * (vreg s (x.opLane l) b.toNat).toNat)
      d.toNat % 4 = 0 ∧ ontoHint s x.g d = false) fun x s t =>
    lanesBecome x (fun l y => { passed x y with pc := vpair s (x.opLane l) a.toNat + BitVec.ofNat 64 (4 * (vreg s (x.opLane l) b.toNat).toNat) }) s t ∧
    groupBecomes x (fun g' => groupPassed x x.g g' ∧ g'.cover = none) s t ∧ onlyControl s t) ∧
  (∀ q a, Reaches (.ret q a) (fun x s => ∀ l, has x.active l = true →
      (vpair s (x.opLane l) a.toNat).toNat % 4 = 0 ∧ ontoHint s x.g (vpair s (x.opLane l) a.toNat) = false) fun x s t =>
    lanesBecome x (fun l y => { passed x y with pc := vpair s (x.opLane l) a.toNat }) s t ∧
    groupBecomes x (fun g' => groupPassed x x.g g' ∧ g'.cover = none) s t ∧ onlyControl s t) ∧
  (∀ q off, Runs (.bra q off) (fun x s => ontoHint s x.g (x.target off) = true) fun x t => x.raiseAll t x.active (x.illegal 9)) ∧
  (∀ q off, Runs (.call q off) (fun x s => ontoHint s x.g (x.target off) = true) fun x t => x.raiseAll t x.active (x.illegal 9)) ∧
  (∀ q a b, allRaise (.brx q a b) (fun x l => (brxTarget x a.toNat b.toNat l).toNat % 4 ≠ 0)
    fun x l => x.fi 7 0 (brxTarget x a.toNat b.toNat l).toNat 4) ∧
  (∀ q a, allRaise (.ret q a) (fun x l => (vpair x.rs (x.lk l) a.toNat).toNat % 4 ≠ 0) fun x l => x.fi 7 0 (vpair x.rs (x.lk l) a.toNat).toNat 4) ∧
  (∀ q a b, Runs (.brx q a b) (fun x s => ∃ l m, x.acts = [(l, m)] ∧ (brxTarget x a.toNat b.toNat l).toNat % 4 = 0 ∧
    ontoHint s x.g (brxTarget x a.toNat b.toNat l) = true) fun x t => x.raiseAll t x.active (x.illegal 9)) ∧
  (∀ q a, Runs (.ret q a) (fun x s => ∃ l m, x.acts = [(l, m)] ∧ (vpair x.rs (x.lk l) a.toNat).toNat % 4 = 0 ∧
    ontoHint s x.g (vpair x.rs (x.lk l) a.toNat) = true) fun x t => x.raiseAll t x.active (x.illegal 9))

/-- The group is `g'` but for its issue times, coverage and slots, and its entries, creation count and convergence registers. -/
def groupKeeps (x : Ctx) (g' : Group) : Prop :=
  groupPassed x { x.g with entries := g'.entries, seq := g'.seq, conv := g'.conv, bars := g'.bars } g'
/-- R197, R207, R208, R210: regions of divergence. `divr` opens an entry whose members are the executing lanes; `brk` takes each lane out of
its n innermost entries and to the target; `join` at its reconvergence address makes a lane arrive and holds it. Each raises the DIVERGENCE
detail of its entry otherwise, and ILLEGAL 0x09 at a target after a hint. -/
def Obligations.DivergenceWordsChangeTheirEntries : Prop :=
  (∀ gd off, Reaches (.divr gd off) (fun x s => 0 < immJ x.h off ∧ ontoHint s x.g (x.target off) = false ∧
      x.g.entries.length ≠ x.g.divmax) fun x s t =>
    lanesBecome x (fun _ y => passed x y) s t ∧
    groupBecomes x (fun g' => groupKeeps x g' ∧ g'.entries = x.g.entries ++ [⟨x.target off, x.active, x.g.seq, 0⟩] ∧ g'.seq = x.g.seq + 1 ∧
      g'.conv = x.g.conv ∧ g'.bars = x.g.bars) s t ∧ onlyControl s t) ∧
  (∀ n off, Reaches (.brk n off) (fun x s => ontoHint s x.g (x.target off) = false ∧
      ∀ l, has x.active l = true → n.toNat ≤ (entriesOf x.g.entries l).length) fun x s t =>
    lanesBecome x (fun _ y => { passed x y with pc := x.target off }) s t ∧
    groupBecomes x (fun g' => groupKeeps x g' ∧ g'.seq = x.g.seq ∧ g'.conv = x.g.conv ∧ g'.bars = x.g.bars ∧
      g'.entries.length = x.g.entries.length ∧
      ∀ (j : Nat) (e : DivEntry), x.g.entries[j]? = some e → ∃ e' : DivEntry, g'.entries[j]? = some e' ∧ e' = { e with mask := e'.mask } ∧
        ∀ l, l < 64 → has e'.mask l = (has e.mask l && !(has x.active l && ((entriesOf x.g.entries l).take n.toNat).any (·.seq == e.seq)))) s t ∧
    onlyControl s t) ∧
  (∀ gd, Reaches (.join gd) (fun x _ => ∀ l, has x.active l = true → ∃ e, (entriesOf x.g.entries l).head? = some e ∧ e.pc = x.pcR) fun x s t =>
    lanesBecome x (fun _ y => { passed x y with held := .join }) s t ∧
    groupBecomes x (fun g' => groupKeeps x g' ∧ g'.seq = x.g.seq ∧ g'.conv = x.g.conv ∧ g'.bars = x.g.bars ∧
      g'.entries.length = x.g.entries.length ∧
      ∀ (j : Nat) (e : DivEntry), x.g.entries[j]? = some e → ∃ e' : DivEntry, g'.entries[j]? = some e' ∧ e' = { e with arrived := e'.arrived } ∧
        ∀ l, l < 64 → has e'.arrived l = (has e.arrived l || (has x.active l && (entriesOf x.g.entries l).head?.any (·.seq == e.seq)))) s t ∧
    onlyControl s t) ∧
  (∀ gd off, Runs (.divr gd off) (fun x _ => immJ x.h off ≤ 0) fun x t => x.raiseAll t x.active (x.fi 6 3)) ∧
  (∀ gd off, Runs (.divr gd off) (fun x s => 0 < immJ x.h off ∧ ontoHint s x.g (x.target off) = true) fun x t => x.raiseAll t x.active (x.illegal 9)) ∧
  (∀ gd off, Runs (.divr gd off) (fun x s => 0 < immJ x.h off ∧ ontoHint s x.g (x.target off) = false ∧ x.g.entries.length = x.g.divmax) fun x t =>
    x.raiseAll t x.active (x.fi 6 0)) ∧
  (∀ n off, Runs (.brk n off) (fun x _ => ∀ l, has x.active l = true → (entriesOf x.g.entries l).length < n.toNat) fun x t =>
    (lanesOf x.active).foldl (fun u l => x.raise u l (x.fi 6 2)) t) ∧
  (∀ n off, Runs (.brk n off) (fun x s => ∃ l, lanesOf x.active = [l] ∧ n.toNat ≤ (entriesOf x.g.entries l).length ∧ ontoHint s x.g (x.target off) = true)
    fun x t => (lanesOf x.active).foldl (fun u l => x.raise u l (x.illegal 9)) t) ∧
  (∀ gd, Runs (.join gd) (fun x _ => ∀ l, has x.active l = true → ∀ e, (entriesOf x.g.entries l).head? = some e → e.pc ≠ x.pcR) fun x t =>
    (lanesOf x.active).foldl (fun u l => x.raise u l (x.fi 6 1)) t)

/-- R186, R211, R212: `exit` ends the executing lanes at once, `fend` once its release is made; `cdecl` declares the executing set. R213: a
`bar` at group scope, or at core scope, with nothing of its lanes outstanding makes every executing lane arrive at barrier k of that scope
and holds it there. A `bar` at a wider scope outside a cooperative grid raises OPERAND detail 3, and a `cdecl` of a register with signatures CONVERGE
detail 1. -/
def Obligations.ExitBarAndCdecl : Prop :=
  (∀ gd, Reaches (.exit gd) anyState fun x s t =>
    lanesEnd x s t ∧ groupBecomes x (groupPassed x x.g) s t ∧ onlyControl s t) ∧
  (∀ gd, Reaches (.fend gd) (fun x s => releaseDone x s 2 = true) fun x s t =>
    lanesEnd x s t ∧ groupBecomes x (groupPassed x x.g) s t ∧ onlyControl s t) ∧
  (∀ q n, Reaches (.cdecl q n) (fun x _ => ∀ y, x.g.conv.get? n.toNat = some y → y.signed = 0) fun x s t =>
    lanesBecome x (fun _ y => passed x y) s t ∧
    groupBecomes x (fun g' => groupKeeps x g' ∧ g'.entries = x.g.entries ∧ g'.seq = x.g.seq ∧ g'.bars = x.g.bars ∧
      g'.conv.get? n.toNat = some { declared := x.active } ∧ ∀ m, m ≠ n.toNat → g'.conv.get? m = x.g.conv.get? m) s t ∧ onlyControl s t) ∧
  (∀ gd k, Reaches (.bar gd k) (fun x s => x.scopeOr 1 = 0 ∧ releaseDone x s 0 = true) fun x s t =>
    lanesBecome x (fun _ y => { passed x y with held := .bar k.toNat 0 }) s t ∧
    groupBecomes x (fun g' => groupKeeps x g' ∧ g'.entries = x.g.entries ∧ g'.seq = x.g.seq ∧ g'.conv = x.g.conv ∧
      (g'.bars.get? k.toNat).getD 0 = ((x.g.bars.get? k.toNat).getD 0 ||| x.active) ∧ ∀ m, m ≠ k.toNat → g'.bars.get? m = x.g.bars.get? m) s t ∧
    onlyControl s t) ∧
  (∀ gd k, Reaches (.bar gd k) (fun x s => x.scopeOr 1 = 1 ∧ releaseDone x s 1 = true ∧ (s.teams.get? x.g.team).isSome) fun x s t =>
    lanesBecome x (fun _ y => { passed x y with held := .bar k.toNat 1 }) s t ∧
    groupBecomes x (groupPassed x x.g) s t ∧
    (∀ m, t.teams.get? m = (s.teams.get? m).map fun u => if m = x.g.team then
      { u with bars := u.bars.put k.toNat (((u.bars.get? k.toNat).getD []) ++ (lanesOf x.active).map x.lk) } else u) ∧
    t = { s with cur := none, nextId := s.nextId + 1, lanes := t.lanes, groups := t.groups, board := t.board, poisonRegs := t.poisonRegs,
                 teams := t.teams }) ∧
  (∀ gd k, Reaches (.bar gd k) (fun x s => 2 ≤ x.scopeOr 1 ∧ coopGroup s x.g = true ∧ releaseDone x s (x.scopeOr 1) = true) fun x s t =>
    lanesBecome x (fun _ y => { passed x y with held := .bar k.toNat (x.scopeOr 1), rel := none }) s t ∧
    groupBecomes x (groupPassed x x.g) s t ∧
    (∀ (gr : Nat) (u : Grid), (s.teams.get? x.g.team).bind (·.grid) = some gr → s.grids.get? gr = some u →
      let n := 16 * x.scopeOr 1 + k.toNat
      t.grids.get? gr = some { u with bars := u.bars.put n (((u.bars.get? n).getD []) ++ (lanesOf x.active).map x.lk) }) ∧
    t = { s with cur := none, nextId := s.nextId + 1, lanes := t.lanes, groups := t.groups, board := t.board, poisonRegs := t.poisonRegs,
                 grids := t.grids }) ∧
  (∀ gd k, Runs (.bar gd k) (fun x s => 2 ≤ x.scopeOr 1 ∧ coopGroup s x.g = false) fun x t => x.raiseAll t x.active (x.fi 1 3)) ∧
  (∀ q n, Runs (.cdecl q n) (fun x _ => ∃ y, x.g.conv.get? n.toNat = some y ∧ y.signed ≠ 0) fun x t => x.raiseAll t x.active (x.fi 5 1))
/-! ### Memory words (R286 to R297) -/

/-- The addresses of an access kind that pass alignment: `.hdr` reads the header of the block that holds any address (R290). -/
def loadSize (f : Nat) : Nat := if f = 8 then 1 else kindBytes f
/-- Nothing holds back a load or store of `n` bytes at the executions' addresses: they are translated, and no earlier access of its lanes, by an
atomic to a bank or by a matrix word, is still on its way to its bytes (R280, R325, R345). -/
def accessGoes (x : Ctx) (s : State) (a n : Nat) : Prop :=
  x.walked s (x.alignedVas a n) ∧ x.behindSpmAtom s a n = false ∧ x.behindMat s a n = false
/-- `i` is a load or store of `n` bytes through the address pair vA. -/
def loadOrStore (i : Instr) (a n : Nat) : Prop :=
  (∃ q d r slot k f, i = .ld q d r slot k f ∧ a = r.toNat ∧ n = loadSize f.toNat) ∨
  (∃ q d r slot k f, i = .ldc q d r slot k f ∧ a = r.toNat ∧ n = loadSize f.toNat) ∨
  (∃ q d r slot k f, i = .ldt q d r slot k f ∧ a = r.toNat ∧ n = loadSize f.toNat) ∨
  (∃ q d r slot k f, i = .ldnc q d r slot k f ∧ a = r.toNat ∧ n = loadSize f.toNat) ∨
  (∃ q d r slot k f, i = .st q d r slot k f ∧ a = r.toNat ∧ n = kindBytes f.toNat) ∨
  (∃ q d r slot k f, i = .stnc q d r slot k f ∧ a = r.toNat ∧ n = kindBytes f.toNat)
/-- The executions of a store with release that fail their checks raise; those that are left make the release, and then store (R286, R293). -/
def releaseStores (x : Ctx) (nc : Bool) (d a f cls : Nat) (t : State) : State :=
  let bad := storeFails x a (kindBytes f) t
  let u := bad.foldl (fun v e => x.raiseAll v e.1 e.2) t
  let y : Ctx := { x with go := bad.foldl (fun m e => m &&& ~~~e.1) x.go }
  if y.go = 0 then u else y.releasing u 2 fun v => y.acts.foldl (storeOne y nc true d a f cls) v
/-- R286, R289, R293 to R297: a memory word whose translations are present, and whose release nothing holds back, acts in its executing lanes in
increasing order, or once for all of them under U = 1. What one such act does, the statements after this one say. R280, R286: a load or
store with a page that its pair's TLB does not hold has not issued: the walk of each such page is in progress, and its lanes stand before
the word again; likewise behind an earlier access of its lanes that must come first (R325, R345, and for a store R284, R306, R373). R286: the checks of an access, in their order:
alignment, the window or the translation, then the arena. -/
def Obligations.MemoryWordsActAfterTheirChecks : Prop :=
  (∀ q d a slot k f, Runs (.ld q d a slot k f) (fun x s => accessGoes x s a.toNat (loadSize f.toNat)) fun x t =>
    x.acts.foldl (loadOne x ⟨some 0, true⟩ d.toNat a.toNat f.toNat k.toNat (x.o.mode == 1) x.o.comm) (x.taken t (x.alignedVas a.toNat (loadSize f.toNat)))) ∧
  (∀ q d a slot k f, Runs (.ldc q d a slot k f) (fun x s => accessGoes x s a.toNat (loadSize f.toNat)) fun x t =>
    x.acts.foldl (loadOne x ⟨some 1, false⟩ d.toNat a.toNat f.toNat k.toNat (x.o.mode == 1) x.o.comm) (x.taken t (x.alignedVas a.toNat (loadSize f.toNat)))) ∧
  (∀ q d a slot k f, Runs (.ldt q d a slot k f) (fun x s => accessGoes x s a.toNat (loadSize f.toNat)) fun x t =>
    x.acts.foldl (loadOne x ⟨some 2, false⟩ d.toNat a.toNat f.toNat k.toNat (x.o.mode == 1) x.o.comm) (x.taken t (x.alignedVas a.toNat (loadSize f.toNat)))) ∧
  (∀ q d a slot k f, Runs (.ldnc q d a slot k f) (fun x s => accessGoes x s a.toNat (loadSize f.toNat)) fun x t =>
    x.acts.foldl (loadOne x ⟨none, true⟩ d.toNat a.toNat f.toNat k.toNat (x.o.mode == 1) x.o.comm) (x.taken t (x.alignedVas a.toNat (loadSize f.toNat)))) ∧
  (∀ q d a slot k f, Runs (.st q d a slot k f) (fun x s => accessGoes x s a.toNat (kindBytes f.toNat) ∧ x.behindLoad s a.toNat (kindBytes f.toNat) = false ∧ x.o.mode ≠ 2) fun x t =>
    x.acts.foldl (storeOne x false false d.toNat a.toNat f.toNat k.toNat) (x.taken t (x.alignedVas a.toNat (kindBytes f.toNat)))) ∧
  (∀ q d a slot k f, Runs (.stnc q d a slot k f) (fun x s => accessGoes x s a.toNat (kindBytes f.toNat) ∧ x.o.mode ≠ 2) fun x t =>
    x.acts.foldl (storeOne x true false d.toNat a.toNat f.toNat k.toNat) (x.taken t (x.alignedVas a.toNat (kindBytes f.toNat)))) ∧
  (∀ q d a slot k f, Runs (.st q d a slot k f) (fun x s => accessGoes x s a.toNat (kindBytes f.toNat) ∧ x.behindLoad s a.toNat (kindBytes f.toNat) = false ∧ x.o.mode = 2) fun x t =>
    releaseStores x false d.toNat a.toNat f.toNat k.toNat (x.taken t (x.alignedVas a.toNat (kindBytes f.toNat)))) ∧
  (∀ q d a slot k f, Runs (.stnc q d a slot k f) (fun x s => accessGoes x s a.toNat (kindBytes f.toNat) ∧ x.o.mode = 2) fun x t =>
    releaseStores x true d.toNat a.toNat f.toNat k.toNat (x.taken t (x.alignedVas a.toNat (kindBytes f.toNat)))) ∧
  (∀ q a slot k, Runs (.prefL1 q a slot k) anyState fun x t => x.acts.foldl (prefOne x (some x.o.path.toNat) a.toNat k.toNat) t) ∧
  (∀ q a slot k, Runs (.prefHome q a slot k) anyState fun x t => x.acts.foldl (prefOne x none a.toNat k.toNat) t) ∧
  (∀ q d a slot c, Runs (.waita q d a slot c) (fun x s => x.behindSpmAtom s a.toNat 8 = false ∧ x.behindMat s a.toNat 8 = false) fun x t =>
    x.acts.foldl (waitaOne x c.toNat d.toNat a.toNat) (waitaAdopt x t)) ∧
  (∀ q d a slot c, Runs (.waita q d a slot c) (fun x s => x.behindSpmAtom s a.toNat 8 = true ∨ x.behindMat s a.toNat 8 = true) fun x t => x.wait t) ∧
  (∀ q d a slot k f, Runs (.st q d a slot k f) (fun x s => x.walked s (x.alignedVas a.toNat (kindBytes f.toNat)) ∧
      x.behindLoad s a.toNat (kindBytes f.toNat) = true) fun x t => x.wait (x.taken t (x.alignedVas a.toNat (kindBytes f.toNat)))) ∧
  (∀ (i : Instr) (a n : Nat), loadOrStore i a n → Runs i (fun x s => ¬ x.walked s (x.alignedVas a n)) fun x t =>
    x.wait ((unwalked t x.gid x.g (x.alignedVas a n)).foldl (startWalk x.gid x.g) t)) ∧
  (∀ (i : Instr) (a n : Nat), loadOrStore i a n →
    Runs i (fun x s => x.walked s (x.alignedVas a n) ∧ (x.behindSpmAtom s a n = true ∨ x.behindMat s a n = true)) fun x t =>
      x.wait (x.taken t (x.alignedVas a n))) ∧
  (∀ (gid : Nat) (g : Group) (s : State) (page : Nat),
    let u := startWalk gid g s page
    let mine := fun (w : Walk) => w.quad == quadOf g.core && w.dom == g.stamp && w.page == page
    (∀ e, s.service.find? (fun e => e.pair == quadOf g.core && e.holds g.stamp (page * Config.page)) = some e →
      u = tlbAdd s { e with pair := pairOf g.core }) ∧
    (s.service.find? (fun e => e.pair == quadOf g.core && e.holds g.stamp (page * Config.page)) = none →
      u = { s with walks := u.walks, nextId := u.nextId } ∧
      ((s.walks.any fun e => mine e.2) = true ∨ (s.walks.filter fun e => e.2.quad == quadOf g.core).length < Config.walkSlots →
        ∃ e ∈ u.walks, mine e.2 = true ∧ gid ∈ e.2.waiters) ∧
      ((s.walks.any fun e => mine e.2) = false → Config.walkSlots ≤ (s.walks.filter fun e => e.2.quad == quadOf g.core).length → u = s))) ∧
  (∀ (x : Ctx) (s : State) (l : Nat), l < 64 → (x.wait s).lanes.get? (x.lk l) = (s.lanes.get? (x.lk l)).map fun y =>
    if has x.cur.lanes l ∧ y.held = .none then
      { y with pc := x.cur.pc, run := x.cur.run, held := .retry, wait := (x.waits.getD l (0, 0)).1, lastAc := (x.waits.getD l (0, 0)).2 }
    else y) ∧
  (∀ (x : Ctx) (s : State), x.wait s = { s with lanes := (x.wait s).lanes, groups := (x.wait s).groups, board := (x.wait s).board, ports := (x.wait s).ports }) ∧
  (∀ (s : State) (g : Group) (va n : Nat) (w win : Bool),
    (n ≠ 0 → va % n ≠ 0 → placeOf s g va n w win = .error ⟨7, 0, va⟩) ∧
    (n = 0 ∨ va % n = 0 →
      (inWindow va = true →
        (g.gate.isSome = true → placeOf s g va n w win = .error ⟨9, 2, va⟩) ∧
        (g.gate = none → win = false → placeOf s g va n w win = .error ⟨8, 2, va⟩) ∧
        (g.gate = none → win = true → ∀ t, s.teams.get? g.team = some t → ∀ o, va = Config.spmWindow + o →
          (t.banks.length * 32768 ≤ o → placeOf s g va n w win = .error ⟨9, 0, va⟩) ∧
          (∀ b, t.banks[o / 32768]? = some b → placeOf s g va n w win = .ok (.spm (b.1 * 2 ^ 20 + b.2 * 2 ^ 15 + o % 32768))))) ∧
      (inWindow va = false →
        (Config.vaEnd ≤ va → placeOf s g va n w win = .error ⟨8, 0, va⟩) ∧
        (va < Config.vaEnd → pageAt s g.stamp va = none → placeOf s g va n w win = .error ⟨8, 0, va⟩) ∧
        (va < Config.vaEnd → ∀ b p, pageAt s g.stamp va = some (b, p) → entryPoisoned s g.stamp b = true →
          placeOf s g va n w win = .error ⟨20, 2, va⟩) ∧
        (va < Config.vaEnd → ∀ b p, pageAt s g.stamp va = some (b, p) → entryPoisoned s g.stamp b = false →
          (p.dom ≠ g.stamp → placeOf s g va n w win = .error ⟨9, 1, va⟩) ∧
          (p.dom = g.stamp → w = true → p.writable = false → placeOf s g va n w win = .error ⟨8, 1, va⟩) ∧
          (p.dom = g.stamp → (w = true → p.writable = true) →
            (arenaState s p.arena p.gen = .draining → placeOf s g va n w win = .error ⟨10, 0, va⟩) ∧
            (arenaState s p.arena p.gen = .sealed → w = true → placeOf s g va n w win = .error ⟨10, 2, va⟩) ∧
            (arenaState s p.arena p.gen ≠ .draining → (arenaState s p.arena p.gen = .sealed → w = false) →
              placeOf s g va n w win = .ok (.mem (p.pa + (va - b)) p)))))))
/-- R289, R290, R293, R294, R297: loads, stores, prefetches and `waita` complete. A load or store, outside a transaction, whose executions are
translated, pass the checks of R286 and meet no poison, whose host transactions are answered and before which nothing of its lanes must come, acts
at each place in lane order, with the release made first (R293); a prefetch outside the window asks for its lines or drops them; a `waita` whose words
meet the condition acquires at device scope and sends them. -/
def Obligations.LoadsStoresAndPrefetchesComplete : Prop :=
  (∀ (pl : Nat × BitVec 64 → Place) q d a slot k f, Runs (.ld q d a slot k f) (fun x s => accessGoes x s a.toNat (loadSize f.toNat) ∧ x.placed s pl 1 ∧
      ∀ c ∈ x.acts, placeOf s x.g (x.va (x.lk c.1) a.toNat) (if f = 8 then 0 else kindBytes f.toNat) false (!x.o.comm) = .ok (pl c) ∧
        (∀ key, pl c = .spm key → spmPoisoned s key (if f = 8 then 2 else kindBytes f.toNat) = false) ∧ ∀ pa p, pl c = .mem pa p → poisoned s pa = false)
    fun x t => x.acts.foldl (fun v c => loadAt x (some 0) d.toNat f.toNat k.toNat (x.o.mode == 1) x.o.comm v c (pl c))
      (x.taken t (x.alignedVas a.toNat (loadSize f.toNat)))) ∧
  (∀ (pl : Nat × BitVec 64 → Place) q d a slot k f, Runs (.ldc q d a slot k f) (fun x s => accessGoes x s a.toNat (loadSize f.toNat) ∧ x.placed s pl 1 ∧
      ∀ c ∈ x.acts, placeOf s x.g (x.va (x.lk c.1) a.toNat) (if f = 8 then 0 else kindBytes f.toNat) false false = .ok (pl c) ∧
        ∀ pa p, pl c = .mem pa p → poisoned s pa = false)
    fun x t => x.acts.foldl (fun v c => loadAt x (some 1) d.toNat f.toNat k.toNat (x.o.mode == 1) x.o.comm v c (pl c))
      (x.taken t (x.alignedVas a.toNat (loadSize f.toNat)))) ∧
  (∀ (pl : Nat × BitVec 64 → Place) q d a slot k f, Runs (.ldt q d a slot k f) (fun x s => accessGoes x s a.toNat (loadSize f.toNat) ∧ x.placed s pl 1 ∧
      ∀ c ∈ x.acts, placeOf s x.g (x.va (x.lk c.1) a.toNat) (if f = 8 then 0 else kindBytes f.toNat) false false = .ok (pl c) ∧
        ∀ pa p, pl c = .mem pa p → poisoned s pa = false)
    fun x t => x.acts.foldl (fun v c => loadAt x (some 2) d.toNat f.toNat k.toNat (x.o.mode == 1) x.o.comm v c (pl c))
      (x.taken t (x.alignedVas a.toNat (loadSize f.toNat)))) ∧
  (∀ (pl : Nat × BitVec 64 → Place) q d a slot k f, Runs (.ldnc q d a slot k f) (fun x s => accessGoes x s a.toNat (loadSize f.toNat) ∧ x.placed s pl 1 ∧
      ∀ c ∈ x.acts, placeOf s x.g (x.va (x.lk c.1) a.toNat) (kindBytes f.toNat) false (!x.o.comm) = .ok (pl c) ∧
        (∀ key, pl c = .spm key → spmPoisoned s key (kindBytes f.toNat) = false) ∧ ∀ pa p, pl c = .mem pa p → poisoned s pa = false)
    fun x t => x.acts.foldl (fun v c => loadAt x none d.toNat f.toNat k.toNat (x.o.mode == 1) x.o.comm v c (pl c))
      (x.taken t (x.alignedVas a.toNat (loadSize f.toNat)))) ∧
  (∀ (pl : Nat × BitVec 64 → Place) q d a slot k f, Runs (.st q d a slot k f) (fun x s => accessGoes x s a.toNat (kindBytes f.toNat) ∧
      x.behindLoad s a.toNat (kindBytes f.toNat) = false ∧ x.placed s pl 2 ∧
      (∀ c ∈ x.acts, placeOf s x.g (x.va (x.lk c.1) a.toNat) (kindBytes f.toNat) true true = .ok (pl c)) ∧ (x.o.mode = 2 → releaseDone x s 2 = true))
    fun x t => x.acts.foldl (fun v c => storeAt x false (x.o.mode == 2) d.toNat f.toNat k.toNat v c (pl c))
      (if x.o.mode = 2 then x.released (x.taken t (x.alignedVas a.toNat (kindBytes f.toNat))) 2 else x.taken t (x.alignedVas a.toNat (kindBytes f.toNat)))) ∧
  (∀ (pl : Nat × BitVec 64 → Place) q d a slot k f, Runs (.stnc q d a slot k f) (fun x s => accessGoes x s a.toNat (kindBytes f.toNat) ∧ x.placed s pl 1 ∧
      (∀ c ∈ x.acts, placeOf s x.g (x.va (x.lk c.1) a.toNat) (kindBytes f.toNat) true true = .ok (pl c)) ∧ (x.o.mode = 2 → releaseDone x s 2 = true))
    fun x t => x.acts.foldl (fun v c => storeAt x true (x.o.mode == 2) d.toNat f.toNat k.toNat v c (pl c))
      (if x.o.mode = 2 then x.released (x.taken t (x.alignedVas a.toNat (kindBytes f.toNat))) 2 else x.taken t (x.alignedVas a.toNat (kindBytes f.toNat)))) ∧
  (∀ q a slot k, Runs (.prefL1 q a slot k) (fun x _ => ∀ c ∈ x.acts, inWindow (x.va (x.lk c.1) a.toNat) = false) fun x t =>
    x.acts.foldl (prefAt x (some x.o.path.toNat) a.toNat k.toNat) t) ∧
  (∀ q a slot k, Runs (.prefHome q a slot k) (fun x _ => ∀ c ∈ x.acts, inWindow (x.va (x.lk c.1) a.toNat) = false) fun x t =>
    x.acts.foldl (prefAt x none a.toNat k.toNat) t) ∧
  (∀ (key : Nat × BitVec 64 → Nat) q d a slot c, Runs (.waita q d a slot c) (fun x s => x.behindSpmAtom s a.toNat 8 = false ∧ x.behindMat s a.toNat 8 = false ∧ ∀ e ∈ x.acts,
      x.va (x.lk e.1) a.toNat % 8 = 0 ∧ inWindow (x.va (x.lk e.1) a.toNat) = true ∧ windowPlace s x.g (x.va (x.lk e.1) a.toNat) true = .ok (.spm (key e)) ∧
      spmPoisoned s (key e) 8 = false ∧
      (let w := leNat (spmBytes s (key e) 8)
       let v := (vpair x.rs (x.lk e.1) d.toNat).toNat
       (c = 0 → w = v) ∧ (c = 1 → w ≠ v) ∧ (2 ≤ c.toNat → v ≤ w)))
    fun x t => x.acts.foldl (fun v e => x.send (x.acquire v 2) (x.spread e.2 (pairWrites d.toNat (BitVec.ofNat 64 (leNat (spmBytes v (key e) 8))))))
      (waitaAdopt x t))
/-- R272, R286, R289, R292, R465: one act of a load outside a transaction, with operands of lane `l`, for the lanes `m`. R281: a host access whose
transaction fails raises XLATE detail 3; no other can (that one fails is a free choice, log 51). R289, R290: the kinds
of a load. `.s8` and `.s16` extend the sign, `.n8` and `.n16` (and `.hdr`) extend with zeros, and the wider kinds fill one, two or four
registers, low word first. -/
def Obligations.LoadsFindAndWriteTheirValue : Prop :=
  (∀ (x : Ctx) (op : LoadOp) (d a f cls : Nat) (acq promote : Bool) (s : State) (l : Nat) (m : BitVec 64), (laneAt s (x.lk l)).txn = none →
    let n := if f = 8 then 2 else kindBytes f
    let va := x.va (x.lk l) a
    let place := placeOf s x.g va (if f = 8 then 0 else n) false (op.win && !promote)
    let after := loadOne x op d a f cls acq promote s (l, m)
    let acqs := if acq then (lanesOf m).map x.lk else []
    (∀ e, place = .error e → after = x.raiseAll s m (x.accFault e n false)) ∧
    (∀ key, place = .ok (.spm key) → spmPoisoned s key n = false → after = x.send s (x.spread m (loadRegs f d (spmBytes s key n))) acqs) ∧
    (∀ key, place = .ok (.spm key) → spmPoisoned s key n = true → after = x.raiseAll s m (x.fi 20 1 (key / 32768 % 32))) ∧
    (∀ pa p bs, place = .ok (.mem pa p) → promote = false → loadHit s x op (x.lk l) pa n p f = some bs →
      let u := x.send (l1Use s x.pair (op.path.getD 0) (pa / 64) p.tag) (x.spread m (loadRegs f d bs)) acqs
      after = if cls = 3 then lastUse u x.pair (op.path.getD 0) pa p else u) ∧
    (∀ pa p, place = .ok (.mem pa p) → promote = true ∨ loadHit s x op (x.lk l) pa n p f = none →
      (poisoned s pa = true → after = x.raiseAll s m (x.fi 20 0 (va / 64 * 64))) ∧
      (poisoned s pa = false → (hostFails s pa).1 = true →
        ∃ (u : State) (A : Access), after = x.raiseAll u m (x.accFault ⟨8, 3, va⟩ n false) ∧ u = { s with acc := u.acc, nextId := u.nextId, freeCtr := u.freeCtr } ∧
          u.acc = s.acc.put s.nextId A ∧ A.kind = .failed ∧ A.lane = x.lk l ∧ A.tok = x.tok) ∧
      (poisoned s pa = false → (hostFails s pa).1 = false →
        ∃ A : Access, after.acc = s.acc.put s.nextId A ∧ A.kind = (match op.path with | some path => .fill path | none => .readHome) ∧
          A.pa = (if f = 8 then pa / 64 * 64 else pa) ∧ A.size = n ∧ A.lkind = f ∧ A.reg = d ∧ A.lanes = m ∧ A.gid = x.gid ∧ A.tok = x.tok ∧
          A.lane = x.lk l ∧ A.pair = x.pair ∧ A.acq = acq ∧ A.promote = promote ∧ A.dom = p.dom ∧ A.arena = p.arena ∧ A.gen = p.gen ∧ A.cc = cls ∧
          (∀ k r, r < 128 → vreg after k r = vreg s k r) ∧ (∀ q b, homeByte after q b = homeByte s q b)))) ∧
  (∀ s pa, isHost pa = false → hostFails s pa = (false, s)) ∧
  (∀ d (b0 : Byte), loadRegs 0 d [b0] = [(d, b0.signExtend 32)] ∧ loadRegs 1 d [b0] = [(d, b0.setWidth 32)]) ∧
  (∀ d (b0 b1 : Byte), loadRegs 2 d [b0, b1] = [(d, (b1 ++ b0).signExtend 32)] ∧ loadRegs 3 d [b0, b1] = [(d, (b1 ++ b0).setWidth 32)] ∧
    loadRegs 8 d [b0, b1] = [(d, (b1 ++ b0).setWidth 32)]) ∧
  (∀ d (b0 b1 b2 b3 : Byte), loadRegs 4 d [b0, b1, b2, b3] = [(d, b3 ++ b2 ++ b1 ++ b0)]) ∧
  (∀ d (b0 b1 b2 b3 c0 c1 c2 c3 : Byte), loadRegs 5 d [b0, b1, b2, b3, c0, c1, c2, c3] =
    [(d, b3 ++ b2 ++ b1 ++ b0), (d + 1, c3 ++ c2 ++ c1 ++ c0)]) ∧
  (∀ d (w0 w1 w2 w3 : Word), loadRegs 6 d (leBytes 4 w0.toNat ++ leBytes 4 w1.toNat ++ leBytes 4 w2.toNat ++ leBytes 4 w3.toNat) =
    [(d, w0), (d + 1, w1), (d + 2, w2), (d + 3, w3)])
/-- R271, R272, R286, R293: one act of a store outside a transaction. `st` writes the pair's load-store copy and no home byte, a release writes
through, `stnc` sends its bytes to the home and changes no copy, a bank takes its bytes at once; no other byte changes. A copy of the domain leaves
where its ways in the set are full; which one is a free choice (log 22). R345: a load of the lane that is on its way to the bytes keeps the value from
before (log 21). R272: a lane's pair reads back the bytes that the pair stored last. -/
def Obligations.StoresWriteTheirBytes : Prop :=
  (∀ (x : Ctx) (nc rel : Bool) (d a f cls : Nat) (s : State) (l : Nat) (m : BitVec 64), (laneAt s (x.lk l)).txn = none →
    f = 0 ∨ f = 2 ∨ f = 4 ∨ f = 5 ∨ f = 6 → s.wf = true →
    let n := kindBytes f
    let va := x.va (x.lk l) a
    let place := placeOf s x.g va n true true
    let t := storeOne x nc rel d a f cls s (l, m)
    (∀ e, place = .error e → t = x.raiseAll s m (x.accFault e n true)) ∧
    (∀ key, place = .ok (.spm key) →
      (∀ b, t.spm.rd b = if key ≤ b ∧ b < key + n then regByte x.rs (x.lk l) d (b - key) else s.spm.rd b) ∧
      t = { s with spm := t.spm, poisonSpm := t.poisonSpm, lanes := t.lanes }) ∧
    (∀ pa p, place = .ok (.mem pa p) → nc = true ∨ rel = true → (hostFails s pa).1 = true →
      ∃ (u : State) (A : Access), t = x.raiseAll u m (x.accFault ⟨8, 3, va⟩ n true) ∧ u = { s with acc := u.acc, nextId := u.nextId, freeCtr := u.freeCtr } ∧
        u.acc = s.acc.put s.nextId A ∧ A.kind = .failed ∧ A.lane = x.lk l ∧ A.tok = x.tok) ∧
    (∀ pa p, place = .ok (.mem pa p) → (nc = true ∨ rel = true → (hostFails s pa).1 = false) →
      let key := l1Key x.pair 0 (pa / 64) p.tag
      let rivals := l1Rivals s x.pair 0 (pa / 64) p.tag
      (nc = false → ∃ y, t.l1.get? key = some y ∧ y.dom = p.dom ∧ y.arena = p.arena ∧ y.gen = p.gen ∧
        (∀ j, j < n → pa % 64 + n ≤ 64 → y.fresh.getLsbD (pa % 64 + j) = true ∧ y.dmask.getLsbD (pa % 64 + j) = !rel)) ∧
      (nc = true → t.l1 = s.l1) ∧
      (nc = false → rivals = [] → ∀ k, k ≠ key → t.l1.get? k = s.l1.get? k) ∧
      (nc = false → rivals ≠ [] → ∃ v ∈ rivals, t.l1.get? v = none ∧ ∀ k, k ≠ key → k ≠ v → t.l1.get? k = s.l1.get? k) ∧
      (nc = true ∨ rel = true → ∃ (i : Nat) (A : Access), t.acc.get? i = some A ∧ A.kind = (if nc then .merge else .through) ∧ A.pa = pa ∧
        A.bytes = (upTo 0 n).map (regByte x.rs (x.lk l) d) ∧ A.lane = x.lk l ∧ A.tok = x.tok ∧ A.pair = x.pair ∧ A.dom = p.dom ∧ A.arena = p.arena ∧
        A.gen = p.gen ∧ (nc = true → t.acc = s.acc.put i A) ∧ (nc = false → rivals = [] → t.acc = (fixLoads s (x.lk l) pa n).acc.put i A)) ∧
      (nc = false → rel = false → rivals = [] → t.acc = (fixLoads s (x.lk l) pa n).acc) ∧
      (∀ q b, homeByte t q b = homeByte s q b) ∧ (∀ k r, vreg t k r = vreg s k r) ∧ t.spm = s.spm)) ∧
  (∀ (s : State) (k pa n i : Nat) (A : Access), s.acc.get? i = some A → A.lane ≠ k ∨ A.kind ≠ .fill 0 ∨ A.got ≠ none ∨ ¬ (A.pa < pa + n ∧ pa < A.pa + A.size) →
    (fixLoads s k pa n).acc.get? i = some A) ∧
  (∀ (s : State) (k pa n i : Nat) (A : Access), s.acc.get? i = some A → A.lane = k → A.kind = .fill 0 → A.got = none → A.pa < pa + n → pa < A.pa + A.size →
    (fixLoads s k pa n).acc.get? i = some { A with got := some (fillValue s A 0) }) ∧
  (∀ (s : State) (pair path pa : Nat) (p : Page) (bs : List Byte) (dirty : Bool), filtered s pair p.arena p.gen (pa / 64) = false →
    pa % 64 + bs.length ≤ 64 → s.wf = true →
    l1Read (l1Write s pair path pa p bs dirty) pair path pa bs.length p = some bs)
/-- R273, R274, R295, R296: a fence that nothing holds back completes: it leaves the pair's copies as they were for a release or a narrow scope,
and takes the fresh bits of the stamp's copies on every path for an acquire at device or system scope, sealed arenas spared; at system scope the
clean host-backed lines of the stamp leave the slices. A promotion
sends its request. `pfence` takes the fresh bits on the paths it names. R297: one act of `waita`, with its faults in their order. A word
that meets its condition acquires at device scope and sends the word read; one that does not holds its lanes before the word, with the place
whose next write releases them. -/
def Obligations.FencesWaitsAndTheirEnds : Prop :=
  (∀ gd a slot k ord, Runs (.fence gd a slot k ord)
    (fun x s => x.o.comm = false ∧ releaseDone x s (if ord = 0 then 0 else k.toNat) = true) fun x t =>
      if ord = 1 then x.released t k.toNat else x.acquire (x.released t (if ord = 0 then 0 else k.toNat)) k.toNat) ∧
  (∀ gd a slot k ord, Runs (.fence gd a slot k ord)
    (fun x s => x.o.comm = true ∧ releaseDone x s (if ord = 0 then 0 else k.toNat) = true ∧
      x.walked s ((lanesOf x.active).map fun l => x.va (x.lk l) a.toNat) ∧ promoteFails x a.toNat s = []) fun x t =>
      (lanesOf x.active).foldl (promoteOne x a.toNat)
        (x.released (x.taken t ((lanesOf x.active).map fun l => x.va (x.lk l) a.toNat)) (if ord = 0 then 0 else k.toNat))) ∧
  (∀ (f : Nat → AccFail) gd a slot k ord, Runs (.fence gd a slot k ord)
    (fun x s => x.o.comm = true ∧ x.walked s ((lanesOf x.active).map fun l => x.va (x.lk l) a.toNat) ∧
      ∀ l, has x.active l = true → placeOf s x.g (x.va (x.lk l) a.toNat) 0 false false = .error (f l)) fun x t =>
      (lanesOf x.active).foldl (fun u l => x.raise u l (x.accFault (f l) 0 false))
        (x.taken t ((lanesOf x.active).map fun l => x.va (x.lk l) a.toNat))) ∧
  (∀ gd p slot, Runs (.pfence gd p slot) (fun x s => releaseDone x s (if p.getLsbD 0 then 2 else 0) = true) fun x t =>
    ((upTo 0 3).filter fun i => p.getLsbD i).foldl (fun v i => clearPath v x.pair x.g.stamp i) (x.released t (if p.getLsbD 0 then 2 else 0))) ∧
  (∀ (x : Ctx) (s : State), x.acquire s 0 = s ∧ x.acquire s 1 = s) ∧
  (∀ (x : Ctx) (s : State) (k key : Nat), 2 ≤ k → (x.acquire s k).l1.get? key = (s.l1.get? key).map fun y =>
    if keyPair key = x.pair ∧ y.dom = x.g.stamp ∧ sealedWhole s y.arena y.gen = false then { y with fresh := 0 } else y) ∧
  (∀ (x : Ctx) (s : State), x.acquire s 2 = { s with l1 := (x.acquire s 2).l1 }) ∧
  (∀ (x : Ctx) (s : State) (key : Nat), s.wf = true → (x.acquire s 3).hostLines.get? key = (s.hostLines.get? key).bind fun h =>
    if isHost (key / 2 ^ 22 * 64) = true ∧ tagDom (key % 2 ^ 22) = x.g.stamp ∧ h.dmask = 0 then none else some h) ∧
  (∀ (x : Ctx) (s : State) (k : Nat), x.acquire s k = { s with l1 := (x.acquire s k).l1, slices := (x.acquire s k).slices,
                                                               hostLines := (x.acquire s k).hostLines }) ∧
  (∀ (s : State) (arena gen : Nat), sealedWhole s arena gen = true ↔
    arenaState s arena gen = .sealed ∧ ∀ e ∈ s.seals, arena ∉ e.2.members) ∧
  (∀ (s : State) (pair dom path key : Nat), (clearPath s pair dom path).l1.get? key = (s.l1.get? key).map fun y =>
    if keyPair key = pair ∧ keyPath key = path ∧ y.dom = dom ∧ sealedWhole s y.arena y.gen = false then { y with fresh := 0 } else y) ∧
  (∀ (x : Ctx) (c d a : Nat) (s : State) (l : Nat) (m : BitVec 64),
    let va := x.va (x.lk l) a
    let t := waitaOne x c d a s (l, m)
    (va % 8 ≠ 0 → t = x.raiseAll s m (x.fi 7 0 va 8)) ∧
    (va % 8 = 0 → inWindow va = false → t = x.raiseAll s m (x.fi 8 2 va 8)) ∧
    (va % 8 = 0 → inWindow va = true → x.g.gate.isSome = true → t = x.raiseAll s m (x.fi 9 2 va 8)) ∧
    (∀ e, va % 8 = 0 → inWindow va = true → windowPlace s x.g va true = .error e → t = x.raiseAll s m (x.accFault e 8 false)) ∧
    (∀ key, va % 8 = 0 → inWindow va = true → windowPlace s x.g va true = .ok (.spm key) → spmPoisoned s key 8 = true →
      t = x.raiseAll s m (x.fi 20 1 (key / 32768 % 32))) ∧
    (∀ key, va % 8 = 0 → inWindow va = true → windowPlace s x.g va true = .ok (.spm key) → spmPoisoned s key 8 = false →
      let w := leNat (spmBytes s key 8)
      let v := (vpair x.rs (x.lk l) d).toNat
      let met := if c = 0 then w = v else if c = 1 then w ≠ v else v ≤ w
      (met → t = x.send (x.acquire s 2) (x.spread m (pairWrites d (BitVec.ofNat 64 w)))) ∧
      (¬ met → ∀ j, j < 64 → t.lanes.get? (x.lk j) = (s.lanes.get? (x.lk j)).map fun y =>
        if has m j then { y with pc := x.cur.pc, run := x.cur.run, held := .waita (key / 2 ^ 20) (key / 2 ^ 15 % 32) (key % 2 ^ 15) x.tok } else y)))
/-- R280, R30, R344, R346: what is on its way arrives. A read at a home sends the bytes that the home holds; a merge writes its bytes and no
other, and one whose arena is gone reads zeros or writes nothing (R158); a write-back leaves the copy clean; a result reaches its registers; a walk gives every waiting pair its entry or answers "not
mapped". R275, R277: a slice keeps the line of an access, at re-reference 0 where it held it; a line that misses takes an invalid way first, and else
the way of a line that stands farthest; a leader set of one policy has that policy for its class. -/
def Obligations.AccessesAndResultsArrive : Prop :=
  (∀ s i a, s.acc.get? i = some a → accReady s i a = true → a.promote = false → a.kind = .readHome → a.lanes ≠ 0 →
    engineOwned s (a.pa / 64) = false → s.acc.sorted = true →
    Occurs (.homeSliceAccess (.request i)) s fun t => t.acc.get? i = none ∧
      (∀ q b, undisturbed s a.tag (a.pa / 64) q b → homeByte t q b = homeByte s q b) ∧
      let bs := if tagGone s a then List.replicate a.size 0 else homeBytes s a.tag a.pa a.size
      ∃ n, t.results = s.results.put n
        { tok := a.tok, gid := a.gid,
          regs := (lanesOf a.lanes).flatMap fun l => (loadRegs a.lkind a.reg bs).map fun r => (lk a.gid l, r.1, r.2),
          acq := if a.acq then (lanesOf a.lanes).map (lk a.gid) else [] }) ∧
  (∀ s i a, s.acc.get? i = some a → accReady s i a = true → a.promote = false → a.kind = .merge ∨ a.kind = .through → s.wf = true →
    s.acc.sorted = true →
    Occurs (.homeSliceAccess (.request i)) s fun t => t.acc.get? i = none ∧
      ∀ q b, undisturbed s a.tag (a.pa / 64) q b →
        homeByte t q b = if tagGone s a = false ∧ a.pa ≤ b ∧ b < a.pa + a.bytes.length then a.bytes.getD (b - a.pa) 0 else homeByte s q b) ∧
  (∀ s i a, s.acc.get? i = some a → accReady s i a = true → Occurs (.homeSliceAccess (.request i)) s fun _ => True) ∧
  (∀ s key y, s.l1.get? key = some y → y.dmask ≠ 0 → wbReady s (keyPair key) (keyLine key) = true → s.wf = true →
    Occurs (.homeSliceAccess (.writeBack key)) s fun t => t.l1.get? key = some { y with dmask := 0 } ∧
      (tagKept s (keyPair key) y.tag (keyLine key) = true → ∀ q b, undisturbed s y.tag (keyLine key) q b →
        homeByte t q b = if b / 64 = keyLine key ∧ y.dmask.getLsbD (b % 64) = true then y.data.rd (b % 64) else homeByte s q b) ∧
      (tagKept s (keyPair key) y.tag (keyLine key) = false → ∀ q b, homeByte t q b = homeByte s q b)) ∧
  (∀ s key y, s.l1.get? key = some y → y.dmask = 0 →
    exec (.homeSliceAccess (.evict key)) s = .next { s with l1 := s.l1.del key }) ∧
  (∀ s key y, s.l1.get? key = some y → y.dmask ≠ 0 → Occurs (.homeSliceAccess (.evict key)) s fun t => t.l1 = s.l1.del key ∧
    (∃ A : Access, t.acc = s.acc.put s.nextId A ∧ A.kind = .victim y ∧ A.pair = keyPair key ∧ A.pa = keyLine key * 64 ∧ A.tag = y.tag) ∧
    ∀ q b, homeByte t q b = homeByte s q b) ∧
  (∀ (s : State) (tc cc tag line : Nat) (w : Bool), s.wf = true → zeroMarked s line = false ∨ w = true →
    let k := homeNo (sliceHome s (line * 64))
    ∃ e, sliceWay (touch s tc cc tag line w) k line tag = some e ∧ (w = true → e.2.state = .dirty) ∧
      (∀ o, sliceWay s k line tag = some o → e.1 = o.1 ∧
        let st := if w then .dirty else o.2.state
        e.2 = { o.2 with rrpv := 0, state := st, scope := scopeOf line st }) ∧
      (sliceWay s k line tag = none → e.2.state = (if w then .dirty else .clean) ∧ (cc = 1 → e.2.rrpv = 3) ∧ (cc = 2 → e.2.rrpv = 0) ∧
        (cc ≠ 1 → cc ≠ 2 → 2 ≤ e.2.rrpv ∧ e.2.rrpv ≤ 3))) ∧
  (∀ (s : State) (slice line w : Nat), (setWays s slice line).find? (fun e => e.2.isNone) = some (w, none) → freeWay s slice line = (w, s)) ∧
  (∀ (s : State) (slice line : Nat), (setWays s slice line).find? (fun e => e.2.isNone) = none →
    ∃ l, s.slices.get? (setKey slice line + (freeWay s slice line).1) = some l ∧ (freeWay s slice line).1 < 16 ∧
      ∀ w o, w < 16 → s.slices.get? (setKey slice line + w) = some o → o.rrpv ≤ l.rrpv) ∧
  (∀ (s : State) (slice set tc : Nat), (set % 128 = 2 * tc → policyP1 s slice set tc = false) ∧ (set % 128 = 2 * tc + 1 → policyP1 s slice set tc = true)) ∧
  (∀ s r v k n w, s.results.get? r = some v → v.regs = [(k, n, w)] → v.traps = [] → n < 128 → s.wf = true → laneLive s k = true →
    clashes s v.tok v.gid k n = false → voided s v.gid v.tok = false →
    Occurs (.dependencySlotClear r) s fun t => t.results = s.results.del r ∧ vreg t k n = w ∧ ∀ j m, m < 128 → (j ≠ k ∨ m ≠ n) → vreg t j m = vreg s j m) ∧
  (∀ s r v, s.results.get? r = some v → v.traps = [] → Occurs (.dependencySlotClear r) s fun t => t.results = s.results.del r) ∧
  (∀ s r v, s.results.get? r = some v → voided s v.gid v.tok = true →
    Occurs (.dependencySlotClear r) s fun t => t.results = s.results.del r ∧ t.vregs = s.vregs ∧ t.lanes = s.lanes) ∧
  (∀ s i w b p, s.walks.get? i = some w → pageAt s w.dom (w.page * Config.page) = some (b, p) → entryPoisoned s w.dom b = false →
    Occurs (.translationWalk i) s fun t => t.walks = s.walks.del i ∧
      ⟨w.quad, w.dom, b, p.size⟩ ∈ t.service ∧
      ∀ gid ∈ w.waiters, ∀ g, s.groups.get? gid = some g → ⟨pairOf g.core, w.dom, b, p.size⟩ ∈ t.tlb) ∧
  (∀ s i w, s.walks.get? i = some w → (∀ b p, pageAt s w.dom (w.page * Config.page) = some (b, p) → entryPoisoned s w.dom b = true) →
    let u := walkFill { s with walks := s.walks.del i } w.dom w.page
    exec (.translationWalk i) s = .next { u with noPage := s.noPage ++ w.waiters.map fun g => (g, w.dom, w.page) }) ∧
  (∀ s dom page, let u := walkFill s dom page
    u = { s with slices := u.slices, hostLines := u.hostLines, mem := u.mem, acc := u.acc, nextId := u.nextId, freeCtr := u.freeCtr, psel := u.psel,
                 p1Fills := u.p1Fills } ∧
    (walkLine s dom page = none → u = s))

/-! ### Atomics and transactions (R361 to R380) -/

/-- Bytes of an atomic's location: 8 for an integer kind of a 64-bit type, else 4 (R362). -/
def atomSize (x : Ctx) (kind : Nat) : Nat := if kind < 10 ∧ itypeBits x.o = 64 then 8 else 4
/-- Nothing holds back an atomic: its addresses are translated, no matrix word of its lanes is still moving its bytes (R325), its places pass their
checks, its host transactions are answered and its release is done. -/
def atomGoes (x : Ctx) (s : State) (pl : Nat × BitVec 64 → Place) (a kind : Nat) : Prop :=
  x.walked s (x.alignedVas a (atomSize x kind)) ∧ x.behindMat s a (atomSize x kind) = false ∧
  (∀ c ∈ x.acts, atomPlace x s (x.va (x.lk c.1) a) (atomSize x kind) kind (x.o.comm && x.o.mode.toNat != 0) = .ok (pl c) ∧
    ∀ pa p, pl c = .mem pa p → isHost pa = true → hostAnswers s x.acts.length) ∧
  (2 ≤ x.o.mode.toNat → releaseDone x s (atomRelScope x s (x.acts.map pl)) = true)
/-- R361, R362, R366: `atom` and `red` with present translations, places that pass their checks and a release that nothing holds back send the
requests of their acts, in lane order; an address that fails a check faults its lanes, and so does a host transaction that fails (R281; that one does
is a free choice, log 51). A request carries the operands of Table 18-1 to
its place; behind it the pair's copies of the line are no longer fresh, and the lane's registers and the home bytes stand. -/
def Obligations.AtomicWordsSendTheirRequests : Prop :=
  (∀ (pl : Nat × BitVec 64 → Place) q d a slot k f, Runs (.atom q d a slot k f) (fun x s => atomGoes x s pl a.toNat f.toNat) fun x t =>
    let u := x.taken t (x.alignedVas a.toNat (atomSize x f.toNat))
    x.acts.foldl (fun v c => atomGo x true d.toNat f.toNat (atomSize x f.toNat) (hostSpent v (pl c)) c (x.va (x.lk c.1) a.toNat) (pl c))
      (if 2 ≤ x.o.mode.toNat then x.released u (atomRelScope x t (x.acts.map pl)) else u)) ∧
  (∀ (pl : Nat × BitVec 64 → Place) q d a slot k f, Runs (.red q d a slot k f) (fun x s => atomGoes x s pl a.toNat f.toNat) fun x t =>
    let u := x.taken t (x.alignedVas a.toNat (atomSize x f.toNat))
    x.acts.foldl (fun v c => atomGo x false d.toNat f.toNat (atomSize x f.toNat) (hostSpent v (pl c)) c (x.va (x.lk c.1) a.toNat) (pl c))
      (if 2 ≤ x.o.mode.toNat then x.released u (atomRelScope x t (x.acts.map pl)) else u)) ∧
  (∀ (i : Instr) (a : BitVec 6) (kind : Nat), (∃ q d slot k f, i = .atom q d a slot k f ∧ kind = f.toNat) ∨ (∃ q d slot k f, i = .red q d a slot k f ∧ kind = f.toNat) →
    Runs i (fun x s => ¬ x.walked s (x.alignedVas a.toNat (atomSize x kind))) (fun x t =>
      x.wait ((unwalked t x.gid x.g (x.alignedVas a.toNat (atomSize x kind))).foldl (startWalk x.gid x.g) t)) ∧
    Runs i (fun x s => x.walked s (x.alignedVas a.toNat (atomSize x kind)) ∧ x.behindMat s a.toNat (atomSize x kind) = true) (fun x t =>
      x.wait (x.taken t (x.alignedVas a.toNat (atomSize x kind)))) ∧
    ∀ f : Nat → AccFail, Runs i (fun x s => x.walked s (x.alignedVas a.toNat (atomSize x kind)) ∧ x.behindMat s a.toNat (atomSize x kind) = false ∧
      ∀ c ∈ x.acts, atomPlace x s (x.va (x.lk c.1) a.toNat) (atomSize x kind) kind (x.o.comm && x.o.mode.toNat != 0) = .error (f c.1)) fun x t =>
        x.acts.foldl (fun u c => x.raiseAll u c.2 (x.accFault (f c.1) (atomSize x kind) true)) (x.taken t (x.alignedVas a.toNat (atomSize x kind)))) ∧
  (∀ (x : Ctx) (s : State) (va n kind : Nat) (promote : Bool),
    (va % n ≠ 0 → atomPlace x s va n kind promote = .error ⟨7, 0, va⟩) ∧
    (va % n = 0 → inWindow va = true → x.g.gate = none → 10 ≤ kind → atomPlace x s va n kind promote = .error ⟨13, 0, va⟩) ∧
    (va % n = 0 → inWindow va = true → x.g.gate = none → kind < 10 → promote = true → atomPlace x s va n kind promote = .error ⟨13, 1, va⟩)) ∧
  (∀ (x : Ctx) (isAtom : Bool) (d kind n va : Nat) (s : State) (l : Nat) (m : BitVec 64) (pa : Nat) (p : Page), (hostFails s pa).1 = true →
    ∃ (u : State) (A : Access), atomSend x isAtom d kind n s (l, m) va (.mem pa p) = x.raiseAll u m (x.accFault ⟨8, 3, va⟩ n true) ∧
      u = { s with acc := u.acc, nextId := u.nextId, freeCtr := u.freeCtr } ∧ u.acc = s.acc.put s.nextId A ∧ A.kind = .failed ∧ A.lane = x.lk l ∧ A.tok = x.tok) ∧
  (∀ (x : Ctx) (isAtom : Bool) (d kind n va : Nat) (s : State) (l : Nat) (m : BitVec 64) (pl : Place), (∀ pa p, pl = .mem pa p → (hostFails s pa).1 = false) →
    let t := atomSend x isAtom d kind n s (l, m) va pl
    let r := fun (i : Nat) => if n = 8 then (vpair x.rs (x.lk l) (d + 2 * i)).toNat else (vreg x.rs (x.lk l) (d + i)).toNat
    ∃ (i : Nat) (Q : AtomReq) (o : AtomOp), t.atoms = s.atoms.put i Q ∧ Q.ops = [o] ∧ Q.kind = kind ∧ Q.size = n ∧ Q.signed = itypeSigned x.o ∧
      (kind = 7 → o.v = r 1 ∧ o.b = r 0) ∧ (kind = 8 → o.b = r 0) ∧ (kind = 9 → o.v = r 0 ∧ o.b = r 1) ∧
      (kind ≠ 7 → kind ≠ 8 → kind ≠ 9 → o.v = r 0) ∧
      o.lane = x.lk l ∧ o.lanes = m ∧ o.reg = d ∧ o.isAtom = isAtom ∧ o.tok = x.tok ∧
      (match pl with | .spm key => Q.inSpm = true ∧ Q.pa = key | .mem pa _ => Q.inSpm = false ∧ Q.pa = pa) ∧
      (∀ pa p, pl = .mem pa p → ∀ key y, t.l1.get? key = some y → keyPair key = x.pair → keyLine key = pa / 64 → y.dom = x.g.stamp → y.fresh = 0) ∧
      (∀ q b, homeByte t q b = homeByte s q b) ∧ (∀ k j, vreg t k j = vreg s k j) ∧ t.spm = s.spm)

/-- R363 to R365, Table 18-2: the value that each kind stores, from the value `m` at the location and the operands. Table 18-3: the worked cases
of `incw` and `badd` at the edges of the bound. -/
def Obligations.AtomicKindsStoreTheirValue : Prop :=
  (∀ (w : Nat) (sgn : Bool) (m v b : Nat), (w = 32 ∨ w = 64) → m < 2 ^ w → v < 2 ^ w → b < 2 ^ w →
    let i := fun (p : Nat) => if sgn then sextInt p w else (p : Int)
    atomNew 0 w sgn m v b = some ((m + v) % 2 ^ w) ∧ atomNew 1 w sgn m v b = some (m &&& v) ∧ atomNew 2 w sgn m v b = some (m ||| v) ∧
    atomNew 3 w sgn m v b = some (m ^^^ v) ∧
    (∃ r, atomNew 4 w sgn m v b = some r ∧ i r = min (i m) (i v) ∧ r < 2 ^ w) ∧ (∃ r, atomNew 5 w sgn m v b = some r ∧ i r = max (i m) (i v) ∧ r < 2 ^ w) ∧
    atomNew 6 w sgn m v b = some v ∧ (m = b → atomNew 7 w sgn m v b = some v) ∧ (m ≠ b → atomNew 7 w sgn m v b = none) ∧
    (i b ≤ i m → atomNew 8 w sgn m v b = some 0 ∧ atomNew 9 w sgn m v b = some m) ∧
    (i m < i b → (∃ r, atomNew 8 w sgn m v b = some r ∧ i r = i m + 1 ∧ r < 2 ^ w) ∧
      ∃ r, atomNew 9 w sgn m v b = some r ∧ i r = max (min (i m + i v) (i b)) (intLo w sgn) ∧ r < 2 ^ w)) ∧
  (∀ (sgn : Bool) (m v b : Nat), atomNew 10 32 sgn m v b = some (roundTo fmt32 0 false (fAdd 0 (decodeF fmt32 m) (decodeF fmt32 v))).1 ∧
    ((decodeF fmt32 m).isNan = true ∨ (decodeF fmt32 v).isNan = true →
      atomNew 11 32 sgn m v b = some 0x7FC00000 ∧ atomNew 12 32 sgn m v b = some 0x7FC00000) ∧
    ((decodeF fmt32 m).isNan = false → (decodeF fmt32 v).isNan = false →
      atomNew 11 32 sgn m v b = some (minmaxF fmt32 true m v).1 ∧ atomNew 12 32 sgn m v b = some (minmaxF fmt32 false m v).1)) ∧
  atomNew 8 32 false 4 0 5 = some 5 ∧ atomNew 8 32 false 5 0 5 = some 0 ∧ atomNew 8 32 false 9 0 5 = some 0 ∧ atomNew 8 32 false 7 0 0 = some 0 ∧
  atomNew 8 32 false 0xFFFFFFFE 0 0xFFFFFFFF = some 0xFFFFFFFF ∧ atomNew 8 32 false 0xFFFFFFFF 0 0xFFFFFFFF = some 0 ∧
  atomNew 9 32 false 10 7 15 = some 15 ∧ atomNew 9 32 false 10 3 15 = some 13 ∧ atomNew 9 32 false 15 1 15 = some 15 ∧
  atomNew 9 32 false 20 1 15 = some 20 ∧ atomNew 9 32 false 0xFFFFFFF0 0x20 0xFFFFFFFF = some 0xFFFFFFFF ∧
  atomNew 9 32 true 0x80000002 0xFFFFFFFB 0 = some 0x80000000
/-- R363, R366, R367, R368: a request that fails its check at the home changes nothing there; any other that may be applied stores its value at the home, or writes nothing for a failed `cas`, and answers each `atom`
with the value that stood before; gathered reads and held requests of a combining buffer go on. -/
def Obligations.AtomicsApplyAtTheirHome : Prop :=
  (∀ s i q o, s.atoms.get? i = some q → atomReady s i q = true → homeFail s q = none → atomFlushPair s q = none → q.ops = [o] → (q.kind = 10 → q.comm = false) →
    q.inSpm = false → s.wf = true →
    Occurs (.atomicApply i) s fun t => t.atoms = s.atoms.del i ∧
      (∀ p b, undisturbed s q.tag (q.pa / 64) p b →
        homeByte t p b = match atomNew q.kind (8 * q.size) q.signed (leNat (homeBytes s q.tag q.pa q.size)) o.v o.b with
        | some v => if q.pa ≤ b ∧ b < q.pa + q.size then BitVec.ofNat 8 (v / 2 ^ (8 * (b - q.pa))) else homeByte s p b
        | none => homeByte s p b) ∧
      (o.isAtom = true → o.lanes ≠ 0 → ∃ n r, t.results = s.results.put n r ∧ r.tok = o.tok ∧ r.gid = o.gid ∧
        r.regs = (lanesOf o.lanes).flatMap fun l => (loadRegs (if q.size = 8 then 5 else 4) o.reg
          (leBytes q.size (leNat (homeBytes s q.tag q.pa q.size)))).map fun e => (lk o.gid l, e.1, e.2))) ∧
  (∀ s i q o, s.atoms.get? i = some q → atomReady s i q = true → homeFail s q = none → q.ops = [o] → (q.kind = 10 → q.comm = false) → q.inSpm = true → s.wf = true →
    Occurs (.atomicApply i) s fun t => t.atoms = s.atoms.del i ∧ (∀ p b, homeByte t p b = homeByte s p b) ∧
      (∀ b, t.spm.rd b = match atomNew q.kind (8 * q.size) q.signed (leNat (spmBytes s q.pa q.size)) o.v o.b with
        | some v => if q.pa ≤ b ∧ b < q.pa + q.size then BitVec.ofNat 8 (v / 2 ^ (8 * (b - q.pa))) else s.spm.rd b
        | none => s.spm.rd b)) ∧
  (∀ s i q, s.atoms.get? i = some q → atomReady s i q = true → Occurs (.atomicApply i) s fun _ => True) ∧
  (∀ s i q f, s.atoms.get? i = some q → atomReady s i q = true → homeFail s q = some f → exec (.atomicApply i) s = .next (failReq s i q f)) ∧
  (∀ s q, homeFail s q = none ↔ if q.inSpm then spmPoisoned s q.pa q.size = false else arenaState s q.arena q.gen = .live ∧ poisoned s q.pa = false) ∧
  (∀ s i q, s.atoms.get? i = some q → q.buffered.isSome = true →
    exec (.combiningBufferFlush [i]) s = .next { s with atoms := (s.atoms.del i).put i { q with buffered := none } }) ∧
  (∀ s i j q r, i < j → s.atoms.get? i = some q → s.atoms.get? j = some r → q.buffered.isSome = true → r.buffered.isSome = true →
    r.pair = q.pair → r.kind = q.kind → r.signed = q.signed → r.size = q.size → r.dom = q.dom → r.pa = q.pa → r.inSpm = q.inSpm →
    (mergeCrosses s i j r = true → exec (.combiningBufferFlush [i, j]) s = .refused (.notEnabled "COMBINING_BUFFER_FLUSH")) ∧
    (mergeCrosses s i j r = false → exec (.combiningBufferFlush [i, j]) s =
      .next { s with atoms := ((s.atoms.del i).del j).put i { q with ops := q.ops ++ r.ops, buffered := none, deps := q.deps ++ r.deps } })) ∧
  (∀ s line i a, s.acc = [(i, a)] → s.engs = [] → a.pa / 64 = line → a.promote = false → accReady s i a = true → a.kind = .readHome → a.lanes ≠ 0 →
    tagGone s a = false → Occurs (.readGatherReply line) s fun t => t.acc.get? i = none ∧ (∀ q b, undisturbed s a.tag line q b → homeByte t q b = homeByte s q b) ∧
      ∃ n r, t.results = s.results.put n r ∧
      r.regs = (lanesOf a.lanes).flatMap fun l => (loadRegs a.lkind a.reg (homeBytes s a.tag a.pa a.size)).map fun e => (lk a.gid l, e.1, e.2))

/-- R371 to R379: the words of a lane transaction. `txb` opens one with empty sets after its release, `txa` closes it with reason 3 and its code,
`txq` sends the status, `txe` holds the lanes that no doom and no lower lane fails until their commit, and a commit writes the write
set when every byte read still holds. A `txb` in an open transaction raises TXN detail 0, a `txe` or `txa` outside one TXN detail 1, and a code
of 256 or more OPERAND detail 2. -/
def Obligations.TransactionsOpenQueryAndCommit : Prop :=
  (∀ gd, Reaches (.txb gd) (fun x s => (∀ l, has x.active l = true → (laneAt s (x.lk l)).txn = none) ∧ releaseDone x s 2 = true) fun x s t =>
    lanesBecome x (fun _ y => { passed x y with txn := some {}, txStat := 1, rel := none }) s t ∧
    groupBecomes x (groupPassed x x.g) s t ∧ onlyControl s t) ∧
  (∀ gd d, Reaches (.txa gd d) (fun x s => ∀ l, has x.active l = true → (laneAt s (x.lk l)).txn.isSome = true ∧ (vreg s (x.lk l) d.toNat).toNat < 256 ∧
      txReading s (x.lk l) = false)
    fun x s t =>
    lanesBecome x (fun l y => { passed x y with txn := none, commit := none, txStat := BitVec.ofNat 32 (3 + (vreg s (x.lk l) d.toNat).toNat * 2 ^ 24) }) s t ∧
    groupBecomes x (groupPassed x x.g) s t ∧ onlyControl s t) ∧
  (∀ gd d slot, Reaches (.txq gd d slot) anyState fun x s t =>
    t.results = s.results.put (s.nextId + 1)
      { tok := s.nextId, gid := x.gid, regs := (lanesOf x.active).map (fun l => (x.lk l, d.toNat, txQuery (laneAt s (x.lk l)))), major := majorOf x.w } ∧
    lanesBecome x (fun _ y => passed x y) s t ∧ (∀ q b, homeByte t q b = homeByte s q b) ∧ (∀ k n, vreg t k n = vreg s k n)) ∧
  (∀ gd d slot, Reaches (.txe gd d slot) (fun x s => (∀ l, has x.active l = true → (laneAt s (x.lk l)).txn.isSome = true ∧ txReading s (x.lk l) = false) ∧
      (txJudge s x (lanesOf x.active)).2 = []) fun x s t =>
    lanesBecome x (fun l y => { passed x y with held := .result, commit := some ⟨predNo d.toNat x.o.pxD, s.nextId, txHomes s (x.lk l)⟩ }) s t ∧
    (∀ q b, homeByte t q b = homeByte s q b) ∧ (∀ k n, vreg t k n = vreg s k n)) ∧
  (∀ gd d slot, Runs (.txe gd d slot) (fun x s => ∀ l, has x.active l = true → (laneAt s (x.lk l)).txn.isSome = true ∧ txReading s (x.lk l) = false) fun x t =>
    let j := txJudge t x (lanesOf x.active)
    let p := predNo d.toNat x.o.pxD
    let u := j.2.foldl (fun v e => setPreg (txClose v (x.lk e.1) e.2) (x.lk e.1) p false) (if j.2 = [] then t else x.acquire t 2)
    j.1.foldl (fun v l => modLane v (x.lk l) fun y => { y with commit := some ⟨p, x.tok, txHomes u (x.lk l)⟩, held := .result }) u) ∧
  (∀ s gid l y c w, s.lanes.get? (lk gid l) = some y → y.commit = some c → y.txn = some w → s.wf = true →
    Occurs (.txnCommit gid l) s fun t =>
      (txValidate s c w = none → (∃ z, t.lanes.get? (lk gid l) = some z ∧ z.txn = none ∧ z.commit = none ∧ z.txStat = 2 ∧
          z.preds = setBit128 y.preds c.pred true) ∧
        (∀ q b, isHost b = false ∨ w.writes = [] ∨ (∃ e, w.writes = [e] ∧ undisturbed s e.tag e.pa q b) →
          (∀ e ∈ w.writes, ∀ n ∈ e.bytes, e.pa * 64 + n.1 ≠ b) → homeByte t q b = homeByte s q b) ∧
        (∀ e n q, w.writes = [e] → e.bytes.sorted = true → n ∈ e.bytes → undisturbed s e.tag e.pa q (e.pa * 64 + n.1) →
          homeByte t q (e.pa * 64 + n.1) = n.2)) ∧
      (∀ r cause, txValidate s c w = some (r, cause) → (∀ q b, homeByte t q b = homeByte s q b) ∧
        ∃ z, t.lanes.get? (lk gid l) = some z ∧ z.txn = none ∧ z.commit = none ∧ z.txStat = BitVec.ofNat 32 (r + cause * 2 ^ 15) ∧
          z.preds = setBit128 y.preds c.pred false)) ∧
  (∀ gd, Runs (.txb gd) (fun x s => ∀ l, has x.active l = true → (laneAt s (x.lk l)).txn.isSome = true) fun x t =>
    (lanesOf x.active).foldl (fun u l => x.raise u l (x.fi 12 0)) t) ∧
  (∀ gd d, Runs (.txa gd d) (fun x s => ∀ l, has x.active l = true → (laneAt s (x.lk l)).txn = none ∧ txReading s (x.lk l) = false) fun x t =>
    (lanesOf x.active).foldl (fun u l => x.raise u l (x.fi 12 1)) t) ∧
  (∀ gd d, Runs (.txa gd d) (fun x s => ∀ l, has x.active l = true → (laneAt s (x.lk l)).txn.isSome = true ∧ txReading s (x.lk l) = false ∧
      256 ≤ (vreg s (x.lk l) d.toNat).toNat) fun x t => (lanesOf x.active).foldl (fun u l => x.raise u l (x.fi 1 2)) t) ∧
  (∀ gd d slot, Runs (.txe gd d slot) (fun x s => ∀ l, has x.active l = true → (laneAt s (x.lk l)).txn = none ∧ txReading s (x.lk l) = false) fun x t =>
    (lanesOf x.active).foldl (fun u l => x.raise u l (x.fi 12 1)) t)

/-! ### Stage rings (R298 to R300) -/

/-- The word of a ring operation acts lane by lane once its release, if it has one, is made. -/
def ringRuns (i : Instr) (op : RingOp) (d : Nat) : Prop :=
  Runs i (fun x s => op = .fill ∨ op = .free → releaseDone x s 1 = true) fun x t => x.acts.foldl (ringOne op d x) t
/-- R298 to R300, Table 14-3: the five ring words. An act checks its operand, the team's banks and the ring in that order; a count that it
needs and does not find holds its lanes before the word; otherwise the counters change as the table says, and their sum stays N. -/
def Obligations.RingWordsMoveTheirCounts : Prop :=
  (∀ q d, ringRuns (.rinit q d) .init d.toNat) ∧ (∀ q d, ringRuns (.rsv q d) .rsv d.toNat) ∧ (∀ q d, ringRuns (.rfill q d) .fill d.toNat) ∧
  (∀ q d, ringRuns (.rtake q d) .take d.toNat) ∧ (∀ q d, ringRuns (.rfree q d) .free d.toNat) ∧
  (∀ (op : RingOp) (d : Nat) (x : Ctx) (s : State) (l : Nat) (m : BitVec 64) (T : Team), s.teams.get? x.g.team = some T →
    let v := (vreg x.rs (x.lk l) d).toNat
    let r := v % 16
    let g := ringAt T r
    let n := v / 65536
    let t := ringOne op d x s (l, m)
    (v % 65536 / 16 ≠ 0 ∨ (op ≠ .init ∧ n ≠ 0) → t = x.raiseAll s m (x.fi 1 2)) ∧
    (v % 65536 / 16 = 0 → (op = .init ∨ n = 0) →
      (T.banks = [] → t = x.raiseAll s m (x.fi 16 3)) ∧
      (T.banks ≠ [] →
        (op = .init → n = 0 ∨ 4096 < n → t = x.raiseAll s m (x.fi 1 2)) ∧
        (op = .init → 0 < n → n ≤ 4096 → 0 < g.res ∨ 0 < g.taken ∨ ringWaiters s T r true ≠ [] ∨ ringWaiters s T r false ≠ [] → t = x.raiseAll s m (x.fi 16 2)) ∧
        (op ≠ .init → g.n = 0 → t = x.raiseAll s m (x.fi 16 0)) ∧
        (op = .fill → g.n ≠ 0 → g.res = 0 → t = x.raiseAll s m (x.fi 16 1)) ∧
        (op = .free → g.n ≠ 0 → g.taken = 0 → t = x.raiseAll s m (x.fi 16 1)) ∧
        (op = .init → 0 < n → n ≤ 4096 → g.res = 0 → g.taken = 0 → ringWaiters s T r true = [] → ringWaiters s T r false = [] →
          t = { s with teams := s.teams.put x.g.team { T with rings := T.rings.put r ⟨n, n, 0, 0, 0⟩ } }) ∧
        (op = .rsv → g.n ≠ 0 → 0 < g.free →
          t = { s with teams := s.teams.put x.g.team { T with rings := T.rings.put r { g with free := g.free - 1, res := g.res + 1 } } }) ∧
        (op = .take → g.n ≠ 0 → 0 < g.full →
          t = { s with teams := s.teams.put x.g.team { T with rings := T.rings.put r { g with full := g.full - 1, taken := g.taken + 1 } } }) ∧
        (op = .fill → g.n ≠ 0 → 0 < g.res → ringWaiters s T r true = [] →
          t = { s with teams := s.teams.put x.g.team { T with rings := T.rings.put r { g with res := g.res - 1, full := g.full + 1 } } }) ∧
        (op = .free → g.n ≠ 0 → 0 < g.taken → ringWaiters s T r false = [] →
          t = { s with teams := s.teams.put x.g.team { T with rings := T.rings.put r { g with taken := g.taken - 1, free := g.free + 1 } } }) ∧
        ((op = .rsv ∧ g.free = 0) ∨ (op = .take ∧ g.full = 0) → g.n ≠ 0 →
          t.teams = s.teams ∧ ∀ j, j < 64 → has m j = true → ∀ y, s.lanes.get? (x.lk j) = some y →
            ∃ b, t.lanes.get? (x.lk j) = some { y with pc := x.cur.pc, run := x.cur.run, held := .ring r (op == .take) b })))) ∧
  (∀ (op : RingOp) (n : Nat) (g : Ring), (op = .rsv → 0 < g.free) → (op = .fill → 0 < g.res) → (op = .take → 0 < g.full) → (op = .free → 0 < g.taken) →
    g.free + g.full + g.res + g.taken = g.n → (ringStep op n g).free + (ringStep op n g).full + (ringStep op n g).res + (ringStep op n g).taken = (ringStep op n g).n)

/-! ### Arenas (R143 to R166) -/

/-- R150 to R155: the arena words act lane by lane, and each act of them either raises its fault or takes its effect; an `adrop` that passes its
checks goes to its arena's home as a drop with no members yet, whose lanes receive pA there. -/
def Obligations.ArenaWordsActInTheirLanes : Prop :=
  (∀ q d slot, Runs (.anew q d slot) (fun x s => anewWaits x d.toNat x.acts s = false) fun x t => x.arenaEach t (anewOne x d.toNat)) ∧
  (∀ q d slot, Runs (.anew q d slot) (fun x s => anewWaits x d.toNat x.acts s = true) fun x t => x.wait t) ∧
  (∀ q d slot, Runs (.alloc q d slot) anyState fun x t => x.arenaEach t (allocOne x d.toNat)) ∧
  (∀ q d slot, Runs (.aseal q d slot) (fun x s => releaseDone x s 2 = true) fun x t => x.arenaEach (x.released t 2) (asealOne x d.toNat)) ∧
  (∀ q d slot, Runs (.aqry q d slot) anyState fun x t =>
    x.arenaEach t (aqryOne x d.toNat)) ∧
  (∀ q d a slot, Runs (.adrop q d a slot) (fun x s => anyOutstanding s x.gid x.active = false) fun x t =>
    x.acts.foldl (adropOne x d.toNat (predNo a.toNat x.o.pxA)) t) ∧
  (∀ q d a slot, Runs (.adrop q d a slot) (fun x s => anyOutstanding s x.gid x.active = true) fun x t => x.wait t) ∧
  (∀ q d a slot, Reaches (.adrop q d a slot) (fun x s => anyOutstanding s x.gid x.active = false ∧
      ∃ l m, x.acts = [(l, m)] ∧ adropFail x s (vreg x.rs (x.lk l) d.toNat) = none) fun x s t =>
    ∀ l m, x.acts = [(l, m)] →
      let n := handleNo (vreg x.rs (x.lk l) d.toNat)
      lanesBecome x (fun _ y => passed x y) s t ∧
      t.drops = s.drops.put (s.nextId + 1)
        { root := n, members := [], unmarked := [(n, (arenaAt s n).gen)], gid := x.gid, tok := s.nextId, lanes := m, pred := predNo a.toNat x.o.pxA,
          pc := x.pcR, next := x.next, word := x.w } ∧
      t.arenas = s.arenas ∧ t.filters = s.filters ∧ (∀ g h, homeByte t g h = homeByte s g h) ∧ (∀ k n, vreg t k n = vreg s k n)) ∧
  (∀ (x : Ctx) (s : State) (f : State → Nat → Except ArenaFail (State × List (Nat × Word))) (l : Nat) (m : BitVec 64), x.acts = [(l, m)] →
    (∀ e, f s (x.lk l) = .error e → x.arenaEach s f = x.raiseAll s m (x.fi e.1 e.2)) ∧
    (∀ u rs, f s (x.lk l) = .ok (u, rs) → x.arenaEach s f = x.send u (x.spread m rs)))

/-- R143, R148, R151, R152: `alloc` and `anew`: the checks in their order, the bump, the charge, and the results. A fault changes neither B nor
C. R153 to R155, R159: what a seal request, a drop and a query do, and the zero state of a range. R465: at a poisoned descriptor each raises
INTEGRITY detail 2; how a descriptor comes to be poisoned is the model's choice (log 41). -/
def Obligations.ArenaWordsTakeTheirEffect : Prop :=
  (∀ (a : Arena) (n k : Nat),
    let b := (a.bump + 2 ^ k - 1) / 2 ^ k * 2 ^ k
    (a.rangeEnd < b + n → bumpArena a n (2 ^ k) = .error 1) ∧
    (b + n ≤ a.rangeEnd → a.quota < a.charge + (b - a.bump) + n → bumpArena a n (2 ^ k) = .error 0) ∧
    (b + n ≤ a.rangeEnd → a.charge + (b - a.bump) + n ≤ a.quota →
      bumpArena a n (2 ^ k) = .ok (b, { a with charge := a.charge + (b - a.bump) + n, bump := b + n }) ∧ b % 2 ^ k = 0 ∧ a.bump ≤ b)) ∧
  (∀ (x : Ctx) (d : Nat) (s : State) (k : Nat),
    let h := vreg x.rs k d
    let al := (vreg x.rs k (d + 1)).toNat
    let n := (vpair x.rs k (d + 2)).toNat
    let a := arenaAt s (handleNo h)
    (16 < al ∨ 2 ^ 48 ≤ n → allocOne x d s k = .error (1, 2)) ∧
    (al ≤ 16 → n < 2 ^ 48 → descPoisoned s (handleNo h) = true → allocOne x d s k = .error (20, 2)) ∧
    (al ≤ 16 → n < 2 ^ 48 → descPoisoned s (handleNo h) = false →
      (handleCurrent s x.g.stamp h = false → allocOne x d s k = .error (10, 1)) ∧
      (handleCurrent s x.g.stamp h = true → a.state = .sealed → allocOne x d s k = .error (10, 2)) ∧
      (handleCurrent s x.g.stamp h = true → a.state ≠ .sealed →
        (∀ e, bumpArena a n (2 ^ al) = .error e → allocOne x d s k = .error (11, e)) ∧
        (∀ v a', bumpArena a n (2 ^ al) = .ok (v, a') → allocOne x d s k =
          .ok ({ s with arenas := s.arenas.put (handleNo h) a' }, [(d + 2, BitVec.ofNat 32 v), (d + 3, BitVec.ofNat 32 (v / 2 ^ 32))]))))) ∧
  (∀ (x : Ctx) (d : Nat) (s : State) (k : Nat),
    let h := vreg x.rs k d
    let q := (vpair x.rs k (d + 2)).toNat
    let p := arenaAt s (handleNo h)
    (q = 0 ∨ q % 65536 ≠ 0 ∨ 2 ^ 48 ≤ q → anewOne x d s k = .error (1, 2)) ∧
    (q ≠ 0 → q % 65536 = 0 → q < 2 ^ 48 → descPoisoned s (handleNo h) = true → anewOne x d s k = .error (20, 2)) ∧
    (q ≠ 0 → q % 65536 = 0 → q < 2 ^ 48 → descPoisoned s (handleNo h) = false →
      (handleCurrent s x.g.stamp h = false → anewOne x d s k = .error (10, 1)) ∧
      (handleCurrent s x.g.stamp h = true →
        (p.state = .sealed → anewOne x d s k = .error (10, 2)) ∧
        (p.state ≠ .sealed → p.depth = 7 → anewOne x d s k = .error (11, 2)) ∧
        (p.state ≠ .sealed → p.depth ≠ 7 → 239 ≤ numbersHeld s p.dom → anewOne x d s k = .error (11, 3)) ∧
        (p.state ≠ .sealed → p.depth ≠ 7 → numbersHeld s p.dom < 239 →
          (∀ e, bumpArena p q 65536 = .error e → anewOne x d s k = .error (11, e)) ∧
          (∀ base p' c, bumpArena p q 65536 = .ok (base, p') → lowestFree s = some c →
            ∃ t, anewOne x d s k = .ok (t, [(d, handleOf t c), (d + 2, BitVec.ofNat 32 base), (d + 3, BitVec.ofNat 32 (base / 2 ^ 32))]) ∧
              t.arenas = (s.arenas.put (handleNo h) p').put c
                { state := .live, gen := (arenaAt { s with arenas := s.arenas.put (handleNo h) p' } c).gen, dom := p.dom, depth := p.depth + 1,
                  parent := handleNo h, quota := q, charge := 0, base := base, rangeEnd := base + q, bump := base } ∧
              t.lanes = s.lanes ∧ t.vregs = s.vregs))))) ∧
  (∀ (x : Ctx) (d : Nat) (s : State) (k : Nat),
    let h := vreg x.rs k d
    let n := handleNo h
    (descPoisoned s n = true → asealOne x d s k = .error (20, 2) ∧ adropFail x s h = some (20, 2) ∧ aqryOne x d s k = .error (20, 2)) ∧
    (descPoisoned s n = false → aqryOne x d s k = .ok (s, aqryRegs s x.g.stamp h d)) ∧
    (descPoisoned s n = false →
    (handleCurrent s x.g.stamp h = false → asealOne x d s k = .error (10, 1) ∧ adropFail x s h = some (10, 1)) ∧
    (handleCurrent s x.g.stamp h = true → (arenaAt s n).depth = 0 → asealOne x d s k = .error (10, 3) ∧ adropFail x s h = some (10, 3)) ∧
    (handleCurrent s x.g.stamp h = true → (arenaAt s n).depth ≠ 0 → (arenaAt s n).state = .live →
      asealOne x d s k = .ok ({ s with seals := s.seals.put s.nextId ⟨n, (arenaAt s n).gen, false, x.gid, x.tok, []⟩, nextId := s.nextId + 1 }, [])) ∧
    (handleCurrent s x.g.stamp h = true → (arenaAt s n).depth ≠ 0 → adropFail x s h = none))) ∧
  (∀ (x : Ctx) (d pn : Nat) (s : State) (l : Nat) (m : BitVec 64),
    let h := vreg x.rs (x.lk l) d
    let n := handleNo h
    (∀ f, adropFail x s h = some f → adropOne x d pn s (l, m) = x.raiseAll s m (x.fi f.1 f.2)) ∧
    (adropFail x s h = none → adropOne x d pn s (l, m) = { s with
      nextId := s.nextId + 1
      drops := s.drops.put s.nextId
        { root := n, members := [], unmarked := [(n, (arenaAt s n).gen)], gid := x.gid, tok := x.tok, lanes := m, pred := pn, pc := x.pcR, next := x.next, word := x.w } })) ∧
  (∀ (s : State) (dom : Nat) (h : Word) (d : Nat), handleMatches s dom h = false →
    aqryRegs s dom h d = [(d, 0), (d + 1, 0), (d + 2, 0), (d + 3, 0)]) ∧
  (∀ (s : State) (dom : Nat) (h : Word) (d : Nat), handleMatches s dom h = true → ∃ w rest, aqryRegs s dom h d = (d, w) :: rest ∧
    (let a := arenaAt s (handleNo h)
     a.depth ≤ 7 → (handleOf s a.parent).toNat < 65536 → (w.toNat % 65536 = if a.depth = 0 then 0 else (handleOf s a.parent).toNat) ∧
       w.toNat / 2 ^ 16 % 8 = a.depth ∧ w.toNat / 2 ^ 19 % 2 = (if a.depth = 0 then 1 else 0) ∧
       w.toNat / 2 ^ 20 = (if a.state = .live then 1 else if a.state = .sealed then 2 else 3)) ∧
    rest = [(d + 1, BitVec.ofNat 32 (childrenOf s (handleNo h)).length),
      (d + 2, BitVec.ofNat 32 ((arenaAt s (handleNo h)).quota - (arenaAt s (handleNo h)).charge)),
      (d + 3, BitVec.ofNat 32 (((arenaAt s (handleNo h)).quota - (arenaAt s (handleNo h)).charge) / 2 ^ 32))]) ∧
  (∀ (s : State) (pa len q b : Nat), s.wf = true → pa % 65536 = 0 → len % 65536 = 0 → q < 2 ^ 22 →
    (∀ a, pa ≤ a → a < pa + len → homesOf a = homesOf pa) → (∀ e ∈ s.hostLines, zeroMarked s (e.1 / 2 ^ 22) = false) →
    (pa ≤ b → b < pa + len → homeByte (zeroRange s pa len) q b = 0 ∧ homeHdr (zeroRange s pa len) b = 0) ∧
    (b < pa ∨ pa + len ≤ b → homeByte (zeroRange s pa len) q b = homeByte s q b ∧ homeHdr (zeroRange s pa len) b = homeHdr s b))
/-- R149, R153, R154, R157, R158, R163, R164, R166: the events by which seals and drops take their course. A drop that reaches its arena's home takes
its drop point there, and its lanes receive 1 in pA, or 0 where an engine names the arena; it waits while a seal of the arena is in progress. A seal of an arena whose number has another
generation by then, or that is no longer live or sealed, ends without effect. -/
def Obligations.SealsAndDropsTakeTheirCourse : Prop :=
  (∀ s n, sealsOf s n false ≠ [] → (∀ e ∈ sealsOf s n false, e.2.gen = (arenaAt s n).gen) → (arenaAt s n).state = .live →
    engineWrites s (subtree s 7 n) = false →
    Occurs (.arenaSealPoint n) s fun t => (∀ m, (arenaAt s m).state = .live → m ∈ subtree s 7 n → arenaAt t m = { arenaAt s m with state := .sealed }) ∧
      (∀ m, m ∉ subtree s 7 n → arenaAt t m = arenaAt s m) ∧ sealsOf t n false = [] ∧
      (∀ e ∈ sealsOf t n true, e.2.members = subtree s 7 n) ∧ (∀ q b, homeByte t q b = homeByte s q b)) ∧
  (∀ s n, let old := (sealsOf s n false).filter fun e => e.2.gen != (arenaAt s n).gen || !((arenaAt s n).state == .live || (arenaAt s n).state == .sealed)
    old ≠ [] → exec (.arenaSealPoint n) s = .next (endSeals s old)) ∧
  (∀ s n, sealsOf s n true ≠ [] → tagWrites s (subtree s 7 n) = false → Occurs (.arenaSealComplete n) s fun t => t.seals = (sealsOf s n true).foldl (fun u e => u.del e.1) s.seals ∧ t.arenas = s.arenas) ∧
  (∀ s n i D, (s.drops.find? fun e => e.2.unmarked.any fun u => u.1 == n) = some (i, D) → D.members = [] →
    D.unmarked.contains (D.root, (arenaAt s D.root).gen) = true → (arenaAt s D.root).state = .live ∨ (arenaAt s D.root).state = .sealed →
    let told := fun (t : State) (b : Bool) => voided s D.gid D.tok = false → D.pred ≠ 0 → D.pred < 128 →
      ∀ l, l < 64 → has D.lanes l = true → laneLive s (lk D.gid l) = true → preg t (lk D.gid l) D.pred = b
    ((s.seals.any fun e => e.2.arena == D.root) = true → exec (.drainMark n) s = .refused (.notEnabled "DRAIN_MARK")) ∧
    ((s.seals.any fun e => e.2.arena == D.root) = false → engineNames s (subtree s 7 D.root) = true → Occurs (.drainMark n) s fun t =>
      t.arenas = s.arenas ∧ t.drops = s.drops.del i ∧ told t false) ∧
    ((s.seals.any fun e => e.2.arena == D.root) = false → engineNames s (subtree s 7 D.root) = false → Occurs (.drainMark n) s fun t =>
      t.arenas = s.arenas.put D.root { arenaAt s D.root with state := .draining } ∧ told t true ∧
      t.drops = s.drops.put i { D with members := [D.root], unmarked := (childrenOf s D.root).map fun c => (c, (arenaAt s c).gen) })) ∧
  (∀ s n i D, (s.drops.find? fun e => e.2.unmarked.any fun u => u.1 == n) = some (i, D) → D.members ≠ [] →
    (D.unmarked.contains (n, (arenaAt s n).gen) = true → (arenaAt s n).state = .live ∨ (arenaAt s n).state = .sealed → Occurs (.drainMark n) s fun t =>
      t.arenas = s.arenas.put n { arenaAt s n with state := .draining } ∧
      t.drops = s.drops.put i { D with members := D.members ++ [n],
                                       unmarked := (D.unmarked.filter (·.1 != n)) ++ (childrenOf s n).map fun c => (c, (arenaAt s c).gen) }) ∧
    (D.unmarked.contains (n, (arenaAt s n).gen) = false ∨ ((arenaAt s n).state ≠ .live ∧ (arenaAt s n).state ≠ .sealed) →
      exec (.drainMark n) s = .next { s with drops := s.drops.put i { D with unmarked := D.unmarked.filter (·.1 != n) } })) ∧
  (∀ s n i D, (s.drops.find? fun e => e.2.root == n && e.2.members != []) = some (i, D) → D.unmarked = [] → tagInFlight s D.members = false →
    filtersTaken s D.members = true → parkIn s (arenaAt s n).dom (arenaAt s n).base ((arenaAt s n).rangeEnd - (arenaAt s n).base) = false →
    s.drops.any (fun e => e.1 ≠ i ∧ D.members.contains (arenaAt s e.2.root).parent) = false →
    Occurs (.arenaDropComplete n) s fun t => t.drops = s.drops.del i ∧
      (D.members = [n] → (arenaAt s n).parent ≠ n →
        (∀ g, (arenaAt s n).gen = g → g ≠ 15 → (arenaAt t n).state = .free ∧ (arenaAt t n).gen = g + 1) ∧
        ((arenaAt s n).gen = 15 → (arenaAt t n).state = .held) ∧
        (arenaAt t (arenaAt s n).parent).charge = (arenaAt s (arenaAt s n).parent).charge - (arenaAt s n).quota ∧
        (arenaAt t (arenaAt s n).parent).bump = if (arenaAt s n).rangeEnd = (arenaAt s (arenaAt s n).parent).bump then (arenaAt s n).base
          else (arenaAt s (arenaAt s n).parent).bump)) ∧
  (∀ s pl, pl < 256 → (s.filters.any fun e => e.left.getLsbD pl) = true → Occurs (.discardSweep pl) s fun t =>
    (∀ f ∈ t.filters, (f.left ≠ 0 ∨ f.todo ≠ 0) ∧ ∃ e ∈ s.filters, f.arena = e.arena ∧ f.gen = e.gen ∧ f.ranges = e.ranges ∧
      (∀ p, p < 256 → p ≠ pl → f.left.getLsbD p = e.left.getLsbD p ∧ f.todo.getLsbD p = e.todo.getLsbD p) ∧
      (e.left.getLsbD pl = true → f.left.getLsbD pl = false ∧ f.todo = e.todo) ∧
      (f.left.getLsbD pl = true → e.todo.getLsbD pl = true ∧ f.todo.getLsbD pl = false)) ∧
    (∀ l ∈ t.l1, l ∈ s.l1 ∧ (keyPair l.1 = pl → ∀ e ∈ s.filters, filterHits e l = false)) ∧
    (∀ l ∈ s.l1, (keyPair l.1 ≠ pl ∨ ∀ e ∈ s.filters, filterHits e l = false) → l ∈ t.l1) ∧
    (∀ q b, pl < 128 ∨ isHost b = false ∨ (s.wf = true ∧ q < 2 ^ 22 ∧ filtered s pl (tagArena q) (tagGen q) (b / 64) = false) →
      homeByte t q b = homeByte s q b)) ∧
  (∀ s n, (arenaAt s n).state = .held → (s.filters.any fun e => e.arena == n) = false →
    exec (.arenaNumberRecycle n) s = .next { s with arenas := s.arenas.del n } ∧ (s.arenas.sorted = true → arenaAt { s with arenas := s.arenas.del n } n = {}))

/-! ### Fibres, tags and bins (R172 to R187) -/

/-- Lanes of `m` in group `gid` become `F`; no other lane changes. -/
def lanesMap (gid : Nat) (m : BitVec 64) (F : Lane → Lane) (s t : State) : Prop :=
  (∀ l, l < 64 → t.lanes.get? (lk gid l) = (s.lanes.get? (lk gid l)).map fun y => if has m l then F y else y) ∧
  (∀ k, k / 64 ≠ gid → t.lanes.get? k = s.lanes.get? k)
/-- R110, R181 to R187: the fibre words act lane by lane when no operand fails its check and nothing holds back their release. R176, R181, R183:
`park` acts in its lowest lane; the lanes above it wait before the word and no other lane of the group issues until they have followed. R182 to R187: the
operand checks of the fibre words and the faults they raise. -/
def Obligations.FibreWordsActInTheirLanes : Prop :=
  (∀ q d a b, Runs (.spawn q d a b) (fun x s => (∀ c ∈ x.acts, spawnFail x s a.toNat c.1 = none) ∧ releaseDone x s (x.scopeOr 2) = true) fun x t =>
    x.acts.foldl (spawnOne x d.toNat a.toNat b.toNat (x.scopeOr 2 == 3)) (x.released t (x.scopeOr 2))) ∧
  (∀ gd d a b, Runs (.park gd d a b) (fun x s => let l := lowest x.active
      parkFail x d.toNat a.toNat l = none ∧ x.walked s [(vpair x.rs (x.lk l) a.toNat).toNat] ∧
      ((laneAt s (x.lk l)).parkTag ≠ none ∨ parkFull x b.toNat s l = false) ∧
      releaseDone { x with active := bitMask l } s 2 = true) fun x t =>
    let l := lowest x.active
    x.others l (parkOne x d.toNat a.toNat b.toNat
      (({ x with go := bitMask l } : Ctx).released (parkReserve x b.toNat (x.taken t [(vpair x.rs (x.lk l) a.toNat).toNat]) l) 2) l)) ∧
  (∀ gd d a b, Runs (.park gd d a b) (fun x s => let l := lowest x.active
      parkFail x d.toNat a.toNat l = none ∧ x.walked s [(vpair x.rs (x.lk l) a.toNat).toNat] ∧ (laneAt s (x.lk l)).parkTag = none ∧
      parkFull x b.toNat s l = true) fun x t =>
    let l := lowest x.active
    x.others l (x.raise (x.taken t [(vpair x.rs (x.lk l) a.toNat).toNat]) l (x.fi 18 0))) ∧
  (∀ (x : Ctx) (b l : Nat) (s : State), l < 64 → (laneAt s (x.lk l)).parkTag = none → (s.lanes.get? (x.lk l)).isSome = true →
    let t := vreg x.rs (x.lk l) b
    let u := parkReserve x b s l
    (laneAt u (x.lk l)).parkTag = some t ∧ parkReserve x b u l = u ∧
    ∃ e, tagEntry? u x.g.stamp t = some e ∧ e.reserved = ((tagEntry? s x.g.stamp t).map (·.reserved)).getD 0 + 1) ∧
  (∀ (x : Ctx) (l : Nat) (s : State),
    let rest := x.go &&& ~~~(bitMask l)
    let u := x.others l s
    (rest = 0 → u = s) ∧
    (rest ≠ 0 → (∀ j, j < 64 → u.lanes.get? (x.lk j) = (s.lanes.get? (x.lk j)).map fun y =>
        if has rest j ∧ y.held = .none then
          { y with pc := x.cur.pc, run := x.cur.run, held := .retry, wait := (x.waits.getD j (0, 0)).1, lastAc := (x.waits.getD j (0, 0)).2 }
        else y) ∧
      (∀ g, u.groups.get? x.gid = some g → holdsGroup x.w = true → g.only = rest) ∧
      u = { s with lanes := u.lanes, groups := u.groups, board := u.board, ports := u.ports })) ∧
  (∀ q d a b, Runs (.rdy q d a b) (fun x s => releaseDone x s (x.scopeOr 2) = true) fun x t =>
    x.acts.foldl (rdyOne x d.toNat a.toNat b.toNat (x.scopeOr 2 == 3)) (x.released t (x.scopeOr 2))) ∧
  (∀ q d a b, Runs (.await q d a b) (fun x _ => ∀ c ∈ x.acts, awaitFail x b.toNat c.1 = none) fun x t =>
    x.acts.foldl (awaitOne x (predNo d.toNat x.o.pxD) a.toNat b.toNat) t) ∧
  (∀ q d a b, allFail (.spawn q d a b) fun x s l => spawnFail x s a.toNat l) ∧
  (∀ q d a b, allFail (.await q d a b) fun x _ l => awaitFail x b.toNat l) ∧
  (∀ q b, allFail (.wakeTmr q b) fun x _ l => wakeFail x b.toNat l) ∧
  (∀ q a, Runs (.wake q a) anyState fun x t =>
    x.acts.foldl (fun u e => x.covered.foldl (flushBins x.g.stamp (vpair x.rs (x.lk e.1) a.toNat).toNat) u) t) ∧
  (∀ q b, Reaches (.wakeTmr q b) (fun x s => x.u = true ∧ 0 < (vreg s (x.lk (lowest x.active)) b.toNat).toNat ∧
      (vreg s (x.lk (lowest x.active)) b.toNat).toNat ≤ 1000) fun x s t =>
    ∀ die, die < 4 → (funcAt s x.g.func).binTime.length = 4 → (funcAt t x.g.func).binTime.getD die 0 =
      if x.covered.contains die then (vreg s (x.lk (lowest x.active)) b.toNat).toNat else (funcAt s x.g.func).binTime.getD die 0) ∧
  (∀ q b, Runs (.wakeTmr q b) (fun x _ => ∀ c ∈ x.acts, wakeFail x b.toNat c.1 = none) fun x t =>
    x.acts.foldl (fun (u : State) e => modFunc u x.g.func fun f =>
      { f with binTime := x.covered.foldl (fun bt d => setAt bt d (vreg x.rs (x.lk e.1) b.toNat).toNat) f.binTime }) t) ∧
  (∀ (x : Ctx) (s : State) (a b d l : Nat),
    ((vpair x.rs (x.lk l) a).toNat % 4 ≠ 0 → spawnFail x s a l = some (x.fi 7 0 (vpair x.rs (x.lk l) a).toNat 4)) ∧
    ((vpair x.rs (x.lk l) a).toNat % 4 = 0 → headerAt s x.g.stamp (vpair x.rs (x.lk l) a).toNat = none → spawnFail x s a l = some (x.fi 1 2)) ∧
    (∀ h, (vpair x.rs (x.lk l) a).toNat % 4 = 0 → headerAt s x.g.stamp (vpair x.rs (x.lk l) a).toNat = some h →
      (h.teamg ≠ 0 ∨ h.coop = true ∨ h.roled = true → spawnFail x s a l = some (x.fi 1 3)) ∧
      (h.teamg = 0 → h.coop = false → h.roled = false → spawnFail x s a l = none)) ∧
    ((∃ n, n < 64 ∧ (vpair x.rs (x.lk l) d).getLsbD n = true ∧ x.g.window ≤ n) → parkFail x d a l = some (x.fi 1 0)) ∧
    ((∀ n, n < 64 → (vpair x.rs (x.lk l) d).getLsbD n = true → n < x.g.window) →
      (16 < (lanesOf (vpair x.rs (x.lk l) d)).length → parkFail x d a l = some (x.fi 1 2)) ∧
      ((lanesOf (vpair x.rs (x.lk l) d)).length ≤ 16 → (vpair x.rs (x.lk l) a).toNat % 128 ≠ 0 →
        parkFail x d a l = some (x.fi 7 1 (vpair x.rs (x.lk l) a).toNat))) ∧
    (awaitFail x b l = none ↔ (vreg x.rs (x.lk l) b).toNat < 2 ^ 20) ∧
    (wakeFail x b l = none ↔ 1 ≤ (vreg x.rs (x.lk l) b).toNat ∧ (vreg x.rs (x.lk l) b).toNat ≤ 1000))
/-- R172 to R174, R182: a fibre enters the bin of its key, starts its timer when it is the first and launches the bin when it fills it; a bin
that is full waits with status 1, and a share with no bin left answers 2. R177: a post adds its count, saturating, to an entry with no
waiter; taking one lowers it; an entry left with nothing is freed. -/
def Obligations.BinsTakeFibresAndTagsTakePosts : Prop :=
  (∀ (s : State) (die dom f entry : Nat) (h : Header) (x : Fibre),
    let due := s.wall + 70 * (funcAt s f).binTime.getD die 10
    (∀ key b, binOf s die dom entry h.entry = some (key, b) → s.bins.get? key = some b →
      (h.width ≤ b.fibres.length → binInsert s die dom f entry h x = (1, s)) ∧
      (b.fibres.length + 1 < h.width → b.fibres ≠ [] →
        binInsert s die dom f entry h x = (0, { s with bins := s.bins.put key { b with fibres := b.fibres ++ [x] } })) ∧
      (b.fibres = [] → 1 < h.width → binInsert s die dom f entry h x = (0, { s with bins := s.bins.put key { b with fibres := [x], timer := some due } })) ∧
      (b.fibres.length + 1 = h.width → b.waiting = none → ∃ t, binInsert s die dom f entry h x = (0, t) ∧
        t.bins.get? key = some { b with fibres := [], timer := none, waiting := some (b.fibres ++ [x]) } ∧
        ∀ k, k ≠ key → t.bins.get? k = s.bins.get? k)) ∧
    (binOf s die dom entry h.entry = none →
      ((funcAt s f).bins.getD die 0 ≤ binsHeld s f die → binInsert s die dom f entry h x = (2, s)) ∧
      (binsHeld s f die < (funcAt s f).bins.getD die 0 → ∀ key, ((upTo (die * 256) 256).find? fun k => (s.bins.get? k).isNone) = some key →
        binInsert s die dom f entry h x = (0, { s with bins := s.bins.put key ⟨dom, f, entry, h.entry, [x], some due, none, false⟩ })))) ∧
  (∀ s dom f t n e, tagEntry? s dom t = some e → e.waiters = [] → e.count + n ≠ 0 →
    tagEntry? (post s dom f t n) dom t = some { e with count := min (e.count + n) 0xFFFFFFFF } ∧
    ∀ d u, (d ≠ dom ∨ u ≠ t) → tagEntry? (post s dom f t n) d u = tagEntry? s d u) ∧
  (∀ s dom f t n, tagEntry? s dom t = none → n ≠ 0 → n ≤ 0xFFFFFFFF →
    tagEntry? (post s dom f t n) dom t = some ⟨dom, f, t, n, [], 0, false⟩) ∧
  (∀ s dom f t e, tagEntry? s dom t = some e → e.count ≠ 0 → (takeOne s dom f t).1 = true ∧
    tagEntry? (takeOne s dom f t).2 dom t =
      if e.count = 1 ∧ e.waiters = [] ∧ e.reserved = 0 then none else some { e with count := e.count - 1, sys := e.sys && e.count != 1 }) ∧
  (∀ s dom f t, (∀ e, tagEntry? s dom t = some e → e.count = 0) → takeOne s dom f t = (false, s))
/-- R181, R183 to R185: one act of `spawn`, `park`, `rdy` and `await`. -/
def Obligations.FibreActsTakeTheirEffect : Prop :=
  (∀ (x : Ctx) (d a b : Nat) (sys : Bool) (s : State) (l : Nat) (m : BitVec 64) h, headerAt s x.g.stamp (vpair x.rs (x.lk l) a).toNat = some h →
    let en := (vpair x.rs (x.lk l) a).toNat
    let r := binInsert s (dieOf x.g.core) x.g.stamp x.g.func en h
      { args := [vreg x.rs (x.lk l) b, vreg x.rs (x.lk l) (b + 1), vreg x.rs (x.lk l) (b + 2), vreg x.rs (x.lk l) (b + 3)], resume := en, sys := sys }
    spawnOne x d a b sys s (l, m) = (lanesOf m).foldl (fun u j => setVreg u (x.lk j) d (BitVec.ofNat 32 r.1)) r.2) ∧
  (∀ (x : Ctx) (d a b : Nat) (s : State) (l : Nat), l < 64 →
    let t := vreg x.rs (x.lk l) b
    let av := (vpair x.rs (x.lk l) a).toNat
    (parkFull x b s l = true ↔ entryRoom s x.g.func (tagHome t) (waiterNeed s x.g.stamp t) = false) ∧
    (∀ pa p va, placeOf s x.g av 0 true false = .ok (.mem pa p) → (hostLineFails s x.g.stamp av true 2 128).1 = some va →
      parkOne x d a b s l = x.raise (dropReserved (hostLineFails s x.g.stamp av true 2 128).2 (x.lk l)) l (x.accFault ⟨8, 3, va⟩ 128 true)) ∧
    (∀ f, placeOf s x.g av 0 true false = .error f → parkOne x d a b s l = x.raise (dropReserved s (x.lk l)) l (x.accFault f 128 true)) ∧
    (∀ pa p, placeOf s x.g av 0 true false = .ok (.mem pa p) → (hostLineFails s x.g.stamp av true 2 128).1 = none →
      let u := parkOne x d a b s l
      let y := laneAt s (x.lk l)
      let bs := recordBytes x.next.toNat x.g.kentry y.preds ((lanesOf (vpair x.rs (x.lk l) d)).map fun r => (r, vreg x.rs (x.lk l) r)) t x.g.stamp false y.fpstat
      u.parks = s.parks.put (s.nextId + 2) ⟨x.lk l, x.gid, x.g.stamp, x.g.func, t, av, [s.nextId, s.nextId + 1]⟩ ∧
      (∃ A B : Access, u.acc = (s.acc.put s.nextId A).put (s.nextId + 1) B ∧ A.kind = .merge ∧ B.kind = .merge ∧ A.pa = pa ∧ B.pa = pa + 64 ∧
        A.bytes = bs.take 64 ∧ B.bytes = (bs.drop 64).take 64) ∧
      lanesMap x.gid (bitMask l) (fun y => { y with held := .result, parkTag := none }) s u ∧ (∀ k n, vreg u k n = vreg s k n))) ∧
  (∀ (x : Ctx) (d a b : Nat) (sys : Bool) (s : State) (l : Nat) (m : BitVec 64),
    let t := rdyOne x d a b sys s (l, m)
    t.posts = s.posts.put s.nextId ⟨x.g.stamp, x.g.func, vreg x.rs (x.lk l) a, (vreg x.rs (x.lk l) b).toNat, x.gid, m, d, false, sys⟩ ∧
    lanesMap x.gid m (fun y => { y with held := .result }) s t ∧ t = { s with posts := t.posts, nextId := s.nextId + 1, lanes := t.lanes }) ∧
  (∀ (x : Ctx) (pn a b : Nat) (s : State) (l : Nat) (m : BitVec 64),
    let tag := vreg x.rs (x.lk l) a
    let t := awaitOne x pn a b s (l, m)
    (∀ e, tagEntry? s x.g.stamp tag = some e → e.count ≠ 0 → t.tags = (takeOne s x.g.stamp x.g.func tag).2.tags ∧
      lanesMap x.gid m (fun y => { y with preds := setBit128 y.preds pn true }) s t) ∧
    ((∀ e, tagEntry? s x.g.stamp tag = some e → e.count = 0) → (vreg x.rs (x.lk l) b).toNat = 0 →
      t = { s with lanes := t.lanes } ∧ lanesMap x.gid m (fun y => { y with preds := setBit128 y.preds pn false }) s t) ∧
    ((∀ e, tagEntry? s x.g.stamp tag = some e → e.count = 0) → (vreg x.rs (x.lk l) b).toNat ≠ 0 → has m l = true → l < 64 →
      entryRoom s x.g.func (tagHome tag) (waiterNeed s x.g.stamp tag) = true →
      (∃ e, tagEntry? t x.g.stamp tag = some e ∧ .lane (x.lk l) ∈ e.waiters) ∧
      ∀ j, j < 64 → has m j = true → ∀ y, s.lanes.get? (x.lk j) = some y →
        t.lanes.get? (x.lk j) = some { y with pc := x.cur.pc, run := x.cur.run,
                                              held := .await tag (x.now + (vreg x.rs (x.lk l) b).toNat) pn (if j = l then m else 0) }))
/-- R173, R174, R177, R183 to R185: the events of parks, posts, waits and bins. -/
def Obligations.FibreEventsTakeTheirCourse : Prop :=
  (∀ s i p, s.parks.get? i = some p → (p.deps.any fun j => (s.acc.get? j).isSome) = false → entryShare s p.func (tagHome p.tag) = 0 →
    exec (.parkRegistration i) s = .next (displaced (endLane { s with parks := s.parks.del i } p.lane) p.dom
      (((s.groups.get? p.gid).map (·.core)).getD 0) p.addr)) ∧
  (∀ s i p, s.parks.get? i = some p → (p.deps.any fun j => (s.acc.get? j).isSome) = false → entryShare s p.func (tagHome p.tag) ≠ 0 → (∀ e, tagEntry? s p.dom p.tag = some e → e.count = 0) →
    Occurs (.parkRegistration i) s fun t => t.parks = s.parks.del i ∧ t.lanes = s.lanes.del p.lane ∧
      ∃ e, tagEntry? t p.dom p.tag = some e ∧ .record p.addr ∈ e.waiters) ∧
  (∀ s i p, s.parks.get? i = some p → (p.deps.any fun j => (s.acc.get? j).isSome) = false → Occurs (.parkRegistration i) s fun _ => True) ∧
  (∀ s i p, s.posts.get? i = some p → p.free = false → postBlocked s p = true → postBehind s i p = false → p.reg < 128 → s.wf = true → Occurs (.tagPostArrival i) s fun t =>
    t.posts = s.posts.del i ∧ t.tags = s.tags ∧ ∀ l, l < 64 → has p.lanes l = true → laneLive s (lk p.gid l) = true → vreg t (lk p.gid l) p.reg = 1) ∧
  (∀ s i p, s.posts.get? i = some p → p.free = true → postBlocked s p = false → p.lanes = 0 →
    exec (.tagPostArrival i) s = .next (post { s with posts := s.posts.del i } p.dom p.func p.tag p.n p.sys)) ∧
  (∀ s i p, s.posts.get? i = some p → postBlocked s p = false → p.free = true ∨ postBehind s i p = false → Occurs (.tagPostArrival i) s fun _ => True) ∧
  (∀ s gid l g y tag deadline pn m, s.groups.get? gid = some g → s.lanes.get? (lk gid l) = some y → y.held = .await tag deadline pn m → m ≠ 0 →
    deadline ≤ acNow s (dieOf g.core) → l < 64 → has m l = true → Occurs (.awaitTimeout gid l) s fun t =>
      t.lanes.get? (lk gid l) = some { y with preds := setBit128 y.preds pn false, held := .none, pc := y.pc + 4, run := [] } ∧
      (∀ e, tagEntry? t g.stamp tag = some e → .lane (lk gid l) ∉ e.waiters)) ∧
  (∀ s die bin b w, s.bins.get? (die * 256 + bin) = some b → b.timer = some w → bin < 256 → w ≤ s.wall → b.fibres ≠ [] → b.waiting = none →
    exec (.binTimerExpiry die bin) s = .next { s with
      bins := (s.bins.put (die * 256 + bin) { b with timer := none }).put (die * 256 + bin) { b with fibres := [], timer := none, waiting := some b.fibres } }) ∧
  (∀ s i c h u, s.heldConts.get? i = some c → headerAt s c.dom c.kentry = some h →
    binInsert { s with heldConts := s.heldConts.del i } c.die c.dom c.func c.entry h c.fibre = (0, u) → exec (.continuationBinEntry i) s = .next u)

/-! ### Taking a fault and returning from one (R411 to R424) -/

/-- R422, R423: `trap` raises TRAPINSN 0x150 in every executing lane with its code in SUB; `dbg` raises DEBUG 0x160 while debug is enabled, and
does nothing while it is not; a TRACE.SET with bit 63 of its event mask enables it.
R229, R234: a lane with an enabled event writes nothing of the result and raises FPX with the events; any other lane writes and ORs the
events into its sticky flags. -/
def Obligations.TrapDebugAndEventsRaise : Prop :=
  (∀ gd imm, Runs (.trap gd imm) anyState fun x t => (lanesOf x.active).foldl (fun u l => x.raise u l ⟨0x150, imm.toNat, 0, 0, x.u⟩) t) ∧
  (∀ gd imm, Runs (.dbg gd imm) (fun x s => debugOn s x.g.func = true) fun x t =>
    (lanesOf x.active).foldl (fun u l => x.raise u l ⟨0x160, imm.toNat, 0, 0, x.u⟩) t) ∧
  (∀ gd imm, Delivers (.dbg gd imm) (fun x _ => debugOn x.rs x.g.func = false) fun _ _ => ⟨[], [], 0⟩) ∧
  (∀ s f, debugOn s f = (funcAt s f).traceMask.testBit 63) ∧
  (∀ s fn slot c, (funcAt s fn).slots.get? slot = some c → fAt c.bytes 0 2 = 8 → c.verdict = none → cmdTurn (funcAt s fn) slot c = true →
    Occurs (.traceSet fn slot) s fun t => debugOn t (fnOf fn c.bytes 0x28) = (fAt c.bytes 0x20 8).testBit 63) ∧
  (∀ (x : Ctx) (s : State) (l : Nat) (r : LaneRes),
    (∀ e, fpTrap (laneAt s (x.lk l)).fpstat r.ev = some e → x.deliver s l r = x.raise s l (x.fi 19 e 0 r.ev)) ∧
    (fld (laneAt s (x.lk l)).fpstat 8 5 &&& r.ev = 0 → ∀ y, s.lanes.get? (x.lk l) = some y →
      (x.deliver s l r).lanes.get? (x.lk l) = some { y with preds := lastPreds r.preds y.preds, fpstat := y.fpstat ||| BitVec.ofNat 32 (r.ev % 32) }))
/-- R415, R416, R419: what taking a fault does in a lane with no open gate. With no handler the lane ends and a trace record is offered. With no free
slot, or while a lower lane of the word waits for one, it is held and tries again; with a free slot and room the slot's OWN word is set and the entry is
reserved, and the delivery follows, held while accesses of the lane or its release are not done. The delivery leaves the record of Tables 9-3
and 23-2 and the window in the slot, the lane has ended, and the handler fibre has the slot's address, the cause and the tag. -/
def Obligations.TakingAFault : Prop :=
  (∀ (s : State) (gid l : Nat) (f : FaultInfo) (pc next : DWord) (w : Word) (g : Group), s.groups.get? gid = some g → g.gate = none → l < 64 →
    (s.results.any fun e => e.2.traps.contains (lk gid l)) = false →
    let t := takeFault s gid l f pc next w
    let fn := funcAt s g.func
    let hold := modLane s (lk gid l) fun y => { y with held := .faultSlot f w next pc, run := [], pc := pc }
    (fn.faultEntry = none ∨ fn.faultArea = none → fn.traceSize = 0 → (funcAt s 0).traceSize = 0 →
      t = { countFault s g with lanes := s.lanes.del (lk gid l) }) ∧
    (fn.faultEntry = none ∨ fn.faultArea = none → t.lanes = s.lanes.del (lk gid l) ∧ t.groups = s.groups ∧ t.vregs = s.vregs) ∧
    (∀ e fa, fn.faultEntry = some e → fn.faultArea = some fa → freeFaultSlot s g.stamp fa Config.faultSlots 0 = .ok none → t = hold) ∧
    (∀ e fa, fn.faultEntry = some e → fn.faultArea = some fa → lowerWaits s gid l pc w = true → t = hold) ∧
    (∀ e fa i, fn.faultEntry = some e → fn.faultArea = some fa → lowerWaits s gid l pc w = false →
      freeFaultSlot s g.stamp fa Config.faultSlots 0 = .ok (some i) →
      let tag := faultTag (dieOf g.core) i
      let room := entryRoom s g.func (dieOf g.core) (if (tagEntry? s g.stamp tag).isSome then 1 else 2)
      let v := traceDomain (countFault s g) f g.core g.stamp pc.toNat
      (room = false → t = hold) ∧
      (∀ u, room = true → domWrite v g.stamp (fa + 512 * i + 0x80) [1, 0, 0, 0] = some u →
        t = deliverFault (putTag u g.stamp g.func tag fun q => { q with reserved := q.reserved + 1 }) gid l i f pc next w) ∧
      (room = true → domWrite v g.stamp (fa + 512 * i + 0x80) [1, 0, 0, 0] = none → t.lanes = s.lanes.del (lk gid l)))) ∧
  (∀ (s : State) (gid l i : Nat) (f : FaultInfo) (pc next : DWord) (w : Word) (g : Group), s.groups.get? gid = some g → l < 64 →
    let t := deliverFault s gid l i f pc next w
    let hold := fun (u : State) => modLane u (lk gid l) fun y => { y with held := .deliver i f w next pc, run := [], pc := pc }
    let tag := faultTag (dieOf g.core) i
    let fn := funcAt s g.func
    let a := fn.faultArea.getD 0 + 512 * i
    (awaited s gid l = true → t = hold s) ∧
    (∀ u, awaited s gid l = false → releaseAt s gid (bitMask l) (pairOf g.core) g.stamp 2 = .error u → t = hold u) ∧
    (∀ v u, awaited s gid l = false → releaseAt s gid (bitMask l) (pairOf g.core) g.stamp 2 = .ok v →
      let y := laneAt v (lk gid l)
      domWrites v g.stamp a
        (recordBytes pc.toNat g.kentry y.preds ((upTo 0 (min g.window 16)).map fun r => (r, vreg v (lk gid l) r)) tag g.stamp true y.fpstat ++
          faultRecord v f pc.toNat next.toNat g.core l (1 + (if f.group then 2 else 0)) g.gridix.toNat w.toNat (g.func * 64 + g.stamp) ++
          (upTo 0 64).flatMap fun r => leBytes 4 (if r < g.window then (vreg v (lk gid l) r).toNat else 0)) 8 = some u →
      entryShare u g.func (dieOf g.core) ≠ 0 → (∀ q, tagEntry? u g.stamp tag = some q → q.count = 0) →
      t.lanes = u.lanes.del (lk gid l) ∧ (∀ q b, homeByte t q b = homeByte u q b) ∧
      (∃ q, tagEntry? t g.stamp tag = some q ∧ .record a ∈ q.waiters) ∧
      (∀ e h, fn.faultEntry = some e → headerAt s g.stamp e = some h → ∃ v', t = binRelease v' (dieOf g.core) g.stamp g.func e h
        { args := [BitVec.ofNat 32 a, BitVec.ofNat 32 (a / 2 ^ 32), BitVec.ofNat 32 f.cause, tag], resume := e } false)))
/-- R178, R183, Table 9-3: the 128 bytes of a continuation record, little-endian: RESUME, KENTRY, PREDS, LIVE, TAG, the domain, the faulted
mark, FPSTAT, and the live registers in increasing number. Table 23-2: the bytes of a fault record. -/
def Obligations.RecordsAreLaidOutAsTheirTables : Prop :=
  (∀ (resume kentry : Nat) (preds : BitVec 128) (live : List (Nat × Word)) (tag : Word) (dom : Nat) (faulted : Bool) (fp : Word),
    live.length ≤ 16 →
    let r := recordBytes resume kentry preds live tag dom faulted fp
    r.length = 128 ∧ r.take 8 = leBytes 8 resume ∧ (r.drop 8).take 8 = leBytes 8 kentry ∧ (r.drop 0x10).take 16 = leBytes 16 preds.toNat ∧
    (r.drop 0x20).take 8 = leBytes 8 (live.foldl (fun n e => n + 2 ^ e.1) 0) ∧ (r.drop 0x28).take 4 = leBytes 4 tag.toNat ∧
    (r.drop 0x2C).take 1 = [BitVec.ofNat 8 dom] ∧ (r.drop 0x2D).take 1 = [if faulted then 1 else 0] ∧
    (r.drop 0x30).take 4 = leBytes 4 (fp &&& 0x1F1F).toNat ∧
    ∀ i e, live[i]? = some e → (r.drop (0x40 + 4 * i)).take 4 = leBytes 4 e.2.toNat) ∧
  (∀ (s : State) (f : FaultInfo) (pc next core lane flags gridix word domid : Nat),
    let r := faultRecord s f pc next core lane flags gridix word domid
    r.length = 128 ∧ r.take 4 = [1, 0, 0, 0] ∧ (r.drop 4).take 2 = leBytes 2 f.cause ∧ (r.drop 6).take 2 = leBytes 2 f.sub ∧
    (r.drop 8).take 8 = leBytes 8 pc ∧ (r.drop 0x10).take 8 = leBytes 8 next ∧ (r.drop 0x18).take 8 = leBytes 8 f.addr ∧
    (r.drop 0x20).take 8 = leBytes 8 f.info ∧ (r.drop 0x28).take 8 = leBytes 8 (nsNow s) ∧ (r.drop 0x30).take 2 = leBytes 2 core ∧
    (r.drop 0x32).take 1 = leBytes 1 lane ∧ (r.drop 0x33).take 1 = leBytes 1 flags ∧ (r.drop 0x34).take 4 = leBytes 4 gridix ∧
    (r.drop 0x38).take 4 = leBytes 4 word ∧ (r.drop 0x3C).take 4 = leBytes 4 domid)
/-- R416, R424: `eret` with a slot's address acts lane by lane after its release; it posts the slot's tag and ends its lane, or discards the
continuation; an address that is no slot's raises OPERAND detail 2; a record that lies in host memory may fail to be read (R281; log 51). A lane or a detached fault that waits for a slot tries again, and
so does a delivery that waits. The tag is that of the die whose entry holds the slot's record. -/
def Obligations.ReturningFromAFault : Prop :=
  (∀ gd d imm, Runs (.eret gd d imm) (fun x s => (∀ c ∈ x.acts, eretFail x s d.toNat c.1 = none) ∧
      x.walked s ((lanesOf x.active).map fun l => (vpair x.rs (x.lk l) d.toNat).toNat) ∧ releaseDone x s 2 = true) fun x t =>
    (lanesOf x.active).foldl (eretOne x d.toNat imm.toNat)
      (x.released (x.taken t ((lanesOf x.active).map fun l => (vpair x.rs (x.lk l) d.toNat).toNat)) 2)) ∧
  (∀ gd d imm, allFail (.eret gd d imm) fun x s l => eretFail x s d.toNat l) ∧
  (∀ (x : Ctx) (s : State) (d l : Nat), eretFail x s d l =
    if isSlot s x.g.func (vpair x.rs (x.lk l) d).toNat then none else some (x.fi 1 2)) ∧
  (∀ (x : Ctx) (d : Nat) (s : State) (l : Nat) (r : List Byte), domRead s x.g.stamp (vpair x.rs (x.lk l) d).toNat 5 256 = .ok r →
    let a := (vpair x.rs (x.lk l) d).toNat
    let host := hostLineFails s x.g.stamp a false 4 256
    let u := host.2
    let own := leNat ((r.drop 0x80).take 8) % 2 ^ 32
    let resume := leNat (r.take 8)
    let tag := slotTag s x.g.stamp ((funcAt s x.g.func).faultArea.getD 0) a r
    (∀ va mode, host.1 = some va → eretOne x d mode s l = x.raise u l (x.accFault ⟨8, 3, va⟩ 64 false)) ∧
    (host.1 = none →
      (own = 0 → ∀ mode, eretOne x d mode s l = x.raise u l (x.fi 1 2)) ∧
      (own ≠ 0 → leNat ((r.drop 0xB3).take 1) % 2 = 0 → ∀ mode, mode ≠ 2 → eretOne x d mode s l = x.raise u l (x.fi 1 3)) ∧
      (own ≠ 0 → eretOne x d 2 s l = endLane (returnFault u x.g.stamp x.g.func a tag true) (x.lk l)) ∧
      (own ≠ 0 → leNat ((r.drop 0xB3).take 1) % 2 = 1 → resume % 4 ≠ 0 → eretOne x d 0 s l = x.raise u l (x.fi 7 0 resume 4)) ∧
      (own ≠ 0 → leNat ((r.drop 0xB3).take 1) % 2 = 1 → resume % 4 = 0 → resume = leNat ((r.drop 0x88).take 8) →
        eretOne x d 0 s l = endLane (returnFault u x.g.stamp x.g.func a tag false) (x.lk l)))) ∧
  (∀ s dom f a tag, (tagEntry? s dom tag).isSome = true ∨ entryRoom s f (tagHome tag) 1 = true → returnFault s dom f a tag false = post s dom f tag 1) ∧
  (∀ s dom fa a r die e, die < 4 → tagEntry? s dom (faultTag die ((a - fa) / 512)) = some e → e.waiters.contains (.record a) = true →
    (∀ d, d < die → ∀ q, tagEntry? s dom (faultTag d ((a - fa) / 512)) = some q → q.waiters.contains (.record a) = false) →
    slotTag s dom fa a r = faultTag die ((a - fa) / 512)) ∧
  (∀ s dom va n, (∀ k pa p, translate s dom (va + k) false = .ok (pa, p) → isHost pa = false) → hostLineFails s dom va false 4 n = (none, s)) ∧
  (∀ s gid l y f w next pc, s.lanes.get? (lk gid l) = some y → y.held = .faultSlot f w next pc → l < 64 →
    exec (.faultSlotRetry gid l) s = .next (takeFault s gid l f pc next w)) ∧
  (∀ s gid l y i f w next pc, s.lanes.get? (lk gid l) = some y → y.held = .deliver i f w next pc → l < 64 →
    exec (.faultSlotRetry gid l) s = .next (deliverFault s gid l i f pc next w)) ∧
  (∀ s i D, s.detached.get? i = some D →
    exec (.faultSlotRetry i 64) s = .next (deliverDetached { s with detached := s.detached.del i } D.dom D.fault D.core D.flags D.pc D.word D.domid))

/-! ### Gates and reconfiguration (R119 to R122, R136 to R142) -/

/-- R132, R138, R141, R281: `gate` waits while its target's slot is being given up and raises what the read of its descriptor raises; it enters the target's code with a new window, keeps v0 to v7 and writes v8, or answers 0x112 when there is no room; `gret`
brings the caller's frame back, v0 to v7 crossing, with pD := 1; both raise GATE 0x113 where their rules name it, and an index beyond 63 raises OPERAND 0x012. R140: a fault in target code marks the gate, which aborts when the word is
over: every live lane goes on at the return address with the frame's registers, v0 the cause and pD := 0. R119 to R122, Tables 6-2 and 6-3: `recfg` outside the steward's stamp
raises DOMAIN detail 3; in it, each list is read after an acquire and its status, index and reason are written; a failing entry leaves the
configuration as it was. -/
def Obligations.GatesAndReconfiguration : Prop :=
  (∀ gd d imm, Runs (.gate gd d imm) (fun x _ => groupWhole x = true ∧ x.g.gate = none ∧ convPending x.g = false ∧ imm.toNat ≤ 63) fun x t =>
    let g := (t.groups.get? x.gid).getD x.g
    if groupQuiet { t with groups := t.groups.put x.gid { g with slots := g.slots.filter fun e => e.2 != x.tok } } x.gid = false then x.wait t
    else match readGate t imm.toNat with
      | (.error e, u) => x.raiseAll u x.active { x.accFault e 64 false with group := true }
      | (.ok none, u) => x.raiseAll u x.active ⟨0x110, 0, 0, 0, true⟩
      | (.ok (some de), u) => match gateTarget u de.target with
        | none => x.raiseAll u x.active ⟨0x110, 0, 0, 0, true⟩
        | some f =>
          if bitAt de.callers x.g.stamp = false then x.raiseAll u x.active ⟨0x111, 0, 0, 0, true⟩
          else if de.entry % 4 ≠ 0 then x.raiseAll u x.active ⟨0x070, 0, de.entry, 4, true⟩
          else if ontoHint u { g with stamp := de.target } (BitVec.ofNat 64 de.entry) = true then x.raiseAll u x.active { x.illegal 9 with group := true }
          else if gateHeld u g.core de.target = true then x.wait u
          else match (if slotRoom u g.core de.target = true then gateWindow x u (predNo d.toNat x.o.pxD) de f g else none) with
            | some base => gateEnter x u (predNo d.toNat x.o.pxD) de f base
            | none => (lanesOf x.active).foldl (fun v l => setPreg (setVreg v (x.lk l) 0 0x112) (x.lk l) (predNo d.toNat x.o.pxD) false) u) ∧
  (∀ (x : Ctx) (s : State) (g : Group) (pd : Nat) (de : GateDesc) (f base : Nat), s.groups.get? x.gid = some g → s.wf = true →
    let t := gateEnter x s pd de f base
    (∃ g', t.groups.get? x.gid = some g' ∧ g'.stamp = de.target ∧ g'.func = f ∧ g'.window = de.window ∧ g'.divmax = de.divmax ∧ g'.rfBase = base ∧
      g'.entries = [] ∧ ∃ fr, g'.gate = some fr ∧ fr.stamp = g.stamp ∧ fr.func = g.func ∧ fr.retPc = x.next ∧ fr.pred = pd ∧ fr.window = g.window ∧
        fr.entries = g.entries) ∧
    (∀ l, has x.go l = true → (∀ n, n < 128 → vreg t (x.lk l) n = if n < 8 then vreg s (x.lk l) n else if n = 8 then BitVec.ofNat 32 (g.func * 64 + g.stamp) else 0)) ∧
    (∀ l, has x.go l = true → ∀ y, s.lanes.get? (x.lk l) = some y → ∃ z, t.lanes.get? (x.lk l) = some z ∧ z.pc = BitVec.ofNat 64 de.entry ∧ z.preds = 1) ∧
    (∀ q b, homeByte t q b = homeByte s q b)) ∧
  (∀ gd fr, Runs (.gret gd) (fun x s => groupWhole x = true ∧ x.g.gate = some fr ∧ groupQuiet s x.gid = true ∧ releaseDone x s 2 = true) fun x t =>
    gateLeave x (x.released t 2) fr) ∧
  (∀ (x : Ctx) (s : State) (g : Group) (fr : GateFrame), s.groups.get? x.gid = some g → s.wf = true →
    let t := gateLeave x s fr
    (∃ g', t.groups.get? x.gid = some g' ∧ g'.stamp = fr.stamp ∧ g'.func = fr.func ∧ g'.window = fr.window ∧ g'.divmax = fr.divmax ∧
      g'.rfBase = fr.rfBase ∧ g'.entries = fr.entries ∧ g'.gate = none) ∧
    (∀ l, has x.go l = true → ∀ n, n < 64 → vreg t (x.lk l) n = if n < 8 then vreg s (x.lk l) n else fr.regs.rd (l * 128 + n)) ∧
    (∀ l, has x.go l = true → ∀ y, s.lanes.get? (x.lk l) = some y → ∃ z, t.lanes.get? (x.lk l) = some z ∧ z.pc = fr.retPc ∧
      z.preds = setBit128 ((fr.preds.get? l).getD 1) fr.pred true) ∧ (∀ q b, homeByte t q b = homeByte s q b)) ∧
  (∀ (s : State) (gid l : Nat) (f : FaultInfo) (pc next : DWord) (w : Word) (g : Group) (fr : GateFrame), s.groups.get? gid = some g → g.gate = some fr →
    let t := takeFault s gid l f pc next w
    t.groups = s.groups.put gid { g with abort := some (g.abort.getD f.cause) } ∧ t.lanes = s.lanes ∧ t.vregs = s.vregs) ∧
  (∀ (s : State) (gid code : Nat) (g : Group) (fr : GateFrame), s.groups.get? gid = some g → g.gate = some fr → s.wf = true →
    let t := abortGate s gid code
    (∃ g', t.groups.get? gid = some g' ∧ g'.stamp = fr.stamp ∧ g'.func = fr.func ∧ g'.window = fr.window ∧ g'.divmax = fr.divmax ∧
      g'.rfBase = fr.rfBase ∧ g'.entries = fr.entries ∧ g'.gate = none ∧ g'.abort = none ∧ g'.voidTo = s.nextId) ∧
    (∀ l y, l < 64 → s.lanes.get? (lk gid l) = some y → (∃ z, t.lanes.get? (lk gid l) = some z ∧ z.pc = fr.retPc ∧ z.held = .none ∧ z.txn = none ∧
        z.preds = setBit128 ((fr.preds.get? l).getD 1) fr.pred false) ∧
      vreg t (lk gid l) 0 = BitVec.ofNat 32 code ∧ ∀ n, 0 < n → n < 64 → vreg t (lk gid l) n = fr.regs.rd (l * 128 + n)) ∧
    (∀ q b, homeByte t q b = homeByte s q b)) ∧
  (∀ q d, Runs (.recfg q d) (fun x s => (∀ c ∈ x.acts, recfgFail x d.toNat c.1 = none) ∧
      x.walked s (x.acts.map fun e => (vpair x.rs (x.lk e.1) d.toNat).toNat) ∧ releaseDone x s 2 = true ∧ recfgWaits x d.toNat s = false) fun x t =>
    x.acts.foldl (recfgOne x d.toNat) (x.released (x.taken t (x.acts.map fun e => (vpair x.rs (x.lk e.1) d.toNat).toNat)) 2)) ∧
  (∀ q d, Runs (.recfg q d) (fun x s => (∀ c ∈ x.acts, recfgFail x d.toNat c.1 = none) ∧
      x.walked s (x.acts.map fun e => (vpair x.rs (x.lk e.1) d.toNat).toNat) ∧ releaseDone x s 2 = true ∧ recfgWaits x d.toNat s = true) fun x t =>
    x.wait (x.released (x.taken t (x.acts.map fun e => (vpair x.rs (x.lk e.1) d.toNat).toNat)) 2)) ∧
  (∀ q d, allFail (.recfg q d) fun x _ l => recfgFail x d.toNat l) ∧
  (∀ gd, Runs (.gret gd) (fun x _ => x.g.gate = none ∨ groupWhole x = false) fun x t => x.raiseAll t x.active ⟨0x113, 0, 0, 0, true⟩) ∧
  (∀ gd d imm, Runs (.gate gd d imm) (fun x _ => groupWhole x = false ∨ x.g.gate ≠ none ∨ convPending x.g = true) fun x t =>
    x.raiseAll t x.active ⟨0x113, 0, 0, 0, true⟩) ∧
  (∀ gd d imm, Runs (.gate gd d imm) (fun x _ => groupWhole x = true ∧ x.g.gate = none ∧ convPending x.g = false ∧ 63 < imm.toNat) fun x t =>
    x.raiseAll t x.active ⟨0x012, 0, 0, 0, true⟩) ∧
  (∀ (x : Ctx) (d l : Nat), (x.g.stamp ≠ 0 → recfgFail x d l = some (x.fi 9 3)) ∧
    (x.g.stamp = 0 → (recfgFail x d l = none ↔ (vpair x.rs (x.lk l) d).toNat % 32 = 0 ∧ 1 ≤ (vreg x.rs (x.lk l) (d + 2)).toNat ∧
      (vreg x.rs (x.lk l) (d + 2)).toNat ≤ 256))) ∧
  (∀ (s : State) (b : List Byte) (n : Nat), (jasperCommit s b n).1.1 = 0 ∨ (jasperCommit s b n).1.1 = 5) ∧
  (∀ (s : State) (b : List Byte) (n : Nat), (jasperCommit s b n).1.1 ≠ 0 → (jasperCommit s b n).2 = s) ∧
  (∀ (s : State) (b : List Byte) (r : Nat), cfgFail s (b.take 32) = some r → jasperCommit s b 1 = ((5, 0, r), s)) ∧
  (∀ (s : State) (b : List Byte), cfgFail s (b.take 32) = none → ((cfgApply s (b.take 32)).funcs.any fun e => poolBad (cfgApply s (b.take 32)) e.1) = false →
    jasperCommit s b 1 = ((0, 0xFFFFFFFF, 0), cfgConsequences s (cfgApply s (b.take 32)))) ∧
  (∀ (s : State) (b : List Byte), fAt b 0 1 = 6 → (funcAt (cfgApply s b) (fAt b 1 1)).grace = fAt b 8 4) ∧
  (∀ (s : State) (b : List Byte), fAt b 0 1 = 3 → (funcAt (cfgApply s b) (fAt b 1 1)).channels = BitVec.ofNat 32 (fAt b 8 4))
/-! ### Engines and messages (R301 to R312, R390 to R397) -/

/-- R301, R302, R304, R307: the engine words act lane by lane. An act whose parameters, overlap, alignment, banks or places fail raises its fault,
in that order, or 0x08F where a host page's transaction fails (R281, log 51), and queues nothing; any other queues its operation, whose registers it has captured, for acceptance. R162: the arenas and destinations
of the operation are known from then on. R308, R345: an index list is read behind the lane's own atomics and matrix words (log 28). -/
def Obligations.EngineWordsQueueTheirOperations : Prop :=
  (∀ q d a slot k cw tg, Runs (.cpy q d a slot k cw tg) anyState fun x t => x.acts.foldl (engOne x 0 d.toNat a.toNat cw tg k.toNat) t) ∧
  (∀ q d a slot k cw tg, Runs (.cpyg q d a slot k cw tg) (fun x s => engWaits 1 x s = false) fun x t => x.acts.foldl (engOne x 1 d.toNat a.toNat cw tg k.toNat) t) ∧
  (∀ q d a slot k cw tg, Runs (.cpyg q d a slot k cw tg) (fun x s => engWaits 1 x s = true) fun x t => x.wait t) ∧
  (∀ q d a slot k cw tg, Runs (.cpys q d a slot k cw tg) (fun x s => engWaits 2 x s = false) fun x t => x.acts.foldl (engOne x 2 d.toNat a.toNat cw tg k.toNat) t) ∧
  (∀ q d a slot k cw tg, Runs (.cpys q d a slot k cw tg) (fun x s => engWaits 2 x s = true) fun x t => x.wait t) ∧
  (∀ q d a slot k cw tg, Runs (.coll q d a slot k cw tg) anyState fun x t => x.acts.foldl (engOne x 3 d.toNat a.toNat cw tg k.toNat) t) ∧
  (∀ (x : Ctx) (kind d a : Nat) (cw tg : Bool) (sc : Nat) (s : State) (l : Nat) (m : BitVec 64),
    let o := engOpOf x kind d a cw tg sc s (x.lk l)
    let t := engOne x kind d a cw tg sc s (l, m)
    (engBadParams o = true → t = x.raiseAll s m (x.fi 1 2)) ∧
    (engBadParams o = false → engOverlap o = true → t = x.raiseAll s m (x.fi 1 3)) ∧
    (∀ v, engBadParams o = false → engOverlap o = false → engMisaligned o = some v → t = x.raiseAll s m (x.fi 7 0 v.1 v.2)) ∧
    (∀ f, engBadParams o = false → engOverlap o = false → engMisaligned o = none → engBankFail s o = some f →
      t = x.raiseAll s m (x.fi f.1.cls f.1.detail f.1.addr (engInfo o.cwOff f.2 f.1))) ∧
    (∀ f, engBadParams o = false → engOverlap o = false → engMisaligned o = none → engBankFail s o = none → engCheckPlaces s o = some f →
      t = x.raiseAll s m (x.fi f.1.cls f.1.detail f.1.addr (engInfo o.cwOff f.2 f.1))) ∧
    (engBadParams o = false → engOverlap o = false → engMisaligned o = none → engBankFail s o = none → engCheckPlaces s o = none →
      (hostOf s o (engChecked o) = none →
        t = { s with engs := s.engs.put s.nextId { o with arenas := engArenas s o, dests := o.targets }, nextId := s.nextId + 1 }) ∧
      (∀ va, hostOf s o (engChecked o) = some va →
        t = if (takeBit s).1 = true then x.raiseAll (takeBit s).2 m (x.fi 8 3 va o.cwOff) else putEng (takeBit s).2 o)) ∧
    o.params = [vreg x.rs (x.lk l) d, vreg x.rs (x.lk l) (d + 1), vreg x.rs (x.lk l) (d + 2), vreg x.rs (x.lk l) (d + 3), vreg x.rs (x.lk l) (d + 4),
      vreg x.rs (x.lk l) (d + 5), vreg x.rs (x.lk l) (d + 6), vreg x.rs (x.lk l) (d + 7)] ∧
    o.cwVal = (if cw then (vpair x.rs (x.lk l) a).toNat else 0) ∧ o.kind = kind ∧ o.scope = sc ∧ o.accepted = false ∧ o.tok = x.tok)
/-- An operation that waits may be accepted: its lane's accesses and matrix words have completed, an entry and the range records of its homes are free,
and the flush that it waits for is over (R283, R302, R325). -/
def engMayEnter (s : State) (o : EngOp) : Prop :=
  o.accepted = false ∧ o.node = none ∧ outstanding s o.lane = false ∧ matOutstanding s o.gid (o.lane % 64) = false ∧ recordsFree s o = true ∧
  entriesTaken s o.core o.dom < Config.engineEntries ∧ (o.deps.any fun d => (s.acc.get? d).isSome) = false
/-- R283, R284, R302 to R304: the events of an engine operation. Acceptance registers the lines and arenas of the destination and clears the
word's slot; a recall writes one line ahead; completion writes what is left, then the completion word and the tag; a failure writes the
failure value and raises a detached fault. R291, R302, R307: the bytes that an operation writes in memory are those of its pieces; a byte
that no piece's destination names keeps its value, and a piece of a copy in one line leaves its bytes there, unless a frame of the source
lies under that line; memory of the module is meant, host memory apart. R281: an operation with a host page may fail with 0x08F there (log 51). -/
def Obligations.EngineOperationsTakeTheirCourse : Prop :=
  (∀ s i o, s.engs.get? i = some o → engMayEnter s o → o.deps ≠ [] ∨ (victimsOf s (pairOf o.core) o.dom = [] ∧ dirtyCopies s (pairOf o.core) o.dom = []) →
    engEmpty o = false → Occurs (.engineOpAccept i) s fun t => t.engs = s.engs.put i { o with accepted := true, owned := engLines s o } ∧
      (∀ q b, homeByte t q b = homeByte s q b)) ∧
  (∀ s i o, s.engs.get? i = some o → engMayEnter s o → Occurs (.engineOpAccept i) s fun _ => True) ∧
  (∀ s i o line ds, s.engs.get? i = some o → o.accepted = true → o.owned.contains line = true → dataReady o = true → o.failed = none →
    allData s o ((engPieces o).filter fun c => pieceLine s o c == some line) = .ok ds → Occurs (.engineRecall i line) s fun t =>
      (∃ o', t.engs.get? i = some o' ∧ o'.owned.contains line = false ∧ ∀ m, m ≠ line → o'.owned.contains m = o.owned.contains m) ∧
      (∀ q b, homeByte t q b = homeByte (writePieces o [] ds s) q b)) ∧
  (∀ s i o ds, s.engs.get? i = some o → o.accepted = true → o.node = none → dataReady o = true → o.failed = none → allData s o (leftPieces s o) = .ok ds →
    exec (.engineOpComplete i) s = .next (endEng (scopeFlush (writePieces o [] ds s) o) i o o.cwVal)) ∧
  (∀ s i o cause addr, s.engs.get? i = some o → o.accepted = true → o.node = none → engFailure s o = some (cause, addr) →
    exec (.engineOpFailure i) s = .next (failColl (detachedFault (endEng (scopeFlush s o) i o (0xFFFFFFFF * 2 ^ 32 + cause)) o.dom
      { cause := cause, addr := addr, info := failInfo o cause } o.core) (matesOf s i o) 0x0EE)) ∧
  (∀ s i o va, s.engs.get? i = some o → o.accepted = true → o.node = none → engFailure s o = none → engHost s o = some va →
    exec (.engineOpFailure i) s = .next (failColl (detachedFault (endEng (scopeFlush s o) i o (0xFFFFFFFF * 2 ^ 32 + 0x08F)) o.dom
      { cause := 0x08F, addr := va, info := if o.cw then o.cwOff else 0 } o.core) (matesOf s i o) 0x0EE)) ∧
  (∀ s i o v, (endEng s i o v).engs = s.engs.del i ∧ (o.cw = false → ∀ b, (endEng s i o v).spm.rd b = s.spm.rd b) ∧
    (o.tg = true → ∃ k, (endEng s i o v).posts = s.posts.put k { dom := o.dom, func := o.func, tag := BitVec.ofNat 32 (o.p 7), n := 1, free := true, sys := o.scope == 3 }) ∧
    (∀ t key, o.cw = true → s.wf = true → s.teams.get? o.team = some t → t.saved = none → spmAt t o.cwOff = some key →
      ∀ b, (endEng s i o v).spm.rd b = if key ≤ b ∧ b < key + 8 then BitVec.ofNat 8 (v / 2 ^ (8 * (b - key))) else s.spm.rd b)) ∧
  (∀ (o : EngOp) (ds : List (Piece × List Byte × Option (BitVec 16))) (s : State) (q b : Nat), s.wf = true → isHost b = false →
    (∀ d ∈ ds, ∀ j, j < d.1.n → ∀ pa p, engPlace s o.dom o.gated (d.1.dva + j) true 1 = .ok (.mem pa p) → pa ≠ b) →
    homeByte (writePieces o [] ds s) q b = homeByte s q b) ∧
  (∀ (o : EngOp) (c : Piece) (bs : List Byte) (h : Option (BitVec 16)) (s : State) (line : Nat), s.wf = true → o.kind = 0 → bs.length = c.n →
    pieceLine s o c = some line → aliased s o line = false →
    (∀ j k pa p q, j < c.n → k < c.n → engPlace s o.dom o.gated (c.dva + j) true 1 = .ok (.mem pa p) →
      engPlace s o.dom o.gated (c.dva + k) true 1 = .ok (.mem pa q) → j = k) →
    ∀ j q pa p, j < c.n → isHost pa = false → engPlace s o.dom o.gated (c.dva + j) true 1 = .ok (.mem pa p) →
      homeByte (writePieces o [] [(c, bs, h)] s) q pa = bs.getD j 0) ∧
  (∀ (o : EngOp) (c : Piece) (bs : List Byte) (v : BitVec 16) (s : State) (line : Nat), s.wf = true → pieceLine s o c = some line →
    (0 < c.n → bs.length = c.n → isHost (line * 64) = false → homeHdr (writePieces o [] [(c, bs, some v)] s) (line * 64) = v) ∧
    (∀ a, homeHdr (writePieces o [] [(c, bs, none)] s) a = homeHdr s a))
/-- R309 to R312: a participant joins the open instance of its domain and id or opens one, and completes it when it is the last; an instance that
lacks participants after 100 ms fails with COLLECTIVE detail 3. Participants that disagree fail with detail 0, equal ranks with 1. -/
def Obligations.CollectivesGatherAndFail : Prop :=
  (∀ s i o tree, s.engs.get? i = some o → o.kind = 3 → o.accepted = true → arrived s i o = false →
    (s.colls.find? fun c => c.2.dom == o.dom && c.2.id == o.cid) = none → 1 < o.cn →
    exec (.collectiveArrival i tree) s =
      .next { s with nextId := s.nextId + 1, colls := s.colls.put s.nextId ⟨o.dom, o.cid, o.cn, [i], s.wall⟩ }) ∧
  (∀ s i o tree j c, s.engs.get? i = some o → o.kind = 3 → o.accepted = true → arrived s i o = false →
    (s.colls.find? fun c => c.2.dom == o.dom && c.2.id == o.cid) = some (j, c) → s.wall < c.first + 70000000 →
    (c.ops.length + 1 < c.n → exec (.collectiveArrival i tree) s = .next { s with colls := s.colls.put j { c with ops := c.ops ++ [i] } }) ∧
    (c.n ≤ c.ops.length + 1 → treeCovers tree c.n = true →
      exec (.collectiveArrival i tree) s = .next (finishColl { s with colls := s.colls.del j } (c.ops ++ [i]) tree))) ∧
  (∀ s i c, s.colls.get? i = some c → c.first + 70000000 ≤ s.wall →
    exec (.collectiveTimeout i) s = .next (failColl { s with colls := s.colls.del i } c.ops 0x0EF)) ∧
  (∀ s ids t, collAgree ((ids.filterMap fun i => (s.engs.get? i).map fun o => (i, o)).map (·.2)) = false → finishColl s ids t = failColl s ids 0x0EC) ∧
  (∀ s ids t, collAgree ((ids.filterMap fun i => (s.engs.get? i).map fun o => (i, o)).map (·.2)) = true →
    dedup ((ids.filterMap fun i => (s.engs.get? i).map fun o => (i, o)).map (·.2.crank)) ≠
      (ids.filterMap fun i => (s.engs.get? i).map fun o => (i, o)).map (·.2.crank) → finishColl s ids t = failColl s ids 0x0ED) ∧
  (∀ s i o cause, s.engs.get? i = some o → o.failed = none → (failColl s [i] cause).engs = s.engs.put i { o with failed := some (cause, 0) }) ∧
  (∀ s i o cause, s.engs.get? i = some o → o.failed.isSome = true → (failColl s [i] cause).engs = s.engs.put i o) ∧
  (∀ (t : CTree) (f : Nat → Nat), (∀ r, f r < 2 ^ 32) →
    sextInt (collElem 2 0 t f) 32 = sextInt (((treeRanks t).map f).foldl (· + ·) 0 % 2 ^ 32) 32 ∧
    (∀ r ∈ treeRanks t, sextInt (f r) 32 ≤ sextInt (collElem 2 1 t f) 32) ∧ (∃ r ∈ treeRanks t, collElem 2 1 t f = f r) ∧
    (∀ r ∈ treeRanks t, sextInt (collElem 2 2 t f) 32 ≤ sextInt (f r) 32) ∧ (∃ r ∈ treeRanks t, collElem 2 2 t f = f r))

/-- R392 to R396: the message words act lane by lane once their blocks pass; an arrival is delivered to the oldest matching receive, queued, refused when the
queue is full, or answered 3 when no such slot is there, and its status leaves for the sender. -/
def Obligations.MessagesAreSentReceivedAndProbed : Prop :=
  (∀ q d a slot k, Runs (.msend q d a slot k) (fun x s => (∀ c ∈ x.acts, msendFail x d.toNat c.1 = none) ∧ msendWaits x d.toNat s = false ∧
      releaseDone x s k.toNat = true) fun x t => x.acts.foldl (msendOne x d.toNat a.toNat) (x.released t k.toNat)) ∧
  (∀ q d a slot k, Runs (.msend q d a slot k) (fun x s => (∀ c ∈ x.acts, msendFail x d.toNat c.1 = none) ∧ msendWaits x d.toNat s = true) fun x t =>
    x.wait t) ∧
  (∀ q d a slot k, Runs (.mrecv q d a slot k) (fun x s => ∀ c ∈ x.acts, mrecvFail x s d.toNat c.1 = none) fun x t =>
    x.acts.foldl (mrecvOne x d.toNat a.toNat k.toNat) t) ∧
  (∀ q d a slot k, Runs (.mprobe q d a slot k) (fun x _ => ∀ c ∈ x.acts, mprobeFail x d.toNat c.1 = none) fun x t =>
    x.acts.foldl (fun u e => x.send u (x.spread e.2 (pairWrites a.toNat (BitVec.ofNat 64 (probeValue u x.g.core x.g.stamp (vreg x.rs (x.lk e.1) d.toNat)
      (vreg x.rs (x.lk e.1) (d.toNat + 1)) (vreg x.rs (x.lk e.1) (d.toNat + 2)).toNat))))) t) ∧
  (∀ q d a slot k, allFail (.msend q d a slot k) fun x _ l => msendFail x d.toNat l) ∧
  (∀ q d a slot k, allFail (.mrecv q d a slot k) fun x s l => mrecvFail x s d.toNat l) ∧
  (∀ q d a slot k, allFail (.mprobe q d a slot k) fun x _ l => mprobeFail x d.toNat l) ∧
  (∀ (x : Ctx) (d a sc : Nat) (s : State) (l : Nat) (m : BitVec 64),
    let r := recvOf x s d sc (x.lk l)
    (∀ i q, (s.queues.find? fun q => q.2.core == r.core && q.2.dom == r.dom && msgMatches r.tag r.mask r.sel q.2.tag q.2.source) = some (i, q) →
      mrecvOne x d a sc s (l, m) = x.send (deliver { s with queues := s.queues.del i } r q.tag q.source q.payload) (x.spread m [(a, 1)])) ∧
    ((s.queues.find? fun q => q.2.core == r.core && q.2.dom == r.dom && msgMatches r.tag r.mask r.sel q.2.tag q.2.source) = none →
      (Config.receives ≤ (s.recvs.filter fun t => t.2.core == r.core && t.2.dom == r.dom).length → mrecvOne x d a sc s (l, m) = x.send s (x.spread m [(a, 2)])) ∧
      ((s.recvs.filter fun t => t.2.core == r.core && t.2.dom == r.dom).length < Config.receives →
        mrecvOne x d a sc s (l, m) = x.send { s with recvs := s.recvs.put s.nextId r, nextId := s.nextId + 1 } (x.spread m [(a, 0)])))) ∧
  (∀ (tag mask : Word) (sel : Nat) (atag : Word) (src : Nat), msgMatches tag mask sel atag src = true ↔
    (∀ b, b < 32 → mask.getLsbD b = true → atag.getLsbD b = tag.getLsbD b) ∧ (sel = 0xFFFF ∨ sel = src)) ∧
  (∀ s i m, s.msgs.get? i = some m → msgBehind s i m = false → Occurs (.messageArrival (.sent i)) s fun t =>
    ∃ k, t.results = (arriveMsg { s with msgs := s.msgs.del i } m).2.results.put k
      { tok := m.tok, gid := m.gid, regs := (lanesOf m.lanes).map fun l => (lk m.gid l, m.reg, BitVec.ofNat 32 (arriveMsg { s with msgs := s.msgs.del i } m).1), major := 0x2C }) ∧
  (∀ s source dom core tag payload p rest, s.up = true → source < 4096 → source / 256 ≠ moduleNo s → moduleReached s (source / 256) = true → core < 256 →
    payload.length ≤ 256 → s.linkMsgs = p :: rest → exec (.messageArrival (.linked source dom core tag payload)) s =
      .next (arriveMsg { s with linkMsgs := rest } (linkedMsg s source dom core tag payload)).2) ∧
  (∀ s m, m.modl ≠ moduleNo s → moduleReached s m.modl = true → arriveMsg s m = takeNat s 4) ∧
  (∀ s m, (m.modl ≠ moduleNo s ∧ moduleReached s m.modl = false) ∨
    (m.modl = moduleNo s ∧ (inUnitSet s m.func m.core = false ∨ holdsSlot s m.core m.dom = false)) → arriveMsg s m = (3, s)) ∧
  (∀ s m, m.modl = moduleNo s → inUnitSet s m.func m.core = true → holdsSlot s m.core m.dom = true →
    (∀ i r, (s.recvs.find? fun r => r.2.core == m.core && r.2.dom == m.dom && msgMatches r.2.tag r.2.mask r.2.sel m.tag m.source) = some (i, r) →
      arriveMsg s m = (0, deliver { s with recvs := s.recvs.del i } r m.tag m.source m.payload)) ∧
    ((s.recvs.find? fun r => r.2.core == m.core && r.2.dom == m.dom && msgMatches r.2.tag r.2.mask r.2.sel m.tag m.source) = none →
      ((s.queues.filter fun q => q.2.core == m.core && q.2.dom == m.dom).length < Config.overflowEntries →
        arriveMsg s m = (1, { s with queues := s.queues.put s.nextId ⟨m.core, m.dom, m.source, m.tag, m.payload⟩, nextId := s.nextId + 1 })) ∧
      (Config.overflowEntries ≤ (s.queues.filter fun q => q.2.core == m.core && q.2.dom == m.dom).length → (arriveMsg s m).1 = 2)))

/-! ### The matrix engine (R314 to R337) -/

/-- The word of `i` signs convergence register `c` in every lane of its set that passes Table 15-3. -/
def signs (i : Instr) (c : Nat) : Prop :=
  Runs i (fun x s => ∀ l, has x.active l = true → signFail x s c l = none) fun x t => matTry { t with vregs := x.rs.vregs } x.gid c (signAll x c x.active t)
/-- Where every executing lane of the word fails Table 15-3, each raises its code, and nothing else happens. -/
def misSigns (i : Instr) (c : Nat) : Prop :=
  ∀ f : Nat → Nat, Runs i (fun x s => ∀ l, has x.active l = true → signFail x s c l = some (f l)) fun x t =>
    (lanesOf x.active).foldl (fun u l => x.raise u l { x.fi 5 (f l) with group := true }) t
/-- R318, R320, R321: the eight matrix words sign; a lane that fails Table 15-3 raises its code alone; a signing lane is held before the word.
R318, R319, R322: nothing issues while a declared lane that has not ended has not signed; when the last one has, and the leading lane's
values pass their checks and no place is the host's, the operation is queued with its operands captured, the signatures clear, the declaration
stays, and the signed lanes go on, except under `mmas`. R334: a place that fails raises its code in every signed lane, 0x094 outside the team's banks; of an `mst` whose first refused
place lies in an arena, the elements before it are stored. -/
def Obligations.MatrixSetsSignAndIssue : Prop :=
  (∀ c slot a b m t, signs (.mma c slot a b m t) c.toNat) ∧ (∀ c slot a b m t, signs (.mmaz c slot a b m t) c.toNat) ∧
  (∀ c slot a b m t, signs (.mmas c slot a b m t) c.toNat) ∧ (∀ c slot a m t, signs (.mld c slot a m t) c.toNat) ∧
  (∀ c slot a m t, signs (.mst c slot a m t) c.toNat) ∧ (∀ c slot m t, signs (.mzero c slot m t) c.toNat) ∧
  (∀ c slot a m, signs (.mcvt c slot a m) c.toNat) ∧ (∀ c slot a m t, signs (.mamax c slot a m t) c.toNat) ∧
  (∀ c slot a b m t, misSigns (.mma c slot a b m t) c.toNat) ∧ (∀ c slot a b m t, misSigns (.mmaz c slot a b m t) c.toNat) ∧
  (∀ c slot a b m t, misSigns (.mmas c slot a b m t) c.toNat) ∧ (∀ c slot a m t, misSigns (.mld c slot a m t) c.toNat) ∧
  (∀ c slot a m t, misSigns (.mst c slot a m t) c.toNat) ∧ (∀ c slot m t, misSigns (.mzero c slot m t) c.toNat) ∧
  (∀ c slot a m, misSigns (.mcvt c slot a m) c.toNat) ∧ (∀ c slot a m t, misSigns (.mamax c slot a m t) c.toNat) ∧
  (∀ (x : Ctx) (s : State) (g : Group) (c l : Nat), s.groups.get? x.gid = some g →
    (g.conv.get? c = none → signFail x s c l = some 0) ∧
    (∀ y, g.conv.get? c = some y → (y.declared = 0 → signFail x s c l = some 0) ∧
      (y.declared ≠ 0 → has y.declared l = false → signFail x s c l = some 2) ∧
      (y.declared ≠ 0 → has y.declared l = true → y.signed ≠ 0 → y.addr ≠ x.pc → signFail x s c l = some 3) ∧
      (y.declared ≠ 0 → has y.declared l = true → y.signed = 0 ∨ y.addr = x.pc → signFail x s c l = none))) ∧
  (∀ (x : Ctx) (s : State) (g : Group) (c : Nat) (m : BitVec 64) (y : Conv), s.groups.get? x.gid = some g → g.conv.get? c = some y →
    let t := signAll x c m s
    (∃ g', t.groups.get? x.gid = some g' ∧ ∃ z, g'.conv.get? c = some z ∧ z.declared = y.declared ∧ z.signed = (y.signed ||| m) ∧ z.addr = x.pc ∧ z.word = x.w) ∧
    lanesMap x.gid m (fun y => { y with pc := x.cur.pc, run := x.cur.run, held := .sign c }) s t) ∧
  (∀ (rs s : State) (gid c : Nat) (g : Group) (y : Conv) (T : Team), s.groups.get? gid = some g → g.conv.get? c = some y → s.teams.get? g.team = some T →
    (y.declared &&& liveMask s gid &&& ~~~y.signed ≠ 0 → matTry rs gid c s = s) ∧
    (y.declared &&& liveMask s gid &&& ~~~y.signed = 0 → y.signed &&& liveMask s gid ≠ 0 →
      let live := y.signed &&& liveMask s gid
      let m := fld y.word 1 6
      let m0 := (vreg rs (lk gid (lowest live)) m).toNat
      let m1 := (vreg rs (lk gid (lowest live)) (m + 1)).toNat
      let addr := (vpair rs (lk gid (lowest live)) (fld y.word 13 6)).toNat
      let path := (opxEff (hintsOf y.run)).path.toNat
      let ps := if majorOf y.word = 0x33 ∧ macc y.word < 2 then matPlaces s g y.word m0 m1 addr path else []
      (∀ f, g.uchk = false → matValueFail y.word m1 = some f → ∃ u, matTry rs gid c s = retireTok (matRaise u gid y live ⟨f.1 * 16 + 8 + f.2, 0, 0, 0, true⟩) gid y.tok) ∧
      (∀ f, g.uchk = false → matValueFail y.word m1 = none → extentFail T.tiles y.word (mTile m1) = some f → f.1 ≠ 9 →
        ∃ u, matTry rs gid c s = retireTok (matRaise u gid y live ⟨f.1 * 16 + 8 + f.2, 0, 0, 0, true⟩) gid y.tok) ∧
      (g.uchk = false → matValueFail y.word m1 = none → extentFail T.tiles y.word (mTile m1) = none → placeFail ps false = none →
        placeFail ps true = none → matPoison s (pairOf g.core) path y.word (physTile T g.core (mTile m1)) ps = none →
        (∀ e ∈ ps, ∀ pa p, e.2.2 = .ok (.mem pa p) → isHost pa = false) →
        let t := matTry rs gid c s
        (∃ o : MatOp, t.mops = s.mops.put s.nextId o ∧ o.word = y.word ∧ o.m0 = m0 ∧ o.m1 = m1 ∧ o.signed = live ∧ o.declared = y.declared ∧
          o.base = physTile T g.core (mTile m1) ∧ o.tok = y.tok ∧ o.locs = goodPlaces ps) ∧
        (∃ g', t.groups.get? gid = some g' ∧ g'.conv.get? c = some { declared := y.declared }) ∧
        (majorOf y.word ≠ 0x32 → lanesMap gid live (fun z => { z with held := .none, pc := z.pc + 4, run := [] }) s t) ∧
        (majorOf y.word = 0x32 → t.lanes = s.lanes) ∧ t.tiles = s.tiles ∧ (∀ k n, vreg t k n = vreg s k n)) ∧
      (∀ f, g.uchk = false → matValueFail y.word m1 = none → extentFail T.tiles y.word (mTile m1) = none →
        (placeFail ps false = some f ∨ (placeFail ps false = none ∧ placeFail ps true = some f)) →
        ∃ u, matTry rs gid c s = retireTok (matRaise u gid y live
            (matAccFault f (if xT y.word then 8 else 4) (macc y.word == 1))) gid y.tok ∧
          (placeFail ps false = none → macc y.word = 1 → goodPlaces ps ≠ [] →
            ∃ o : MatOp, u.mops = s.mops.put s.nextId o ∧ o.word = y.word ∧ o.locs = goodPlaces ps) ∧
          (placeFail ps false = some f ∨ macc y.word ≠ 1 ∨ goodPlaces ps = [] → u.mops = s.mops)))) ∧
  (∀ (f : AccFail) (n : Nat) (w : Bool), matAccFault f n w =
    ⟨if f.cls = 9 ∧ f.detail = 0 then 0x094 else f.cls * 16 + 8 + f.detail, 0, f.addr, accInfo f n w, true⟩)
/-- The operation `i` completes with the effect of its word; `post` describes the state. -/
def matCompletes (s : State) (i : Nat) (o : MatOp) (post : State → Prop) : Prop :=
  s.mops.get? i = some o → matReady s i o = true → s.wf = true → Occurs (.matrixOpComplete i) s fun t => t.mops = s.mops.del i ∧ post t
/-- R323, R324, R328, R331, R334 to R337: what each operation leaves at its completion. -/
def Obligations.MatrixOperationsComplete : Prop :=
  (∀ s i o, s.mops.get? i = some o → matReady s i o = true → Occurs (.matrixOpComplete i) s fun t => t.mops = s.mops.del i) ∧
  (∀ s i o, majorOf o.word = 0x30 → matCompletes s i o fun t => ∀ e, e < 256 →
    tileWord t o.base e = if mRow o.m0 (e / 16) && mCol o.m0 (e % 16) then
      BitVec.ofNat 32 (mmaElem o (some (tileWord s o.base e).toNat) (e / 16) (e % 16)) else tileWord s o.base e) ∧
  (∀ s i o, majorOf o.word = 0x31 → matCompletes s i o fun t => ∀ e, e < 256 →
    tileWord t o.base e = if mRow o.m0 (e / 16) && mCol o.m0 (e % 16) then BitVec.ofNat 32 (mmaElem o none (e / 16) (e % 16)) else 0) ∧
  (∀ s i o, majorOf o.word = 0x33 → macc o.word = 2 → xT o.word = false → matCompletes s i o fun t => (∀ e, e < 256 →
    tileWord t o.base e = if mRow o.m0 (e / 16) && mCol o.m0 (e % 16) then 0 else tileWord s o.base e) ∧ t.side.rd o.base = 0) ∧
  (∀ s i o, majorOf o.word = 0x33 → macc o.word = 3 → o.width = 16 ∨ o.width = 32 ∨ o.width = 64 → fld o.word 13 6 + 256 / o.width ≤ 128 →
    matCompletes s i o fun t => t.tiles = s.tiles ∧ ∀ l, l < 64 → has (o.declared &&& liveMask s o.gid) l = true →
      ∀ r, r < (if mFmt o.m1 = 8 then 256 else 128) / o.width → vreg t (lk o.gid l) (fld o.word 13 6 + r) = fragWord (mcvtRows s o) o.width l r) ∧
  (∀ s i o, majorOf o.word = 0x33 → macc o.word = 4 → fld o.word 13 6 + 1 < 128 → matCompletes s i o fun t => t.tiles = s.tiles ∧
    ∀ l, l < 64 → has (o.declared &&& liveMask s o.gid) l = true →
      vreg t (lk o.gid l) (fld o.word 13 6) = BitVec.ofNat 32 (mamaxValue s o) ∧
      (xT o.word = true → vreg t (lk o.gid l) (fld o.word 13 6 + 1) = BitVec.ofNat 32 (mamaxValue s o / 2 ^ 32))) ∧
  (∀ s i o, majorOf o.word = 0x32 → xT o.word = false → matCompletes s i o fun t => (∀ e, e < 256 →
    tileWord t o.base e = if mRow o.m0 (e / 16) && mCol o.m0 (e % 16) then BitVec.ofNat 32 (mmasElem s o e) else tileWord s o.base e) ∧
    t.side.rd o.base = 0 ∧ ∀ l y, l < 64 → has o.signed l = true → s.lanes.get? (lk o.gid l) = some y → y.held = .sign o.conv →
      t.lanes.get? (lk o.gid l) = some { y with held := .none, pc := y.pc + 4, run := [] }) ∧
  (∀ s i o, majorOf o.word = 0x33 → macc o.word = 0 → xT o.word = false → (o.locs.map (·.1)).Nodup → matCompletes s i o fun t => t.side.rd o.base = 0 ∧
    (∀ e, e < 256 → e ∉ o.locs.map (·.1) → tileWord t o.base e = tileWord s o.base e) ∧
    (∀ e pa, e < 256 → (e, none, pa) ∈ o.locs → tileWord t o.base e = BitVec.ofNat 32 (leNat (spmBytes s pa 4))) ∧
    (∀ e pg pa, e < 256 → o.locs = [(e, some pg, pa)] →
      (∀ b, l1Read s (pairOf o.core) o.path pa 4 pg = some b → tileWord t o.base e = BitVec.ofNat 32 (leNat b)) ∧
      (s.l1.get? (l1Key (pairOf o.core) o.path (pa / 64) pg.tag) = none → (∀ a ∈ s.acc, a.2.kind ≠ .through) → pa % 64 ≤ 60 →
        tileWord t o.base e = BitVec.ofNat 32 (leNat (homeBytes s pg.tag pa 4))))) ∧
  (∀ s i o e q pa, majorOf o.word = 0x33 → macc o.word = 1 → xT o.word = false → o.locs = [(e, q, pa)] → matCompletes s i o fun t => t.tiles = s.tiles ∧
    (∀ q' b, homeByte t q' b = homeByte s q' b) ∧ (q = none → ∀ b, t.spm.rd b =
      if pa ≤ b ∧ b < pa + 4 then BitVec.ofNat 8 ((tileWord s o.base e).toNat / 2 ^ (8 * (b - pa))) else s.spm.rd b) ∧
    (∀ pg, q = some pg → t.spm = s.spm ∧ (pa % 64 ≤ 60 → filtered s (pairOf o.core) pg.arena pg.gen (pa / 64) = false →
      l1Read t (pairOf o.core) 0 pa 4 pg = some (leBytes 4 (tileWord s o.base e).toNat)))) ∧
  (∀ s o, xT o.word = false → mFmt o.m1 = 1 → (∀ e ∈ unmasked o.m0, (tileWord s o.base e).toInt.natAbs ≤ mamaxValue s o) ∧
    (unmasked o.m0 = [] → mamaxValue s o = 0) ∧ (unmasked o.m0 ≠ [] → ∃ e ∈ unmasked o.m0, mamaxValue s o = (tileWord s o.base e).toInt.natAbs)) ∧
  (∀ o old i j, 5 ≤ mFmt o.m1 → mmaElem o old i j = wrapNat ((((depthList (mLow o.m1) (fmtDepth (mFmt o.m1))).map fun k =>
      elemInt (mFmt o.m1) (rowElem (o.rowsA.getD i []) k (fmtBits (mFmt o.m1))) * elemInt (mFmt o.m1) (rowElem (o.rowsB.getD j []) k (fmtBits (mFmt o.m1)))).sum : Int) +
      (match old with | some v => sextInt v 32 | none => 0)) 32)
/-- R314, R315, R322: fragments, elements and tiles are laid out as the manual says. R329 to R332: the slices of an element lie in −127 to 127,
the passes are the pairs with u + v ≤ s + 1 in their order, and a stopped `mmas` leaves its side word for the next pass. -/
def Obligations.FragmentsAndSlicedProducts : Prop :=
  (∀ (rs : State) (gid a w len i b : Nat), (w = 16 ∨ w = 32 ∨ w = 64) → i < 16 → b < len →
    (fragRow rs gid a w len i)[b]? = some ((vreg rs (lk gid (i + 16 * (b % (w / 4) / 4))) (a + b / (w / 4))).extractLsb' (8 * (b % 4)) 8)) ∧
  (∀ (row : List Byte) (k : Nat), (rowElem row k 8 = (row.getD k 0).toNat) ∧ (rowElem row (2 * k) 4 = (row.getD k 0).toNat % 16) ∧
    (rowElem row (2 * k + 1) 4 = (row.getD k 0).toNat / 16)) ∧
  (∀ (tiles : Nat) (w : Word) (t : Nat),
    (4095 < t + extentLen w - 1 → extentFail tiles w t = some (1, 2)) ∧
    (t + extentLen w - 1 ≤ 4095 → needsPair w = true → t % 2 = 1 → extentFail tiles w t = some (1, 1)) ∧
    (t + extentLen w - 1 ≤ 4095 → (needsPair w = true → t % 2 = 0) → tiles < t + extentLen w → extentFail tiles w t = some (9, 0)) ∧
    (t + extentLen w ≤ 4096 → (needsPair w = true → t % 2 = 0) → t + extentLen w ≤ tiles → extentFail tiles w t = none)) ∧
  (∀ (vs : List (Nat × FVal)) (a : Int) (e : Nat × FVal) (u : Nat), rowScale vs = some a → e ∈ vs → (∀ v ∈ vs, notFinite v.2 = false) → 1 ≤ u →
    -127 ≤ slice e.2 (some a) u ∧ slice e.2 (some a) u ≤ 127) ∧
  (∀ n, 2 ≤ n → (passes n).length = n * (n + 1) / 2) ∧ passes 3 = [(1, 1), (1, 2), (2, 1), (1, 3), (2, 2), (3, 1)] ∧
  (∀ n u v, (u, v) ∈ passes n ↔ 1 ≤ u ∧ 1 ≤ v ∧ u + v ≤ n + 1) ∧
  slice (decodeF fmt64 0x4008000000000000) (some 2) 1 = 96 ∧ slice (decodeF fmt64 0x4008000000000000) (some 2) 2 = 0 ∧
  slice (decodeF fmt64 0xBF80000000000000) (some 2) 1 = 0 ∧ slice (decodeF fmt64 0xBF80000000000000) (some 2) 2 = -32 ∧
  (∀ o n s, s.wf = true →
    (mmasStop o n s).side.rd o.base = BitVec.ofNat 32 (2 ^ 31 + (if xT o.word then 2 ^ 30 else 0) + mFmt o.m1 * 2 ^ 24 +
      (startPass s o + max n 1)))
/-! ### Commands (chapter 5) -/

/-- The command `c` in a slot of function `fn`, with opcode `op`, starts now: nothing was found against it at capture and its turn has come
(R99). -/
def starts (s : State) (fn slot op : Nat) (c : Command) : Prop :=
  (funcAt s fn).slots.get? slot = some c ∧ fAt c.bytes 0 2 = op ∧ c.verdict = none ∧ cmdTurn (funcAt s fn) slot c = true
/-- The state in which it takes its effect. -/
def begun (s : State) (fn slot : Nat) (c : Command) : State :=
  modFunc s fn fun y => { y with slots := y.slots.put slot { c with started := true } }
/-- Its final record (Table 5-4). -/
def answer (c : Command) (slot status : Nat) (info0 : Nat := 0) (info1 : Nat := 0) : Record :=
  ⟨BitVec.ofNat 32 (fAt c.bytes 4 4), fAt c.bytes 0 2, status, 0, slot, info0, info1, vecOf c.bytes⟩
/-- The event `i` answers its command with the record `r`, which waits after the function's earlier ones, and leaves what `post` says. -/
def Answers (i : Instr) (s : State) (fn : Nat) (r : Record) (post : State → Prop) : Prop :=
  Occurs i s fun t => (funcAt t fn).records = (funcAt s fn).records ++ [r] ∧ post t
/-- The event `i` leaves its command waiting for object `what`, with no record yet, and what `post` says. -/
def Waits (i : Instr) (s : State) (fn slot : Nat) (c : Command) (what : Nat) (post : State → Prop) : Prop :=
  Occurs i s fun t => (funcAt t fn).records = (funcAt s fn).records ∧ post t ∧
    ∃ w : WaitCmd, (funcAt t fn).waiting = (funcAt s fn).waiting ++ [w] ∧ w.tag = BitVec.ofNat 32 (fAt c.bytes 4 4) ∧
      w.opcode = fAt c.bytes 0 2 ∧ w.slot = slot ∧ w.what = what ∧ w.vec = vecOf c.bytes

/-- R96, R97, R100, R102, Tables 5-1 and 5-4: a slot write is captured, with an acquire for its work (R98) and, for
GRAPH.STOP, VF.HALT, VF.QUERY and RESET.VF, its start next (R99; that it precedes the host's other acts is the model's, log 32), or recorded in
CMDERR. R159: a line that is marked zero is written whole. The page's registers take what the table says; the next
record goes to its place in the completion queue, frees its slot and sends its message. -/
def Obligations.CommandPagesCaptureAndAnswer : Prop :=
  (∀ s fn link k bytes, pageOf s fn = true → link < 2 → s.hostDown.contains link = false → k < 16 → bytes.length = 64 →
    fld (funcAt s fn).cqcfg 31 1 = 1 → (funcAt s fn).slotbsy.getLsbD k = false → Occurs (.commandSlotWrite fn link (64 * k) bytes) s fun t =>
      let v := verdictOf s fn bytes
      ∃ y : Func, t = { dropCleanHost s (((funcAt s fn).dom).getD 64) with
          funcs := s.funcs.put fn y,
          runs := if v = none ∧ fAt bytes 0 2 = 4 then s.runs.map fun e => if e.1 = fn * 64 + fAt bytes 0x10 2 then (e.1, { e.2 with stopped := true }) else e else s.runs,
          agenda := if v = none ∧ withheld (funcAt s fn) = false then promptEvent fn k bytes ++ s.agenda else s.agenda } ∧
        y.slots.get? k = some { bytes := bytes, seq := (funcAt s fn).captured, verdict := v } ∧
        y.slotbsy = (funcAt s fn).slotbsy ||| BitVec.ofNat 32 (2 ^ k) ∧ y.captured = (funcAt s fn).captured + 1 ∧ y.cmderr = (funcAt s fn).cmderr) ∧
  (∀ s fn link off bytes, pageOf s fn = true → link < 2 → s.hostDown.contains link = false → off < 0x400 → bytes ≠ [] →
    let discards (b : Word) : Prop :=
      exec (.commandSlotWrite fn link off bytes) s = .next (modFunc s fn fun y => { y with cmderr := y.cmderr ||| b })
    let busy : Prop := ∃ j, off / 64 ≤ j ∧ 64 * j < off + bytes.length ∧ (funcAt s fn).slotbsy.getLsbD j = true
    (bytes.length ≠ 64 ∨ off % 64 ≠ 0 → (busy → discards 3) ∧ (¬busy → discards 2)) ∧
    (bytes.length = 64 → off % 64 = 0 → fld (funcAt s fn).cqcfg 31 1 = 0 → (busy → discards 5) ∧ (¬busy → discards 4)) ∧
    (bytes.length = 64 → off % 64 = 0 → fld (funcAt s fn).cqcfg 31 1 = 1 → busy → discards 1)) ∧
  (∀ fn k b, (fAt b 0 2 ≠ 4 → fAt b 0 2 ≠ 9 → fAt b 0 2 ≠ 10 → fAt b 0 2 ≠ 12 → promptEvent fn k b = []) ∧
    (fAt b 0 2 = 4 → fAt b 0x12 2 = 0 → promptEvent fn k b = [.event (.graphStopDrain fn k)]) ∧
    (fAt b 0 2 = 4 → fAt b 0x12 2 = 1 → promptEvent fn k b = [.event (.graphStopAbort fn k)]) ∧
    (fAt b 0 2 = 9 → fAt b 0x12 2 = 0 → promptEvent fn k b = [.event (.vfHalt fn k)]) ∧
    (fAt b 0 2 = 9 → fAt b 0x12 2 = 1 → promptEvent fn k b = [.event (.vfResume fn k)]) ∧
    (fAt b 0 2 = 10 → promptEvent fn k b = [.event (.vfQuery fn k)]) ∧ (fAt b 0 2 = 12 → promptEvent fn k b = [.event (.resetVf fn k)])) ∧
  (∀ s fn link v, pageOf s fn = true → link < 2 → s.hostDown.contains link = false →
    (cqLocked s fn = true ∨ 12 < fld v 0 4 → exec (.cqcfgWrite fn link v) s = .next s) ∧
    (cqLocked s fn = false → fld v 0 4 ≤ 12 → fld v 31 1 = 1 → exec (.cqcfgWrite fn link v) s =
      .next (modFunc s fn fun y => { y with cqcfg := v &&& 0x8000000F, wpos := 0, cqhead := 0, phase := true, link := link })) ∧
    (cqLocked s fn = false → fld v 0 4 ≤ 12 → fld v 31 1 = 0 → exec (.cqcfgWrite fn link v) s =
      .next (modFunc s fn fun y => { y with cqcfg := v &&& 0x8000000F }))) ∧
  (∀ s fn v, pageOf s fn = true → exec (.cqheadWrite fn v) s = .next (modFunc s fn fun y => { y with cqhead := v &&& 0xFFFF })) ∧
  (∀ s fn off v, pageOf s fn = true → 0x400 ≤ off → off < 0x1000 → off % 4 = 0 → off ≠ 0x408 → off ≠ 0x40C → Occurs (.registerWrite fn off v) s fun t =>
    t = { s with funcs := t.funcs } ∧ pageRead t fn 0x410 = pageRead s fn 0x410 ∧
    pageRead t fn 0x400 = (if off = 0x400 ∧ cqLocked s fn = false then v &&& 0xFFFFF000 else pageRead s fn 0x400) ∧
    pageRead t fn 0x404 = (if off = 0x404 ∧ cqLocked s fn = false then v else pageRead s fn 0x404) ∧
    pageRead t fn 0x414 = (if off = 0x414 then pageRead s fn 0x414 &&& ~~~v else pageRead s fn 0x414)) ∧
  (∀ s fn b, (fAt b 0 2 = 0 ∨ 12 < fAt b 0 2 → verdictOf s fn b = some (1, 0)) ∧
    (fn ≠ 0 → fAt b 0 2 = 7 ∨ fAt b 0 2 = 9 ∨ fAt b 0 2 = 11 → verdictOf s fn b = some (2, 0)) ∧
    (fAt b 0 2 = 5 → notPermitted s fn b = false → fAt b 2 1 < 2 → firstNonzero b [(8, 8)] = none →
      let va := fAt b 0x10 8
      let len := fAt b 0x18 8
      let size := pageBytes (fAt b 0x28 4 % 4)
      (va % size ≠ 0 ∨ Config.vaEnd ≤ va → verdictOf s fn b = some (3, 0x10)) ∧
      (va % size = 0 → va < Config.vaEnd → len % size ≠ 0 ∨ len = 0 ∨ Config.vaEnd < va + len → verdictOf s fn b = some (3, 0x18)) ∧
      (va % size = 0 → va < Config.vaEnd → len % size = 0 → len ≠ 0 → va + len ≤ Config.vaEnd → inWindows va len = true → verdictOf s fn b = some (3, 0x10)) ∧
      (va % size = 0 → va < Config.vaEnd → len % size = 0 → len ≠ 0 → va + len ≤ Config.vaEnd → inWindows va len = false →
        arenaOwns s (((funcAt s fn).dom).getD 64) (bits (fAt b 0x28 4) 27 16) va len = false → verdictOf s fn b = some (3, 0x28)))) ∧
  (∀ s fn r rest link, s.wf = true → (funcAt s fn).records = r :: rest → linkFor s (funcAt s fn) = some link → withheld (funcAt s fn) = false →
    Occurs (.completionRecord fn) s fun t =>
      let x := funcAt s fn
      let base := Config.paHost + x.cqhi.toNat * 2 ^ 32 + x.cqlo.toNat + 32 * x.wpos
      let w := (x.wpos + 1) % cqSize x
      (∀ j, j < 32 → Tab.rd t.mem (base + j) = (recordBytes32 r x.phase (nsNow s)).getD j 0) ∧
      (∀ a, a < base ∨ base + 32 ≤ a → Tab.rd t.mem a =
        if base / 64 ≤ a / 64 ∧ a / 64 ≤ (base + 31) / 64 ∧ zeroMarked s (a / 64) = true then 0 else Tab.rd s.mem a) ∧
      (funcAt t fn).records = rest ∧ (funcAt t fn).wpos = w ∧ (funcAt t fn).phase = (if w = 0 then !x.phase else x.phase) ∧
      (r.kind ≠ 2 → (funcAt t fn).slots = x.slots.del r.slot ∧ (funcAt t fn).slotbsy = x.slotbsy &&& ~~~(BitVec.ofNat 32 (2 ^ r.slot))) ∧
      (r.kind = 2 → (funcAt t fn).slots = x.slots ∧ (funcAt t fn).slotbsy = x.slotbsy) ∧
      t.msix = s.msix ++ (match r.vec with
        | some v => [(fn, v, link)]
        | none => []))

/-- R101, R104, R121, R123, R469, R470: the commands that act on pages, roots, trace buffers, status blocks and configuration lists. -/
def Obligations.MemoryAndConfigurationCommands : Prop :=
  (∀ s fn slot c, starts s fn slot 5 c →
    let b := c.bytes
    let va := fAt b 0x10 8
    let len := fAt b 0x18 8
    let ctl := fAt b 0x28 4
    let size := pageBytes (ctl % 4)
    let arena := bits ctl 27 16
    let dom := ((funcAt s fn).dom).getD 64
    let fits := va % size = 0 ∧ va < Config.vaEnd ∧ len % size = 0 ∧ len ≠ 0 ∧ va + len ≤ Config.vaEnd ∧ inWindows va len = false ∧
      arenaOwns s dom arena va len = true
    let page (t : State) (k : Nat) := t.pages.get? (pageKey dom (va + k * size))
    (arenaOwns s dom arena va len = false → Answers (.memMap fn slot) s fn (answer c slot 3 0x28) fun t => t = { s with funcs := t.funcs }) ∧
    (fits → rangePages s dom va len ≠ [] → Answers (.memMap fn slot) s fn (answer c slot 6) fun t => t.pages = s.pages ∧ t.mem = s.mem) ∧
    (fits → rangePages s dom va len = [] → bitAt ctl 2 = true → fAt b 0x20 8 % size = 0 → fAt b 0x20 8 + len ≤ 2 ^ 51 →
      mapHost fn dom size arena (bitAt ctl 3) (len / size) va (fAt b 0x20 8) (begun s fn slot c) = none →
      Answers (.memMap fn slot) s fn (answer c slot 4) fun t => t.pages = s.pages ∧ t.mem = s.mem) ∧
    (∀ u, fits → rangePages s dom va len = [] → bitAt ctl 2 = true → fAt b 0x20 8 % size = 0 → fAt b 0x20 8 + len ≤ 2 ^ 51 →
      mapHost fn dom size arena (bitAt ctl 3) (len / size) va (fAt b 0x20 8) (begun s fn slot c) = some u →
      let src := Config.paHost + fAt b 0x20 8
      Answers (.memMap fn slot) s fn (answer c slot 0) fun t =>
        ((∀ h ∈ s.hostHeld, meets (h.1, h.1 + h.2.1) (src, src + len) = false) → t.mem = s.mem ∧ t.zeros = s.zeros) ∧
        (∀ i, i < len / Config.page → framePasses s dom (src + i * Config.page) = true →
          ∀ q a, src + i * Config.page ≤ a → a < src + (i + 1) * Config.page → s.wf = true → homeByte t q a = 0) ∧ ∀ k, k < len / size →
        page t k = some ⟨size, src + k * size, dom, arena, (arenaAt s arena).gen, bitAt ctl 3⟩) ∧
    (fits → rangePages s dom va len = [] → bitAt ctl 2 = false → fAt b 0x20 8 = 0 →
      mapFar fn dom size arena (bitAt ctl 3) (len / size) va 0 (begun s fn slot c) = none →
      Answers (.memMap fn slot) s fn (answer c slot 4) fun t => t.pages = s.pages ∧ t.mem = s.mem) ∧
    (∀ u, s.wf = true → fits → rangePages s dom va len = [] → bitAt ctl 2 = false → fAt b 0x20 8 = 0 →
      mapFar fn dom size arena (bitAt ctl 3) (len / size) va 0 (begun s fn slot c) = some u →
      Answers (.memMap fn slot) s fn (answer c slot 0) fun t =>
        (∀ k, k < len / size → ∃ p, page t k = some p ∧ p.size = size ∧ p.dom = dom ∧ p.arena = arena ∧ p.gen = (arenaAt s arena).gen ∧
          p.writable = bitAt ctl 3 ∧ ∀ q a, p.pa ≤ a → a < p.pa + size → homeByte t q a = 0) ∧
        (∀ key, (∀ k, k < len / size → key ≠ pageKey dom (va + k * size)) → t.pages.get? key = s.pages.get? key))) ∧
  (∀ s fn slot c, starts s fn slot 6 c →
    let va := fAt c.bytes 0x10 8
    let len := fAt c.bytes 0x18 8
    let dom := ((funcAt s fn).dom).getD 64
    let lo := va / Config.page * Config.page
    let u := splitRange (begun s fn slot c) dom lo (alignUp (va + len) Config.page - lo)
    let ps := rangePages u dom va len
    pagesBusy u dom ps = false → Answers (.memUnmap fn slot) s fn (answer c slot 0) fun t =>
      t.pages = ps.foldl (fun (m : Tab Page) e => m.del (pageKey dom e.1)) u.pages ∧ (∀ e ∈ t.l1, lineIn ps (keyLine e.1) = false) ∧
      (∀ e ∈ t.tlb ++ t.service, e.dom = dom → ∀ p ∈ ps, meets (e.va, e.va + e.size) (p.1, p.1 + p.2.size) = false)) ∧
  (∀ s fn slot c f a, starts s fn slot 7 c →
    let b := c.bytes
    let dom := fAt b 0x10 2
    let quota := fAt b 0x18 8
    let base := fAt b 0x20 8
    let len := fAt b 0x28 8
    funcOfDom (begun s fn slot c) dom = some f → quota % 65536 = 0 → quota ≤ len → base % 65536 = 0 → base < Config.vaEnd → len % 65536 = 0 → len ≠ 0 →
    base + len ≤ Config.vaEnd → inWindows base len = false → lowestFree s = some a →
    ((funcAt s f).root = none → Answers (.arenaRoot fn slot) s fn (answer c slot 0 (handleOf s a).toNat) fun t => (funcAt t f).root = some a ∧
      arenaAt t a = { arenaAt s a with state := .live, dom := dom, depth := 0, parent := 0, quota := quota, charge := 0, base := base,
                                       rangeEnd := base + len, bump := base }) ∧
    (∀ o, (funcAt s f).root = some o → o ≠ a → childrenOf s o = [] → rangePages s dom (arenaAt s o).base ((arenaAt s o).rangeEnd - (arenaAt s o).base) = [] →
      dropWaits (begun s fn slot c) f o = false → Answers (.arenaRoot fn slot) s fn (answer c slot 0 (handleOf s a).toNat) fun t => (funcAt t f).root = some a ∧
        (arenaAt t a).state = .live ∧ (arenaAt t a).base = base ∧ (arenaAt t a).quota = quota ∧ ((arenaAt t o).state = .free ∨ (arenaAt t o).state = .held)) ∧
    (∀ o, (funcAt s f).root = some o → childrenOf s o ≠ [] → Answers (.arenaRoot fn slot) s fn (answer c slot 6) fun t => t.arenas = s.arenas)) ∧
  (∀ s fn slot c, starts s fn slot 8 c → Answers (.traceSet fn slot) s fn (answer c slot 0) fun t =>
    let x := funcAt t (fnOf fn c.bytes 0x28)
    x.traceAddr = fAt c.bytes 0x10 8 ∧ x.traceSize = fAt c.bytes 0x18 8 ∧ x.traceMask = fAt c.bytes 0x20 8 ∧ t = { s with funcs := t.funcs }) ∧
  (∀ s fn slot c, s.wf = true → starts s fn slot 10 c → Answers (.vfQuery fn slot) s fn (answer c slot 0) fun t =>
    let a := Config.paHost + fAt c.bytes 0x18 8
    (∀ j, j < 64 → Tab.rd t.mem (a + j) = (queryBlock s (fnOf fn c.bytes 0x10)).getD j 0) ∧
    (∀ b, b < a ∨ a + 64 ≤ b → Tab.rd t.mem b =
      if a / 64 ≤ b / 64 ∧ b / 64 ≤ (a + 63) / 64 ∧ zeroMarked s (b / 64) = true then 0 else Tab.rd s.mem b) ∧ t = { s with funcs := t.funcs, mem := t.mem, zeros := t.zeros, hdr := t.hdr }) ∧
  (∀ s fn slot c, starts s fn slot 11 c →
    (∀ a, hostRead s (fAt c.bytes 0x10 8) (32 * fAt c.bytes 0x18 4) = .error a → Answers (.cfgCommit fn slot) s fn (answer c slot 7 0 a) fun t =>
      t = { s with funcs := t.funcs }) ∧
    (∀ l, hostRead s (fAt c.bytes 0x10 8) (32 * fAt c.bytes 0x18 4) = .ok l →
      let r := jasperCommit (begun s fn slot c) l (fAt c.bytes 0x18 4)
      exec (.cfgCommit fn slot) s = .next (if r.1.1 = 0 then finalRecord r.2 fn slot 0 else finalRecord r.2 fn slot 5 r.1.2.1 r.1.2.2)))

/-- R89 to R91, R101 to R103, R105, R427, R440: the commands that load modules and graphs, start and stop runs, and halt, resume and reset
functions. -/
def Obligations.ModuleGraphAndFunctionCommands : Prop :=
  (∀ s fn slot c, starts s fn slot 1 c →
    let n := fAt c.bytes 0x18 8
    let dom := ((funcAt s fn).dom).getD 64
    (2 ^ 31 < n → Answers (.modLoad fn slot) s fn (answer c slot 5 0xFFFF) fun t => t = { s with funcs := t.funcs }) ∧
    (∀ a, n ≤ 2 ^ 31 → hostRead s (fAt c.bytes 0x10 8) n = .error a → Answers (.modLoad fn slot) s fn (answer c slot 7 0 a) fun t =>
      t = { s with funcs := t.funcs }) ∧
    (∀ b e, n ≤ 2 ^ 31 → hostRead s (fAt c.bytes 0x10 8) n = .ok b → checkImage b = .error e →
      Answers (.modLoad fn slot) s fn (answer c slot e.1 e.2.1 e.2.2) fun t => t = { s with funcs := t.funcs }) ∧
    (∀ b h e u, n ≤ 2 ^ 31 → hostRead s (fAt c.bytes 0x10 8) n = .ok b → checkImage b = .ok h → loadWaits b h fn dom (begun s fn slot c) = false →
      loadImage b h fn dom (begun s fn slot c) = .error (e, u) → Answers (.modLoad fn slot) s fn (answer c slot e.1 e.2.1 e.2.2) fun t =>
        t.kernels = s.kernels ∧ (funcAt t fn).modules = (funcAt s fn).modules ∧ (funcAt t fn).faultEntry = (funcAt s fn).faultEntry) ∧
    (∀ b h es u, n ≤ 2 ^ 31 → hostRead s (fAt c.bytes 0x10 8) n = .ok b → checkImage b = .ok h → loadWaits b h fn dom (begun s fn slot c) = false →
      loadImage b h fn dom (begun s fn slot c) = .ok (es, u) → recordRoom (begun s fn slot c) fn = true →
      ∃ i, Answers (.modLoad fn slot) s fn (answer c slot 0 i) fun t =>
        t = { u with funcs := t.funcs, agenda := List.replicate (funcAt t fn).records.length (.event (.completionRecord fn)) ++ u.agenda } ∧
        (funcAt t fn).modules = (funcAt u fn).modules.put i es)) ∧
  (∀ s fn slot c, starts s fn slot 2 c →
    let a := fAt c.bytes 0x10 8
    let n := fAt c.bytes 0x18 4
    (∀ e, hostRead s a n = .error e → Answers (.graphLoad fn slot) s fn (answer c slot 7 0 e) fun t => t.graphs = s.graphs) ∧
    (∀ b i, hostRead s a n = .ok b → graphFail s fn b = some i → Answers (.graphLoad fn slot) s fn (answer c slot 5 i) fun t => t.graphs = s.graphs) ∧
    (∀ b k, hostRead s a n = .ok b → graphFail s fn b = none → ((upTo (fn * 64) 64).find? fun k => (s.graphs.get? k).isNone) = some k →
      Answers (.graphLoad fn slot) s fn (answer c slot 0 (k % 64)) fun t =>
        t.graphs = s.graphs.put k ⟨fAt b 8 4, (upTo 0 (fAt b 4 4)).map fun i => nodeOf (nodeRec b i)⟩) ∧
    (∀ b, hostRead s a n = .ok b → graphFail s fn b = none → ((upTo (fn * 64) 64).find? fun k => (s.graphs.get? k).isNone) = none →
      Answers (.graphLoad fn slot) s fn (answer c slot 4) fun t => t.graphs = s.graphs)) ∧
  (∀ s fn slot c, starts s fn slot 3 c →
    let key := fn * 64 + fAt c.bytes 0x10 2
    (s.graphs.get? key = none → Answers (.graphKick fn slot) s fn (answer c slot 3 0x10) fun t => t.runs = s.runs) ∧
    (∀ g r, s.graphs.get? key = some g → s.runs.get? key = some r → Answers (.graphKick fn slot) s fn (answer c slot 6) fun t => t.runs = s.runs) ∧
    (∀ g, s.graphs.get? key = some g → s.runs.get? key = none →
      Answers (.graphKick fn slot) s fn ⟨BitVec.ofNat 32 (fAt c.bytes 4 4), 3, 0, 1, slot, 0, 0, none⟩ fun t => t.runs = s.runs.put key
        { tag := BitVec.ofNat 32 (fAt c.bytes 4 4), slot := slot, vec := vecOf c.bytes, nodes := rep g.nodes.length .unresolved })) ∧
  (∀ s fn slot c, starts s fn slot 4 c →
    let key := fn * 64 + fAt c.bytes 0x10 2
    (fAt c.bytes 0x12 2 = 0 → s.runs.get? key = none → Answers (.graphStopDrain fn slot) s fn (answer c slot 0) fun t => t.runs = s.runs) ∧
    (fAt c.bytes 0x12 2 = 1 → s.runs.get? key = none → Answers (.graphStopAbort fn slot) s fn (answer c slot 0) fun t => t.runs = s.runs) ∧
    (∀ r, fAt c.bytes 0x12 2 = 0 → s.runs.get? key = some r → Waits (.graphStopDrain fn slot) s fn slot c key fun t =>
      t.runs = s.runs.put key { r with stopped := true } ∧ t.grids = s.grids ∧ t.lanes = s.lanes) ∧
    (∀ r, fAt c.bytes 0x12 2 = 1 → s.runs.get? key = some r → Waits (.graphStopAbort fn slot) s fn slot c key fun t =>
      t.runs = s.runs.put key { r with stopped := true } ∧
      ∀ i x, s.grids.get? i = some x → x.func = fn → x.graph = fAt c.bytes 0x10 2 → ∃ y, t.grids.get? i = some y ∧ y.aborted = true ∧ y.claims = [])) ∧
  (∀ s fn slot c, starts s fn slot 9 c → fAt c.bytes 0x12 2 = 0 →
    let f := fAt c.bytes 0x10 2
    let dom := ((funcAt s f).dom).getD 64
    let u := abortVisitors (modFunc (begun s fn slot c) f fun x => { x with halted := true }) dom 0x110
    let cores := dedup ((u.groups.filter fun e => !e.2.retired && stampedBy dom e.2).map (·.2.core))
    (cores = [] → Answers (.vfHalt fn slot) s fn (answer c slot 0) fun t => (funcAt t f).halted = true ∧ t.preempts = u.preempts) ∧
    (cores ≠ [] → Waits (.vfHalt fn slot) s fn slot c f fun t => (funcAt t f).halted = true ∧
      t.preempts = u.preempts.put u.nextId ⟨dom, cores, groupsOf u dom cores, u.wall + ticksOfUs (funcAt u f).grace, 0⟩)) ∧
  (∀ s fn slot c, starts s fn slot 9 c → fAt c.bytes 0x12 2 = 1 → s.preempts.sorted = true →
    Answers (.vfResume fn slot) s fn (answer c slot 0) fun t => (funcAt t (fAt c.bytes 0x10 2)).halted = false ∧
      (∀ e ∈ t.preempts, ¬(e.2.dom = ((funcAt s (fAt c.bytes 0x10 2)).dom).getD 64 ∧ e.2.source = 0)) ∧
      ∀ i e, s.preempts.get? i = some e → t.preempts.get? i =
        if e.dom = ((funcAt s (fAt c.bytes 0x10 2)).dom).getD 64 ∧ e.source = 0 then
          (if s.wall < e.windowEnd then none else some { e with source := 4 }) else some e) ∧
  (∀ s fn slot c, starts s fn slot 12 c →
    let f := fnOf fn c.bytes 0x10
    Occurs (.resetVf fn slot) s fun t => (funcAt t f).resetting = true ∧ (funcAt t f).records = [] ∧ (∀ e ∈ t.runs, e.1 / 64 ≠ f) ∧
      (∀ e ∈ t.grids, e.2.func ≠ f) ∧ (∀ e ∈ t.bins, e.2.func ≠ f) ∧ (∀ e ∈ t.tags, e.func ≠ f) ∧ (∀ e ∈ t.images, e.2.teamRec.func ≠ f) ∧
      ∃ w ∈ (funcAt t fn).waiting, w.opcode = 12 ∧ w.slot = slot ∧ w.what = f) ∧
  (∀ s f dom, let t := resetClear s f dom
    (funcAt t f).resetting = false ∧ (funcAt t f).modules = [] ∧ (funcAt t f).faultEntry = none ∧ (∀ h ∈ t.kernels, h.dom ≠ dom) ∧
    (∀ e ∈ t.graphs, e.1 / 64 ≠ f) ∧ (∀ e ∈ t.teams, e.2.func ≠ f) ∧
    ∀ a, s.arenas.sorted = true → (funcAt s f).root = some a → (arenaAt s a).depth = 0 →
      (arenaAt t a).charge = (byBase s (childrenOf s a)).foldl (fun c n => c - (arenaAt s n).quota) (arenaAt s a).charge ∧
      (childrenOf s a = [] → (arenaAt t a).bump = (arenaAt s a).bump))

/-! ### Runs, grids, teams and pre-emption (chapters 5, 9, 24, 27) -/

/-- The event leaves a run `r'` in place of the run of the key, and changes nothing else. -/
def runBecomes (i : Instr) (s : State) (key : Nat) (r' : Run) : Prop := exec i s = .next { s with runs := s.runs.put key r' }
/-- R92 to R94, R109: a node whose conditions to start are met starts, and what its start, its word or its completion leaves. A body's word is read again once its exit node has resolved; what an earlier iteration of it still has under
way then resolves no node (log 37, the model's choice). -/
def Obligations.NodesOfARunTakeTheirCourse : Prop :=
  (∀ s fn graph node g r x, startable s fn graph node 4 = some (g, r, x) →
    runBecomes (.joinNode fn graph node) s (fn * 64 + graph) { r with nodes := setAt r.nodes node .completed }) ∧
  (∀ s fn graph node g r x, startable s fn graph node 2 = some (g, r, x) →
    (∀ v, walkerRead s (((funcAt s fn).dom).getD 64) x.cond = .ok v →
      let j := x.succs.getD (min v (x.succs.length - 1)) 0
      runBecomes (.conditionNode fn graph node) s (fn * 64 + graph)
        { r with nodes := setAt r.nodes node .completed, cuts := r.cuts ++ (x.succs.filter (· != j)).map fun k => (node, k) }) ∧
    (∀ e, walkerRead s (((funcAt s fn).dom).getD 64) x.cond = .error e →
      runBecomes (.conditionNode fn graph node) s (fn * 64 + graph) { r with failNode := node, failCause := causeOf e.cls 0 e.detail })) ∧
  (∀ s fn graph node g r x, startable s fn graph node 3 = some (g, r, x) → r.iters.sorted = true →
    (∀ v, walkerRead s (((funcAt s fn).dom).getD 64) x.cond = .ok v → v ≠ 0 → 0 < x.cap → Occurs (.whileNode fn graph node) s fun t =>
      t = { s with runs := t.runs, grids := t.grids } ∧ ∃ r', t.runs.get? (fn * 64 + graph) = some r' ∧ r'.iters.get? node = some 1 ∧
        (node < r.nodes.length → r'.at node = .running) ∧ (∀ i ∈ bodyOf g.nodes node, i ≠ node → r'.at i = .unresolved)) ∧
    (walkerRead s (((funcAt s fn).dom).getD 64) x.cond = .ok 0 →
      runBecomes (.whileNode fn graph node) s (fn * 64 + graph) { r with iters := r.iters.del node, nodes := setAt r.nodes node .completed }) ∧
    (∀ e, walkerRead s (((funcAt s fn).dom).getD 64) x.cond = .error e →
      runBecomes (.whileNode fn graph node) s (fn * 64 + graph) { r with failNode := node, failCause := causeOf e.cls 0 e.detail })) ∧
  (∀ s fn graph node g r x v, s.graphs.get? (fn * 64 + graph) = some g → s.runs.get? (fn * 64 + graph) = some r → g.nodes[node]? = some x → x.kind = 3 →
    r.at node = .running → r.done x.exit = true → r.open = true → (funcAt s fn).halted = false → (funcAt s fn).resetting = false →
    graph < 64 → walkerRead s (((funcAt s fn).dom).getD 64) x.cond = .ok v →
    let n := (r.iters.get? node).getD 0
    (v ≠ 0 → n < x.cap → Occurs (.whileBodyExit fn graph node) s fun t => ∃ r', t.runs.get? (fn * 64 + graph) = some r' ∧
      r'.iters.get? node = some (n + 1) ∧ r'.at node = .running ∧ ∀ i ∈ bodyOf g.nodes node, i ≠ node → r'.at i = .unresolved) ∧
    (v = 0 ∨ x.cap ≤ n → runBecomes (.whileBodyExit fn graph node) s (fn * 64 + graph)
      { r with nodes := setAt r.nodes node .completed, capped := r.capped || v != 0 })) ∧
  (∀ s fn graph node g r x, startable s fn graph node 1 = some (g, r, x) → recordsFree s (copyOp s fn graph node x) = true →
    exec (.copyNodeStart fn graph node) s = .next { s with nextId := s.nextId + 1, engs := s.engs.put s.nextId (copyReg s (copyOp s fn graph node x)),
                                                           runs := s.runs.put (fn * 64 + graph) { r with nodes := setAt r.nodes node .running } }) ∧
  (∀ s fn graph node r i o, s.runs.get? (fn * 64 + graph) = some r → copyOpOf s (fn * 64 + graph) node = some (i, o) →
    r.at node = .running → graph < 64 → r.orphans.contains node = false →
    let t := { s with engs := s.engs.del i }
    (rangeLines t o.dom (o.pp 0) (o.pp 4) ++ rangeLines t o.dom (o.pp 2) (o.pp 4)).any (engineOwned t) = false →
    (∀ e, domRead t o.dom (o.pp 0) (o.pp 4 / 64 + 2) (o.pp 4) = .error e → exec (.copyNodeComplete fn graph node) s =
      .next (setNode (detachedFault t o.dom { cause := causeOf e.cls 3 e.detail, addr := e.addr } o.core) (fn * 64 + graph) node .completed)) ∧
    (∀ bs u, domRead t o.dom (o.pp 0) (o.pp 4 / 64 + 2) (o.pp 4) = .ok bs → o.pp 2 + o.pp 4 ≤ o.pp 0 ∨ o.pp 0 + o.pp 4 ≤ o.pp 2 →
      (∀ c ∈ cuts Config.page (o.pp 0, o.pp 4) ++ cuts Config.page (o.pp 2, o.pp 4), ∀ pa p, translate t o.dom c.1 false = .ok (pa, p) → isHost pa = false) →
      copyOut t o.dom (o.idx.filter fun l => !o.owned.contains l) (o.pp 4 / 64 + 2) (o.pp 2) bs = (u, none) →
      exec (.copyNodeComplete fn graph node) s = .next (setNode u (fn * 64 + graph) node .completed))) ∧
  (∀ s dom fuel va bs pa p, s.wf = true → bs ≠ [] → bs.length ≤ 64 - va % 64 → translate s dom va true = .ok (pa, p) → pa % 64 = va % 64 →
    arenaCheck s p va true = none → poisoned s pa = false →
    (copyOut s dom [] (fuel + 1) va bs).2 = none ∧
    ∀ q b, undisturbed s p.tag (pa / 64) q b →
      homeByte (copyOut s dom [] (fuel + 1) va bs).1 q b = if pa ≤ b ∧ b < pa + bs.length then bs.getD (b - pa) 0 else homeByte s q b) ∧
  (∀ s fn graph node g r x h, startable s fn graph node 0 = some (g, r, x) →
    let dom := ((funcAt s fn).dom).getD 64
    let entry := (((funcAt s fn).modules.get? g.modl).bind fun es => es[x.kernel]?).getD 0
    let teams := (x.groups + h.teamg) / (h.teamg + 1)
    headerAt s dom entry = some h →
    (h.coop = false ∨ coopTooBig s fn h x.groups = false → Occurs (.kernelNodeStart fn graph node) s fun t =>
      t.runs = s.runs.put (fn * 64 + graph) { r with nodes := setAt r.nodes node .running } ∧
      ∃ gr : Grid, t.grids = s.grids.put s.nextId gr ∧ gr.func = fn ∧ gr.dom = dom ∧ gr.kentry = entry ∧ gr.groups = x.groups ∧ gr.teams = teams ∧
        gr.args = x.args ∧ gr.prio = x.prio ∧ gr.next = 0 ∧ gr.dies = gridDies s fn ∧ gr.coop = h.coop) ∧
    (h.coop = true → coopTooBig s fn h x.groups = true →
      runBecomes (.kernelNodeStart fn graph node) s (fn * 64 + graph) { r with notFit := true, failNode := node, failCause := 0 }))

/-- R108, R167, R173, R182: claims are answered with consecutive indices, those to be granted again first; a granted team, and a bin's waiting group,
start on a core that their function may use, each fibre at its entry with its argument words. R109: the claims of a cooperative grid are answered in
one round, once they take every index; where its teams no longer fit so the claims are made again, and no other placement takes their room (log 31, the
model's choice). -/
def Obligations.GridsAndBinsPlaceTheirTeams : Prop :=
  (∀ s grid die count g, s.grids.get? grid = some g → g.abandoned = false → g.aborted = false → g.dies.contains die = true → s.dieDown.contains die = false →
    0 < count → count ≤ 16 → (g.next ≠ g.teams ∨ g.again ≠ []) →
    (g.coop = false ∨ g.next ≠ 0 → (∀ c ∈ g.claims, c.1 ≠ die) ∧ unstarted g die = [] ∧ count ≤ claimRoom s g die 16) →
    (g.coop = true → g.next = 0 → coopNow s g = true ∧ claimed g (fun _ => true) + count ≤ g.teams ∧
      claimed g (· == die) + count ≤ claimRoom s g die (claimed g (· == die) + count)) →
    exec (.gridClaim grid die count) s = .next { s with grids := s.grids.put grid { g with claims := g.claims ++ [(die, count)] } }) ∧
  (∀ s grid g, s.grids.get? grid = some g → g.claims ≠ [] → g.abandoned = false → g.aborted = false → g.coop = true → g.next = 0 →
    g.teams ≤ claimed g (fun _ => true) →
    (restFits s (answerAll g) = true → exec (.claimGrant grid) s = .next { s with grids := s.grids.put grid (answerAll g) }) ∧
    (restFits s (answerAll g) = false → exec (.claimGrant grid) s = .next { s with grids := s.grids.put grid { g with claims := [] } })) ∧
  (∀ s grid g die n rest, s.grids.get? grid = some g → g.claims = (die, n) :: rest → g.abandoned = false → g.aborted = false →
    g.coop = false ∨ g.next ≠ 0 →
    let old := g.again.take n
    let m := min (n - old.length) (g.teams - g.next)
    exec (.claimGrant grid) s = .next { s with grids := s.grids.put grid { g with claims := rest, again := g.again.drop n, next := g.next + m,
                                                                                  mirror := g.next + m, grants := g.grants ++ grantOf die (old ++ upTo g.next m) } }) ∧
  (∀ die is, ((grantOf die is).flatMap fun b => upTo b.first b.count) = is ∧ ∀ b ∈ grantOf die is, b.die = die ∧ b.started = [] ∧ 0 < b.count) ∧
  (∀ s grid team core parts g t, s.grids.get? grid = some g → g.aborted = false → (unstarted g (dieOf core)).contains team = true →
    placeGridTeam s grid g team core parts = some t →
    coopKept s (modGrid t grid fun y => { y with grants := y.grants.map fun (b : Grant) =>
      if b.first ≤ team ∧ team < b.first + b.count then { b with started := b.started ++ [team] } else b }) = true →
    Occurs (.teamPlacement grid team core parts) s fun u => u = { t with grids := u.grids } ∧
      ∃ y, u.grids.get? grid = some y ∧ (∃ z, t.grids.get? grid = some z ∧ y = { z with grants := y.grants } ∧ z.placedTeams ≠ []) ∧
        ∀ i, i ∈ unstarted y (dieOf core) → i ≠ team) ∧
  (∀ s f dom core prio h ix gr seats tid t, placeTeam s f dom core prio h ix gr seats = some (tid, t) → ∃ T, t.teams.get? tid = some T ∧ T.dom = dom ∧
    T.func = f ∧ T.core = core ∧ T.pair = pairTeam h ∧ T.grid = gr ∧ T.teamix = ix ∧ T.groups.length = seats.length ∧ T.banks.length = h.banks ∧
    T.tiles = h.tiles) ∧
  (∀ s gid (e : Nat × Fibre), s.wf = true →
    (seatLane gid s e).lanes.get? (lk gid e.1) = some { pc := BitVec.ofNat 64 e.2.resume, preds := e.2.preds ||| 1, fpstat := e.2.fpstat } ∧
    (e.2.live = [] → ∀ n, n < e.2.args.length → n < 128 → vreg (seatLane gid s e) (lk gid e.1) n = e.2.args.getD n 0)) ∧
  (∀ s die bin core part b fs h tid t, s.bins.get? (die * 256 + bin) = some b → b.waiting = some fs → headerAt s b.dom b.kentry = some h → bin < 256 →
    dieOf core = binDie s b.func die → mayUseTeam s b.func core (pairTeam h) false = true →
    placeTeam s b.func b.dom core 1 h 0xFFFFFFFF none [(part, ⟨0, 0xFFFFFFFF, fs⟩)] = some (tid, t) →
    coopKept s ((if pairTeam h then [core, core + 1] else [core]).foldl (fun u c => noteUse u b.func c) t) = true →
    Occurs (.binGroupPlacement die bin core part) s fun u => u.teams = t.teams ∧ u.groups = t.groups ∧ u.lanes = t.lanes ∧ u.vregs = t.vregs ∧
      (b.fibres ≠ [] → b.again = false → b.fibres.length < h.width → u.bins.get? (die * 256 + bin) = some { b with waiting := none }))

/-- R115 to R118, R427, R431, R432, R434, R436, R440: loans of margin cores, requests for pre-emption, the end of a window, the parts of an image, the restore
of a team, and the decision of a pool. -/
def Obligations.LoansPreemptionAndPools : Prop :=
  (∀ s core f, marginOwner s core = some f → domOn s ((funcAt s f).dom.getD 64) core = false →
    (∀ t, s.idleSince.get? (core * 64 + (funcAt s f).dom.getD 64) = some t → t + 7000 ≤ s.wall) → waitingWork s f (dieOf core) = false → s.available.contains core = false →
    s.loans.get? core = none → core < Config.cores → exec (.marginCoreIdle core) s = .next { s with available := core :: s.available }) ∧
  (∀ s core f, s.loans.get? core = some f → (∀ o, ((s.funcs.find? fun e => ownsCore s e.1 core).map (·.1)) = some o → waitingWork s o (dieOf core) = true) →
    let dom := (funcAt s f).dom.getD 64
    s.preempts.any (fun e => decide (e.2.dom = dom ∧ e.2.cores = [core] ∧ e.2.source = 2)) = false →
    ((residents s core).contains dom = true → Occurs (.loanRevocation core) s fun t => t.loans = s.loans ∧
      t.preempts = s.preempts.put s.nextId ⟨dom, [core], groupsOf s dom [core], s.wall + ticksOfUs (min (funcAt s f).grace 20), 2⟩) ∧
    ((residents s core).contains dom = false → exec (.loanRevocation core) s = .next { s with loans := s.loans.del core })) ∧
  (∀ s dom cores us f, funcOfDom s dom = some f → (∀ c ∈ cores, c < Config.cores) → 0 < us → us ≤ 1000 → Occurs (.preemptRequest dom cores us) s fun t =>
    t = { s with nextId := s.nextId + 1, preempts := s.preempts.put s.nextId ⟨dom, cores, groupsOf s dom cores, s.wall + 700 * us, 3⟩ }) ∧
  (∀ s req n p, s.preempts.get? req = some p → p.windowEnd ≤ s.wall → (unsavedTeams s p).filter (haltReady s) ≠ [] →
    exec (.graceWindowEnd req n) s = .next (((unsavedTeams s p).filter (haltReady s)).foldl (fun u t => saveTeam (stopSliced t n u) t) s)) ∧
  (∀ s i, haltReady s i = true ↔ (∀ t, s.teams.get? i = some t → teamDrained s t = true) ∧ ∀ e ∈ s.mops, e.2.team = i → matReady s e.1 e.2 = true) ∧
  (∀ s i t, s.teams.get? i = some t → ∃ T id m, (saveTeam s i).teams.get? i = some T ∧ T.saved = some id ∧ (saveTeam s i).images.get? id = some m ∧
    m.team = i ∧ m.teamRec = t ∧ (∀ e ∈ m.groups, e.1 ∈ t.groups)) ∧
  (∀ g : GroupImage, g.bytes.length =
    if g.lanes = [] then 256 else 256 + 64 * g.group.width + (g.present.length + g.group.divmax) * 4 * g.group.width) ∧
  (∀ m : Image, (∀ g ∈ m.groups, g.2.group.width % 16 = 0) → m.bytes.length = m.size ∧ m.spOff % 64 = 0 ∧ m.tlOff % 64 = 0 ∧
    m.bytes.take 512 = m.head ∧ (m.bytes.drop m.spOff).take m.scratch.length = m.scratch ∧ m.bytes.drop m.tlOff = m.tileBytes) ∧
  (∀ m : Image, m.head.length = 512 ∧ fAt m.head 0 4 = 0x31585443 ∧ fAt m.head 4 2 = 1 ∧
    (m.spOff < 2 ^ 64 → fAt m.head 0x20 8 = m.spOff) ∧ (m.tlOff < 2 ^ 64 → fAt m.head 0x28 8 = m.tlOff) ∧ (m.size < 2 ^ 64 → fAt m.head 0x30 8 = m.size)) ∧
  (∀ s image core parts m t banks tb u, s.images.get? image = some m → s.teams.get? m.team = some t → mayRestore s image core parts m t = true →
    teamBanks s core m.teamRec.banks.length = some banks → teamTiles s core t.dom t.tiles t.pair = some tb →
    restoreGroups core (restoreBase s image core m (restoredTeam t core banks tb)) (m.liveOnes.zip parts) = some u →
    parts.length = m.liveOnes.length → slotRoom s core t.dom = true → (t.pair = true → core % 2 = 0 ∧ slotRoom s (core + 1) t.dom = true) →
    coopKept s (restoreEnd u core t) = true →
    Occurs (.contextRestore image core parts) s fun v => v.images = s.images.del image ∧
      v.teams = s.teams.put m.team { t with core := core, banks := banks, tbase := tb, saved := none } ∧ v.groups = u.groups ∧ v.lanes = u.lanes ∧ v.vregs = u.vregs) ∧
  (∀ s fn c, (funcAt s fn).sliced = true → poolChoice s (poolOf s fn) = some c →
    (((poolOf s fn).find? fun f => (funcAt s f).running) = none → Occurs (.poolDecisionPoint fn) s fun t => (funcAt t c).running = true) ∧
    (∀ r, ((poolOf s fn).find? fun f => (funcAt s f).running) = some r → c ≠ r →
      hasWork s r = false ∨ (funcAt s r).budget ≤ 2 ^ 40 → Occurs (.poolDecisionPoint fn) s fun t => (funcAt t r).running = false ∧ (funcAt t c).running = true)) ∧
  (∀ s fn r, (funcAt s fn).sliced = true → poolChoice s (poolOf s fn) = none → poolRests s (poolOf s fn) = some r →
    Occurs (.poolDecisionPoint fn) s fun t => t = poolLeave s r ∧ (funcAt t r).running = false)

/-- R452 to R456: a retired team's scratchpad is zero once it is freed, and so are its tiles that the slot of its domain no longer covers; a grid whose teams are over completes its node. R189, R193: a code line that misses
is filled or faults; inverted batches start and end. -/
def Obligations.RetirementFetchAndFairness : Prop :=
  (∀ s team t, s.teams.get? team = some t → t.retired = true → teamIdle s team = true → t.banks ≠ [] ∨ t.tbase ≠ [] ∨ t.grid = none →
    Occurs (.teamResourcesFree team) s fun u => (∀ b ∈ t.banks, ∀ o, o < 32768 → u.spm.rd (spmKey b.1 b.2 o) = 0) ∧
      (∀ i n e, i < t.tbase.length → n < 4096 → t.tbase.getD i 0 ≤ n → n < t.tbase.getD i 0 + t.tiles →
        ¬((tileHull (tileUses u (t.core + i)) t.dom).1 ≤ n ∧ n < (tileHull (tileUses u (t.core + i)) t.dom).2) → e < 256 →
        tileWord u ((t.core + i) * 4096 + n) e = 0) ∧
      (t.grid ≠ none → u.teams = s.teams.put team { t with banks := [], tbase := [] })) ∧
  (∀ s grid g, s.grids.get? grid = some g → teamsOver s g = true → gridDrained s grid (gridGroups s g ++ g.lostGids) = true →
    gridFlushable s g = true → Occurs (.gridCompletion grid) s fun t => t.grids = s.grids.del grid ∧
      ∀ r, s.runs.get? (g.func * 64 + g.graph) = some r → t.runs.get? (g.func * 64 + g.graph) =
        some { r with nodes := if g.orphan then r.nodes else setAt r.nodes g.node .completed, lost := r.lost + g.lostGroups, dieLost := r.dieLost || g.dieLost }) ∧
  (∀ s gid pc g e, s.groups.get? gid = some g → ((laneSets s gid).find? fun e => e.1.toNat == pc) = some e → groupRuns s gid g = true →
    (∀ pa p, fetch s g pc = .miss → translate s g.stamp pc false = .ok (pa, p) → engineOwned s (pa / 64) = false → poisoned s pa = false →
      (isHost pa = false → exec (.instructionFetchFill gid pc) s = .next (l1Fill s (pairOf g.core) 0 pa p 3)) ∧
      (isHost pa = true → exec (.instructionFetchFill gid pc) s = .next (if (takeBit s).1 = true then
        fetchFault (takeBit s).2 gid e { cause := 0x083, addr := pc, info := accInfo ⟨8, 3, pc⟩ 4 false } else l1Fill (takeBit s).2 (pairOf g.core) 0 pa p 3))) ∧
    (∀ f, fetch s g pc = .fail f → exec (.instructionFetchFill gid pc) s =
      .next (fetchFault s gid e { cause := causeOf f.cls 0 f.detail, addr := f.addr, info := accInfo f 4 false }))) ∧
  (∀ s gid g, s.groups.get? gid = some g → g.batch = 0 → groupRuns s gid g = true → starved s gid g = true →
    exec (.invertedBatchStart gid) s = .next { s with groups := s.groups.put gid { g with batch := 33 } }) ∧
  (∀ s gid g, s.groups.get? gid = some g → g.batch = 1 ∨ (g.batch ≠ 0 ∧ starved s gid g = false ∧ g.lastIssue ≠ acNow s (dieOf g.core)) →
    exec (.invertedBatchEnd gid) s = .next { s with groups := s.groups.put gid { g with batch := 0 } })

/-! ### The module (chapters 17, 18, 28) -/

/-- R398, R399, R99, R460 to R462, R468, Tables 19-7, 19-8, 28-1 and 28-3: bring-up, the sideband bus, attestation and the links. -/
def Obligations.BringUpSidebandAndLinks : Prop :=
  (∀ s, s.pwrOk = false → exec .pwrOk s = .next { s with pwrOk := true }) ∧
  (∀ s, s.pwrOk = true → chooseRecord s = none → Occurs .moduleReset s fun t => t.up = true ∧ t.record = none ∧ t.dieDown = [0, 1, 2, 3] ∧
    t.funcs = [] ∧ t.groups = [] ∧ t.lanes = [] ∧ t.arenas = [] ∧ t.pages = [] ∧ t.flashCtr = s.flashCtr) ∧
  (∀ s r, s.wf = true → s.pwrOk = true → chooseRecord s = some r → Occurs .moduleReset s fun t => t.up = true ∧ t.record = some r ∧ t.flashCtr = r.counter ∧
    (funcAt t 0).dom = some 0 ∧ (funcAt t 0).weight = 16 ∧ (funcAt t 0).root = none ∧ t.groups = [] ∧ t.lanes = [] ∧ t.vregs = [] ∧ t.arenas = [] ∧ t.pages = [] ∧
    (∀ q b, Config.paVault ≤ b → b < Config.paVaultEnd → homeByte t q b = 0) ∧ (∀ b, b < Config.paVault ∨ Config.paVaultEnd ≤ b → Tab.rd t.mem b = Tab.rd s.mem b) ∧
    (∀ d k, d < 4 → k < 32 → (smapAt t d).epoch = 0 ∧ (r.retired.getLsbD (32 * d + k) = false → (smapAt t d).map.getD k 32 = k))) ∧
  (∀ s r, chooseRecord s = some r → (∃ b, (b = s.flashA ∨ b = s.flashB) ∧ copyValid s.flashCtr b = true ∧ r = recordOf b) ∧
    (copyValid s.flashCtr s.flashA = true → fAt s.flashA 4 4 ≤ r.counter) ∧ (copyValid s.flashCtr s.flashB = true → fAt s.flashB 4 4 ≤ r.counter)) ∧
  (∀ s nonce r, s.record = some r → nonce.length = 32 → Occurs (.attestationQuote nonce) s fun t => t = { s with sbOut := t.sbOut } ∧
    ∃ body, body = Config.romHash ++ shakeDigest r.bytes ++ leBytes 4 r.counter ++ leBytes 8 (nsNow s) ++ nonce ∧
      t.sbOut = body ++ Config.identitySign body) ∧
  Config.romHash.length = 32 ∧ (∀ bs, (shakeDigest bs).length = 64) ∧
  (∀ s what, Occurs (.sidebandRead what) s fun t => t = { s with sbOut := t.sbOut } ∧ match what with
    | .temperature d => ∀ c, s.temps.get? d = some c → t.sbOut = leBytes 2 c
    | .power k => t.sbOut = leBytes 4 (powerSum s k)
    | .dieState d => t.sbOut = if s.dieDown.contains d then [1] else [0]
    | .sliceState d k => t.sbOut = if (smapAt s d).retired.contains k then [1] else [0]
    | .recordCounter => ∀ r, s.record = some r → t.sbOut = leBytes 4 r.counter) ∧
  (∀ s link flit, link < 24 → flit.length = 64 → s.linksDown.contains link = false → s.up = true →
    let key := link * 8 + bits (fAt flit 0 2) 15 13
    let want := (s.linkSeq.get? key).getD 0
    let was := ((s.linkRx.get? key).map fun (p : LinkPacket) => if p.whole then [] else p.bytes).getD []
    (Config.crc16 (flit.take 62) ≠ BitVec.ofNat 16 (fAt flit 62 2) ∨ fAt flit 0 1 ≠ want → exec (.linkFlitReceive link flit) s = .next s) ∧
    (Config.crc16 (flit.take 62) = BitVec.ofNat 16 (fAt flit 62 2) → fAt flit 0 1 = want →
      (bits (fAt flit 0 2) 12 9 = moduleNo s → exec (.linkFlitReceive link flit) s = .next { s with
        linkSeq := s.linkSeq.put key ((want + 1) % 256)
        linkRx := s.linkRx.put key { bytes := was ++ (flit.drop 2).take 60, whole := (fAt flit 0 2).testBit 8 }
        linkMsgs := if (fAt flit 0 2).testBit 8 = true ∧ key % 8 = 3 then s.linkMsgs ++ [was ++ (flit.drop 2).take 60] else s.linkMsgs }) ∧
      (bits (fAt flit 0 2) 12 9 ≠ moduleNo s → exec (.linkFlitReceive link flit) s =
        .next (forwardFlit { s with linkSeq := s.linkSeq.put key ((want + 1) % 256) } key flit)))) ∧
  (∀ s f l, flowLink s f.dest f.flow = some l → (liveLinks s f.dest)[f.flow % (liveLinks s f.dest).length]? = some l ∧
    let n := (s.linkTxSeq.get? (l * 8 + f.cls)).getD 0
    sendFlit s f = { s with linkTxSeq := s.linkTxSeq.put (l * 8 + f.cls) ((n + 1) % 256)
                            linkTx := (s.linkTx.filter fun g => !(g.link == l && g.cls == f.cls && g.seq == n)) ++ [{ f with link := l, seq := n }] }) ∧
  (∀ f : SentFlit, f.cls < 8 → f.dest < 16 → f.seq < 256 → f.payload.length ≤ 60 → (flitBytes f).length = 64 ∧
    bits (fAt (flitBytes f) 0 2) 15 13 = f.cls ∧ bits (fAt (flitBytes f) 0 2) 12 9 = f.dest ∧ (fAt (flitBytes f) 0 2).testBit 8 = f.last ∧
    fAt (flitBytes f) 0 1 = f.seq ∧ Config.crc16 ((flitBytes f).take 62) = BitVec.ofNat 16 (fAt (flitBytes f) 62 2) ∧
    ((flitBytes f).drop 2).take f.payload.length = f.payload) ∧
  (∀ vs : List Nat, vs.length = 8 → (∀ v ∈ vs, v < 2 ^ 64) → (packFlit vs).1 < 2 ^ 475 ∧ unpackFlit (packFlit vs).1 (packFlit vs).2 = vs) ∧
  (∀ s link, link < 24 → s.linksDown.contains link = false → Occurs (.linkDown link) s fun t =>
    t = { s with linksDown := s.linksDown ++ [link], linkTx := t.linkTx, linkTxSeq := t.linkTxSeq, freeCtr := t.freeCtr } ∧
    (∀ g ∈ t.linkTx, g.link ≠ link) ∧ ((∀ f ∈ s.linkTx, f.link ≠ link) → t.linkTx = s.linkTx ∧ t.linkTxSeq = s.linkTxSeq)) ∧
  (∀ s link, link < 2 → s.hostDown.contains link = false → Occurs (.hostLinkDown link) s fun t => t = { s with hostDown := t.hostDown } ∧
    ∀ x : Func, x.link < 2 → linkFor t x = if t.hostDown.contains x.link = false then some x.link else if t.hostDown.contains (1 - x.link) = false then some (1 - x.link) else none) ∧
  (∀ s link, s.hostDown.contains link = true → Occurs (.hostLinkUp link) s fun t => t = { s with hostDown := t.hostDown } ∧ t.hostDown.contains link = false ∧
    ∀ k, k ≠ link → t.hostDown.contains k = s.hostDown.contains k)

/-- R108, R387, R389, R463 to R466: slices that are retired and returned, stubs, scrubs, dies that fail, power and heat. That
the input of a scrub also names errors in registers, banks, tiles and entries is the model's choice (log 41). -/
def Obligations.ErrorsPowerAndFailedDies : Prop :=
  (∀ m k m', retireSlice m k = some m' → m'.epoch = m.epoch + 1 ∧ m'.retired = m.retired ++ [k] ∧ m'.stubs = m.stubs ++ [k] ∧ m'.map.length = m.map.length ∧
    ∀ i, i < m.map.length → m.map.getD i 0 ≠ k → m'.map.getD i 0 = m.map.getD i 0) ∧
  (∀ m k m' i, retireSlice m k = some m' → i < m.map.length → m.map.getD i 0 = k →
    m'.map.getD i 0 / 8 = k / 8 ∧ m'.map.getD i 0 ≠ k ∧ m.retired.contains (m'.map.getD i 0) = false) ∧
  (∀ s die k m, die < 4 → k < 32 → s.up = true → retireSlice (smapAt s die) k = some m → 3 ≤ (recentErrors s (die * 32 + k)).length →
    exec (.sliceMapInstall die k true) s = .next (installMap s die { m with failed := k :: m.failed })) ∧
  (∀ s die m, (installMap s die m).smap = s.smap.put die m ∧ (installMap s die m).lanes = s.lanes ∧ (installMap s die m).vregs = s.vregs ∧
    ∀ a, isHost a = false → Tab.rd (installMap s die m).mem a = Tab.rd s.mem a) ∧
  (∀ s die k, die < 4 → k < 32 → s.up = true → (smapAt s die).retired.contains k = true → (smapAt s die).stubs.contains k = false →
    (smapAt s die).failed.contains k = false → (∀ r, s.record = some r → r.retired.getLsbD (32 * die + k) = false) → Occurs (.sliceMapInstall die k false) s fun t =>
      t = { s with smap := t.smap, slices := t.slices, hostLines := t.hostLines, mem := t.mem, acc := t.acc, nextId := t.nextId } ∧ (smapAt t die).map = setAt (smapAt s die).map k k ∧ (smapAt t die).retired.contains k = false ∧
      (smapAt t die).epoch = (smapAt s die).epoch + 1) ∧
  (∀ s die k, (smapAt s die).stubs.contains k = true → dieRequests s die = false → Occurs (.forwardingStubRetire die k) s fun t =>
    t = { s with smap := t.smap } ∧ (smapAt t die).stubs.contains k = false ∧ (smapAt t die).map = (smapAt s die).map) ∧
  (∀ s line, s.up = true → line * 64 < Config.paVaultEnd → engineOwned s line = false → exec (.backgroundScrub line .none) s = .next s ∧
    exec (.backgroundScrub line .singleBit) s = .next (trace s 0 2 0xFFFF 0 (leBytes 8 (line * 64))) ∧
    (∀ k r, laneLive s k = true → r < 64 → exec (.backgroundScrub line (.register k r)) s = .next { s with poisonRegs := addOnce (k * 128 + r) s.poisonRegs }) ∧
    (∀ b, b < 256 * 2 ^ 20 → exec (.backgroundScrub line (.scratchpad b)) s = .next { s with poisonSpm := addOnce b s.poisonSpm }) ∧
    (∀ n, n < 256 * 4096 → exec (.backgroundScrub line (.tile n)) s = .next { s with poisonTiles := addOnce n s.poisonTiles }) ∧
    (∀ dom va, (s.pages.get? (pageKey dom va)).isSome = true →
      exec (.backgroundScrub line (.entry dom va)) s = .next { s with poisonPages := addOnce (pageKey dom va) s.poisonPages }) ∧
    Occurs (.backgroundScrub line .uncorrectable) s fun t => t.poison.contains line = true ∧ (∀ l, l ≠ line → t.poison.contains l = s.poison.contains l) ∧
      let h := sliceHome s (line * 64)
      (t.softErr.get? (h.1 * 32 + h.2)) = some (recentErrors s (h.1 * 32 + h.2) ++ [s.wall]) ∧
      ((recentErrors s (h.1 * 32 + h.2)).length < 2 → t.smap = s.smap) ∧
      (∀ m, 2 ≤ (recentErrors s (h.1 * 32 + h.2)).length → retireSlice (smapAt s h.1) h.2 = some m →
        t.smap = s.smap.put h.1 { m with failed := h.2 :: m.failed })) ∧
  (∀ s die, die < 4 → s.dieDown.contains die = false → s.up = true → exec (.dieFailure die) s = .next (failDie s die) ∧
    (failDie s die).dieDown = s.dieDown ++ [die] ∧ (∀ e ∈ (failDie s die).l1, keyPair e.1 / 32 ≠ die) ∧ (failDie s die).mem = s.mem) ∧
  (∀ down wall d g, g.abandoned = false → g.dies.contains d = true → (g.dies.filter fun x => !down.contains x) ≠ [] →
    let g' := gridAfter down wall d g
    (g.leader = d → g.elected = none → g'.leader = g.deputy ∧ g'.next = g.mirror ∧ g'.elected = some wall ∧ g'.abandoned = false) ∧
    (g.leader ≠ d → g'.leader = g.leader ∧ g'.next = g.next ∧ g'.abandoned = false) ∧
    (∀ i, i ∈ unstarted g d → (g.leader ≠ d ∨ g.elected = none) → i ∈ g'.again) ∧ ∀ b ∈ g'.grants, b.die ≠ d) ∧
  (∀ g, let g' := abandon g
    g'.abandoned = true ∧ g'.grants = [] ∧ g'.claims = [] ∧ g'.lostTeams = g.lostTeams + (dedup (neverStarted g)).length) ∧
  (∀ s share die mw, share ≤ 3 → die < 4 → s.up = true → Occurs (.powerMeasurement share die mw) s fun t =>
    let lim := [1800000, 320000, 260000, 300000].getD share 0 * ((s.record.map (·.power)).getD 2800) / 2800
    let sum := powerSum { s with power := s.power.put (powerKey share die) mw } share
    t.power = s.power.put (powerKey share die) mw ∧
    (lim < sum → levelAt t share die = min (if share = 0 then 8 else 1) (levelAt s share die + 1)) ∧
    (sum ≤ lim → lim * 9 ≤ sum * 10 → t.throttle = s.throttle) ∧
    (∀ w, sum ≤ lim → sum * 10 < lim * 9 → s.below.get? (powerKey share die) = some w → w + 700000 ≤ s.wall → levelAt t share die = levelAt s share die - 1)) ∧
  (∀ s share, powerSum s share = ([0, 1, 2, 3].map fun d => (s.power.get? (share * 4 + d)).getD 0).sum) ∧
  (∀ share die, powerKey share die = if share = 3 then 12 else share * 4 + die) ∧
  (∀ s die c, die < 4 → s.up = true → s.dieDown.contains die = false →
    (105 ≤ c → c < 120 → Occurs (.thermalLimit die c) s fun t => levelAt t 0 die = min 8 (levelAt s 0 die + 1) ∧ t.temps = s.temps.put die c) ∧
    (120 ≤ c → Occurs (.thermalLimit die c) s fun t => t.dieDown = s.dieDown ++ [die]))

/-! ### Entering a word, encodings and steps -/

/-- R23, R25, R51, R54: a word that fails a check of R51 raises its fault in every lane of the issuing set; one with an empty executing set completes
and releases the slot that it names; one with a false uniform claim raises UNIFORM 0x030 in the group's lanes. R320, R336: `mcvt` with T = 1, a word of no row that passes R51, signs. -/
def Obligations.ChecksRaiseBeforeAnyEffect : Prop :=
  (∀ i s c g f, i.isWord = true → isHint (encode i) = false → s.cur = some c → s.groups.get? c.gid = some g →
    checkWord (issued i c g s) (ctxOf { s with cur := none } g c (encode i)) = some f →
    exec i s = .next ((ctxOf { s with cur := none } g c (encode i)).raiseAll (issued i c g s) c.lanes f)) ∧
  (∀ i s c g, i.isWord = true → isHint (encode i) = false → s.cur = some c → s.groups.get? c.gid = some g →
    let x := ctxOf { s with cur := none } g c (encode i)
    checkWord (issued i c g s) x = none → (coverFor g x.h).isNone = true ∨ g.schk = true → guardSet { x with rs := issued i c g s } = 0 →
    exec i s = .next (releaseNamed { x with rs := issued i c g s, active := 0 } (issued i c g s))) ∧
  (∀ i s c g m, i.isWord = true → isHint (encode i) = false → s.cur = some c → s.groups.get? c.gid = some g →
    let x := ctxOf { s with cur := none } g c (encode i)
    let y := { x with rs := issued i c g s, active := guardSet { x with rs := issued i c g s } }
    checkWord (issued i c g s) x = none → (coverFor g x.h).isNone = true ∨ g.schk = true → y.active ≠ 0 → uniformBad y = some m →
    exec i s = .next (y.raiseAll (issued i c g s) m ⟨causeOf 3 x.origin 0, 0, 0, 0, true⟩)) ∧
  (∀ w, isHint w = false → signs (.illegalEncoding w) (fld w 22 4))

/-- R19, R20, R44 and the encodings of chapters 10 to 22: words written out from their encodings decode to the instructions they stand for. -/
def Obligations.NamedWordsDecode : Prop :=
  decode 0x00000000 = .nop ∧ decode 0x20010408 = .iadd ⟨false, false, 0⟩ 2 2 1 ∧ decode 0x21290609 = .isub ⟨false, true, 1⟩ 18 3 1 ∧
  decode 0x05FFFFFF = .bra ⟨false, true, 7⟩ 0x1FFFFF ∧ decode 0x14000003 = .exit ⟨false, 0⟩ ∧ decode 0x00000207 = .trap ⟨false, 0⟩ 7 ∧
  decode 0x840219C5 = .st ⟨false, false, 0⟩ 4 12 7 0 5 ∧ decode 0xC0990830 = .mma 2 3 8 16 24 false ∧ decode 0xFD123456 = .imx 0x123456 ∧
  decode 0xFC321058 = .sched 3 2 1 5 true ∧ decode 0xAC000003 = .coll ⟨false, false, 0⟩ 0 0 0 0 false false ∧
  decode 0xB0000001 = .mrecv ⟨false, false, 0⟩ 0 0 0 0 ∧ decode 0x64000000 = .illegalEncoding 0x64000000
/-- R19, R20: every well-formed instruction that a word stands for is what its word decodes to. -/
def Obligations.DecodeInvertsEncode : Prop := ∀ i : Instr, i.isWord = true → i.wf = true → decode (encode i) = i
/-- R20, R44, R51: no bit of a word that passes the checks of its own encoding is dropped by the decoder. -/
def Obligations.EncodeInvertsDecode : Prop := ∀ w : Word, staticSub w = none → encode (decode w) = w

/-- A step takes the agenda's next turn; an issue turn executes the word that the vote chose, decoded, and what completes settles.
R190, R194: time does not pass while a ready lane set has a free port; that lane set issues first. R98: the host's bytes stand in its memory. From reset, a placed
word is the next to execute (log 5, the model's choice). -/
def Obligations.StepRunsTheDecodedWord : Prop :=
  (∀ s core part r c, s.agenda = .issue core part :: r → voteOf { s with agenda := r } core part = some c →
    (∀ t, exec (decode c.word) (takePort { s with agenda := r } core part c) = .next t → step s = .next (settle t)) ∧
    (∀ f, exec (decode c.word) (takePort { s with agenda := r } core part c) = .fault f → step s = .fault f) ∧
    (∀ f, exec (decode c.word) (takePort { s with agenda := r } core part c) = .refused f → step s = .refused f)) ∧
  (∀ s i r t, s.agenda = .event i :: r → exec i { s with agenda := r } = .next t → step s = .next (settle (clearRetry t))) ∧
  (∀ s r, s.agenda = .tick :: r → nextIssue s = none → step s = .next (settle (clearRetry (tickTime { s with agenda := r })))) ∧
  (∀ s r core part c, s.agenda = .tick :: r → nextIssue s = some (core, part, c) →
    (∀ t, exec (decode c.word) (takePort s core part c) = .next t → step s = .next (settle t)) ∧
    (∀ f, exec (decode c.word) (takePort s core part c) = .fault f → step s = .fault f) ∧
    (∀ f, exec (decode c.word) (takePort s core part c) = .refused f → step s = .refused f)) ∧
  (∀ s addr bs r, s.agenda = .host addr bs :: r → addr + bs.length ≤ 2 ^ 51 → step s = .next (settle (clearRetry (writeHost { s with agenda := r } addr bs)))) ∧
  (∀ n w, w < 2 ^ 32 → (State.reset.withFetchWord n w).agenda = [.issue 0 0] ∧
    voteOf { State.reset.withFetchWord n w with agenda := [] } 0 0 = some ⟨1, 0xFFFF, 0x10000, [], BitVec.ofNat 32 w, 0⟩)
/-- R188 to R190: the vote chooses a lane set of a running group of the partition, with the word fetched at its PC, no group that holds a better place
passed over at the first vote of an ac, and no ready lane set of the group below it outside an inverted batch; the set that this vote has chosen
for the other port issues next, if it still stands. R193: the waits are counted, and batches entered and left, at the first vote. -/
def Obligations.VoteChoosesTheFirstReadySet : Prop :=
  ∀ s core part c, voteOf s core part = some c →
    let u := counted s core part
    let port := s.ports.get? (core * 12 + part)
    (∀ p d, port = some p → p.next = some d → stands s d = true → c = d) ∧
    ((∀ p d, port = some p → p.next = some d → stands s d = false) → ∃ g, (c.gid, g) ∈ u.groups ∧ g.core = core ∧ g.part = part ∧
      groupRuns u c.gid g = true ∧ fetch u g c.pc.toNat = .word c.word ∧ { c with port := 0 } ∈ readySets u c.gid g ∧
      (inverted u c.gid g = false → ∀ d ∈ readySets u c.gid g, onPort u c.port d = true → c.pc.toNat ≤ d.pc.toNat) ∧
      (port = none → (c.port = 0 → ∀ e ∈ voters u core part, e.2.2.any (onPort u 0) = true → before e.2.1 g = false) ∧
        (c.port ≠ 0 → c.port = 1 ∧ ∀ e ∈ voters u core part, e.2.2.any (onPort u 0) = false)) ∧
      ∀ p, port = some p → (c.port = 0 ∧ p.zero = false) ∨
        (c.port = 1 ∧ p.one = false ∧ (p.zero = true ∨ ∀ e ∈ voters u core part, e.2.2.any (onPort u 0) = false)))
/-- R461: after module reset nothing is resident, and every table of the state is in canonical form. -/
def Obligations.ResetIsCanonical : Prop :=
  State.reset.wf = true ∧ Memory.wf State.reset.mem = true ∧ State.reset.groups = [] ∧ State.reset.lanes = [] ∧ State.reset.funcs = [] ∧
  State.reset.arenas = [] ∧ State.reset.record = none ∧ State.reset.up = false
/-- Every step from a state with canonical memory leaves canonical memory. -/
def Obligations.StepKeepsMemoryCanonical : Prop := ∀ s t : State, Memory.wf s.mem = true → step s = .next t → Memory.wf t.mem = true
/-- Every step from a state whose tables are canonical leaves them so. -/
def Obligations.StepKeepsTablesCanonical : Prop := ∀ s t : State, s.wf = true → step s = .next t → t.wf = true
end

