-- ==== Sys2Proof/Laws/Tab.lean ====
section
/-! SUPPORT. The sparse tables: reading after a write, and the canonical form that every table operation keeps. -/
namespace Sys2Proof

variable {α β : Type}

@[simp] theorem Tab.get?_nil (n : Nat) : Tab.get? ([] : Tab α) n = none := rfl
theorem Tab.get?_cons (k : Nat) (v : α) (t : Tab α) (n : Nat) :
    Tab.get? ((k, v) :: t) n = if k = n then some v else if n < k then none else Tab.get? t n := rfl

/-- A key just written reads as what was written. -/
@[simp] theorem Tab.get?_put_self (t : Tab α) (n : Nat) (x : α) : (t.put n x).get? n = some x := by
  induction t with
  | nil => simp [Tab.put, Tab.get?_cons]
  | cons e t ih =>
    obtain ⟨k, v⟩ := e
    unfold Tab.put
    split_ifs with h1 h2
    · simp [Tab.get?_cons]
    · simp [Tab.get?_cons]
    · simp [Tab.get?_cons, h1, h2, ih]

/-- A write leaves every other key as it was. -/
theorem Tab.get?_put_ne (t : Tab α) {n m : Nat} (x : α) (h : m ≠ n) : (t.put n x).get? m = t.get? m := by
  induction t with
  | nil => simp [Tab.put, Tab.get?_cons, Ne.symm h]
  | cons e t ih =>
    obtain ⟨k, v⟩ := e
    unfold Tab.put
    split_ifs with h1 h2
    · subst h1; simp [Tab.get?_cons, Ne.symm h]
    · simp only [Tab.get?_cons, Ne.symm h, if_false]
      split_ifs with h3 h4 <;> first | rfl | omega
    · simp [Tab.get?_cons, ih]

/-- Every key of the table is above a bound. -/
def Tab.above (t : Tab α) (n : Nat) : Prop := ∀ e ∈ t, n < e.1

theorem Tab.sorted_cons (k : Nat) (v : α) (t : Tab α) : Tab.sorted ((k, v) :: t) = true ↔ Tab.above t k ∧ Tab.sorted t = true := by
  induction t generalizing k v with
  | nil => simp [Tab.sorted, Tab.above]
  | cons e t ih =>
    obtain ⟨k', v'⟩ := e
    simp only [Tab.sorted, Bool.and_eq_true, decide_eq_true_eq, Tab.above, List.mem_cons, forall_eq_or_imp]
    constructor
    · rintro ⟨h1, h2⟩
      exact ⟨⟨h1, fun a ha => lt_trans h1 (((ih k' v').1 h2).1 a ha)⟩, h2⟩
    · rintro ⟨⟨h1, -⟩, h2⟩
      exact ⟨h1, h2⟩

theorem Tab.get?_above {t : Tab α} {n m : Nat} (h : t.above n) (hm : m ≤ n) : t.get? m = none := by
  cases t with
  | nil => rfl
  | cons e t =>
    obtain ⟨k, v⟩ := e
    have hk : n < k := h (k, v) (by simp)
    have h1 : k ≠ m := by omega
    have h2 : m < k := by omega
    simp [Tab.get?_cons, h1, h2]

theorem Tab.mem_put {t : Tab α} {n : Nat} {x : α} {e : Nat × α} (h : e ∈ t.put n x) : e = (n, x) ∨ e ∈ t := by
  induction t with
  | nil => simpa [Tab.put] using h
  | cons a t ih =>
    obtain ⟨k, v⟩ := a
    unfold Tab.put at h
    split_ifs at h with h1 h2
    · simp only [List.mem_cons] at h ⊢; tauto
    · simp only [List.mem_cons] at h ⊢; tauto
    · simp only [List.mem_cons] at h ⊢
      rcases h with h | h
      · tauto
      · rcases ih h with h | h <;> tauto

theorem Tab.mem_del {t : Tab α} {n : Nat} {e : Nat × α} (h : e ∈ t.del n) : e ∈ t := by
  induction t with
  | nil => simp [Tab.del] at h
  | cons a t ih =>
    obtain ⟨k, v⟩ := a
    unfold Tab.del at h
    split_ifs at h with h1 h2
    · exact List.mem_cons_of_mem _ h
    · exact h
    · simp only [List.mem_cons] at h ⊢
      rcases h with h | h
      · exact .inl h
      · exact .inr (ih h)

/-- Writing keeps the keys strictly rising. -/
theorem Tab.sorted_put {t : Tab α} (n : Nat) (x : α) (h : t.sorted = true) : (t.put n x).sorted = true := by
  induction t with
  | nil => rfl
  | cons e t ih =>
    obtain ⟨k, v⟩ := e
    obtain ⟨ha, hs⟩ := (Tab.sorted_cons k v t).1 h
    unfold Tab.put
    split_ifs with h1 h2
    · subst h1; exact (Tab.sorted_cons _ _ _).2 ⟨ha, hs⟩
    · refine (Tab.sorted_cons _ _ _).2 ⟨?_, h⟩
      intro a hm
      rcases List.mem_cons.1 hm with rfl | hm
      · exact h2
      · exact lt_trans h2 (ha a hm)
    · refine (Tab.sorted_cons _ _ _).2 ⟨?_, ih hs⟩
      intro a hm
      rcases Tab.mem_put hm with rfl | hm
      · show k < n; omega
      · exact ha a hm

/-- Removing a key keeps the keys strictly rising. -/
theorem Tab.sorted_del {t : Tab α} (n : Nat) (h : t.sorted = true) : (t.del n).sorted = true := by
  induction t with
  | nil => rfl
  | cons e t ih =>
    obtain ⟨k, v⟩ := e
    obtain ⟨ha, hs⟩ := (Tab.sorted_cons k v t).1 h
    unfold Tab.del
    split_ifs with h1 h2
    · exact hs
    · exact h
    · exact (Tab.sorted_cons _ _ _).2 ⟨fun a hm => ha a (Tab.mem_del hm), ih hs⟩

/-- A removed key of a canonical table is not listed. -/
theorem Tab.get?_del_self {t : Tab α} (n : Nat) (h : t.sorted = true) : (t.del n).get? n = none := by
  induction t with
  | nil => rfl
  | cons e t ih =>
    obtain ⟨k, v⟩ := e
    obtain ⟨ha, hs⟩ := (Tab.sorted_cons k v t).1 h
    unfold Tab.del
    split_ifs with h1 h2
    · subst h1; exact Tab.get?_above ha (le_refl _)
    · simp [Tab.get?_cons, h1, h2]
    · simp [Tab.get?_cons, h1, h2, ih hs]

/-- Removing a key leaves every other key as it was. -/
theorem Tab.get?_del_ne {t : Tab α} {n m : Nat} (h : t.sorted = true) (hne : m ≠ n) : (t.del n).get? m = t.get? m := by
  induction t with
  | nil => rfl
  | cons e t ih =>
    obtain ⟨k, v⟩ := e
    obtain ⟨ha, hs⟩ := (Tab.sorted_cons k v t).1 h
    unfold Tab.del
    split_ifs with h1 h2
    · subst h1
      simp only [Tab.get?_cons, Ne.symm hne, if_false]
      split_ifs with h3
      · exact Tab.get?_above ha (by omega)
      · rfl
    · rfl
    · simp [Tab.get?_cons, ih hs]

theorem Tab.sorted_filter {t : Tab α} (p : Nat × α → Bool) (h : t.sorted = true) : Tab.sorted (t.filter p) = true := by
  induction t with
  | nil => rfl
  | cons e t ih =>
    obtain ⟨k, v⟩ := e
    obtain ⟨ha, hs⟩ := (Tab.sorted_cons k v t).1 h
    rw [List.filter_cons]
    split_ifs
    · exact (Tab.sorted_cons _ _ _).2 ⟨fun a hm => ha a (List.mem_of_mem_filter hm), ih hs⟩
    · exact ih hs

/-- A map that keeps the keys keeps the canonical order. -/
theorem Tab.sorted_map {t : Tab α} (f : Nat × α → Nat × β) (hf : ∀ e, (f e).1 = e.1) (h : t.sorted = true) : Tab.sorted (t.map f) = true := by
  induction t with
  | nil => rfl
  | cons e t ih =>
    obtain ⟨k, v⟩ := e
    obtain ⟨ha, hs⟩ := (Tab.sorted_cons k v t).1 h
    rw [List.map_cons]
    have hk : (f (k, v)).1 = k := hf _
    rcases hfe : f (k, v) with ⟨k', v'⟩
    rw [hfe] at hk; simp only at hk; subst hk
    refine (Tab.sorted_cons _ _ _).2 ⟨?_, ih hs⟩
    intro a hm
    obtain ⟨b, hb, rfl⟩ := List.mem_map.1 hm
    rw [hf]; exact ha b hb

theorem Tab.sorted_clear {t : Tab α} (lo len : Nat) (h : t.sorted = true) : (t.clear lo len).sorted = true := Tab.sorted_filter _ h
/-- Reading a table with rows filtered out. -/
theorem Tab.get?_filter {t : Tab α} (p : Nat × α → Bool) (n : Nat) (h : t.sorted = true) :
    Tab.get? (t.filter p) n = (t.get? n).filter fun v => p (n, v) := by
  induction t with
  | nil => rfl
  | cons e t ih =>
    obtain ⟨k, v⟩ := e
    obtain ⟨ha, hs⟩ := (Tab.sorted_cons k v t).1 h
    have hab : Tab.above (t.filter p) k := fun e he => ha e (List.mem_of_mem_filter he)
    rw [List.filter_cons]
    by_cases hp : p (k, v) = true
    · rw [if_pos hp, Tab.get?_cons, Tab.get?_cons]
      split_ifs with h1 h2
      · subst h1; show some v = if p (k, v) then some v else none; rw [if_pos hp]
      · rfl
      · exact ih hs
    · rw [if_neg hp, Tab.get?_cons]
      split_ifs with h1 h2
      · subst h1
        rw [Tab.get?_above hab (le_refl _)]; show none = if p (k, v) then some v else none; rw [if_neg hp]
      · rw [Tab.get?_above hab (le_of_lt h2)]; rfl
      · exact ih hs

section Words
variable {w : Nat}

theorem Tab.noZero_put {t : Tab (BitVec w)} {n : Nat} {x : BitVec w} (hx : x ≠ 0) (h : t.noZero = true) : (t.put n x).noZero = true := by
  simp only [Tab.noZero, List.all_eq_true, decide_eq_true_eq] at h ⊢
  intro e he
  rcases Tab.mem_put he with rfl | he
  · exact hx
  · exact h e he

theorem Tab.noZero_del {t : Tab (BitVec w)} {n : Nat} (h : t.noZero = true) : (t.del n).noZero = true := by
  simp only [Tab.noZero, List.all_eq_true, decide_eq_true_eq] at h ⊢
  exact fun e he => h e (Tab.mem_del he)

theorem Tab.noZero_clear {t : Tab (BitVec w)} (lo len : Nat) (h : t.noZero = true) : (t.clear lo len).noZero = true := by
  simp only [Tab.noZero, List.all_eq_true, decide_eq_true_eq] at h ⊢
  exact fun e he => h e (List.mem_of_mem_filter he)

/-- A write of a word table keeps the keys strictly rising. -/
theorem Tab.sorted_wr {t : Tab (BitVec w)} (n : Nat) (x : BitVec w) (h : t.sorted = true) : (t.wr n x).sorted = true := by
  unfold Tab.wr; split_ifs
  · exact Tab.sorted_del n h
  · exact Tab.sorted_put n x h

/-- A write of a word table lists no zero. -/
theorem Tab.noZero_wr {t : Tab (BitVec w)} (n : Nat) (x : BitVec w) (h : t.noZero = true) : (t.wr n x).noZero = true := by
  unfold Tab.wr; split_ifs with hx
  · exact Tab.noZero_del h
  · exact Tab.noZero_put hx h

/-- A word just written reads back. -/
@[simp] theorem Tab.rd_wr_self {t : Tab (BitVec w)} (n : Nat) (x : BitVec w) (h : t.sorted = true) : (t.wr n x).rd n = x := by
  unfold Tab.wr Tab.rd; split_ifs with hx
  · simp [Tab.get?_del_self n h, hx]
  · simp

/-- A write leaves every other word as it was. -/
theorem Tab.rd_wr_ne {t : Tab (BitVec w)} {n m : Nat} (x : BitVec w) (h : t.sorted = true) (hne : m ≠ n) : (t.wr n x).rd m = t.rd m := by
  unfold Tab.wr Tab.rd; split_ifs
  · rw [Tab.get?_del_ne h hne]
  · rw [Tab.get?_put_ne _ _ hne]

/-- A word table after a write, read at any key. -/
theorem Tab.rd_wr {t : Tab (BitVec w)} (n m : Nat) (x : BitVec w) (h : t.sorted = true) : (t.wr n x).rd m = if m = n then x else t.rd m := by
  split_ifs with hm
  · subst hm; exact Tab.rd_wr_self _ _ h
  · exact Tab.rd_wr_ne x h hm
end Words

/-- A cleared range reads zero, and every other key as before. -/
theorem Tab.rd_clear {t : Tab (BitVec w)} (lo len m : Nat) (h : t.sorted = true) :
    (t.clear lo len).rd m = if lo ≤ m ∧ m < lo + len then 0 else t.rd m := by
  unfold Tab.rd Tab.clear
  rw [Tab.get?_filter _ _ h]
  cases t.get? m with
  | none => simp
  | some v =>
    by_cases hm : lo ≤ m ∧ m < lo + len
    · have : (decide (m < lo) || decide (lo + len ≤ m)) = false := by simp; omega
      simp [this, hm, Option.filter]
    · have : (decide (m < lo) || decide (lo + len ≤ m)) = true := by simp; omega
      simp [this, hm, Option.filter]

end Sys2Proof
end

