-- ==== Sys2Proof/Laws/Lanes.lean ====
section
/-! SUPPORT. Lane masks: membership in a mask, the list of its lanes, and the mask of a list. -/
namespace Sys2Proof.Machine

theorem getLsbD_bitMask (l i : Nat) (hi : i < 64) : (bitMask l).getLsbD i = decide (i = l) := by
  unfold bitMask
  rw [BitVec.getLsbD_ofNat, Nat.testBit_two_pow]
  simp [hi, eq_comm]

theorem mem_upTo (lo n i : Nat) : i ∈ upTo lo n ↔ lo ≤ i ∧ i < lo + n := by
  induction n generalizing lo with
  | zero => simp [upTo]
  | succ n ih => simp only [upTo, List.mem_cons, ih]; omega

theorem nodup_upTo (lo n : Nat) : (upTo lo n).Nodup := by
  induction n generalizing lo with
  | zero => simp [upTo]
  | succ n ih =>
    rw [upTo, List.nodup_cons]
    exact ⟨by rw [mem_upTo]; omega, ih _⟩

/-- The lanes of a mask. -/
theorem mem_lanesOf (m : BitVec 64) (l : Nat) : l ∈ lanesOf m ↔ m.getLsbD l = true := by
  unfold lanesOf
  rw [List.mem_filter, mem_upTo]
  constructor
  · exact fun h => h.2
  · intro h
    exact ⟨⟨Nat.zero_le _, by have := BitVec.lt_of_getLsbD h; omega⟩, h⟩

theorem nodup_lanesOf (m : BitVec 64) : (lanesOf m).Nodup := (nodup_upTo 0 64).filter _

theorem lanesOf_lt {m : BitVec 64} {l : Nat} (h : l ∈ lanesOf m) : l < 64 := BitVec.lt_of_getLsbD ((mem_lanesOf m l).1 h)

@[simp] theorem lanesOf_zero : lanesOf 0 = [] := by decide

/-- A mask with no lane is zero. -/
theorem lanesOf_eq_nil {m : BitVec 64} : lanesOf m = [] ↔ m = 0 := by
  constructor
  · intro h
    apply BitVec.eq_of_getLsbD_eq
    intro i hi
    have : i ∉ lanesOf m := by rw [h]; simp
    rw [mem_lanesOf] at this
    simpa using this
  · rintro rfl; exact lanesOf_zero

theorem getLsbD_foldl_maskOf (ls : List Nat) (m : BitVec 64) (i : Nat) (hi : i < 64) :
    (ls.foldl (fun m l => m ||| bitMask l) m).getLsbD i = (m.getLsbD i || decide (i ∈ ls)) := by
  induction ls generalizing m with
  | nil => simp
  | cons a t ih =>
    rw [List.foldl_cons, ih, BitVec.getLsbD_or, getLsbD_bitMask _ _ hi]
    by_cases h : i = a <;> simp [h]

/-- The mask of a list of lanes. -/
theorem getLsbD_maskOf (ls : List Nat) (i : Nat) (hi : i < 64) : (maskOf ls).getLsbD i = decide (i ∈ ls) := by
  unfold maskOf; rw [getLsbD_foldl_maskOf _ _ _ hi]; simp

/-- The lanes of the mask of one lane. -/
theorem lanesOf_bitMask (l : Nat) (h : l < 64) : lanesOf (bitMask l) = [l] := by
  have hm : ∀ i, i ∈ lanesOf (bitMask l) ↔ i = l := by
    intro i
    rw [mem_lanesOf]
    constructor
    · intro hb
      rw [getLsbD_bitMask _ _ (BitVec.lt_of_getLsbD hb)] at hb
      exact of_decide_eq_true hb
    · rintro rfl; rw [getLsbD_bitMask _ _ h]; simp
  have hn := nodup_lanesOf (bitMask l)
  match hL : lanesOf (bitMask l), hm, hn with
  | [], hm, _ => exact absurd ((hm l).2 rfl) (by simp)
  | [a], hm, _ => rw [(hm a).1 (by simp)]
  | a :: b :: t, hm, hn =>
    have ha := (hm a).1 (by simp)
    have hb := (hm b).1 (by simp)
    exact absurd (show a ∈ b :: t by rw [ha, hb]; simp) (List.nodup_cons.1 hn).1

end Sys2Proof.Machine
end

