-- ==== Sys2Proof/Laws/State.lean ====
section
/-! SUPPORT. What each update of the state leaves of each field: one lemma per field per update. -/
namespace Sys2Proof.Machine

/-! ### setVreg -/
@[simp] theorem setVreg_agenda (s : State) (k n : Nat) (x : Word) : (setVreg s k n x).agenda = s.agenda := rfl
@[simp] theorem setVreg_cur (s : State) (k n : Nat) (x : Word) : (setVreg s k n x).cur = s.cur := rfl
@[simp] theorem setVreg_freeCtr (s : State) (k n : Nat) (x : Word) : (setVreg s k n x).freeCtr = s.freeCtr := rfl
@[simp] theorem setVreg_nextId (s : State) (k n : Nat) (x : Word) : (setVreg s k n x).nextId = s.nextId := rfl
@[simp] theorem setVreg_wall (s : State) (k n : Nat) (x : Word) : (setVreg s k n x).wall = s.wall := rfl
@[simp] theorem setVreg_acs (s : State) (k n : Nat) (x : Word) : (setVreg s k n x).acs = s.acs := rfl
@[simp] theorem setVreg_ports (s : State) (k n : Nat) (x : Word) : (setVreg s k n x).ports = s.ports := rfl
@[simp] theorem setVreg_lanes (s : State) (k n : Nat) (x : Word) : (setVreg s k n x).lanes = s.lanes := rfl
@[simp] theorem setVreg_groups (s : State) (k n : Nat) (x : Word) : (setVreg s k n x).groups = s.groups := rfl
@[simp] theorem setVreg_teams (s : State) (k n : Nat) (x : Word) : (setVreg s k n x).teams = s.teams := rfl
@[simp] theorem setVreg_grids (s : State) (k n : Nat) (x : Word) : (setVreg s k n x).grids = s.grids := rfl
@[simp] theorem setVreg_board (s : State) (k n : Nat) (x : Word) : (setVreg s k n x).board = s.board := rfl
@[simp] theorem setVreg_slots (s : State) (k n : Nat) (x : Word) : (setVreg s k n x).slots = s.slots := rfl
@[simp] theorem setVreg_spm (s : State) (k n : Nat) (x : Word) : (setVreg s k n x).spm = s.spm := rfl
@[simp] theorem setVreg_tiles (s : State) (k n : Nat) (x : Word) : (setVreg s k n x).tiles = s.tiles := rfl
@[simp] theorem setVreg_side (s : State) (k n : Nat) (x : Word) : (setVreg s k n x).side = s.side := rfl
@[simp] theorem setVreg_l1 (s : State) (k n : Nat) (x : Word) : (setVreg s k n x).l1 = s.l1 := rfl
@[simp] theorem setVreg_mem (s : State) (k n : Nat) (x : Word) : (setVreg s k n x).mem = s.mem := rfl
@[simp] theorem setVreg_hdr (s : State) (k n : Nat) (x : Word) : (setVreg s k n x).hdr = s.hdr := rfl
@[simp] theorem setVreg_hostLines (s : State) (k n : Nat) (x : Word) : (setVreg s k n x).hostLines = s.hostLines := rfl
@[simp] theorem setVreg_slices (s : State) (k n : Nat) (x : Word) : (setVreg s k n x).slices = s.slices := rfl
@[simp] theorem setVreg_psel (s : State) (k n : Nat) (x : Word) : (setVreg s k n x).psel = s.psel := rfl
@[simp] theorem setVreg_p1Fills (s : State) (k n : Nat) (x : Word) : (setVreg s k n x).p1Fills = s.p1Fills := rfl
@[simp] theorem setVreg_zeros (s : State) (k n : Nat) (x : Word) : (setVreg s k n x).zeros = s.zeros := rfl
@[simp] theorem setVreg_prm (s : State) (k n : Nat) (x : Word) : (setVreg s k n x).prm = s.prm := rfl
@[simp] theorem setVreg_hostHeld (s : State) (k n : Nat) (x : Word) : (setVreg s k n x).hostHeld = s.hostHeld := rfl
@[simp] theorem setVreg_poison (s : State) (k n : Nat) (x : Word) : (setVreg s k n x).poison = s.poison := rfl
@[simp] theorem setVreg_poisonRegs (s : State) (k n : Nat) (x : Word) : (setVreg s k n x).poisonRegs = s.poisonRegs := rfl
@[simp] theorem setVreg_poisonSpm (s : State) (k n : Nat) (x : Word) : (setVreg s k n x).poisonSpm = s.poisonSpm := rfl
@[simp] theorem setVreg_poisonTiles (s : State) (k n : Nat) (x : Word) : (setVreg s k n x).poisonTiles = s.poisonTiles := rfl
@[simp] theorem setVreg_poisonPages (s : State) (k n : Nat) (x : Word) : (setVreg s k n x).poisonPages = s.poisonPages := rfl
@[simp] theorem setVreg_pages (s : State) (k n : Nat) (x : Word) : (setVreg s k n x).pages = s.pages := rfl
@[simp] theorem setVreg_frames (s : State) (k n : Nat) (x : Word) : (setVreg s k n x).frames = s.frames := rfl
@[simp] theorem setVreg_tlb (s : State) (k n : Nat) (x : Word) : (setVreg s k n x).tlb = s.tlb := rfl
@[simp] theorem setVreg_service (s : State) (k n : Nat) (x : Word) : (setVreg s k n x).service = s.service := rfl
@[simp] theorem setVreg_walks (s : State) (k n : Nat) (x : Word) : (setVreg s k n x).walks = s.walks := rfl
@[simp] theorem setVreg_noPage (s : State) (k n : Nat) (x : Word) : (setVreg s k n x).noPage = s.noPage := rfl
@[simp] theorem setVreg_arenas (s : State) (k n : Nat) (x : Word) : (setVreg s k n x).arenas = s.arenas := rfl
@[simp] theorem setVreg_drops (s : State) (k n : Nat) (x : Word) : (setVreg s k n x).drops = s.drops := rfl
@[simp] theorem setVreg_seals (s : State) (k n : Nat) (x : Word) : (setVreg s k n x).seals = s.seals := rfl
@[simp] theorem setVreg_filters (s : State) (k n : Nat) (x : Word) : (setVreg s k n x).filters = s.filters := rfl
@[simp] theorem setVreg_funcs (s : State) (k n : Nat) (x : Word) : (setVreg s k n x).funcs = s.funcs := rfl
@[simp] theorem setVreg_kernels (s : State) (k n : Nat) (x : Word) : (setVreg s k n x).kernels = s.kernels := rfl
@[simp] theorem setVreg_graphs (s : State) (k n : Nat) (x : Word) : (setVreg s k n x).graphs = s.graphs := rfl
@[simp] theorem setVreg_runs (s : State) (k n : Nat) (x : Word) : (setVreg s k n x).runs = s.runs := rfl
@[simp] theorem setVreg_acc (s : State) (k n : Nat) (x : Word) : (setVreg s k n x).acc = s.acc := rfl
@[simp] theorem setVreg_atoms (s : State) (k n : Nat) (x : Word) : (setVreg s k n x).atoms = s.atoms := rfl
@[simp] theorem setVreg_results (s : State) (k n : Nat) (x : Word) : (setVreg s k n x).results = s.results := rfl
@[simp] theorem setVreg_mops (s : State) (k n : Nat) (x : Word) : (setVreg s k n x).mops = s.mops := rfl
@[simp] theorem setVreg_posts (s : State) (k n : Nat) (x : Word) : (setVreg s k n x).posts = s.posts := rfl
@[simp] theorem setVreg_parks (s : State) (k n : Nat) (x : Word) : (setVreg s k n x).parks = s.parks := rfl
@[simp] theorem setVreg_tags (s : State) (k n : Nat) (x : Word) : (setVreg s k n x).tags = s.tags := rfl
@[simp] theorem setVreg_bins (s : State) (k n : Nat) (x : Word) : (setVreg s k n x).bins = s.bins := rfl
@[simp] theorem setVreg_heldConts (s : State) (k n : Nat) (x : Word) : (setVreg s k n x).heldConts = s.heldConts := rfl
@[simp] theorem setVreg_engs (s : State) (k n : Nat) (x : Word) : (setVreg s k n x).engs = s.engs := rfl
@[simp] theorem setVreg_colls (s : State) (k n : Nat) (x : Word) : (setVreg s k n x).colls = s.colls := rfl
@[simp] theorem setVreg_msgs (s : State) (k n : Nat) (x : Word) : (setVreg s k n x).msgs = s.msgs := rfl
@[simp] theorem setVreg_recvs (s : State) (k n : Nat) (x : Word) : (setVreg s k n x).recvs = s.recvs := rfl
@[simp] theorem setVreg_queues (s : State) (k n : Nat) (x : Word) : (setVreg s k n x).queues = s.queues := rfl
@[simp] theorem setVreg_detached (s : State) (k n : Nat) (x : Word) : (setVreg s k n x).detached = s.detached := rfl
@[simp] theorem setVreg_preempts (s : State) (k n : Nat) (x : Word) : (setVreg s k n x).preempts = s.preempts := rfl
@[simp] theorem setVreg_images (s : State) (k n : Nat) (x : Word) : (setVreg s k n x).images = s.images := rfl
@[simp] theorem setVreg_loans (s : State) (k n : Nat) (x : Word) : (setVreg s k n x).loans = s.loans := rfl
@[simp] theorem setVreg_idleSince (s : State) (k n : Nat) (x : Word) : (setVreg s k n x).idleSince = s.idleSince := rfl
@[simp] theorem setVreg_available (s : State) (k n : Nat) (x : Word) : (setVreg s k n x).available = s.available := rfl
@[simp] theorem setVreg_smap (s : State) (k n : Nat) (x : Word) : (setVreg s k n x).smap = s.smap := rfl
@[simp] theorem setVreg_softErr (s : State) (k n : Nat) (x : Word) : (setVreg s k n x).softErr = s.softErr := rfl
@[simp] theorem setVreg_dieDown (s : State) (k n : Nat) (x : Word) : (setVreg s k n x).dieDown = s.dieDown := rfl
@[simp] theorem setVreg_sramDown (s : State) (k n : Nat) (x : Word) : (setVreg s k n x).sramDown = s.sramDown := rfl
@[simp] theorem setVreg_throttle (s : State) (k n : Nat) (x : Word) : (setVreg s k n x).throttle = s.throttle := rfl
@[simp] theorem setVreg_power (s : State) (k n : Nat) (x : Word) : (setVreg s k n x).power = s.power := rfl
@[simp] theorem setVreg_below (s : State) (k n : Nat) (x : Word) : (setVreg s k n x).below = s.below := rfl
@[simp] theorem setVreg_temps (s : State) (k n : Nat) (x : Word) : (setVreg s k n x).temps = s.temps := rfl
@[simp] theorem setVreg_linksDown (s : State) (k n : Nat) (x : Word) : (setVreg s k n x).linksDown = s.linksDown := rfl
@[simp] theorem setVreg_linkSeq (s : State) (k n : Nat) (x : Word) : (setVreg s k n x).linkSeq = s.linkSeq := rfl
@[simp] theorem setVreg_linkRx (s : State) (k n : Nat) (x : Word) : (setVreg s k n x).linkRx = s.linkRx := rfl
@[simp] theorem setVreg_linkMsgs (s : State) (k n : Nat) (x : Word) : (setVreg s k n x).linkMsgs = s.linkMsgs := rfl
@[simp] theorem setVreg_linkTx (s : State) (k n : Nat) (x : Word) : (setVreg s k n x).linkTx = s.linkTx := rfl
@[simp] theorem setVreg_linkTxSeq (s : State) (k n : Nat) (x : Word) : (setVreg s k n x).linkTxSeq = s.linkTxSeq := rfl
@[simp] theorem setVreg_linkFwd (s : State) (k n : Nat) (x : Word) : (setVreg s k n x).linkFwd = s.linkFwd := rfl
@[simp] theorem setVreg_hostDown (s : State) (k n : Nat) (x : Word) : (setVreg s k n x).hostDown = s.hostDown := rfl
@[simp] theorem setVreg_msix (s : State) (k n : Nat) (x : Word) : (setVreg s k n x).msix = s.msix := rfl
@[simp] theorem setVreg_flashA (s : State) (k n : Nat) (x : Word) : (setVreg s k n x).flashA = s.flashA := rfl
@[simp] theorem setVreg_flashB (s : State) (k n : Nat) (x : Word) : (setVreg s k n x).flashB = s.flashB := rfl
@[simp] theorem setVreg_flashCtr (s : State) (k n : Nat) (x : Word) : (setVreg s k n x).flashCtr = s.flashCtr := rfl
@[simp] theorem setVreg_record (s : State) (k n : Nat) (x : Word) : (setVreg s k n x).record = s.record := rfl
@[simp] theorem setVreg_pwrOk (s : State) (k n : Nat) (x : Word) : (setVreg s k n x).pwrOk = s.pwrOk := rfl
@[simp] theorem setVreg_up (s : State) (k n : Nat) (x : Word) : (setVreg s k n x).up = s.up := rfl
@[simp] theorem setVreg_sbOut (s : State) (k n : Nat) (x : Word) : (setVreg s k n x).sbOut = s.sbOut := rfl

/-! ### modLane -/
@[simp] theorem modLane_agenda (s : State) (k : Nat) (f : Lane → Lane) : (modLane s k f).agenda = s.agenda := by unfold modLane; split <;> rfl
@[simp] theorem modLane_cur (s : State) (k : Nat) (f : Lane → Lane) : (modLane s k f).cur = s.cur := by unfold modLane; split <;> rfl
@[simp] theorem modLane_freeCtr (s : State) (k : Nat) (f : Lane → Lane) : (modLane s k f).freeCtr = s.freeCtr := by unfold modLane; split <;> rfl
@[simp] theorem modLane_nextId (s : State) (k : Nat) (f : Lane → Lane) : (modLane s k f).nextId = s.nextId := by unfold modLane; split <;> rfl
@[simp] theorem modLane_wall (s : State) (k : Nat) (f : Lane → Lane) : (modLane s k f).wall = s.wall := by unfold modLane; split <;> rfl
@[simp] theorem modLane_acs (s : State) (k : Nat) (f : Lane → Lane) : (modLane s k f).acs = s.acs := by unfold modLane; split <;> rfl
@[simp] theorem modLane_ports (s : State) (k : Nat) (f : Lane → Lane) : (modLane s k f).ports = s.ports := by unfold modLane; split <;> rfl
@[simp] theorem modLane_vregs (s : State) (k : Nat) (f : Lane → Lane) : (modLane s k f).vregs = s.vregs := by unfold modLane; split <;> rfl
@[simp] theorem modLane_groups (s : State) (k : Nat) (f : Lane → Lane) : (modLane s k f).groups = s.groups := by unfold modLane; split <;> rfl
@[simp] theorem modLane_teams (s : State) (k : Nat) (f : Lane → Lane) : (modLane s k f).teams = s.teams := by unfold modLane; split <;> rfl
@[simp] theorem modLane_grids (s : State) (k : Nat) (f : Lane → Lane) : (modLane s k f).grids = s.grids := by unfold modLane; split <;> rfl
@[simp] theorem modLane_board (s : State) (k : Nat) (f : Lane → Lane) : (modLane s k f).board = s.board := by unfold modLane; split <;> rfl
@[simp] theorem modLane_slots (s : State) (k : Nat) (f : Lane → Lane) : (modLane s k f).slots = s.slots := by unfold modLane; split <;> rfl
@[simp] theorem modLane_spm (s : State) (k : Nat) (f : Lane → Lane) : (modLane s k f).spm = s.spm := by unfold modLane; split <;> rfl
@[simp] theorem modLane_tiles (s : State) (k : Nat) (f : Lane → Lane) : (modLane s k f).tiles = s.tiles := by unfold modLane; split <;> rfl
@[simp] theorem modLane_side (s : State) (k : Nat) (f : Lane → Lane) : (modLane s k f).side = s.side := by unfold modLane; split <;> rfl
@[simp] theorem modLane_l1 (s : State) (k : Nat) (f : Lane → Lane) : (modLane s k f).l1 = s.l1 := by unfold modLane; split <;> rfl
@[simp] theorem modLane_mem (s : State) (k : Nat) (f : Lane → Lane) : (modLane s k f).mem = s.mem := by unfold modLane; split <;> rfl
@[simp] theorem modLane_hdr (s : State) (k : Nat) (f : Lane → Lane) : (modLane s k f).hdr = s.hdr := by unfold modLane; split <;> rfl
@[simp] theorem modLane_hostLines (s : State) (k : Nat) (f : Lane → Lane) : (modLane s k f).hostLines = s.hostLines := by unfold modLane; split <;> rfl
@[simp] theorem modLane_slices (s : State) (k : Nat) (f : Lane → Lane) : (modLane s k f).slices = s.slices := by unfold modLane; split <;> rfl
@[simp] theorem modLane_psel (s : State) (k : Nat) (f : Lane → Lane) : (modLane s k f).psel = s.psel := by unfold modLane; split <;> rfl
@[simp] theorem modLane_p1Fills (s : State) (k : Nat) (f : Lane → Lane) : (modLane s k f).p1Fills = s.p1Fills := by unfold modLane; split <;> rfl
@[simp] theorem modLane_zeros (s : State) (k : Nat) (f : Lane → Lane) : (modLane s k f).zeros = s.zeros := by unfold modLane; split <;> rfl
@[simp] theorem modLane_prm (s : State) (k : Nat) (f : Lane → Lane) : (modLane s k f).prm = s.prm := by unfold modLane; split <;> rfl
@[simp] theorem modLane_hostHeld (s : State) (k : Nat) (f : Lane → Lane) : (modLane s k f).hostHeld = s.hostHeld := by unfold modLane; split <;> rfl
@[simp] theorem modLane_poison (s : State) (k : Nat) (f : Lane → Lane) : (modLane s k f).poison = s.poison := by unfold modLane; split <;> rfl
@[simp] theorem modLane_poisonRegs (s : State) (k : Nat) (f : Lane → Lane) : (modLane s k f).poisonRegs = s.poisonRegs := by unfold modLane; split <;> rfl
@[simp] theorem modLane_poisonSpm (s : State) (k : Nat) (f : Lane → Lane) : (modLane s k f).poisonSpm = s.poisonSpm := by unfold modLane; split <;> rfl
@[simp] theorem modLane_poisonTiles (s : State) (k : Nat) (f : Lane → Lane) : (modLane s k f).poisonTiles = s.poisonTiles := by unfold modLane; split <;> rfl
@[simp] theorem modLane_poisonPages (s : State) (k : Nat) (f : Lane → Lane) : (modLane s k f).poisonPages = s.poisonPages := by unfold modLane; split <;> rfl
@[simp] theorem modLane_pages (s : State) (k : Nat) (f : Lane → Lane) : (modLane s k f).pages = s.pages := by unfold modLane; split <;> rfl
@[simp] theorem modLane_frames (s : State) (k : Nat) (f : Lane → Lane) : (modLane s k f).frames = s.frames := by unfold modLane; split <;> rfl
@[simp] theorem modLane_tlb (s : State) (k : Nat) (f : Lane → Lane) : (modLane s k f).tlb = s.tlb := by unfold modLane; split <;> rfl
@[simp] theorem modLane_service (s : State) (k : Nat) (f : Lane → Lane) : (modLane s k f).service = s.service := by unfold modLane; split <;> rfl
@[simp] theorem modLane_walks (s : State) (k : Nat) (f : Lane → Lane) : (modLane s k f).walks = s.walks := by unfold modLane; split <;> rfl
@[simp] theorem modLane_noPage (s : State) (k : Nat) (f : Lane → Lane) : (modLane s k f).noPage = s.noPage := by unfold modLane; split <;> rfl
@[simp] theorem modLane_arenas (s : State) (k : Nat) (f : Lane → Lane) : (modLane s k f).arenas = s.arenas := by unfold modLane; split <;> rfl
@[simp] theorem modLane_drops (s : State) (k : Nat) (f : Lane → Lane) : (modLane s k f).drops = s.drops := by unfold modLane; split <;> rfl
@[simp] theorem modLane_seals (s : State) (k : Nat) (f : Lane → Lane) : (modLane s k f).seals = s.seals := by unfold modLane; split <;> rfl
@[simp] theorem modLane_filters (s : State) (k : Nat) (f : Lane → Lane) : (modLane s k f).filters = s.filters := by unfold modLane; split <;> rfl
@[simp] theorem modLane_funcs (s : State) (k : Nat) (f : Lane → Lane) : (modLane s k f).funcs = s.funcs := by unfold modLane; split <;> rfl
@[simp] theorem modLane_kernels (s : State) (k : Nat) (f : Lane → Lane) : (modLane s k f).kernels = s.kernels := by unfold modLane; split <;> rfl
@[simp] theorem modLane_graphs (s : State) (k : Nat) (f : Lane → Lane) : (modLane s k f).graphs = s.graphs := by unfold modLane; split <;> rfl
@[simp] theorem modLane_runs (s : State) (k : Nat) (f : Lane → Lane) : (modLane s k f).runs = s.runs := by unfold modLane; split <;> rfl
@[simp] theorem modLane_acc (s : State) (k : Nat) (f : Lane → Lane) : (modLane s k f).acc = s.acc := by unfold modLane; split <;> rfl
@[simp] theorem modLane_atoms (s : State) (k : Nat) (f : Lane → Lane) : (modLane s k f).atoms = s.atoms := by unfold modLane; split <;> rfl
@[simp] theorem modLane_results (s : State) (k : Nat) (f : Lane → Lane) : (modLane s k f).results = s.results := by unfold modLane; split <;> rfl
@[simp] theorem modLane_mops (s : State) (k : Nat) (f : Lane → Lane) : (modLane s k f).mops = s.mops := by unfold modLane; split <;> rfl
@[simp] theorem modLane_posts (s : State) (k : Nat) (f : Lane → Lane) : (modLane s k f).posts = s.posts := by unfold modLane; split <;> rfl
@[simp] theorem modLane_parks (s : State) (k : Nat) (f : Lane → Lane) : (modLane s k f).parks = s.parks := by unfold modLane; split <;> rfl
@[simp] theorem modLane_tags (s : State) (k : Nat) (f : Lane → Lane) : (modLane s k f).tags = s.tags := by unfold modLane; split <;> rfl
@[simp] theorem modLane_bins (s : State) (k : Nat) (f : Lane → Lane) : (modLane s k f).bins = s.bins := by unfold modLane; split <;> rfl
@[simp] theorem modLane_heldConts (s : State) (k : Nat) (f : Lane → Lane) : (modLane s k f).heldConts = s.heldConts := by unfold modLane; split <;> rfl
@[simp] theorem modLane_engs (s : State) (k : Nat) (f : Lane → Lane) : (modLane s k f).engs = s.engs := by unfold modLane; split <;> rfl
@[simp] theorem modLane_colls (s : State) (k : Nat) (f : Lane → Lane) : (modLane s k f).colls = s.colls := by unfold modLane; split <;> rfl
@[simp] theorem modLane_msgs (s : State) (k : Nat) (f : Lane → Lane) : (modLane s k f).msgs = s.msgs := by unfold modLane; split <;> rfl
@[simp] theorem modLane_recvs (s : State) (k : Nat) (f : Lane → Lane) : (modLane s k f).recvs = s.recvs := by unfold modLane; split <;> rfl
@[simp] theorem modLane_queues (s : State) (k : Nat) (f : Lane → Lane) : (modLane s k f).queues = s.queues := by unfold modLane; split <;> rfl
@[simp] theorem modLane_detached (s : State) (k : Nat) (f : Lane → Lane) : (modLane s k f).detached = s.detached := by unfold modLane; split <;> rfl
@[simp] theorem modLane_preempts (s : State) (k : Nat) (f : Lane → Lane) : (modLane s k f).preempts = s.preempts := by unfold modLane; split <;> rfl
@[simp] theorem modLane_images (s : State) (k : Nat) (f : Lane → Lane) : (modLane s k f).images = s.images := by unfold modLane; split <;> rfl
@[simp] theorem modLane_loans (s : State) (k : Nat) (f : Lane → Lane) : (modLane s k f).loans = s.loans := by unfold modLane; split <;> rfl
@[simp] theorem modLane_idleSince (s : State) (k : Nat) (f : Lane → Lane) : (modLane s k f).idleSince = s.idleSince := by unfold modLane; split <;> rfl
@[simp] theorem modLane_available (s : State) (k : Nat) (f : Lane → Lane) : (modLane s k f).available = s.available := by unfold modLane; split <;> rfl
@[simp] theorem modLane_smap (s : State) (k : Nat) (f : Lane → Lane) : (modLane s k f).smap = s.smap := by unfold modLane; split <;> rfl
@[simp] theorem modLane_softErr (s : State) (k : Nat) (f : Lane → Lane) : (modLane s k f).softErr = s.softErr := by unfold modLane; split <;> rfl
@[simp] theorem modLane_dieDown (s : State) (k : Nat) (f : Lane → Lane) : (modLane s k f).dieDown = s.dieDown := by unfold modLane; split <;> rfl
@[simp] theorem modLane_sramDown (s : State) (k : Nat) (f : Lane → Lane) : (modLane s k f).sramDown = s.sramDown := by unfold modLane; split <;> rfl
@[simp] theorem modLane_throttle (s : State) (k : Nat) (f : Lane → Lane) : (modLane s k f).throttle = s.throttle := by unfold modLane; split <;> rfl
@[simp] theorem modLane_power (s : State) (k : Nat) (f : Lane → Lane) : (modLane s k f).power = s.power := by unfold modLane; split <;> rfl
@[simp] theorem modLane_below (s : State) (k : Nat) (f : Lane → Lane) : (modLane s k f).below = s.below := by unfold modLane; split <;> rfl
@[simp] theorem modLane_temps (s : State) (k : Nat) (f : Lane → Lane) : (modLane s k f).temps = s.temps := by unfold modLane; split <;> rfl
@[simp] theorem modLane_linksDown (s : State) (k : Nat) (f : Lane → Lane) : (modLane s k f).linksDown = s.linksDown := by unfold modLane; split <;> rfl
@[simp] theorem modLane_linkSeq (s : State) (k : Nat) (f : Lane → Lane) : (modLane s k f).linkSeq = s.linkSeq := by unfold modLane; split <;> rfl
@[simp] theorem modLane_linkRx (s : State) (k : Nat) (f : Lane → Lane) : (modLane s k f).linkRx = s.linkRx := by unfold modLane; split <;> rfl
@[simp] theorem modLane_linkMsgs (s : State) (k : Nat) (f : Lane → Lane) : (modLane s k f).linkMsgs = s.linkMsgs := by unfold modLane; split <;> rfl
@[simp] theorem modLane_linkTx (s : State) (k : Nat) (f : Lane → Lane) : (modLane s k f).linkTx = s.linkTx := by unfold modLane; split <;> rfl
@[simp] theorem modLane_linkTxSeq (s : State) (k : Nat) (f : Lane → Lane) : (modLane s k f).linkTxSeq = s.linkTxSeq := by unfold modLane; split <;> rfl
@[simp] theorem modLane_linkFwd (s : State) (k : Nat) (f : Lane → Lane) : (modLane s k f).linkFwd = s.linkFwd := by unfold modLane; split <;> rfl
@[simp] theorem modLane_hostDown (s : State) (k : Nat) (f : Lane → Lane) : (modLane s k f).hostDown = s.hostDown := by unfold modLane; split <;> rfl
@[simp] theorem modLane_msix (s : State) (k : Nat) (f : Lane → Lane) : (modLane s k f).msix = s.msix := by unfold modLane; split <;> rfl
@[simp] theorem modLane_flashA (s : State) (k : Nat) (f : Lane → Lane) : (modLane s k f).flashA = s.flashA := by unfold modLane; split <;> rfl
@[simp] theorem modLane_flashB (s : State) (k : Nat) (f : Lane → Lane) : (modLane s k f).flashB = s.flashB := by unfold modLane; split <;> rfl
@[simp] theorem modLane_flashCtr (s : State) (k : Nat) (f : Lane → Lane) : (modLane s k f).flashCtr = s.flashCtr := by unfold modLane; split <;> rfl
@[simp] theorem modLane_record (s : State) (k : Nat) (f : Lane → Lane) : (modLane s k f).record = s.record := by unfold modLane; split <;> rfl
@[simp] theorem modLane_pwrOk (s : State) (k : Nat) (f : Lane → Lane) : (modLane s k f).pwrOk = s.pwrOk := by unfold modLane; split <;> rfl
@[simp] theorem modLane_up (s : State) (k : Nat) (f : Lane → Lane) : (modLane s k f).up = s.up := by unfold modLane; split <;> rfl
@[simp] theorem modLane_sbOut (s : State) (k : Nat) (f : Lane → Lane) : (modLane s k f).sbOut = s.sbOut := by unfold modLane; split <;> rfl

/-! ### setPreg -/
@[simp] theorem setPreg_agenda (s : State) (k n : Nat) (b : Bool) : (setPreg s k n b).agenda = s.agenda := modLane_agenda s k _
@[simp] theorem setPreg_cur (s : State) (k n : Nat) (b : Bool) : (setPreg s k n b).cur = s.cur := modLane_cur s k _
@[simp] theorem setPreg_freeCtr (s : State) (k n : Nat) (b : Bool) : (setPreg s k n b).freeCtr = s.freeCtr := modLane_freeCtr s k _
@[simp] theorem setPreg_nextId (s : State) (k n : Nat) (b : Bool) : (setPreg s k n b).nextId = s.nextId := modLane_nextId s k _
@[simp] theorem setPreg_wall (s : State) (k n : Nat) (b : Bool) : (setPreg s k n b).wall = s.wall := modLane_wall s k _
@[simp] theorem setPreg_acs (s : State) (k n : Nat) (b : Bool) : (setPreg s k n b).acs = s.acs := modLane_acs s k _
@[simp] theorem setPreg_ports (s : State) (k n : Nat) (b : Bool) : (setPreg s k n b).ports = s.ports := modLane_ports s k _
@[simp] theorem setPreg_vregs (s : State) (k n : Nat) (b : Bool) : (setPreg s k n b).vregs = s.vregs := modLane_vregs s k _
@[simp] theorem setPreg_groups (s : State) (k n : Nat) (b : Bool) : (setPreg s k n b).groups = s.groups := modLane_groups s k _
@[simp] theorem setPreg_teams (s : State) (k n : Nat) (b : Bool) : (setPreg s k n b).teams = s.teams := modLane_teams s k _
@[simp] theorem setPreg_grids (s : State) (k n : Nat) (b : Bool) : (setPreg s k n b).grids = s.grids := modLane_grids s k _
@[simp] theorem setPreg_board (s : State) (k n : Nat) (b : Bool) : (setPreg s k n b).board = s.board := modLane_board s k _
@[simp] theorem setPreg_slots (s : State) (k n : Nat) (b : Bool) : (setPreg s k n b).slots = s.slots := modLane_slots s k _
@[simp] theorem setPreg_spm (s : State) (k n : Nat) (b : Bool) : (setPreg s k n b).spm = s.spm := modLane_spm s k _
@[simp] theorem setPreg_tiles (s : State) (k n : Nat) (b : Bool) : (setPreg s k n b).tiles = s.tiles := modLane_tiles s k _
@[simp] theorem setPreg_side (s : State) (k n : Nat) (b : Bool) : (setPreg s k n b).side = s.side := modLane_side s k _
@[simp] theorem setPreg_l1 (s : State) (k n : Nat) (b : Bool) : (setPreg s k n b).l1 = s.l1 := modLane_l1 s k _
@[simp] theorem setPreg_mem (s : State) (k n : Nat) (b : Bool) : (setPreg s k n b).mem = s.mem := modLane_mem s k _
@[simp] theorem setPreg_hdr (s : State) (k n : Nat) (b : Bool) : (setPreg s k n b).hdr = s.hdr := modLane_hdr s k _
@[simp] theorem setPreg_hostLines (s : State) (k n : Nat) (b : Bool) : (setPreg s k n b).hostLines = s.hostLines := modLane_hostLines s k _
@[simp] theorem setPreg_slices (s : State) (k n : Nat) (b : Bool) : (setPreg s k n b).slices = s.slices := modLane_slices s k _
@[simp] theorem setPreg_psel (s : State) (k n : Nat) (b : Bool) : (setPreg s k n b).psel = s.psel := modLane_psel s k _
@[simp] theorem setPreg_p1Fills (s : State) (k n : Nat) (b : Bool) : (setPreg s k n b).p1Fills = s.p1Fills := modLane_p1Fills s k _
@[simp] theorem setPreg_zeros (s : State) (k n : Nat) (b : Bool) : (setPreg s k n b).zeros = s.zeros := modLane_zeros s k _
@[simp] theorem setPreg_prm (s : State) (k n : Nat) (b : Bool) : (setPreg s k n b).prm = s.prm := modLane_prm s k _
@[simp] theorem setPreg_hostHeld (s : State) (k n : Nat) (b : Bool) : (setPreg s k n b).hostHeld = s.hostHeld := modLane_hostHeld s k _
@[simp] theorem setPreg_poison (s : State) (k n : Nat) (b : Bool) : (setPreg s k n b).poison = s.poison := modLane_poison s k _
@[simp] theorem setPreg_poisonRegs (s : State) (k n : Nat) (b : Bool) : (setPreg s k n b).poisonRegs = s.poisonRegs := modLane_poisonRegs s k _
@[simp] theorem setPreg_poisonSpm (s : State) (k n : Nat) (b : Bool) : (setPreg s k n b).poisonSpm = s.poisonSpm := modLane_poisonSpm s k _
@[simp] theorem setPreg_poisonTiles (s : State) (k n : Nat) (b : Bool) : (setPreg s k n b).poisonTiles = s.poisonTiles := modLane_poisonTiles s k _
@[simp] theorem setPreg_poisonPages (s : State) (k n : Nat) (b : Bool) : (setPreg s k n b).poisonPages = s.poisonPages := modLane_poisonPages s k _
@[simp] theorem setPreg_pages (s : State) (k n : Nat) (b : Bool) : (setPreg s k n b).pages = s.pages := modLane_pages s k _
@[simp] theorem setPreg_frames (s : State) (k n : Nat) (b : Bool) : (setPreg s k n b).frames = s.frames := modLane_frames s k _
@[simp] theorem setPreg_tlb (s : State) (k n : Nat) (b : Bool) : (setPreg s k n b).tlb = s.tlb := modLane_tlb s k _
@[simp] theorem setPreg_service (s : State) (k n : Nat) (b : Bool) : (setPreg s k n b).service = s.service := modLane_service s k _
@[simp] theorem setPreg_walks (s : State) (k n : Nat) (b : Bool) : (setPreg s k n b).walks = s.walks := modLane_walks s k _
@[simp] theorem setPreg_noPage (s : State) (k n : Nat) (b : Bool) : (setPreg s k n b).noPage = s.noPage := modLane_noPage s k _
@[simp] theorem setPreg_arenas (s : State) (k n : Nat) (b : Bool) : (setPreg s k n b).arenas = s.arenas := modLane_arenas s k _
@[simp] theorem setPreg_drops (s : State) (k n : Nat) (b : Bool) : (setPreg s k n b).drops = s.drops := modLane_drops s k _
@[simp] theorem setPreg_seals (s : State) (k n : Nat) (b : Bool) : (setPreg s k n b).seals = s.seals := modLane_seals s k _
@[simp] theorem setPreg_filters (s : State) (k n : Nat) (b : Bool) : (setPreg s k n b).filters = s.filters := modLane_filters s k _
@[simp] theorem setPreg_funcs (s : State) (k n : Nat) (b : Bool) : (setPreg s k n b).funcs = s.funcs := modLane_funcs s k _
@[simp] theorem setPreg_kernels (s : State) (k n : Nat) (b : Bool) : (setPreg s k n b).kernels = s.kernels := modLane_kernels s k _
@[simp] theorem setPreg_graphs (s : State) (k n : Nat) (b : Bool) : (setPreg s k n b).graphs = s.graphs := modLane_graphs s k _
@[simp] theorem setPreg_runs (s : State) (k n : Nat) (b : Bool) : (setPreg s k n b).runs = s.runs := modLane_runs s k _
@[simp] theorem setPreg_acc (s : State) (k n : Nat) (b : Bool) : (setPreg s k n b).acc = s.acc := modLane_acc s k _
@[simp] theorem setPreg_atoms (s : State) (k n : Nat) (b : Bool) : (setPreg s k n b).atoms = s.atoms := modLane_atoms s k _
@[simp] theorem setPreg_results (s : State) (k n : Nat) (b : Bool) : (setPreg s k n b).results = s.results := modLane_results s k _
@[simp] theorem setPreg_mops (s : State) (k n : Nat) (b : Bool) : (setPreg s k n b).mops = s.mops := modLane_mops s k _
@[simp] theorem setPreg_posts (s : State) (k n : Nat) (b : Bool) : (setPreg s k n b).posts = s.posts := modLane_posts s k _
@[simp] theorem setPreg_parks (s : State) (k n : Nat) (b : Bool) : (setPreg s k n b).parks = s.parks := modLane_parks s k _
@[simp] theorem setPreg_tags (s : State) (k n : Nat) (b : Bool) : (setPreg s k n b).tags = s.tags := modLane_tags s k _
@[simp] theorem setPreg_bins (s : State) (k n : Nat) (b : Bool) : (setPreg s k n b).bins = s.bins := modLane_bins s k _
@[simp] theorem setPreg_heldConts (s : State) (k n : Nat) (b : Bool) : (setPreg s k n b).heldConts = s.heldConts := modLane_heldConts s k _
@[simp] theorem setPreg_engs (s : State) (k n : Nat) (b : Bool) : (setPreg s k n b).engs = s.engs := modLane_engs s k _
@[simp] theorem setPreg_colls (s : State) (k n : Nat) (b : Bool) : (setPreg s k n b).colls = s.colls := modLane_colls s k _
@[simp] theorem setPreg_msgs (s : State) (k n : Nat) (b : Bool) : (setPreg s k n b).msgs = s.msgs := modLane_msgs s k _
@[simp] theorem setPreg_recvs (s : State) (k n : Nat) (b : Bool) : (setPreg s k n b).recvs = s.recvs := modLane_recvs s k _
@[simp] theorem setPreg_queues (s : State) (k n : Nat) (b : Bool) : (setPreg s k n b).queues = s.queues := modLane_queues s k _
@[simp] theorem setPreg_detached (s : State) (k n : Nat) (b : Bool) : (setPreg s k n b).detached = s.detached := modLane_detached s k _
@[simp] theorem setPreg_preempts (s : State) (k n : Nat) (b : Bool) : (setPreg s k n b).preempts = s.preempts := modLane_preempts s k _
@[simp] theorem setPreg_images (s : State) (k n : Nat) (b : Bool) : (setPreg s k n b).images = s.images := modLane_images s k _
@[simp] theorem setPreg_loans (s : State) (k n : Nat) (b : Bool) : (setPreg s k n b).loans = s.loans := modLane_loans s k _
@[simp] theorem setPreg_idleSince (s : State) (k n : Nat) (b : Bool) : (setPreg s k n b).idleSince = s.idleSince := modLane_idleSince s k _
@[simp] theorem setPreg_available (s : State) (k n : Nat) (b : Bool) : (setPreg s k n b).available = s.available := modLane_available s k _
@[simp] theorem setPreg_smap (s : State) (k n : Nat) (b : Bool) : (setPreg s k n b).smap = s.smap := modLane_smap s k _
@[simp] theorem setPreg_softErr (s : State) (k n : Nat) (b : Bool) : (setPreg s k n b).softErr = s.softErr := modLane_softErr s k _
@[simp] theorem setPreg_dieDown (s : State) (k n : Nat) (b : Bool) : (setPreg s k n b).dieDown = s.dieDown := modLane_dieDown s k _
@[simp] theorem setPreg_sramDown (s : State) (k n : Nat) (b : Bool) : (setPreg s k n b).sramDown = s.sramDown := modLane_sramDown s k _
@[simp] theorem setPreg_throttle (s : State) (k n : Nat) (b : Bool) : (setPreg s k n b).throttle = s.throttle := modLane_throttle s k _
@[simp] theorem setPreg_power (s : State) (k n : Nat) (b : Bool) : (setPreg s k n b).power = s.power := modLane_power s k _
@[simp] theorem setPreg_below (s : State) (k n : Nat) (b : Bool) : (setPreg s k n b).below = s.below := modLane_below s k _
@[simp] theorem setPreg_temps (s : State) (k n : Nat) (b : Bool) : (setPreg s k n b).temps = s.temps := modLane_temps s k _
@[simp] theorem setPreg_linksDown (s : State) (k n : Nat) (b : Bool) : (setPreg s k n b).linksDown = s.linksDown := modLane_linksDown s k _
@[simp] theorem setPreg_linkSeq (s : State) (k n : Nat) (b : Bool) : (setPreg s k n b).linkSeq = s.linkSeq := modLane_linkSeq s k _
@[simp] theorem setPreg_linkRx (s : State) (k n : Nat) (b : Bool) : (setPreg s k n b).linkRx = s.linkRx := modLane_linkRx s k _
@[simp] theorem setPreg_linkMsgs (s : State) (k n : Nat) (b : Bool) : (setPreg s k n b).linkMsgs = s.linkMsgs := modLane_linkMsgs s k _
@[simp] theorem setPreg_linkTx (s : State) (k n : Nat) (b : Bool) : (setPreg s k n b).linkTx = s.linkTx := modLane_linkTx s k _
@[simp] theorem setPreg_linkTxSeq (s : State) (k n : Nat) (b : Bool) : (setPreg s k n b).linkTxSeq = s.linkTxSeq := modLane_linkTxSeq s k _
@[simp] theorem setPreg_linkFwd (s : State) (k n : Nat) (b : Bool) : (setPreg s k n b).linkFwd = s.linkFwd := modLane_linkFwd s k _
@[simp] theorem setPreg_hostDown (s : State) (k n : Nat) (b : Bool) : (setPreg s k n b).hostDown = s.hostDown := modLane_hostDown s k _
@[simp] theorem setPreg_msix (s : State) (k n : Nat) (b : Bool) : (setPreg s k n b).msix = s.msix := modLane_msix s k _
@[simp] theorem setPreg_flashA (s : State) (k n : Nat) (b : Bool) : (setPreg s k n b).flashA = s.flashA := modLane_flashA s k _
@[simp] theorem setPreg_flashB (s : State) (k n : Nat) (b : Bool) : (setPreg s k n b).flashB = s.flashB := modLane_flashB s k _
@[simp] theorem setPreg_flashCtr (s : State) (k n : Nat) (b : Bool) : (setPreg s k n b).flashCtr = s.flashCtr := modLane_flashCtr s k _
@[simp] theorem setPreg_record (s : State) (k n : Nat) (b : Bool) : (setPreg s k n b).record = s.record := modLane_record s k _
@[simp] theorem setPreg_pwrOk (s : State) (k n : Nat) (b : Bool) : (setPreg s k n b).pwrOk = s.pwrOk := modLane_pwrOk s k _
@[simp] theorem setPreg_up (s : State) (k n : Nat) (b : Bool) : (setPreg s k n b).up = s.up := modLane_up s k _
@[simp] theorem setPreg_sbOut (s : State) (k n : Nat) (b : Bool) : (setPreg s k n b).sbOut = s.sbOut := modLane_sbOut s k _

/-! ### modGroup -/
@[simp] theorem modGroup_agenda (s : State) (g : Nat) (f : Group → Group) : (modGroup s g f).agenda = s.agenda := by unfold modGroup; split <;> rfl
@[simp] theorem modGroup_cur (s : State) (g : Nat) (f : Group → Group) : (modGroup s g f).cur = s.cur := by unfold modGroup; split <;> rfl
@[simp] theorem modGroup_freeCtr (s : State) (g : Nat) (f : Group → Group) : (modGroup s g f).freeCtr = s.freeCtr := by unfold modGroup; split <;> rfl
@[simp] theorem modGroup_nextId (s : State) (g : Nat) (f : Group → Group) : (modGroup s g f).nextId = s.nextId := by unfold modGroup; split <;> rfl
@[simp] theorem modGroup_wall (s : State) (g : Nat) (f : Group → Group) : (modGroup s g f).wall = s.wall := by unfold modGroup; split <;> rfl
@[simp] theorem modGroup_acs (s : State) (g : Nat) (f : Group → Group) : (modGroup s g f).acs = s.acs := by unfold modGroup; split <;> rfl
@[simp] theorem modGroup_ports (s : State) (g : Nat) (f : Group → Group) : (modGroup s g f).ports = s.ports := by unfold modGroup; split <;> rfl
@[simp] theorem modGroup_vregs (s : State) (g : Nat) (f : Group → Group) : (modGroup s g f).vregs = s.vregs := by unfold modGroup; split <;> rfl
@[simp] theorem modGroup_lanes (s : State) (g : Nat) (f : Group → Group) : (modGroup s g f).lanes = s.lanes := by unfold modGroup; split <;> rfl
@[simp] theorem modGroup_teams (s : State) (g : Nat) (f : Group → Group) : (modGroup s g f).teams = s.teams := by unfold modGroup; split <;> rfl
@[simp] theorem modGroup_grids (s : State) (g : Nat) (f : Group → Group) : (modGroup s g f).grids = s.grids := by unfold modGroup; split <;> rfl
@[simp] theorem modGroup_board (s : State) (g : Nat) (f : Group → Group) : (modGroup s g f).board = s.board := by unfold modGroup; split <;> rfl
@[simp] theorem modGroup_slots (s : State) (g : Nat) (f : Group → Group) : (modGroup s g f).slots = s.slots := by unfold modGroup; split <;> rfl
@[simp] theorem modGroup_spm (s : State) (g : Nat) (f : Group → Group) : (modGroup s g f).spm = s.spm := by unfold modGroup; split <;> rfl
@[simp] theorem modGroup_tiles (s : State) (g : Nat) (f : Group → Group) : (modGroup s g f).tiles = s.tiles := by unfold modGroup; split <;> rfl
@[simp] theorem modGroup_side (s : State) (g : Nat) (f : Group → Group) : (modGroup s g f).side = s.side := by unfold modGroup; split <;> rfl
@[simp] theorem modGroup_l1 (s : State) (g : Nat) (f : Group → Group) : (modGroup s g f).l1 = s.l1 := by unfold modGroup; split <;> rfl
@[simp] theorem modGroup_mem (s : State) (g : Nat) (f : Group → Group) : (modGroup s g f).mem = s.mem := by unfold modGroup; split <;> rfl
@[simp] theorem modGroup_hdr (s : State) (g : Nat) (f : Group → Group) : (modGroup s g f).hdr = s.hdr := by unfold modGroup; split <;> rfl
@[simp] theorem modGroup_hostLines (s : State) (g : Nat) (f : Group → Group) : (modGroup s g f).hostLines = s.hostLines := by unfold modGroup; split <;> rfl
@[simp] theorem modGroup_slices (s : State) (g : Nat) (f : Group → Group) : (modGroup s g f).slices = s.slices := by unfold modGroup; split <;> rfl
@[simp] theorem modGroup_psel (s : State) (g : Nat) (f : Group → Group) : (modGroup s g f).psel = s.psel := by unfold modGroup; split <;> rfl
@[simp] theorem modGroup_p1Fills (s : State) (g : Nat) (f : Group → Group) : (modGroup s g f).p1Fills = s.p1Fills := by unfold modGroup; split <;> rfl
@[simp] theorem modGroup_zeros (s : State) (g : Nat) (f : Group → Group) : (modGroup s g f).zeros = s.zeros := by unfold modGroup; split <;> rfl
@[simp] theorem modGroup_prm (s : State) (g : Nat) (f : Group → Group) : (modGroup s g f).prm = s.prm := by unfold modGroup; split <;> rfl
@[simp] theorem modGroup_hostHeld (s : State) (g : Nat) (f : Group → Group) : (modGroup s g f).hostHeld = s.hostHeld := by unfold modGroup; split <;> rfl
@[simp] theorem modGroup_poison (s : State) (g : Nat) (f : Group → Group) : (modGroup s g f).poison = s.poison := by unfold modGroup; split <;> rfl
@[simp] theorem modGroup_poisonRegs (s : State) (g : Nat) (f : Group → Group) : (modGroup s g f).poisonRegs = s.poisonRegs := by unfold modGroup; split <;> rfl
@[simp] theorem modGroup_poisonSpm (s : State) (g : Nat) (f : Group → Group) : (modGroup s g f).poisonSpm = s.poisonSpm := by unfold modGroup; split <;> rfl
@[simp] theorem modGroup_poisonTiles (s : State) (g : Nat) (f : Group → Group) : (modGroup s g f).poisonTiles = s.poisonTiles := by unfold modGroup; split <;> rfl
@[simp] theorem modGroup_poisonPages (s : State) (g : Nat) (f : Group → Group) : (modGroup s g f).poisonPages = s.poisonPages := by unfold modGroup; split <;> rfl
@[simp] theorem modGroup_pages (s : State) (g : Nat) (f : Group → Group) : (modGroup s g f).pages = s.pages := by unfold modGroup; split <;> rfl
@[simp] theorem modGroup_frames (s : State) (g : Nat) (f : Group → Group) : (modGroup s g f).frames = s.frames := by unfold modGroup; split <;> rfl
@[simp] theorem modGroup_tlb (s : State) (g : Nat) (f : Group → Group) : (modGroup s g f).tlb = s.tlb := by unfold modGroup; split <;> rfl
@[simp] theorem modGroup_service (s : State) (g : Nat) (f : Group → Group) : (modGroup s g f).service = s.service := by unfold modGroup; split <;> rfl
@[simp] theorem modGroup_walks (s : State) (g : Nat) (f : Group → Group) : (modGroup s g f).walks = s.walks := by unfold modGroup; split <;> rfl
@[simp] theorem modGroup_noPage (s : State) (g : Nat) (f : Group → Group) : (modGroup s g f).noPage = s.noPage := by unfold modGroup; split <;> rfl
@[simp] theorem modGroup_arenas (s : State) (g : Nat) (f : Group → Group) : (modGroup s g f).arenas = s.arenas := by unfold modGroup; split <;> rfl
@[simp] theorem modGroup_drops (s : State) (g : Nat) (f : Group → Group) : (modGroup s g f).drops = s.drops := by unfold modGroup; split <;> rfl
@[simp] theorem modGroup_seals (s : State) (g : Nat) (f : Group → Group) : (modGroup s g f).seals = s.seals := by unfold modGroup; split <;> rfl
@[simp] theorem modGroup_filters (s : State) (g : Nat) (f : Group → Group) : (modGroup s g f).filters = s.filters := by unfold modGroup; split <;> rfl
@[simp] theorem modGroup_funcs (s : State) (g : Nat) (f : Group → Group) : (modGroup s g f).funcs = s.funcs := by unfold modGroup; split <;> rfl
@[simp] theorem modGroup_kernels (s : State) (g : Nat) (f : Group → Group) : (modGroup s g f).kernels = s.kernels := by unfold modGroup; split <;> rfl
@[simp] theorem modGroup_graphs (s : State) (g : Nat) (f : Group → Group) : (modGroup s g f).graphs = s.graphs := by unfold modGroup; split <;> rfl
@[simp] theorem modGroup_runs (s : State) (g : Nat) (f : Group → Group) : (modGroup s g f).runs = s.runs := by unfold modGroup; split <;> rfl
@[simp] theorem modGroup_acc (s : State) (g : Nat) (f : Group → Group) : (modGroup s g f).acc = s.acc := by unfold modGroup; split <;> rfl
@[simp] theorem modGroup_atoms (s : State) (g : Nat) (f : Group → Group) : (modGroup s g f).atoms = s.atoms := by unfold modGroup; split <;> rfl
@[simp] theorem modGroup_results (s : State) (g : Nat) (f : Group → Group) : (modGroup s g f).results = s.results := by unfold modGroup; split <;> rfl
@[simp] theorem modGroup_mops (s : State) (g : Nat) (f : Group → Group) : (modGroup s g f).mops = s.mops := by unfold modGroup; split <;> rfl
@[simp] theorem modGroup_posts (s : State) (g : Nat) (f : Group → Group) : (modGroup s g f).posts = s.posts := by unfold modGroup; split <;> rfl
@[simp] theorem modGroup_parks (s : State) (g : Nat) (f : Group → Group) : (modGroup s g f).parks = s.parks := by unfold modGroup; split <;> rfl
@[simp] theorem modGroup_tags (s : State) (g : Nat) (f : Group → Group) : (modGroup s g f).tags = s.tags := by unfold modGroup; split <;> rfl
@[simp] theorem modGroup_bins (s : State) (g : Nat) (f : Group → Group) : (modGroup s g f).bins = s.bins := by unfold modGroup; split <;> rfl
@[simp] theorem modGroup_heldConts (s : State) (g : Nat) (f : Group → Group) : (modGroup s g f).heldConts = s.heldConts := by unfold modGroup; split <;> rfl
@[simp] theorem modGroup_engs (s : State) (g : Nat) (f : Group → Group) : (modGroup s g f).engs = s.engs := by unfold modGroup; split <;> rfl
@[simp] theorem modGroup_colls (s : State) (g : Nat) (f : Group → Group) : (modGroup s g f).colls = s.colls := by unfold modGroup; split <;> rfl
@[simp] theorem modGroup_msgs (s : State) (g : Nat) (f : Group → Group) : (modGroup s g f).msgs = s.msgs := by unfold modGroup; split <;> rfl
@[simp] theorem modGroup_recvs (s : State) (g : Nat) (f : Group → Group) : (modGroup s g f).recvs = s.recvs := by unfold modGroup; split <;> rfl
@[simp] theorem modGroup_queues (s : State) (g : Nat) (f : Group → Group) : (modGroup s g f).queues = s.queues := by unfold modGroup; split <;> rfl
@[simp] theorem modGroup_detached (s : State) (g : Nat) (f : Group → Group) : (modGroup s g f).detached = s.detached := by unfold modGroup; split <;> rfl
@[simp] theorem modGroup_preempts (s : State) (g : Nat) (f : Group → Group) : (modGroup s g f).preempts = s.preempts := by unfold modGroup; split <;> rfl
@[simp] theorem modGroup_images (s : State) (g : Nat) (f : Group → Group) : (modGroup s g f).images = s.images := by unfold modGroup; split <;> rfl
@[simp] theorem modGroup_loans (s : State) (g : Nat) (f : Group → Group) : (modGroup s g f).loans = s.loans := by unfold modGroup; split <;> rfl
@[simp] theorem modGroup_idleSince (s : State) (g : Nat) (f : Group → Group) : (modGroup s g f).idleSince = s.idleSince := by unfold modGroup; split <;> rfl
@[simp] theorem modGroup_available (s : State) (g : Nat) (f : Group → Group) : (modGroup s g f).available = s.available := by unfold modGroup; split <;> rfl
@[simp] theorem modGroup_smap (s : State) (g : Nat) (f : Group → Group) : (modGroup s g f).smap = s.smap := by unfold modGroup; split <;> rfl
@[simp] theorem modGroup_softErr (s : State) (g : Nat) (f : Group → Group) : (modGroup s g f).softErr = s.softErr := by unfold modGroup; split <;> rfl
@[simp] theorem modGroup_dieDown (s : State) (g : Nat) (f : Group → Group) : (modGroup s g f).dieDown = s.dieDown := by unfold modGroup; split <;> rfl
@[simp] theorem modGroup_sramDown (s : State) (g : Nat) (f : Group → Group) : (modGroup s g f).sramDown = s.sramDown := by unfold modGroup; split <;> rfl
@[simp] theorem modGroup_throttle (s : State) (g : Nat) (f : Group → Group) : (modGroup s g f).throttle = s.throttle := by unfold modGroup; split <;> rfl
@[simp] theorem modGroup_power (s : State) (g : Nat) (f : Group → Group) : (modGroup s g f).power = s.power := by unfold modGroup; split <;> rfl
@[simp] theorem modGroup_below (s : State) (g : Nat) (f : Group → Group) : (modGroup s g f).below = s.below := by unfold modGroup; split <;> rfl
@[simp] theorem modGroup_temps (s : State) (g : Nat) (f : Group → Group) : (modGroup s g f).temps = s.temps := by unfold modGroup; split <;> rfl
@[simp] theorem modGroup_linksDown (s : State) (g : Nat) (f : Group → Group) : (modGroup s g f).linksDown = s.linksDown := by unfold modGroup; split <;> rfl
@[simp] theorem modGroup_linkSeq (s : State) (g : Nat) (f : Group → Group) : (modGroup s g f).linkSeq = s.linkSeq := by unfold modGroup; split <;> rfl
@[simp] theorem modGroup_linkRx (s : State) (g : Nat) (f : Group → Group) : (modGroup s g f).linkRx = s.linkRx := by unfold modGroup; split <;> rfl
@[simp] theorem modGroup_linkMsgs (s : State) (g : Nat) (f : Group → Group) : (modGroup s g f).linkMsgs = s.linkMsgs := by unfold modGroup; split <;> rfl
@[simp] theorem modGroup_linkTx (s : State) (g : Nat) (f : Group → Group) : (modGroup s g f).linkTx = s.linkTx := by unfold modGroup; split <;> rfl
@[simp] theorem modGroup_linkTxSeq (s : State) (g : Nat) (f : Group → Group) : (modGroup s g f).linkTxSeq = s.linkTxSeq := by unfold modGroup; split <;> rfl
@[simp] theorem modGroup_linkFwd (s : State) (g : Nat) (f : Group → Group) : (modGroup s g f).linkFwd = s.linkFwd := by unfold modGroup; split <;> rfl
@[simp] theorem modGroup_hostDown (s : State) (g : Nat) (f : Group → Group) : (modGroup s g f).hostDown = s.hostDown := by unfold modGroup; split <;> rfl
@[simp] theorem modGroup_msix (s : State) (g : Nat) (f : Group → Group) : (modGroup s g f).msix = s.msix := by unfold modGroup; split <;> rfl
@[simp] theorem modGroup_flashA (s : State) (g : Nat) (f : Group → Group) : (modGroup s g f).flashA = s.flashA := by unfold modGroup; split <;> rfl
@[simp] theorem modGroup_flashB (s : State) (g : Nat) (f : Group → Group) : (modGroup s g f).flashB = s.flashB := by unfold modGroup; split <;> rfl
@[simp] theorem modGroup_flashCtr (s : State) (g : Nat) (f : Group → Group) : (modGroup s g f).flashCtr = s.flashCtr := by unfold modGroup; split <;> rfl
@[simp] theorem modGroup_record (s : State) (g : Nat) (f : Group → Group) : (modGroup s g f).record = s.record := by unfold modGroup; split <;> rfl
@[simp] theorem modGroup_pwrOk (s : State) (g : Nat) (f : Group → Group) : (modGroup s g f).pwrOk = s.pwrOk := by unfold modGroup; split <;> rfl
@[simp] theorem modGroup_up (s : State) (g : Nat) (f : Group → Group) : (modGroup s g f).up = s.up := by unfold modGroup; split <;> rfl
@[simp] theorem modGroup_sbOut (s : State) (g : Nat) (f : Group → Group) : (modGroup s g f).sbOut = s.sbOut := by unfold modGroup; split <;> rfl

/-! ### modTeam -/
@[simp] theorem modTeam_agenda (s : State) (t : Nat) (f : Team → Team) : (modTeam s t f).agenda = s.agenda := by unfold modTeam; split <;> rfl
@[simp] theorem modTeam_cur (s : State) (t : Nat) (f : Team → Team) : (modTeam s t f).cur = s.cur := by unfold modTeam; split <;> rfl
@[simp] theorem modTeam_freeCtr (s : State) (t : Nat) (f : Team → Team) : (modTeam s t f).freeCtr = s.freeCtr := by unfold modTeam; split <;> rfl
@[simp] theorem modTeam_nextId (s : State) (t : Nat) (f : Team → Team) : (modTeam s t f).nextId = s.nextId := by unfold modTeam; split <;> rfl
@[simp] theorem modTeam_wall (s : State) (t : Nat) (f : Team → Team) : (modTeam s t f).wall = s.wall := by unfold modTeam; split <;> rfl
@[simp] theorem modTeam_acs (s : State) (t : Nat) (f : Team → Team) : (modTeam s t f).acs = s.acs := by unfold modTeam; split <;> rfl
@[simp] theorem modTeam_ports (s : State) (t : Nat) (f : Team → Team) : (modTeam s t f).ports = s.ports := by unfold modTeam; split <;> rfl
@[simp] theorem modTeam_vregs (s : State) (t : Nat) (f : Team → Team) : (modTeam s t f).vregs = s.vregs := by unfold modTeam; split <;> rfl
@[simp] theorem modTeam_lanes (s : State) (t : Nat) (f : Team → Team) : (modTeam s t f).lanes = s.lanes := by unfold modTeam; split <;> rfl
@[simp] theorem modTeam_groups (s : State) (t : Nat) (f : Team → Team) : (modTeam s t f).groups = s.groups := by unfold modTeam; split <;> rfl
@[simp] theorem modTeam_grids (s : State) (t : Nat) (f : Team → Team) : (modTeam s t f).grids = s.grids := by unfold modTeam; split <;> rfl
@[simp] theorem modTeam_board (s : State) (t : Nat) (f : Team → Team) : (modTeam s t f).board = s.board := by unfold modTeam; split <;> rfl
@[simp] theorem modTeam_slots (s : State) (t : Nat) (f : Team → Team) : (modTeam s t f).slots = s.slots := by unfold modTeam; split <;> rfl
@[simp] theorem modTeam_spm (s : State) (t : Nat) (f : Team → Team) : (modTeam s t f).spm = s.spm := by unfold modTeam; split <;> rfl
@[simp] theorem modTeam_tiles (s : State) (t : Nat) (f : Team → Team) : (modTeam s t f).tiles = s.tiles := by unfold modTeam; split <;> rfl
@[simp] theorem modTeam_side (s : State) (t : Nat) (f : Team → Team) : (modTeam s t f).side = s.side := by unfold modTeam; split <;> rfl
@[simp] theorem modTeam_l1 (s : State) (t : Nat) (f : Team → Team) : (modTeam s t f).l1 = s.l1 := by unfold modTeam; split <;> rfl
@[simp] theorem modTeam_mem (s : State) (t : Nat) (f : Team → Team) : (modTeam s t f).mem = s.mem := by unfold modTeam; split <;> rfl
@[simp] theorem modTeam_hdr (s : State) (t : Nat) (f : Team → Team) : (modTeam s t f).hdr = s.hdr := by unfold modTeam; split <;> rfl
@[simp] theorem modTeam_hostLines (s : State) (t : Nat) (f : Team → Team) : (modTeam s t f).hostLines = s.hostLines := by unfold modTeam; split <;> rfl
@[simp] theorem modTeam_slices (s : State) (t : Nat) (f : Team → Team) : (modTeam s t f).slices = s.slices := by unfold modTeam; split <;> rfl
@[simp] theorem modTeam_psel (s : State) (t : Nat) (f : Team → Team) : (modTeam s t f).psel = s.psel := by unfold modTeam; split <;> rfl
@[simp] theorem modTeam_p1Fills (s : State) (t : Nat) (f : Team → Team) : (modTeam s t f).p1Fills = s.p1Fills := by unfold modTeam; split <;> rfl
@[simp] theorem modTeam_zeros (s : State) (t : Nat) (f : Team → Team) : (modTeam s t f).zeros = s.zeros := by unfold modTeam; split <;> rfl
@[simp] theorem modTeam_prm (s : State) (t : Nat) (f : Team → Team) : (modTeam s t f).prm = s.prm := by unfold modTeam; split <;> rfl
@[simp] theorem modTeam_hostHeld (s : State) (t : Nat) (f : Team → Team) : (modTeam s t f).hostHeld = s.hostHeld := by unfold modTeam; split <;> rfl
@[simp] theorem modTeam_poison (s : State) (t : Nat) (f : Team → Team) : (modTeam s t f).poison = s.poison := by unfold modTeam; split <;> rfl
@[simp] theorem modTeam_poisonRegs (s : State) (t : Nat) (f : Team → Team) : (modTeam s t f).poisonRegs = s.poisonRegs := by unfold modTeam; split <;> rfl
@[simp] theorem modTeam_poisonSpm (s : State) (t : Nat) (f : Team → Team) : (modTeam s t f).poisonSpm = s.poisonSpm := by unfold modTeam; split <;> rfl
@[simp] theorem modTeam_poisonTiles (s : State) (t : Nat) (f : Team → Team) : (modTeam s t f).poisonTiles = s.poisonTiles := by unfold modTeam; split <;> rfl
@[simp] theorem modTeam_poisonPages (s : State) (t : Nat) (f : Team → Team) : (modTeam s t f).poisonPages = s.poisonPages := by unfold modTeam; split <;> rfl
@[simp] theorem modTeam_pages (s : State) (t : Nat) (f : Team → Team) : (modTeam s t f).pages = s.pages := by unfold modTeam; split <;> rfl
@[simp] theorem modTeam_frames (s : State) (t : Nat) (f : Team → Team) : (modTeam s t f).frames = s.frames := by unfold modTeam; split <;> rfl
@[simp] theorem modTeam_tlb (s : State) (t : Nat) (f : Team → Team) : (modTeam s t f).tlb = s.tlb := by unfold modTeam; split <;> rfl
@[simp] theorem modTeam_service (s : State) (t : Nat) (f : Team → Team) : (modTeam s t f).service = s.service := by unfold modTeam; split <;> rfl
@[simp] theorem modTeam_walks (s : State) (t : Nat) (f : Team → Team) : (modTeam s t f).walks = s.walks := by unfold modTeam; split <;> rfl
@[simp] theorem modTeam_noPage (s : State) (t : Nat) (f : Team → Team) : (modTeam s t f).noPage = s.noPage := by unfold modTeam; split <;> rfl
@[simp] theorem modTeam_arenas (s : State) (t : Nat) (f : Team → Team) : (modTeam s t f).arenas = s.arenas := by unfold modTeam; split <;> rfl
@[simp] theorem modTeam_drops (s : State) (t : Nat) (f : Team → Team) : (modTeam s t f).drops = s.drops := by unfold modTeam; split <;> rfl
@[simp] theorem modTeam_seals (s : State) (t : Nat) (f : Team → Team) : (modTeam s t f).seals = s.seals := by unfold modTeam; split <;> rfl
@[simp] theorem modTeam_filters (s : State) (t : Nat) (f : Team → Team) : (modTeam s t f).filters = s.filters := by unfold modTeam; split <;> rfl
@[simp] theorem modTeam_funcs (s : State) (t : Nat) (f : Team → Team) : (modTeam s t f).funcs = s.funcs := by unfold modTeam; split <;> rfl
@[simp] theorem modTeam_kernels (s : State) (t : Nat) (f : Team → Team) : (modTeam s t f).kernels = s.kernels := by unfold modTeam; split <;> rfl
@[simp] theorem modTeam_graphs (s : State) (t : Nat) (f : Team → Team) : (modTeam s t f).graphs = s.graphs := by unfold modTeam; split <;> rfl
@[simp] theorem modTeam_runs (s : State) (t : Nat) (f : Team → Team) : (modTeam s t f).runs = s.runs := by unfold modTeam; split <;> rfl
@[simp] theorem modTeam_acc (s : State) (t : Nat) (f : Team → Team) : (modTeam s t f).acc = s.acc := by unfold modTeam; split <;> rfl
@[simp] theorem modTeam_atoms (s : State) (t : Nat) (f : Team → Team) : (modTeam s t f).atoms = s.atoms := by unfold modTeam; split <;> rfl
@[simp] theorem modTeam_results (s : State) (t : Nat) (f : Team → Team) : (modTeam s t f).results = s.results := by unfold modTeam; split <;> rfl
@[simp] theorem modTeam_mops (s : State) (t : Nat) (f : Team → Team) : (modTeam s t f).mops = s.mops := by unfold modTeam; split <;> rfl
@[simp] theorem modTeam_posts (s : State) (t : Nat) (f : Team → Team) : (modTeam s t f).posts = s.posts := by unfold modTeam; split <;> rfl
@[simp] theorem modTeam_parks (s : State) (t : Nat) (f : Team → Team) : (modTeam s t f).parks = s.parks := by unfold modTeam; split <;> rfl
@[simp] theorem modTeam_tags (s : State) (t : Nat) (f : Team → Team) : (modTeam s t f).tags = s.tags := by unfold modTeam; split <;> rfl
@[simp] theorem modTeam_bins (s : State) (t : Nat) (f : Team → Team) : (modTeam s t f).bins = s.bins := by unfold modTeam; split <;> rfl
@[simp] theorem modTeam_heldConts (s : State) (t : Nat) (f : Team → Team) : (modTeam s t f).heldConts = s.heldConts := by unfold modTeam; split <;> rfl
@[simp] theorem modTeam_engs (s : State) (t : Nat) (f : Team → Team) : (modTeam s t f).engs = s.engs := by unfold modTeam; split <;> rfl
@[simp] theorem modTeam_colls (s : State) (t : Nat) (f : Team → Team) : (modTeam s t f).colls = s.colls := by unfold modTeam; split <;> rfl
@[simp] theorem modTeam_msgs (s : State) (t : Nat) (f : Team → Team) : (modTeam s t f).msgs = s.msgs := by unfold modTeam; split <;> rfl
@[simp] theorem modTeam_recvs (s : State) (t : Nat) (f : Team → Team) : (modTeam s t f).recvs = s.recvs := by unfold modTeam; split <;> rfl
@[simp] theorem modTeam_queues (s : State) (t : Nat) (f : Team → Team) : (modTeam s t f).queues = s.queues := by unfold modTeam; split <;> rfl
@[simp] theorem modTeam_detached (s : State) (t : Nat) (f : Team → Team) : (modTeam s t f).detached = s.detached := by unfold modTeam; split <;> rfl
@[simp] theorem modTeam_preempts (s : State) (t : Nat) (f : Team → Team) : (modTeam s t f).preempts = s.preempts := by unfold modTeam; split <;> rfl
@[simp] theorem modTeam_images (s : State) (t : Nat) (f : Team → Team) : (modTeam s t f).images = s.images := by unfold modTeam; split <;> rfl
@[simp] theorem modTeam_loans (s : State) (t : Nat) (f : Team → Team) : (modTeam s t f).loans = s.loans := by unfold modTeam; split <;> rfl
@[simp] theorem modTeam_idleSince (s : State) (t : Nat) (f : Team → Team) : (modTeam s t f).idleSince = s.idleSince := by unfold modTeam; split <;> rfl
@[simp] theorem modTeam_available (s : State) (t : Nat) (f : Team → Team) : (modTeam s t f).available = s.available := by unfold modTeam; split <;> rfl
@[simp] theorem modTeam_smap (s : State) (t : Nat) (f : Team → Team) : (modTeam s t f).smap = s.smap := by unfold modTeam; split <;> rfl
@[simp] theorem modTeam_softErr (s : State) (t : Nat) (f : Team → Team) : (modTeam s t f).softErr = s.softErr := by unfold modTeam; split <;> rfl
@[simp] theorem modTeam_dieDown (s : State) (t : Nat) (f : Team → Team) : (modTeam s t f).dieDown = s.dieDown := by unfold modTeam; split <;> rfl
@[simp] theorem modTeam_sramDown (s : State) (t : Nat) (f : Team → Team) : (modTeam s t f).sramDown = s.sramDown := by unfold modTeam; split <;> rfl
@[simp] theorem modTeam_throttle (s : State) (t : Nat) (f : Team → Team) : (modTeam s t f).throttle = s.throttle := by unfold modTeam; split <;> rfl
@[simp] theorem modTeam_power (s : State) (t : Nat) (f : Team → Team) : (modTeam s t f).power = s.power := by unfold modTeam; split <;> rfl
@[simp] theorem modTeam_below (s : State) (t : Nat) (f : Team → Team) : (modTeam s t f).below = s.below := by unfold modTeam; split <;> rfl
@[simp] theorem modTeam_temps (s : State) (t : Nat) (f : Team → Team) : (modTeam s t f).temps = s.temps := by unfold modTeam; split <;> rfl
@[simp] theorem modTeam_linksDown (s : State) (t : Nat) (f : Team → Team) : (modTeam s t f).linksDown = s.linksDown := by unfold modTeam; split <;> rfl
@[simp] theorem modTeam_linkSeq (s : State) (t : Nat) (f : Team → Team) : (modTeam s t f).linkSeq = s.linkSeq := by unfold modTeam; split <;> rfl
@[simp] theorem modTeam_linkRx (s : State) (t : Nat) (f : Team → Team) : (modTeam s t f).linkRx = s.linkRx := by unfold modTeam; split <;> rfl
@[simp] theorem modTeam_linkMsgs (s : State) (t : Nat) (f : Team → Team) : (modTeam s t f).linkMsgs = s.linkMsgs := by unfold modTeam; split <;> rfl
@[simp] theorem modTeam_linkTx (s : State) (t : Nat) (f : Team → Team) : (modTeam s t f).linkTx = s.linkTx := by unfold modTeam; split <;> rfl
@[simp] theorem modTeam_linkTxSeq (s : State) (t : Nat) (f : Team → Team) : (modTeam s t f).linkTxSeq = s.linkTxSeq := by unfold modTeam; split <;> rfl
@[simp] theorem modTeam_linkFwd (s : State) (t : Nat) (f : Team → Team) : (modTeam s t f).linkFwd = s.linkFwd := by unfold modTeam; split <;> rfl
@[simp] theorem modTeam_hostDown (s : State) (t : Nat) (f : Team → Team) : (modTeam s t f).hostDown = s.hostDown := by unfold modTeam; split <;> rfl
@[simp] theorem modTeam_msix (s : State) (t : Nat) (f : Team → Team) : (modTeam s t f).msix = s.msix := by unfold modTeam; split <;> rfl
@[simp] theorem modTeam_flashA (s : State) (t : Nat) (f : Team → Team) : (modTeam s t f).flashA = s.flashA := by unfold modTeam; split <;> rfl
@[simp] theorem modTeam_flashB (s : State) (t : Nat) (f : Team → Team) : (modTeam s t f).flashB = s.flashB := by unfold modTeam; split <;> rfl
@[simp] theorem modTeam_flashCtr (s : State) (t : Nat) (f : Team → Team) : (modTeam s t f).flashCtr = s.flashCtr := by unfold modTeam; split <;> rfl
@[simp] theorem modTeam_record (s : State) (t : Nat) (f : Team → Team) : (modTeam s t f).record = s.record := by unfold modTeam; split <;> rfl
@[simp] theorem modTeam_pwrOk (s : State) (t : Nat) (f : Team → Team) : (modTeam s t f).pwrOk = s.pwrOk := by unfold modTeam; split <;> rfl
@[simp] theorem modTeam_up (s : State) (t : Nat) (f : Team → Team) : (modTeam s t f).up = s.up := by unfold modTeam; split <;> rfl
@[simp] theorem modTeam_sbOut (s : State) (t : Nat) (f : Team → Team) : (modTeam s t f).sbOut = s.sbOut := by unfold modTeam; split <;> rfl

/-! ### modGrid -/
@[simp] theorem modGrid_agenda (s : State) (g : Nat) (f : Grid → Grid) : (modGrid s g f).agenda = s.agenda := by unfold modGrid; split <;> rfl
@[simp] theorem modGrid_cur (s : State) (g : Nat) (f : Grid → Grid) : (modGrid s g f).cur = s.cur := by unfold modGrid; split <;> rfl
@[simp] theorem modGrid_freeCtr (s : State) (g : Nat) (f : Grid → Grid) : (modGrid s g f).freeCtr = s.freeCtr := by unfold modGrid; split <;> rfl
@[simp] theorem modGrid_nextId (s : State) (g : Nat) (f : Grid → Grid) : (modGrid s g f).nextId = s.nextId := by unfold modGrid; split <;> rfl
@[simp] theorem modGrid_wall (s : State) (g : Nat) (f : Grid → Grid) : (modGrid s g f).wall = s.wall := by unfold modGrid; split <;> rfl
@[simp] theorem modGrid_acs (s : State) (g : Nat) (f : Grid → Grid) : (modGrid s g f).acs = s.acs := by unfold modGrid; split <;> rfl
@[simp] theorem modGrid_ports (s : State) (g : Nat) (f : Grid → Grid) : (modGrid s g f).ports = s.ports := by unfold modGrid; split <;> rfl
@[simp] theorem modGrid_vregs (s : State) (g : Nat) (f : Grid → Grid) : (modGrid s g f).vregs = s.vregs := by unfold modGrid; split <;> rfl
@[simp] theorem modGrid_lanes (s : State) (g : Nat) (f : Grid → Grid) : (modGrid s g f).lanes = s.lanes := by unfold modGrid; split <;> rfl
@[simp] theorem modGrid_groups (s : State) (g : Nat) (f : Grid → Grid) : (modGrid s g f).groups = s.groups := by unfold modGrid; split <;> rfl
@[simp] theorem modGrid_teams (s : State) (g : Nat) (f : Grid → Grid) : (modGrid s g f).teams = s.teams := by unfold modGrid; split <;> rfl
@[simp] theorem modGrid_board (s : State) (g : Nat) (f : Grid → Grid) : (modGrid s g f).board = s.board := by unfold modGrid; split <;> rfl
@[simp] theorem modGrid_slots (s : State) (g : Nat) (f : Grid → Grid) : (modGrid s g f).slots = s.slots := by unfold modGrid; split <;> rfl
@[simp] theorem modGrid_spm (s : State) (g : Nat) (f : Grid → Grid) : (modGrid s g f).spm = s.spm := by unfold modGrid; split <;> rfl
@[simp] theorem modGrid_tiles (s : State) (g : Nat) (f : Grid → Grid) : (modGrid s g f).tiles = s.tiles := by unfold modGrid; split <;> rfl
@[simp] theorem modGrid_side (s : State) (g : Nat) (f : Grid → Grid) : (modGrid s g f).side = s.side := by unfold modGrid; split <;> rfl
@[simp] theorem modGrid_l1 (s : State) (g : Nat) (f : Grid → Grid) : (modGrid s g f).l1 = s.l1 := by unfold modGrid; split <;> rfl
@[simp] theorem modGrid_mem (s : State) (g : Nat) (f : Grid → Grid) : (modGrid s g f).mem = s.mem := by unfold modGrid; split <;> rfl
@[simp] theorem modGrid_hdr (s : State) (g : Nat) (f : Grid → Grid) : (modGrid s g f).hdr = s.hdr := by unfold modGrid; split <;> rfl
@[simp] theorem modGrid_hostLines (s : State) (g : Nat) (f : Grid → Grid) : (modGrid s g f).hostLines = s.hostLines := by unfold modGrid; split <;> rfl
@[simp] theorem modGrid_slices (s : State) (g : Nat) (f : Grid → Grid) : (modGrid s g f).slices = s.slices := by unfold modGrid; split <;> rfl
@[simp] theorem modGrid_psel (s : State) (g : Nat) (f : Grid → Grid) : (modGrid s g f).psel = s.psel := by unfold modGrid; split <;> rfl
@[simp] theorem modGrid_p1Fills (s : State) (g : Nat) (f : Grid → Grid) : (modGrid s g f).p1Fills = s.p1Fills := by unfold modGrid; split <;> rfl
@[simp] theorem modGrid_zeros (s : State) (g : Nat) (f : Grid → Grid) : (modGrid s g f).zeros = s.zeros := by unfold modGrid; split <;> rfl
@[simp] theorem modGrid_prm (s : State) (g : Nat) (f : Grid → Grid) : (modGrid s g f).prm = s.prm := by unfold modGrid; split <;> rfl
@[simp] theorem modGrid_hostHeld (s : State) (g : Nat) (f : Grid → Grid) : (modGrid s g f).hostHeld = s.hostHeld := by unfold modGrid; split <;> rfl
@[simp] theorem modGrid_poison (s : State) (g : Nat) (f : Grid → Grid) : (modGrid s g f).poison = s.poison := by unfold modGrid; split <;> rfl
@[simp] theorem modGrid_poisonRegs (s : State) (g : Nat) (f : Grid → Grid) : (modGrid s g f).poisonRegs = s.poisonRegs := by unfold modGrid; split <;> rfl
@[simp] theorem modGrid_poisonSpm (s : State) (g : Nat) (f : Grid → Grid) : (modGrid s g f).poisonSpm = s.poisonSpm := by unfold modGrid; split <;> rfl
@[simp] theorem modGrid_poisonTiles (s : State) (g : Nat) (f : Grid → Grid) : (modGrid s g f).poisonTiles = s.poisonTiles := by unfold modGrid; split <;> rfl
@[simp] theorem modGrid_poisonPages (s : State) (g : Nat) (f : Grid → Grid) : (modGrid s g f).poisonPages = s.poisonPages := by unfold modGrid; split <;> rfl
@[simp] theorem modGrid_pages (s : State) (g : Nat) (f : Grid → Grid) : (modGrid s g f).pages = s.pages := by unfold modGrid; split <;> rfl
@[simp] theorem modGrid_frames (s : State) (g : Nat) (f : Grid → Grid) : (modGrid s g f).frames = s.frames := by unfold modGrid; split <;> rfl
@[simp] theorem modGrid_tlb (s : State) (g : Nat) (f : Grid → Grid) : (modGrid s g f).tlb = s.tlb := by unfold modGrid; split <;> rfl
@[simp] theorem modGrid_service (s : State) (g : Nat) (f : Grid → Grid) : (modGrid s g f).service = s.service := by unfold modGrid; split <;> rfl
@[simp] theorem modGrid_walks (s : State) (g : Nat) (f : Grid → Grid) : (modGrid s g f).walks = s.walks := by unfold modGrid; split <;> rfl
@[simp] theorem modGrid_noPage (s : State) (g : Nat) (f : Grid → Grid) : (modGrid s g f).noPage = s.noPage := by unfold modGrid; split <;> rfl
@[simp] theorem modGrid_arenas (s : State) (g : Nat) (f : Grid → Grid) : (modGrid s g f).arenas = s.arenas := by unfold modGrid; split <;> rfl
@[simp] theorem modGrid_drops (s : State) (g : Nat) (f : Grid → Grid) : (modGrid s g f).drops = s.drops := by unfold modGrid; split <;> rfl
@[simp] theorem modGrid_seals (s : State) (g : Nat) (f : Grid → Grid) : (modGrid s g f).seals = s.seals := by unfold modGrid; split <;> rfl
@[simp] theorem modGrid_filters (s : State) (g : Nat) (f : Grid → Grid) : (modGrid s g f).filters = s.filters := by unfold modGrid; split <;> rfl
@[simp] theorem modGrid_funcs (s : State) (g : Nat) (f : Grid → Grid) : (modGrid s g f).funcs = s.funcs := by unfold modGrid; split <;> rfl
@[simp] theorem modGrid_kernels (s : State) (g : Nat) (f : Grid → Grid) : (modGrid s g f).kernels = s.kernels := by unfold modGrid; split <;> rfl
@[simp] theorem modGrid_graphs (s : State) (g : Nat) (f : Grid → Grid) : (modGrid s g f).graphs = s.graphs := by unfold modGrid; split <;> rfl
@[simp] theorem modGrid_runs (s : State) (g : Nat) (f : Grid → Grid) : (modGrid s g f).runs = s.runs := by unfold modGrid; split <;> rfl
@[simp] theorem modGrid_acc (s : State) (g : Nat) (f : Grid → Grid) : (modGrid s g f).acc = s.acc := by unfold modGrid; split <;> rfl
@[simp] theorem modGrid_atoms (s : State) (g : Nat) (f : Grid → Grid) : (modGrid s g f).atoms = s.atoms := by unfold modGrid; split <;> rfl
@[simp] theorem modGrid_results (s : State) (g : Nat) (f : Grid → Grid) : (modGrid s g f).results = s.results := by unfold modGrid; split <;> rfl
@[simp] theorem modGrid_mops (s : State) (g : Nat) (f : Grid → Grid) : (modGrid s g f).mops = s.mops := by unfold modGrid; split <;> rfl
@[simp] theorem modGrid_posts (s : State) (g : Nat) (f : Grid → Grid) : (modGrid s g f).posts = s.posts := by unfold modGrid; split <;> rfl
@[simp] theorem modGrid_parks (s : State) (g : Nat) (f : Grid → Grid) : (modGrid s g f).parks = s.parks := by unfold modGrid; split <;> rfl
@[simp] theorem modGrid_tags (s : State) (g : Nat) (f : Grid → Grid) : (modGrid s g f).tags = s.tags := by unfold modGrid; split <;> rfl
@[simp] theorem modGrid_bins (s : State) (g : Nat) (f : Grid → Grid) : (modGrid s g f).bins = s.bins := by unfold modGrid; split <;> rfl
@[simp] theorem modGrid_heldConts (s : State) (g : Nat) (f : Grid → Grid) : (modGrid s g f).heldConts = s.heldConts := by unfold modGrid; split <;> rfl
@[simp] theorem modGrid_engs (s : State) (g : Nat) (f : Grid → Grid) : (modGrid s g f).engs = s.engs := by unfold modGrid; split <;> rfl
@[simp] theorem modGrid_colls (s : State) (g : Nat) (f : Grid → Grid) : (modGrid s g f).colls = s.colls := by unfold modGrid; split <;> rfl
@[simp] theorem modGrid_msgs (s : State) (g : Nat) (f : Grid → Grid) : (modGrid s g f).msgs = s.msgs := by unfold modGrid; split <;> rfl
@[simp] theorem modGrid_recvs (s : State) (g : Nat) (f : Grid → Grid) : (modGrid s g f).recvs = s.recvs := by unfold modGrid; split <;> rfl
@[simp] theorem modGrid_queues (s : State) (g : Nat) (f : Grid → Grid) : (modGrid s g f).queues = s.queues := by unfold modGrid; split <;> rfl
@[simp] theorem modGrid_detached (s : State) (g : Nat) (f : Grid → Grid) : (modGrid s g f).detached = s.detached := by unfold modGrid; split <;> rfl
@[simp] theorem modGrid_preempts (s : State) (g : Nat) (f : Grid → Grid) : (modGrid s g f).preempts = s.preempts := by unfold modGrid; split <;> rfl
@[simp] theorem modGrid_images (s : State) (g : Nat) (f : Grid → Grid) : (modGrid s g f).images = s.images := by unfold modGrid; split <;> rfl
@[simp] theorem modGrid_loans (s : State) (g : Nat) (f : Grid → Grid) : (modGrid s g f).loans = s.loans := by unfold modGrid; split <;> rfl
@[simp] theorem modGrid_idleSince (s : State) (g : Nat) (f : Grid → Grid) : (modGrid s g f).idleSince = s.idleSince := by unfold modGrid; split <;> rfl
@[simp] theorem modGrid_available (s : State) (g : Nat) (f : Grid → Grid) : (modGrid s g f).available = s.available := by unfold modGrid; split <;> rfl
@[simp] theorem modGrid_smap (s : State) (g : Nat) (f : Grid → Grid) : (modGrid s g f).smap = s.smap := by unfold modGrid; split <;> rfl
@[simp] theorem modGrid_softErr (s : State) (g : Nat) (f : Grid → Grid) : (modGrid s g f).softErr = s.softErr := by unfold modGrid; split <;> rfl
@[simp] theorem modGrid_dieDown (s : State) (g : Nat) (f : Grid → Grid) : (modGrid s g f).dieDown = s.dieDown := by unfold modGrid; split <;> rfl
@[simp] theorem modGrid_sramDown (s : State) (g : Nat) (f : Grid → Grid) : (modGrid s g f).sramDown = s.sramDown := by unfold modGrid; split <;> rfl
@[simp] theorem modGrid_throttle (s : State) (g : Nat) (f : Grid → Grid) : (modGrid s g f).throttle = s.throttle := by unfold modGrid; split <;> rfl
@[simp] theorem modGrid_power (s : State) (g : Nat) (f : Grid → Grid) : (modGrid s g f).power = s.power := by unfold modGrid; split <;> rfl
@[simp] theorem modGrid_below (s : State) (g : Nat) (f : Grid → Grid) : (modGrid s g f).below = s.below := by unfold modGrid; split <;> rfl
@[simp] theorem modGrid_temps (s : State) (g : Nat) (f : Grid → Grid) : (modGrid s g f).temps = s.temps := by unfold modGrid; split <;> rfl
@[simp] theorem modGrid_linksDown (s : State) (g : Nat) (f : Grid → Grid) : (modGrid s g f).linksDown = s.linksDown := by unfold modGrid; split <;> rfl
@[simp] theorem modGrid_linkSeq (s : State) (g : Nat) (f : Grid → Grid) : (modGrid s g f).linkSeq = s.linkSeq := by unfold modGrid; split <;> rfl
@[simp] theorem modGrid_linkRx (s : State) (g : Nat) (f : Grid → Grid) : (modGrid s g f).linkRx = s.linkRx := by unfold modGrid; split <;> rfl
@[simp] theorem modGrid_linkMsgs (s : State) (g : Nat) (f : Grid → Grid) : (modGrid s g f).linkMsgs = s.linkMsgs := by unfold modGrid; split <;> rfl
@[simp] theorem modGrid_linkTx (s : State) (g : Nat) (f : Grid → Grid) : (modGrid s g f).linkTx = s.linkTx := by unfold modGrid; split <;> rfl
@[simp] theorem modGrid_linkTxSeq (s : State) (g : Nat) (f : Grid → Grid) : (modGrid s g f).linkTxSeq = s.linkTxSeq := by unfold modGrid; split <;> rfl
@[simp] theorem modGrid_linkFwd (s : State) (g : Nat) (f : Grid → Grid) : (modGrid s g f).linkFwd = s.linkFwd := by unfold modGrid; split <;> rfl
@[simp] theorem modGrid_hostDown (s : State) (g : Nat) (f : Grid → Grid) : (modGrid s g f).hostDown = s.hostDown := by unfold modGrid; split <;> rfl
@[simp] theorem modGrid_msix (s : State) (g : Nat) (f : Grid → Grid) : (modGrid s g f).msix = s.msix := by unfold modGrid; split <;> rfl
@[simp] theorem modGrid_flashA (s : State) (g : Nat) (f : Grid → Grid) : (modGrid s g f).flashA = s.flashA := by unfold modGrid; split <;> rfl
@[simp] theorem modGrid_flashB (s : State) (g : Nat) (f : Grid → Grid) : (modGrid s g f).flashB = s.flashB := by unfold modGrid; split <;> rfl
@[simp] theorem modGrid_flashCtr (s : State) (g : Nat) (f : Grid → Grid) : (modGrid s g f).flashCtr = s.flashCtr := by unfold modGrid; split <;> rfl
@[simp] theorem modGrid_record (s : State) (g : Nat) (f : Grid → Grid) : (modGrid s g f).record = s.record := by unfold modGrid; split <;> rfl
@[simp] theorem modGrid_pwrOk (s : State) (g : Nat) (f : Grid → Grid) : (modGrid s g f).pwrOk = s.pwrOk := by unfold modGrid; split <;> rfl
@[simp] theorem modGrid_up (s : State) (g : Nat) (f : Grid → Grid) : (modGrid s g f).up = s.up := by unfold modGrid; split <;> rfl
@[simp] theorem modGrid_sbOut (s : State) (g : Nat) (f : Grid → Grid) : (modGrid s g f).sbOut = s.sbOut := by unfold modGrid; split <;> rfl

/-! ### modFunc -/
@[simp] theorem modFunc_agenda (s : State) (n : Nat) (f : Func → Func) : (modFunc s n f).agenda = s.agenda := rfl
@[simp] theorem modFunc_cur (s : State) (n : Nat) (f : Func → Func) : (modFunc s n f).cur = s.cur := rfl
@[simp] theorem modFunc_freeCtr (s : State) (n : Nat) (f : Func → Func) : (modFunc s n f).freeCtr = s.freeCtr := rfl
@[simp] theorem modFunc_nextId (s : State) (n : Nat) (f : Func → Func) : (modFunc s n f).nextId = s.nextId := rfl
@[simp] theorem modFunc_wall (s : State) (n : Nat) (f : Func → Func) : (modFunc s n f).wall = s.wall := rfl
@[simp] theorem modFunc_acs (s : State) (n : Nat) (f : Func → Func) : (modFunc s n f).acs = s.acs := rfl
@[simp] theorem modFunc_ports (s : State) (n : Nat) (f : Func → Func) : (modFunc s n f).ports = s.ports := rfl
@[simp] theorem modFunc_vregs (s : State) (n : Nat) (f : Func → Func) : (modFunc s n f).vregs = s.vregs := rfl
@[simp] theorem modFunc_lanes (s : State) (n : Nat) (f : Func → Func) : (modFunc s n f).lanes = s.lanes := rfl
@[simp] theorem modFunc_groups (s : State) (n : Nat) (f : Func → Func) : (modFunc s n f).groups = s.groups := rfl
@[simp] theorem modFunc_teams (s : State) (n : Nat) (f : Func → Func) : (modFunc s n f).teams = s.teams := rfl
@[simp] theorem modFunc_grids (s : State) (n : Nat) (f : Func → Func) : (modFunc s n f).grids = s.grids := rfl
@[simp] theorem modFunc_board (s : State) (n : Nat) (f : Func → Func) : (modFunc s n f).board = s.board := rfl
@[simp] theorem modFunc_slots (s : State) (n : Nat) (f : Func → Func) : (modFunc s n f).slots = s.slots := rfl
@[simp] theorem modFunc_spm (s : State) (n : Nat) (f : Func → Func) : (modFunc s n f).spm = s.spm := rfl
@[simp] theorem modFunc_tiles (s : State) (n : Nat) (f : Func → Func) : (modFunc s n f).tiles = s.tiles := rfl
@[simp] theorem modFunc_side (s : State) (n : Nat) (f : Func → Func) : (modFunc s n f).side = s.side := rfl
@[simp] theorem modFunc_l1 (s : State) (n : Nat) (f : Func → Func) : (modFunc s n f).l1 = s.l1 := rfl
@[simp] theorem modFunc_mem (s : State) (n : Nat) (f : Func → Func) : (modFunc s n f).mem = s.mem := rfl
@[simp] theorem modFunc_hdr (s : State) (n : Nat) (f : Func → Func) : (modFunc s n f).hdr = s.hdr := rfl
@[simp] theorem modFunc_hostLines (s : State) (n : Nat) (f : Func → Func) : (modFunc s n f).hostLines = s.hostLines := rfl
@[simp] theorem modFunc_slices (s : State) (n : Nat) (f : Func → Func) : (modFunc s n f).slices = s.slices := rfl
@[simp] theorem modFunc_psel (s : State) (n : Nat) (f : Func → Func) : (modFunc s n f).psel = s.psel := rfl
@[simp] theorem modFunc_p1Fills (s : State) (n : Nat) (f : Func → Func) : (modFunc s n f).p1Fills = s.p1Fills := rfl
@[simp] theorem modFunc_zeros (s : State) (n : Nat) (f : Func → Func) : (modFunc s n f).zeros = s.zeros := rfl
@[simp] theorem modFunc_prm (s : State) (n : Nat) (f : Func → Func) : (modFunc s n f).prm = s.prm := rfl
@[simp] theorem modFunc_hostHeld (s : State) (n : Nat) (f : Func → Func) : (modFunc s n f).hostHeld = s.hostHeld := rfl
@[simp] theorem modFunc_poison (s : State) (n : Nat) (f : Func → Func) : (modFunc s n f).poison = s.poison := rfl
@[simp] theorem modFunc_poisonRegs (s : State) (n : Nat) (f : Func → Func) : (modFunc s n f).poisonRegs = s.poisonRegs := rfl
@[simp] theorem modFunc_poisonSpm (s : State) (n : Nat) (f : Func → Func) : (modFunc s n f).poisonSpm = s.poisonSpm := rfl
@[simp] theorem modFunc_poisonTiles (s : State) (n : Nat) (f : Func → Func) : (modFunc s n f).poisonTiles = s.poisonTiles := rfl
@[simp] theorem modFunc_poisonPages (s : State) (n : Nat) (f : Func → Func) : (modFunc s n f).poisonPages = s.poisonPages := rfl
@[simp] theorem modFunc_pages (s : State) (n : Nat) (f : Func → Func) : (modFunc s n f).pages = s.pages := rfl
@[simp] theorem modFunc_frames (s : State) (n : Nat) (f : Func → Func) : (modFunc s n f).frames = s.frames := rfl
@[simp] theorem modFunc_tlb (s : State) (n : Nat) (f : Func → Func) : (modFunc s n f).tlb = s.tlb := rfl
@[simp] theorem modFunc_service (s : State) (n : Nat) (f : Func → Func) : (modFunc s n f).service = s.service := rfl
@[simp] theorem modFunc_walks (s : State) (n : Nat) (f : Func → Func) : (modFunc s n f).walks = s.walks := rfl
@[simp] theorem modFunc_noPage (s : State) (n : Nat) (f : Func → Func) : (modFunc s n f).noPage = s.noPage := rfl
@[simp] theorem modFunc_arenas (s : State) (n : Nat) (f : Func → Func) : (modFunc s n f).arenas = s.arenas := rfl
@[simp] theorem modFunc_drops (s : State) (n : Nat) (f : Func → Func) : (modFunc s n f).drops = s.drops := rfl
@[simp] theorem modFunc_seals (s : State) (n : Nat) (f : Func → Func) : (modFunc s n f).seals = s.seals := rfl
@[simp] theorem modFunc_filters (s : State) (n : Nat) (f : Func → Func) : (modFunc s n f).filters = s.filters := rfl
@[simp] theorem modFunc_kernels (s : State) (n : Nat) (f : Func → Func) : (modFunc s n f).kernels = s.kernels := rfl
@[simp] theorem modFunc_graphs (s : State) (n : Nat) (f : Func → Func) : (modFunc s n f).graphs = s.graphs := rfl
@[simp] theorem modFunc_runs (s : State) (n : Nat) (f : Func → Func) : (modFunc s n f).runs = s.runs := rfl
@[simp] theorem modFunc_acc (s : State) (n : Nat) (f : Func → Func) : (modFunc s n f).acc = s.acc := rfl
@[simp] theorem modFunc_atoms (s : State) (n : Nat) (f : Func → Func) : (modFunc s n f).atoms = s.atoms := rfl
@[simp] theorem modFunc_results (s : State) (n : Nat) (f : Func → Func) : (modFunc s n f).results = s.results := rfl
@[simp] theorem modFunc_mops (s : State) (n : Nat) (f : Func → Func) : (modFunc s n f).mops = s.mops := rfl
@[simp] theorem modFunc_posts (s : State) (n : Nat) (f : Func → Func) : (modFunc s n f).posts = s.posts := rfl
@[simp] theorem modFunc_parks (s : State) (n : Nat) (f : Func → Func) : (modFunc s n f).parks = s.parks := rfl
@[simp] theorem modFunc_tags (s : State) (n : Nat) (f : Func → Func) : (modFunc s n f).tags = s.tags := rfl
@[simp] theorem modFunc_bins (s : State) (n : Nat) (f : Func → Func) : (modFunc s n f).bins = s.bins := rfl
@[simp] theorem modFunc_heldConts (s : State) (n : Nat) (f : Func → Func) : (modFunc s n f).heldConts = s.heldConts := rfl
@[simp] theorem modFunc_engs (s : State) (n : Nat) (f : Func → Func) : (modFunc s n f).engs = s.engs := rfl
@[simp] theorem modFunc_colls (s : State) (n : Nat) (f : Func → Func) : (modFunc s n f).colls = s.colls := rfl
@[simp] theorem modFunc_msgs (s : State) (n : Nat) (f : Func → Func) : (modFunc s n f).msgs = s.msgs := rfl
@[simp] theorem modFunc_recvs (s : State) (n : Nat) (f : Func → Func) : (modFunc s n f).recvs = s.recvs := rfl
@[simp] theorem modFunc_queues (s : State) (n : Nat) (f : Func → Func) : (modFunc s n f).queues = s.queues := rfl
@[simp] theorem modFunc_detached (s : State) (n : Nat) (f : Func → Func) : (modFunc s n f).detached = s.detached := rfl
@[simp] theorem modFunc_preempts (s : State) (n : Nat) (f : Func → Func) : (modFunc s n f).preempts = s.preempts := rfl
@[simp] theorem modFunc_images (s : State) (n : Nat) (f : Func → Func) : (modFunc s n f).images = s.images := rfl
@[simp] theorem modFunc_loans (s : State) (n : Nat) (f : Func → Func) : (modFunc s n f).loans = s.loans := rfl
@[simp] theorem modFunc_idleSince (s : State) (n : Nat) (f : Func → Func) : (modFunc s n f).idleSince = s.idleSince := rfl
@[simp] theorem modFunc_available (s : State) (n : Nat) (f : Func → Func) : (modFunc s n f).available = s.available := rfl
@[simp] theorem modFunc_smap (s : State) (n : Nat) (f : Func → Func) : (modFunc s n f).smap = s.smap := rfl
@[simp] theorem modFunc_softErr (s : State) (n : Nat) (f : Func → Func) : (modFunc s n f).softErr = s.softErr := rfl
@[simp] theorem modFunc_dieDown (s : State) (n : Nat) (f : Func → Func) : (modFunc s n f).dieDown = s.dieDown := rfl
@[simp] theorem modFunc_sramDown (s : State) (n : Nat) (f : Func → Func) : (modFunc s n f).sramDown = s.sramDown := rfl
@[simp] theorem modFunc_throttle (s : State) (n : Nat) (f : Func → Func) : (modFunc s n f).throttle = s.throttle := rfl
@[simp] theorem modFunc_power (s : State) (n : Nat) (f : Func → Func) : (modFunc s n f).power = s.power := rfl
@[simp] theorem modFunc_below (s : State) (n : Nat) (f : Func → Func) : (modFunc s n f).below = s.below := rfl
@[simp] theorem modFunc_temps (s : State) (n : Nat) (f : Func → Func) : (modFunc s n f).temps = s.temps := rfl
@[simp] theorem modFunc_linksDown (s : State) (n : Nat) (f : Func → Func) : (modFunc s n f).linksDown = s.linksDown := rfl
@[simp] theorem modFunc_linkSeq (s : State) (n : Nat) (f : Func → Func) : (modFunc s n f).linkSeq = s.linkSeq := rfl
@[simp] theorem modFunc_linkRx (s : State) (n : Nat) (f : Func → Func) : (modFunc s n f).linkRx = s.linkRx := rfl
@[simp] theorem modFunc_linkMsgs (s : State) (n : Nat) (f : Func → Func) : (modFunc s n f).linkMsgs = s.linkMsgs := rfl
@[simp] theorem modFunc_linkTx (s : State) (n : Nat) (f : Func → Func) : (modFunc s n f).linkTx = s.linkTx := rfl
@[simp] theorem modFunc_linkTxSeq (s : State) (n : Nat) (f : Func → Func) : (modFunc s n f).linkTxSeq = s.linkTxSeq := rfl
@[simp] theorem modFunc_linkFwd (s : State) (n : Nat) (f : Func → Func) : (modFunc s n f).linkFwd = s.linkFwd := rfl
@[simp] theorem modFunc_hostDown (s : State) (n : Nat) (f : Func → Func) : (modFunc s n f).hostDown = s.hostDown := rfl
@[simp] theorem modFunc_msix (s : State) (n : Nat) (f : Func → Func) : (modFunc s n f).msix = s.msix := rfl
@[simp] theorem modFunc_flashA (s : State) (n : Nat) (f : Func → Func) : (modFunc s n f).flashA = s.flashA := rfl
@[simp] theorem modFunc_flashB (s : State) (n : Nat) (f : Func → Func) : (modFunc s n f).flashB = s.flashB := rfl
@[simp] theorem modFunc_flashCtr (s : State) (n : Nat) (f : Func → Func) : (modFunc s n f).flashCtr = s.flashCtr := rfl
@[simp] theorem modFunc_record (s : State) (n : Nat) (f : Func → Func) : (modFunc s n f).record = s.record := rfl
@[simp] theorem modFunc_pwrOk (s : State) (n : Nat) (f : Func → Func) : (modFunc s n f).pwrOk = s.pwrOk := rfl
@[simp] theorem modFunc_up (s : State) (n : Nat) (f : Func → Func) : (modFunc s n f).up = s.up := rfl
@[simp] theorem modFunc_sbOut (s : State) (n : Nat) (f : Func → Func) : (modFunc s n f).sbOut = s.sbOut := rfl

/-! ### fresh -/
@[simp] theorem fresh_agenda (s : State) : ((fresh s).2).agenda = s.agenda := rfl
@[simp] theorem fresh_cur (s : State) : ((fresh s).2).cur = s.cur := rfl
@[simp] theorem fresh_freeCtr (s : State) : ((fresh s).2).freeCtr = s.freeCtr := rfl
@[simp] theorem fresh_wall (s : State) : ((fresh s).2).wall = s.wall := rfl
@[simp] theorem fresh_acs (s : State) : ((fresh s).2).acs = s.acs := rfl
@[simp] theorem fresh_ports (s : State) : ((fresh s).2).ports = s.ports := rfl
@[simp] theorem fresh_vregs (s : State) : ((fresh s).2).vregs = s.vregs := rfl
@[simp] theorem fresh_lanes (s : State) : ((fresh s).2).lanes = s.lanes := rfl
@[simp] theorem fresh_groups (s : State) : ((fresh s).2).groups = s.groups := rfl
@[simp] theorem fresh_teams (s : State) : ((fresh s).2).teams = s.teams := rfl
@[simp] theorem fresh_grids (s : State) : ((fresh s).2).grids = s.grids := rfl
@[simp] theorem fresh_board (s : State) : ((fresh s).2).board = s.board := rfl
@[simp] theorem fresh_slots (s : State) : ((fresh s).2).slots = s.slots := rfl
@[simp] theorem fresh_spm (s : State) : ((fresh s).2).spm = s.spm := rfl
@[simp] theorem fresh_tiles (s : State) : ((fresh s).2).tiles = s.tiles := rfl
@[simp] theorem fresh_side (s : State) : ((fresh s).2).side = s.side := rfl
@[simp] theorem fresh_l1 (s : State) : ((fresh s).2).l1 = s.l1 := rfl
@[simp] theorem fresh_mem (s : State) : ((fresh s).2).mem = s.mem := rfl
@[simp] theorem fresh_hdr (s : State) : ((fresh s).2).hdr = s.hdr := rfl
@[simp] theorem fresh_hostLines (s : State) : ((fresh s).2).hostLines = s.hostLines := rfl
@[simp] theorem fresh_slices (s : State) : ((fresh s).2).slices = s.slices := rfl
@[simp] theorem fresh_psel (s : State) : ((fresh s).2).psel = s.psel := rfl
@[simp] theorem fresh_p1Fills (s : State) : ((fresh s).2).p1Fills = s.p1Fills := rfl
@[simp] theorem fresh_zeros (s : State) : ((fresh s).2).zeros = s.zeros := rfl
@[simp] theorem fresh_prm (s : State) : ((fresh s).2).prm = s.prm := rfl
@[simp] theorem fresh_hostHeld (s : State) : ((fresh s).2).hostHeld = s.hostHeld := rfl
@[simp] theorem fresh_poison (s : State) : ((fresh s).2).poison = s.poison := rfl
@[simp] theorem fresh_poisonRegs (s : State) : ((fresh s).2).poisonRegs = s.poisonRegs := rfl
@[simp] theorem fresh_poisonSpm (s : State) : ((fresh s).2).poisonSpm = s.poisonSpm := rfl
@[simp] theorem fresh_poisonTiles (s : State) : ((fresh s).2).poisonTiles = s.poisonTiles := rfl
@[simp] theorem fresh_poisonPages (s : State) : ((fresh s).2).poisonPages = s.poisonPages := rfl
@[simp] theorem fresh_pages (s : State) : ((fresh s).2).pages = s.pages := rfl
@[simp] theorem fresh_frames (s : State) : ((fresh s).2).frames = s.frames := rfl
@[simp] theorem fresh_tlb (s : State) : ((fresh s).2).tlb = s.tlb := rfl
@[simp] theorem fresh_service (s : State) : ((fresh s).2).service = s.service := rfl
@[simp] theorem fresh_walks (s : State) : ((fresh s).2).walks = s.walks := rfl
@[simp] theorem fresh_noPage (s : State) : ((fresh s).2).noPage = s.noPage := rfl
@[simp] theorem fresh_arenas (s : State) : ((fresh s).2).arenas = s.arenas := rfl
@[simp] theorem fresh_drops (s : State) : ((fresh s).2).drops = s.drops := rfl
@[simp] theorem fresh_seals (s : State) : ((fresh s).2).seals = s.seals := rfl
@[simp] theorem fresh_filters (s : State) : ((fresh s).2).filters = s.filters := rfl
@[simp] theorem fresh_funcs (s : State) : ((fresh s).2).funcs = s.funcs := rfl
@[simp] theorem fresh_kernels (s : State) : ((fresh s).2).kernels = s.kernels := rfl
@[simp] theorem fresh_graphs (s : State) : ((fresh s).2).graphs = s.graphs := rfl
@[simp] theorem fresh_runs (s : State) : ((fresh s).2).runs = s.runs := rfl
@[simp] theorem fresh_acc (s : State) : ((fresh s).2).acc = s.acc := rfl
@[simp] theorem fresh_atoms (s : State) : ((fresh s).2).atoms = s.atoms := rfl
@[simp] theorem fresh_results (s : State) : ((fresh s).2).results = s.results := rfl
@[simp] theorem fresh_mops (s : State) : ((fresh s).2).mops = s.mops := rfl
@[simp] theorem fresh_posts (s : State) : ((fresh s).2).posts = s.posts := rfl
@[simp] theorem fresh_parks (s : State) : ((fresh s).2).parks = s.parks := rfl
@[simp] theorem fresh_tags (s : State) : ((fresh s).2).tags = s.tags := rfl
@[simp] theorem fresh_bins (s : State) : ((fresh s).2).bins = s.bins := rfl
@[simp] theorem fresh_heldConts (s : State) : ((fresh s).2).heldConts = s.heldConts := rfl
@[simp] theorem fresh_engs (s : State) : ((fresh s).2).engs = s.engs := rfl
@[simp] theorem fresh_colls (s : State) : ((fresh s).2).colls = s.colls := rfl
@[simp] theorem fresh_msgs (s : State) : ((fresh s).2).msgs = s.msgs := rfl
@[simp] theorem fresh_recvs (s : State) : ((fresh s).2).recvs = s.recvs := rfl
@[simp] theorem fresh_queues (s : State) : ((fresh s).2).queues = s.queues := rfl
@[simp] theorem fresh_detached (s : State) : ((fresh s).2).detached = s.detached := rfl
@[simp] theorem fresh_preempts (s : State) : ((fresh s).2).preempts = s.preempts := rfl
@[simp] theorem fresh_images (s : State) : ((fresh s).2).images = s.images := rfl
@[simp] theorem fresh_loans (s : State) : ((fresh s).2).loans = s.loans := rfl
@[simp] theorem fresh_idleSince (s : State) : ((fresh s).2).idleSince = s.idleSince := rfl
@[simp] theorem fresh_available (s : State) : ((fresh s).2).available = s.available := rfl
@[simp] theorem fresh_smap (s : State) : ((fresh s).2).smap = s.smap := rfl
@[simp] theorem fresh_softErr (s : State) : ((fresh s).2).softErr = s.softErr := rfl
@[simp] theorem fresh_dieDown (s : State) : ((fresh s).2).dieDown = s.dieDown := rfl
@[simp] theorem fresh_sramDown (s : State) : ((fresh s).2).sramDown = s.sramDown := rfl
@[simp] theorem fresh_throttle (s : State) : ((fresh s).2).throttle = s.throttle := rfl
@[simp] theorem fresh_power (s : State) : ((fresh s).2).power = s.power := rfl
@[simp] theorem fresh_below (s : State) : ((fresh s).2).below = s.below := rfl
@[simp] theorem fresh_temps (s : State) : ((fresh s).2).temps = s.temps := rfl
@[simp] theorem fresh_linksDown (s : State) : ((fresh s).2).linksDown = s.linksDown := rfl
@[simp] theorem fresh_linkSeq (s : State) : ((fresh s).2).linkSeq = s.linkSeq := rfl
@[simp] theorem fresh_linkRx (s : State) : ((fresh s).2).linkRx = s.linkRx := rfl
@[simp] theorem fresh_linkMsgs (s : State) : ((fresh s).2).linkMsgs = s.linkMsgs := rfl
@[simp] theorem fresh_linkTx (s : State) : ((fresh s).2).linkTx = s.linkTx := rfl
@[simp] theorem fresh_linkTxSeq (s : State) : ((fresh s).2).linkTxSeq = s.linkTxSeq := rfl
@[simp] theorem fresh_linkFwd (s : State) : ((fresh s).2).linkFwd = s.linkFwd := rfl
@[simp] theorem fresh_hostDown (s : State) : ((fresh s).2).hostDown = s.hostDown := rfl
@[simp] theorem fresh_msix (s : State) : ((fresh s).2).msix = s.msix := rfl
@[simp] theorem fresh_flashA (s : State) : ((fresh s).2).flashA = s.flashA := rfl
@[simp] theorem fresh_flashB (s : State) : ((fresh s).2).flashB = s.flashB := rfl
@[simp] theorem fresh_flashCtr (s : State) : ((fresh s).2).flashCtr = s.flashCtr := rfl
@[simp] theorem fresh_record (s : State) : ((fresh s).2).record = s.record := rfl
@[simp] theorem fresh_pwrOk (s : State) : ((fresh s).2).pwrOk = s.pwrOk := rfl
@[simp] theorem fresh_up (s : State) : ((fresh s).2).up = s.up := rfl
@[simp] theorem fresh_sbOut (s : State) : ((fresh s).2).sbOut = s.sbOut := rfl

/-! ### takeWord -/
@[simp] theorem takeWord_agenda (s : State) : ((takeWord s).2).agenda = s.agenda := rfl
@[simp] theorem takeWord_cur (s : State) : ((takeWord s).2).cur = s.cur := rfl
@[simp] theorem takeWord_nextId (s : State) : ((takeWord s).2).nextId = s.nextId := rfl
@[simp] theorem takeWord_wall (s : State) : ((takeWord s).2).wall = s.wall := rfl
@[simp] theorem takeWord_acs (s : State) : ((takeWord s).2).acs = s.acs := rfl
@[simp] theorem takeWord_ports (s : State) : ((takeWord s).2).ports = s.ports := rfl
@[simp] theorem takeWord_vregs (s : State) : ((takeWord s).2).vregs = s.vregs := rfl
@[simp] theorem takeWord_lanes (s : State) : ((takeWord s).2).lanes = s.lanes := rfl
@[simp] theorem takeWord_groups (s : State) : ((takeWord s).2).groups = s.groups := rfl
@[simp] theorem takeWord_teams (s : State) : ((takeWord s).2).teams = s.teams := rfl
@[simp] theorem takeWord_grids (s : State) : ((takeWord s).2).grids = s.grids := rfl
@[simp] theorem takeWord_board (s : State) : ((takeWord s).2).board = s.board := rfl
@[simp] theorem takeWord_slots (s : State) : ((takeWord s).2).slots = s.slots := rfl
@[simp] theorem takeWord_spm (s : State) : ((takeWord s).2).spm = s.spm := rfl
@[simp] theorem takeWord_tiles (s : State) : ((takeWord s).2).tiles = s.tiles := rfl
@[simp] theorem takeWord_side (s : State) : ((takeWord s).2).side = s.side := rfl
@[simp] theorem takeWord_l1 (s : State) : ((takeWord s).2).l1 = s.l1 := rfl
@[simp] theorem takeWord_mem (s : State) : ((takeWord s).2).mem = s.mem := rfl
@[simp] theorem takeWord_hdr (s : State) : ((takeWord s).2).hdr = s.hdr := rfl
@[simp] theorem takeWord_hostLines (s : State) : ((takeWord s).2).hostLines = s.hostLines := rfl
@[simp] theorem takeWord_slices (s : State) : ((takeWord s).2).slices = s.slices := rfl
@[simp] theorem takeWord_psel (s : State) : ((takeWord s).2).psel = s.psel := rfl
@[simp] theorem takeWord_p1Fills (s : State) : ((takeWord s).2).p1Fills = s.p1Fills := rfl
@[simp] theorem takeWord_zeros (s : State) : ((takeWord s).2).zeros = s.zeros := rfl
@[simp] theorem takeWord_prm (s : State) : ((takeWord s).2).prm = s.prm := rfl
@[simp] theorem takeWord_hostHeld (s : State) : ((takeWord s).2).hostHeld = s.hostHeld := rfl
@[simp] theorem takeWord_poison (s : State) : ((takeWord s).2).poison = s.poison := rfl
@[simp] theorem takeWord_poisonRegs (s : State) : ((takeWord s).2).poisonRegs = s.poisonRegs := rfl
@[simp] theorem takeWord_poisonSpm (s : State) : ((takeWord s).2).poisonSpm = s.poisonSpm := rfl
@[simp] theorem takeWord_poisonTiles (s : State) : ((takeWord s).2).poisonTiles = s.poisonTiles := rfl
@[simp] theorem takeWord_poisonPages (s : State) : ((takeWord s).2).poisonPages = s.poisonPages := rfl
@[simp] theorem takeWord_pages (s : State) : ((takeWord s).2).pages = s.pages := rfl
@[simp] theorem takeWord_frames (s : State) : ((takeWord s).2).frames = s.frames := rfl
@[simp] theorem takeWord_tlb (s : State) : ((takeWord s).2).tlb = s.tlb := rfl
@[simp] theorem takeWord_service (s : State) : ((takeWord s).2).service = s.service := rfl
@[simp] theorem takeWord_walks (s : State) : ((takeWord s).2).walks = s.walks := rfl
@[simp] theorem takeWord_noPage (s : State) : ((takeWord s).2).noPage = s.noPage := rfl
@[simp] theorem takeWord_arenas (s : State) : ((takeWord s).2).arenas = s.arenas := rfl
@[simp] theorem takeWord_drops (s : State) : ((takeWord s).2).drops = s.drops := rfl
@[simp] theorem takeWord_seals (s : State) : ((takeWord s).2).seals = s.seals := rfl
@[simp] theorem takeWord_filters (s : State) : ((takeWord s).2).filters = s.filters := rfl
@[simp] theorem takeWord_funcs (s : State) : ((takeWord s).2).funcs = s.funcs := rfl
@[simp] theorem takeWord_kernels (s : State) : ((takeWord s).2).kernels = s.kernels := rfl
@[simp] theorem takeWord_graphs (s : State) : ((takeWord s).2).graphs = s.graphs := rfl
@[simp] theorem takeWord_runs (s : State) : ((takeWord s).2).runs = s.runs := rfl
@[simp] theorem takeWord_acc (s : State) : ((takeWord s).2).acc = s.acc := rfl
@[simp] theorem takeWord_atoms (s : State) : ((takeWord s).2).atoms = s.atoms := rfl
@[simp] theorem takeWord_results (s : State) : ((takeWord s).2).results = s.results := rfl
@[simp] theorem takeWord_mops (s : State) : ((takeWord s).2).mops = s.mops := rfl
@[simp] theorem takeWord_posts (s : State) : ((takeWord s).2).posts = s.posts := rfl
@[simp] theorem takeWord_parks (s : State) : ((takeWord s).2).parks = s.parks := rfl
@[simp] theorem takeWord_tags (s : State) : ((takeWord s).2).tags = s.tags := rfl
@[simp] theorem takeWord_bins (s : State) : ((takeWord s).2).bins = s.bins := rfl
@[simp] theorem takeWord_heldConts (s : State) : ((takeWord s).2).heldConts = s.heldConts := rfl
@[simp] theorem takeWord_engs (s : State) : ((takeWord s).2).engs = s.engs := rfl
@[simp] theorem takeWord_colls (s : State) : ((takeWord s).2).colls = s.colls := rfl
@[simp] theorem takeWord_msgs (s : State) : ((takeWord s).2).msgs = s.msgs := rfl
@[simp] theorem takeWord_recvs (s : State) : ((takeWord s).2).recvs = s.recvs := rfl
@[simp] theorem takeWord_queues (s : State) : ((takeWord s).2).queues = s.queues := rfl
@[simp] theorem takeWord_detached (s : State) : ((takeWord s).2).detached = s.detached := rfl
@[simp] theorem takeWord_preempts (s : State) : ((takeWord s).2).preempts = s.preempts := rfl
@[simp] theorem takeWord_images (s : State) : ((takeWord s).2).images = s.images := rfl
@[simp] theorem takeWord_loans (s : State) : ((takeWord s).2).loans = s.loans := rfl
@[simp] theorem takeWord_idleSince (s : State) : ((takeWord s).2).idleSince = s.idleSince := rfl
@[simp] theorem takeWord_available (s : State) : ((takeWord s).2).available = s.available := rfl
@[simp] theorem takeWord_smap (s : State) : ((takeWord s).2).smap = s.smap := rfl
@[simp] theorem takeWord_softErr (s : State) : ((takeWord s).2).softErr = s.softErr := rfl
@[simp] theorem takeWord_dieDown (s : State) : ((takeWord s).2).dieDown = s.dieDown := rfl
@[simp] theorem takeWord_sramDown (s : State) : ((takeWord s).2).sramDown = s.sramDown := rfl
@[simp] theorem takeWord_throttle (s : State) : ((takeWord s).2).throttle = s.throttle := rfl
@[simp] theorem takeWord_power (s : State) : ((takeWord s).2).power = s.power := rfl
@[simp] theorem takeWord_below (s : State) : ((takeWord s).2).below = s.below := rfl
@[simp] theorem takeWord_temps (s : State) : ((takeWord s).2).temps = s.temps := rfl
@[simp] theorem takeWord_linksDown (s : State) : ((takeWord s).2).linksDown = s.linksDown := rfl
@[simp] theorem takeWord_linkSeq (s : State) : ((takeWord s).2).linkSeq = s.linkSeq := rfl
@[simp] theorem takeWord_linkRx (s : State) : ((takeWord s).2).linkRx = s.linkRx := rfl
@[simp] theorem takeWord_linkMsgs (s : State) : ((takeWord s).2).linkMsgs = s.linkMsgs := rfl
@[simp] theorem takeWord_linkTx (s : State) : ((takeWord s).2).linkTx = s.linkTx := rfl
@[simp] theorem takeWord_linkTxSeq (s : State) : ((takeWord s).2).linkTxSeq = s.linkTxSeq := rfl
@[simp] theorem takeWord_linkFwd (s : State) : ((takeWord s).2).linkFwd = s.linkFwd := rfl
@[simp] theorem takeWord_hostDown (s : State) : ((takeWord s).2).hostDown = s.hostDown := rfl
@[simp] theorem takeWord_msix (s : State) : ((takeWord s).2).msix = s.msix := rfl
@[simp] theorem takeWord_flashA (s : State) : ((takeWord s).2).flashA = s.flashA := rfl
@[simp] theorem takeWord_flashB (s : State) : ((takeWord s).2).flashB = s.flashB := rfl
@[simp] theorem takeWord_flashCtr (s : State) : ((takeWord s).2).flashCtr = s.flashCtr := rfl
@[simp] theorem takeWord_record (s : State) : ((takeWord s).2).record = s.record := rfl
@[simp] theorem takeWord_pwrOk (s : State) : ((takeWord s).2).pwrOk = s.pwrOk := rfl
@[simp] theorem takeWord_up (s : State) : ((takeWord s).2).up = s.up := rfl
@[simp] theorem takeWord_sbOut (s : State) : ((takeWord s).2).sbOut = s.sbOut := rfl

/-! ### takeBit -/
@[simp] theorem takeBit_agenda (s : State) : ((takeBit s).2).agenda = s.agenda := rfl
@[simp] theorem takeBit_cur (s : State) : ((takeBit s).2).cur = s.cur := rfl
@[simp] theorem takeBit_nextId (s : State) : ((takeBit s).2).nextId = s.nextId := rfl
@[simp] theorem takeBit_wall (s : State) : ((takeBit s).2).wall = s.wall := rfl
@[simp] theorem takeBit_acs (s : State) : ((takeBit s).2).acs = s.acs := rfl
@[simp] theorem takeBit_ports (s : State) : ((takeBit s).2).ports = s.ports := rfl
@[simp] theorem takeBit_vregs (s : State) : ((takeBit s).2).vregs = s.vregs := rfl
@[simp] theorem takeBit_lanes (s : State) : ((takeBit s).2).lanes = s.lanes := rfl
@[simp] theorem takeBit_groups (s : State) : ((takeBit s).2).groups = s.groups := rfl
@[simp] theorem takeBit_teams (s : State) : ((takeBit s).2).teams = s.teams := rfl
@[simp] theorem takeBit_grids (s : State) : ((takeBit s).2).grids = s.grids := rfl
@[simp] theorem takeBit_board (s : State) : ((takeBit s).2).board = s.board := rfl
@[simp] theorem takeBit_slots (s : State) : ((takeBit s).2).slots = s.slots := rfl
@[simp] theorem takeBit_spm (s : State) : ((takeBit s).2).spm = s.spm := rfl
@[simp] theorem takeBit_tiles (s : State) : ((takeBit s).2).tiles = s.tiles := rfl
@[simp] theorem takeBit_side (s : State) : ((takeBit s).2).side = s.side := rfl
@[simp] theorem takeBit_l1 (s : State) : ((takeBit s).2).l1 = s.l1 := rfl
@[simp] theorem takeBit_mem (s : State) : ((takeBit s).2).mem = s.mem := rfl
@[simp] theorem takeBit_hdr (s : State) : ((takeBit s).2).hdr = s.hdr := rfl
@[simp] theorem takeBit_hostLines (s : State) : ((takeBit s).2).hostLines = s.hostLines := rfl
@[simp] theorem takeBit_slices (s : State) : ((takeBit s).2).slices = s.slices := rfl
@[simp] theorem takeBit_psel (s : State) : ((takeBit s).2).psel = s.psel := rfl
@[simp] theorem takeBit_p1Fills (s : State) : ((takeBit s).2).p1Fills = s.p1Fills := rfl
@[simp] theorem takeBit_zeros (s : State) : ((takeBit s).2).zeros = s.zeros := rfl
@[simp] theorem takeBit_prm (s : State) : ((takeBit s).2).prm = s.prm := rfl
@[simp] theorem takeBit_hostHeld (s : State) : ((takeBit s).2).hostHeld = s.hostHeld := rfl
@[simp] theorem takeBit_poison (s : State) : ((takeBit s).2).poison = s.poison := rfl
@[simp] theorem takeBit_poisonRegs (s : State) : ((takeBit s).2).poisonRegs = s.poisonRegs := rfl
@[simp] theorem takeBit_poisonSpm (s : State) : ((takeBit s).2).poisonSpm = s.poisonSpm := rfl
@[simp] theorem takeBit_poisonTiles (s : State) : ((takeBit s).2).poisonTiles = s.poisonTiles := rfl
@[simp] theorem takeBit_poisonPages (s : State) : ((takeBit s).2).poisonPages = s.poisonPages := rfl
@[simp] theorem takeBit_pages (s : State) : ((takeBit s).2).pages = s.pages := rfl
@[simp] theorem takeBit_frames (s : State) : ((takeBit s).2).frames = s.frames := rfl
@[simp] theorem takeBit_tlb (s : State) : ((takeBit s).2).tlb = s.tlb := rfl
@[simp] theorem takeBit_service (s : State) : ((takeBit s).2).service = s.service := rfl
@[simp] theorem takeBit_walks (s : State) : ((takeBit s).2).walks = s.walks := rfl
@[simp] theorem takeBit_noPage (s : State) : ((takeBit s).2).noPage = s.noPage := rfl
@[simp] theorem takeBit_arenas (s : State) : ((takeBit s).2).arenas = s.arenas := rfl
@[simp] theorem takeBit_drops (s : State) : ((takeBit s).2).drops = s.drops := rfl
@[simp] theorem takeBit_seals (s : State) : ((takeBit s).2).seals = s.seals := rfl
@[simp] theorem takeBit_filters (s : State) : ((takeBit s).2).filters = s.filters := rfl
@[simp] theorem takeBit_funcs (s : State) : ((takeBit s).2).funcs = s.funcs := rfl
@[simp] theorem takeBit_kernels (s : State) : ((takeBit s).2).kernels = s.kernels := rfl
@[simp] theorem takeBit_graphs (s : State) : ((takeBit s).2).graphs = s.graphs := rfl
@[simp] theorem takeBit_runs (s : State) : ((takeBit s).2).runs = s.runs := rfl
@[simp] theorem takeBit_acc (s : State) : ((takeBit s).2).acc = s.acc := rfl
@[simp] theorem takeBit_atoms (s : State) : ((takeBit s).2).atoms = s.atoms := rfl
@[simp] theorem takeBit_results (s : State) : ((takeBit s).2).results = s.results := rfl
@[simp] theorem takeBit_mops (s : State) : ((takeBit s).2).mops = s.mops := rfl
@[simp] theorem takeBit_posts (s : State) : ((takeBit s).2).posts = s.posts := rfl
@[simp] theorem takeBit_parks (s : State) : ((takeBit s).2).parks = s.parks := rfl
@[simp] theorem takeBit_tags (s : State) : ((takeBit s).2).tags = s.tags := rfl
@[simp] theorem takeBit_bins (s : State) : ((takeBit s).2).bins = s.bins := rfl
@[simp] theorem takeBit_heldConts (s : State) : ((takeBit s).2).heldConts = s.heldConts := rfl
@[simp] theorem takeBit_engs (s : State) : ((takeBit s).2).engs = s.engs := rfl
@[simp] theorem takeBit_colls (s : State) : ((takeBit s).2).colls = s.colls := rfl
@[simp] theorem takeBit_msgs (s : State) : ((takeBit s).2).msgs = s.msgs := rfl
@[simp] theorem takeBit_recvs (s : State) : ((takeBit s).2).recvs = s.recvs := rfl
@[simp] theorem takeBit_queues (s : State) : ((takeBit s).2).queues = s.queues := rfl
@[simp] theorem takeBit_detached (s : State) : ((takeBit s).2).detached = s.detached := rfl
@[simp] theorem takeBit_preempts (s : State) : ((takeBit s).2).preempts = s.preempts := rfl
@[simp] theorem takeBit_images (s : State) : ((takeBit s).2).images = s.images := rfl
@[simp] theorem takeBit_loans (s : State) : ((takeBit s).2).loans = s.loans := rfl
@[simp] theorem takeBit_idleSince (s : State) : ((takeBit s).2).idleSince = s.idleSince := rfl
@[simp] theorem takeBit_available (s : State) : ((takeBit s).2).available = s.available := rfl
@[simp] theorem takeBit_smap (s : State) : ((takeBit s).2).smap = s.smap := rfl
@[simp] theorem takeBit_softErr (s : State) : ((takeBit s).2).softErr = s.softErr := rfl
@[simp] theorem takeBit_dieDown (s : State) : ((takeBit s).2).dieDown = s.dieDown := rfl
@[simp] theorem takeBit_sramDown (s : State) : ((takeBit s).2).sramDown = s.sramDown := rfl
@[simp] theorem takeBit_throttle (s : State) : ((takeBit s).2).throttle = s.throttle := rfl
@[simp] theorem takeBit_power (s : State) : ((takeBit s).2).power = s.power := rfl
@[simp] theorem takeBit_below (s : State) : ((takeBit s).2).below = s.below := rfl
@[simp] theorem takeBit_temps (s : State) : ((takeBit s).2).temps = s.temps := rfl
@[simp] theorem takeBit_linksDown (s : State) : ((takeBit s).2).linksDown = s.linksDown := rfl
@[simp] theorem takeBit_linkSeq (s : State) : ((takeBit s).2).linkSeq = s.linkSeq := rfl
@[simp] theorem takeBit_linkRx (s : State) : ((takeBit s).2).linkRx = s.linkRx := rfl
@[simp] theorem takeBit_linkMsgs (s : State) : ((takeBit s).2).linkMsgs = s.linkMsgs := rfl
@[simp] theorem takeBit_linkTx (s : State) : ((takeBit s).2).linkTx = s.linkTx := rfl
@[simp] theorem takeBit_linkTxSeq (s : State) : ((takeBit s).2).linkTxSeq = s.linkTxSeq := rfl
@[simp] theorem takeBit_linkFwd (s : State) : ((takeBit s).2).linkFwd = s.linkFwd := rfl
@[simp] theorem takeBit_hostDown (s : State) : ((takeBit s).2).hostDown = s.hostDown := rfl
@[simp] theorem takeBit_msix (s : State) : ((takeBit s).2).msix = s.msix := rfl
@[simp] theorem takeBit_flashA (s : State) : ((takeBit s).2).flashA = s.flashA := rfl
@[simp] theorem takeBit_flashB (s : State) : ((takeBit s).2).flashB = s.flashB := rfl
@[simp] theorem takeBit_flashCtr (s : State) : ((takeBit s).2).flashCtr = s.flashCtr := rfl
@[simp] theorem takeBit_record (s : State) : ((takeBit s).2).record = s.record := rfl
@[simp] theorem takeBit_pwrOk (s : State) : ((takeBit s).2).pwrOk = s.pwrOk := rfl
@[simp] theorem takeBit_up (s : State) : ((takeBit s).2).up = s.up := rfl
@[simp] theorem takeBit_sbOut (s : State) : ((takeBit s).2).sbOut = s.sbOut := rfl

/-! ### takeNat -/
@[simp] theorem takeNat_agenda (s : State) (n : Nat) : ((takeNat s n).2).agenda = s.agenda := rfl
@[simp] theorem takeNat_cur (s : State) (n : Nat) : ((takeNat s n).2).cur = s.cur := rfl
@[simp] theorem takeNat_nextId (s : State) (n : Nat) : ((takeNat s n).2).nextId = s.nextId := rfl
@[simp] theorem takeNat_wall (s : State) (n : Nat) : ((takeNat s n).2).wall = s.wall := rfl
@[simp] theorem takeNat_acs (s : State) (n : Nat) : ((takeNat s n).2).acs = s.acs := rfl
@[simp] theorem takeNat_ports (s : State) (n : Nat) : ((takeNat s n).2).ports = s.ports := rfl
@[simp] theorem takeNat_vregs (s : State) (n : Nat) : ((takeNat s n).2).vregs = s.vregs := rfl
@[simp] theorem takeNat_lanes (s : State) (n : Nat) : ((takeNat s n).2).lanes = s.lanes := rfl
@[simp] theorem takeNat_groups (s : State) (n : Nat) : ((takeNat s n).2).groups = s.groups := rfl
@[simp] theorem takeNat_teams (s : State) (n : Nat) : ((takeNat s n).2).teams = s.teams := rfl
@[simp] theorem takeNat_grids (s : State) (n : Nat) : ((takeNat s n).2).grids = s.grids := rfl
@[simp] theorem takeNat_board (s : State) (n : Nat) : ((takeNat s n).2).board = s.board := rfl
@[simp] theorem takeNat_slots (s : State) (n : Nat) : ((takeNat s n).2).slots = s.slots := rfl
@[simp] theorem takeNat_spm (s : State) (n : Nat) : ((takeNat s n).2).spm = s.spm := rfl
@[simp] theorem takeNat_tiles (s : State) (n : Nat) : ((takeNat s n).2).tiles = s.tiles := rfl
@[simp] theorem takeNat_side (s : State) (n : Nat) : ((takeNat s n).2).side = s.side := rfl
@[simp] theorem takeNat_l1 (s : State) (n : Nat) : ((takeNat s n).2).l1 = s.l1 := rfl
@[simp] theorem takeNat_mem (s : State) (n : Nat) : ((takeNat s n).2).mem = s.mem := rfl
@[simp] theorem takeNat_hdr (s : State) (n : Nat) : ((takeNat s n).2).hdr = s.hdr := rfl
@[simp] theorem takeNat_hostLines (s : State) (n : Nat) : ((takeNat s n).2).hostLines = s.hostLines := rfl
@[simp] theorem takeNat_slices (s : State) (n : Nat) : ((takeNat s n).2).slices = s.slices := rfl
@[simp] theorem takeNat_psel (s : State) (n : Nat) : ((takeNat s n).2).psel = s.psel := rfl
@[simp] theorem takeNat_p1Fills (s : State) (n : Nat) : ((takeNat s n).2).p1Fills = s.p1Fills := rfl
@[simp] theorem takeNat_zeros (s : State) (n : Nat) : ((takeNat s n).2).zeros = s.zeros := rfl
@[simp] theorem takeNat_prm (s : State) (n : Nat) : ((takeNat s n).2).prm = s.prm := rfl
@[simp] theorem takeNat_hostHeld (s : State) (n : Nat) : ((takeNat s n).2).hostHeld = s.hostHeld := rfl
@[simp] theorem takeNat_poison (s : State) (n : Nat) : ((takeNat s n).2).poison = s.poison := rfl
@[simp] theorem takeNat_poisonRegs (s : State) (n : Nat) : ((takeNat s n).2).poisonRegs = s.poisonRegs := rfl
@[simp] theorem takeNat_poisonSpm (s : State) (n : Nat) : ((takeNat s n).2).poisonSpm = s.poisonSpm := rfl
@[simp] theorem takeNat_poisonTiles (s : State) (n : Nat) : ((takeNat s n).2).poisonTiles = s.poisonTiles := rfl
@[simp] theorem takeNat_poisonPages (s : State) (n : Nat) : ((takeNat s n).2).poisonPages = s.poisonPages := rfl
@[simp] theorem takeNat_pages (s : State) (n : Nat) : ((takeNat s n).2).pages = s.pages := rfl
@[simp] theorem takeNat_frames (s : State) (n : Nat) : ((takeNat s n).2).frames = s.frames := rfl
@[simp] theorem takeNat_tlb (s : State) (n : Nat) : ((takeNat s n).2).tlb = s.tlb := rfl
@[simp] theorem takeNat_service (s : State) (n : Nat) : ((takeNat s n).2).service = s.service := rfl
@[simp] theorem takeNat_walks (s : State) (n : Nat) : ((takeNat s n).2).walks = s.walks := rfl
@[simp] theorem takeNat_noPage (s : State) (n : Nat) : ((takeNat s n).2).noPage = s.noPage := rfl
@[simp] theorem takeNat_arenas (s : State) (n : Nat) : ((takeNat s n).2).arenas = s.arenas := rfl
@[simp] theorem takeNat_drops (s : State) (n : Nat) : ((takeNat s n).2).drops = s.drops := rfl
@[simp] theorem takeNat_seals (s : State) (n : Nat) : ((takeNat s n).2).seals = s.seals := rfl
@[simp] theorem takeNat_filters (s : State) (n : Nat) : ((takeNat s n).2).filters = s.filters := rfl
@[simp] theorem takeNat_funcs (s : State) (n : Nat) : ((takeNat s n).2).funcs = s.funcs := rfl
@[simp] theorem takeNat_kernels (s : State) (n : Nat) : ((takeNat s n).2).kernels = s.kernels := rfl
@[simp] theorem takeNat_graphs (s : State) (n : Nat) : ((takeNat s n).2).graphs = s.graphs := rfl
@[simp] theorem takeNat_runs (s : State) (n : Nat) : ((takeNat s n).2).runs = s.runs := rfl
@[simp] theorem takeNat_acc (s : State) (n : Nat) : ((takeNat s n).2).acc = s.acc := rfl
@[simp] theorem takeNat_atoms (s : State) (n : Nat) : ((takeNat s n).2).atoms = s.atoms := rfl
@[simp] theorem takeNat_results (s : State) (n : Nat) : ((takeNat s n).2).results = s.results := rfl
@[simp] theorem takeNat_mops (s : State) (n : Nat) : ((takeNat s n).2).mops = s.mops := rfl
@[simp] theorem takeNat_posts (s : State) (n : Nat) : ((takeNat s n).2).posts = s.posts := rfl
@[simp] theorem takeNat_parks (s : State) (n : Nat) : ((takeNat s n).2).parks = s.parks := rfl
@[simp] theorem takeNat_tags (s : State) (n : Nat) : ((takeNat s n).2).tags = s.tags := rfl
@[simp] theorem takeNat_bins (s : State) (n : Nat) : ((takeNat s n).2).bins = s.bins := rfl
@[simp] theorem takeNat_heldConts (s : State) (n : Nat) : ((takeNat s n).2).heldConts = s.heldConts := rfl
@[simp] theorem takeNat_engs (s : State) (n : Nat) : ((takeNat s n).2).engs = s.engs := rfl
@[simp] theorem takeNat_colls (s : State) (n : Nat) : ((takeNat s n).2).colls = s.colls := rfl
@[simp] theorem takeNat_msgs (s : State) (n : Nat) : ((takeNat s n).2).msgs = s.msgs := rfl
@[simp] theorem takeNat_recvs (s : State) (n : Nat) : ((takeNat s n).2).recvs = s.recvs := rfl
@[simp] theorem takeNat_queues (s : State) (n : Nat) : ((takeNat s n).2).queues = s.queues := rfl
@[simp] theorem takeNat_detached (s : State) (n : Nat) : ((takeNat s n).2).detached = s.detached := rfl
@[simp] theorem takeNat_preempts (s : State) (n : Nat) : ((takeNat s n).2).preempts = s.preempts := rfl
@[simp] theorem takeNat_images (s : State) (n : Nat) : ((takeNat s n).2).images = s.images := rfl
@[simp] theorem takeNat_loans (s : State) (n : Nat) : ((takeNat s n).2).loans = s.loans := rfl
@[simp] theorem takeNat_idleSince (s : State) (n : Nat) : ((takeNat s n).2).idleSince = s.idleSince := rfl
@[simp] theorem takeNat_available (s : State) (n : Nat) : ((takeNat s n).2).available = s.available := rfl
@[simp] theorem takeNat_smap (s : State) (n : Nat) : ((takeNat s n).2).smap = s.smap := rfl
@[simp] theorem takeNat_softErr (s : State) (n : Nat) : ((takeNat s n).2).softErr = s.softErr := rfl
@[simp] theorem takeNat_dieDown (s : State) (n : Nat) : ((takeNat s n).2).dieDown = s.dieDown := rfl
@[simp] theorem takeNat_sramDown (s : State) (n : Nat) : ((takeNat s n).2).sramDown = s.sramDown := rfl
@[simp] theorem takeNat_throttle (s : State) (n : Nat) : ((takeNat s n).2).throttle = s.throttle := rfl
@[simp] theorem takeNat_power (s : State) (n : Nat) : ((takeNat s n).2).power = s.power := rfl
@[simp] theorem takeNat_below (s : State) (n : Nat) : ((takeNat s n).2).below = s.below := rfl
@[simp] theorem takeNat_temps (s : State) (n : Nat) : ((takeNat s n).2).temps = s.temps := rfl
@[simp] theorem takeNat_linksDown (s : State) (n : Nat) : ((takeNat s n).2).linksDown = s.linksDown := rfl
@[simp] theorem takeNat_linkSeq (s : State) (n : Nat) : ((takeNat s n).2).linkSeq = s.linkSeq := rfl
@[simp] theorem takeNat_linkRx (s : State) (n : Nat) : ((takeNat s n).2).linkRx = s.linkRx := rfl
@[simp] theorem takeNat_linkMsgs (s : State) (n : Nat) : ((takeNat s n).2).linkMsgs = s.linkMsgs := rfl
@[simp] theorem takeNat_linkTx (s : State) (n : Nat) : ((takeNat s n).2).linkTx = s.linkTx := rfl
@[simp] theorem takeNat_linkTxSeq (s : State) (n : Nat) : ((takeNat s n).2).linkTxSeq = s.linkTxSeq := rfl
@[simp] theorem takeNat_linkFwd (s : State) (n : Nat) : ((takeNat s n).2).linkFwd = s.linkFwd := rfl
@[simp] theorem takeNat_hostDown (s : State) (n : Nat) : ((takeNat s n).2).hostDown = s.hostDown := rfl
@[simp] theorem takeNat_msix (s : State) (n : Nat) : ((takeNat s n).2).msix = s.msix := rfl
@[simp] theorem takeNat_flashA (s : State) (n : Nat) : ((takeNat s n).2).flashA = s.flashA := rfl
@[simp] theorem takeNat_flashB (s : State) (n : Nat) : ((takeNat s n).2).flashB = s.flashB := rfl
@[simp] theorem takeNat_flashCtr (s : State) (n : Nat) : ((takeNat s n).2).flashCtr = s.flashCtr := rfl
@[simp] theorem takeNat_record (s : State) (n : Nat) : ((takeNat s n).2).record = s.record := rfl
@[simp] theorem takeNat_pwrOk (s : State) (n : Nat) : ((takeNat s n).2).pwrOk = s.pwrOk := rfl
@[simp] theorem takeNat_up (s : State) (n : Nat) : ((takeNat s n).2).up = s.up := rfl
@[simp] theorem takeNat_sbOut (s : State) (n : Nat) : ((takeNat s n).2).sbOut = s.sbOut := rfl

/-! ### endLane -/
@[simp] theorem endLane_agenda (s : State) (k : Nat) : (endLane s k).agenda = s.agenda := rfl
@[simp] theorem endLane_cur (s : State) (k : Nat) : (endLane s k).cur = s.cur := rfl
@[simp] theorem endLane_freeCtr (s : State) (k : Nat) : (endLane s k).freeCtr = s.freeCtr := rfl
@[simp] theorem endLane_nextId (s : State) (k : Nat) : (endLane s k).nextId = s.nextId := rfl
@[simp] theorem endLane_wall (s : State) (k : Nat) : (endLane s k).wall = s.wall := rfl
@[simp] theorem endLane_acs (s : State) (k : Nat) : (endLane s k).acs = s.acs := rfl
@[simp] theorem endLane_ports (s : State) (k : Nat) : (endLane s k).ports = s.ports := rfl
@[simp] theorem endLane_vregs (s : State) (k : Nat) : (endLane s k).vregs = s.vregs := rfl
@[simp] theorem endLane_groups (s : State) (k : Nat) : (endLane s k).groups = s.groups := rfl
@[simp] theorem endLane_teams (s : State) (k : Nat) : (endLane s k).teams = s.teams := rfl
@[simp] theorem endLane_grids (s : State) (k : Nat) : (endLane s k).grids = s.grids := rfl
@[simp] theorem endLane_board (s : State) (k : Nat) : (endLane s k).board = s.board := rfl
@[simp] theorem endLane_slots (s : State) (k : Nat) : (endLane s k).slots = s.slots := rfl
@[simp] theorem endLane_spm (s : State) (k : Nat) : (endLane s k).spm = s.spm := rfl
@[simp] theorem endLane_tiles (s : State) (k : Nat) : (endLane s k).tiles = s.tiles := rfl
@[simp] theorem endLane_side (s : State) (k : Nat) : (endLane s k).side = s.side := rfl
@[simp] theorem endLane_l1 (s : State) (k : Nat) : (endLane s k).l1 = s.l1 := rfl
@[simp] theorem endLane_mem (s : State) (k : Nat) : (endLane s k).mem = s.mem := rfl
@[simp] theorem endLane_hdr (s : State) (k : Nat) : (endLane s k).hdr = s.hdr := rfl
@[simp] theorem endLane_hostLines (s : State) (k : Nat) : (endLane s k).hostLines = s.hostLines := rfl
@[simp] theorem endLane_slices (s : State) (k : Nat) : (endLane s k).slices = s.slices := rfl
@[simp] theorem endLane_psel (s : State) (k : Nat) : (endLane s k).psel = s.psel := rfl
@[simp] theorem endLane_p1Fills (s : State) (k : Nat) : (endLane s k).p1Fills = s.p1Fills := rfl
@[simp] theorem endLane_zeros (s : State) (k : Nat) : (endLane s k).zeros = s.zeros := rfl
@[simp] theorem endLane_prm (s : State) (k : Nat) : (endLane s k).prm = s.prm := rfl
@[simp] theorem endLane_hostHeld (s : State) (k : Nat) : (endLane s k).hostHeld = s.hostHeld := rfl
@[simp] theorem endLane_poison (s : State) (k : Nat) : (endLane s k).poison = s.poison := rfl
@[simp] theorem endLane_poisonRegs (s : State) (k : Nat) : (endLane s k).poisonRegs = s.poisonRegs := rfl
@[simp] theorem endLane_poisonSpm (s : State) (k : Nat) : (endLane s k).poisonSpm = s.poisonSpm := rfl
@[simp] theorem endLane_poisonTiles (s : State) (k : Nat) : (endLane s k).poisonTiles = s.poisonTiles := rfl
@[simp] theorem endLane_poisonPages (s : State) (k : Nat) : (endLane s k).poisonPages = s.poisonPages := rfl
@[simp] theorem endLane_pages (s : State) (k : Nat) : (endLane s k).pages = s.pages := rfl
@[simp] theorem endLane_frames (s : State) (k : Nat) : (endLane s k).frames = s.frames := rfl
@[simp] theorem endLane_tlb (s : State) (k : Nat) : (endLane s k).tlb = s.tlb := rfl
@[simp] theorem endLane_service (s : State) (k : Nat) : (endLane s k).service = s.service := rfl
@[simp] theorem endLane_walks (s : State) (k : Nat) : (endLane s k).walks = s.walks := rfl
@[simp] theorem endLane_noPage (s : State) (k : Nat) : (endLane s k).noPage = s.noPage := rfl
@[simp] theorem endLane_arenas (s : State) (k : Nat) : (endLane s k).arenas = s.arenas := rfl
@[simp] theorem endLane_drops (s : State) (k : Nat) : (endLane s k).drops = s.drops := rfl
@[simp] theorem endLane_seals (s : State) (k : Nat) : (endLane s k).seals = s.seals := rfl
@[simp] theorem endLane_filters (s : State) (k : Nat) : (endLane s k).filters = s.filters := rfl
@[simp] theorem endLane_funcs (s : State) (k : Nat) : (endLane s k).funcs = s.funcs := rfl
@[simp] theorem endLane_kernels (s : State) (k : Nat) : (endLane s k).kernels = s.kernels := rfl
@[simp] theorem endLane_graphs (s : State) (k : Nat) : (endLane s k).graphs = s.graphs := rfl
@[simp] theorem endLane_runs (s : State) (k : Nat) : (endLane s k).runs = s.runs := rfl
@[simp] theorem endLane_acc (s : State) (k : Nat) : (endLane s k).acc = s.acc := rfl
@[simp] theorem endLane_atoms (s : State) (k : Nat) : (endLane s k).atoms = s.atoms := rfl
@[simp] theorem endLane_results (s : State) (k : Nat) : (endLane s k).results = s.results := rfl
@[simp] theorem endLane_mops (s : State) (k : Nat) : (endLane s k).mops = s.mops := rfl
@[simp] theorem endLane_posts (s : State) (k : Nat) : (endLane s k).posts = s.posts := rfl
@[simp] theorem endLane_parks (s : State) (k : Nat) : (endLane s k).parks = s.parks := rfl
@[simp] theorem endLane_tags (s : State) (k : Nat) : (endLane s k).tags = s.tags := rfl
@[simp] theorem endLane_bins (s : State) (k : Nat) : (endLane s k).bins = s.bins := rfl
@[simp] theorem endLane_heldConts (s : State) (k : Nat) : (endLane s k).heldConts = s.heldConts := rfl
@[simp] theorem endLane_engs (s : State) (k : Nat) : (endLane s k).engs = s.engs := rfl
@[simp] theorem endLane_colls (s : State) (k : Nat) : (endLane s k).colls = s.colls := rfl
@[simp] theorem endLane_msgs (s : State) (k : Nat) : (endLane s k).msgs = s.msgs := rfl
@[simp] theorem endLane_recvs (s : State) (k : Nat) : (endLane s k).recvs = s.recvs := rfl
@[simp] theorem endLane_queues (s : State) (k : Nat) : (endLane s k).queues = s.queues := rfl
@[simp] theorem endLane_detached (s : State) (k : Nat) : (endLane s k).detached = s.detached := rfl
@[simp] theorem endLane_preempts (s : State) (k : Nat) : (endLane s k).preempts = s.preempts := rfl
@[simp] theorem endLane_images (s : State) (k : Nat) : (endLane s k).images = s.images := rfl
@[simp] theorem endLane_loans (s : State) (k : Nat) : (endLane s k).loans = s.loans := rfl
@[simp] theorem endLane_idleSince (s : State) (k : Nat) : (endLane s k).idleSince = s.idleSince := rfl
@[simp] theorem endLane_available (s : State) (k : Nat) : (endLane s k).available = s.available := rfl
@[simp] theorem endLane_smap (s : State) (k : Nat) : (endLane s k).smap = s.smap := rfl
@[simp] theorem endLane_softErr (s : State) (k : Nat) : (endLane s k).softErr = s.softErr := rfl
@[simp] theorem endLane_dieDown (s : State) (k : Nat) : (endLane s k).dieDown = s.dieDown := rfl
@[simp] theorem endLane_sramDown (s : State) (k : Nat) : (endLane s k).sramDown = s.sramDown := rfl
@[simp] theorem endLane_throttle (s : State) (k : Nat) : (endLane s k).throttle = s.throttle := rfl
@[simp] theorem endLane_power (s : State) (k : Nat) : (endLane s k).power = s.power := rfl
@[simp] theorem endLane_below (s : State) (k : Nat) : (endLane s k).below = s.below := rfl
@[simp] theorem endLane_temps (s : State) (k : Nat) : (endLane s k).temps = s.temps := rfl
@[simp] theorem endLane_linksDown (s : State) (k : Nat) : (endLane s k).linksDown = s.linksDown := rfl
@[simp] theorem endLane_linkSeq (s : State) (k : Nat) : (endLane s k).linkSeq = s.linkSeq := rfl
@[simp] theorem endLane_linkRx (s : State) (k : Nat) : (endLane s k).linkRx = s.linkRx := rfl
@[simp] theorem endLane_linkMsgs (s : State) (k : Nat) : (endLane s k).linkMsgs = s.linkMsgs := rfl
@[simp] theorem endLane_linkTx (s : State) (k : Nat) : (endLane s k).linkTx = s.linkTx := rfl
@[simp] theorem endLane_linkTxSeq (s : State) (k : Nat) : (endLane s k).linkTxSeq = s.linkTxSeq := rfl
@[simp] theorem endLane_linkFwd (s : State) (k : Nat) : (endLane s k).linkFwd = s.linkFwd := rfl
@[simp] theorem endLane_hostDown (s : State) (k : Nat) : (endLane s k).hostDown = s.hostDown := rfl
@[simp] theorem endLane_msix (s : State) (k : Nat) : (endLane s k).msix = s.msix := rfl
@[simp] theorem endLane_flashA (s : State) (k : Nat) : (endLane s k).flashA = s.flashA := rfl
@[simp] theorem endLane_flashB (s : State) (k : Nat) : (endLane s k).flashB = s.flashB := rfl
@[simp] theorem endLane_flashCtr (s : State) (k : Nat) : (endLane s k).flashCtr = s.flashCtr := rfl
@[simp] theorem endLane_record (s : State) (k : Nat) : (endLane s k).record = s.record := rfl
@[simp] theorem endLane_pwrOk (s : State) (k : Nat) : (endLane s k).pwrOk = s.pwrOk := rfl
@[simp] theorem endLane_up (s : State) (k : Nat) : (endLane s k).up = s.up := rfl
@[simp] theorem endLane_sbOut (s : State) (k : Nat) : (endLane s k).sbOut = s.sbOut := rfl

end Sys2Proof.Machine
end

