-- ==== Sys2Proof/Laws/Memory.lean ====
section
/-! SUPPORT. Memory at its home: every operation on it keeps the canonical form, and what a read gives after a write. -/
namespace Sys2Proof.Machine

theorem Memory.wf_iff (m : List Host.Cell) : Memory.wf m = true ↔ Tab.sorted m = true ∧ Tab.noZero m = true := by
  simp [Memory.wf]

/-- Writing a byte keeps the canonical form. -/
theorem Memory.wf_wr {m : List Host.Cell} (a : Nat) (b : Byte) (h : Memory.wf m = true) : Memory.wf (Tab.wr m a b) = true := by
  obtain ⟨h1, h2⟩ := (Memory.wf_iff m).1 h
  exact (Memory.wf_iff _).2 ⟨Tab.sorted_wr a b h1, Tab.noZero_wr a b h2⟩

/-- Clearing a range keeps the canonical form. -/
theorem Memory.wf_clear {m : List Host.Cell} (lo len : Nat) (h : Memory.wf m = true) : Memory.wf (Tab.clear m lo len) = true := by
  obtain ⟨h1, h2⟩ := (Memory.wf_iff m).1 h
  exact (Memory.wf_iff _).2 ⟨Tab.sorted_clear lo len h1, Tab.noZero_clear lo len h2⟩

/-- A fold of steps that each keep a property keeps it. -/
theorem foldl_keeps {α β : Type} {P : β → Prop} (f : β → α → β) (hf : ∀ b a, P b → P (f b a)) (l : List α) (b : β) (h : P b) :
    P (l.foldl f b) := by
  induction l generalizing b with
  | nil => exact h
  | cons a l ih => exact ih _ (hf b a h)

/-- Two equal functions of the state, folded, leave a field as it was. -/
theorem foldl_same {α β γ : Type} (g : β → γ) (f : β → α → β) (hf : ∀ b a, g (f b a) = g b) (l : List α) (b : β) : g (l.foldl f b) = g b := by
  induction l generalizing b with
  | nil => rfl
  | cons a l ih => rw [List.foldl_cons, ih, hf]

/-! ### The canonical form -/

/-- Memory has its canonical form in the state. -/
abbrev memWf (s : State) : Prop := Memory.wf s.mem = true

theorem unmark_wf (s : State) (tag line : Nat) (h : memWf s) : memWf (unmark s tag line) := by
  unfold unmark
  split
  · dsimp only; split
    · exact h
    · exact Memory.wf_clear _ _ h
  · exact h
theorem setHomeByte_wf (s : State) (tag pa : Nat) (b : Byte) (h : memWf s) : memWf (setHomeByte s tag pa b) := by
  have hu := unmark_wf s tag (pa / 64) h
  unfold setHomeByte
  dsimp only
  split
  · exact hu
  · exact Memory.wf_wr _ _ hu
theorem setHomeBytes_wf (s : State) (tag pa : Nat) (bs : List Byte) (h : memWf s) : memWf (setHomeBytes s tag pa bs) := by
  induction bs generalizing s pa with
  | nil => exact h
  | cons b t ih => exact ih _ _ (setHomeByte_wf s tag pa b h)
theorem hostWrite_wf (s : State) (key : Nat) (h : memWf s) : memWf (hostWrite s key) := by
  unfold hostWrite
  dsimp only
  split
  · show Memory.wf _ = true
    dsimp only
    split
    · refine foldl_keeps (P := fun m => Memory.wf m = true) _ ?_ _ _ h
      intro m a hm
      split
      · exact Memory.wf_wr _ _ hm
      · exact hm
    · exact h
  · exact h
theorem zeroLine_wf (s : State) (line : Nat) (h : memWf s) : memWf (zeroLine s line) := Memory.wf_clear _ _ h
theorem markSlice_wf (page n : Nat) (s : State) (k : Nat) (h : memWf s) : memWf (markSlice page n s k) := by
  show Memory.wf (State.mem _) = true
  exact foldl_keeps (P := memWf) _ (fun t z ht => foldl_keeps (P := memWf) _ (fun u l hu => zeroLine_wf u l hu) _ _ ht) _ _ h
theorem zeroRange_wf (s : State) (pa len : Nat) (h : memWf s) : memWf (zeroRange s pa len) := by
  unfold zeroRange
  exact foldl_keeps (P := memWf) _ (fun t k ht => markSlice_wf _ _ t k ht) _ _ h
theorem hostUnmark_wf (s : State) (line : Nat) (h : memWf s) : memWf (hostUnmark s line) := by
  unfold hostUnmark
  split
  · exact zeroLine_wf _ _ h
  · exact h
theorem writeHost_wf (s : State) (addr : Nat) (bs : List Byte) (h : memWf s) : memWf (writeHost s addr bs) := by
  unfold writeHost
  dsimp only
  refine foldl_keeps (P := fun m => Memory.wf m = true) _ (fun _ _ hm => Memory.wf_wr _ _ hm) _ _ ?_
  split
  · exact h
  · exact foldl_keeps (P := memWf) _ (fun t l ht => hostUnmark_wf t l ht) _ _ h
@[simp] theorem sendAcc_mem (s : State) (a : Access) : (sendAcc s a).mem = s.mem := rfl
theorem sliceEvict_wf (s : State) (key : Nat) (h : memWf s) : memWf (sliceEvict s key) := by
  unfold sliceEvict
  split
  · exact h
  · dsimp only
    split
    · exact h
    · split
      · exact hostWrite_wf _ _ h
      · exact hostWrite_wf _ _ h
@[simp] theorem countMiss_mem (s : State) (a b c : Nat) : (countMiss s a b c).mem = s.mem := by
  unfold countMiss; dsimp only; split
  · rfl
  · split <;> rfl
@[simp] theorem insertRrpv_mem (s : State) (a b c d : Nat) : (insertRrpv s a b c d).2.mem = s.mem := by
  unfold insertRrpv; dsimp only; split
  · rfl
  · split
    · rfl
    · split <;> rfl
theorem freeWay_wf (s : State) (slice line : Nat) (h : memWf s) : memWf (freeWay s slice line).2 := by
  unfold freeWay
  split
  · exact h
  · exact sliceEvict_wf _ _ h
theorem sliceInsert_wf (s : State) (slice line tag tc cc : Nat) (st : SliceState) (h : memWf s) : memWf (sliceInsert s slice line tag tc cc st) := by
  unfold sliceInsert
  show Memory.wf (insertRrpv _ _ _ _ _).2.mem = true
  rw [insertRrpv_mem]
  exact freeWay_wf _ _ _ (by rw [memWf, countMiss_mem]; exact h)
theorem touch_wf (s : State) (tc cc tag line : Nat) (w : Bool) (h : memWf s) : memWf (touch s tc cc tag line w) := by
  unfold touch
  dsimp only
  split
  · exact h
  · split
    · exact h
    · refine sliceInsert_wf _ _ _ _ _ _ _ ?_
      split <;> exact h
theorem mergeHome_wf (s : State) (tc cc tag pa : Nat) (bs : List Byte) (h : memWf s) : memWf (mergeHome s tc cc tag pa bs) :=
  touch_wf _ _ _ _ _ _ (setHomeBytes_wf _ _ _ _ h)
theorem mergeLine_wf (s : State) (pair line : Nat) (l : L1Line) (h : memWf s) : memWf (mergeLine s pair line l) := by
  unfold mergeLine
  split
  · dsimp only
    have hf : memWf ((upTo 0 64).foldl (fun t o => if l.dmask.getLsbD o then setHomeByte t l.tag (line * 64 + o) (l.data.rd o) else t) s) :=
      foldl_keeps (P := memWf) _ (fun t o ht => by split; · exact setHomeByte_wf _ _ _ _ ht
                                                   · exact ht) _ _ h
    split <;> exact touch_wf _ _ _ _ _ _ hf
  · exact h
theorem writeBack_wf (s : State) (key : Nat) (h : memWf s) : memWf (writeBack s key) := by
  unfold writeBack
  split
  · exact mergeLine_wf _ _ _ _ h
  · exact h
theorem flushNow_wf (s : State) (pair dom : Nat) (h : memWf s) : memWf (flushNow s pair dom) :=
  foldl_keeps (P := memWf) _ (fun t e ht => writeBack_wf t e.1 ht) _ _ h
theorem flushHostNow_wf (s : State) (dom : Nat) (h : memWf s) : memWf (flushHostNow s dom) :=
  foldl_keeps (P := memWf) _ (fun t k ht => hostWrite_wf t k ht) _ _ h
theorem trace_wf (s : State) (f event core dom : Nat) (payload : List Byte) (h : memWf s) : memWf (trace s f event core dom payload) := by
  unfold trace; dsimp only
  split
  · exact h
  · split
    · exact h
    · exact writeHost_wf _ _ _ (writeHost_wf _ _ _ h)

/-- The memory of the reset state has the canonical form. -/
theorem reset_wf : Memory.wf State.reset.mem = true := by decide

/-! ### What a read gives after a write -/

/-- The line of the mark is unmarked, and every other line's mark stays (R159). -/
theorem zeroMarked_unmark (s : State) (tag line l : Nat) : zeroMarked (unmark s tag line) l = (zeroMarked s l && decide (l ≠ line)) := by
  unfold unmark
  split
  · rename_i hm
    have key : ∀ (t : State), t.zeros = s.zeros.put (homeNo (logicalHome (line * 64))) (((s.zeros.get? (homeNo (logicalHome (line * 64)))).getD []).map fun z => { z with done := line :: z.done }) →
        zeroMarked t l = (zeroMarked s l && decide (l ≠ line)) := by
      intro t ht
      unfold zeroMarked
      rw [ht]
      by_cases hk : homeNo (logicalHome (l * 64)) = homeNo (logicalHome (line * 64))
      · rw [hk, Tab.get?_put_self]
        simp only [Option.getD_some, List.any_map]
        by_cases hl : l = line
        · subst hl; simp
        · simp only [ne_eq, hl, not_false_eq_true, decide_true, Bool.and_true]
          congr 1
          funext z
          simp [hl]
      · rw [Tab.get?_put_ne _ _ hk]
        have hl : l ≠ line := by rintro rfl; exact hk rfl
        simp [hl]
    dsimp only
    split
    · exact key _ rfl
    · exact key _ rfl
  · rename_i hm
    by_cases hl : l = line
    · subst hl; simp [hm]
    · simp [hl]

theorem zeroMarked_of_zeros {s t : State} (h : t.zeros = s.zeros) (l : Nat) : zeroMarked t l = zeroMarked s l := by
  unfold zeroMarked; rw [h]
/-- A line stands whole in host memory or outside it. -/
theorem isHost_line {a b : Nat} (h : a / 64 = b / 64) : isHost a = isHost b := by
  have hp : Config.paHost = 64 * 35184372088832 := rfl
  unfold isHost
  rw [hp]
  exact decide_eq_decide.2 (by omega)
theorem hostKey_ne {a b : Nat} (tag : Nat) (h : a ≠ b) : hostKey a tag ≠ hostKey b tag := by
  intro e; unfold hostKey at e; omega
theorem rd_clear_line {t : Tab Byte} {line a : Nat} (hs : t.sorted = true) (hl : a / 64 ≠ line) : Tab.rd (t.clear (line * 64) 64) a = t.rd a := by
  rw [Tab.rd_clear _ _ _ hs, if_neg (by rintro ⟨h1, h2⟩; exact hl (by omega))]
/-- A byte of an unmarked line, from the two tables that hold it. -/
def heldByte (hl : Tab HostLine) (mem : Tab Byte) (tag a : Nat) : Byte :=
  if isHost a then
    match hl.get? (hostKey (a / 64) tag) with
    | some h => h.data.rd (a % 64)
    | none => Tab.rd mem a
  else Tab.rd mem a
theorem homeByte_eq (s : State) (tag a : Nat) : homeByte s tag a = if zeroMarked s (a / 64) then 0 else heldByte s.hostLines s.mem tag a := rfl
theorem homeByte_hostLines (s : State) (hl : Tab HostLine) (tag a : Nat) :
    homeByte { s with hostLines := hl } tag a = if zeroMarked s (a / 64) then 0 else heldByte hl s.mem tag a := rfl
theorem homeByte_mem (s : State) (m : Tab Byte) (tag a : Nat) :
    homeByte { s with mem := m } tag a = if zeroMarked s (a / 64) then 0 else heldByte s.hostLines m tag a := rfl
theorem heldByte_host {hl : Tab HostLine} {mem : Tab Byte} {tag a : Nat} (h : isHost a = true) :
    heldByte hl mem tag a = ((hl.get? (hostKey (a / 64) tag)).map (·.data.rd (a % 64))).getD (Tab.rd mem a) := by
  unfold heldByte
  rw [if_pos h]
  cases hl.get? (hostKey (a / 64) tag) <;> rfl
theorem heldByte_far {hl : Tab HostLine} {mem : Tab Byte} {tag a : Nat} (h : isHost a = false) : heldByte hl mem tag a = Tab.rd mem a := by
  unfold heldByte; rw [if_neg (by simp [h])]

/-- A line that leaves the zero state still reads zero under the tag that wrote it, and every other byte as before (R159). -/
theorem homeByte_unmark (s : State) (tag line a : Nat) (h : memWf s) : homeByte (unmark s tag line) tag a = homeByte s tag a := by
  have hs := ((Memory.wf_iff _).1 h).1
  rw [homeByte_eq, homeByte_eq, zeroMarked_unmark]
  by_cases hm : zeroMarked s line = true
  · have hu : (unmark s tag line).hostLines = (if isHost (line * 64) then s.hostLines.put (hostKey line tag) ⟨[], BitVec.allOnes 64⟩ else s.hostLines) ∧
        (unmark s tag line).mem = (if isHost (line * 64) then s.mem else Tab.clear s.mem (line * 64) 64) := by
      unfold unmark; rw [if_pos hm]; dsimp only; split <;> exact ⟨rfl, rfl⟩
    rw [hu.1, hu.2]
    by_cases hl : a / 64 = line
    · subst hl
      rw [show isHost (a / 64 * 64) = isHost a from isHost_line (by omega)]
      cases hh : isHost a with
      | true => rw [if_pos rfl, if_pos rfl, heldByte_host hh, Tab.get?_put_self]; simp [hm]; rfl
      | false =>
        rw [if_neg (by simp), heldByte_far hh, if_neg (by simp), Tab.rd_clear _ _ _ hs, if_pos (by omega)]; simp [hm]
    · simp only [ne_eq, hl, not_false_eq_true, decide_true, Bool.and_true]
      congr 1
      cases hh : isHost a with
      | true =>
        rw [heldByte_host hh, heldByte_host hh]
        cases hq : isHost (line * 64) with
        | true => rw [if_pos rfl, if_pos rfl, Tab.get?_put_ne _ _ (hostKey_ne tag hl)]
        | false => rw [if_neg (by simp), if_neg (by simp), rd_clear_line hs hl]
      | false =>
        rw [heldByte_far hh, heldByte_far hh]
        split
        · rfl
        · exact rd_clear_line hs hl
  · have hu : unmark s tag line = s := by unfold unmark; rw [if_neg hm]
    rw [hu]
    by_cases hl : a / 64 = line
    · subst hl; simp [hm]
    · simp [hl]

/-- The data of every host-backed line stand in canonical form. -/
abbrev hostWf (s : State) : Prop := ∀ e ∈ s.hostLines, Tab.sorted e.2.data = true
theorem fetchHost_sorted (s : State) (line : Nat) : Tab.sorted (fetchHost s line).data = true :=
  foldl_keeps (P := fun (t : Tab Byte) => t.sorted = true) _ (fun _ _ ht => Tab.sorted_wr _ _ ht) _ _ rfl
theorem Tab.mem_of_get? {α : Type} {t : Tab α} {n : Nat} {x : α} (h : t.get? n = some x) : ∃ k, (k, x) ∈ t := by
  induction t with
  | nil => simp at h
  | cons e t ih =>
    obtain ⟨k, v⟩ := e
    simp only [Tab.get?_cons] at h
    split_ifs at h
    · simp only [Option.some.injEq] at h; subst h; exact ⟨k, by simp⟩
    · obtain ⟨k', hk⟩ := ih h; exact ⟨k', List.mem_cons_of_mem _ hk⟩
theorem unmark_hostWf (s : State) (tag line : Nat) (h : hostWf s) : hostWf (unmark s tag line) := by
  unfold unmark
  split
  · dsimp only; split
    · intro e he
      rcases Tab.mem_put he with rfl | he
      · rfl
      · exact h e he
    · exact h
  · exact h
/-- The bytes that a fetch of a host-backed line brings are those of host memory. -/
theorem fetchHost_rd (s : State) (line o : Nat) (ho : o < 64) : (fetchHost s line).data.rd o = Tab.rd s.mem (line * 64 + o) := by
  have gen : ∀ (l : List Nat) (t : Tab Byte), t.sorted = true →
      Tab.rd (l.foldl (fun (t : Tab Byte) o => t.wr o (Tab.rd s.mem (line * 64 + o))) t) o = if o ∈ l then Tab.rd s.mem (line * 64 + o) else t.rd o := by
    intro l
    induction l with
    | nil => intro t _; simp
    | cons a l ih =>
      intro t ht
      rw [List.foldl_cons, ih _ (Tab.sorted_wr _ _ ht), Tab.rd_wr _ _ _ ht]
      by_cases h1 : o ∈ l
      · simp [h1]
      · by_cases h2 : o = a
        · subst h2; simp [h1]
        · simp [h1, h2]
  unfold fetchHost
  rw [gen _ _ rfl, if_pos ((mem_upTo 0 64 o).2 ⟨Nat.zero_le _, by omega⟩)]

/-- A byte merged at its home reads back under its tag, and every other byte reads as before (R2, R344). -/
theorem homeByte_setHomeByte (s : State) (tag pa a : Nat) (b : Byte) (h : memWf s) (hl : hostWf s) :
    homeByte (setHomeByte s tag pa b) tag a = if a = pa then b else homeByte s tag a := by
  rw [← homeByte_unmark s tag (pa / 64) a h]
  have hu := unmark_wf s tag (pa / 64) h
  have hul := unmark_hostWf s tag (pa / 64) hl
  have hz : zeroMarked (unmark s tag (pa / 64)) (pa / 64) = false := by rw [zeroMarked_unmark]; simp
  have hs := ((Memory.wf_iff _).1 hu).1
  unfold setHomeByte
  dsimp only
  generalize unmark s tag (pa / 64) = u at *
  cases hp : isHost pa with
  | true =>
    rw [if_pos rfl, homeByte_hostLines, homeByte_eq]
    by_cases hline : a / 64 = pa / 64
    · have ha : isHost a = true := by rw [isHost_line hline, hp]
      have hsort : Tab.sorted ((u.hostLines.get? (hostKey (pa / 64) tag)).getD (fetchHost u (pa / 64))).data = true := by
        cases hg : u.hostLines.get? (hostKey (pa / 64) tag) with
        | none => exact fetchHost_sorted _ _
        | some e => obtain ⟨k, hk⟩ := Tab.mem_of_get? hg; exact hul _ hk
      rw [heldByte_host ha, heldByte_host ha]
      simp only [hline, hz, Bool.false_eq_true, if_false, Tab.get?_put_self, Option.map_some, Option.getD_some]
      rw [Tab.rd_wr _ _ _ hsort]
      by_cases hm : a = pa
      · subst hm; simp
      · have hmod : a % 64 ≠ pa % 64 := by omega
        rw [if_neg hmod, if_neg hm]
        cases hg : u.hostLines.get? (hostKey (pa / 64) tag) with
        | some e => rfl
        | none =>
          simp only [Option.getD_none, Option.map_none]
          rw [fetchHost_rd _ _ _ (Nat.mod_lt _ (by decide))]
          congr 1; omega
    · have hne : a ≠ pa := by rintro rfl; exact hline rfl
      rw [if_neg hne]
      congr 1
      cases ha : isHost a with
      | true => rw [heldByte_host ha, heldByte_host ha, Tab.get?_put_ne _ _ (hostKey_ne tag hline)]
      | false => rw [heldByte_far ha, heldByte_far ha]
  | false =>
    rw [if_neg (by simp), homeByte_mem, homeByte_eq]
    cases ha : isHost a with
    | true =>
      have hne : a ≠ pa := by rintro rfl; simp [hp] at ha
      rw [heldByte_host ha, heldByte_host ha, if_neg hne]
      simp only [Tab.rd_wr_ne b hs hne]
    | false =>
      rw [heldByte_far ha, heldByte_far ha]
      rw [Tab.rd_wr _ _ _ hs]
      by_cases hm : a = pa
      · subst hm; simp [hz]
      · simp [hm]

end Sys2Proof.Machine
end

