-- ==== Sys2Proof/Laws/Issue.lean ====
section
/-! SUPPORT. What entering a word gives when every check at its issue passes, and what the delivery of a word's results leaves. -/
namespace Sys2Proof.Machine

/-! ### Reading and changing lanes and groups -/

theorem get?_modLane_self (s : State) (k : Nat) (f : Lane → Lane) : (modLane s k f).lanes.get? k = (s.lanes.get? k).map f := by
  unfold modLane; split <;> rename_i h
  · simp [h]
  · simp [h]
theorem get?_modLane_ne (s : State) {k j : Nat} (f : Lane → Lane) (h : j ≠ k) : (modLane s k f).lanes.get? j = s.lanes.get? j := by
  unfold modLane; split
  · exact Tab.get?_put_ne _ _ h
  · rfl
theorem get?_modGroup_self (s : State) (k : Nat) (f : Group → Group) : (modGroup s k f).groups.get? k = (s.groups.get? k).map f := by
  unfold modGroup; split <;> rename_i h
  · simp [h]
  · simp [h]
theorem get?_modGroup_ne (s : State) {k j : Nat} (f : Group → Group) (h : j ≠ k) : (modGroup s k f).groups.get? j = s.groups.get? j := by
  unfold modGroup; split
  · exact Tab.get?_put_ne _ _ h
  · rfl

theorem lk_inj {g l m : Nat} (h : lk g l = lk g m) : l = m := by unfold lk at h; omega
theorem lk_div (g l : Nat) (h : l < 64) : lk g l / 64 = g := by unfold lk; omega
theorem lk_mod (g l : Nat) (h : l < 64) : lk g l % 64 = l := by unfold lk; omega

/-- A fold that changes each lane of a list once. -/
theorem get?_foldl_modLane (gid : Nat) (f : Nat → Lane → Lane) (ls : List Nat) (hn : ls.Nodup) (s : State) (l : Nat) :
    (ls.foldl (fun t l => modLane t (lk gid l) (f l)) s).lanes.get? (lk gid l) =
      if l ∈ ls then (s.lanes.get? (lk gid l)).map (f l) else s.lanes.get? (lk gid l) := by
  induction ls generalizing s with
  | nil => simp
  | cons a t ih =>
    rw [List.nodup_cons] at hn
    rw [List.foldl_cons, ih hn.2]
    by_cases hl : l = a
    · subst hl; simp [hn.1, get?_modLane_self]
    · have hk : lk gid l ≠ lk gid a := fun h => hl (lk_inj h)
      simp [hl, get?_modLane_ne _ _ hk]

/-- A lane of the group after a change of the lanes of a mask. -/
theorem get?_modLanes (s : State) (gid : Nat) (m : BitVec 64) (f : Nat → Lane → Lane) (l : Nat) :
    (modLanes s gid m f).lanes.get? (lk gid l) = (s.lanes.get? (lk gid l)).map fun y => if has m l then f l y else y := by
  unfold modLanes
  rw [get?_foldl_modLane _ _ _ (nodup_lanesOf _)]
  simp only [mem_lanesOf, has]
  by_cases h : m.getLsbD l = true <;> simp [h]

/-- A change of lanes of one group leaves every other lane. -/
theorem get?_modLanes_other (s : State) (gid : Nat) (m : BitVec 64) (f : Nat → Lane → Lane) (k : Nat) (h : k / 64 ≠ gid) :
    (modLanes s gid m f).lanes.get? k = s.lanes.get? k := by
  unfold modLanes
  have : ∀ (ls : List Nat) (s : State), (∀ l ∈ ls, l < 64) →
      (ls.foldl (fun t l => modLane t (lk gid l) (f l)) s).lanes.get? k = s.lanes.get? k := by
    intro ls
    induction ls with
    | nil => intros; rfl
    | cons a t ih =>
      intro s hs
      rw [List.foldl_cons, ih _ fun l hl => hs l (List.mem_cons_of_mem _ hl)]
      exact get?_modLane_ne _ _ (by rintro rfl; exact h (lk_div _ _ (hs a (by simp))))
  exact this _ _ fun l hl => lanesOf_lt hl

theorem modLane_eq (s : State) (k : Nat) (f : Lane → Lane) : modLane s k f = { s with lanes := (modLane s k f).lanes } := by
  unfold modLane; split <;> rfl
theorem modGroup_eq (s : State) (k : Nat) (f : Group → Group) : modGroup s k f = { s with groups := (modGroup s k f).groups } := by
  unfold modGroup; split <;> rfl
/-- Changing lanes changes nothing but the table of lanes. -/
theorem modLanes_eq (s : State) (gid : Nat) (m : BitVec 64) (f : Nat → Lane → Lane) :
    modLanes s gid m f = { s with lanes := (modLanes s gid m f).lanes } := by
  unfold modLanes
  generalize lanesOf m = ls
  induction ls generalizing s with
  | nil => rfl
  | cons a t ih => rw [List.foldl_cons, ih, modLane_eq s]

/-! ### Past the word -/

/-- `advance` changes lanes and groups only. -/
theorem advance_eq (x : Ctx) (s : State) : advance x s = { s with lanes := (advance x s).lanes, groups := (advance x s).groups } := by
  unfold advance
  rw [modGroup_eq, modLanes_eq]

theorem advance_lane (x : Ctx) (s : State) (l : Nat) :
    (advance x s).lanes.get? (x.lk l) = (s.lanes.get? (x.lk l)).map fun y => if has x.cur.lanes l then passed x y else y := by
  unfold advance
  rw [modGroup_lanes]
  exact get?_modLanes _ _ _ _ _

theorem advance_lane_other (x : Ctx) (s : State) (k : Nat) (h : k / 64 ≠ x.gid) : (advance x s).lanes.get? k = s.lanes.get? k := by
  unfold advance
  rw [modGroup_lanes]
  exact get?_modLanes_other _ _ _ _ _ h

theorem advance_group (x : Ctx) (s : State) : (advance x s).groups.get? x.gid = (s.groups.get? x.gid).map (passGroup x) := by
  unfold advance
  rw [get?_modGroup_self, modLanes_eq]

theorem advance_group_other (x : Ctx) (s : State) (j : Nat) (h : j ≠ x.gid) : (advance x s).groups.get? j = s.groups.get? j := by
  unfold advance
  rw [get?_modGroup_ne _ _ h, modLanes_eq]

theorem groupPassed_passGroup (x : Ctx) (g : Group) : groupPassed x g (passGroup x g) := by
  simp only [groupPassed, passGroup]
  split <;> rfl

theorem laneAt_modLane_field {β : Type} (p : Lane → β) (s : State) (k j : Nat) (f : Lane → Lane) (hf : ∀ y, p (f y) = p y) :
    p (laneAt (modLane s k f) j) = p (laneAt s j) := by
  unfold laneAt
  by_cases h : j = k
  · subst h; rw [get?_modLane_self]; cases s.lanes.get? j <;> simp [hf]
  · rw [get?_modLane_ne _ _ h]
/-- A field of a lane that a change of lanes spares. -/
theorem laneAt_modLanes_field {β : Type} (p : Lane → β) (s : State) (gid : Nat) (m : BitVec 64) (f : Nat → Lane → Lane)
    (hf : ∀ l y, p (f l y) = p y) (j : Nat) : p (laneAt (modLanes s gid m f) j) = p (laneAt s j) := by
  unfold modLanes
  exact foldl_same (fun t => p (laneAt t j)) _ (fun t l => laneAt_modLane_field p t _ j _ (hf l)) _ _
theorem laneAt_advance_field {β : Type} (p : Lane → β) (hp : ∀ (x : Ctx) y, p (passed x y) = p y) (x : Ctx) (s : State) (j : Nat) :
    p (laneAt (advance x s) j) = p (laneAt s j) := by
  have h : laneAt (advance x s) j = laneAt (modLanes s x.gid x.cur.lanes fun _ y => passed x y) j := by
    unfold advance laneAt; rw [modGroup_lanes]
  rw [h]
  exact laneAt_modLanes_field p _ _ _ _ (fun _ y => hp x y) j

@[simp] theorem vreg_advance (x : Ctx) (s : State) (k n : Nat) : vreg (advance x s) k n = vreg s k n := by
  unfold vreg; rw [advance_eq]
@[simp] theorem preg_advance (x : Ctx) (s : State) (k n : Nat) : preg (advance x s) k n = preg s k n := by
  unfold preg; rw [laneAt_advance_field (·.preds) (fun _ _ => rfl)]

/-! ### Entering a word -/

/-- The context before the lanes' checks. -/
def preCtx (i : Instr) (c : Cur) (g : Group) (s : State) : Ctx := { issuedCtx i c g s with go := 0 }
theorem issued_eq (i : Instr) (c : Cur) (g : Group) (s : State) :
    issued i c g s = { s with cur := none, nextId := s.nextId + 1, lanes := (issued i c g s).lanes, groups := (issued i c g s).groups } := by
  unfold issued
  rw [advance_eq]

theorem oldValues_clear (x : Ctx) (s : State) (h : usedEarly x x.g.early = x.g.early) : oldValues x s = s := by
  unfold oldValues
  unfold usedEarly at h
  rw [List.filter_eq_self] at h
  revert h
  induction x.g.early with
  | nil => intros; rfl
  | cons e t ih =>
    intro h
    have he := h e (by simp)
    simp only [Bool.not_eq_true', Bool.and_eq_false_iff, beq_eq_false_iff_ne] at he
    rw [List.foldl_cons, if_neg (by rintro ⟨h1, h2⟩; rcases he with h | h; exact h h1; simp [h] at h2)]
    exact ih fun e' he => h e' (List.mem_cons_of_mem _ he)

/-- A pending write that a word does not meet writes none of the registers and predicates that the word reads. -/
theorem interlocked_sources {s : State} {x : Ctx} {p : Pend} (h : interlocked s x = false) (hp : p ∈ s.board) (hg : p.gid = x.gid)
    (ho : pendOpen p x.now = true) (hz : p.lanes &&& x.cur.lanes ≠ 0) :
    (p.regs.filter fun r => x.regSrc.contains r) = [] ∧ (p.preds.filter fun r => x.predSrc.contains r) = [] := by
  unfold interlocked at h
  rw [List.any_eq_false] at h
  have hno : (p.regs.any (fun r => (x.regSrc ++ x.regDst).contains r) || p.preds.any (fun r => (x.predSrc ++ x.predDst).contains r)) = false := by
    have h1 := h p hp
    unfold pendHits at h1
    have hz' : (p.lanes &&& x.cur.lanes != 0) = true := by rw [bne_iff_ne]; exact hz
    have hg' : (p.gid == x.gid) = true := by rw [beq_iff_eq]; exact hg
    rw [ho, hg', hz', Bool.true_and, Bool.true_and, Bool.true_and, Bool.not_eq_true] at h1
    exact h1
  rw [Bool.or_eq_false_iff, List.any_eq_false, List.any_eq_false] at hno
  constructor
  · rw [List.filter_eq_nil_iff]; intro r hr hcon
    apply hno.1 r hr
    simp only [List.contains_eq_mem, decide_eq_true_eq, List.mem_append] at hcon ⊢
    exact .inl hcon
  · rw [List.filter_eq_nil_iff]; intro r hr hcon
    apply hno.2 r hr
    simp only [List.contains_eq_mem, decide_eq_true_eq, List.mem_append] at hcon ⊢
    exact .inl hcon

theorem foldl_id {α β : Type} (f : β → α → β) (l : List α) (a : β) (h : ∀ e ∈ l, ∀ b, f b e = b) : l.foldl f a = a := by
  induction l generalizing a with
  | nil => rfl
  | cons e t ih => rw [List.foldl_cons, h e (by simp)]; exact ih a fun e' he => h e' (List.mem_cons_of_mem _ he)

theorem earlyReads_clear (x : Ctx) (s : State) (h : interlocked s x = false) (he : usedEarly x x.g.early = x.g.early) : earlyReads x s = (s, s) := by
  unfold earlyReads
  rw [oldValues_clear x s he]
  apply foldl_id
  intro p hp a
  split
  · rename_i hc
    by_cases hz : p.lanes &&& x.cur.lanes = 0
    · rw [hz, lanesOf_zero]; rfl
    · obtain ⟨hr, hq⟩ := interlocked_sources h hp hc.1 hc.2.1 hz
      rw [hr, hq]
      exact foldl_id _ _ _ fun _ _ _ => rfl
  · rfl

theorem chooseOld_clear (x : Ctx) (s : State) (h : interlocked s x = false) : chooseOld x s = (x.g.early, false, s) := by
  have hu : unwaited x s = [] := by
    unfold unwaited
    rw [show (s.board.flatMap fun p =>
      if p.gid = x.gid ∧ p.due.isNone then
        ((lanesOf (p.lanes &&& x.cur.lanes)).flatMap fun l => (p.regs.filter fun r => x.regSrc.contains r).map fun r => x.lk l * 128 + r).filter fun k =>
          (x.g.early.get? k).isNone
      else []) = [] from ?_]
    · rfl
    · rw [List.flatMap_eq_nil_iff]
      intro p hp
      split
      · rename_i hc
        have ho : pendOpen p x.now = true := by
          unfold pendOpen; rw [Option.isNone_iff_eq_none.1 hc.2]
        by_cases hz : p.lanes &&& x.cur.lanes = 0
        · rw [hz, lanesOf_zero]; rfl
        · rw [(interlocked_sources h hp hc.1 ho hz).1]
          simp
      · rfl
  unfold chooseOld
  rw [hu]
  rfl

/-- Two states agree on what the operands of a word read: registers, predicates, FPSTAT and what the special registers show. -/
structure SameReads (a b : State) : Prop where
  vregs : a.vregs = b.vregs
  preds : ∀ k, (laneAt a k).preds = (laneAt b k).preds
  fpstat : ∀ k, (laneAt a k).fpstat = (laneAt b k).fpstat
  teams : a.teams = b.teams
  funcs : a.funcs = b.funcs
  arenas : a.arenas = b.arenas

theorem SameReads.vreg {a b : State} (h : SameReads a b) (k n : Nat) : Machine.vreg a k n = Machine.vreg b k n := by
  unfold Machine.vreg; rw [h.vregs]
theorem SameReads.preg {a b : State} (h : SameReads a b) (k n : Nat) : Machine.preg a k n = Machine.preg b k n := by
  unfold Machine.preg; rw [h.preds]
theorem SameReads.sreg {a b : State} (h : SameReads a b) (g : Group) (k l n : Nat) : Machine.sreg a g k l n = Machine.sreg b g k l n := by
  unfold Machine.sreg teamOf? funcAt; rw [h.teams, h.funcs, h.arenas, h.fpstat]

theorem sameReads_issued (i : Instr) (c : Cur) (g : Group) (s : State) : SameReads (issued i c g s) s where
  vregs := by rw [issued_eq]
  preds := fun k => by unfold issued; rw [laneAt_advance_field (·.preds) (fun _ _ => rfl)]; rfl
  fpstat := fun k => by unfold issued; rw [laneAt_advance_field (·.fpstat) (fun _ _ => rfl)]; rfl
  teams := by rw [issued_eq]
  funcs := by rw [issued_eq]
  arenas := by rw [issued_eq]

theorem guardSet_congr (x : Ctx) {a b : State} (h : SameReads a b) : guardSet { x with rs := a } = guardSet { x with rs := b } := by
  unfold guardSet
  simp only [Ctx.lk, h.preg]
theorem uniformBad_congr (x : Ctx) {a b : State} (h : SameReads a b) : uniformBad { x with rs := a } = uniformBad { x with rs := b } := by
  have hv : ∀ k, Machine.vreg a k = Machine.vreg b k := fun k => funext (h.vreg k)
  have hp : ∀ k, Machine.preg a k = Machine.preg b k := fun k => funext (h.preg k)
  unfold uniformBad uniformOps
  simp only [Ctx.lk, Ctx.regSrc, hv, hp, h.sreg]
  rfl
theorem laneCheck_congr (x : Ctx) {a b : State} (hb : a.board = b.board) (hp : a.poisonRegs = b.poisonRegs)
    (ht : ∀ k, (laneAt a k).txn = (laneAt b k).txn) (r : State) (hr : r.vregs = x.rs.vregs) (covered : Bool) (l : Nat) :
    laneCheck a { x with rs := r } covered l = laneCheck b x covered l := by
  have hd : ({ x with rs := r } : Ctx).regDst = x.regDst := by
    unfold Ctx.regDst vreg; dsimp only [Ctx.lk]; rw [hr]
  unfold laneCheck
  simp only [hd, hb, hp, ht, Ctx.lk, Ctx.regSrc, Ctx.predSrc, Ctx.predDst, Ctx.fi, Ctx.origin]
  rfl

/-- A covered word that meets no pending write fails the scoreboard's checks in no lane (R201). -/
theorem laneCheck_covered (s : State) (x : Ctx) (l : Nat) (hl : has x.cur.lanes l = true)
    (h : interlocked s x = false) : laneCheck s x true l = laneCheck s x false l := by
  have hit : ∀ (var : Bool) (regs preds : List Nat), (∀ r ∈ regs, r ∈ x.regSrc ++ x.regDst) → (∀ r ∈ preds, r ∈ x.predSrc ++ x.predDst) →
      (s.board.any fun p => p.due.isNone == var && pendOpen p x.now && pendHits p x.gid (bitMask l) regs preds) = false := by
    intro var regs preds hr hq
    rw [List.any_eq_false]
    intro p hp hcon
    unfold interlocked at h
    rw [List.any_eq_false] at h
    apply h p hp
    simp only [Bool.and_eq_true, pendHits, beq_iff_eq, bne_iff_ne, ne_eq, Bool.or_eq_true, List.any_eq_true] at hcon ⊢
    obtain ⟨⟨-, ho⟩, ⟨hg, hm⟩, hh⟩ := hcon
    refine ⟨ho, ⟨hg, ?_⟩, ?_⟩
    · intro hz
      apply hm
      apply BitVec.eq_of_getLsbD_eq
      intro i hi
      have h0 : (p.lanes &&& x.cur.lanes).getLsbD i = false := by rw [hz]; simp
      rw [BitVec.getLsbD_and] at h0 ⊢
      rw [getLsbD_bitMask _ _ hi]
      by_cases he : i = l
      · subst he
        unfold has at hl
        rw [hl, Bool.and_true] at h0
        simp [h0]
      · simp [he]
    · rcases hh with ⟨r, hr1, hr2⟩ | ⟨r, hr1, hr2⟩
      · exact .inl ⟨r, hr1, by simp only [List.contains_eq_mem, decide_eq_true_eq] at hr2 ⊢; exact hr r hr2⟩
      · exact .inr ⟨r, hr1, by simp only [List.contains_eq_mem, decide_eq_true_eq] at hr2 ⊢; exact hq r hr2⟩
  have h1 := hit false x.regSrc x.predSrc (fun r h => List.mem_append_left _ h) (fun r h => List.mem_append_left _ h)
  have h2 := hit true x.regSrc x.predSrc (fun r h => List.mem_append_left _ h) (fun r h => List.mem_append_left _ h)
  have h3 := hit true x.regDst x.predDst (fun r h => List.mem_append_right _ h) (fun r h => List.mem_append_right _ h)
  unfold laneCheck
  simp only [h1, h2, h3, Bool.and_false, Bool.false_and, Bool.false_eq_true, if_false]

theorem issueFaults_nil {s : State} {x : Ctx} {covered : Bool} (h : laneFaults s x covered = []) : issueFaults s x covered = [] := by
  unfold issueFaults
  rw [h]
  split
  · rename_i h'; exact absurd h' (by simp)
  · rfl

theorem has_guardSet (x : Ctx) (l : Nat) (h : has (guardSet x) l = true) : has x.cur.lanes l = true := by
  have hl : l < 64 := BitVec.lt_of_getLsbD h
  unfold guardSet has at h
  rw [getLsbD_maskOf _ _ hl, decide_eq_true_eq, List.mem_filter, mem_lanesOf] at h
  exact h.1

/-- A word that passes every check at its issue takes its effect: the context and state that its body gets. -/
theorem enter_run {i : Instr} {s : State} {c : Cur} {g : Group} (h : issues i s c g = true) :
    enter (encode i) c { s with cur := none } = .run (issuedCtx i c g s) (booked (issuedCtx i c g s) (issued i c g s)) := by
  unfold issues at h
  simp only [Bool.and_eq_true, decide_eq_true_eq, Bool.or_eq_true, Bool.not_eq_true', List.all_eq_true, Option.isNone_iff_eq_none] at h
  obtain ⟨⟨⟨⟨⟨⟨hcur, hg⟩, hck⟩, hcov⟩, hact⟩, hu⟩, hlane⟩ := h
  have hsr := sameReads_issued i c g s
  have hgs : guardSet { ctxOf { s with cur := none } g c (encode i) with rs := issued i c g s } = (atIssue i c g s).active :=
    guardSet_congr (ctxOf s g c (encode i)) hsr
  have hgs0 : guardSet (ctxOf { s with cur := none } g c (encode i)) = (atIssue i c g s).active := rfl
  have hck' : checkWord (issued i c g s) (ctxOf { s with cur := none } g c (encode i)) = none := by
    rw [← hck]
    unfold checkWord preRangeBad headerAt
    rw [issued_eq]
    rfl
  have hil : (coverFor g (ctxOf { s with cur := none } g c (encode i)).h).isSome = true →
      interlocked (issued i c g s) (ctxOf { s with cur := none } g c (encode i)) = false ∧ usedEarly (atIssue i c g s) g.early = g.early := by
    intro hc
    rcases hcov with hcov | hcov
    · rw [show (ctxOf { s with cur := none } g c (encode i)).h = (atIssue i c g s).h from rfl, hcov] at hc
      simp at hc
    · refine ⟨?_, hcov.2⟩
      rw [← hcov.1]
      unfold interlocked
      rw [issued_eq]
      rfl
  have hread : ∀ c', c' = (if (coverFor g (ctxOf { s with cur := none } g c (encode i)).h).isSome && !g.schk then
      chooseOld (ctxOf { s with cur := none } g c (encode i)) (issued i c g s) else ([], false, issued i c g s)) →
      c'.2.1 = false ∧ c'.2.2 = issued i c g s ∧
      (if (coverFor g (ctxOf { s with cur := none } g c (encode i)).h).isSome && !g.schk then
        earlyReads { ctxOf { s with cur := none } g c (encode i) with g := { g with early := c'.1 } } (issued i c g s) else (issued i c g s, issued i c g s)) =
        (issued i c g s, issued i c g s) := by
    rintro _ rfl
    split
    · rename_i hc
      rw [Bool.and_eq_true] at hc
      rw [chooseOld_clear _ _ (hil hc.1).1]
      exact ⟨rfl, rfl, earlyReads_clear _ _ (hil hc.1).1 (hil hc.1).2⟩
    · exact ⟨rfl, rfl, rfl⟩
  have hub : uniformBad (preCtx i c g s) = none := by
    rw [← hu]
    have := uniformBad_congr (atIssue i c g s) hsr
    rw [show ({ atIssue i c g s with rs := s } : Ctx) = { atIssue i c g s with rs := s } from rfl] at this
    unfold uniformBad uniformOps at *
    exact this
  have hbad : laneFaults (issued i c g s) (preCtx i c g s) (coverFor g (ctxOf { s with cur := none } g c (encode i)).h).isSome = [] := by
    unfold laneFaults
    rw [List.filterMap_eq_nil_iff]
    intro l hl
    rw [Option.map_eq_none_iff]
    have hl' : has (atIssue i c g s).active l = true := (mem_lanesOf _ _).1 hl
    have hlc : has c.lanes l = true := has_guardSet _ l hl'
    have hb : (issued i c g s).board = s.board := by rw [issued_eq]
    have hp : (issued i c g s).poisonRegs = s.poisonRegs := by rw [issued_eq]
    have ht : ∀ k, (laneAt (issued i c g s) k).txn = (laneAt s k).txn := by
      intro k; unfold issued; rw [laneAt_advance_field (·.txn) (fun _ _ => rfl)]; rfl
    have hcongr : ∀ cv, laneCheck (issued i c g s) (preCtx i c g s) cv l = laneCheck s (atIssue i c g s) cv l :=
      fun cv => (laneCheck_congr { atIssue i c g s with go := 0 } hb hp ht (issued i c g s) (by rw [issued_eq]; rfl) cv l).trans rfl
    rw [hcongr]
    cases hcv : (coverFor g (ctxOf { s with cur := none } g c (encode i)).h).isSome with
    | false => exact hlane l hl
    | true =>
      have hi0 : interlocked s (atIssue i c g s) = false := by
        rw [← (hil hcv).1]
        unfold interlocked
        rw [issued_eq]
        rfl
      rw [laneCheck_covered s (atIssue i c g s) l hlc hi0]
      exact hlane l hl
  unfold enter
  simp only [hg]
  rw [show advance (ctxOf { s with cur := none } g c (encode i)) { s with cur := none, nextId := s.nextId + 1 } = issued i c g s from rfl, hck']
  simp only
  obtain ⟨h1, h2, h3⟩ := hread _ rfl
  rw [h1, if_neg (by simp), h2, h3]
  have hgs' : ∀ e, guardSet { ctxOf { s with cur := none } g c (encode i) with g := { g with early := e }, rs := issued i c g s } = (atIssue i c g s).active :=
    fun e => hgs
  simp only [hgs']
  change enterSet (preCtx i c g s) _ (issued i c g s) = _
  unfold enterSet
  rw [show (preCtx i c g s).active = (atIssue i c g s).active from rfl, if_neg hact, hub]
  simp only
  unfold enterLanes
  rw [issueFaults_nil hbad]
  have hgo : ∀ m : BitVec 64, m &&& ~~~(maskOf []) = m := by
    intro m; rw [show maskOf [] = 0#64 from rfl, BitVec.not_zero, BitVec.and_allOnes]
  simp only [List.foldl_nil, List.map_nil]
  rw [hgo, show (preCtx i c g s).active = (atIssue i c g s).active from rfl, if_neg hact]
  rfl

end Sys2Proof.Machine
end

