-- ==== Sys2Proof/Laws/Deliver.lean ====
section
/-! SUPPORT. What the delivery of a word's results to its executing lanes leaves (R55, R229). -/
namespace Sys2Proof.Machine

/-! ### Registers -/

theorem setVreg_sorted (s : State) (k n : Nat) (x : Word) (h : s.vregs.sorted = true) : (setVreg s k n x).vregs.sorted = true :=
  Tab.sorted_wr _ _ h
theorem vreg_setVreg (s : State) (k n : Nat) (x : Word) (h : s.vregs.sorted = true) {j m : Nat} (hn : n < 128) (hm : m < 128) :
    vreg (setVreg s k n x) j m = if j = k ∧ m = n then x else vreg s j m := by
  show Tab.rd (Tab.wr s.vregs (k * 128 + n) x) (j * 128 + m) = _
  rw [Tab.rd_wr _ _ _ h]
  by_cases hc : j = k ∧ m = n
  · obtain ⟨rfl, rfl⟩ := hc; simp
  · rw [if_neg hc, if_neg (by omega)]; rfl
theorem setVregs_sorted (s : State) (k : Nat) (rs : List (Nat × Word)) (h : s.vregs.sorted = true) : (setVregs s k rs).vregs.sorted = true :=
  foldl_keeps (P := fun (t : State) => t.vregs.sorted = true) _ (fun _ _ ht => setVreg_sorted _ _ _ _ ht) _ _ h
theorem setVregs_eq (s : State) (k : Nat) (rs : List (Nat × Word)) : setVregs s k rs = { s with vregs := (setVregs s k rs).vregs } := by
  unfold setVregs
  induction rs generalizing s with
  | nil => rfl
  | cons a t ih => rw [List.foldl_cons, ih]; rfl
/-- Registers of a lane after a list of writes. -/
theorem vreg_setVregs (s : State) (k : Nat) (rs : List (Nat × Word)) (h : s.vregs.sorted = true) (hr : ∀ r ∈ rs, r.1 < 128) {j m : Nat}
    (hm : m < 128) : vreg (setVregs s k rs) j m = if j = k then lastReg rs m (vreg s j m) else vreg s j m := by
  unfold setVregs lastReg
  induction rs generalizing s with
  | nil => simp
  | cons a t ih =>
    rw [List.foldl_cons, List.foldl_cons, ih _ (setVreg_sorted _ _ _ _ h) (fun r hr' => hr r (List.mem_cons_of_mem _ hr')),
      vreg_setVreg _ _ _ _ h (hr a (by simp)) hm]
    by_cases hj : j = k
    · subst hj; simp only [true_and, if_true, eq_comm (a := m)]
    · simp [hj]

theorem setPregs_eq (s : State) (k : Nat) (ps : List (Nat × Bool)) : setPregs s k ps = { s with lanes := (setPregs s k ps).lanes } := by
  unfold setPregs
  induction ps generalizing s with
  | nil => rfl
  | cons a t ih => rw [List.foldl_cons, ih, setPreg, modLane_eq]
theorem get?_setPregs_self (s : State) (k : Nat) (ps : List (Nat × Bool)) :
    (setPregs s k ps).lanes.get? k = (s.lanes.get? k).map fun y => { y with preds := lastPreds ps y.preds } := by
  unfold setPregs lastPreds
  induction ps generalizing s with
  | nil => simp
  | cons a t ih => rw [List.foldl_cons, ih, setPreg, get?_modLane_self]; cases s.lanes.get? k <;> rfl
theorem get?_setPregs_ne (s : State) {k j : Nat} (ps : List (Nat × Bool)) (h : j ≠ k) : (setPregs s k ps).lanes.get? j = s.lanes.get? j := by
  unfold setPregs
  induction ps generalizing s with
  | nil => rfl
  | cons a t ih => rw [List.foldl_cons, ih, setPreg, get?_modLane_ne _ _ h]

/-! ### One lane -/

/-- What a delivery makes of a lane. -/
def laneTook (r : LaneRes) (y : Lane) : Lane := { y with preds := lastPreds r.preds y.preds, fpstat := fpFlags y.fpstat r.ev }

theorem fpFlags_zero (f : Word) : fpFlags f 0 = f := by unfold fpFlags; simp

/-- A delivery with no trap writes the lane's registers, predicates and flags. -/
theorem deliver_ok (x : Ctx) (s : State) (l : Nat) (r : LaneRes) (h : fpTrap (laneAt s (x.lk l)).fpstat r.ev = none) :
    x.deliver s l r = { s with vregs := (setVregs s (x.lk l) r.regs).vregs, lanes := (x.deliver s l r).lanes } ∧
    (x.deliver s l r).lanes.get? (x.lk l) = (s.lanes.get? (x.lk l)).map (laneTook r) ∧
    (∀ j, j ≠ x.lk l → (x.deliver s l r).lanes.get? j = s.lanes.get? j) := by
  unfold Ctx.deliver
  rw [h]
  dsimp only
  have e1 := setVregs_eq s (x.lk l) r.regs
  have e2 := setPregs_eq (setVregs s (x.lk l) r.regs) (x.lk l) r.preds
  split
  · rename_i h0
    refine ⟨?_, ?_, ?_⟩
    · rw [e2]; rw [e1]
    · rw [get?_setPregs_self, e1]
      unfold laneTook
      simp only [h0, fpFlags_zero]
    · intro j hj; rw [get?_setPregs_ne _ _ hj, e1]
  · refine ⟨?_, ?_, ?_⟩
    · rw [modLane_eq, e2, e1]
    · rw [get?_modLane_self, get?_setPregs_self, e1]; cases s.lanes.get? (x.lk l) <;> rfl
    · intro j hj; rw [get?_modLane_ne _ _ hj, get?_setPregs_ne _ _ hj, e1]

/-! ### The executing lanes -/

theorem laneAt_get {s : State} {k : Nat} {o : Option Lane} (h : s.lanes.get? k = o) : laneAt s k = o.getD { pc := 0 } := by
  unfold laneAt; rw [h]

/-- Deliveries to a list of lanes. -/
theorem foldl_deliver (x : Ctx) (f : Nat → LaneRes) (ls : List Nat) (hn : ls.Nodup) (hl : ∀ l ∈ ls, l < 64) (s : State)
    (hs : s.vregs.sorted = true) (hr : ∀ l ∈ ls, ∀ r ∈ (f l).regs, r.1 < 128)
    (hok : ∀ l ∈ ls, fpTrap (laneAt s (x.lk l)).fpstat (f l).ev = none) :
    let t := ls.foldl (fun u l => x.deliver u l (f l)) s
    t = { s with vregs := t.vregs, lanes := t.lanes } ∧ t.vregs.sorted = true ∧
    (∀ l, l < 64 → ∀ n, n < 128 → vreg t (x.lk l) n = if l ∈ ls then lastReg (f l).regs n (vreg s (x.lk l) n) else vreg s (x.lk l) n) ∧
    (∀ k, (∀ l ∈ ls, k ≠ x.lk l) → ∀ n, n < 128 → vreg t k n = vreg s k n) ∧
    (∀ l, t.lanes.get? (x.lk l) = if l ∈ ls then (s.lanes.get? (x.lk l)).map (laneTook (f l)) else s.lanes.get? (x.lk l)) ∧
    (∀ k, (∀ l ∈ ls, k ≠ x.lk l) → t.lanes.get? k = s.lanes.get? k) := by
  induction ls generalizing s with
  | nil => exact ⟨rfl, hs, by simp, by simp, by simp, by simp⟩
  | cons a t ih =>
    rw [List.nodup_cons] at hn
    obtain ⟨e, h1, h2⟩ := deliver_ok x s a (f a) (hok a (by simp))
    have hs' : (x.deliver s a (f a)).vregs.sorted = true := by rw [e]; exact setVregs_sorted _ _ _ hs
    have hv : ∀ j n, n < 128 → vreg (x.deliver s a (f a)) j n = if j = x.lk a then lastReg (f a).regs n (vreg s j n) else vreg s j n := by
      intro j n hn'
      rw [← vreg_setVregs s (x.lk a) (f a).regs hs (hr a (by simp)) hn', e]; rfl
    have hok' : ∀ l ∈ t, fpTrap (laneAt (x.deliver s a (f a)) (x.lk l)).fpstat (f l).ev = none := by
      intro l hlt
      have hne : x.lk l ≠ x.lk a := fun hh => hn.1 (lk_inj hh ▸ hlt)
      rw [laneAt_get (h2 _ hne), ← laneAt]
      exact hok l (List.mem_cons_of_mem _ hlt)
    obtain ⟨i1, i2, i3, i4, i5, i6⟩ := ih hn.2 (fun l h => hl l (List.mem_cons_of_mem _ h)) _ hs'
      (fun l h => hr l (List.mem_cons_of_mem _ h)) hok'
    simp only [List.foldl_cons]
    refine ⟨?_, i2, ?_, ?_, ?_, ?_⟩
    · rw [i1, e]
    · intro l hlt n hnn
      rw [i3 l hlt n hnn]
      by_cases hla : l = a
      · subst hla; simp [hn.1, hv _ _ hnn]
      · have hne : x.lk l ≠ x.lk a := fun hh => hla (lk_inj hh)
        simp [hla, hv _ _ hnn, hne]
    · intro k hk n hnn
      rw [i4 k (fun l h => hk l (List.mem_cons_of_mem _ h)) n hnn, hv _ _ hnn, if_neg (hk a (by simp))]
    · intro l
      rw [i5 l]
      by_cases hla : l = a
      · subst hla; simp [hn.1, h1]
      · have hne : x.lk l ≠ x.lk a := fun hh => hla (lk_inj hh)
        simp [hla, h2 _ hne]
    · intro k hk
      rw [i6 k (fun l h => hk l (List.mem_cons_of_mem _ h)), h2 k (hk a (by simp))]

/-- The executions of a word, as deliveries to its lanes (R25, R55). -/
theorem perLane_eq (x : Ctx) (s : State) (f : Nat → LaneRes) (hgo : x.go ≠ 0) :
    x.perLane s f = (lanesOf x.go).foldl (fun u l => x.deliver u l (f (x.lk (if x.u then lowest x.active else l)))) s := by
  unfold Ctx.perLane Ctx.acts
  rw [if_neg hgo]
  cases hu : x.u with
  | true => simp
  | false =>
    simp only [if_false, Bool.false_eq_true]
    rw [List.foldl_map]
    have : ∀ (ls : List Nat) (s : State), (∀ l ∈ ls, l < 64) →
        ls.foldl (fun t l => (lanesOf (bitMask l)).foldl (fun u j => x.deliver u j (f (x.lk l))) t) s =
        ls.foldl (fun u l => x.deliver u l (f (x.lk l))) s := by
      intro ls
      induction ls with
      | nil => intros; rfl
      | cons a t ih =>
        intro s hl
        rw [List.foldl_cons, List.foldl_cons, lanesOf_bitMask a (hl a (by simp))]
        exact ih _ fun l h => hl l (List.mem_cons_of_mem _ h)
    exact this _ _ fun l h => lanesOf_lt h

/-- Booking results on the scoreboard changes the scoreboard and the poison marks only. -/
theorem pendNew_eq (x : Ctx) (s : State) : pendNew x s = { s with board := (pendNew x s).board, poisonRegs := (pendNew x s).poisonRegs } := by
  unfold pendNew
  dsimp only
  split <;> rfl

/-- The issuing of a word leaves memory at its home as it was. -/
theorem homeByte_congr {a b : State} (h1 : a.mem = b.mem) (h2 : a.hostLines = b.hostLines) (h3 : a.zeros = b.zeros) (q k : Nat) :
    homeByte a q k = homeByte b q k := by
  unfold homeByte zeroMarked; rw [h1, h2, h3]

/-- A word whose effect is to deliver `f l` to each executing lane `l`, at a fixed latency and with no slot: what it leaves. -/
theorem runWord_delivers {i : Instr} {s : State} {c : Cur} {g : Group} {body : Ctx → State → State} {f : Nat → LaneRes}
    (h : issues i s c g = true) (hw : s.wf = true)
    (hbody : ∀ t, body (issuedCtx i c g s) t = (lanesOf (atIssue i c g s).active).foldl (fun u l => (issuedCtx i c g s).deliver u l (f l)) t)
    (hr : ∀ l, has (atIssue i c g s).active l = true → ∀ r ∈ (f l).regs, r.1 < 128)
    (hok : noTrap (atIssue i c g s) f s) (hslot : namesSlot (encode i) = none) (hlat : latency (encode i) g.width ≠ none) :
    ∃ t, runWord i body s = .next t ∧ delivers (atIssue i c g s) f s t := by
  have hwf : s.vregs.sorted = true := by
    unfold State.wf at hw; simp only [Bool.and_eq_true] at hw; exact hw.1.1.1.1.1.1.1.1.1.1.1.2
  have hcur : s.cur = some c ∧ s.groups.get? c.gid = some g := by
    unfold issues at h; simp only [Bool.and_eq_true, decide_eq_true_eq] at h; exact ⟨h.1.1.1.1.1.1, h.1.1.1.1.1.2⟩
  have hrun := enter_run h
  have hfin : ∀ t, finish (issuedCtx i c g s) t = t := by
    intro t
    unfold finish
    rw [show (issuedCtx i c g s).w = encode i from rfl, show (issuedCtx i c g s).g.width = g.width from rfl, hslot]
    simp [hlat]
  have hbk : booked (issuedCtx i c g s) (issued i c g s) = pendNew (issuedCtx i c g s) (issued i c g s) := by
    unfold booked; rw [show (issuedCtx i c g s).w = encode i from rfl, hslot]
  refine ⟨body (issuedCtx i c g s) (pendNew (issuedCtx i c g s) (issued i c g s)), ?_, ?_⟩
  · unfold runWord
    rw [hcur.1]
    simp only [hrun, hfin, hbk]
  · rw [hbody]
    have e0 := pendNew_eq (issuedCtx i c g s) (issued i c g s)
    have e1 := issued_eq i c g s
    have ev : (pendNew (issuedCtx i c g s) (issued i c g s)).vregs = s.vregs := by rw [e0, e1]
    have el : (pendNew (issuedCtx i c g s) (issued i c g s)).lanes = (issued i c g s).lanes := by rw [e0]
    have eg : (pendNew (issuedCtx i c g s) (issued i c g s)).groups = (issued i c g s).groups := by rw [e0]
    have hlane : ∀ l, (issued i c g s).lanes.get? ((atIssue i c g s).lk l) = (s.lanes.get? ((atIssue i c g s).lk l)).map fun y =>
        if has (atIssue i c g s).cur.lanes l then passed (atIssue i c g s) y else y := by
      intro l
      exact advance_lane (ctxOf { s with cur := none } g c (encode i)) { s with cur := none, nextId := s.nextId + 1 } l
    have hother : ∀ k, k / 64 ≠ (atIssue i c g s).gid → (issued i c g s).lanes.get? k = s.lanes.get? k := by
      intro k hk
      exact advance_lane_other (ctxOf { s with cur := none } g c (encode i)) { s with cur := none, nextId := s.nextId + 1 } k hk
    have hfp : ∀ k, (laneAt (pendNew (issuedCtx i c g s) (issued i c g s)) k).fpstat = (laneAt s k).fpstat := by
      intro k
      have : laneAt (pendNew (issuedCtx i c g s) (issued i c g s)) k = laneAt (issued i c g s) k := by unfold laneAt; rw [el]
      rw [this]; exact (sameReads_issued i c g s).fpstat k
    obtain ⟨d1, d2, d3, d4, d5, d6⟩ := foldl_deliver (issuedCtx i c g s) f (lanesOf (atIssue i c g s).active) (nodup_lanesOf _)
      (fun l hl => lanesOf_lt hl) (pendNew (issuedCtx i c g s) (issued i c g s)) (by rw [ev]; exact hwf)
      (fun l hl => hr l ((mem_lanesOf _ _).1 hl)) (fun l hl => by rw [hfp]; exact hok l ((mem_lanesOf _ _).1 hl))
    generalize (lanesOf (atIssue i c g s).active).foldl (fun u l => (issuedCtx i c g s).deliver u l (f l))
      (pendNew (issuedCtx i c g s) (issued i c g s)) = t at d1 d2 d3 d4 d5 d6 ⊢
    have hv : ∀ k n, vreg (pendNew (issuedCtx i c g s) (issued i c g s)) k n = vreg s k n := by
      intro k n; unfold vreg; rw [ev]
    have hnot : ∀ k, k / 64 ≠ (atIssue i c g s).gid → ∀ l ∈ lanesOf (atIssue i c g s).active, k ≠ (issuedCtx i c g s).lk l := by
      rintro k hk l hl rfl
      exact hk (lk_div _ _ (lanesOf_lt hl))
    have hgr : t.groups = (issued i c g s).groups := by rw [d1]; exact eg
    refine ⟨?_, ?_, ?_, ?_, ?_, ?_, ?_, ?_⟩
    · intro l hl n hn
      have := d3 l hl n hn
      rw [hv] at this
      rw [show (atIssue i c g s).lk l = (issuedCtx i c g s).lk l from rfl, this]
      by_cases ha : has (atIssue i c g s).active l = true
      · rw [if_pos ((mem_lanesOf _ _).2 ha), if_pos ha]
      · rw [if_neg (fun hm => ha ((mem_lanesOf _ _).1 hm)), if_neg ha]
    · intro k hk n hn
      rw [d4 k (hnot k hk) n hn, hv]
    · intro l hl
      have h5 := d5 l
      rw [el] at h5
      rw [show (atIssue i c g s).lk l = (issuedCtx i c g s).lk l from rfl, h5, show (issuedCtx i c g s).lk l = (atIssue i c g s).lk l from rfl, hlane l]
      by_cases ha : has (atIssue i c g s).active l = true
      · have hc : has (atIssue i c g s).cur.lanes l = true := has_guardSet _ l ha
        rw [if_pos ((mem_lanesOf _ _).2 ha)]
        cases s.lanes.get? ((atIssue i c g s).lk l) <;> simp [ha, hc, laneTook, passed]
      · rw [if_neg (fun hm => ha ((mem_lanesOf _ _).1 hm))]
        cases s.lanes.get? ((atIssue i c g s).lk l) <;> simp [ha]
    · intro k hk
      rw [d6 k (hnot k hk), el]
      exact hother k hk
    · refine ⟨passGroup (atIssue i c g s) g, ?_, groupPassed_passGroup _ _⟩
      rw [hgr]
      have := advance_group (ctxOf { s with cur := none } g c (encode i)) { s with cur := none, nextId := s.nextId + 1 }
      rw [show (ctxOf { s with cur := none } g c (encode i)).gid = c.gid from rfl] at this
      rw [show (atIssue i c g s).gid = c.gid from rfl]
      exact this.trans (by simp only [hcur.2]; rfl)
    · intro j hj
      rw [hgr]
      exact advance_group_other (ctxOf { s with cur := none } g c (encode i)) { s with cur := none, nextId := s.nextId + 1 } j hj
    · intro q a
      refine homeByte_congr ?_ ?_ ?_ q a
      · rw [d1, e0, e1]
      · rw [d1, e0, e1]
      · rw [d1, e0, e1]
    · rw [d1, e0, e1]

end Sys2Proof.Machine
end

