-- ==== Sys2Proof/Laws/PerInstr.lean ====
section
/-! SUPPORT. Lemmas made once per instruction: the number that an instruction is encoded as fits its 32-bit word. -/
namespace Sys2Proof.Laws

theorem packQ_le (q : Qual) : packQ q ≤ 0x3E00000 := by
  obtain ⟨u, n, g⟩ := q
  have := g.isLt
  cases u <;> cases n <;> simp only [packQ, b1] <;> simp <;> omega
theorem packG_le (q : Guard) : packG q ≤ 0x1E00000 := by
  obtain ⟨n, g⟩ := q
  have := g.isLt
  cases n <;> simp only [packG, b1] <;> simp <;> omega
theorem b1_le (b : Bool) : b1 b ≤ 1 := by cases b <;> simp [b1]
theorem packOpx_le (x : OpxHint) : packOpx x ≤ 0xFFFFFF := by
  have h1 := x.src3.isLt
  have h2 := x.mode.isLt
  have h3 := x.scope.isLt
  have h4 := x.path.isLt
  have h5 := x.itype.isLt
  have a := b1_le x.sat
  have b := b1_le x.comm
  have c := b1_le x.pxD
  have d := b1_le x.pxA
  have e := b1_le x.pxB
  have f := b1_le x.pxS3
  unfold packOpx
  omega

/-- The number of an instruction's encoding fits a 32-bit word (R19); an event has none. -/
def EncodeBound.Statement (i : Instr) : Prop := (encodeNat i).getD 0 < 2 ^ 32

theorem EncodeBound.nop : EncodeBound.Statement .nop := (by decide : 0x00000000 < 2 ^ 32)
theorem EncodeBound.trap (gd : Guard) (f0 : BitVec 9) : EncodeBound.Statement (.trap gd f0) := by
  have h : encodeNat (.trap gd f0) = some (0x00000200 + packG gd + f0.toNat) := rfl
  have := packG_le gd; have := f0.isLt
  rw [EncodeBound.Statement, h, Option.getD_some]
  omega
theorem EncodeBound.dbg (gd : Guard) (f0 : BitVec 9) : EncodeBound.Statement (.dbg gd f0) := by
  have h : encodeNat (.dbg gd f0) = some (0x00000400 + packG gd + f0.toNat) := rfl
  have := packG_le gd; have := f0.isLt
  rw [EncodeBound.Statement, h, Option.getD_some]
  omega
theorem EncodeBound.rdsr (q : Qual) (f0 : BitVec 6) (f1 : BitVec 9) : EncodeBound.Statement (.rdsr q f0 f1) := by
  have h : encodeNat (.rdsr q f0 f1) = some (0x00000600 + packQ q + f0.toNat * 0x8000 + f1.toNat) := rfl
  have := packQ_le q; have := f0.isLt; have := f1.isLt
  rw [EncodeBound.Statement, h, Option.getD_some]
  omega
theorem EncodeBound.wrsr (q : Qual) (f0 : BitVec 6) (f1 : BitVec 9) : EncodeBound.Statement (.wrsr q f0 f1) := by
  have h : encodeNat (.wrsr q f0 f1) = some (0x00000800 + packQ q + f0.toNat * 0x8000 + f1.toNat) := rfl
  have := packQ_le q; have := f0.isLt; have := f1.isLt
  rw [EncodeBound.Statement, h, Option.getD_some]
  omega
theorem EncodeBound.clk (q : Qual) (f0 : BitVec 6) (f1 : BitVec 9) : EncodeBound.Statement (.clk q f0 f1) := by
  have h : encodeNat (.clk q f0 f1) = some (0x00000a00 + packQ q + f0.toNat * 0x8000 + f1.toNat) := rfl
  have := packQ_le q; have := f0.isLt; have := f1.isLt
  rw [EncodeBound.Statement, h, Option.getD_some]
  omega
theorem EncodeBound.yield : EncodeBound.Statement .yield := (by decide : 0x00000c00 < 2 ^ 32)
theorem EncodeBound.eret (gd : Guard) (f0 : BitVec 6) (f1 : BitVec 9) : EncodeBound.Statement (.eret gd f0 f1) := by
  have h : encodeNat (.eret gd f0 f1) = some (0x00000e00 + packG gd + f0.toNat * 0x8000 + f1.toNat) := rfl
  have := packG_le gd; have := f0.isLt; have := f1.isLt
  rw [EncodeBound.Statement, h, Option.getD_some]
  omega
theorem EncodeBound.recfg (q : Qual) (f0 : BitVec 6) : EncodeBound.Statement (.recfg q f0) := by
  have h : encodeNat (.recfg q f0) = some (0x00001000 + packQ q + f0.toNat * 0x8000) := rfl
  have := packQ_le q; have := f0.isLt
  rw [EncodeBound.Statement, h, Option.getD_some]
  omega
theorem EncodeBound.bra (q : Qual) (f0 : BitVec 21) : EncodeBound.Statement (.bra q f0) := by
  have h : encodeNat (.bra q f0) = some (0x04000000 + packQ q + f0.toNat) := rfl
  have := packQ_le q; have := f0.isLt
  rw [EncodeBound.Statement, h, Option.getD_some]
  omega
theorem EncodeBound.call (q : Qual) (f0 : BitVec 21) : EncodeBound.Statement (.call q f0) := by
  have h : encodeNat (.call q f0) = some (0x08000000 + packQ q + f0.toNat) := rfl
  have := packQ_le q; have := f0.isLt
  rw [EncodeBound.Statement, h, Option.getD_some]
  omega
theorem EncodeBound.divr (gd : Guard) (f0 : BitVec 21) : EncodeBound.Statement (.divr gd f0) := by
  have h : encodeNat (.divr gd f0) = some (0x0c000000 + packG gd + f0.toNat) := rfl
  have := packG_le gd; have := f0.isLt
  rw [EncodeBound.Statement, h, Option.getD_some]
  omega
theorem EncodeBound.brk (f0 : BitVec 5) (f1 : BitVec 21) : EncodeBound.Statement (.brk f0 f1) := by
  have h : encodeNat (.brk f0 f1) = some (0x10000000 + f0.toNat * 0x200000 + f1.toNat) := rfl
  have := f0.isLt; have := f1.isLt
  rw [EncodeBound.Statement, h, Option.getD_some]
  omega
theorem EncodeBound.brx (q : Qual) (f0 : BitVec 6) (f1 : BitVec 6) : EncodeBound.Statement (.brx q f0 f1) := by
  have h : encodeNat (.brx q f0 f1) = some (0x14000000 + packQ q + f0.toNat * 0x200 + f1.toNat * 0x8) := rfl
  have := packQ_le q; have := f0.isLt; have := f1.isLt
  rw [EncodeBound.Statement, h, Option.getD_some]
  omega
theorem EncodeBound.ret (q : Qual) (f0 : BitVec 6) : EncodeBound.Statement (.ret q f0) := by
  have h : encodeNat (.ret q f0) = some (0x14000001 + packQ q + f0.toNat * 0x200) := rfl
  have := packQ_le q; have := f0.isLt
  rw [EncodeBound.Statement, h, Option.getD_some]
  omega
theorem EncodeBound.join (gd : Guard) : EncodeBound.Statement (.join gd) := by
  have h : encodeNat (.join gd) = some (0x14000002 + packG gd) := rfl
  have := packG_le gd
  rw [EncodeBound.Statement, h, Option.getD_some]
  omega
theorem EncodeBound.exit (gd : Guard) : EncodeBound.Statement (.exit gd) := by
  have h : encodeNat (.exit gd) = some (0x14000003 + packG gd) := rfl
  have := packG_le gd
  rw [EncodeBound.Statement, h, Option.getD_some]
  omega
theorem EncodeBound.cdecl (q : Qual) (f0 : BitVec 4) : EncodeBound.Statement (.cdecl q f0) := by
  have h : encodeNat (.cdecl q f0) = some (0x14000004 + packQ q + f0.toNat * 0x8000) := rfl
  have := packQ_le q; have := f0.isLt
  rw [EncodeBound.Statement, h, Option.getD_some]
  omega
theorem EncodeBound.bar (gd : Guard) (f0 : BitVec 4) : EncodeBound.Statement (.bar gd f0) := by
  have h : encodeNat (.bar gd f0) = some (0x14000005 + packG gd + f0.toNat * 0x8000) := rfl
  have := packG_le gd; have := f0.isLt
  rw [EncodeBound.Statement, h, Option.getD_some]
  omega
theorem EncodeBound.fend (gd : Guard) : EncodeBound.Statement (.fend gd) := by
  have h : encodeNat (.fend gd) = some (0x14000006 + packG gd) := rfl
  have := packG_le gd
  rw [EncodeBound.Statement, h, Option.getD_some]
  omega
theorem EncodeBound.wake (q : Qual) (f0 : BitVec 6) : EncodeBound.Statement (.wake q f0) := by
  have h : encodeNat (.wake q f0) = some (0x14000007 + packQ q + f0.toNat * 0x200) := rfl
  have := packQ_le q; have := f0.isLt
  rw [EncodeBound.Statement, h, Option.getD_some]
  omega
theorem EncodeBound.wakeTmr (q : Qual) (f0 : BitVec 6) : EncodeBound.Statement (.wakeTmr q f0) := by
  have h : encodeNat (.wakeTmr q f0) = some (0x14008007 + packQ q + f0.toNat * 0x8) := rfl
  have := packQ_le q; have := f0.isLt
  rw [EncodeBound.Statement, h, Option.getD_some]
  omega
theorem EncodeBound.spawn (q : Qual) (f0 : BitVec 6) (f1 : BitVec 6) (f2 : BitVec 6) : EncodeBound.Statement (.spawn q f0 f1 f2) := by
  have h : encodeNat (.spawn q f0 f1 f2) = some (0x18000000 + packQ q + f0.toNat * 0x8000 + f1.toNat * 0x200 + f2.toNat * 0x8) := rfl
  have := packQ_le q; have := f0.isLt; have := f1.isLt; have := f2.isLt
  rw [EncodeBound.Statement, h, Option.getD_some]
  omega
theorem EncodeBound.park (gd : Guard) (f0 : BitVec 6) (f1 : BitVec 6) (f2 : BitVec 6) : EncodeBound.Statement (.park gd f0 f1 f2) := by
  have h : encodeNat (.park gd f0 f1 f2) = some (0x18000001 + packG gd + f0.toNat * 0x8000 + f1.toNat * 0x200 + f2.toNat * 0x8) := rfl
  have := packG_le gd; have := f0.isLt; have := f1.isLt; have := f2.isLt
  rw [EncodeBound.Statement, h, Option.getD_some]
  omega
theorem EncodeBound.rdy (q : Qual) (f0 : BitVec 6) (f1 : BitVec 6) (f2 : BitVec 6) : EncodeBound.Statement (.rdy q f0 f1 f2) := by
  have h : encodeNat (.rdy q f0 f1 f2) = some (0x18000002 + packQ q + f0.toNat * 0x8000 + f1.toNat * 0x200 + f2.toNat * 0x8) := rfl
  have := packQ_le q; have := f0.isLt; have := f1.isLt; have := f2.isLt
  rw [EncodeBound.Statement, h, Option.getD_some]
  omega
theorem EncodeBound.await (q : Qual) (f0 : BitVec 6) (f1 : BitVec 6) (f2 : BitVec 6) : EncodeBound.Statement (.await q f0 f1 f2) := by
  have h : encodeNat (.await q f0 f1 f2) = some (0x18000003 + packQ q + f0.toNat * 0x8000 + f1.toNat * 0x200 + f2.toNat * 0x8) := rfl
  have := packQ_le q; have := f0.isLt; have := f1.isLt; have := f2.isLt
  rw [EncodeBound.Statement, h, Option.getD_some]
  omega
theorem EncodeBound.gate (gd : Guard) (f0 : BitVec 6) (f1 : BitVec 9) : EncodeBound.Statement (.gate gd f0 f1) := by
  have h : encodeNat (.gate gd f0 f1) = some (0x1c000000 + packG gd + f0.toNat * 0x8000 + f1.toNat) := rfl
  have := packG_le gd; have := f0.isLt; have := f1.isLt
  rw [EncodeBound.Statement, h, Option.getD_some]
  omega
theorem EncodeBound.gret (gd : Guard) : EncodeBound.Statement (.gret gd) := by
  have h : encodeNat (.gret gd) = some (0x1c000200 + packG gd) := rfl
  have := packG_le gd
  rw [EncodeBound.Statement, h, Option.getD_some]
  omega
theorem EncodeBound.iadd (q : Qual) (f0 : BitVec 6) (f1 : BitVec 6) (f2 : BitVec 6) : EncodeBound.Statement (.iadd q f0 f1 f2) := by
  have h : encodeNat (.iadd q f0 f1 f2) = some (0x20000000 + packQ q + f0.toNat * 0x8000 + f1.toNat * 0x200 + f2.toNat * 0x8) := rfl
  have := packQ_le q; have := f0.isLt; have := f1.isLt; have := f2.isLt
  rw [EncodeBound.Statement, h, Option.getD_some]
  omega
theorem EncodeBound.isub (q : Qual) (f0 : BitVec 6) (f1 : BitVec 6) (f2 : BitVec 6) : EncodeBound.Statement (.isub q f0 f1 f2) := by
  have h : encodeNat (.isub q f0 f1 f2) = some (0x20000001 + packQ q + f0.toNat * 0x8000 + f1.toNat * 0x200 + f2.toNat * 0x8) := rfl
  have := packQ_le q; have := f0.isLt; have := f1.isLt; have := f2.isLt
  rw [EncodeBound.Statement, h, Option.getD_some]
  omega
theorem EncodeBound.imul (q : Qual) (f0 : BitVec 6) (f1 : BitVec 6) (f2 : BitVec 6) : EncodeBound.Statement (.imul q f0 f1 f2) := by
  have h : encodeNat (.imul q f0 f1 f2) = some (0x20000002 + packQ q + f0.toNat * 0x8000 + f1.toNat * 0x200 + f2.toNat * 0x8) := rfl
  have := packQ_le q; have := f0.isLt; have := f1.isLt; have := f2.isLt
  rw [EncodeBound.Statement, h, Option.getD_some]
  omega
theorem EncodeBound.imulh (q : Qual) (f0 : BitVec 6) (f1 : BitVec 6) (f2 : BitVec 6) : EncodeBound.Statement (.imulh q f0 f1 f2) := by
  have h : encodeNat (.imulh q f0 f1 f2) = some (0x20000003 + packQ q + f0.toNat * 0x8000 + f1.toNat * 0x200 + f2.toNat * 0x8) := rfl
  have := packQ_le q; have := f0.isLt; have := f1.isLt; have := f2.isLt
  rw [EncodeBound.Statement, h, Option.getD_some]
  omega
theorem EncodeBound.imin (q : Qual) (f0 : BitVec 6) (f1 : BitVec 6) (f2 : BitVec 6) : EncodeBound.Statement (.imin q f0 f1 f2) := by
  have h : encodeNat (.imin q f0 f1 f2) = some (0x20000004 + packQ q + f0.toNat * 0x8000 + f1.toNat * 0x200 + f2.toNat * 0x8) := rfl
  have := packQ_le q; have := f0.isLt; have := f1.isLt; have := f2.isLt
  rw [EncodeBound.Statement, h, Option.getD_some]
  omega
theorem EncodeBound.imax (q : Qual) (f0 : BitVec 6) (f1 : BitVec 6) (f2 : BitVec 6) : EncodeBound.Statement (.imax q f0 f1 f2) := by
  have h : encodeNat (.imax q f0 f1 f2) = some (0x20000005 + packQ q + f0.toNat * 0x8000 + f1.toNat * 0x200 + f2.toNat * 0x8) := rfl
  have := packQ_le q; have := f0.isLt; have := f1.isLt; have := f2.isLt
  rw [EncodeBound.Statement, h, Option.getD_some]
  omega
theorem EncodeBound.iabs (q : Qual) (f0 : BitVec 6) (f1 : BitVec 6) : EncodeBound.Statement (.iabs q f0 f1) := by
  have h : encodeNat (.iabs q f0 f1) = some (0x20000006 + packQ q + f0.toNat * 0x8000 + f1.toNat * 0x200) := rfl
  have := packQ_le q; have := f0.isLt; have := f1.isLt
  rw [EncodeBound.Statement, h, Option.getD_some]
  omega
theorem EncodeBound.ineg (q : Qual) (f0 : BitVec 6) (f1 : BitVec 6) : EncodeBound.Statement (.ineg q f0 f1) := by
  have h : encodeNat (.ineg q f0 f1) = some (0x20000007 + packQ q + f0.toNat * 0x8000 + f1.toNat * 0x200) := rfl
  have := packQ_le q; have := f0.isLt; have := f1.isLt
  rw [EncodeBound.Statement, h, Option.getD_some]
  omega
theorem EncodeBound.iaddImm (q : Qual) (f0 : BitVec 6) (f1 : BitVec 9) : EncodeBound.Statement (.iaddImm q f0 f1) := by
  have h : encodeNat (.iaddImm q f0 f1) = some (0x24000000 + packQ q + f0.toNat * 0x8000 + f1.toNat) := rfl
  have := packQ_le q; have := f0.isLt; have := f1.isLt
  rw [EncodeBound.Statement, h, Option.getD_some]
  omega
theorem EncodeBound.isubImm (q : Qual) (f0 : BitVec 6) (f1 : BitVec 9) : EncodeBound.Statement (.isubImm q f0 f1) := by
  have h : encodeNat (.isubImm q f0 f1) = some (0x24000200 + packQ q + f0.toNat * 0x8000 + f1.toNat) := rfl
  have := packQ_le q; have := f0.isLt; have := f1.isLt
  rw [EncodeBound.Statement, h, Option.getD_some]
  omega
theorem EncodeBound.imulImm (q : Qual) (f0 : BitVec 6) (f1 : BitVec 9) : EncodeBound.Statement (.imulImm q f0 f1) := by
  have h : encodeNat (.imulImm q f0 f1) = some (0x24000400 + packQ q + f0.toNat * 0x8000 + f1.toNat) := rfl
  have := packQ_le q; have := f0.isLt; have := f1.isLt
  rw [EncodeBound.Statement, h, Option.getD_some]
  omega
theorem EncodeBound.imulhImm (q : Qual) (f0 : BitVec 6) (f1 : BitVec 9) : EncodeBound.Statement (.imulhImm q f0 f1) := by
  have h : encodeNat (.imulhImm q f0 f1) = some (0x24000600 + packQ q + f0.toNat * 0x8000 + f1.toNat) := rfl
  have := packQ_le q; have := f0.isLt; have := f1.isLt
  rw [EncodeBound.Statement, h, Option.getD_some]
  omega
theorem EncodeBound.iminImm (q : Qual) (f0 : BitVec 6) (f1 : BitVec 9) : EncodeBound.Statement (.iminImm q f0 f1) := by
  have h : encodeNat (.iminImm q f0 f1) = some (0x24000800 + packQ q + f0.toNat * 0x8000 + f1.toNat) := rfl
  have := packQ_le q; have := f0.isLt; have := f1.isLt
  rw [EncodeBound.Statement, h, Option.getD_some]
  omega
theorem EncodeBound.imaxImm (q : Qual) (f0 : BitVec 6) (f1 : BitVec 9) : EncodeBound.Statement (.imaxImm q f0 f1) := by
  have h : encodeNat (.imaxImm q f0 f1) = some (0x24000a00 + packQ q + f0.toNat * 0x8000 + f1.toNat) := rfl
  have := packQ_le q; have := f0.isLt; have := f1.isLt
  rw [EncodeBound.Statement, h, Option.getD_some]
  omega
theorem EncodeBound.iabsImm (q : Qual) (f0 : BitVec 6) (f1 : BitVec 9) : EncodeBound.Statement (.iabsImm q f0 f1) := by
  have h : encodeNat (.iabsImm q f0 f1) = some (0x24000c00 + packQ q + f0.toNat * 0x8000 + f1.toNat) := rfl
  have := packQ_le q; have := f0.isLt; have := f1.isLt
  rw [EncodeBound.Statement, h, Option.getD_some]
  omega
theorem EncodeBound.inegImm (q : Qual) (f0 : BitVec 6) (f1 : BitVec 9) : EncodeBound.Statement (.inegImm q f0 f1) := by
  have h : encodeNat (.inegImm q f0 f1) = some (0x24000e00 + packQ q + f0.toNat * 0x8000 + f1.toNat) := rfl
  have := packQ_le q; have := f0.isLt; have := f1.isLt
  rw [EncodeBound.Statement, h, Option.getD_some]
  omega
theorem EncodeBound.andV (q : Qual) (f0 : BitVec 6) (f1 : BitVec 6) (f2 : BitVec 6) : EncodeBound.Statement (.andV q f0 f1 f2) := by
  have h : encodeNat (.andV q f0 f1 f2) = some (0x28000000 + packQ q + f0.toNat * 0x8000 + f1.toNat * 0x200 + f2.toNat * 0x8) := rfl
  have := packQ_le q; have := f0.isLt; have := f1.isLt; have := f2.isLt
  rw [EncodeBound.Statement, h, Option.getD_some]
  omega
theorem EncodeBound.orV (q : Qual) (f0 : BitVec 6) (f1 : BitVec 6) (f2 : BitVec 6) : EncodeBound.Statement (.orV q f0 f1 f2) := by
  have h : encodeNat (.orV q f0 f1 f2) = some (0x28000001 + packQ q + f0.toNat * 0x8000 + f1.toNat * 0x200 + f2.toNat * 0x8) := rfl
  have := packQ_le q; have := f0.isLt; have := f1.isLt; have := f2.isLt
  rw [EncodeBound.Statement, h, Option.getD_some]
  omega
theorem EncodeBound.xorV (q : Qual) (f0 : BitVec 6) (f1 : BitVec 6) (f2 : BitVec 6) : EncodeBound.Statement (.xorV q f0 f1 f2) := by
  have h : encodeNat (.xorV q f0 f1 f2) = some (0x28000002 + packQ q + f0.toNat * 0x8000 + f1.toNat * 0x200 + f2.toNat * 0x8) := rfl
  have := packQ_le q; have := f0.isLt; have := f1.isLt; have := f2.isLt
  rw [EncodeBound.Statement, h, Option.getD_some]
  omega
theorem EncodeBound.notV (q : Qual) (f0 : BitVec 6) (f1 : BitVec 6) : EncodeBound.Statement (.notV q f0 f1) := by
  have h : encodeNat (.notV q f0 f1) = some (0x28000003 + packQ q + f0.toNat * 0x8000 + f1.toNat * 0x200) := rfl
  have := packQ_le q; have := f0.isLt; have := f1.isLt
  rw [EncodeBound.Statement, h, Option.getD_some]
  omega
theorem EncodeBound.sel (q : Qual) (f0 : BitVec 6) (f1 : BitVec 6) (f2 : BitVec 6) : EncodeBound.Statement (.sel q f0 f1 f2) := by
  have h : encodeNat (.sel q f0 f1 f2) = some (0x28000004 + packQ q + f0.toNat * 0x8000 + f1.toNat * 0x200 + f2.toNat * 0x8) := rfl
  have := packQ_le q; have := f0.isLt; have := f1.isLt; have := f2.isLt
  rw [EncodeBound.Statement, h, Option.getD_some]
  omega
theorem EncodeBound.popc (q : Qual) (f0 : BitVec 6) (f1 : BitVec 6) : EncodeBound.Statement (.popc q f0 f1) := by
  have h : encodeNat (.popc q f0 f1) = some (0x28000005 + packQ q + f0.toNat * 0x8000 + f1.toNat * 0x200) := rfl
  have := packQ_le q; have := f0.isLt; have := f1.isLt
  rw [EncodeBound.Statement, h, Option.getD_some]
  omega
theorem EncodeBound.clz (q : Qual) (f0 : BitVec 6) (f1 : BitVec 6) : EncodeBound.Statement (.clz q f0 f1) := by
  have h : encodeNat (.clz q f0 f1) = some (0x28000006 + packQ q + f0.toNat * 0x8000 + f1.toNat * 0x200) := rfl
  have := packQ_le q; have := f0.isLt; have := f1.isLt
  rw [EncodeBound.Statement, h, Option.getD_some]
  omega
theorem EncodeBound.brev (q : Qual) (f0 : BitVec 6) (f1 : BitVec 6) : EncodeBound.Statement (.brev q f0 f1) := by
  have h : encodeNat (.brev q f0 f1) = some (0x28000007 + packQ q + f0.toNat * 0x8000 + f1.toNat * 0x200) := rfl
  have := packQ_le q; have := f0.isLt; have := f1.isLt
  rw [EncodeBound.Statement, h, Option.getD_some]
  omega
theorem EncodeBound.andImm (q : Qual) (f0 : BitVec 6) (f1 : BitVec 9) : EncodeBound.Statement (.andImm q f0 f1) := by
  have h : encodeNat (.andImm q f0 f1) = some (0x2c000000 + packQ q + f0.toNat * 0x8000 + f1.toNat) := rfl
  have := packQ_le q; have := f0.isLt; have := f1.isLt
  rw [EncodeBound.Statement, h, Option.getD_some]
  omega
theorem EncodeBound.orImm (q : Qual) (f0 : BitVec 6) (f1 : BitVec 9) : EncodeBound.Statement (.orImm q f0 f1) := by
  have h : encodeNat (.orImm q f0 f1) = some (0x2c000200 + packQ q + f0.toNat * 0x8000 + f1.toNat) := rfl
  have := packQ_le q; have := f0.isLt; have := f1.isLt
  rw [EncodeBound.Statement, h, Option.getD_some]
  omega
theorem EncodeBound.xorImm (q : Qual) (f0 : BitVec 6) (f1 : BitVec 9) : EncodeBound.Statement (.xorImm q f0 f1) := by
  have h : encodeNat (.xorImm q f0 f1) = some (0x2c000400 + packQ q + f0.toNat * 0x8000 + f1.toNat) := rfl
  have := packQ_le q; have := f0.isLt; have := f1.isLt
  rw [EncodeBound.Statement, h, Option.getD_some]
  omega
theorem EncodeBound.notImm (q : Qual) (f0 : BitVec 6) (f1 : BitVec 9) : EncodeBound.Statement (.notImm q f0 f1) := by
  have h : encodeNat (.notImm q f0 f1) = some (0x2c000600 + packQ q + f0.toNat * 0x8000 + f1.toNat) := rfl
  have := packQ_le q; have := f0.isLt; have := f1.isLt
  rw [EncodeBound.Statement, h, Option.getD_some]
  omega
theorem EncodeBound.selImm (q : Qual) (f0 : BitVec 6) (f1 : BitVec 9) : EncodeBound.Statement (.selImm q f0 f1) := by
  have h : encodeNat (.selImm q f0 f1) = some (0x2c000800 + packQ q + f0.toNat * 0x8000 + f1.toNat) := rfl
  have := packQ_le q; have := f0.isLt; have := f1.isLt
  rw [EncodeBound.Statement, h, Option.getD_some]
  omega
theorem EncodeBound.popcImm (q : Qual) (f0 : BitVec 6) (f1 : BitVec 9) : EncodeBound.Statement (.popcImm q f0 f1) := by
  have h : encodeNat (.popcImm q f0 f1) = some (0x2c000a00 + packQ q + f0.toNat * 0x8000 + f1.toNat) := rfl
  have := packQ_le q; have := f0.isLt; have := f1.isLt
  rw [EncodeBound.Statement, h, Option.getD_some]
  omega
theorem EncodeBound.clzImm (q : Qual) (f0 : BitVec 6) (f1 : BitVec 9) : EncodeBound.Statement (.clzImm q f0 f1) := by
  have h : encodeNat (.clzImm q f0 f1) = some (0x2c000c00 + packQ q + f0.toNat * 0x8000 + f1.toNat) := rfl
  have := packQ_le q; have := f0.isLt; have := f1.isLt
  rw [EncodeBound.Statement, h, Option.getD_some]
  omega
theorem EncodeBound.brevImm (q : Qual) (f0 : BitVec 6) (f1 : BitVec 9) : EncodeBound.Statement (.brevImm q f0 f1) := by
  have h : encodeNat (.brevImm q f0 f1) = some (0x2c000e00 + packQ q + f0.toNat * 0x8000 + f1.toNat) := rfl
  have := packQ_le q; have := f0.isLt; have := f1.isLt
  rw [EncodeBound.Statement, h, Option.getD_some]
  omega
theorem EncodeBound.shl (q : Qual) (f0 : BitVec 6) (f1 : BitVec 6) (f2 : BitVec 6) : EncodeBound.Statement (.shl q f0 f1 f2) := by
  have h : encodeNat (.shl q f0 f1 f2) = some (0x30000000 + packQ q + f0.toNat * 0x8000 + f1.toNat * 0x200 + f2.toNat * 0x8) := rfl
  have := packQ_le q; have := f0.isLt; have := f1.isLt; have := f2.isLt
  rw [EncodeBound.Statement, h, Option.getD_some]
  omega
theorem EncodeBound.shr (q : Qual) (f0 : BitVec 6) (f1 : BitVec 6) (f2 : BitVec 6) : EncodeBound.Statement (.shr q f0 f1 f2) := by
  have h : encodeNat (.shr q f0 f1 f2) = some (0x30000001 + packQ q + f0.toNat * 0x8000 + f1.toNat * 0x200 + f2.toNat * 0x8) := rfl
  have := packQ_le q; have := f0.isLt; have := f1.isLt; have := f2.isLt
  rw [EncodeBound.Statement, h, Option.getD_some]
  omega
theorem EncodeBound.sar (q : Qual) (f0 : BitVec 6) (f1 : BitVec 6) (f2 : BitVec 6) : EncodeBound.Statement (.sar q f0 f1 f2) := by
  have h : encodeNat (.sar q f0 f1 f2) = some (0x30000002 + packQ q + f0.toNat * 0x8000 + f1.toNat * 0x200 + f2.toNat * 0x8) := rfl
  have := packQ_le q; have := f0.isLt; have := f1.isLt; have := f2.isLt
  rw [EncodeBound.Statement, h, Option.getD_some]
  omega
theorem EncodeBound.rot (q : Qual) (f0 : BitVec 6) (f1 : BitVec 6) (f2 : BitVec 6) : EncodeBound.Statement (.rot q f0 f1 f2) := by
  have h : encodeNat (.rot q f0 f1 f2) = some (0x30000003 + packQ q + f0.toNat * 0x8000 + f1.toNat * 0x200 + f2.toNat * 0x8) := rfl
  have := packQ_le q; have := f0.isLt; have := f1.isLt; have := f2.isLt
  rw [EncodeBound.Statement, h, Option.getD_some]
  omega
theorem EncodeBound.bfe (q : Qual) (f0 : BitVec 6) (f1 : BitVec 6) (f2 : BitVec 6) : EncodeBound.Statement (.bfe q f0 f1 f2) := by
  have h : encodeNat (.bfe q f0 f1 f2) = some (0x30000004 + packQ q + f0.toNat * 0x8000 + f1.toNat * 0x200 + f2.toNat * 0x8) := rfl
  have := packQ_le q; have := f0.isLt; have := f1.isLt; have := f2.isLt
  rw [EncodeBound.Statement, h, Option.getD_some]
  omega
theorem EncodeBound.bfi (q : Qual) (f0 : BitVec 6) (f1 : BitVec 6) (f2 : BitVec 6) : EncodeBound.Statement (.bfi q f0 f1 f2) := by
  have h : encodeNat (.bfi q f0 f1 f2) = some (0x30000005 + packQ q + f0.toNat * 0x8000 + f1.toNat * 0x200 + f2.toNat * 0x8) := rfl
  have := packQ_le q; have := f0.isLt; have := f1.isLt; have := f2.isLt
  rw [EncodeBound.Statement, h, Option.getD_some]
  omega
theorem EncodeBound.lea (q : Qual) (f0 : BitVec 6) (f1 : BitVec 6) (f2 : BitVec 6) : EncodeBound.Statement (.lea q f0 f1 f2) := by
  have h : encodeNat (.lea q f0 f1 f2) = some (0x30000006 + packQ q + f0.toNat * 0x8000 + f1.toNat * 0x200 + f2.toNat * 0x8) := rfl
  have := packQ_le q; have := f0.isLt; have := f1.isLt; have := f2.isLt
  rw [EncodeBound.Statement, h, Option.getD_some]
  omega
theorem EncodeBound.imad (q : Qual) (f0 : BitVec 6) (f1 : BitVec 6) (f2 : BitVec 6) : EncodeBound.Statement (.imad q f0 f1 f2) := by
  have h : encodeNat (.imad q f0 f1 f2) = some (0x30000007 + packQ q + f0.toNat * 0x8000 + f1.toNat * 0x200 + f2.toNat * 0x8) := rfl
  have := packQ_le q; have := f0.isLt; have := f1.isLt; have := f2.isLt
  rw [EncodeBound.Statement, h, Option.getD_some]
  omega
theorem EncodeBound.shlImm (q : Qual) (f0 : BitVec 6) (f1 : BitVec 9) : EncodeBound.Statement (.shlImm q f0 f1) := by
  have h : encodeNat (.shlImm q f0 f1) = some (0x34000000 + packQ q + f0.toNat * 0x8000 + f1.toNat) := rfl
  have := packQ_le q; have := f0.isLt; have := f1.isLt
  rw [EncodeBound.Statement, h, Option.getD_some]
  omega
theorem EncodeBound.shrImm (q : Qual) (f0 : BitVec 6) (f1 : BitVec 9) : EncodeBound.Statement (.shrImm q f0 f1) := by
  have h : encodeNat (.shrImm q f0 f1) = some (0x34000200 + packQ q + f0.toNat * 0x8000 + f1.toNat) := rfl
  have := packQ_le q; have := f0.isLt; have := f1.isLt
  rw [EncodeBound.Statement, h, Option.getD_some]
  omega
theorem EncodeBound.sarImm (q : Qual) (f0 : BitVec 6) (f1 : BitVec 9) : EncodeBound.Statement (.sarImm q f0 f1) := by
  have h : encodeNat (.sarImm q f0 f1) = some (0x34000400 + packQ q + f0.toNat * 0x8000 + f1.toNat) := rfl
  have := packQ_le q; have := f0.isLt; have := f1.isLt
  rw [EncodeBound.Statement, h, Option.getD_some]
  omega
theorem EncodeBound.rotImm (q : Qual) (f0 : BitVec 6) (f1 : BitVec 9) : EncodeBound.Statement (.rotImm q f0 f1) := by
  have h : encodeNat (.rotImm q f0 f1) = some (0x34000600 + packQ q + f0.toNat * 0x8000 + f1.toNat) := rfl
  have := packQ_le q; have := f0.isLt; have := f1.isLt
  rw [EncodeBound.Statement, h, Option.getD_some]
  omega
theorem EncodeBound.bfeImm (q : Qual) (f0 : BitVec 6) (f1 : BitVec 9) : EncodeBound.Statement (.bfeImm q f0 f1) := by
  have h : encodeNat (.bfeImm q f0 f1) = some (0x34000800 + packQ q + f0.toNat * 0x8000 + f1.toNat) := rfl
  have := packQ_le q; have := f0.isLt; have := f1.isLt
  rw [EncodeBound.Statement, h, Option.getD_some]
  omega
theorem EncodeBound.bfiImm (q : Qual) (f0 : BitVec 6) (f1 : BitVec 9) : EncodeBound.Statement (.bfiImm q f0 f1) := by
  have h : encodeNat (.bfiImm q f0 f1) = some (0x34000a00 + packQ q + f0.toNat * 0x8000 + f1.toNat) := rfl
  have := packQ_le q; have := f0.isLt; have := f1.isLt
  rw [EncodeBound.Statement, h, Option.getD_some]
  omega
theorem EncodeBound.leaImm (q : Qual) (f0 : BitVec 6) (f1 : BitVec 9) : EncodeBound.Statement (.leaImm q f0 f1) := by
  have h : encodeNat (.leaImm q f0 f1) = some (0x34000c00 + packQ q + f0.toNat * 0x8000 + f1.toNat) := rfl
  have := packQ_le q; have := f0.isLt; have := f1.isLt
  rw [EncodeBound.Statement, h, Option.getD_some]
  omega
theorem EncodeBound.imadImm (q : Qual) (f0 : BitVec 6) (f1 : BitVec 9) : EncodeBound.Statement (.imadImm q f0 f1) := by
  have h : encodeNat (.imadImm q f0 f1) = some (0x34000e00 + packQ q + f0.toNat * 0x8000 + f1.toNat) := rfl
  have := packQ_le q; have := f0.isLt; have := f1.isLt
  rw [EncodeBound.Statement, h, Option.getD_some]
  omega
theorem EncodeBound.icmp (q : Qual) (f0 : BitVec 6) (f1 : BitVec 6) (f2 : BitVec 6) (f3 : BitVec 3) : EncodeBound.Statement (.icmp q f0 f1 f2 f3) := by
  have h : encodeNat (.icmp q f0 f1 f2 f3) = some (0x38000000 + packQ q + f0.toNat * 0x8000 + f1.toNat * 0x200 + f2.toNat * 0x8 + f3.toNat) := rfl
  have := packQ_le q; have := f0.isLt; have := f1.isLt; have := f2.isLt; have := f3.isLt
  rw [EncodeBound.Statement, h, Option.getD_some]
  omega
theorem EncodeBound.mov (q : Qual) (f0 : BitVec 6) (f1 : BitVec 6) : EncodeBound.Statement (.mov q f0 f1) := by
  have h : encodeNat (.mov q f0 f1) = some (0x3c000000 + packQ q + f0.toNat * 0x8000 + f1.toNat * 0x200) := rfl
  have := packQ_le q; have := f0.isLt; have := f1.isLt
  rw [EncodeBound.Statement, h, Option.getD_some]
  omega
theorem EncodeBound.movi (q : Qual) (f0 : BitVec 6) (f1 : BitVec 12) : EncodeBound.Statement (.movi q f0 f1) := by
  have h : encodeNat (.movi q f0 f1) = some (0x3c000001 + packQ q + f0.toNat * 0x8000 + f1.toNat * 0x8) := rfl
  have := packQ_le q; have := f0.isLt; have := f1.isLt
  rw [EncodeBound.Statement, h, Option.getD_some]
  omega
theorem EncodeBound.shfl (gd : Guard) (f0 : BitVec 6) (f1 : BitVec 6) (f2 : BitVec 6) : EncodeBound.Statement (.shfl gd f0 f1 f2) := by
  have h : encodeNat (.shfl gd f0 f1 f2) = some (0x3c000002 + packG gd + f0.toNat * 0x8000 + f1.toNat * 0x200 + f2.toNat * 0x8) := rfl
  have := packG_le gd; have := f0.isLt; have := f1.isLt; have := f2.isLt
  rw [EncodeBound.Statement, h, Option.getD_some]
  omega
theorem EncodeBound.vote (gd : Guard) (f0 : BitVec 6) (f1 : BitVec 6) : EncodeBound.Statement (.vote gd f0 f1) := by
  have h : encodeNat (.vote gd f0 f1) = some (0x3c000003 + packG gd + f0.toNat * 0x8000 + f1.toNat * 0x200) := rfl
  have := packG_le gd; have := f0.isLt; have := f1.isLt
  rw [EncodeBound.Statement, h, Option.getD_some]
  omega
theorem EncodeBound.ballot (gd : Guard) (f0 : BitVec 6) (f1 : BitVec 6) : EncodeBound.Statement (.ballot gd f0 f1) := by
  have h : encodeNat (.ballot gd f0 f1) = some (0x3c000004 + packG gd + f0.toNat * 0x8000 + f1.toNat * 0x200) := rfl
  have := packG_le gd; have := f0.isLt; have := f1.isLt
  rw [EncodeBound.Statement, h, Option.getD_some]
  omega
theorem EncodeBound.bcast (gd : Guard) (f0 : BitVec 6) (f1 : BitVec 6) (f2 : BitVec 6) : EncodeBound.Statement (.bcast gd f0 f1 f2) := by
  have h : encodeNat (.bcast gd f0 f1 f2) = some (0x3c000005 + packG gd + f0.toNat * 0x8000 + f1.toNat * 0x200 + f2.toNat * 0x8) := rfl
  have := packG_le gd; have := f0.isLt; have := f1.isLt; have := f2.isLt
  rw [EncodeBound.Statement, h, Option.getD_some]
  omega
theorem EncodeBound.redg (gd : Guard) (f0 : BitVec 6) (f1 : BitVec 6) (f2 : BitVec 6) : EncodeBound.Statement (.redg gd f0 f1 f2) := by
  have h : encodeNat (.redg gd f0 f1 f2) = some (0x3c000006 + packG gd + f0.toNat * 0x8000 + f1.toNat * 0x200 + f2.toNat * 0x8) := rfl
  have := packG_le gd; have := f0.isLt; have := f1.isLt; have := f2.isLt
  rw [EncodeBound.Statement, h, Option.getD_some]
  omega
theorem EncodeBound.lane (gd : Guard) (f0 : BitVec 6) (f1 : BitVec 6) : EncodeBound.Statement (.lane gd f0 f1) := by
  have h : encodeNat (.lane gd f0 f1) = some (0x3c000007 + packG gd + f0.toNat * 0x8000 + f1.toNat * 0x8) := rfl
  have := packG_le gd; have := f0.isLt; have := f1.isLt
  rw [EncodeBound.Statement, h, Option.getD_some]
  omega
theorem EncodeBound.fadd (q : Qual) (f0 : BitVec 6) (f1 : BitVec 6) (f2 : BitVec 6) : EncodeBound.Statement (.fadd q f0 f1 f2) := by
  have h : encodeNat (.fadd q f0 f1 f2) = some (0x40000000 + packQ q + f0.toNat * 0x8000 + f1.toNat * 0x200 + f2.toNat * 0x8) := rfl
  have := packQ_le q; have := f0.isLt; have := f1.isLt; have := f2.isLt
  rw [EncodeBound.Statement, h, Option.getD_some]
  omega
theorem EncodeBound.fmul (q : Qual) (f0 : BitVec 6) (f1 : BitVec 6) (f2 : BitVec 6) : EncodeBound.Statement (.fmul q f0 f1 f2) := by
  have h : encodeNat (.fmul q f0 f1 f2) = some (0x40000001 + packQ q + f0.toNat * 0x8000 + f1.toNat * 0x200 + f2.toNat * 0x8) := rfl
  have := packQ_le q; have := f0.isLt; have := f1.isLt; have := f2.isLt
  rw [EncodeBound.Statement, h, Option.getD_some]
  omega
theorem EncodeBound.fmin (q : Qual) (f0 : BitVec 6) (f1 : BitVec 6) (f2 : BitVec 6) : EncodeBound.Statement (.fmin q f0 f1 f2) := by
  have h : encodeNat (.fmin q f0 f1 f2) = some (0x40000002 + packQ q + f0.toNat * 0x8000 + f1.toNat * 0x200 + f2.toNat * 0x8) := rfl
  have := packQ_le q; have := f0.isLt; have := f1.isLt; have := f2.isLt
  rw [EncodeBound.Statement, h, Option.getD_some]
  omega
theorem EncodeBound.fmax (q : Qual) (f0 : BitVec 6) (f1 : BitVec 6) (f2 : BitVec 6) : EncodeBound.Statement (.fmax q f0 f1 f2) := by
  have h : encodeNat (.fmax q f0 f1 f2) = some (0x40000003 + packQ q + f0.toNat * 0x8000 + f1.toNat * 0x200 + f2.toNat * 0x8) := rfl
  have := packQ_le q; have := f0.isLt; have := f1.isLt; have := f2.isLt
  rw [EncodeBound.Statement, h, Option.getD_some]
  omega
theorem EncodeBound.fabs (q : Qual) (f0 : BitVec 6) (f1 : BitVec 6) : EncodeBound.Statement (.fabs q f0 f1) := by
  have h : encodeNat (.fabs q f0 f1) = some (0x40000004 + packQ q + f0.toNat * 0x8000 + f1.toNat * 0x200) := rfl
  have := packQ_le q; have := f0.isLt; have := f1.isLt
  rw [EncodeBound.Statement, h, Option.getD_some]
  omega
theorem EncodeBound.fneg (q : Qual) (f0 : BitVec 6) (f1 : BitVec 6) : EncodeBound.Statement (.fneg q f0 f1) := by
  have h : encodeNat (.fneg q f0 f1) = some (0x40000005 + packQ q + f0.toNat * 0x8000 + f1.toNat * 0x200) := rfl
  have := packQ_le q; have := f0.isLt; have := f1.isLt
  rw [EncodeBound.Statement, h, Option.getD_some]
  omega
theorem EncodeBound.fclass (q : Qual) (f0 : BitVec 6) (f1 : BitVec 6) : EncodeBound.Statement (.fclass q f0 f1) := by
  have h : encodeNat (.fclass q f0 f1) = some (0x40000006 + packQ q + f0.toNat * 0x8000 + f1.toNat * 0x200) := rfl
  have := packQ_le q; have := f0.isLt; have := f1.isLt
  rw [EncodeBound.Statement, h, Option.getD_some]
  omega
theorem EncodeBound.fsign (q : Qual) (f0 : BitVec 6) (f1 : BitVec 6) (f2 : BitVec 6) : EncodeBound.Statement (.fsign q f0 f1 f2) := by
  have h : encodeNat (.fsign q f0 f1 f2) = some (0x40000007 + packQ q + f0.toNat * 0x8000 + f1.toNat * 0x200 + f2.toNat * 0x8) := rfl
  have := packQ_le q; have := f0.isLt; have := f1.isLt; have := f2.isLt
  rw [EncodeBound.Statement, h, Option.getD_some]
  omega
theorem EncodeBound.ffma (q : Qual) (f0 : BitVec 6) (f1 : BitVec 6) (f2 : BitVec 6) (f3 : Bool) (f4 : Bool) : EncodeBound.Statement (.ffma q f0 f1 f2 f3 f4) := by
  have h : encodeNat (.ffma q f0 f1 f2 f3 f4) = some (0x44000000 + packQ q + f0.toNat * 0x8000 + f1.toNat * 0x200 + f2.toNat * 0x8 + b1 f3 * 0x2 + b1 f4) := rfl
  have := packQ_le q; have := f0.isLt; have := f1.isLt; have := f2.isLt; have := b1_le f3; have := b1_le f4
  rw [EncodeBound.Statement, h, Option.getD_some]
  omega
theorem EncodeBound.frcp (q : Qual) (f0 : BitVec 6) (f1 : BitVec 6) : EncodeBound.Statement (.frcp q f0 f1) := by
  have h : encodeNat (.frcp q f0 f1) = some (0x48000000 + packQ q + f0.toNat * 0x8000 + f1.toNat * 0x200) := rfl
  have := packQ_le q; have := f0.isLt; have := f1.isLt
  rw [EncodeBound.Statement, h, Option.getD_some]
  omega
theorem EncodeBound.frsq (q : Qual) (f0 : BitVec 6) (f1 : BitVec 6) : EncodeBound.Statement (.frsq q f0 f1) := by
  have h : encodeNat (.frsq q f0 f1) = some (0x48000001 + packQ q + f0.toNat * 0x8000 + f1.toNat * 0x200) := rfl
  have := packQ_le q; have := f0.isLt; have := f1.isLt
  rw [EncodeBound.Statement, h, Option.getD_some]
  omega
theorem EncodeBound.fsqrt (q : Qual) (f0 : BitVec 6) (f1 : BitVec 6) : EncodeBound.Statement (.fsqrt q f0 f1) := by
  have h : encodeNat (.fsqrt q f0 f1) = some (0x48000002 + packQ q + f0.toNat * 0x8000 + f1.toNat * 0x200) := rfl
  have := packQ_le q; have := f0.isLt; have := f1.isLt
  rw [EncodeBound.Statement, h, Option.getD_some]
  omega
theorem EncodeBound.fex2 (q : Qual) (f0 : BitVec 6) (f1 : BitVec 6) : EncodeBound.Statement (.fex2 q f0 f1) := by
  have h : encodeNat (.fex2 q f0 f1) = some (0x48000003 + packQ q + f0.toNat * 0x8000 + f1.toNat * 0x200) := rfl
  have := packQ_le q; have := f0.isLt; have := f1.isLt
  rw [EncodeBound.Statement, h, Option.getD_some]
  omega
theorem EncodeBound.flg2 (q : Qual) (f0 : BitVec 6) (f1 : BitVec 6) : EncodeBound.Statement (.flg2 q f0 f1) := by
  have h : encodeNat (.flg2 q f0 f1) = some (0x48000004 + packQ q + f0.toNat * 0x8000 + f1.toNat * 0x200) := rfl
  have := packQ_le q; have := f0.isLt; have := f1.isLt
  rw [EncodeBound.Statement, h, Option.getD_some]
  omega
theorem EncodeBound.fsin (q : Qual) (f0 : BitVec 6) (f1 : BitVec 6) : EncodeBound.Statement (.fsin q f0 f1) := by
  have h : encodeNat (.fsin q f0 f1) = some (0x48000005 + packQ q + f0.toNat * 0x8000 + f1.toNat * 0x200) := rfl
  have := packQ_le q; have := f0.isLt; have := f1.isLt
  rw [EncodeBound.Statement, h, Option.getD_some]
  omega
theorem EncodeBound.fcos (q : Qual) (f0 : BitVec 6) (f1 : BitVec 6) : EncodeBound.Statement (.fcos q f0 f1) := by
  have h : encodeNat (.fcos q f0 f1) = some (0x48000006 + packQ q + f0.toNat * 0x8000 + f1.toNat * 0x200) := rfl
  have := packQ_le q; have := f0.isLt; have := f1.isLt
  rw [EncodeBound.Statement, h, Option.getD_some]
  omega
theorem EncodeBound.fcmp (q : Qual) (f0 : BitVec 6) (f1 : BitVec 6) (f2 : BitVec 6) (f3 : BitVec 3) : EncodeBound.Statement (.fcmp q f0 f1 f2 f3) := by
  have h : encodeNat (.fcmp q f0 f1 f2 f3) = some (0x4c000000 + packQ q + f0.toNat * 0x8000 + f1.toNat * 0x200 + f2.toNat * 0x8 + f3.toNat) := rfl
  have := packQ_le q; have := f0.isLt; have := f1.isLt; have := f2.isLt; have := f3.isLt
  rw [EncodeBound.Statement, h, Option.getD_some]
  omega
theorem EncodeBound.dadd (q : Qual) (f0 : BitVec 6) (f1 : BitVec 6) (f2 : BitVec 6) : EncodeBound.Statement (.dadd q f0 f1 f2) := by
  have h : encodeNat (.dadd q f0 f1 f2) = some (0x50000000 + packQ q + f0.toNat * 0x8000 + f1.toNat * 0x200 + f2.toNat * 0x8) := rfl
  have := packQ_le q; have := f0.isLt; have := f1.isLt; have := f2.isLt
  rw [EncodeBound.Statement, h, Option.getD_some]
  omega
theorem EncodeBound.dmul (q : Qual) (f0 : BitVec 6) (f1 : BitVec 6) (f2 : BitVec 6) : EncodeBound.Statement (.dmul q f0 f1 f2) := by
  have h : encodeNat (.dmul q f0 f1 f2) = some (0x50000001 + packQ q + f0.toNat * 0x8000 + f1.toNat * 0x200 + f2.toNat * 0x8) := rfl
  have := packQ_le q; have := f0.isLt; have := f1.isLt; have := f2.isLt
  rw [EncodeBound.Statement, h, Option.getD_some]
  omega
theorem EncodeBound.dfma (q : Qual) (f0 : BitVec 6) (f1 : BitVec 6) (f2 : BitVec 6) : EncodeBound.Statement (.dfma q f0 f1 f2) := by
  have h : encodeNat (.dfma q f0 f1 f2) = some (0x50000002 + packQ q + f0.toNat * 0x8000 + f1.toNat * 0x200 + f2.toNat * 0x8) := rfl
  have := packQ_le q; have := f0.isLt; have := f1.isLt; have := f2.isLt
  rw [EncodeBound.Statement, h, Option.getD_some]
  omega
theorem EncodeBound.dmin (q : Qual) (f0 : BitVec 6) (f1 : BitVec 6) (f2 : BitVec 6) : EncodeBound.Statement (.dmin q f0 f1 f2) := by
  have h : encodeNat (.dmin q f0 f1 f2) = some (0x50000003 + packQ q + f0.toNat * 0x8000 + f1.toNat * 0x200 + f2.toNat * 0x8) := rfl
  have := packQ_le q; have := f0.isLt; have := f1.isLt; have := f2.isLt
  rw [EncodeBound.Statement, h, Option.getD_some]
  omega
theorem EncodeBound.dmax (q : Qual) (f0 : BitVec 6) (f1 : BitVec 6) (f2 : BitVec 6) : EncodeBound.Statement (.dmax q f0 f1 f2) := by
  have h : encodeNat (.dmax q f0 f1 f2) = some (0x50000004 + packQ q + f0.toNat * 0x8000 + f1.toNat * 0x200 + f2.toNat * 0x8) := rfl
  have := packQ_le q; have := f0.isLt; have := f1.isLt; have := f2.isLt
  rw [EncodeBound.Statement, h, Option.getD_some]
  omega
theorem EncodeBound.dcmp (q : Qual) (f0 : BitVec 3) (f1 : BitVec 3) (f2 : BitVec 6) (f3 : BitVec 6) : EncodeBound.Statement (.dcmp q f0 f1 f2 f3) := by
  have h : encodeNat (.dcmp q f0 f1 f2 f3) = some (0x50000005 + packQ q + f0.toNat * 0x40000 + f1.toNat * 0x8000 + f2.toNat * 0x200 + f3.toNat * 0x8) := rfl
  have := packQ_le q; have := f0.isLt; have := f1.isLt; have := f2.isLt; have := f3.isLt
  rw [EncodeBound.Statement, h, Option.getD_some]
  omega
theorem EncodeBound.hadd2 (q : Qual) (f0 : BitVec 6) (f1 : BitVec 6) (f2 : BitVec 6) : EncodeBound.Statement (.hadd2 q f0 f1 f2) := by
  have h : encodeNat (.hadd2 q f0 f1 f2) = some (0x54000000 + packQ q + f0.toNat * 0x8000 + f1.toNat * 0x200 + f2.toNat * 0x8) := rfl
  have := packQ_le q; have := f0.isLt; have := f1.isLt; have := f2.isLt
  rw [EncodeBound.Statement, h, Option.getD_some]
  omega
theorem EncodeBound.hmul2 (q : Qual) (f0 : BitVec 6) (f1 : BitVec 6) (f2 : BitVec 6) : EncodeBound.Statement (.hmul2 q f0 f1 f2) := by
  have h : encodeNat (.hmul2 q f0 f1 f2) = some (0x54000001 + packQ q + f0.toNat * 0x8000 + f1.toNat * 0x200 + f2.toNat * 0x8) := rfl
  have := packQ_le q; have := f0.isLt; have := f1.isLt; have := f2.isLt
  rw [EncodeBound.Statement, h, Option.getD_some]
  omega
theorem EncodeBound.hfma2 (q : Qual) (f0 : BitVec 6) (f1 : BitVec 6) (f2 : BitVec 6) : EncodeBound.Statement (.hfma2 q f0 f1 f2) := by
  have h : encodeNat (.hfma2 q f0 f1 f2) = some (0x54000002 + packQ q + f0.toNat * 0x8000 + f1.toNat * 0x200 + f2.toNat * 0x8) := rfl
  have := packQ_le q; have := f0.isLt; have := f1.isLt; have := f2.isLt
  rw [EncodeBound.Statement, h, Option.getD_some]
  omega
theorem EncodeBound.bfadd2 (q : Qual) (f0 : BitVec 6) (f1 : BitVec 6) (f2 : BitVec 6) : EncodeBound.Statement (.bfadd2 q f0 f1 f2) := by
  have h : encodeNat (.bfadd2 q f0 f1 f2) = some (0x54000003 + packQ q + f0.toNat * 0x8000 + f1.toNat * 0x200 + f2.toNat * 0x8) := rfl
  have := packQ_le q; have := f0.isLt; have := f1.isLt; have := f2.isLt
  rw [EncodeBound.Statement, h, Option.getD_some]
  omega
theorem EncodeBound.bfmul2 (q : Qual) (f0 : BitVec 6) (f1 : BitVec 6) (f2 : BitVec 6) : EncodeBound.Statement (.bfmul2 q f0 f1 f2) := by
  have h : encodeNat (.bfmul2 q f0 f1 f2) = some (0x54000004 + packQ q + f0.toNat * 0x8000 + f1.toNat * 0x200 + f2.toNat * 0x8) := rfl
  have := packQ_le q; have := f0.isLt; have := f1.isLt; have := f2.isLt
  rw [EncodeBound.Statement, h, Option.getD_some]
  omega
theorem EncodeBound.bffma2 (q : Qual) (f0 : BitVec 6) (f1 : BitVec 6) (f2 : BitVec 6) : EncodeBound.Statement (.bffma2 q f0 f1 f2) := by
  have h : encodeNat (.bffma2 q f0 f1 f2) = some (0x54000005 + packQ q + f0.toNat * 0x8000 + f1.toNat * 0x200 + f2.toNat * 0x8) := rfl
  have := packQ_le q; have := f0.isLt; have := f1.isLt; have := f2.isLt
  rw [EncodeBound.Statement, h, Option.getD_some]
  omega
theorem EncodeBound.cvt (q : Qual) (f0 : BitVec 6) (f1 : BitVec 6) (f2 : BitVec 4) (f3 : BitVec 4) (f4 : Bool) : EncodeBound.Statement (.cvt q f0 f1 f2 f3 f4) := by
  have h : encodeNat (.cvt q f0 f1 f2 f3 f4) = some (0x58000000 + packQ q + f0.toNat * 0x8000 + f1.toNat * 0x200 + f2.toNat * 0x20 + f3.toNat * 0x2 + b1 f4) := rfl
  have := packQ_le q; have := f0.isLt; have := f1.isLt; have := f2.isLt; have := f3.isLt; have := b1_le f4
  rw [EncodeBound.Statement, h, Option.getD_some]
  omega
theorem EncodeBound.bhget (q : Qual) (f0 : BitVec 6) (f1 : BitVec 6) : EncodeBound.Statement (.bhget q f0 f1) := by
  have h : encodeNat (.bhget q f0 f1) = some (0x5c000000 + packQ q + f0.toNat * 0x8000 + f1.toNat * 0x200) := rfl
  have := packQ_le q; have := f0.isLt; have := f1.isLt
  rw [EncodeBound.Statement, h, Option.getD_some]
  omega
theorem EncodeBound.bhset (q : Qual) (f0 : BitVec 6) (f1 : BitVec 6) (f2 : BitVec 6) : EncodeBound.Statement (.bhset q f0 f1 f2) := by
  have h : encodeNat (.bhset q f0 f1 f2) = some (0x5c000001 + packQ q + f0.toNat * 0x8000 + f1.toNat * 0x200 + f2.toNat * 0x8) := rfl
  have := packQ_le q; have := f0.isLt; have := f1.isLt; have := f2.isLt
  rw [EncodeBound.Statement, h, Option.getD_some]
  omega
theorem EncodeBound.amaxr (gd : Guard) (f0 : BitVec 6) (f1 : BitVec 6) : EncodeBound.Statement (.amaxr gd f0 f1) := by
  have h : encodeNat (.amaxr gd f0 f1) = some (0x5c000002 + packG gd + f0.toNat * 0x8000 + f1.toNat * 0x200) := rfl
  have := packG_le gd; have := f0.isLt; have := f1.isLt
  rw [EncodeBound.Statement, h, Option.getD_some]
  omega
theorem EncodeBound.pack (q : Qual) (f0 : BitVec 6) (f1 : BitVec 6) (f2 : BitVec 6) : EncodeBound.Statement (.pack q f0 f1 f2) := by
  have h : encodeNat (.pack q f0 f1 f2) = some (0x5c000003 + packQ q + f0.toNat * 0x8000 + f1.toNat * 0x200 + f2.toNat * 0x8) := rfl
  have := packQ_le q; have := f0.isLt; have := f1.isLt; have := f2.isLt
  rw [EncodeBound.Statement, h, Option.getD_some]
  omega
theorem EncodeBound.unpack (q : Qual) (f0 : BitVec 6) (f1 : BitVec 6) (f2 : BitVec 6) : EncodeBound.Statement (.unpack q f0 f1 f2) := by
  have h : encodeNat (.unpack q f0 f1 f2) = some (0x5c000004 + packQ q + f0.toNat * 0x8000 + f1.toNat * 0x200 + f2.toNat * 0x8) := rfl
  have := packQ_le q; have := f0.isLt; have := f1.isLt; have := f2.isLt
  rw [EncodeBound.Statement, h, Option.getD_some]
  omega
theorem EncodeBound.pand (q : Qual) (f0 : BitVec 6) (f1 : BitVec 6) (f2 : BitVec 6) : EncodeBound.Statement (.pand q f0 f1 f2) := by
  have h : encodeNat (.pand q f0 f1 f2) = some (0x60000000 + packQ q + f0.toNat * 0x8000 + f1.toNat * 0x200 + f2.toNat * 0x8) := rfl
  have := packQ_le q; have := f0.isLt; have := f1.isLt; have := f2.isLt
  rw [EncodeBound.Statement, h, Option.getD_some]
  omega
theorem EncodeBound.por (q : Qual) (f0 : BitVec 6) (f1 : BitVec 6) (f2 : BitVec 6) : EncodeBound.Statement (.por q f0 f1 f2) := by
  have h : encodeNat (.por q f0 f1 f2) = some (0x60000001 + packQ q + f0.toNat * 0x8000 + f1.toNat * 0x200 + f2.toNat * 0x8) := rfl
  have := packQ_le q; have := f0.isLt; have := f1.isLt; have := f2.isLt
  rw [EncodeBound.Statement, h, Option.getD_some]
  omega
theorem EncodeBound.pxor (q : Qual) (f0 : BitVec 6) (f1 : BitVec 6) (f2 : BitVec 6) : EncodeBound.Statement (.pxor q f0 f1 f2) := by
  have h : encodeNat (.pxor q f0 f1 f2) = some (0x60000002 + packQ q + f0.toNat * 0x8000 + f1.toNat * 0x200 + f2.toNat * 0x8) := rfl
  have := packQ_le q; have := f0.isLt; have := f1.isLt; have := f2.isLt
  rw [EncodeBound.Statement, h, Option.getD_some]
  omega
theorem EncodeBound.pnot (q : Qual) (f0 : BitVec 6) (f1 : BitVec 6) : EncodeBound.Statement (.pnot q f0 f1) := by
  have h : encodeNat (.pnot q f0 f1) = some (0x60000003 + packQ q + f0.toNat * 0x8000 + f1.toNat * 0x200) := rfl
  have := packQ_le q; have := f0.isLt; have := f1.isLt
  rw [EncodeBound.Statement, h, Option.getD_some]
  omega
theorem EncodeBound.pmovToV (q : Qual) (f0 : BitVec 6) (f1 : BitVec 2) : EncodeBound.Statement (.pmovToV q f0 f1) := by
  have h : encodeNat (.pmovToV q f0 f1) = some (0x60000004 + packQ q + f0.toNat * 0x8000 + f1.toNat * 0x8) := rfl
  have := packQ_le q; have := f0.isLt; have := f1.isLt
  rw [EncodeBound.Statement, h, Option.getD_some]
  omega
theorem EncodeBound.pmovToP (q : Qual) (f0 : BitVec 6) (f1 : BitVec 2) : EncodeBound.Statement (.pmovToP q f0 f1) := by
  have h : encodeNat (.pmovToP q f0 f1) = some (0x60000104 + packQ q + f0.toNat * 0x200 + f1.toNat * 0x8) := rfl
  have := packQ_le q; have := f0.isLt; have := f1.isLt
  rw [EncodeBound.Statement, h, Option.getD_some]
  omega
theorem EncodeBound.pcnt (q : Qual) (f0 : BitVec 6) (f1 : BitVec 6) : EncodeBound.Statement (.pcnt q f0 f1) := by
  have h : encodeNat (.pcnt q f0 f1) = some (0x60000005 + packQ q + f0.toNat * 0x8000 + f1.toNat * 0x200) := rfl
  have := packQ_le q; have := f0.isLt; have := f1.isLt
  rw [EncodeBound.Statement, h, Option.getD_some]
  omega
theorem EncodeBound.pany (q : Qual) (f0 : BitVec 6) (f1 : BitVec 6) : EncodeBound.Statement (.pany q f0 f1) := by
  have h : encodeNat (.pany q f0 f1) = some (0x60000006 + packQ q + f0.toNat * 0x8000 + f1.toNat * 0x200) := rfl
  have := packQ_le q; have := f0.isLt; have := f1.isLt
  rw [EncodeBound.Statement, h, Option.getD_some]
  omega
theorem EncodeBound.pall (q : Qual) (f0 : BitVec 6) (f1 : BitVec 6) : EncodeBound.Statement (.pall q f0 f1) := by
  have h : encodeNat (.pall q f0 f1) = some (0x60000007 + packQ q + f0.toNat * 0x8000 + f1.toNat * 0x200) := rfl
  have := packQ_le q; have := f0.isLt; have := f1.isLt
  rw [EncodeBound.Statement, h, Option.getD_some]
  omega
theorem EncodeBound.ld (q : Qual) (f0 : BitVec 6) (f1 : BitVec 6) (f2 : BitVec 3) (f3 : BitVec 2) (f4 : BitVec 4) : EncodeBound.Statement (.ld q f0 f1 f2 f3 f4) := by
  have h : encodeNat (.ld q f0 f1 f2 f3 f4) = some (0x80000000 + packQ q + f0.toNat * 0x8000 + f1.toNat * 0x200 + f2.toNat * 0x40 + f3.toNat * 0x10 + f4.toNat) := rfl
  have := packQ_le q; have := f0.isLt; have := f1.isLt; have := f2.isLt; have := f3.isLt; have := f4.isLt
  rw [EncodeBound.Statement, h, Option.getD_some]
  omega
theorem EncodeBound.st (q : Qual) (f0 : BitVec 6) (f1 : BitVec 6) (f2 : BitVec 3) (f3 : BitVec 2) (f4 : BitVec 4) : EncodeBound.Statement (.st q f0 f1 f2 f3 f4) := by
  have h : encodeNat (.st q f0 f1 f2 f3 f4) = some (0x84000000 + packQ q + f0.toNat * 0x8000 + f1.toNat * 0x200 + f2.toNat * 0x40 + f3.toNat * 0x10 + f4.toNat) := rfl
  have := packQ_le q; have := f0.isLt; have := f1.isLt; have := f2.isLt; have := f3.isLt; have := f4.isLt
  rw [EncodeBound.Statement, h, Option.getD_some]
  omega
theorem EncodeBound.ldc (q : Qual) (f0 : BitVec 6) (f1 : BitVec 6) (f2 : BitVec 3) (f3 : BitVec 2) (f4 : BitVec 4) : EncodeBound.Statement (.ldc q f0 f1 f2 f3 f4) := by
  have h : encodeNat (.ldc q f0 f1 f2 f3 f4) = some (0x88000000 + packQ q + f0.toNat * 0x8000 + f1.toNat * 0x200 + f2.toNat * 0x40 + f3.toNat * 0x10 + f4.toNat) := rfl
  have := packQ_le q; have := f0.isLt; have := f1.isLt; have := f2.isLt; have := f3.isLt; have := f4.isLt
  rw [EncodeBound.Statement, h, Option.getD_some]
  omega
theorem EncodeBound.ldt (q : Qual) (f0 : BitVec 6) (f1 : BitVec 6) (f2 : BitVec 3) (f3 : BitVec 2) (f4 : BitVec 4) : EncodeBound.Statement (.ldt q f0 f1 f2 f3 f4) := by
  have h : encodeNat (.ldt q f0 f1 f2 f3 f4) = some (0x8c000000 + packQ q + f0.toNat * 0x8000 + f1.toNat * 0x200 + f2.toNat * 0x40 + f3.toNat * 0x10 + f4.toNat) := rfl
  have := packQ_le q; have := f0.isLt; have := f1.isLt; have := f2.isLt; have := f3.isLt; have := f4.isLt
  rw [EncodeBound.Statement, h, Option.getD_some]
  omega
theorem EncodeBound.ldnc (q : Qual) (f0 : BitVec 6) (f1 : BitVec 6) (f2 : BitVec 3) (f3 : BitVec 2) (f4 : BitVec 3) : EncodeBound.Statement (.ldnc q f0 f1 f2 f3 f4) := by
  have h : encodeNat (.ldnc q f0 f1 f2 f3 f4) = some (0x90000000 + packQ q + f0.toNat * 0x8000 + f1.toNat * 0x200 + f2.toNat * 0x40 + f3.toNat * 0x10 + f4.toNat) := rfl
  have := packQ_le q; have := f0.isLt; have := f1.isLt; have := f2.isLt; have := f3.isLt; have := f4.isLt
  rw [EncodeBound.Statement, h, Option.getD_some]
  omega
theorem EncodeBound.stnc (q : Qual) (f0 : BitVec 6) (f1 : BitVec 6) (f2 : BitVec 3) (f3 : BitVec 2) (f4 : BitVec 3) : EncodeBound.Statement (.stnc q f0 f1 f2 f3 f4) := by
  have h : encodeNat (.stnc q f0 f1 f2 f3 f4) = some (0x90000008 + packQ q + f0.toNat * 0x8000 + f1.toNat * 0x200 + f2.toNat * 0x40 + f3.toNat * 0x10 + f4.toNat) := rfl
  have := packQ_le q; have := f0.isLt; have := f1.isLt; have := f2.isLt; have := f3.isLt; have := f4.isLt
  rw [EncodeBound.Statement, h, Option.getD_some]
  omega
theorem EncodeBound.fence (gd : Guard) (f0 : BitVec 6) (f1 : BitVec 3) (f2 : BitVec 2) (f3 : BitVec 2) : EncodeBound.Statement (.fence gd f0 f1 f2 f3) := by
  have h : encodeNat (.fence gd f0 f1 f2 f3) = some (0x94000000 + packG gd + f0.toNat * 0x200 + f1.toNat * 0x40 + f2.toNat * 0x10 + f3.toNat) := rfl
  have := packG_le gd; have := f0.isLt; have := f1.isLt; have := f2.isLt; have := f3.isLt
  rw [EncodeBound.Statement, h, Option.getD_some]
  omega
theorem EncodeBound.pfence (gd : Guard) (f0 : BitVec 4) (f1 : BitVec 3) : EncodeBound.Statement (.pfence gd f0 f1) := by
  have h : encodeNat (.pfence gd f0 f1) = some (0x94000004 + packG gd + f0.toNat * 0x8000 + f1.toNat * 0x40) := rfl
  have := packG_le gd; have := f0.isLt; have := f1.isLt
  rw [EncodeBound.Statement, h, Option.getD_some]
  omega
theorem EncodeBound.waita (q : Qual) (f0 : BitVec 6) (f1 : BitVec 6) (f2 : BitVec 3) (f3 : BitVec 2) : EncodeBound.Statement (.waita q f0 f1 f2 f3) := by
  have h : encodeNat (.waita q f0 f1 f2 f3) = some (0x94000008 + packQ q + f0.toNat * 0x8000 + f1.toNat * 0x200 + f2.toNat * 0x40 + f3.toNat) := rfl
  have := packQ_le q; have := f0.isLt; have := f1.isLt; have := f2.isLt; have := f3.isLt
  rw [EncodeBound.Statement, h, Option.getD_some]
  omega
theorem EncodeBound.prefL1 (q : Qual) (f0 : BitVec 6) (f1 : BitVec 3) (f2 : BitVec 2) : EncodeBound.Statement (.prefL1 q f0 f1 f2) := by
  have h : encodeNat (.prefL1 q f0 f1 f2) = some (0x9400000c + packQ q + f0.toNat * 0x200 + f1.toNat * 0x40 + f2.toNat * 0x10) := rfl
  have := packQ_le q; have := f0.isLt; have := f1.isLt; have := f2.isLt
  rw [EncodeBound.Statement, h, Option.getD_some]
  omega
theorem EncodeBound.prefHome (q : Qual) (f0 : BitVec 6) (f1 : BitVec 3) (f2 : BitVec 2) : EncodeBound.Statement (.prefHome q f0 f1 f2) := by
  have h : encodeNat (.prefHome q f0 f1 f2) = some (0x9400000d + packQ q + f0.toNat * 0x200 + f1.toNat * 0x40 + f2.toNat * 0x10) := rfl
  have := packQ_le q; have := f0.isLt; have := f1.isLt; have := f2.isLt
  rw [EncodeBound.Statement, h, Option.getD_some]
  omega
theorem EncodeBound.atom (q : Qual) (f0 : BitVec 6) (f1 : BitVec 6) (f2 : BitVec 3) (f3 : BitVec 2) (f4 : BitVec 4) : EncodeBound.Statement (.atom q f0 f1 f2 f3 f4) := by
  have h : encodeNat (.atom q f0 f1 f2 f3 f4) = some (0x98000000 + packQ q + f0.toNat * 0x8000 + f1.toNat * 0x200 + f2.toNat * 0x40 + f3.toNat * 0x10 + f4.toNat) := rfl
  have := packQ_le q; have := f0.isLt; have := f1.isLt; have := f2.isLt; have := f3.isLt; have := f4.isLt
  rw [EncodeBound.Statement, h, Option.getD_some]
  omega
theorem EncodeBound.red (q : Qual) (f0 : BitVec 6) (f1 : BitVec 6) (f2 : BitVec 3) (f3 : BitVec 2) (f4 : BitVec 4) : EncodeBound.Statement (.red q f0 f1 f2 f3 f4) := by
  have h : encodeNat (.red q f0 f1 f2 f3 f4) = some (0x9c000000 + packQ q + f0.toNat * 0x8000 + f1.toNat * 0x200 + f2.toNat * 0x40 + f3.toNat * 0x10 + f4.toNat) := rfl
  have := packQ_le q; have := f0.isLt; have := f1.isLt; have := f2.isLt; have := f3.isLt; have := f4.isLt
  rw [EncodeBound.Statement, h, Option.getD_some]
  omega
theorem EncodeBound.txb (gd : Guard) : EncodeBound.Statement (.txb gd) := by
  have h : encodeNat (.txb gd) = some (0xa00001c0 + packG gd) := rfl
  have := packG_le gd
  rw [EncodeBound.Statement, h, Option.getD_some]
  omega
theorem EncodeBound.txe (gd : Guard) (f0 : BitVec 6) (f1 : BitVec 3) : EncodeBound.Statement (.txe gd f0 f1) := by
  have h : encodeNat (.txe gd f0 f1) = some (0xa0000001 + packG gd + f0.toNat * 0x8000 + f1.toNat * 0x40) := rfl
  have := packG_le gd; have := f0.isLt; have := f1.isLt
  rw [EncodeBound.Statement, h, Option.getD_some]
  omega
theorem EncodeBound.txa (gd : Guard) (f0 : BitVec 6) : EncodeBound.Statement (.txa gd f0) := by
  have h : encodeNat (.txa gd f0) = some (0xa00001c2 + packG gd + f0.toNat * 0x8000) := rfl
  have := packG_le gd; have := f0.isLt
  rw [EncodeBound.Statement, h, Option.getD_some]
  omega
theorem EncodeBound.txq (gd : Guard) (f0 : BitVec 6) (f1 : BitVec 3) : EncodeBound.Statement (.txq gd f0 f1) := by
  have h : encodeNat (.txq gd f0 f1) = some (0xa0000003 + packG gd + f0.toNat * 0x8000 + f1.toNat * 0x40) := rfl
  have := packG_le gd; have := f0.isLt; have := f1.isLt
  rw [EncodeBound.Statement, h, Option.getD_some]
  omega
theorem EncodeBound.anew (q : Qual) (f0 : BitVec 6) (f1 : BitVec 3) : EncodeBound.Statement (.anew q f0 f1) := by
  have h : encodeNat (.anew q f0 f1) = some (0xa4000000 + packQ q + f0.toNat * 0x8000 + f1.toNat * 0x40) := rfl
  have := packQ_le q; have := f0.isLt; have := f1.isLt
  rw [EncodeBound.Statement, h, Option.getD_some]
  omega
theorem EncodeBound.alloc (q : Qual) (f0 : BitVec 6) (f1 : BitVec 3) : EncodeBound.Statement (.alloc q f0 f1) := by
  have h : encodeNat (.alloc q f0 f1) = some (0xa4000001 + packQ q + f0.toNat * 0x8000 + f1.toNat * 0x40) := rfl
  have := packQ_le q; have := f0.isLt; have := f1.isLt
  rw [EncodeBound.Statement, h, Option.getD_some]
  omega
theorem EncodeBound.aseal (q : Qual) (f0 : BitVec 6) (f1 : BitVec 3) : EncodeBound.Statement (.aseal q f0 f1) := by
  have h : encodeNat (.aseal q f0 f1) = some (0xa4000002 + packQ q + f0.toNat * 0x8000 + f1.toNat * 0x40) := rfl
  have := packQ_le q; have := f0.isLt; have := f1.isLt
  rw [EncodeBound.Statement, h, Option.getD_some]
  omega
theorem EncodeBound.adrop (q : Qual) (f0 : BitVec 6) (f1 : BitVec 6) (f2 : BitVec 3) : EncodeBound.Statement (.adrop q f0 f1 f2) := by
  have h : encodeNat (.adrop q f0 f1 f2) = some (0xa4000003 + packQ q + f0.toNat * 0x8000 + f1.toNat * 0x200 + f2.toNat * 0x40) := rfl
  have := packQ_le q; have := f0.isLt; have := f1.isLt; have := f2.isLt
  rw [EncodeBound.Statement, h, Option.getD_some]
  omega
theorem EncodeBound.aqry (q : Qual) (f0 : BitVec 6) (f1 : BitVec 3) : EncodeBound.Statement (.aqry q f0 f1) := by
  have h : encodeNat (.aqry q f0 f1) = some (0xa4000004 + packQ q + f0.toNat * 0x8000 + f1.toNat * 0x40) := rfl
  have := packQ_le q; have := f0.isLt; have := f1.isLt
  rw [EncodeBound.Statement, h, Option.getD_some]
  omega
theorem EncodeBound.rinit (q : Qual) (f0 : BitVec 6) : EncodeBound.Statement (.rinit q f0) := by
  have h : encodeNat (.rinit q f0) = some (0xa80001c0 + packQ q + f0.toNat * 0x8000) := rfl
  have := packQ_le q; have := f0.isLt
  rw [EncodeBound.Statement, h, Option.getD_some]
  omega
theorem EncodeBound.rsv (q : Qual) (f0 : BitVec 6) : EncodeBound.Statement (.rsv q f0) := by
  have h : encodeNat (.rsv q f0) = some (0xa80001c1 + packQ q + f0.toNat * 0x8000) := rfl
  have := packQ_le q; have := f0.isLt
  rw [EncodeBound.Statement, h, Option.getD_some]
  omega
theorem EncodeBound.rfill (q : Qual) (f0 : BitVec 6) : EncodeBound.Statement (.rfill q f0) := by
  have h : encodeNat (.rfill q f0) = some (0xa80001c2 + packQ q + f0.toNat * 0x8000) := rfl
  have := packQ_le q; have := f0.isLt
  rw [EncodeBound.Statement, h, Option.getD_some]
  omega
theorem EncodeBound.rtake (q : Qual) (f0 : BitVec 6) : EncodeBound.Statement (.rtake q f0) := by
  have h : encodeNat (.rtake q f0) = some (0xa80001c3 + packQ q + f0.toNat * 0x8000) := rfl
  have := packQ_le q; have := f0.isLt
  rw [EncodeBound.Statement, h, Option.getD_some]
  omega
theorem EncodeBound.rfree (q : Qual) (f0 : BitVec 6) : EncodeBound.Statement (.rfree q f0) := by
  have h : encodeNat (.rfree q f0) = some (0xa80001c4 + packQ q + f0.toNat * 0x8000) := rfl
  have := packQ_le q; have := f0.isLt
  rw [EncodeBound.Statement, h, Option.getD_some]
  omega
theorem EncodeBound.cpy (q : Qual) (f0 : BitVec 6) (f1 : BitVec 6) (f2 : BitVec 3) (f3 : BitVec 2) (f4 : Bool) (f5 : Bool) : EncodeBound.Statement (.cpy q f0 f1 f2 f3 f4 f5) := by
  have h : encodeNat (.cpy q f0 f1 f2 f3 f4 f5) = some (0xac000000 + packQ q + f0.toNat * 0x8000 + f1.toNat * 0x200 + f2.toNat * 0x40 + f3.toNat * 0x10 + b1 f4 * 0x8 + b1 f5 * 0x4) := rfl
  have := packQ_le q; have := f0.isLt; have := f1.isLt; have := f2.isLt; have := f3.isLt; have := b1_le f4; have := b1_le f5
  rw [EncodeBound.Statement, h, Option.getD_some]
  omega
theorem EncodeBound.cpyg (q : Qual) (f0 : BitVec 6) (f1 : BitVec 6) (f2 : BitVec 3) (f3 : BitVec 2) (f4 : Bool) (f5 : Bool) : EncodeBound.Statement (.cpyg q f0 f1 f2 f3 f4 f5) := by
  have h : encodeNat (.cpyg q f0 f1 f2 f3 f4 f5) = some (0xac000001 + packQ q + f0.toNat * 0x8000 + f1.toNat * 0x200 + f2.toNat * 0x40 + f3.toNat * 0x10 + b1 f4 * 0x8 + b1 f5 * 0x4) := rfl
  have := packQ_le q; have := f0.isLt; have := f1.isLt; have := f2.isLt; have := f3.isLt; have := b1_le f4; have := b1_le f5
  rw [EncodeBound.Statement, h, Option.getD_some]
  omega
theorem EncodeBound.cpys (q : Qual) (f0 : BitVec 6) (f1 : BitVec 6) (f2 : BitVec 3) (f3 : BitVec 2) (f4 : Bool) (f5 : Bool) : EncodeBound.Statement (.cpys q f0 f1 f2 f3 f4 f5) := by
  have h : encodeNat (.cpys q f0 f1 f2 f3 f4 f5) = some (0xac000002 + packQ q + f0.toNat * 0x8000 + f1.toNat * 0x200 + f2.toNat * 0x40 + f3.toNat * 0x10 + b1 f4 * 0x8 + b1 f5 * 0x4) := rfl
  have := packQ_le q; have := f0.isLt; have := f1.isLt; have := f2.isLt; have := f3.isLt; have := b1_le f4; have := b1_le f5
  rw [EncodeBound.Statement, h, Option.getD_some]
  omega
theorem EncodeBound.coll (q : Qual) (f0 : BitVec 6) (f1 : BitVec 6) (f2 : BitVec 3) (f3 : BitVec 2) (f4 : Bool) (f5 : Bool) : EncodeBound.Statement (.coll q f0 f1 f2 f3 f4 f5) := by
  have h : encodeNat (.coll q f0 f1 f2 f3 f4 f5) = some (0xac000003 + packQ q + f0.toNat * 0x8000 + f1.toNat * 0x200 + f2.toNat * 0x40 + f3.toNat * 0x10 + b1 f4 * 0x8 + b1 f5 * 0x4) := rfl
  have := packQ_le q; have := f0.isLt; have := f1.isLt; have := f2.isLt; have := f3.isLt; have := b1_le f4; have := b1_le f5
  rw [EncodeBound.Statement, h, Option.getD_some]
  omega
theorem EncodeBound.msend (q : Qual) (f0 : BitVec 6) (f1 : BitVec 6) (f2 : BitVec 3) (f3 : BitVec 2) : EncodeBound.Statement (.msend q f0 f1 f2 f3) := by
  have h : encodeNat (.msend q f0 f1 f2 f3) = some (0xb0000000 + packQ q + f0.toNat * 0x8000 + f1.toNat * 0x200 + f2.toNat * 0x40 + f3.toNat * 0x10) := rfl
  have := packQ_le q; have := f0.isLt; have := f1.isLt; have := f2.isLt; have := f3.isLt
  rw [EncodeBound.Statement, h, Option.getD_some]
  omega
theorem EncodeBound.mrecv (q : Qual) (f0 : BitVec 6) (f1 : BitVec 6) (f2 : BitVec 3) (f3 : BitVec 2) : EncodeBound.Statement (.mrecv q f0 f1 f2 f3) := by
  have h : encodeNat (.mrecv q f0 f1 f2 f3) = some (0xb0000001 + packQ q + f0.toNat * 0x8000 + f1.toNat * 0x200 + f2.toNat * 0x40 + f3.toNat * 0x10) := rfl
  have := packQ_le q; have := f0.isLt; have := f1.isLt; have := f2.isLt; have := f3.isLt
  rw [EncodeBound.Statement, h, Option.getD_some]
  omega
theorem EncodeBound.mprobe (q : Qual) (f0 : BitVec 6) (f1 : BitVec 6) (f2 : BitVec 3) (f3 : BitVec 2) : EncodeBound.Statement (.mprobe q f0 f1 f2 f3) := by
  have h : encodeNat (.mprobe q f0 f1 f2 f3) = some (0xb0000002 + packQ q + f0.toNat * 0x8000 + f1.toNat * 0x200 + f2.toNat * 0x40 + f3.toNat * 0x10) := rfl
  have := packQ_le q; have := f0.isLt; have := f1.isLt; have := f2.isLt; have := f3.isLt
  rw [EncodeBound.Statement, h, Option.getD_some]
  omega
theorem EncodeBound.mma (f0 : BitVec 4) (f1 : BitVec 3) (f2 : BitVec 6) (f3 : BitVec 6) (f4 : BitVec 6) (f5 : Bool) : EncodeBound.Statement (.mma f0 f1 f2 f3 f4 f5) := by
  have h : encodeNat (.mma f0 f1 f2 f3 f4 f5) = some (0xc0000000 + f0.toNat * 0x400000 + f1.toNat * 0x80000 + f2.toNat * 0x2000 + f3.toNat * 0x80 + f4.toNat * 0x2 + b1 f5) := rfl
  have := f0.isLt; have := f1.isLt; have := f2.isLt; have := f3.isLt; have := f4.isLt; have := b1_le f5
  rw [EncodeBound.Statement, h, Option.getD_some]
  omega
theorem EncodeBound.mmaz (f0 : BitVec 4) (f1 : BitVec 3) (f2 : BitVec 6) (f3 : BitVec 6) (f4 : BitVec 6) (f5 : Bool) : EncodeBound.Statement (.mmaz f0 f1 f2 f3 f4 f5) := by
  have h : encodeNat (.mmaz f0 f1 f2 f3 f4 f5) = some (0xc4000000 + f0.toNat * 0x400000 + f1.toNat * 0x80000 + f2.toNat * 0x2000 + f3.toNat * 0x80 + f4.toNat * 0x2 + b1 f5) := rfl
  have := f0.isLt; have := f1.isLt; have := f2.isLt; have := f3.isLt; have := f4.isLt; have := b1_le f5
  rw [EncodeBound.Statement, h, Option.getD_some]
  omega
theorem EncodeBound.mmas (f0 : BitVec 4) (f1 : BitVec 3) (f2 : BitVec 6) (f3 : BitVec 6) (f4 : BitVec 6) (f5 : Bool) : EncodeBound.Statement (.mmas f0 f1 f2 f3 f4 f5) := by
  have h : encodeNat (.mmas f0 f1 f2 f3 f4 f5) = some (0xc8000000 + f0.toNat * 0x400000 + f1.toNat * 0x80000 + f2.toNat * 0x2000 + f3.toNat * 0x80 + f4.toNat * 0x2 + b1 f5) := rfl
  have := f0.isLt; have := f1.isLt; have := f2.isLt; have := f3.isLt; have := f4.isLt; have := b1_le f5
  rw [EncodeBound.Statement, h, Option.getD_some]
  omega
theorem EncodeBound.mld (f0 : BitVec 4) (f1 : BitVec 3) (f2 : BitVec 6) (f3 : BitVec 6) (f4 : Bool) : EncodeBound.Statement (.mld f0 f1 f2 f3 f4) := by
  have h : encodeNat (.mld f0 f1 f2 f3 f4) = some (0xcc000000 + f0.toNat * 0x400000 + f1.toNat * 0x80000 + f2.toNat * 0x2000 + f3.toNat * 0x2 + b1 f4) := rfl
  have := f0.isLt; have := f1.isLt; have := f2.isLt; have := f3.isLt; have := b1_le f4
  rw [EncodeBound.Statement, h, Option.getD_some]
  omega
theorem EncodeBound.mst (f0 : BitVec 4) (f1 : BitVec 3) (f2 : BitVec 6) (f3 : BitVec 6) (f4 : Bool) : EncodeBound.Statement (.mst f0 f1 f2 f3 f4) := by
  have h : encodeNat (.mst f0 f1 f2 f3 f4) = some (0xcc000400 + f0.toNat * 0x400000 + f1.toNat * 0x80000 + f2.toNat * 0x2000 + f3.toNat * 0x2 + b1 f4) := rfl
  have := f0.isLt; have := f1.isLt; have := f2.isLt; have := f3.isLt; have := b1_le f4
  rw [EncodeBound.Statement, h, Option.getD_some]
  omega
theorem EncodeBound.mzero (f0 : BitVec 4) (f1 : BitVec 3) (f2 : BitVec 6) (f3 : Bool) : EncodeBound.Statement (.mzero f0 f1 f2 f3) := by
  have h : encodeNat (.mzero f0 f1 f2 f3) = some (0xcc000800 + f0.toNat * 0x400000 + f1.toNat * 0x80000 + f2.toNat * 0x2 + b1 f3) := rfl
  have := f0.isLt; have := f1.isLt; have := f2.isLt; have := b1_le f3
  rw [EncodeBound.Statement, h, Option.getD_some]
  omega
theorem EncodeBound.mcvt (f0 : BitVec 4) (f1 : BitVec 3) (f2 : BitVec 6) (f3 : BitVec 6) : EncodeBound.Statement (.mcvt f0 f1 f2 f3) := by
  have h : encodeNat (.mcvt f0 f1 f2 f3) = some (0xcc000c00 + f0.toNat * 0x400000 + f1.toNat * 0x80000 + f2.toNat * 0x2000 + f3.toNat * 0x2) := rfl
  have := f0.isLt; have := f1.isLt; have := f2.isLt; have := f3.isLt
  rw [EncodeBound.Statement, h, Option.getD_some]
  omega
theorem EncodeBound.mamax (f0 : BitVec 4) (f1 : BitVec 3) (f2 : BitVec 6) (f3 : BitVec 6) (f4 : Bool) : EncodeBound.Statement (.mamax f0 f1 f2 f3 f4) := by
  have h : encodeNat (.mamax f0 f1 f2 f3 f4) = some (0xcc001000 + f0.toNat * 0x400000 + f1.toNat * 0x80000 + f2.toNat * 0x2000 + f3.toNat * 0x2 + b1 f4) := rfl
  have := f0.isLt; have := f1.isLt; have := f2.isLt; have := f3.isLt; have := b1_le f4
  rw [EncodeBound.Statement, h, Option.getD_some]
  omega
theorem EncodeBound.sched (f0 : BitVec 4) (f1 : BitVec 4) (f2 : BitVec 4) (f3 : BitVec 8) (f4 : Bool) : EncodeBound.Statement (.sched f0 f1 f2 f3 f4) := by
  have h : encodeNat (.sched f0 f1 f2 f3 f4) = some (0xfc000000 + f0.toNat * 0x100000 + f1.toNat * 0x10000 + f2.toNat * 0x1000 + f3.toNat * 0x10 + b1 f4 * 0x8) := rfl
  have := f0.isLt; have := f1.isLt; have := f2.isLt; have := f3.isLt; have := b1_le f4
  rw [EncodeBound.Statement, h, Option.getD_some]
  omega
theorem EncodeBound.imx (f0 : BitVec 24) : EncodeBound.Statement (.imx f0) := by
  have h : encodeNat (.imx f0) = some (0xfd000000 + f0.toNat) := rfl
  have := f0.isLt
  rw [EncodeBound.Statement, h, Option.getD_some]
  omega
theorem EncodeBound.opx (x : OpxHint) : EncodeBound.Statement (.opx x) := by
  have h : encodeNat (.opx x) = some (0xfe000000 + packOpx x) := rfl
  have := packOpx_le x
  rw [EncodeBound.Statement, h, Option.getD_some]
  omega
theorem EncodeBound.pre (f0 : BitVec 16) (f1 : BitVec 8) : EncodeBound.Statement (.pre f0 f1) := by
  have h : encodeNat (.pre f0 f1) = some (0xff000000 + f0.toNat * 0x100 + f1.toNat) := rfl
  have := f0.isLt; have := f1.isLt
  rw [EncodeBound.Statement, h, Option.getD_some]
  omega
theorem EncodeBound.completionRecord (a0 : Nat) : EncodeBound.Statement (.completionRecord a0) := Nat.two_pow_pos 32
theorem EncodeBound.modLoad (a0 : Nat) (a1 : Nat) : EncodeBound.Statement (.modLoad a0 a1) := Nat.two_pow_pos 32
theorem EncodeBound.graphLoad (a0 : Nat) (a1 : Nat) : EncodeBound.Statement (.graphLoad a0 a1) := Nat.two_pow_pos 32
theorem EncodeBound.graphKick (a0 : Nat) (a1 : Nat) : EncodeBound.Statement (.graphKick a0 a1) := Nat.two_pow_pos 32
theorem EncodeBound.graphStopDrain (a0 : Nat) (a1 : Nat) : EncodeBound.Statement (.graphStopDrain a0 a1) := Nat.two_pow_pos 32
theorem EncodeBound.graphStopAbort (a0 : Nat) (a1 : Nat) : EncodeBound.Statement (.graphStopAbort a0 a1) := Nat.two_pow_pos 32
theorem EncodeBound.memMap (a0 : Nat) (a1 : Nat) : EncodeBound.Statement (.memMap a0 a1) := Nat.two_pow_pos 32
theorem EncodeBound.memUnmap (a0 : Nat) (a1 : Nat) : EncodeBound.Statement (.memUnmap a0 a1) := Nat.two_pow_pos 32
theorem EncodeBound.arenaRoot (a0 : Nat) (a1 : Nat) : EncodeBound.Statement (.arenaRoot a0 a1) := Nat.two_pow_pos 32
theorem EncodeBound.traceSet (a0 : Nat) (a1 : Nat) : EncodeBound.Statement (.traceSet a0 a1) := Nat.two_pow_pos 32
theorem EncodeBound.vfHalt (a0 : Nat) (a1 : Nat) : EncodeBound.Statement (.vfHalt a0 a1) := Nat.two_pow_pos 32
theorem EncodeBound.vfResume (a0 : Nat) (a1 : Nat) : EncodeBound.Statement (.vfResume a0 a1) := Nat.two_pow_pos 32
theorem EncodeBound.vfQuery (a0 : Nat) (a1 : Nat) : EncodeBound.Statement (.vfQuery a0 a1) := Nat.two_pow_pos 32
theorem EncodeBound.cfgCommit (a0 : Nat) (a1 : Nat) : EncodeBound.Statement (.cfgCommit a0 a1) := Nat.two_pow_pos 32
theorem EncodeBound.resetVf (a0 : Nat) (a1 : Nat) : EncodeBound.Statement (.resetVf a0 a1) := Nat.two_pow_pos 32
theorem EncodeBound.kernelNodeStart (a0 : Nat) (a1 : Nat) (a2 : Nat) : EncodeBound.Statement (.kernelNodeStart a0 a1 a2) := Nat.two_pow_pos 32
theorem EncodeBound.copyNodeStart (a0 : Nat) (a1 : Nat) (a2 : Nat) : EncodeBound.Statement (.copyNodeStart a0 a1 a2) := Nat.two_pow_pos 32
theorem EncodeBound.copyNodeComplete (a0 : Nat) (a1 : Nat) (a2 : Nat) : EncodeBound.Statement (.copyNodeComplete a0 a1 a2) := Nat.two_pow_pos 32
theorem EncodeBound.conditionNode (a0 : Nat) (a1 : Nat) (a2 : Nat) : EncodeBound.Statement (.conditionNode a0 a1 a2) := Nat.two_pow_pos 32
theorem EncodeBound.whileNode (a0 : Nat) (a1 : Nat) (a2 : Nat) : EncodeBound.Statement (.whileNode a0 a1 a2) := Nat.two_pow_pos 32
theorem EncodeBound.whileBodyExit (a0 : Nat) (a1 : Nat) (a2 : Nat) : EncodeBound.Statement (.whileBodyExit a0 a1 a2) := Nat.two_pow_pos 32
theorem EncodeBound.joinNode (a0 : Nat) (a1 : Nat) (a2 : Nat) : EncodeBound.Statement (.joinNode a0 a1 a2) := Nat.two_pow_pos 32
theorem EncodeBound.gridClaim (a0 : Nat) (a1 : Nat) (a2 : Nat) : EncodeBound.Statement (.gridClaim a0 a1 a2) := Nat.two_pow_pos 32
theorem EncodeBound.claimGrant (a0 : Nat) : EncodeBound.Statement (.claimGrant a0) := Nat.two_pow_pos 32
theorem EncodeBound.teamPlacement (a0 : Nat) (a1 : Nat) (a2 : Nat) (a3 : List Nat) : EncodeBound.Statement (.teamPlacement a0 a1 a2 a3) := Nat.two_pow_pos 32
theorem EncodeBound.instructionFetchFill (a0 : Nat) (a1 : Nat) : EncodeBound.Statement (.instructionFetchFill a0 a1) := Nat.two_pow_pos 32
theorem EncodeBound.invertedBatchStart (a0 : Nat) : EncodeBound.Statement (.invertedBatchStart a0) := Nat.two_pow_pos 32
theorem EncodeBound.invertedBatchEnd (a0 : Nat) : EncodeBound.Statement (.invertedBatchEnd a0) := Nat.two_pow_pos 32
theorem EncodeBound.dependencySlotClear (a0 : Nat) : EncodeBound.Statement (.dependencySlotClear a0) := Nat.two_pow_pos 32
theorem EncodeBound.matrixOpComplete (a0 : Nat) : EncodeBound.Statement (.matrixOpComplete a0) := Nat.two_pow_pos 32
theorem EncodeBound.binTimerExpiry (a0 : Nat) (a1 : Nat) : EncodeBound.Statement (.binTimerExpiry a0 a1) := Nat.two_pow_pos 32
theorem EncodeBound.binGroupPlacement (a0 : Nat) (a1 : Nat) (a2 : Nat) (a3 : Nat) : EncodeBound.Statement (.binGroupPlacement a0 a1 a2 a3) := Nat.two_pow_pos 32
theorem EncodeBound.continuationBinEntry (a0 : Nat) : EncodeBound.Statement (.continuationBinEntry a0) := Nat.two_pow_pos 32
theorem EncodeBound.tagPostArrival (a0 : Nat) : EncodeBound.Statement (.tagPostArrival a0) := Nat.two_pow_pos 32
theorem EncodeBound.parkRegistration (a0 : Nat) : EncodeBound.Statement (.parkRegistration a0) := Nat.two_pow_pos 32
theorem EncodeBound.awaitTimeout (a0 : Nat) (a1 : Nat) : EncodeBound.Statement (.awaitTimeout a0 a1) := Nat.two_pow_pos 32
theorem EncodeBound.engineOpAccept (a0 : Nat) : EncodeBound.Statement (.engineOpAccept a0) := Nat.two_pow_pos 32
theorem EncodeBound.engineOpComplete (a0 : Nat) : EncodeBound.Statement (.engineOpComplete a0) := Nat.two_pow_pos 32
theorem EncodeBound.engineOpFailure (a0 : Nat) : EncodeBound.Statement (.engineOpFailure a0) := Nat.two_pow_pos 32
theorem EncodeBound.engineRecall (a0 : Nat) (a1 : Nat) : EncodeBound.Statement (.engineRecall a0 a1) := Nat.two_pow_pos 32
theorem EncodeBound.collectiveArrival (a0 : Nat) (a1 : CTree) : EncodeBound.Statement (.collectiveArrival a0 a1) := Nat.two_pow_pos 32
theorem EncodeBound.collectiveTimeout (a0 : Nat) : EncodeBound.Statement (.collectiveTimeout a0) := Nat.two_pow_pos 32
theorem EncodeBound.messageArrival (a0 : MessageRef) : EncodeBound.Statement (.messageArrival a0) := Nat.two_pow_pos 32
theorem EncodeBound.readGatherReply (a0 : Nat) : EncodeBound.Statement (.readGatherReply a0) := Nat.two_pow_pos 32
theorem EncodeBound.combiningBufferFlush (a0 : List Nat) : EncodeBound.Statement (.combiningBufferFlush a0) := Nat.two_pow_pos 32
theorem EncodeBound.atomicApply (a0 : Nat) : EncodeBound.Statement (.atomicApply a0) := Nat.two_pow_pos 32
theorem EncodeBound.txnCommit (a0 : Nat) (a1 : Nat) : EncodeBound.Statement (.txnCommit a0 a1) := Nat.two_pow_pos 32
theorem EncodeBound.translationWalk (a0 : Nat) : EncodeBound.Statement (.translationWalk a0) := Nat.two_pow_pos 32
theorem EncodeBound.arenaSealPoint (a0 : Nat) : EncodeBound.Statement (.arenaSealPoint a0) := Nat.two_pow_pos 32
theorem EncodeBound.arenaSealComplete (a0 : Nat) : EncodeBound.Statement (.arenaSealComplete a0) := Nat.two_pow_pos 32
theorem EncodeBound.drainMark (a0 : Nat) : EncodeBound.Statement (.drainMark a0) := Nat.two_pow_pos 32
theorem EncodeBound.arenaDropComplete (a0 : Nat) : EncodeBound.Statement (.arenaDropComplete a0) := Nat.two_pow_pos 32
theorem EncodeBound.discardSweep (a0 : Nat) : EncodeBound.Statement (.discardSweep a0) := Nat.two_pow_pos 32
theorem EncodeBound.arenaNumberRecycle (a0 : Nat) : EncodeBound.Statement (.arenaNumberRecycle a0) := Nat.two_pow_pos 32
theorem EncodeBound.faultSlotRetry (a0 : Nat) (a1 : Nat) : EncodeBound.Statement (.faultSlotRetry a0 a1) := Nat.two_pow_pos 32
theorem EncodeBound.preemptRequest (a0 : Nat) (a1 : List Nat) (a2 : Nat) : EncodeBound.Statement (.preemptRequest a0 a1 a2) := Nat.two_pow_pos 32
theorem EncodeBound.graceWindowEnd (a0 : Nat) (a1 : Nat) : EncodeBound.Statement (.graceWindowEnd a0 a1) := Nat.two_pow_pos 32
theorem EncodeBound.contextRestore (a0 : Nat) (a1 : Nat) (a2 : List Nat) : EncodeBound.Statement (.contextRestore a0 a1 a2) := Nat.two_pow_pos 32
theorem EncodeBound.marginCoreIdle (a0 : Nat) : EncodeBound.Statement (.marginCoreIdle a0) := Nat.two_pow_pos 32
theorem EncodeBound.loanRevocation (a0 : Nat) : EncodeBound.Statement (.loanRevocation a0) := Nat.two_pow_pos 32
theorem EncodeBound.poolDecisionPoint (a0 : Nat) : EncodeBound.Statement (.poolDecisionPoint a0) := Nat.two_pow_pos 32
theorem EncodeBound.gridCompletion (a0 : Nat) : EncodeBound.Statement (.gridCompletion a0) := Nat.two_pow_pos 32
theorem EncodeBound.teamResourcesFree (a0 : Nat) : EncodeBound.Statement (.teamResourcesFree a0) := Nat.two_pow_pos 32
theorem EncodeBound.moduleReset : EncodeBound.Statement (.moduleReset) := Nat.two_pow_pos 32
theorem EncodeBound.pwrOk : EncodeBound.Statement (.pwrOk) := Nat.two_pow_pos 32
theorem EncodeBound.forwardingStubRetire (a0 : Nat) (a1 : Nat) : EncodeBound.Statement (.forwardingStubRetire a0 a1) := Nat.two_pow_pos 32
theorem EncodeBound.illegalEncoding (w : Word) : EncodeBound.Statement (.illegalEncoding w) := by
  have h : encodeNat (.illegalEncoding w) = some (w.toNat) := rfl
  have := w.isLt
  rw [EncodeBound.Statement, h, Option.getD_some]
  omega
theorem EncodeBound.homeSliceAccess (a0 : HomeAccess) : EncodeBound.Statement (.homeSliceAccess a0) := Nat.two_pow_pos 32
theorem EncodeBound.commandSlotWrite (a0 : Nat) (a1 : Nat) (a2 : Nat) (a3 : List Byte) : EncodeBound.Statement (.commandSlotWrite a0 a1 a2 a3) := Nat.two_pow_pos 32
theorem EncodeBound.cqcfgWrite (a0 : Nat) (a1 : Nat) (a2 : Word) : EncodeBound.Statement (.cqcfgWrite a0 a1 a2) := Nat.two_pow_pos 32
theorem EncodeBound.cqheadWrite (a0 : Nat) (a1 : Word) : EncodeBound.Statement (.cqheadWrite a0 a1) := Nat.two_pow_pos 32
theorem EncodeBound.registerWrite (a0 : Nat) (a1 : Nat) (a2 : Word) : EncodeBound.Statement (.registerWrite a0 a1 a2) := Nat.two_pow_pos 32
theorem EncodeBound.dieFailure (a0 : Nat) : EncodeBound.Statement (.dieFailure a0) := Nat.two_pow_pos 32
theorem EncodeBound.powerMeasurement (a0 : Nat) (a1 : Nat) (a2 : Nat) : EncodeBound.Statement (.powerMeasurement a0 a1 a2) := Nat.two_pow_pos 32
theorem EncodeBound.thermalLimit (a0 : Nat) (a1 : Nat) : EncodeBound.Statement (.thermalLimit a0 a1) := Nat.two_pow_pos 32
theorem EncodeBound.backgroundScrub (a0 : Nat) (a1 : SoftError) : EncodeBound.Statement (.backgroundScrub a0 a1) := Nat.two_pow_pos 32
theorem EncodeBound.sliceMapInstall (a0 : Nat) (a1 : Nat) (a2 : Bool) : EncodeBound.Statement (.sliceMapInstall a0 a1 a2) := Nat.two_pow_pos 32
theorem EncodeBound.linkFlitReceive (a0 : Nat) (a1 : List Byte) : EncodeBound.Statement (.linkFlitReceive a0 a1) := Nat.two_pow_pos 32
theorem EncodeBound.linkDown (a0 : Nat) : EncodeBound.Statement (.linkDown a0) := Nat.two_pow_pos 32
theorem EncodeBound.sidebandRead (a0 : SidebandItem) : EncodeBound.Statement (.sidebandRead a0) := Nat.two_pow_pos 32
theorem EncodeBound.attestationQuote (a0 : List Byte) : EncodeBound.Statement (.attestationQuote a0) := Nat.two_pow_pos 32
theorem EncodeBound.hostLinkDown (a0 : Nat) : EncodeBound.Statement (.hostLinkDown a0) := Nat.two_pow_pos 32
theorem EncodeBound.hostLinkUp (a0 : Nat) : EncodeBound.Statement (.hostLinkUp a0) := Nat.two_pow_pos 32

end Sys2Proof.Laws
end

