-- ==== Sys2Proof/Tests/Slice0.lean ====
section
/-! SUPPORT. Tests: ill-formed terms, words written out from the manual's encodings, single steps on a small state, and for the
statements of Obligations.lean states and operands that meet their hypotheses. -/
namespace Sys2Proof.Tests
open Sys2Proof Sys2Proof.Machine
set_option Elab.async false

/-! ### Ill-formed terms -/

/-- No qualifier; a guard on p0. -/
def q0 : Qual := ⟨false, false, 0⟩
/-- U = 1. -/
def qu : Qual := ⟨true, false, 0⟩
/-- No guard. -/
def g0 : Guard := ⟨false, 0⟩

theorem test_wf_refuses_reserved_values : ([.clk q0 2 2, .eret g0 2 3, .wakeTmr q0 0, .redg g0 2 4 6, .lane g0 2 3, .cvt q0 2 4 1 1 false,
    .cvt q0 2 4 0 1 true, .rdsr q0 2 10, .wrsr q0 2 0, .ld q0 2 4 1 1 13, .st q0 2 4 1 1 13, .red q0 2 4 1 0 6, .fence g0 2 1 1 1,
    .illegalEncoding 0] : List Instr).map Instr.wf =
  [false, false, true, false, false, false, false, false, false, false, false, false, true, false] := by decide
set_option maxRecDepth 4000 in
theorem test_wf_refuses_events : ([.completionRecord 17, .modLoad 1 16, .graphLoad 17 0, .graphKick 0 16, .memMap 0 16, .kernelNodeStart 0 64 0, .gridClaim 0 4 1,
    .gridClaim 0 0 0, .teamPlacement 1 0 256 [], .contextRestore 1 0 [24], .instructionFetchFill 1 2, .binTimerExpiry 4 0, .binGroupPlacement 0 256 0 0,
    .awaitTimeout 1 64, .faultSlotRetry 1 65, .arenaSealPoint 0, .drainMark 4096, .discardSweep 256, .preemptRequest 0 [256] 1, .preemptRequest 0 [] 0,
    .graceWindowEnd 1 0, .marginCoreIdle 256, .poolDecisionPoint 17, .forwardingStubRetire 0 32, .sliceMapInstall 4 0 true, .commandSlotWrite 0 2 0 [],
    .cqcfgWrite 0 2 0, .cqheadWrite 17 0, .registerWrite 0 4096 0, .registerWrite 0 2 0, .dieFailure 4, .powerMeasurement 0 4 0, .attestationQuote [],
    .hostLinkDown 2] : List Instr).any Instr.wf = false := by decide

/-! ### Words written out bit by bit from the encodings of the opcode table: fields hold a fixed pattern -/

theorem test_decode_major_00 :
    decode 0x00000000 = .nop ∧
    decode 0x01600236 = .trap ⟨true, 3⟩ 54 ∧
    decode 0x01600436 = .dbg ⟨true, 3⟩ 54 ∧
    decode 0x03CA862B = .rdsr ⟨true, true, 6⟩ 21 43 ∧
    decode 0x03CA882B = .wrsr ⟨true, true, 6⟩ 21 43 ∧
    decode 0x03CA8A2B = .clk ⟨true, true, 6⟩ 21 43 ∧
    decode 0x00000C00 = .yield ∧
    decode 0x017B0E15 = .eret ⟨true, 3⟩ 54 21 ∧
    decode 0x03CA9000 = .recfg ⟨true, true, 6⟩ 21 := by decide
theorem test_decode_major_01 :
    decode 0x07C00015 = .bra ⟨true, true, 6⟩ 21 := by decide
theorem test_decode_major_02 :
    decode 0x0BC00015 = .call ⟨true, true, 6⟩ 21 := by decide
theorem test_decode_major_03 :
    decode 0x0D600036 = .divr ⟨true, 3⟩ 54 := by decide
theorem test_decode_major_04 :
    decode 0x11A0001B = .brk 13 27 := by decide
theorem test_decode_major_05 :
    decode 0x17C02B58 = .brx ⟨true, true, 6⟩ 21 43 ∧
    decode 0x17C02A01 = .ret ⟨true, true, 6⟩ 21 ∧
    decode 0x15600002 = .join ⟨true, 3⟩ ∧
    decode 0x15600003 = .exit ⟨true, 3⟩ ∧
    decode 0x17C28004 = .cdecl ⟨true, true, 6⟩ 5 ∧
    decode 0x15630005 = .bar ⟨true, 3⟩ 6 ∧
    decode 0x15600006 = .fend ⟨true, 3⟩ ∧
    decode 0x17C02A07 = .wake ⟨true, true, 6⟩ 21 ∧
    decode 0x17C080AF = .wakeTmr ⟨true, true, 6⟩ 21 := by decide
theorem test_decode_major_06 :
    decode 0x1BCAD7C8 = .spawn ⟨true, true, 6⟩ 21 43 57 ∧
    decode 0x197B2B59 = .park ⟨true, 3⟩ 54 21 43 ∧
    decode 0x1BCAD7CA = .rdy ⟨true, true, 6⟩ 21 43 57 ∧
    decode 0x1BCAD7CB = .await ⟨true, true, 6⟩ 21 43 57 := by decide
theorem test_decode_major_07 :
    decode 0x1D7B0015 = .gate ⟨true, 3⟩ 54 21 ∧
    decode 0x1D600200 = .gret ⟨true, 3⟩ := by decide
theorem test_decode_major_08 :
    decode 0x23CAD7C8 = .iadd ⟨true, true, 6⟩ 21 43 57 ∧
    decode 0x23CAD7C9 = .isub ⟨true, true, 6⟩ 21 43 57 ∧
    decode 0x23CAD7CA = .imul ⟨true, true, 6⟩ 21 43 57 ∧
    decode 0x23CAD7CB = .imulh ⟨true, true, 6⟩ 21 43 57 ∧
    decode 0x23CAD7CC = .imin ⟨true, true, 6⟩ 21 43 57 ∧
    decode 0x23CAD7CD = .imax ⟨true, true, 6⟩ 21 43 57 ∧
    decode 0x23CAD606 = .iabs ⟨true, true, 6⟩ 21 43 ∧
    decode 0x23CAD607 = .ineg ⟨true, true, 6⟩ 21 43 := by decide
theorem test_decode_major_09 :
    decode 0x27CA802B = .iaddImm ⟨true, true, 6⟩ 21 43 ∧
    decode 0x27CA822B = .isubImm ⟨true, true, 6⟩ 21 43 ∧
    decode 0x27CA842B = .imulImm ⟨true, true, 6⟩ 21 43 ∧
    decode 0x27CA862B = .imulhImm ⟨true, true, 6⟩ 21 43 ∧
    decode 0x27CA882B = .iminImm ⟨true, true, 6⟩ 21 43 ∧
    decode 0x27CA8A2B = .imaxImm ⟨true, true, 6⟩ 21 43 ∧
    decode 0x27CA8C2B = .iabsImm ⟨true, true, 6⟩ 21 43 ∧
    decode 0x27CA8E2B = .inegImm ⟨true, true, 6⟩ 21 43 := by decide
theorem test_decode_major_0A :
    decode 0x2BCAD7C8 = .andV ⟨true, true, 6⟩ 21 43 57 ∧
    decode 0x2BCAD7C9 = .orV ⟨true, true, 6⟩ 21 43 57 ∧
    decode 0x2BCAD7CA = .xorV ⟨true, true, 6⟩ 21 43 57 ∧
    decode 0x2BCAD603 = .notV ⟨true, true, 6⟩ 21 43 ∧
    decode 0x2BCAD7CC = .sel ⟨true, true, 6⟩ 21 43 57 ∧
    decode 0x2BCAD605 = .popc ⟨true, true, 6⟩ 21 43 ∧
    decode 0x2BCAD606 = .clz ⟨true, true, 6⟩ 21 43 ∧
    decode 0x2BCAD607 = .brev ⟨true, true, 6⟩ 21 43 := by decide
theorem test_decode_major_0B :
    decode 0x2FCA802B = .andImm ⟨true, true, 6⟩ 21 43 ∧
    decode 0x2FCA822B = .orImm ⟨true, true, 6⟩ 21 43 ∧
    decode 0x2FCA842B = .xorImm ⟨true, true, 6⟩ 21 43 ∧
    decode 0x2FCA862B = .notImm ⟨true, true, 6⟩ 21 43 ∧
    decode 0x2FCA882B = .selImm ⟨true, true, 6⟩ 21 43 ∧
    decode 0x2FCA8A2B = .popcImm ⟨true, true, 6⟩ 21 43 ∧
    decode 0x2FCA8C2B = .clzImm ⟨true, true, 6⟩ 21 43 ∧
    decode 0x2FCA8E2B = .brevImm ⟨true, true, 6⟩ 21 43 := by decide
theorem test_decode_major_0C :
    decode 0x33CAD7C8 = .shl ⟨true, true, 6⟩ 21 43 57 ∧
    decode 0x33CAD7C9 = .shr ⟨true, true, 6⟩ 21 43 57 ∧
    decode 0x33CAD7CA = .sar ⟨true, true, 6⟩ 21 43 57 ∧
    decode 0x33CAD7CB = .rot ⟨true, true, 6⟩ 21 43 57 ∧
    decode 0x33CAD7CC = .bfe ⟨true, true, 6⟩ 21 43 57 ∧
    decode 0x33CAD7CD = .bfi ⟨true, true, 6⟩ 21 43 57 ∧
    decode 0x33CAD7CE = .lea ⟨true, true, 6⟩ 21 43 57 ∧
    decode 0x33CAD7CF = .imad ⟨true, true, 6⟩ 21 43 57 := by decide
theorem test_decode_major_0D :
    decode 0x37CA802B = .shlImm ⟨true, true, 6⟩ 21 43 ∧
    decode 0x37CA822B = .shrImm ⟨true, true, 6⟩ 21 43 ∧
    decode 0x37CA842B = .sarImm ⟨true, true, 6⟩ 21 43 ∧
    decode 0x37CA862B = .rotImm ⟨true, true, 6⟩ 21 43 ∧
    decode 0x37CA882B = .bfeImm ⟨true, true, 6⟩ 21 43 ∧
    decode 0x37CA8A2B = .bfiImm ⟨true, true, 6⟩ 21 43 ∧
    decode 0x37CA8C2B = .leaImm ⟨true, true, 6⟩ 21 43 ∧
    decode 0x37CA8E2B = .imadImm ⟨true, true, 6⟩ 21 43 := by decide
theorem test_decode_major_0E :
    decode 0x3BCAD7CD = .icmp ⟨true, true, 6⟩ 21 43 57 5 := by decide
theorem test_decode_major_0F :
    decode 0x3FCAD600 = .mov ⟨true, true, 6⟩ 21 43 ∧
    decode 0x3FCA8159 = .movi ⟨true, true, 6⟩ 21 43 ∧
    decode 0x3D7B2B5A = .shfl ⟨true, 3⟩ 54 21 43 ∧
    decode 0x3D7B2A03 = .vote ⟨true, 3⟩ 54 21 ∧
    decode 0x3D7B2A04 = .ballot ⟨true, 3⟩ 54 21 ∧
    decode 0x3D7B2B5D = .bcast ⟨true, 3⟩ 54 21 43 ∧
    decode 0x3D7B2B5E = .redg ⟨true, 3⟩ 54 21 43 ∧
    decode 0x3D7B00AF = .lane ⟨true, 3⟩ 54 21 := by decide
theorem test_decode_major_10 :
    decode 0x43CAD7C8 = .fadd ⟨true, true, 6⟩ 21 43 57 ∧
    decode 0x43CAD7C9 = .fmul ⟨true, true, 6⟩ 21 43 57 ∧
    decode 0x43CAD7CA = .fmin ⟨true, true, 6⟩ 21 43 57 ∧
    decode 0x43CAD7CB = .fmax ⟨true, true, 6⟩ 21 43 57 ∧
    decode 0x43CAD604 = .fabs ⟨true, true, 6⟩ 21 43 ∧
    decode 0x43CAD605 = .fneg ⟨true, true, 6⟩ 21 43 ∧
    decode 0x43CAD606 = .fclass ⟨true, true, 6⟩ 21 43 ∧
    decode 0x43CAD7CF = .fsign ⟨true, true, 6⟩ 21 43 57 := by decide
theorem test_decode_major_11 :
    decode 0x47CAD7CB = .ffma ⟨true, true, 6⟩ 21 43 57 true true := by decide
theorem test_decode_major_12 :
    decode 0x4BCAD600 = .frcp ⟨true, true, 6⟩ 21 43 ∧
    decode 0x4BCAD601 = .frsq ⟨true, true, 6⟩ 21 43 ∧
    decode 0x4BCAD602 = .fsqrt ⟨true, true, 6⟩ 21 43 ∧
    decode 0x4BCAD603 = .fex2 ⟨true, true, 6⟩ 21 43 ∧
    decode 0x4BCAD604 = .flg2 ⟨true, true, 6⟩ 21 43 ∧
    decode 0x4BCAD605 = .fsin ⟨true, true, 6⟩ 21 43 ∧
    decode 0x4BCAD606 = .fcos ⟨true, true, 6⟩ 21 43 := by decide
theorem test_decode_major_13 :
    decode 0x4FCAD7CD = .fcmp ⟨true, true, 6⟩ 21 43 57 5 := by decide
theorem test_decode_major_14 :
    decode 0x53CAD7C8 = .dadd ⟨true, true, 6⟩ 21 43 57 ∧
    decode 0x53CAD7C9 = .dmul ⟨true, true, 6⟩ 21 43 57 ∧
    decode 0x53CAD7CA = .dfma ⟨true, true, 6⟩ 21 43 57 ∧
    decode 0x53CAD7CB = .dmin ⟨true, true, 6⟩ 21 43 57 ∧
    decode 0x53CAD7CC = .dmax ⟨true, true, 6⟩ 21 43 57 ∧
    decode 0x53D5F26D = .dcmp ⟨true, true, 6⟩ 5 3 57 13 := by decide
theorem test_decode_major_15 :
    decode 0x57CAD7C8 = .hadd2 ⟨true, true, 6⟩ 21 43 57 ∧
    decode 0x57CAD7C9 = .hmul2 ⟨true, true, 6⟩ 21 43 57 ∧
    decode 0x57CAD7CA = .hfma2 ⟨true, true, 6⟩ 21 43 57 ∧
    decode 0x57CAD7CB = .bfadd2 ⟨true, true, 6⟩ 21 43 57 ∧
    decode 0x57CAD7CC = .bfmul2 ⟨true, true, 6⟩ 21 43 57 ∧
    decode 0x57CAD7CD = .bffma2 ⟨true, true, 6⟩ 21 43 57 := by decide
theorem test_decode_major_16 :
    decode 0x5BCAD73B = .cvt ⟨true, true, 6⟩ 21 43 9 13 true := by decide
theorem test_decode_major_17 :
    decode 0x5FCAD600 = .bhget ⟨true, true, 6⟩ 21 43 ∧
    decode 0x5FCAD7C9 = .bhset ⟨true, true, 6⟩ 21 43 57 ∧
    decode 0x5D7B2A02 = .amaxr ⟨true, 3⟩ 54 21 ∧
    decode 0x5FCAD7CB = .pack ⟨true, true, 6⟩ 21 43 57 ∧
    decode 0x5FCAD7CC = .unpack ⟨true, true, 6⟩ 21 43 57 := by decide
theorem test_decode_major_18 :
    decode 0x63CAD7C8 = .pand ⟨true, true, 6⟩ 21 43 57 ∧
    decode 0x63CAD7C9 = .por ⟨true, true, 6⟩ 21 43 57 ∧
    decode 0x63CAD7CA = .pxor ⟨true, true, 6⟩ 21 43 57 ∧
    decode 0x63CAD603 = .pnot ⟨true, true, 6⟩ 21 43 ∧
    decode 0x63CA801C = .pmovToV ⟨true, true, 6⟩ 21 3 ∧
    decode 0x63C02B1C = .pmovToP ⟨true, true, 6⟩ 21 3 ∧
    decode 0x63CAD605 = .pcnt ⟨true, true, 6⟩ 21 43 ∧
    decode 0x63CAD606 = .pany ⟨true, true, 6⟩ 21 43 ∧
    decode 0x63CAD607 = .pall ⟨true, true, 6⟩ 21 43 := by decide
theorem test_decode_major_20 :
    decode 0x83CAD65D = .ld ⟨true, true, 6⟩ 21 43 1 1 13 := by decide
theorem test_decode_major_21 :
    decode 0x87CAD65D = .st ⟨true, true, 6⟩ 21 43 1 1 13 := by decide
theorem test_decode_major_22 :
    decode 0x8BCAD65D = .ldc ⟨true, true, 6⟩ 21 43 1 1 13 := by decide
theorem test_decode_major_23 :
    decode 0x8FCAD65D = .ldt ⟨true, true, 6⟩ 21 43 1 1 13 := by decide
theorem test_decode_major_24 :
    decode 0x93CAD655 = .ldnc ⟨true, true, 6⟩ 21 43 1 1 5 ∧
    decode 0x93CAD65D = .stnc ⟨true, true, 6⟩ 21 43 1 1 5 := by decide
theorem test_decode_major_25 :
    decode 0x95606D71 = .fence ⟨true, 3⟩ 54 5 3 1 ∧
    decode 0x95630144 = .pfence ⟨true, 3⟩ 6 5 ∧
    decode 0x97CAD649 = .waita ⟨true, true, 6⟩ 21 43 1 1 ∧
    decode 0x97C02ADC = .prefL1 ⟨true, true, 6⟩ 21 3 1 ∧
    decode 0x97C02ADD = .prefHome ⟨true, true, 6⟩ 21 3 1 := by decide
theorem test_decode_major_26 :
    decode 0x9BCAD65D = .atom ⟨true, true, 6⟩ 21 43 1 1 13 := by decide
theorem test_decode_major_27 :
    decode 0x9FCAD65D = .red ⟨true, true, 6⟩ 21 43 1 1 13 := by decide
theorem test_decode_major_28 :
    decode 0xA16001C0 = .txb ⟨true, 3⟩ ∧
    decode 0xA17B0141 = .txe ⟨true, 3⟩ 54 5 ∧
    decode 0xA17B01C2 = .txa ⟨true, 3⟩ 54 ∧
    decode 0xA17B0143 = .txq ⟨true, 3⟩ 54 5 := by decide
theorem test_decode_major_29 :
    decode 0xA7CA80C0 = .anew ⟨true, true, 6⟩ 21 3 ∧
    decode 0xA7CA80C1 = .alloc ⟨true, true, 6⟩ 21 3 ∧
    decode 0xA7CA80C2 = .aseal ⟨true, true, 6⟩ 21 3 ∧
    decode 0xA7CAD643 = .adrop ⟨true, true, 6⟩ 21 43 1 ∧
    decode 0xA7CA80C4 = .aqry ⟨true, true, 6⟩ 21 3 := by decide
theorem test_decode_major_2A :
    decode 0xABCA81C0 = .rinit ⟨true, true, 6⟩ 21 ∧
    decode 0xABCA81C1 = .rsv ⟨true, true, 6⟩ 21 ∧
    decode 0xABCA81C2 = .rfill ⟨true, true, 6⟩ 21 ∧
    decode 0xABCA81C3 = .rtake ⟨true, true, 6⟩ 21 ∧
    decode 0xABCA81C4 = .rfree ⟨true, true, 6⟩ 21 := by decide
theorem test_decode_major_2B :
    decode 0xAFCAD65C = .cpy ⟨true, true, 6⟩ 21 43 1 1 true true ∧
    decode 0xAFCAD65D = .cpyg ⟨true, true, 6⟩ 21 43 1 1 true true ∧
    decode 0xAFCAD65E = .cpys ⟨true, true, 6⟩ 21 43 1 1 true true ∧
    decode 0xAFCAD65F = .coll ⟨true, true, 6⟩ 21 43 1 1 true true := by decide
theorem test_decode_major_2C :
    decode 0xB3CAD650 = .msend ⟨true, true, 6⟩ 21 43 1 1 ∧
    decode 0xB3CAD651 = .mrecv ⟨true, true, 6⟩ 21 43 1 1 ∧
    decode 0xB3CAD652 = .mprobe ⟨true, true, 6⟩ 21 43 1 1 := by decide
theorem test_decode_major_30 :
    decode 0xC35ECAD7 = .mma 13 3 54 21 43 true := by decide
theorem test_decode_major_31 :
    decode 0xC75ECAD7 = .mmaz 13 3 54 21 43 true := by decide
theorem test_decode_major_32 :
    decode 0xCB5ECAD7 = .mmas 13 3 54 21 43 true := by decide
theorem test_decode_major_33 :
    decode 0xCF5EC02B = .mld 13 3 54 21 true ∧
    decode 0xCF5EC42B = .mst 13 3 54 21 true ∧
    decode 0xCF58086D = .mzero 13 3 54 true ∧
    decode 0xCF5ECC2A = .mcvt 13 3 54 21 ∧
    decode 0xCF5ED02B = .mamax 13 3 54 21 true := by decide
theorem test_decode_major_3F :
    decode 0xFCDB6158 = .sched 13 11 6 21 true ∧
    decode 0xFD00002D = .imx 45 ∧
    decode 0xFEB5FBE1 = .opx ⟨45, 3, true, true, 3, 1, true, true, true, true, 1⟩ ∧
    decode 0xFF002D1B = .pre 45 27 := by decide

/-! ### The words that the manual works out in its instruction entries -/

theorem test_manual_words_control :
    decode 0x02021000 = .recfg qu 4 ∧ decode 0x06000003 = .bra qu 3 ∧ decode 0x08000040 = .call q0 64 ∧ decode 0x0C200006 = .divr ⟨false, 1⟩ 6 ∧
    decode 0x10400005 = .brk 2 5 ∧ decode 0x14001418 = .brx q0 10 3 ∧ decode 0x14001C01 = .ret q0 14 ∧ decode 0x14010004 = .cdecl q0 2 ∧
    decode 0x14018005 = .bar g0 3 ∧ decode 0x16001407 = .wake qu 10 ∧ decode 0x1600804F = .wakeTmr qu 9 ∧ decode 0x18021460 = .spawn q0 4 10 12 ∧
    decode 0x18031429 = .park g0 6 10 5 ∧ decode 0x1A01904A = .rdy qu 3 8 9 ∧ decode 0x1801104B = .await q0 2 8 9 ∧ decode 0x00000207 = .trap g0 7 ∧
    decode 0x00000403 = .dbg g0 3 ∧ decode 0x00000E01 = .eret g0 0 1 ∧ decode 0x00020E02 = .eret g0 4 2 := by decide
theorem test_manual_words_arithmetic :
    decode 0x20020419 = .isub q0 4 2 3 ∧ decode 0x28040212 = .xorV q0 8 1 2 ∧ decode 0x2C0400FF = .andImm q0 8 0xFF ∧ decode 0x34018002 = .shlImm q0 3 2 ∧
    decode 0x3002042C = .bfe q0 4 2 5 ∧ decode 0x3801841A = .icmp q0 3 2 3 2 ∧ decode 0x3C029200 = .mov q0 5 9 ∧ decode 0x3C03FFF9 = .movi q0 7 0xFFF ∧
    decode 0x3C03041A = .shfl g0 6 2 3 ∧ decode 0x3C03042D = .bcast g0 6 2 5 ∧ decode 0x3C010A03 = .vote g0 2 5 ∧ decode 0x3C050604 = .ballot g0 10 3 ∧
    decode 0x3C020416 = .redg g0 4 2 2 ∧ decode 0x3C02000F = .lane g0 4 1 ∧ decode 0x40040210 = .fadd q0 8 1 2 ∧ decode 0x40018806 = .fclass q0 3 4 ∧
    decode 0x44040210 = .ffma q0 8 1 2 false false ∧ decode 0x44040211 = .ffma q0 8 1 2 false true ∧ decode 0x48028800 = .frcp q0 5 4 ∧
    decode 0x4C00841E = .fcmp q0 1 2 3 6 ∧ decode 0x50040420 = .dadd q0 8 2 4 ∧ decode 0x54040212 = .hfma2 q0 8 1 2 ∧ decode 0x5C020402 = .amaxr g0 4 2 ∧
    decode 0x5C048841 = .bhset q0 9 4 8 ∧ decode 0x5C05184B = .pack q0 10 12 9 ∧ decode 0x5C06144C = .unpack q0 12 10 9 ∧ decode 0x60018210 = .pand q0 3 1 2 ∧
    decode 0x6002000C = .pmovToV q0 4 1 ∧ decode 0x60020605 = .pcnt q0 4 3 := by decide
theorem test_manual_words_memory :
    decode 0xFD000040 = .imx 0x40 ∧ decode 0x840219C5 = .st q0 4 12 7 0 5 ∧ decode 0x880405C6 = .ldc q0 8 2 7 0 6 ∧ decode 0x8C0195C8 = .ldt q0 3 10 7 0 8 ∧
    decode 0x90029484 = .ldnc q0 5 10 2 0 4 ∧ decode 0x900295CC = .stnc q0 5 10 7 0 4 ∧ decode 0x940015CC = .prefL1 q0 10 7 0 ∧
    decode 0x940001E1 = .fence g0 0 7 2 1 ∧ decode 0x940181C4 = .pfence g0 3 7 ∧ decode 0x940215C8 = .waita q0 4 10 7 0 ∧ decode 0xA60400C2 = .aseal qu 8 3 ∧
    decode 0xA6040080 = .anew qu 8 2 ∧ decode 0xA6060041 = .alloc qu 12 1 ∧ decode 0xA6040703 = .adrop qu 8 3 4 ∧ decode 0xA40801C4 = .aqry q0 16 7 ∧
    decode 0xAA0201C1 = .rsv qu 4 ∧ decode 0xAA0201C2 = .rfill qu 4 ∧ decode 0xA00001C0 = .txb g0 ∧ decode 0xA0010041 = .txe g0 2 1 ∧
    decode 0xA00201C2 = .txa g0 4 ∧ decode 0xA0028083 = .txq g0 5 2 := by decide
theorem test_manual_words_engines_and_matrix :
    decode 0xAC0805EC = .cpy q0 16 2 7 2 true true ∧ decode 0xB00408A0 = .msend q0 8 4 2 2 ∧ decode 0xB00409F0 = .msend q0 8 4 7 3 ∧
    decode 0xB0080AE1 = .mrecv q0 16 5 3 2 ∧ decode 0xB00A0DE2 = .mprobe q0 20 6 7 2 ∧ decode 0xC0990830 = .mma 2 3 8 16 24 false ∧
    decode 0xC8A10831 = .mmas 2 4 8 16 24 true ∧ decode 0xCC794030 = .mld 1 7 10 24 false ∧ decode 0xCC514430 = .mst 1 2 10 24 false ∧
    decode 0xCC780830 = .mzero 1 7 24 false ∧ decode 0xCC6D0C30 = .mcvt 1 5 40 24 ∧ decode 0xCC70D030 = .mamax 1 6 6 24 false ∧
    decode 0xFE001000 = .opx { src3 := 0, mode := 0, sat := false, comm := false, scope := 2, path := 0, pxD := false, pxA := false, pxB := false,
                               pxS3 := false, itype := 0 } := by decide

/-! ### Single steps: group 1 of 16 fibres on core 0 of the steward, at a placed word -/

/-- The state of a loaded program, before its first word. -/
def base : State := bootState State.reset 0
/-- The issuing set of all 16 lanes at a word, with the run before it. -/
def cu (i : Instr) (run : List Word := []) : Cur := ⟨1, 0xFFFF, 0x10000, run, encode i, 0⟩
/-- The vote chose the word of `i`. -/
def at1 (s : State) (i : Instr) (run : List Word := []) : State := { s with cur := some (cu i run) }
/-- Group 1. -/
def gr (s : State) : Group := (s.groups.get? 1).getD
  { team := 1, core := 0, part := 0, pos := 0, width := 16, gridix := 0, prio := 1, stamp := 0, func := 0, kdom := 0, kentry := bootVa, window := 64,
    divmax := 15, uchk := false, schk := false, role := 0, rfBase := 0 }
/-- Lane 0 holds registers. -/
def regs (l : List (Nat × Word)) : State := setVregs base 64 l
/-- The word executes and leaves a state with a property. -/
def after (s : State) (i : Instr) (p : State → Bool) (run : List Word := []) : Bool :=
  match exec i (at1 s i run) with
  | .next t => p t
  | .fault _ => false
  | .refused _ => false
/-- Lane 0's register after the word. -/
def gives (l : List (Nat × Word)) (i : Instr) (n : Nat) (v : Word) (run : List Word := []) : Bool :=
  after (regs l) i (fun t => vreg t 64 n == v) run
/-- Lane 0's predicate after the word. -/
def givesP (l : List (Nat × Word)) (i : Instr) (n : Nat) (v : Bool) (run : List Word := []) : Bool :=
  after (regs l) i (fun t => preg t 64 n == v) run
/-- The value on its way to lane 0's register, through sl7. -/
def sends (l : List (Nat × Word)) (i : Instr) (n : Nat) (v : Word) : Bool :=
  after (regs l) i fun t => t.results.any fun e => e.2.regs.contains (64, n, v)
/-- Lane 0 has ended with a fault. -/
def ends0 (s : State) (i : Instr) (run : List Word := []) : Bool := after s i (fun t => (t.lanes.get? 64).isNone) run

theorem test_integer :
    gives [(4, 0xFFFFFFFF), (6, 2)] (.iadd q0 2 4 6) 2 1 = true ∧ gives [(4, 3), (6, 5)] (.isub q0 2 4 6) 2 0xFFFFFFFE = true ∧
    gives [(4, 0x10001), (6, 0x10001)] (.imul q0 2 4 6) 2 0x20001 = true ∧ gives [(4, 0x40000000), (6, 8)] (.imulh q0 2 4 6) 2 2 = true ∧
    gives [(4, 3), (6, 5)] (.imin q0 2 4 6) 2 3 = true ∧ gives [(4, 3), (6, 5)] (.imax q0 2 4 6) 2 5 = true ∧
    gives [(4, 0xFFFFFFF9)] (.iabs q0 2 4) 2 7 = true ∧ gives [(4, 7)] (.ineg q0 2 4) 2 0xFFFFFFF9 = true ∧
    gives [(2, 7)] (.iaddImm q0 2 0x1FF) 2 6 = true ∧ gives [(2, 7)] (.isubImm q0 2 1) 2 6 = true ∧ gives [(2, 7)] (.imulImm q0 2 3) 2 21 = true ∧
    gives [(2, 0x40000000)] (.imulhImm q0 2 8) 2 2 = true ∧ gives [(2, 7)] (.iminImm q0 2 3) 2 3 = true ∧ gives [(2, 7)] (.imaxImm q0 2 9) 2 9 = true ∧
    gives [] (.iabsImm q0 2 0x1FF) 2 1 = true ∧ gives [] (.inegImm q0 2 1) 2 0xFFFFFFFF = true := by decide +kernel
theorem test_logic :
    gives [(4, 0xC), (6, 0xA)] (.andV q0 2 4 6) 2 8 = true ∧ gives [(4, 0xC), (6, 0xA)] (.orV q0 2 4 6) 2 0xE = true ∧
    gives [(4, 0xC), (6, 0xA)] (.xorV q0 2 4 6) 2 6 = true ∧ gives [(4, 0xC)] (.notV q0 2 4) 2 0xFFFFFFF3 = true ∧
    gives [(4, 1), (6, 2)] (.sel q0 2 4 6) 2 1 = true ∧ gives [(4, 0xF0F)] (.popc q0 2 4) 2 8 = true ∧ gives [(4, 0x10000)] (.clz q0 2 4) 2 15 = true ∧
    gives [] (.clz q0 2 4) 2 32 = true ∧ gives [(4, 1)] (.brev q0 2 4) 2 0x80000000 = true ∧ gives [(2, 0x1FF)] (.andImm q0 2 0xF0) 2 0xF0 = true ∧
    gives [(2, 1)] (.orImm q0 2 6) 2 7 = true ∧ gives [(2, 5)] (.xorImm q0 2 1) 2 4 = true ∧ gives [] (.notImm q0 2 0) 2 0xFFFFFFFF = true ∧
    gives [(2, 9)] (.selImm q0 2 4) 2 9 = true ∧ gives [] (.popcImm q0 2 7) 2 3 = true ∧ gives [] (.clzImm q0 2 1) 2 31 = true ∧
    gives [] (.brevImm q0 2 1) 2 0x80000000 = true := by decide +kernel
theorem test_shift :
    gives [(4, 3), (6, 31)] (.shl q0 2 4 6) 2 0x80000000 = true ∧ gives [(4, 3), (6, 32)] (.shl q0 2 4 6) 2 0 = true ∧
    gives [(4, 0x80000000), (6, 31)] (.shr q0 2 4 6) 2 1 = true ∧ gives [(4, 0x80000000), (6, 40)] (.sar q0 2 4 6) 2 0xFFFFFFFF = true ∧
    gives [(4, 0x80000001), (6, 33)] (.rot q0 2 4 6) 2 3 = true ∧ gives [(4, 0x10), (5, 0), (6, 0xFFFFFFFF)] (.lea q0 2 4 6) 2 0xF = true ∧
    gives [(2, 5), (4, 3), (6, 4)] (.imad q0 2 4 6) 2 17 = true ∧ gives [(2, 3)] (.shlImm q0 2 2) 2 12 = true ∧ gives [(2, 12)] (.shrImm q0 2 2) 2 3 = true ∧
    gives [(2, 0xFFFFFFF0)] (.sarImm q0 2 2) 2 0xFFFFFFFC = true ∧ gives [(2, 1)] (.rotImm q0 2 31) 2 0x80000000 = true ∧
    gives [(2, 0x10)] (.leaImm q0 2 8) 2 0x18 = true ∧ gives [(2, 3)] (.imadImm q0 2 4) 2 15 = true := by decide +kernel
theorem test_compare_and_predicates :
    givesP [(4, 3), (6, 5)] (.icmp q0 3 4 6 2) 3 true = true ∧ givesP [(4, 5), (6, 5)] (.icmp q0 3 4 6 2) 3 false = true ∧
    givesP [(4, 0x7FC00000)] (.fcmp q0 1 4 6 6) 1 true = true ∧ givesP [(4, 0x3F800000)] (.fcmp q0 1 4 6 6) 1 false = true ∧
    givesP [] (.dcmp q0 0 1 4 6) 1 true = true ∧ givesP [] (.pnot q0 1 2) 1 true = true ∧ givesP [] (.pand q0 1 0 0) 1 true = true ∧
    givesP [] (.por q0 1 2 3) 1 false = true ∧ givesP [] (.pxor q0 1 0 3) 1 true = true ∧ givesP [(4, 6)] (.pmovToP q0 4 0) 2 true = true ∧
    gives [] (.pmovToV q0 2 0) 2 1 = true ∧ gives [] (.pcnt q0 2 0) 2 16 = true ∧ givesP [] (.pany q0 1 2) 1 false = true ∧ givesP [] (.pall q0 1 0) 1 true = true ∧
    givesP [] (.pnot q0 0 0) 0 true = true := by decide +kernel
theorem test_moves_and_lanes :
    gives [(4, 9)] (.mov q0 2 4) 2 9 = true ∧ gives [] (.movi q0 2 0xFFF) 2 0xFFFFFFFF = true ∧
    gives [] (.movi q0 2 0x345) 2 0x00012345 [0xFD000012] = true ∧ gives [(4, 7)] (.shfl g0 2 4 6) 2 7 = true ∧ givesP [(4, 7)] (.vote g0 1 4) 1 false = true ∧
    gives [] (.ballot g0 2 0) 2 0xFFFF = true ∧ gives [(4, 7)] (.bcast g0 2 4 0) 2 7 = true ∧ gives [(4, 7)] (.redg g0 2 4 0) 2 7 = true ∧
    gives [] (.lane g0 2 2) 2 16 = true ∧ after base (.lane g0 2 0) (fun t => vreg t 69 2 == 5) = true := by decide +kernel
theorem test_float :
    gives [(4, 0x3F800000), (6, 0x40000000)] (.fadd q0 2 4 6) 2 0x40400000 = true ∧ gives [(4, 0x40000000), (6, 0x40400000)] (.fmul q0 2 4 6) 2 0x40C00000 = true ∧
    gives [(4, 0x80000000)] (.fmin q0 2 4 6) 2 0x80000000 = true ∧ gives [(4, 0x80000000)] (.fmax q0 2 4 6) 2 0 = true ∧
    gives [(4, 0xBF800000)] (.fabs q0 2 4) 2 0x3F800000 = true ∧ gives [(4, 0x3F800000)] (.fneg q0 2 4) 2 0xBF800000 = true ∧
    gives [(4, 0x3F800000), (6, 0x80000000)] (.fsign q0 2 4 6) 2 0xBF800000 = true ∧
    gives [(2, 0x3F800000), (4, 0x40000000), (6, 0x40400000)] (.ffma q0 2 4 6 false false) 2 0x40E00000 = true ∧
    gives [(2, 0x3F800000), (4, 0x40000000), (6, 0x40400000)] (.ffma q0 2 4 6 false true) 2 0xC0A00000 = true ∧
    gives [(4, 0x7F7FFFFF), (6, 0x7F7FFFFF)] (.fadd q0 2 4 6) 2 0x7F800000 = true ∧
    gives [(5, 0x3FF00000), (7, 0x40000000)] (.dadd q0 2 4 6) 3 0x40080000 = true ∧ gives [(5, 0x40000000), (7, 0x40080000)] (.dmul q0 2 4 6) 3 0x40180000 = true ∧
    gives [(3, 0x3FF00000), (5, 0x40000000), (7, 0x40080000)] (.dfma q0 2 4 6) 3 0x401C0000 = true ∧
    gives [(5, 0x3FF00000)] (.dmin q0 2 4 6) 3 0 = true ∧ gives [(5, 0x3FF00000)] (.dmax q0 2 4 6) 3 0x3FF00000 = true ∧
    gives [(4, 0x3C004000), (6, 0x3C003C00)] (.hadd2 q0 2 4 6) 2 0x40004200 = true ∧ gives [(4, 0x3C004000), (6, 0x40004000)] (.hmul2 q0 2 4 6) 2 0x40004400 = true ∧
    gives [(2, 0x3C003C00), (4, 0x3C004000), (6, 0x40004000)] (.hfma2 q0 2 4 6) 2 0x42004500 = true ∧
    gives [(4, 0x3F804000), (6, 0x3F803F80)] (.bfadd2 q0 2 4 6) 2 0x40004040 = true ∧ gives [(4, 0x3F804000), (6, 0x40004000)] (.bfmul2 q0 2 4 6) 2 0x40004080 = true ∧
    gives [(2, 0x3F803F80), (4, 0x3F804000), (6, 0x40004000)] (.bffma2 q0 2 4 6) 2 0x404040A0 = true := by decide +kernel
theorem test_special_and_conversion :
    sends [(4, 0x40800000)] (.frcp q0 2 4) 2 0x3E800000 = true ∧ sends [(4, 0x40800000)] (.frsq q0 2 4) 2 0x3F000000 = true ∧
    sends [(4, 0x41100000)] (.fsqrt q0 2 4) 2 0x40400000 = true ∧ sends [(4, 0x40400000)] (.fex2 q0 2 4) 2 0x41000000 = true ∧
    sends [(4, 0x41000000)] (.flg2 q0 2 4) 2 0x40400000 = true ∧ sends [] (.fsin q0 2 4) 2 0 = true ∧ sends [] (.fcos q0 2 4) 2 0x3F800000 = true ∧
    sends [(4, 0xC0400000)] (.amaxr g0 2 4) 2 0x40400000 = true ∧
    gives [(4, 0x7F00)] (.bhget q0 2 4) 2 0x3F800000 = true ∧ gives [(4, 0xFF00)] (.bhget q0 2 4) 2 0x7FC00000 = true := by
  decide +kernel
/-- Every lane holds registers. -/
def all (l : List (Nat × Word)) (s : State := base) : State := (upTo 64 16).foldl (fun t k => setVregs t k l) s
/-- The word passes every check at its issue in the state. -/
def passes (i : Instr) (s : State := base) (run : List Word := []) : Bool := issues i (at1 s i run) (cu i run) (gr s)
/-- Its context there. -/
def cx (i : Instr) (s : State := base) (run : List Word := []) : Ctx := atIssue i (cu i run) (gr s) (at1 s i run)
/-- opx of zeros. -/
def o0 : OpxHint := ⟨0, 0, false, false, 0, 0, false, false, false, false, 0⟩
/-- Group 1 is as `f` makes it. -/
def withGroup (f : Group → Group) (s : State := base) : State := { s with groups := s.groups.put 1 (f (gr s)) }
/-- Team 1. -/
def tm (s : State := base) : Team := (s.teams.get? 1).getD
  { dom := 0, func := 0, core := 0, pair := false, kentry := bootVa, teamix := 0xFFFFFFFF, grid := none, groups := [1], prio := 1, banks := [(0, 0)],
    tiles := 1, tbase := [0] }

/-! ### Hypotheses met: every word of the integer, move, floating-point and conversion families passes its checks at issue on a loaded program -/

theorem wit_IntegerArithmeticDelivers : ([.iadd q0 2 4 6, .isub q0 2 4 6, .imul q0 2 4 6, .imulh q0 2 4 6, .imin q0 2 4 6, .imax q0 2 4 6, .iabs q0 2 4, 
    .ineg q0 2 4, .iaddImm q0 2 1, .isubImm q0 2 1, .imulImm q0 2 1, .imulhImm q0 2 1, .iminImm q0 2 1, 
    .imaxImm q0 2 1, .iabsImm q0 2 1, .inegImm q0 2 1] : List Instr).all (fun i => passes i) = true := by decide +kernel
theorem wit_LogicAndBitCountsDeliver : ([.andV q0 2 4 6, .orV q0 2 4 6, .xorV q0 2 4 6, .notV q0 2 4, .sel q0 2 4 6, .popc q0 2 4, .clz q0 2 4, 
    .brev q0 2 4, .andImm q0 2 1, .orImm q0 2 1, .xorImm q0 2 1, .notImm q0 2 1, .selImm q0 2 1, .popcImm q0 2 1, 
    .clzImm q0 2 1, .brevImm q0 2 1] : List Instr).all (fun i => passes i) = true := by decide +kernel
theorem wit_ShiftFieldAndMultiplyAddDeliver : ([.shl q0 2 4 6, .shr q0 2 4 6, .sar q0 2 4 6, .rot q0 2 4 6, .bfe q0 2 4 6, .bfi q0 2 4 6, .lea q0 2 4 6, 
    .imad q0 2 4 6, .shlImm q0 2 1, .shrImm q0 2 1, .sarImm q0 2 1, .rotImm q0 2 1, .bfeImm q0 2 1, .bfiImm q0 2 1, 
    .leaImm q0 2 1, .imadImm q0 2 1] : List Instr).all (fun i => passes i) = true := by decide +kernel
theorem wit_ComparisonsAndPredicateWordsDeliver : ([.icmp q0 2 4 6 1, .fcmp q0 2 4 6 1, .dcmp q0 1 1 4 6, .pand q0 2 4 6, .por q0 2 4 6, .pxor q0 2 4 6, 
    .pnot q0 2 4, .pmovToP q0 4 1, .pcnt q0 2 4, .pany q0 2 4, .pall q0 2 4, .pmovToV q0 2 0] : List Instr).all (fun i => passes i) = true := by decide +kernel
theorem wit_MovesAndLaneWordsDeliver : ([.mov q0 2 4, .movi q0 2 1, .shfl g0 2 4 6, .vote g0 2 4, .ballot g0 2 4, .bcast g0 2 4 6, .redg g0 2 4 1, 
    .lane g0 2 1] : List Instr).all (fun i => passes i) = true := by decide +kernel
theorem wit_FloatAndPackedWordsDeliver : ([.fadd q0 2 4 6, .fmul q0 2 4 6, .fmin q0 2 4 6, .fmax q0 2 4 6, .fabs q0 2 4, .fneg q0 2 4, .fclass q0 2 4, 
    .fsign q0 2 4 6, .ffma q0 2 4 6 false false, .dadd q0 2 4 6, .dmul q0 2 4 6, .dfma q0 2 4 6, .dmin q0 2 4 6, 
    .dmax q0 2 4 6, .hadd2 q0 2 4 6, .hmul2 q0 2 4 6, .hfma2 q0 2 4 6, .bfadd2 q0 2 4 6, .bfmul2 q0 2 4 6, 
    .bffma2 q0 2 4 6] : List Instr).all (fun i => passes i) = true := by decide +kernel
theorem wit_SpecialFunctionsDeliver : ([.frcp q0 2 4, .frsq q0 2 4, .fsqrt q0 2 4, .fex2 q0 2 4, .flg2 q0 2 4, .fsin q0 2 4, .fcos q0 2 4, 
    .amaxr g0 2 4] : List Instr).all (fun i => passes i) = true := by decide +kernel
theorem wit_ConversionAndBlockWordsDeliver : ([.cvt q0 2 4 0 2 false, .bhget q0 2 4, .bhset q0 2 4 6, .pack q0 2 4 6, .unpack q0 8 4 6] : List Instr).all (fun i => passes i) = true := by decide +kernel
theorem wit_conditions : base.wf = true ∧ (2 : BitVec 6).toNat < (cx (.bcast g0 2 4 2)).g.width ∧
    (∀ l, l < 16 → (laneAt base (lk 1 l)).fpstat = 0) ∧ fpTrap 0 31 = none ∧
    (∀ l, l < 16 → let x := cx (.bhset q0 2 4 6) (all [(6, 0xA0)])
      x.n32 (x.opLane l) 6 < 256 ∧ hdrFamily (x.n32 (x.opLane l) 6) ≠ 6 ∧ blkBad (x.n32 (x.opLane l) 6) false = false) ∧
    ([.bhset q0 2 4 6, .pack q0 2 4 6, .unpack q0 8 4 6] : List Instr).all (fun i => passes i (all [(6, 0xA0)])) = true := by decide +kernel


/-! ### System words, hints and control words -/

theorem wit_SystemAndHintWords :
    ([.nop, .dbg g0 1, .rdsr q0 2 1, .clk q0 2 0, .wrsr q0 2 7, .yield] : List Instr).all (fun i => passes i) = true ∧
    debugOn base 0 = false ∧ windowOpen base 1 = false ∧ (kindsOf []).contains 0 = false ∧
    ([.sched 1 2 3 4 true, .imx 0x123456, .opx o0] : List Instr).all (fun i => !usedBad (encode i)) = true ∧
    isHint 0xFC000001 = true ∧ usedBad 0xFC000001 = true ∧ (kindsOf [0xFD123456]).contains 1 = true := by decide +kernel
theorem test_system :
    after base (.rdsr q0 2 0) (fun t => vreg t 67 2 == 3) = true ∧ after (all [(4, 0x1F05)]) (.wrsr q0 4 7) (fun t => (laneAt t 64).fpstat == 0x1F00) = true ∧
    after base .yield (fun t => (gr t).yielded) = true ∧ after base (.imx 0x123456) (fun t => (laneAt t 64).run == [0xFD123456]) = true ∧
    ends0 base (.trap g0 7) = true ∧ after base (.dbg g0 7) (fun t => (laneAt t 64).pc == 0x10004) = true ∧ ends0 base (.imx 1) [0xFD123456] = true := by decide +kernel

theorem wit_TransfersGoToTheirTargets :
    (passes (.bra q0 4) && !ontoHint base (gr base) ((cx (.bra q0 4)).target (4 : BitVec 21))) = true ∧
    (passes (.call q0 4) && !ontoHint base (gr base) ((cx (.call q0 4)).target (4 : BitVec 21))) = true ∧
    passes (.brx q0 4 6) (all [(4, 0x10000), (6, 5)]) = true ∧ passes (.ret q0 4) (all [(4, 0x10010)]) = true ∧
    (∀ l, l < 16 → let s := all [(4, 0x10000), (6, 5)]
      let d := vpair s (64 + l) 4 + BitVec.ofNat 64 (4 * (vreg s (64 + l) 6).toNat)
      d.toNat % 4 = 0 ∧ ontoHint s (gr s) d = false) := by decide +kernel
theorem test_transfers :
    after base (.bra q0 4) (fun t => (laneAt t 64).pc == 0x10010) = true ∧ after base (.bra q0 0x1FFFFF) (fun t => (laneAt t 64).pc == 0xFFFC) = true ∧
    after base (.call q0 4) (fun t => (laneAt t 64).pc == 0x10010 && vpair t 64 62 == 0x10004) = true ∧
    after (all [(4, 0x10000), (6, 5)]) (.brx q0 4 6) (fun t => (laneAt t 64).pc == 0x10014) = true ∧
    after (all [(4, 0x10020)]) (.ret q0 4) (fun t => (laneAt t 79).pc == 0x10020) = true ∧ ends0 (all [(4, 0x10022)]) (.ret q0 4) = true := by decide +kernel

/-- One region with all lanes, reconverging at the word of `cu`. -/
def inRegion : State := withGroup fun g => { g with entries := [⟨0x10000, 0xFFFF, 3, 0⟩], seq := 4 }
theorem wit_DivergenceWordsChangeTheirEntries :
    passes (.divr g0 4) = true ∧ (0x10000 : Nat) < ((cx (.divr g0 4)).target (4 : BitVec 21)).toNat ∧ (gr base).entries.length ≠ (gr base).divmax ∧
    passes (.brk 1 4) inRegion = true ∧ ontoHint inRegion (gr inRegion) 0x10010 = false ∧
    (∀ l, l < 16 → 1 ≤ (entriesOf (gr inRegion).entries l).length) ∧ passes (.join g0) inRegion = true ∧
    (∀ l, l < 16 → (entriesOf (gr inRegion).entries l).head?.any (fun e => e.pc == (cx (.join g0) inRegion).pcR) = true) := by decide +kernel
theorem test_divergence :
    after base (.divr g0 4) (fun t => (gr t).entries == [⟨0x10010, 0xFFFF, 0, 0⟩] && (gr t).seq == 1) = true ∧
    after inRegion (.brk 1 4) (fun t => (gr t).entries.all (fun e => e.mask == 0) && (laneAt t 70).pc == 0x10010) = true ∧
    after inRegion (.join g0) (fun t => (laneAt t 64).held == .join) = true ∧ ends0 base (.join g0) = true ∧ ends0 base (.brk 1 4) = true := by decide +kernel

/-- A team of a cooperative grid. -/
def inGrid : State := { base with
  teams := base.teams.put 1 { tm with grid := some 7 },
  grids := base.grids.put 7 { func := 0, dom := 0, graph := 0, node := 0, kentry := bootVa, groups := 1, teams := 1, teamg := 0, coop := true, prio := 1,
                              args := [], dies := [0], leader := 0, deputy := 0, placedTeams := [1] },
  kernels := base.kernels.map fun h => { h with coop := true } }
/-- The hint `opx` with a scope. -/
def scope (k : BitVec 2) : Word := encode (.opx { o0 with scope := k })
theorem wit_ExitBarAndCdecl :
    ([.exit g0, .fend g0, .cdecl q0 1, .bar g0 3] : List Instr).all (fun i => passes i) = true ∧
    releaseDone (cx (.fend g0)) base 2 = true ∧ (gr base).conv.get? 1 = none ∧ (cx (.bar g0 3)).scopeOr 1 = 1 ∧ releaseDone (cx (.bar g0 3)) base 1 = true ∧
    (base.teams.get? 1).isSome = true ∧ passes (.bar g0 3) base [scope 0] = true ∧ (cx (.bar g0 3) base [scope 0]).scopeOr 1 = 0 ∧ releaseDone (cx (.bar g0 3)) base 0 = true ∧
    passes (.bar g0 3) inGrid [scope 2] = true ∧ (cx (.bar g0 3) inGrid [scope 2]).scopeOr 1 = 2 ∧
    coopGroup inGrid (gr inGrid) = true ∧ releaseDone (cx (.bar g0 3) inGrid [scope 2]) inGrid 2 = true := by decide +kernel
theorem test_exit_and_bar :
    after base (.exit g0) (fun t => t.lanes.all fun e => e.1 / 64 != 1) = true ∧ after base (.fend g0) (fun t => t.lanes.all fun e => e.1 / 64 != 1) = true ∧
    after base (.cdecl q0 1) (fun t => (gr t).conv.get? 1 == some { declared := 0xFFFF }) = true ∧
    after base (.bar g0 3) (fun t => (laneAt t 64).held == .bar 3 1) = true ∧ ends0 base (.bar g0 3) [scope 2] = true := by decide +kernel

/-! ### Memory words -/

/-- Every lane's v4, v5 hold an address. -/
def at4 (va : Nat) (s : State := base) : State := all [(4, BitVec.ofNat 32 va), (5, BitVec.ofNat 32 (va / 2 ^ 32))] s
/-- The page of the program. -/
def pg0 : Page := ⟨65536, 0x10000, 0, 1, 0, true⟩
/-- The program's page, changed. -/
def withPage (f : Page → Page) : State := { base with pages := base.pages.put (pageKey 0 bootVa) (f pg0) }
/-- Arena 1 in another state. -/
def inArena (st : ArenaState) : State := { base with arenas := base.arenas.put 1 { arenaAt base 1 with state := st } }
/-- Group 1 within a gate. -/
def gated : State := withGroup fun g => { g with gate := some ⟨1, 0, 0x10040, 1, 64, 15, 0, [], [], [], []⟩ }
/-- Checks of R286 on group 1. -/
def place (s : State) (va n : Nat) (w win : Bool) : Except AccFail Place := placeOf s (gr s) va n w win
/-- The error of a check. -/
def errOf (r : Except AccFail Place) : Option (Nat × Nat) :=
  match r with
  | .error e => some (e.cls, e.detail)
  | .ok _ => none
/-- The place that a check finds. -/
def okOf (r : Except AccFail Place) : Option Place :=
  match r with
  | .error _ => none
  | .ok p => some p

theorem wit_MemoryWordsActAfterTheirChecks :
    ([.ld q0 2 4 1 1 4, .ldc q0 2 4 1 1 4, .ldt q0 2 4 1 0 4, .ldnc q0 2 4 1 1 4, .st q0 2 4 1 1 4, .stnc q0 2 4 1 1 4, .prefL1 q0 4 1 1, .prefHome q0 4 1 1,
      .waita q0 2 4 1 0] : List Instr).all (fun i => passes i (at4 0x10040)) = true ∧
    unwalked (at4 0x10040) 1 (gr base) ((cx (.ld q0 2 4 1 1 4) (at4 0x10040)).vas 4) = [] ∧
    unwalked (at4 0x20040) 1 (gr base) ((cx (.ld q0 2 4 1 1 4) (at4 0x20040)).vas 4) = [2] := by decide +kernel
theorem wit_placeOf :
    errOf (place base 0x10041 4 false true) = some (7, 0) ∧ errOf (place base 0x10042 0 false true) = none ∧ errOf (place gated Config.spmWindow 4 false true) = some (9, 2) ∧
    errOf (place base Config.spmWindow 4 false false) = some (8, 2) ∧ errOf (place base (Config.spmWindow + 32768) 4 false true) = some (9, 0) ∧
    okOf (place base (Config.spmWindow + 32764) 4 false true) = some (.spm 32764) ∧ errOf (place base Config.vaEnd 4 false true) = some (8, 0) ∧
    errOf (place base 0x20000 4 false true) = some (8, 0) ∧ errOf (place (withPage fun p => { p with dom := 3 }) 0x10040 4 false true) = some (9, 1) ∧
    errOf (place (withPage fun p => { p with writable := false }) 0x10040 4 true true) = some (8, 1) ∧
    errOf (place (withPage fun p => { p with writable := false }) 0x10040 4 false true) = none ∧
    errOf (place (inArena .draining) 0x10040 4 false true) = some (10, 0) ∧ errOf (place (inArena .sealed) 0x10040 4 true true) = some (10, 2) ∧
    errOf (place (inArena .sealed) 0x10040 4 false true) = none ∧ okOf (place base 0x1FFFC 4 true true) = some (.mem 0x1FFFC pg0) := by decide +kernel

/-- A context and lanes of a word on group 1 with addresses. -/
def lx (s : State) : Ctx := cx (.ld q0 2 4 1 1 4) s
/-- The scratchpad holds poison. -/
def bad64 : State := { base with poisonSpm := [64] }
theorem wit_LoadsFindAndWriteTheirValue :
    (laneAt base 64).txn = none ∧ errOf (place base ((lx (at4 0x20000)).va 64 4) 4 false true) = some (8, 0) ∧
    okOf (place base ((lx (at4 (Config.spmWindow + 64))).va 64 4) 4 false true) = some (.spm 64) ∧ spmPoisoned base 64 4 = false ∧ spmPoisoned bad64 64 4 = true ∧
    okOf (place base ((lx (at4 0x10000)).va 64 4) 4 false true) = some (.mem 0x10000 pg0) ∧
    loadHit base (lx base) ⟨some 0, true⟩ 64 0x10000 4 pg0 4 = some [0, 0, 0, 0] ∧ loadHit base (lx base) ⟨some 0, true⟩ 64 0x10040 4 pg0 4 = none ∧
    poisoned base 0x10040 = false ∧ poisoned { base with poison := [0x401] } 0x10040 = true := by decide +kernel
theorem test_loads :
    after (at4 0x10000) (.ld q0 2 4 1 1 4) (fun t => t.results.any fun e => e.2.regs == [(64, 2, 0)]) = true ∧
    after (at4 0x10040) (.ld q0 2 4 1 1 4) (fun t => (t.acc.map fun e => e.2.kind).contains (.fill 0) && t.acc.length == 16) = true ∧
    after (at4 0x10040) (.ldnc q0 2 4 1 1 4) (fun t => t.acc.all fun e => e.2.kind == .readHome) = true ∧
    ends0 (at4 0x10042) (.ld q0 2 4 1 1 4) = true ∧ ends0 (at4 Config.spmWindow) (.ldc q0 2 4 1 1 4) = true ∧
    after (at4 0x20040) (.ld q0 2 4 1 1 4) (fun t => (laneAt t 64).held == .retry && (laneAt t 64).pc == 0x10000 && t.walks.length == 1) = true ∧
    loadRegs 0 2 [0x80] = [(2, 0xFFFFFF80)] ∧ loadRegs 3 2 [0x34, 0x92] = [(2, 0x9234)] ∧ loadRegs 5 2 [1, 0, 0, 0, 2, 0, 0, 0] = [(2, 1), (3, 2)] := by decide +kernel

theorem wit_StoresWriteTheirBytes :
    errOf (place base ((lx (at4 0x10042)).va 64 4) 4 true true) = some (7, 0) ∧ okOf (place base ((lx (at4 Config.spmWindow)).va 64 4) 4 true true) = some (.spm 0) ∧
    okOf (place base ((lx (at4 0x1003C)).va 64 4) 4 true true) = some (.mem 0x1003C pg0) ∧ (0x1003C : Nat) % 64 + 4 ≤ 64 ∧
    filtered base 0 1 0 (0x1003C / 64) = false ∧ base.wf = true := by decide +kernel
theorem test_stores :
    after (all [(2, 0x12345678)] (at4 0x10040)) (.st q0 2 4 1 1 4)
      (fun t => (t.l1.get? (l1Key 0 0 0x401 16)).any fun y => y.data.rd 0 == 0x78 && y.data.rd 3 == 0x12 && y.dmask == 0xF) = true ∧
    after (all [(2, 0x12345678)] (at4 0x10040)) (.stnc q0 2 4 1 1 4) (fun t => t.acc.all fun e => e.2.bytes == [0x78, 0x56, 0x34, 0x12] && e.2.kind == .merge) = true ∧
    after (all [(2, 0x12345678)] (at4 Config.spmWindow)) (.st q0 2 4 1 1 2) (fun t => t.spm.rd 1 == 0x56 && t.spm.rd 2 == 0) = true ∧
    ends0 (at4 0x10041) (.st q0 2 4 1 1 2) = true := by decide +kernel

/-- The hint `opx` with the communicator bit: a promotion. -/
def comm : Word := encode (.opx { o0 with comm := true })
theorem wit_FencesWaitsAndTheirEnds :
    ([.fence g0 0 1 1 0, .fence g0 0 1 2 2, .pfence g0 1 1] : List Instr).all (fun i => passes i) = true ∧ (cx (.fence g0 0 1 2 2)).o.comm = false ∧
    releaseDone (cx (.fence g0 0 1 2 2)) base 2 = true ∧ releaseDone (cx (.pfence g0 1 1)) base 2 = true ∧
    passes (.fence g0 4 1 2 2) (at4 0x10040) [comm] = true ∧ (let x := cx (.fence g0 4 1 2 2) (at4 0x10040) [comm]
      x.o.comm = true ∧ unwalked (at4 0x10040) 1 x.g ((lanesOf x.active).map fun l => x.va (x.lk l) 4) = [] ∧ promoteFails x 4 (at4 0x10040) = []) ∧
    errOf (place base (Config.spmWindow + 4) 8 false true) = some (7, 0) ∧
    (match windowPlace base (gr base) (Config.spmWindow + 8) true with | .ok p => p == .spm 8 | .error _ => false) = true := by decide +kernel
theorem test_fences :
    after { base with l1 := base.l1.map fun e => (e.1, { e.2 with fresh := 0xFF }) } (.fence g0 0 1 2 2) (fun t => t.l1.all fun e => e.2.fresh == 0) = true ∧
    after { base with l1 := base.l1.map fun e => (e.1, { e.2 with fresh := 0xFF }) } (.pfence g0 2 1) (fun t => t.l1.all fun e => e.2.fresh == 0xFF) = true ∧
    after (at4 Config.spmWindow) (.waita q0 2 4 1 0) (fun t => t.results.length == 16) = true ∧
    after (at4 Config.spmWindow) (.waita q0 2 4 1 1) (fun t => match (laneAt t 64).held with | .waita 0 0 0 _ => true | _ => false) = true := by decide +kernel

/-! ### Arrivals, atomics, transactions -/

/-- The state after an event, if it takes place. -/
def happens (s : State) (i : Instr) (p : State → Bool) : Bool :=
  match exec i s with
  | .next t => p t
  | .fault _ => false
  | .refused _ => false
/-- A read on its way for lane 0, and its variants. -/
def rd0 : Access := { kind := .readHome, tok := 9, gid := 1, lane := 64, pair := 0, dom := 0, arena := 1, gen := 0, pa := 0x10000, size := 4, lkind := 4, reg := 2, lanes := 1 }
/-- The state with one access on its way. -/
def oneAcc (a : Access) : State := { base with acc := [(5, a)] }
/-- A store of four bytes on its way. -/
def mg0 : Access := { rd0 with kind := .merge, lanes := 0, bytes := [1, 2, 3, 4] }
/-- A dirty copy of the program's first line. -/
def dirty : State := { base with l1 := [(l1Key 0 0 0x400 16, ⟨0, 1, 0, 0, [(1, 7)], 2, 3, false⟩)] }
/-- A result for lane 0. -/
def oneRes : State := { base with results := [(5, { tok := 9, gid := 1, regs := [(64, 2, 77)] })] }
/-- A walk for group 1. -/
def oneWalk (page : Nat) : State := { base with walks := [(5, ⟨0, 0, page, [1]⟩)] }
theorem wit_AccessesAndResultsArrive :
    accReady (oneAcc rd0) 5 rd0 = true ∧ rd0.promote = false ∧ accReady (oneAcc mg0) 5 mg0 = true ∧ (oneAcc mg0).wf = true ∧ wbReady dirty 0 0x400 = true ∧ dirty.wf = true ∧
    arenaState dirty 1 0 = .live ∧ filtered dirty 0 1 0 0x400 = false ∧ (base.l1.get? (l1Key 0 0 0x400 16)).any (fun y => y.dmask == 0) = true ∧
    laneLive oneRes 64 = true ∧ clashes oneRes 9 1 64 2 = false ∧ voided oneRes 1 9 = false ∧ voided (withGroup (fun g => { g with voidTo := 10 }) oneRes) 1 9 = true ∧ oneRes.wf = true ∧ pageAt (oneWalk 1) 0 65536 = some (65536, pg0) ∧ entryPoisoned (oneWalk 1) 0 65536 = false ∧
    pageAt (oneWalk 2) 0 131072 = none := by decide +kernel
theorem test_arrivals :
    happens (oneAcc rd0) (.homeSliceAccess (.request 5)) (fun t => t.acc == [] && t.results.any fun e => e.2.regs == [(64, 2, 0)]) = true ∧
    happens (oneAcc mg0) (.homeSliceAccess (.request 5)) (fun t => homeBytes t 16 0x10000 5 == [1, 2, 3, 4, 0]) = true ∧
    happens dirty (.homeSliceAccess (.writeBack (l1Key 0 0 0x400 16))) (fun t => homeBytes t 16 0x10000 3 == [0, 7, 0]) = true ∧
    happens oneRes (.dependencySlotClear 5) (fun t => vreg t 64 2 == 77 && t.results == []) = true ∧
    happens (withGroup (fun g => { g with voidTo := 10 }) oneRes) (.dependencySlotClear 5) (fun t => vreg t 64 2 == 0 && t.results == []) = true ∧
    happens (oneWalk 2) (.translationWalk 5) (fun t => t.noPage == [(1, 0, 2)]) = true ∧
    happens { oneWalk 1 with tlb := [] } (.translationWalk 5) (fun t => t.tlb == [⟨0, 0, 65536, 65536⟩]) = true := by decide +kernel

/-- Lane 0's operands of an atomic at 0x10040. -/
def atm (v b : Word) : State := all [(2, v), (3, b)] (at4 0x10040)
/-- Errors of the address checks of an atomic. -/
def atomErr (va n kind : Nat) (pr : Bool) : Option (Nat × Nat) := errOf (atomPlace (cx (.atom q0 2 4 1 1 0)) base va n kind pr)
/-- The home bytes at 0x10040 are those of a number. -/
def held4 (n : Nat) (s : State) : State := (upTo 0 4).foldl (fun t i => setHomeByte t 16 (0x10040 + i) (BitVec.ofNat 8 (n / 2 ^ (8 * i)))) s
/-- A request of kind `f` on its way alone, for lane 0. -/
def req (f : Nat) (v b : Nat) (spm : Bool := false) : AtomReq :=
  { ops := [⟨1, 64, 9, 2, 1, true, v, b, false, 1, false, 0x10040, 0x10000, 0x10004, 0⟩], kind := f, signed := false, size := 4, pair := 0, dom := 0, arena := 1, gen := 0,
    pa := if spm then 64 else 0x10040, inSpm := spm, rel := false, buffered := none }
/-- The location and lane 0's answer after the request is applied at a location that holds `m`. -/
def atomOut (f m v b : Nat) : Option (Nat × List (Nat × Nat × Word)) :=
  match exec (.atomicApply 5) { held4 m base with atoms := [(5, req f v b)] } with
  | .next t => some (leNat (homeBytes t 16 0x10040 4), (t.results.map fun e => e.2.regs).flatten)
  | .fault _ => none
  | .refused _ => none
theorem wit_AtomicWordsSendTheirRequests :
    ([.atom q0 2 4 1 1 0, .red q0 2 4 1 1 0] : List Instr).all (fun i => passes i (atm 1 2)) = true ∧
    (let x := cx (.atom q0 2 4 1 1 0) (atm 1 2);
      unwalked (atm 1 2) 1 x.g (x.vas 4) = [] ∧ (∀ c ∈ x.acts, okOf (atomPlace x (atm 1 2) (x.va (x.lk c.1) 4) 4 0 false) = some (.mem 0x10040 pg0)) ∧
      x.o.mode.toNat < 2 ∧ releaseDone x (atm 1 2) 2 = true) ∧
    atomErr 0x10042 4 0 false = some (7, 0) ∧ atomErr Config.spmWindow 4 10 false = some (13, 0) ∧ atomErr Config.spmWindow 4 9 true = some (13, 1) ∧
    atomErr Config.spmWindow 4 9 false = none := by decide +kernel
theorem wit_AtomicsApplyAtTheirHome :
    (let s := { held4 10 base with atoms := [(5, req 9 7 15)] };
     atomReady s 5 (req 9 7 15) = true ∧ atomFlushPair s (req 9 7 15) = none ∧ s.wf = true) ∧
    (let s := { base with atoms := [(5, req 9 7 15 true)] };
     atomReady s 5 (req 9 7 15 true) = true ∧ s.wf = true) ∧
    happens { base with atoms := [(5, { req 0 7 0 with buffered := some 0 }), (6, { req 0 8 0 with buffered := some 0 })] } (.combiningBufferFlush [5, 6])
      (fun t => t.atoms.length == 1 && t.atoms.all fun e => e.2.ops.length == 2) = true ∧
    accReady (oneAcc rd0) 5 rd0 = true ∧ happens (oneAcc rd0) (.readGatherReply 0x400) (fun t => t.acc == []) = true := by decide +kernel
theorem test_atomics :
    after (atm 1 2) (.atom q0 2 4 1 1 0) (fun t => t.atoms.length == 16 && t.atoms.all fun e => e.2.pa == 0x10040 && e.2.kind == 0) = true ∧
    after (atm 1 2) (.red q0 2 4 1 1 0) (fun t => t.atoms.all fun e => e.2.ops.all fun o => !o.isAtom) = true ∧
    [atomOut 0 5 7 0, atomOut 7 5 9 5, atomOut 7 5 9 6, atomOut 8 9 0 5, atomOut 9 10 7 15, atomOut 9 20 1 15, atomOut 10 0x3F800000 0x40000000 0] =
    [some (12, [(64, 2, 5)]), some (9, [(64, 2, 5)]), some (5, [(64, 2, 5)]), some (0, [(64, 2, 9)]), some (15, [(64, 2, 10)]), some (20, [(64, 2, 20)]),
     some (0x40400000, [(64, 2, 0x3F800000)])] := by decide +kernel

/-- Every lane has an open transaction. -/
def inTx (w : Txn) : State := (upTo 64 16).foldl (fun t k => modLane t k fun y => { y with txn := some w }) base
/-- A write set of one byte at the program's line. -/
def tw1 : Txn := { writes := [⟨0x401, 0, 1, 0, [(3, 7)]⟩] }
/-- Lane 0 is in its commit. -/
def committing (w : Txn) : State := modLane (inTx w) 64 fun y => { y with held := .result, commit := some ⟨1, 9, []⟩ }
theorem wit_TransactionsOpenQueryAndCommit :
    passes (.txb g0) = true ∧ releaseDone (cx (.txb g0)) base 2 = true ∧ (∀ l, l < 16 → (laneAt base (64 + l)).txn = none) ∧
    passes (.txa g0 2) (inTx {}) = true ∧ (∀ l, l < 16 → (laneAt (inTx {}) (64 + l)).txn.isSome = true ∧ (vreg (inTx {}) (64 + l) 2).toNat < 256 ∧ txReading (inTx {}) (64 + l) = false) ∧
    passes (.txq g0 2 1) = true ∧ passes (.txe g0 1 1) (inTx {}) = true ∧ (txJudge (inTx {}) (cx (.txe g0 1 1)) (lanesOf 0xFFFF)).2 = [] ∧
    (laneAt (committing tw1) 64).commit = some ⟨1, 9, []⟩ ∧ txValidate (committing tw1) ⟨1, 9, []⟩ tw1 = none ∧ (committing tw1).wf = true ∧
    txValidate (committing tw1) ⟨1, 9, []⟩ { reads := [⟨0x401, 0, 1, 0, [(3, 8)]⟩] } = some (5, 0) := by decide +kernel
theorem test_transactions :
    after base (.txb g0) (fun t => (laneAt t 64).txn == some {} && (laneAt t 64).txStat == 1) = true ∧
    after (setVregs (inTx tw1) 64 [(2, 5)]) (.txa g0 2) (fun t => (laneAt t 64).txn.isNone && (laneAt t 64).txStat == 0x05000003) = true ∧
    after (inTx {}) (.txq g0 2 1) (fun t => t.results.any fun e => e.2.regs.contains (64, 2, 1)) = true ∧
    after (inTx {}) (.txe g0 1 1) (fun t => (laneAt t 64).commit.isSome) = true ∧
    after { inTx {} with acc := [(5, { rd0 with kind := .txRead })] } (.txe g0 1 1) (fun t => (laneAt t 64).held == .retry) = true ∧ ends0 base (.txa g0 2) = true ∧
    happens (committing tw1) (.txnCommit 1 0) (fun t => homeByte t 16 0x10043 == 7 && preg t 64 1 && (laneAt t 64).txStat == 2) = true := by decide +kernel

/-! ### Rings, arenas, fibres -/

/-- Team 1's ring 3. -/
def ring3 (g : Ring) : State := { all [(2, 3)] with teams := base.teams.put 1 { tm with rings := [(3, g)] } }
/-- Ring 3 after a U = 1 word on v2 = 3. -/
def ringAfter (g : Ring) (i : Instr) : Option Ring :=
  match exec i (at1 (ring3 g) i) with
  | .next t => (tm t).rings.get? 3
  | .fault _ => none
  | .refused _ => none
theorem wit_RingWordsMoveTheirCounts :
    ([.rinit qu 2, .rsv qu 2, .rfill qu 2, .rtake qu 2, .rfree qu 2] : List Instr).all (fun i => passes i (ring3 ⟨4, 1, 1, 1, 1⟩)) = true ∧
    releaseDone (cx (.rfill qu 2)) base 1 = true ∧ tm.banks ≠ [] ∧ ringWaiters base tm 3 true = [] ∧ ringWaiters base tm 3 false = [] ∧
    ringFail base (some tm) .init 0x40013 = some (1, 2) ∧ ringFail base (some tm) .init 3 = some (1, 2) ∧ ringFail base (some tm) .init 0x10000003 = none ∧
    ringFail base (some tm) .init 0x10010003 = some (1, 2) ∧ ringFail base (some { tm with banks := [] }) .rsv 3 = some (16, 3) ∧
    ringFail base (some tm) .rsv 3 = some (16, 0) ∧ ringFail base (some { tm with rings := [(3, ⟨4, 4, 0, 0, 0⟩)] }) .fill 3 = some (16, 1) ∧
    ringFail base (some { tm with rings := [(3, ⟨4, 3, 1, 0, 0⟩)] }) .init 0x40003 = some (16, 2) := by decide +kernel
theorem test_rings :
    after (all [(2, 0x40003)]) (.rinit qu 2) (fun t => (tm t).rings.get? 3 == some ⟨4, 4, 0, 0, 0⟩) = true ∧
    [ringAfter ⟨4, 1, 1, 1, 1⟩ (.rsv qu 2), ringAfter ⟨4, 1, 1, 1, 1⟩ (.rfill qu 2), ringAfter ⟨4, 1, 1, 1, 1⟩ (.rtake qu 2), ringAfter ⟨4, 1, 1, 1, 1⟩ (.rfree qu 2)] =
      [some ⟨4, 0, 2, 1, 1⟩, some ⟨4, 1, 0, 2, 1⟩, some ⟨4, 1, 1, 0, 2⟩, some ⟨4, 2, 1, 1, 0⟩] ∧
    after (ring3 ⟨4, 0, 2, 1, 1⟩) (.rsv qu 2) (fun t => (laneAt t 64).held == .ring 3 false 0xFFFF && (laneAt t 64).pc == 0x10000) = true ∧
    ends0 (ring3 ⟨4, 4, 0, 0, 0⟩) (.rfree qu 2) = true := by decide +kernel

/-- A child arena 2 of the root. -/
def kid : Arena := { state := .live, dom := 0, depth := 1, parent := 1, quota := 0x10000, charge := 0, base := 0x20000, rangeEnd := 0x30000, bump := 0x20000 }
/-- The root with its child; registers v8 to v11 in every lane. -/
def withKid (k : Arena) (l : List (Nat × Word)) : State :=
  let s := all l
  { s with arenas := (s.arenas.put 1 { arenaAt s 1 with charge := 0x20000, bump := 0x30000 }).put 2 k }
/-- The class and detail that an arena word raises. -/
def arenaErr (r : Except ArenaFail (State × List (Nat × Word))) : Option (Nat × Nat) :=
  match r with
  | .error e => some e
  | .ok _ => none
/-- The failure of an `alloc` and of an `anew` with the operands. -/
def allocErr (k : Arena) (l : List (Nat × Word)) : Option (Nat × Nat) := arenaErr (allocOne (cx (.alloc qu 8 1) (withKid k l)) 8 (withKid k l) 64)
def anewErr (k : Arena) (l : List (Nat × Word)) : Option (Nat × Nat) := arenaErr (anewOne (cx (.anew qu 8 1) (withKid k l)) 8 (withKid k l) 64)
/-- The detail of a failed bump, or the address. -/
def bumped (a : Arena) (n al : Nat) : Nat :=
  match bumpArena a n al with
  | .error e => e
  | .ok r => r.1
theorem wit_ArenaWordsActInTheirLanes :
    ([.anew qu 8 1, .alloc qu 8 1, .aseal qu 8 1, .aqry qu 8 1, .adrop qu 8 1 1] : List Instr).all (fun i => passes i (withKid kid [(8, 2)])) = true ∧
    (let s := withKid kid [(8, 1), (10, 0x10000)]; let x := cx (.anew qu 8 1) s; ∀ c ∈ x.acts, anewBlocked x 8 s (x.lk c.1) = false) ∧
    releaseDone (cx (.aseal qu 8 1)) base 2 = true ∧
    (let s := withKid kid [(8, 2)]; let x := cx (.adrop qu 8 1 1) s; anyOutstanding s 1 x.active = false ∧ x.acts = [(0, 0xFFFF)] ∧
      adropFail x s (vreg x.rs 64 8) = none) := by decide +kernel
theorem wit_ArenaWordsTakeTheirEffect :
    [bumped kid 0x10001 1, bumped { kid with quota := 16 } 17 1, bumped { kid with bump := 0x20001 } 16 16] = [1, 0, 0x20010] ∧
    allocErr kid [(8, 2), (9, 17), (10, 16)] = some (1, 2) ∧ allocErr kid [(8, 2), (9, 16), (11, 0x10000)] = some (1, 2) ∧ allocErr kid [(8, 3)] = some (10, 1) ∧
    allocErr { kid with state := .sealed } [(8, 2)] = some (10, 2) ∧ allocErr kid [(8, 2), (11, 1)] = some (11, 1) ∧ allocErr kid [(8, 2), (9, 16), (10, 16)] = none ∧
    anewErr kid [(8, 1), (10, 0x8000)] = some (1, 2) ∧ anewErr kid [(8, 3), (10, 0x10000)] = some (10, 1) ∧
    anewErr { kid with state := .sealed } [(8, 2), (10, 0x10000)] = some (10, 2) ∧ anewErr { kid with depth := 7 } [(8, 2), (10, 0x10000)] = some (11, 2) ∧
    anewErr kid [(8, 2), (10, 0x20000)] = some (11, 1) ∧ anewErr kid [(8, 1), (10, 0x10000)] = none ∧
    arenaErr (asealOne (cx (.aseal qu 8 1) (withKid kid [(8, 1)])) 8 (withKid kid [(8, 1)]) 64) = some (10, 3) ∧
    arenaErr (asealOne (cx (.aseal qu 8 1) (withKid kid [(8, 2)])) 8 (withKid kid [(8, 2)]) 64) = none ∧
    engineNames base (subtree (withKid kid []) 7 2) = false ∧ handleMatches (withKid kid []) 0 2 = true ∧ handleMatches (withKid kid []) 0 3 = false ∧
    (handleOf (withKid kid []) 1).toNat < 65536 ∧ descPoisoned (withKid kid []) 2 = false ∧
    descPoisoned { withKid kid [] with poison := [(descRegion base).1 / 64 + 2] } 2 = true := by decide +kernel
theorem test_arenas :
    after (withKid kid [(8, 2), (9, 4), (10, 24)]) (.alloc qu 8 1) (fun t => (arenaAt t 2).bump == 0x20018 && (arenaAt t 2).charge == 24 &&
      t.results.any fun e => e.2.regs.contains (64, 10, 0x20000)) = true ∧
    after (withKid kid [(8, 1), (10, 0x10000)]) (.anew qu 8 1) (fun t => (arenaAt t 0).state == .live && (arenaAt t 0).base == 0x30000 && (arenaAt t 1).bump == 0x40000 &&
      t.results.any fun e => e.2.regs.contains (64, 8, 0)) = true ∧
    after (withKid kid [(8, 2)]) (.aqry qu 8 1) (fun t => t.results.any fun e => e.2.regs.contains (64, 8, 0x00110001) && e.2.regs.contains (64, 10, 0x10000)) = true ∧
    after (withKid kid [(8, 2)]) (.aseal qu 8 1) (fun t => t.seals.length == 1) = true ∧
    after (withKid kid [(8, 2)]) (.adrop qu 8 1 1) (fun t => (arenaAt t 2).state == .live && !preg t 64 1 &&
      happens t (.drainMark 2) fun u => (arenaAt u 2).state == .draining && preg u 64 1 && u.filters.length == 1) = true := by decide +kernel

/-- A seal and a drop of arena 2 in progress. -/
def sealing (taken : Bool) : State := { withKid kid [] with seals := [(5, ⟨2, 0, taken, 1, 9, []⟩)] }
def dropping (unmarked : List (Nat × Nat)) : State :=
  { withKid { kid with state := .draining } [] with drops := [(5, ⟨2, [2], unmarked, 1, 9, 0, 0, 0, 0, 0⟩)], filters := [⟨2, 0, [], 3, 0⟩] }
theorem wit_SealsAndDropsTakeTheirCourse :
    sealsOf (sealing false) 2 false ≠ [] ∧ (arenaAt (sealing false) 2).state = .live ∧ engineWrites (sealing false) (subtree (sealing false) 7 2) = false ∧
    sealsOf (sealing true) 2 true ≠ [] ∧ tagWrites (sealing true) (subtree (sealing true) 7 2) = false ∧
    ((dropping [(3, 0)]).drops.find? fun e => e.2.unmarked.contains (3, 0)).isSome = true ∧ (arenaAt (dropping [(3, 0)]) 3).state = .free ∧
    (arenaAt { dropping [(3, 0)] with arenas := (dropping [(3, 0)]).arenas.put 3 { kid with parent := 2, depth := 2 } } 3).state = .live ∧
    tagInFlight (dropping []) [2] = false ∧ (dropping []).drops.any (fun e => e.1 ≠ 5 ∧ [2].contains (arenaAt (dropping []) e.2.root).parent) = false ∧
    (arenaAt (dropping []) 2).parent ≠ 2 ∧ ((dropping []).filters.any fun e => e.left.getLsbD 1) = true ∧
    (arenaAt { base with arenas := base.arenas.put 2 { state := .held, gen := 15 } } 2).state = .held ∧ base.filters.any (fun e => e.arena == 2) = false ∧
    base.arenas.sorted = true := by decide +kernel
theorem test_seals_and_drops :
    happens (sealing false) (.arenaSealPoint 2) (fun t => (arenaAt t 2).state == .sealed && (arenaAt t 1).state == .live) = true ∧
    happens (sealing true) (.arenaSealComplete 2) (fun t => t.seals == []) = true ∧
    happens (dropping []) (.arenaDropComplete 2) (fun t => arenaAt t 2 == { gen := 1 } && (arenaAt t 1).charge == 0x10000 && (arenaAt t 1).bump == 0x20000) = true ∧
    happens { dropping [(3, 0)] with arenas := (dropping [(3, 0)]).arenas.put 3 { kid with parent := 2, depth := 2 } } (.drainMark 3) (fun t => (arenaAt t 3).state == .draining) = true ∧
    happens { dropping [] with filters := [⟨2, 0, [], 2, 0⟩] } (.discardSweep 1) (fun t => t.filters == []) = true ∧
    happens { base with arenas := base.arenas.put 2 { state := .held, gen := 15 } } (.arenaNumberRecycle 2) (fun t => arenaAt t 2 == {}) = true := by decide +kernel

/-- A fibre of the boot kernel. -/
def fib : Fibre := { args := [1, 2, 3, 4], resume := 0x10000 }
/-- A bin of the boot kernel on die 0. -/
def bin0 (n : Nat) : Bin := { dom := 0, func := 0, entry := 0x10000, kentry := 0x10000, fibres := rep n fib, timer := some 5, waiting := none }
/-- Die 0 holds the bin. -/
def withBin (b : Bin) (s : State := base) : State := { s with bins := [(0, b)] }
/-- A tag entry of the steward's domain. -/
def tagE (c : Nat) (ws : List Waiter := []) : TagEntry := ⟨0, 0, 7, c, ws, 0, false⟩
/-- Fields of the steward's function changed. -/
def withFunc (f : Func → Func) (s : State := base) : State := { s with funcs := s.funcs.put 0 (f (funcAt s 0)) }
theorem wit_FibreWordsActInTheirLanes :
    ([.spawn q0 2 4 8, .park g0 2 4 6, .rdy q0 2 4 6, .await q0 1 4 6, .wake q0 4, .wakeTmr qu 6] : List Instr).all
      (fun i => passes i (all [(6, 20)] (at4 0x10000))) = true ∧
    (let s := all [(6, 20)] (at4 0x10000); let x := cx (.spawn q0 2 4 8) s; (∀ c ∈ x.acts, spawnFail x s 4 c.1 = none) ∧ x.scopeOr 2 = 2 ∧ releaseDone x s 2 = true ∧
      (∀ l ∈ lanesOf x.active, parkFail x 2 4 l = none) ∧ (∀ c ∈ x.acts, awaitFail x 6 c.1 = none ∧ wakeFail x 6 c.1 = none) ∧
      unwalked s 1 x.g ((lanesOf x.active).map fun l => (vpair x.rs (x.lk l) 4).toNat) = []) ∧
    headerAt base 0 0x10000 = some bootHeader ∧ headerAt base 0 0x10004 = none ∧ bootHeader.teamg = 0 ∧ bootHeader.coop = false ∧ bootHeader.roled = false ∧
    (funcAt base 0).binTime.length = 4 := by decide +kernel
theorem wit_BinsTakeFibresAndTagsTakePosts :
    binOf base 0 0 0x10000 0x10000 = none ∧ (funcAt base 0).bins.getD 0 0 = 8 ∧ binsHeld base 0 0 = 0 ∧
    ((upTo 0 256).find? fun k => (base.bins.get? k).isNone) = some 0 ∧ (funcAt base 0).bins.getD 3 0 = 8 ∧ (funcAt (withFunc fun f => { f with bins := [0, 0, 0, 0] }) 0).bins.getD 0 0 = 0 ∧
    [0, 1, 14, 15, 16].all (fun n => binOf (withBin (bin0 n)) 0 0 0x10000 0x10000 == some (0, bin0 n)) = true ∧ bootHeader.width = 16 ∧
    tagEntry? { base with tags := [tagE 5] } 0 7 = some (tagE 5) ∧ tagEntry? base 0 7 = none := by decide +kernel
theorem test_bins_and_tags :
    (binInsert base 0 0 0 0x10000 bootHeader fib).1 = 0 ∧ (binInsert (withBin (bin0 16)) 0 0 0 0x10000 bootHeader fib).1 = 1 ∧
    (binInsert (withFunc fun f => { f with bins := [0, 0, 0, 0] }) 0 0 0 0x10000 bootHeader fib).1 = 2 ∧
    ((binInsert (withBin (bin0 15)) 0 0 0 0x10000 bootHeader fib).2.bins.get? 0).any (fun b => b.fibres == [] && b.waiting.any fun w => w.length == 16) = true ∧
    tagEntry? (post { base with tags := [tagE 0xFFFFFFFF] } 0 0 7 1) 0 7 = some (tagE 0xFFFFFFFF) ∧ tagEntry? (post base 0 0 7 3) 0 7 = some (tagE 3) ∧
    (takeOne { base with tags := [tagE 1] } 0 0 7).1 = true ∧ (takeOne { base with tags := [tagE 1] } 0 0 7).2.tags = [] ∧ (takeOne base 0 0 7).1 = false := by decide +kernel
theorem wit_FibreActsTakeTheirEffect :
    (let s := all [(6, 7), (7, 20), (8, 0)] (at4 0x10080); let x := cx (.park g0 2 4 6) s;
      entryRoom s 0 0 2 = true ∧ okOf (placeOf s x.g (vpair x.rs (x.lk 0) 4).toNat 0 true false) = some (.mem 0x10080 pg0) ∧ has (0xFFFF : BitVec 64) 0 = true) ∧
    entryRoom (withFunc fun f => { f with blocks := [0, 0, 0, 0] }) 0 0 2 = false ∧ headerAt base 0 0x10000 = some bootHeader ∧
    tagEntry? { base with tags := [tagE 5] } 0 7 = some (tagE 5) ∧ (∀ e ∈ base.tags, e.count = 0) := by decide +kernel
theorem test_fibre_words :
    after (at4 0x10000) (.spawn qu 2 4 8) (fun t => vreg t 64 2 == 0 && t.bins.length == 1) = true ∧
    after (all [(6, 7)] (at4 0x10080)) (.park g0 2 4 6) (fun t => t.parks.length == 1 && t.acc.length == 2 && (laneAt t 64).held == .result) = true ∧
    after (all [(4, 7), (6, 3)]) (.rdy qu 2 4 6) (fun t => t.posts.length == 1 && t.posts.all fun e => e.2.tag == 7 && e.2.n == 3) = true ∧
    after { all [(4, 7)] with tags := [tagE 1] } (.await qu 1 4 6) (fun t => preg t 64 1 && t.tags == []) = true ∧
    after (all [(4, 7)]) (.await qu 1 4 6) (fun t => !preg t 64 1 && t.tags == []) = true ∧
    after (all [(4, 7), (6, 9)]) (.await qu 1 4 6) (fun t => t.tags.any fun e => e.waiters == [.lane 64]) = true ∧
    after (withBin (bin0 3) (at4 0x10000)) (.wake qu 4) (fun t => t.bins.all fun e => e.2.fibres == [] && e.2.waiting.isSome) = true ∧
    after (all [(6, 20)]) (.wakeTmr qu 6) (fun t => (funcAt t 0).binTime == [20, 20, 20, 20]) = true := by decide +kernel

/-- A park, a post, a waiting lane and a held continuation. -/
def parked : State := { base with parks := [(5, { lane := 64, gid := 1, dom := 0, func := 0, tag := 7, addr := 0x10080, deps := [3, 4] })], tags := [⟨0, 0, 7, 0, [], 1, false⟩] }
def posted (n : Nat) (free : Bool) (m : BitVec 64) : Post := { dom := 0, func := 0, tag := 7, n := n, gid := 1, lanes := m, reg := 2, free := free }
def awaiting : State := modLane { base with tags := [tagE 0 [.lane 64]] } 64 fun y => { y with held := .await 7 0 1 1 }
def heldC : State := { base with heldConts := [(5, ⟨0, 0, 0, 0x10000, 0x10000, fib, true⟩)] }
/-- No room for entries. -/
def noRoom : State := withFunc fun f => { f with blocks := [0, 0, 0, 0] }
theorem wit_FibreEventsTakeTheirCourse :
    parked.parks.all (fun e => !(e.2.deps.any fun j => (parked.acc.get? j).isSome)) = true ∧ (∀ e ∈ parked.tags, e.count = 0) ∧
    postBlocked noRoom (posted 3 false 1) = true ∧ noRoom.wf = true ∧ laneLive noRoom 64 = true ∧ postBlocked base (posted 3 true 0) = false ∧
    (laneAt awaiting 64).held = .await 7 0 1 1 ∧ acNow awaiting 0 = 0 ∧ (bin0 3).fibres ≠ [] ∧ (bin0 3).waiting = none ∧
    (binInsert { heldC with heldConts := heldC.heldConts.del 5 } 0 0 0 0x10000 bootHeader fib).1 = 0 := by decide +kernel
theorem test_fibre_events :
    happens parked (.parkRegistration 5) (fun t => (t.lanes.get? 64).isNone && t.tags.any fun e => e.waiters == [.record 0x10080]) = true ∧
    happens { noRoom with posts := [(5, posted 3 false 1)] } (.tagPostArrival 5) (fun t => vreg t 64 2 == 1 && t.tags == []) = true ∧
    happens { base with posts := [(5, posted 3 true 0)] } (.tagPostArrival 5) (fun t => t.tags == [tagE 3]) = true ∧
    happens awaiting (.awaitTimeout 1 0) (fun t => (laneAt t 64).pc == 0x10004 && !preg t 64 1 && t.tags == []) = true ∧
    happens { withBin (bin0 3) with wall := 5 } (.binTimerExpiry 0 0) (fun t => t.bins.all fun e => e.2.waiting == some (rep 3 fib)) = true ∧
    happens heldC (.continuationBinEntry 5) (fun t => t.heldConts == [] && t.bins.length == 1) = true := by decide +kernel

/-! ### Faults and gates -/

/-- A handler and a fault area of the steward. -/
def handled : State := withFunc fun f => { f with faultEntry := some 0x10000, faultArea := some 0x18000 }
/-- The slot that a fault finds. -/
def slotFound (s : State) (fa : Nat) : Option (Option Nat) :=
  match freeFaultSlot s 0 fa Config.faultSlots 0 with
  | .error _ => none
  | .ok r => some r
theorem wit_TakingAFault :
    (gr handled).gate = none ∧ outstanding handled 64 = false ∧ (funcAt base 0).faultEntry = none ∧ (funcAt base 0).traceSize = 0 ∧
    slotFound handled 0x18000 = some (some 0) ∧ entryRoom handled 0 0 2 = true ∧ tagEntry? handled 0 (faultTag 0 0) = none ∧
    (domWrites handled 0 0x18000 (rep 512 1) 8).isSome = true ∧ headerAt handled 0 0x10000 = some bootHeader := by decide +kernel
theorem wit_TrapDebugAndEventsRaise :
    ([.trap g0 7, .dbg g0 7] : List Instr).all (fun i => passes i) = true ∧ debugOn base 0 = false ∧ debugOn (withFunc fun f => { f with traceMask := 2 ^ 63 }) 0 = true ∧
    fpTrap 0x100 1 = some 0 ∧ fld 0x100 8 5 &&& 2 = 0 := by decide +kernel
theorem test_faults :
    after base (.trap g0 7) (fun t => (t.lanes.get? 64).isNone && (t.lanes.get? 79).isNone) = true ∧
    (let t := takeFault handled 1 0 ⟨0x150, 7, 0, 0, false⟩ 0x10000 0x10004 0x207;
      (t.lanes.get? 64).isNone = true ∧ homeBytes t 16 0x18080 8 = [1, 0, 0, 0, 0x50, 1, 7, 0] ∧ homeBytes t 16 0x18000 8 = [0, 0, 1, 0, 0, 0, 0, 0] ∧
      (t.bins.map fun e => e.2.fibres.map (·.args)) = [[[0x18000, 0, 0x150, 0x3FF00000]]]) := by decide +kernel

/-- The steward's slot 0 after lane 0's `trap` 7, and v4, v5 with the slot's address. -/
def faulted : State := takeFault (at4 0x18000 handled) 1 1 ⟨0x150, 7, 0, 0, false⟩ 0x10000 0x10004 0x207
/-- The slot as `eret` reads it. -/
def slot0 : List Byte :=
  match domRead faulted 0 0x18000 5 256 with
  | .ok b => b
  | .error _ => []
theorem wit_ReturningFromAFault :
    passes (.eret g0 4 0) faulted = true ∧ (let x := cx (.eret g0 4 0) faulted; (∀ c ∈ x.acts, eretFail x faulted 4 c.1 = none) ∧
      unwalked faulted 1 x.g ((lanesOf x.active).map fun l => (vpair x.rs (x.lk l) 4).toNat) = [] ∧ releaseDone x faulted 2 = true) ∧
    slot0.length = 256 ∧ leNat ((slot0.drop 0x80).take 8) % 2 ^ 32 = 1 ∧ leNat ((slot0.drop 0xB3).take 1) % 2 = 1 ∧ leNat (slot0.take 8) % 4 = 0 ∧
    leNat (slot0.take 8) = leNat ((slot0.drop 0x88).take 8) := by decide +kernel
/-- Lane 0 and a detached fault wait for a slot. -/
def waitsSlot : State :=
  { modLane base 64 (fun y => { y with held := .faultSlot ⟨0x150, 7, 0, 0, false⟩ 0x207 0x10004 0x10000 }) with
    detached := [(5, ⟨0, ⟨0x04F, 0, 0, 0, false⟩, 0, 0, 0, 0, none⟩)], funcs := handled.funcs }
/-- The state in which lane 0 of group 1 returns from its fault. -/
def returning : State := { faulted with cur := some { cu (.eret g0 4 0) with lanes := 1 } }
theorem test_returns :
    happens returning (.eret g0 4 0) (fun t => t.tags == [] && (t.lanes.get? 64).isNone) = true ∧
    happens { returning with lanes := (at4 0x18200 faulted).lanes } (.eret g0 4 0) (fun t => (t.lanes.get? 64).isNone) = true := by decide +kernel
theorem test_slot_retry :
    happens waitsSlot (.faultSlotRetry 1 0) (fun t => (t.lanes.get? 64).isNone && homeByte t 16 0x18080 == 1) = true ∧
    happens waitsSlot (.faultSlotRetry 5 64) (fun t => t.detached == [] && homeByte t 16 0x180B2 == 0xFF) = true := by decide +kernel

/-- A gate descriptor 4: target domain 1, window 32, divmax 4, any caller, entry 0x10040; function 1 has domain 1. -/
def gateReady : State :=
  let s := setHomeBytes base 16 0x10100 (leBytes 4 (2 ^ 31 + 4 * 2 ^ 16 + 32 * 2 ^ 8 + 1) ++ leBytes 4 0 ++ leBytes 8 (2 ^ 64 - 1) ++ leBytes 8 0x10040)
  { s with arenas := s.arenas.put 1 { arenaAt s 1 with base := 0x10000 }, funcs := s.funcs.put 1 { dom := some 1, cores := 1 },
           slots := s.slots.put 1 { dpid := 0x80000001, dprf := 0, dpspm := 0, dpacc := 0, dpl1 := 0, dpgate := 0 } }
/-- The state within the gate. -/
def inGate : State :=
  match exec (.gate g0 1 4) (at1 gateReady (.gate g0 1 4)) with
  | .next t => t
  | .fault _ => base
  | .refused _ => base
/-- The frame of group 1's gate. -/
def frame1 : GateFrame := ((gr inGate).gate).getD ⟨0, 0, 0, 0, 0, 0, 0, [], [], [], []⟩
/-- A configuration entry: type, function, and the word at byte 8. -/
def cfgE (ty f v : Nat) : List Byte := leBytes 1 ty ++ leBytes 1 f ++ rep 6 0 ++ leBytes 4 v ++ rep 20 0
/-- The descriptor that a read finds. -/
def gateRead (s : State) (n : Nat) : Option GateDesc :=
  match (readGate s n).1 with
  | .ok d => d
  | .error _ => none
theorem wit_GatesAndReconfiguration :
    passes (.gate g0 1 4) gateReady = true ∧ (let x := cx (.gate g0 1 4) gateReady; groupWhole x = true ∧ x.g.gate = none ∧ convPending x.g = false) ∧
    gateRead gateReady 4 = some ⟨1, 32, 4, 2 ^ 64 - 1, 0x10040⟩ ∧ gateRead gateReady 5 = none ∧ gateTarget gateReady 1 = some 1 ∧ gateTarget gateReady 2 = none ∧
    (gr inGate).gate.isSome = true ∧ inGate.wf = true ∧ passes (.gret g0) inGate = true ∧ (let x := cx (.gret g0) inGate; groupWhole x = true ∧ x.g.gate = some frame1 ∧ groupQuiet inGate 1 = true ∧
      releaseDone x inGate 2 = true) ∧
    passes (.recfg qu 4) (all [(6, 1)] (at4 0x10040)) = true ∧ (let s := all [(6, 1)] (at4 0x10040); let x := cx (.recfg qu 4) s;
      (∀ c ∈ x.acts, recfgFail x 4 c.1 = none) ∧ releaseDone x s 2 = true) ∧
    cfgFail base (cfgE 9 0 0) = some 1 ∧ cfgFail base (cfgE 6 17 20) = some 2 ∧ cfgFail base (cfgE 6 0 50) = none ∧
    ((cfgApply base (cfgE 6 0 50)).funcs.any fun e => poolBad (cfgApply base (cfgE 6 0 50)) e.1) = false := by decide +kernel
theorem test_gates :
    ((gr inGate).stamp, (gr inGate).window, (gr inGate).func, (laneAt inGate 64).pc, vreg inGate 64 8) = (1, 32, 1, 0x10040, 0) ∧
    after inGate (.gret g0) (fun t => (gr t).stamp == 0 && (laneAt t 64).pc == 0x10004 && preg t 64 1) = true ∧
    after gateReady (.gate g0 1 5) (fun t => (t.lanes.get? 64).isNone) = true ∧
    after inGate (.trap g0 7) (fun t => (gr t).abort == some 0x150 && (let u := settleGate t 1
      (gr u).stamp == 0 && u.lanes.length == 16 && (laneAt u 79).pc == 0x10004 && vreg u 79 0 == 0x150 && !preg u 79 1 && (gr u).gate == none)) = true ∧
    (jasperCommit base (cfgE 6 0 50) 1).1 = (0, 0xFFFFFFFF, 0) ∧ (funcAt (jasperCommit base (cfgE 6 0 50) 1).2 0).grace = 50 ∧
    (jasperCommit base (cfgE 9 0 0) 1).1 = (5, 0, 1) := by decide +kernel

/-! ### Engines and messages -/

/-- v8 to v15 of every lane. -/
def ps (l : List Word) (s : State := base) : State := all ((upTo 8 8).zip l) s
/-- A copy of 64 bytes from 0x10000 to 0x10080 without headers. -/
def cpyP : List Word := [0x10000, 0, 0x10080, 0, 64, 2, 0, 0]
/-- The operation that the parameters make, and the state that holds it. -/
def op (kind : Nat) (l : List Word) (cw : Bool := false) (tg : Bool := false) : EngOp := engOpOf (cx (.cpy q0 8 0 1 1 false false) (ps l)) kind 8 16 cw tg 1 (ps l) 64
def withOp (o : EngOp) (s : State := base) : State := { s with engs := [(5, o)] }
/-- A collective of two participants: an all-reduce of four 32-bit integers, id 3, ranks 0 and 1. -/
def collP (rank dst : Word) : List Word := [0x10000, 0, dst, 0, 0x20000004, 3 + 1 * 2 ^ 8 + rank * 2 ^ 20, 0, 0]
theorem wit_EngineWordsQueueTheirOperations :
    passes (.cpy q0 8 0 1 1 false false) (ps cpyP) = true ∧ passes (.cpyg q0 8 0 1 1 false false) (ps [0x10000, 0, 0x10080, 0, 0, 0x02000001, 0, 0]) = true ∧
    passes (.cpys q0 8 0 1 1 false false) (ps [0x10080, 0, 0x10000, 0, 0, 0x02000001, 0, 0]) = true ∧ passes (.coll q0 8 0 1 1 false false) (ps (collP 0 0x10080)) = true ∧
    [op 0 cpyP, op 1 [0x10000, 0, 0x10080, 0, 0, 0x02000001, 0, 0], op 2 [0x10080, 0, 0x10000, 0, 0, 0x02000001, 0, 0], op 3 (collP 0 0x10080)].all (fun o =>
      !engBadParams o && !engOverlap o && engMisaligned o == none && engBankFail base o == none && engCheckPlaces base o == none) = true ∧
    engBadParams (op 0 [0x10000, 0, 0x10080, 0, 64, 3, 0, 0]) = true ∧ engOverlap (op 0 [0x10000, 0, 0x1003F, 0, 64, 2, 0, 0]) = true ∧
    engOverlap (op 0 [0x10000, 0, 0x10040, 0, 64, 2, 0, 0]) = false ∧ engMisaligned (op 0 [0x10000, 0, 0x10081, 0, 64, 1, 0, 0]) = some (0x10081, 256) := by decide +kernel
theorem test_engine_words :
    after (ps cpyP) (.cpy qu 8 0 1 1 false false) (fun t => t.engs.map (fun e => (e.2.params, e.2.arenas)) == [(cpyP, [(1, false), (1, true)])]) = true ∧
    after (ps [0x10000, 0, 0x10080, 0, 0, 0x02000001, 0, 0]) (.cpyg qu 8 0 1 1 false false) (fun t => t.engs.all fun e => e.2.idx == [0] && e.2.kind == 1) = true ∧
    after (ps [0x10080, 0, 0x10000, 0, 0, 0x02000001, 0, 0]) (.cpys qu 8 0 1 1 false false) (fun t => t.engs.all fun e => e.2.kind == 2) = true ∧
    after (ps (collP 0 0x10080)) (.coll qu 8 0 1 1 false false) (fun t => t.engs.all fun e => e.2.kind == 3 && e.2.cn == 2) = true ∧
    (let o : EngOp := { (op 0 [0x10000, 0, 0x10080, 0, 32, 2, 0, 0]) with accepted := true, owned := [0x402] };
      engFailure { withOp o with poison := [0x402] } o == some (0x14F, 0x10080) && engFailure { withOp o with poison := [0x400] } o == some (0x14C, 0x10000) &&
      engFailure (withOp o) o == none) = true ∧
    ends0 (ps [0x10000, 0, 0x10080, 0, 64, 3, 0, 0]) (.cpy qu 8 0 1 1 false false) = true := by decide +kernel

/-- An accepted copy that owns its line, over memory that holds a 9. -/
def copying : EngOp := { op 0 cpyP with accepted := true, owned := [0x402] }
def copyS (o : EngOp := copying) : State := withOp o (setHomeByte base 16 0x10001 9)
/-- The data of an operation's pieces can be read. -/
def canRead (s : State) (o : EngOp) : Bool :=
  match allData s o (leftPieces s o) with
  | .ok _ => true
  | .error _ => false
theorem wit_EngineOperationsTakeTheirCourse :
    outstanding base 64 = false ∧ entriesTaken (withOp (op 0 cpyP)) 0 0 < Config.engineEntries ∧
    (let o := { op 0 cpyP with deps := [7] }; ((withOp o).acc.get? 7).isSome = false ∧ engCheckPlaces (withOp o) o = none ∧ engEmpty o = false ∧ o.deps ≠ []) ∧
    dataReady copying = true ∧ copying.owned.contains 0x402 = true ∧ copying.failed = none ∧ canRead copyS copying = true ∧
    engFailure (copyS { copying with failed := some (0x0EF, 0) }) { copying with failed := some (0x0EF, 0) } = some (0x0EF, 0) ∧ copyS.wf = true ∧
    aliased copyS copying 0x402 = false ∧ pieceLine copyS copying ⟨0x10080, 64, 0x10000⟩ = some 0x402 ∧ tm.saved = none ∧ spmAt tm 8 = some 8 := by decide +kernel
theorem test_engine_events :
    happens (withOp { op 0 cpyP with deps := [7] }) (.engineOpAccept 5) (fun t => t.engs.all fun e => e.2.accepted && e.2.owned == [0x402]) = true ∧
    happens copyS (.engineRecall 5 0x402) (fun t => homeByte t 16 0x10081 == 9 && t.engs.all fun e => e.2.owned == []) = true ∧
    happens copyS (.engineOpComplete 5) (fun t => homeByte t 16 0x10081 == 9 && t.engs == []) = true ∧
    happens (copyS { copying with failed := some (0x0EF, 0), cw := true, params := [0x10000, 0, 0x10080, 0, 64, 2, 8, 0] }) (.engineOpFailure 5)
      (fun t => spmBytes t 8 8 == [0xEF, 0, 0, 0, 0xFF, 0xFF, 0xFF, 0xFF] && t.engs == []) = true := by decide +kernel

/-- Two participants; the first has arrived. -/
def collS (first : List Nat) : State :=
  { base with engs := [(5, { op 3 (collP 0 0x10080) with accepted := true, owned := [0x402] }), (6, { op 3 (collP 1 0x100C0) with accepted := true, owned := [0x403] })],
              colls := if first = [] then [] else [(7, ⟨0, 3, 2, first, 0⟩)], mem := [(0x10000, 2), (0x10004, 250)] }
theorem wit_CollectivesGatherAndFail :
    (let o := { op 3 (collP 0 0x10080) with accepted := true, owned := [0x402] }; arrived (collS []) 5 o = false ∧ o.cid = 3 ∧ 1 < o.cn ∧ o.kind = 3) ∧
    arrived (collS [5]) 6 { op 3 (collP 1 0x100C0) with accepted := true, owned := [0x403] } = false ∧ treeCovers (.node (.leaf 0) (.leaf 1)) 2 = true ∧
    treeCovers (.leaf 0) 2 = false ∧ collAgree [op 3 (collP 0 0x10080), op 3 (collP 1 0x100C0)] = true ∧
    collAgree [op 3 (collP 0 0x10080), op 3 [0x10000, 0, 0x100C0, 0, 0x20000008, 0x00100103, 0, 0]] = false := by decide +kernel
theorem test_collectives :
    happens (collS []) (.collectiveArrival 5 (.leaf 0)) (fun t => t.colls.length == 1) = true ∧
    happens (collS [5]) (.collectiveArrival 6 (.node (.leaf 0) (.leaf 1))) (fun t => t.colls == [] &&
      t.engs.all fun e => e.2.data == some [4, 0, 0, 0, 0xF4, 1, 0, 0, 0, 0, 0, 0, 0, 0, 0, 0]) = true ∧
    happens { collS [5] with wall := 70000000 } (.collectiveTimeout 7) (fun t => (t.engs.get? 5).any fun o => o.failed == some (0x0EF, 0)) = true := by decide +kernel

/-- A receive and a queued arrival on core 0. -/
def recv0 : Recv := { core := 0, dom := 0, func := 0, team := 1, grid := none, addr := 0x10080, tag := 5, mask := 0xFF, sel := 0xFFFF, greatest := 4, cwOff := 8,
                      post := false, ready := 0, scope := 1, arenas := [1] }
def arr0 : Arrival := ⟨0, 0, 2, 5, [1, 2, 3]⟩
/-- A message for core 0, and the state in which the steward's domain holds a slot there. -/
def msg0 (c : Nat := 0) : Msg := { dom := 0, func := 0, source := 2, tag := 0x105, payload := [1, 2, 3], core := c, modl := 0, gid := 1, lanes := 1, reg := 2, tok := 9 }
def slotS : State := { base with slots := base.slots.put 0 { dpid := 0x80000000 } }
/-- Blocks of the message words. -/
def sendP : List Word := [0x10000, 0, 5, 4 * 2 ^ 12, 0, 0, 0, 0]
def recvP : List Word := [0x10080, 0, 5, 0xFF, 0xFFFF + 4 * 2 ^ 16, 8, 0, 0]
def probeP : List Word := [5, 0xFF, 0xFFFF, 0, 0, 0, 0, 0]
theorem wit_MessagesAreSentReceivedAndProbed :
    passes (.msend qu 8 2 1 1) (ps sendP) = true ∧ passes (.mrecv qu 8 2 1 1) (ps recvP) = true ∧ passes (.mprobe qu 8 2 1 1) (ps probeP) = true ∧
    (∀ c ∈ (cx (.msend qu 8 2 1 1) (ps sendP)).acts, msendFail (cx (.msend qu 8 2 1 1) (ps sendP)) 8 c.1 = none) ∧ releaseDone (cx (.msend qu 8 2 1 1) (ps sendP)) base 1 = true ∧
    (∀ c ∈ (cx (.mrecv qu 8 2 1 1) (ps recvP)).acts, mrecvFail (cx (.mrecv qu 8 2 1 1) (ps recvP)) base 8 c.1 = none) ∧
    (∀ c ∈ (cx (.mprobe qu 8 2 1 1) (ps probeP)).acts, mprobeFail (cx (.mprobe qu 8 2 1 1) (ps probeP)) 8 c.1 = none) ∧
    msgMatches 5 0xFF 0xFFFF 0x105 2 = true ∧ msgMatches 5 0xFF 3 0x105 2 = false ∧ msgMatches 5 0xFF 2 4 2 = false ∧
    msgBehind { slotS with msgs := [(5, msg0)] } 5 (msg0) = false ∧ inUnitSet slotS 0 0 = true ∧ holdsSlot slotS 0 0 = true ∧ inUnitSet slotS 0 9 = false ∧ moduleNo slotS = 0 := by
  decide +kernel
/-- A record whose link table leads to module 3 by link 2. -/
def linkedS : State := { slotS with record := some { links := [0, 0, 0, 4] }, linkMsgs := [[]] }
theorem wit_moduleLinks :
    moduleReached linkedS 3 = true ∧ moduleReached { linkedS with linksDown := [2] } 3 = false ∧ moduleReached linkedS 4 = false ∧ linkedS.up = true ∧
    (msg0 0).modl = moduleNo linkedS ∧ ({ msg0 0 with modl := 3 } : Msg).modl ≠ moduleNo linkedS ∧ 0x310 / 256 ≠ moduleNo linkedS := by decide +kernel
theorem test_messageFromModule :
    happens { linkedS with recvs := [(6, recv0)] } (.messageArrival (.linked 0x310 0 0 0x105 [1, 2, 3])) (fun t => t.recvs == [] && homeBytes t 16 0x10080 3 == [1, 2, 3] &&
      spmBytes t 8 8 == [5, 1, 0, 0, 0x10, 3, 3, 0x80] && t.results == []) = true := by decide +kernel
theorem test_messages :
    after (ps sendP) (.msend qu 8 2 1 1) (fun t => t.msgs.all fun e => e.2.payload == [0, 0, 0, 0] && e.2.tag == 5 && e.2.source == 0) = true ∧
    after (ps recvP) (.mrecv qu 8 2 1 1) (fun t => t.recvs.map (fun e => e.2) == [recv0]) = true ∧
    after { ps recvP with queues := [(5, arr0)] } (.mrecv qu 8 2 1 1) (fun t => t.queues == [] && homeBytes t 16 0x10080 4 == [1, 2, 3, 0] && spmBytes t 8 8 == [5, 0, 0, 0, 2, 0, 3, 0x80]) = true ∧
    after { ps probeP with queues := [(5, arr0)] } (.mprobe qu 8 2 1 1) (fun t => t.results.any fun e => e.2.regs.contains (64, 3, 0x80030002)) = true ∧
    happens { slotS with msgs := [(5, msg0)], recvs := [(6, recv0)] } (.messageArrival (.sent 5)) (fun t => t.recvs == [] && homeBytes t 16 0x10080 3 == [1, 2, 3] &&
      t.results.any fun e => e.2.regs == [(64, 2, 0)]) = true ∧
    happens { slotS with msgs := [(5, msg0 9)] } (.messageArrival (.sent 5)) (fun t => t.results.any fun e => e.2.regs == [(64, 2, 3)]) = true := by decide +kernel

/-! ### The matrix engine -/

/-- Register 1 is declared by all 16 lanes; rows of ones in v8 to v23, the M pair in v24, v25 of lane 0 (row 0, column 0 unmasked), an address in v26, v27. -/
def matS (m1 : Word := 0xFFFF) (m0 : Word := 0x00010001) : State :=
  withGroup (fun x => { x with conv := [(1, { declared := 0xFFFF })] })
    (regs (((upTo 8 16).map fun r => (r, 0x3C003C00)) ++ [(24, m0), (25, m1), (26, 0x10000), (27, 0)]))
/-- The state after a matrix word, and after its completion. -/
def issuedMat (i : Instr) (m1 : Word := 0xFFFF) : State :=
  match exec i (at1 (matS m1) i) with
  | .next t => t
  | .fault _ => base
  | .refused _ => base
def doneMat (i : Instr) (p : State → Bool) (m1 : Word := 0xFFFF) (f : State → State := id) : Bool :=
  let t := f (issuedMat i m1)
  match t.mops with
  | [e] => happens t (.matrixOpComplete e.1) p
  | _ => false
/-- The context of an `mma` there, and the signed register. -/
def mx : Ctx := cx (.mma 1 3 8 16 24 false) (matS)
theorem wit_MatrixSetsSignAndIssue :
    ([.mma 1 3 8 16 24 false, .mmaz 1 3 8 16 24 false, .mmas 1 3 8 16 24 false, .mld 1 3 26 24 false, .mst 1 3 26 24 false, .mzero 1 3 24 false, .mcvt 1 3 8 24,
      .mamax 1 3 8 24 false] : List Instr).all (fun i => passes i (matS)) = true ∧
    (∀ l ∈ lanesOf mx.active, signFail mx (matS) 1 l = none) ∧ signFail mx base 1 0 = some 0 ∧
    signFail mx (withGroup fun g => { g with conv := [(1, {})] }) 1 0 = some 0 ∧ signFail mx (withGroup fun g => { g with conv := [(1, { declared := 2 })] }) 1 0 = some 2 ∧
    signFail mx (withGroup fun g => { g with conv := [(1, { declared := 3, signed := 2, addr := 0x10004 })] }) 1 0 = some 3 ∧
    (0xFFFF : BitVec 64) &&& liveMask base 1 &&& ~~~(0x7FFF : BitVec 64) ≠ 0 ∧ (0xFFFF : BitVec 64) &&& liveMask base 1 &&& ~~~(0xFFFF : BitVec 64) = 0 ∧
    (gr base).uchk = false ∧ matValueFail (encode (.mma 1 3 8 16 24 false)) 0x7000FFFF = some (1, 2) ∧ matValueFail (encode (.mma 1 3 8 16 24 false)) 0xFFFF = none ∧
    extentFail 1 (encode (.mma 1 3 8 16 24 false)) 0 = none ∧ extentFail 1 (encode (.mma 1 3 8 16 24 false)) 1 = some (9, 0) ∧
    extentFail 9 (encode (.mmas 1 3 8 16 24 true)) 1 = some (1, 1) ∧ extentFail 9 (encode (.mmas 1 3 8 16 24 true)) 4091 = some (1, 2) ∧
    placeFail (matPlaces base (gr base) (encode (.mld 1 3 26 24 false)) 0x00010001 0 0x10000 0) false = none ∧
    placeFail (matPlaces base (gr base) (encode (.mld 1 3 26 24 false)) 0x00010001 0 0x10000 0) true = none := by decide +kernel
theorem test_matrix_words :
    ((issuedMat (.mma 1 3 8 16 24 false)).mops.length, (laneAt (issuedMat (.mma 1 3 8 16 24 false)) 64).pc) = (1, 0x10004) ∧
    ((issuedMat (.mmas 1 3 8 16 24 false) 0x2000FFFF).mops.length, (laneAt (issuedMat (.mmas 1 3 8 16 24 false) 0x2000FFFF) 64).held) = (0, .none) ∧
    ((issuedMat (.mld 1 3 26 24 false) 0).mops.map fun e => e.2.locs.length) = [1] ∧
    ends0 (matS 0x7000FFFF) (.mma 1 3 8 16 24 false) = true ∧ ends0 base (.mma 1 3 8 16 24 false) = true := by decide +kernel
theorem test_mma_completes :
    doneMat (.mma 1 3 8 16 24 false) (fun t => t.mops == [] && tileWord t 0 0 == 0x41880000 && tileWord t 0 1 == 0) 0xFFFF
      (fun s => setTileWord s 0 0 0x3F800000) = true := by decide +kernel
theorem test_mmaz_and_mzero :
    doneMat (.mmaz 1 3 8 16 24 false) (fun t => tileWord t 0 0 == 0x41000000) 0x00FF = true ∧
    doneMat (.mzero 1 3 24 false) (fun t => tileWord t 0 0 == 0) 0 (fun s => setTileWord s 0 0 9) = true := by decide +kernel
theorem test_macc :
    doneMat (.mld 1 3 26 24 false) (fun t => tileWord t 0 0 == 5 && tileWord t 0 1 == 0) 0 (fun s => { s with l1 := [], mem := [(0x10000, 5)] }) = true ∧
    doneMat (.mst 1 3 26 24 false) (fun t => (t.l1.get? (l1Key 0 0 0x400 16)).any fun y => y.data.rd 0 == 5) 0 (fun s => { setTileWord s 0 0 5 with l1 := [] }) = true ∧
    doneMat (.mamax 1 3 8 24 false) (fun t => vreg t 64 8 == 0x40400000) 0 (fun s => setTileWord s 0 0 0xC0400000) = true ∧
    doneMat (.mcvt 1 3 8 24) (fun t => vreg t 64 8 == 0x3C00) 0 (fun s => setTileWord s 0 0 0x3F800000) = true := by decide +kernel
/-- A sliced product of one pass with all elements masked, signed by lane 0. -/
def slicedOp : MatOp := { gid := 1, team := 1, core := 0, tok := 9, word := encode (.mmas 1 3 8 16 24 false), pc := 0x10000, conv := 1, signed := 1, declared := 1, m0 := 0, m1 := 0x20000001, base := 0, width := 16 }
def slicedS : State := modLane { base with mops := [(5, slicedOp)] } 64 fun y => { y with held := .sign 1 }
theorem test_mmas_completes : happens slicedS (.matrixOpComplete 5) (fun t => (t.lanes.get? 64).any (fun y => y.held == .none && y.pc == 0x10004) && t.side.rd 0 == 0) = true := by decide +kernel
theorem wit_MatrixOperationsComplete :
    [Instr.mma 1 3 8 16 24 false, .mmaz 1 3 8 16 24 false, .mzero 1 3 24 false, .mcvt 1 3 8 24, .mamax 1 3 8 24 false, .mld 1 3 26 24 false,
      .mst 1 3 26 24 false].all (fun i => let t := issuedMat i (if majorOf (encode i) = 0x33 then 0 else 0xFFFF); t.wf && t.mops.all fun e => matReady t e.1 e.2 && e.2.width == 16) = true ∧
    [Instr.mma 1 3 8 16 24 false, .mmaz 1 3 8 16 24 false, .mzero 1 3 24 false, .mcvt 1 3 8 24, .mamax 1 3 8 24 false].map (fun i => (majorOf (encode i), macc (encode i))) =
      [(0x30, 2), (0x31, 2), (0x33, 2), (0x33, 3), (0x33, 4)] ∧
    ((issuedMat (.mld 1 3 26 24 false) 0).mops.map fun e => e.2.locs) = [[(0, some pg0, 0x10000)]] ∧
    ((issuedMat (.mst 1 3 26 24 false) 0).mops.map fun e => e.2.locs) = [[(0, some pg0, 0x10000)]] ∧
    filtered base 0 1 0 0x400 = false ∧ (majorOf slicedOp.word, xT slicedOp.word) = (0x32, false) ∧ slicedS.mops.get? 5 = some slicedOp ∧ matReady slicedS 5 slicedOp = true ∧
    slicedS.wf = true ∧ (slicedS.lanes.get? 64).any (fun y => y.held == .sign 1) = true ∧ mFmt 0x1000FFFF = 1 ∧ unmasked 0 = [] ∧ (unmasked 0x00010001) = [0] ∧ 5 ≤ mFmt 0x5000FFFF := by decide +kernel
theorem wit_FragmentsAndSlicedProducts :
    rowScale [(0, decodeF fmt64 0x4008000000000000), (1, decodeF fmt64 0xBF80000000000000)] = some 2 ∧ notFinite (decodeF fmt64 0x4008000000000000) = false ∧
    base.wf = true ∧ extentFail 4096 (encode (.mma 1 3 8 16 24 false)) 4095 = none := by decide +kernel

/-! ### Commands -/

/-- Bytes with a little-endian field put in place. -/
def putF (b : List Byte) (o n v : Nat) : List Byte := b.take o ++ leBytes n v ++ b.drop (o + n)
/-- 64 bytes of a command with tag 0xAB: opcode, then fields as offset, size and value. -/
def cmdB (op : Nat) (l : List (Nat × Nat × Nat)) : List Byte :=
  l.foldl (fun b f => putF b f.1 f.2.1 f.2.2) (putF (putF (rep 64 0) 0 2 op) 4 4 0xAB)
/-- The command stands in slot 0 of the steward's page and its turn has come. -/
def cmdOf (op : Nat) (l : List (Nat × Nat × Nat)) : Command := { bytes := cmdB op l, seq := 0 }
def cmdS (op : Nat) (l : List (Nat × Nat × Nat)) (s : State := base) : State :=
  withFunc (fun f => { f with slots := [(0, cmdOf op l)], captured := 1, slotbsy := 1, cqcfg := 0x80000000, phase := true, channels := 1 }) s
/-- The command may start. -/
def startsB (op : Nat) (l : List (Nat × Nat × Nat)) (s : State := base) : Bool :=
  let t := cmdS op l s
  (funcAt t 0).slots.get? 0 == some (cmdOf op l) && fAt (cmdOf op l).bytes 0 2 == op && (cmdOf op l).verdict == none && cmdTurn (funcAt t 0) 0 (cmdOf op l)
/-- Host memory holds bytes at an address. -/
def hostMem (a : Nat) (bs : List Byte) (s : State := base) : State := writeHost s a bs
/-- Status and information words of the last record after the event. -/
def answers (s : State) (i : Instr) : Option (Nat × Nat × Nat) :=
  match exec i s with
  | .next t => (funcAt t 0).records.getLast?.map fun r => (r.status, r.info0, r.info1)
  | .fault _ => none
  | .refused _ => none

/-- The page of the steward: enabled, free slots; one record due. -/
def page0 : State := withFunc fun f => { f with cqcfg := 0x80000000, phase := true }
def record0 : Record := ⟨0xAB, 5, 0, 0, 2, 0x11, 0x22, some 7⟩
def owing : State := withFunc (fun f => { f with records := [record0], slotbsy := 4, slots := [(2, cmdOf 5 [])], cqlo := 0x1000 }) page0
theorem wit_CommandPagesCaptureAndAnswer :
    pageOf page0 0 = true ∧ page0.hostDown.contains 1 = false ∧ (cmdB 3 []).length = 64 ∧ fld (funcAt page0 0).cqcfg 31 1 = 1 ∧ (funcAt page0 0).slotbsy.getLsbD 15 = false ∧
    (funcAt owing 0).slotbsy.getLsbD 2 = true ∧ fld (funcAt base 0).cqcfg 31 1 = 0 ∧ cqLocked page0 0 = false ∧ cqLocked owing 0 = true ∧ fld 0x8000000C 0 4 ≤ 12 ∧
    12 < fld 0x8000000D 0 4 ∧ owing.wf = true ∧ linkFor owing (funcAt owing 0) = some 0 ∧ withheld (funcAt owing 0) = false ∧ verdictOf base 0 (cmdB 13 []) = some (1, 0) ∧
    verdictOf base 1 (cmdB 11 []) = some (2, 0) := by decide +kernel
theorem test_command_page :
    happens page0 (.commandSlotWrite 0 0 64 (cmdB 3 [])) (fun t => (funcAt t 0).slotbsy == 2 && ((funcAt t 0).slots.get? 1).isSome) = true ∧
    happens page0 (.commandSlotWrite 0 0 60 (cmdB 3 [])) (fun t => (funcAt t 0).cmderr == 2) = true ∧
    happens owing (.commandSlotWrite 0 0 128 (cmdB 3 [])) (fun t => (funcAt t 0).cmderr == 1) = true ∧
    happens base (.cqcfgWrite 0 1 0x80000FF3) (fun t => (funcAt t 0).cqcfg == 0x80000003 && (funcAt t 0).link == 1 && (funcAt t 0).phase) = true ∧
    happens page0 (.cqheadWrite 0 0x12345) (fun t => (funcAt t 0).cqhead == 0x2345) = true ∧
    happens page0 (.registerWrite 0 0x400 0x12345678) (fun t => pageRead t 0 0x400 == 0x12345000) = true ∧
    happens owing (.completionRecord 0) (fun t => readHost t 0x1000 16 == [0xAB, 0, 0, 0, 5, 0, 0, 0x82, 0x11, 0, 0, 0, 0, 0, 0, 0] && (funcAt t 0).slotbsy == 0 && (funcAt t 0).wpos == 1 &&
      t.msix == [(0, 7, 0)]) = true := by decide +kernel

/-- A mapping of one far page at 0x20000 in arena 1, and of a host page. -/
def mapL (va len src ctl : Nat) : List (Nat × Nat × Nat) := [(0x10, 8, va), (0x18, 8, len), (0x20, 8, src), (0x28, 4, ctl)]
def farL : List (Nat × Nat × Nat) := mapL 0x20000 0x10000 0 0x10008
def hostL : List (Nat × Nat × Nat) := mapL 0x20000 0x10000 0x30000 0x1000C
/-- A new root of 1 MiB. -/
def rootL : List (Nat × Nat × Nat) := [(0x10, 2, 0), (0x18, 8, 0x100000), (0x20, 8, 0x200000), (0x28, 8, 0x100000)]
/-- The steward has no root; or its root has no page. -/
def noRoot (s : State := base) : State := withFunc (fun f => { f with root := none }) s
def bareRoot : State := { base with pages := [] }
theorem wit_MemoryAndConfigurationCommands :
    [startsB 5 farL, startsB 6 farL, startsB 7 rootL (noRoot), startsB 8 [(0x18, 8, 0x10000), (0x28, 2, 0xFFFF)], startsB 10 [(0x18, 8, 0x1000)], startsB 11 [(0x10, 8, 0x1000), (0x18, 4, 1)]].all id = true ∧
    (let s := cmdS 5 farL; rangePages s 0 0x20000 0x10000 = [] ∧ rangePages s 0 0x10000 0x10000 ≠ [] ∧ arenaOwns s 0 1 0x20000 0x10000 = true ∧ inWindows 0x20000 0x10000 = false ∧
      (mapFar 0 0 0x10000 1 true 1 0x20000 0 s).isSome = true ∧ mapFar 0 0 0x10000 1 true 1 0x20000 0 (withFunc (fun f => { f with channels := 0 }) s) = none ∧ s.wf = true ∧
      pagesBusy (splitRange s 0 0x10000 0x10000) 0 (rangePages s 0 0x10000 0x10000) = false) ∧
    funcOfDom base 0 = some 0 ∧ lowestFree base = some 0 ∧ inWindows 0x200000 0x100000 = false ∧ childrenOf bareRoot 1 = [] ∧ rangePages bareRoot 0 0 0x1000000 = [] ∧
    tagInFlight bareRoot [1] = false ∧ childrenOf (withKid kid []) 1 ≠ [] := by decide +kernel
theorem test_memory_map :
    [answers (cmdS 5 farL) (.memMap 0 0), answers (cmdS 5 (mapL 0x10000 0x10000 0 0x10008)) (.memMap 0 0),
      answers (withFunc (fun f => { f with channels := 0 }) (cmdS 5 farL)) (.memMap 0 0), answers (cmdS 5 hostL) (.memMap 0 0)] =
    [some (0, 0, 0), some (6, 0, 0), some (4, 0, 0), some (0, 0, 0)] := by decide +kernel
theorem test_memory_commands :
    [answers (cmdS 7 rootL (noRoot)) (.arenaRoot 0 0), answers (cmdS 7 rootL) (.arenaRoot 0 0)] =
      [some (0, 0, 0), some (6, 0, 0)] ∧
    [answers (cmdS 11 [(0x10, 8, 0x1000), (0x18, 4, 1)] (hostMem 0x1000 (cfgE 9 0 0))) (.cfgCommit 0 0),
      answers (cmdS 11 [(0x10, 8, 0x1000), (0x18, 4, 1)] (hostMem 0x1000 (cfgE 6 0 50))) (.cfgCommit 0 0)] = [some (5, 0, 1), some (0, 0, 0)] := by decide +kernel
theorem test_memory_effects :
    happens (cmdS 5 hostL) (.memMap 0 0) (fun t => t.pages.get? (pageKey 0 0x20000) == some ⟨0x10000, Config.paHost + 0x30000, 0, 1, 0, true⟩) = true ∧
    happens (cmdS 6 (mapL 0x10000 0x10000 0 0)) (.memUnmap 0 0) (fun t => t.pages == [] && t.l1 == []) = true ∧
    happens (cmdS 8 [(0x10, 8, 0x5000), (0x18, 8, 0x10000), (0x20, 8, 6), (0x28, 2, 0xFFFF)]) (.traceSet 0 0) (fun t => (funcAt t 0).traceSize == 0x10000 && (funcAt t 0).traceMask == 6) = true ∧
    happens (cmdS 10 [(0x10, 2, 0xFFFF), (0x18, 8, 0x1000)]) (.vfQuery 0 0) (fun t => readHost t 0x1000 8 == [2, 0, 0, 0, 2, 0, 0, 0]) = true := by decide +kernel

/-- A smallest module image: one text section of 8 bytes, one kernel of window 16. -/
def image : List Byte :=
  (leBytes 4 0x31494D4B ++ leBytes 2 1 ++ leBytes 2 1 ++ leBytes 2 0 ++ leBytes 2 1 ++ leBytes 4 0 ++ leBytes 4 0 ++ leBytes 4 2 ++ leBytes 8 64 ++ leBytes 8 96 ++ leBytes 8 96 ++
    leBytes 8 160 ++ leBytes 8 160) ++
  (leBytes 4 0 ++ leBytes 1 0 ++ leBytes 1 2 ++ leBytes 2 0xFFFF ++ leBytes 8 8 ++ leBytes 8 168 ++ leBytes 8 8) ++
  (leBytes 4 0x4B480100 ++ leBytes 4 (16 * 2 ^ 23) ++ rep 56 0) ++ ([0x61, 0] ++ rep 6 0) ++ [3, 0, 0, 0x14, 0, 0, 0, 0]
/-- A resident graph of one kernel node, and of one join node; a run of it. -/
def kNode : Node := { kind := 0, succs := [], kernel := 0, groups := 2, prio := 1, args := [1, 2, 3, 4, 5, 6, 7, 8] }
def withGraph (ns : List Node) (s : State := base) : State :=
  withFunc (fun f => { f with modules := [(0, [0x10000])] }) { s with graphs := [(0, ⟨0, ns⟩)] }
def run0 (ns : List NodeState) : Run := { tag := 0xAB, slot := 0, vec := none, nodes := ns }
def withRun (ns : List Node) (rs : List NodeState) (s : State := base) : State := { withGraph ns s with runs := [(0, run0 rs)] }
/-- A graph block of one join node. -/
def graphB : List Byte := leBytes 4 0x4852474B ++ leBytes 4 1 ++ leBytes 4 0 ++ leBytes 4 0 ++ leBytes 4 0x40000000 ++ rep 44 0 ++ rep 16 0xFF
def loadL (n : Nat) : List (Nat × Nat × Nat) := [(0x10, 8, 0x1000), (0x18, 8, n)]
def gLoadL : List (Nat × Nat × Nat) := [(0x10, 8, 0x1000), (0x18, 4, 80)]
/-- Function 1 with domain 1 and a group of it on core 0. -/
def tenant (s : State := base) : State := { s with funcs := s.funcs.put 1 { dom := some 1, cores := 1, grace := 100 } }
theorem wit_ModuleGraphAndFunctionCommands :
    [startsB 1 (loadL 176), startsB 2 gLoadL, startsB 3 [(0x10, 2, 0)], startsB 4 [(0x10, 2, 0)], startsB 4 [(0x10, 2, 0), (0x12, 2, 1)], startsB 9 [(0x10, 2, 1)], startsB 9 [(0x10, 2, 1), (0x12, 2, 1)],
      startsB 12 [(0x10, 2, 1)]].all id = true ∧ image.length = 176 ∧
    (match hostRead (cmdS 1 (loadL 176) (hostMem 0x1000 image)) 0x1000 176 with | .ok b => b == image | .error _ => false) = true ∧
    (match hostRead { base with poison := [(Config.paHost + 0x1000) / 64] } 0x1000 176 with | .ok _ => 0 | .error a => a) = 0x1000 ∧
    (match checkImage image with | .ok h => h.sections | .error _ => 0) = 1 ∧ (match checkImage (image.drop 1) with | .ok _ => (0, 0, 0) | .error e => e) = (5, 0xFFFF, 0) ∧
    graphFail (withGraph []) 0 graphB = none ∧ graphFail base 0 graphB = some 0xFFFF ∧ ((upTo 0 64).find? fun k => (base.graphs.get? k).isNone) = some 0 ∧
    (withGraph [kNode]).graphs.get? 0 = some ⟨0, [kNode]⟩ ∧ (withRun [kNode] [.running]).runs.get? 0 = some (run0 [.running]) ∧ base.runs.get? 0 = none ∧
    base.preempts.sorted = true ∧ base.arenas.sorted = true ∧ (funcAt base 0).root = some 1 ∧ (arenaAt base 1).depth = 0 ∧
    childrenOf base 1 = [] := by decide +kernel
/-- A root with two children: what RESET.VF gives back (R148), the padding below the lower child staying charged. -/
def rooted : State :=
  let kid (q b e : Nat) : Arena := { state := .live, gen := 2, dom := 0, depth := 1, parent := 1, quota := q, base := b, rangeEnd := e, bump := b }
  { base with
    arenas := ((base.arenas.put 1 { arenaAt base 1 with base := 0, charge := 0x50064, bump := 0x60000 }).put 2 (kid 0x20000 0x10000 0x30000)).put 3
      (kid 0x30000 0x30000 0x60000) }
theorem test_resetReturnsQuota :
    (let t := resetClear rooted 0 0
     (arenaAt t 1).charge = 0x64 ∧ (arenaAt t 1).bump = 0x10000 ∧ (arenaAt t 3).gen = 3 ∧ (arenaAt t 2).state = .free) := by decide +kernel
theorem test_module_and_graph_commands :
    [answers (cmdS 1 (loadL 176) (hostMem 0x1000 image)) (.modLoad 0 0), answers (cmdS 1 (loadL 176)) (.modLoad 0 0), answers (cmdS 2 gLoadL (withGraph [] (hostMem 0x1000 graphB))) (.graphLoad 0 0),
      answers (cmdS 3 [(0x10, 2, 0)]) (.graphKick 0 0), answers (cmdS 3 [(0x10, 2, 0)] (withRun [kNode] [.running])) (.graphKick 0 0), answers (cmdS 4 [(0x10, 2, 0)]) (.graphStopDrain 0 0),
      answers (cmdS 4 [(0x10, 2, 0), (0x12, 2, 1)]) (.graphStopAbort 0 0), answers (cmdS 9 [(0x10, 2, 1)] (tenant)) (.vfHalt 0 0),
      answers (cmdS 9 [(0x10, 2, 1), (0x12, 2, 1)] (tenant)) (.vfResume 0 0)] =
    [some (0, 0, 0), some (5, 0xFFFF, 0), some (0, 1, 0), some (3, 0x10, 0), some (6, 0, 0), some (0, 0, 0), some (0, 0, 0), some (0, 0, 0), some (0, 0, 0)] ∧
    happens (cmdS 1 (loadL 176) (hostMem 0x1000 image)) (.modLoad 0 0) (fun t => (funcAt t 0).modules == [(0, [0x20000])] && (headerAt t 0 0x20000).any (fun h => h.window == 16)) = true ∧
    happens (cmdS 3 [(0x10, 2, 0)] (withGraph [kNode])) (.graphKick 0 0) (fun t => t.runs == [(0, run0 [.unresolved])] && (funcAt t 0).records.length == 1) = true ∧
    happens (cmdS 4 [(0x10, 2, 0)] (withRun [kNode] [.running])) (.graphStopDrain 0 0) (fun t => (t.runs.get? 0).any (·.stopped) && (funcAt t 0).waiting.length == 1) = true ∧
    happens (cmdS 12 [(0x10, 2, 1)] (tenant)) (.resetVf 0 0) (fun t => (funcAt t 1).resetting && (funcAt t 0).waiting.length == 1) = true := by decide +kernel

/-! ### Graphs, grids, pre-emption and retirement -/

/-- Nodes of each kind: a join, a condition over two joins, a while with a body of one join, and a copy. -/
def jNode (succs : List Nat := []) : Node := { kind := 4, succs := succs }
def cNode (va : Nat) : Node := { kind := 2, succs := [1, 2], cond := va }
def wNode (va cap : Nat) : Node := { kind := 3, succs := [], cap := cap, cond := va, entry := 1, exit := 1 }
def yNode (src dst n : Nat) : Node := { kind := 1, succs := [], src := src, dst := dst, bytes := n }
def condG (va : Nat) : List Node := [cNode va, jNode, jNode]
def whileG (va cap : Nat) : List Node := [wNode va cap, jNode]
def fresh3 : List NodeState := [.unresolved, .unresolved, .unresolved]
def canStart (s : State) (kind : Nat) : Bool := (startable s 0 0 0 kind).isSome
def word1 (s : State) (va : Nat) : Option Nat :=
  match walkerRead s 0 va with
  | .ok v => some v
  | .error _ => none
/-- Home memory holds 1 in the word at 0x10040. -/
def one40 : State := setHomeByte base 16 0x10040 1
/-- The run after an event, of graph 0 of function 0. -/
def runIs (s : State) (i : Instr) (p : Run → Bool) : Bool := happens s i fun t => (t.runs.get? 0).any p
theorem wit_NodesOfARunTakeTheirCourse :
    [canStart (withRun [jNode] [.unresolved]) 4, canStart (withRun (condG 0x10040) fresh3) 2, canStart (withRun (whileG 0x10040 3) [.unresolved, .unresolved] one40) 3,
      canStart (withRun [yNode 0x10040 0x10080 8] [.unresolved]) 1, canStart (withRun [kNode] [.unresolved]) 0].all id = true ∧
    word1 one40 0x10040 = some 1 ∧ word1 base 0x10040 = some 0 ∧ word1 base 0x50000 = none ∧ (run0 [.unresolved]).iters.sorted = true ∧
    (withRun (whileG 0x10040 3) [.running, .completed]).graphs.get? 0 = some ⟨0, whileG 0x10040 3⟩ ∧
    (bodyOf (whileG 0x10040 3) 0).all (run0 [.running, .completed]).done = true ∧ (run0 [.running, .completed]).open = true ∧
    (match domRead base 0 0x10040 3 8 with | .ok b => b.length | .error _ => 0) = 8 ∧ (match domRead base 0 0x50000 3 8 with | .ok _ => 0 | .error e => e.cls) ≠ 0 ∧
    (copyOut base 0 [] 3 0x10080 (rep 8 1)).2.isNone = true ∧ base.wf = true ∧ (match translate base 0 0x10080 true with | .ok (pa, p) => arenaCheck base p 0x10080 true == none && pa == 0x10080 | .error _ => false) = true ∧
    (headerAt base 0 0x10000).isSome = true ∧ (headerAt inGrid 0 0x10000).any (·.coop) = true ∧ (headerAt inGrid 0 0x10000).all (fun h => coopTooBig inGrid 0 h 1000 && !coopTooBig inGrid 0 h 2) = true := by
  decide +kernel
theorem test_nodes :
    runIs (withRun [jNode] [.unresolved]) (.joinNode 0 0 0) (fun r => r.nodes == [.completed]) = true ∧
    runIs (withRun (condG 0x10040) fresh3 one40) (.conditionNode 0 0 0) (fun r => r.nodes == [.completed, .unresolved, .unresolved] && r.cuts == [(0, 1)]) = true ∧
    runIs (withRun (condG 0x50000) fresh3) (.conditionNode 0 0 0) (fun r => r.failNode == 0) = true ∧
    runIs (withRun (whileG 0x10040 3) [.unresolved, .unresolved] one40) (.whileNode 0 0 0) (fun r => r.nodes == [.running, .unresolved] && r.iters == [(0, 1)]) = true ∧
    runIs (withRun (whileG 0x10040 3) [.unresolved, .unresolved]) (.whileNode 0 0 0) (fun r => r.nodes == [.completed, .unresolved] && r.iters == []) = true ∧
    runIs (withRun (whileG 0x10040 3) [.running, .completed] one40) (.whileBodyExit 0 0 0) (fun r => r.nodes == [.running, .unresolved]) = true ∧
    runIs (withRun (whileG 0x10040 0) [.running, .completed] one40) (.whileBodyExit 0 0 0) (fun r => r.nodes == [.completed, .completed] && r.capped) = true ∧
    runIs (withRun [yNode 0x10040 0x10080 8] [.unresolved]) (.copyNodeStart 0 0 0) (fun r => r.nodes == [.running]) = true ∧
    happens (withRun [yNode 0x10040 0x10080 8] [.unresolved] one40) (.copyNodeStart 0 0 0) (fun t => engineOwned t 0x402 &&
      happens t (.copyNodeComplete 0 0 0) fun u => homeByte u 16 0x10080 == 1 && !engineOwned u 0x402) = true ∧
    happens (withRun [yNode 0x50000 0x10080 8] [.unresolved]) (.copyNodeStart 0 0 0) (fun t =>
      runIs t (.copyNodeComplete 0 0 0) fun r => r.nodes == [.completed]) = true ∧
    happens (withRun [kNode] [.unresolved]) (.kernelNodeStart 0 0 0) (fun t => t.grids.any fun e => e.2.teams == 2 && e.2.kentry == 0x10000 && e.2.args == kNode.args) = true ∧
    runIs (withRun [{ kNode with groups := 1000 }] [.unresolved] inGrid) (.kernelNodeStart 0 0 0) (fun r => r.notFit && r.failNode == 0) = true := by decide +kernel

/-- Grid 7 of eight teams of one group; with the team indices 0 to 3 granted to die 0. -/
def g7 : Grid :=
  { func := 0, dom := 0, graph := 0, node := 0, kentry := bootVa, groups := 8, teams := 8, teamg := 0, coop := false, prio := 1, args := [5, 6], dies := [0], leader := 0, deputy := 0 }
def gridS (f : Grid → Grid) (s : State := base) : State := { s with grids := [(7, f g7)] }
def granted : Grid → Grid := fun g => { g with next := 4, mirror := 4, grants := [⟨0, 4, 0, []⟩] }
def waitingBin : Bin := { bin0 3 with waiting := some [fib, fib] }
theorem wit_GridsAndBinsPlaceTheirTeams :
    claimRoom (gridS id) g7 0 16 = 16 ∧ coopNow (gridS id) g7 = true ∧ unstarted g7 0 = [] ∧ (unstarted (granted g7) 0).contains 2 = true ∧ (placeGridTeam (gridS granted) 7 (granted g7) 2 0 [1]).isSome = true ∧
    (placeTeam base 0 0 0 1 bootHeader 3 none [(1, ⟨0, 3, [fib]⟩)]).isSome = true ∧ base.wf = true ∧ fib.live = [] ∧ (headerAt (withBin waitingBin) 0 0x10000).isSome = true ∧
    binDie base 0 0 = 0 ∧ mayUseTeam base 0 0 false false = true ∧ pairTeam bootHeader = false ∧ waitingBin.fibres ≠ [] ∧ waitingBin.fibres.length < bootHeader.width := by decide +kernel
theorem test_grids_and_bins :
    happens (gridS id) (.gridClaim 7 0 4) (fun t => (t.grids.get? 7).any fun g => g.claims == [(0, 4)]) = true ∧
    happens (gridS fun g => { g with claims := [(0, 4)], again := [6], next := 7 }) (.claimGrant 7) (fun t => (t.grids.get? 7).any fun g => g.claims == [] && g.next == 8 && unstarted g 0 == [6, 7]) = true ∧
    happens (gridS granted) (.teamPlacement 7 2 0 [1]) (fun t => t.groups.any (fun e => e.2.part == 1 && e.2.gridix == 2) && vreg t (lk 3 0) 1 == 6 && (t.grids.get? 7).any fun g => unstarted g 0 == [0, 1, 3]) = true ∧
    happens (withBin waitingBin) (.binGroupPlacement 0 0 0 1) (fun t => t.groups.length == 2 && (t.bins.get? 0).any fun b => b.waiting == none && b.fibres.length == 3) = true := by decide +kernel

/-- Core 1 is a margin core of the steward; it is lent to function 1, which has a group there, while the steward's grid waits. -/
def marginS : State := withFunc fun f => { f with cores := 1, margin := 2 }
def lent (here : Bool) : State :=
  let s := gridS granted (tenant marginS)
  { s with loans := [(1, 1)], groups := if here then s.groups.put 2 { gr s with team := 2, core := 1, stamp := 1, func := 1 } else s.groups }
/-- A request whose window has ended, and the state with team 1 saved. -/
def asked : State := { base with preempts := [(9, ⟨0, [0], [1], 0, 3⟩)] }
def savedS : State := saveTeam base 1
def img1 : Image := (savedS.images.get? 2).getD { team := 0, teamRec := tm, groups := [], wholeSpm := false, ranges := [], spm := [], tiles := [], side := [], order := 0 }
/-- A pool of the steward and function 1 on the same cores, both with groups. -/
def pool (run0 : Bool) (b : Nat) : State :=
  let s := withFunc (fun f => { f with sliced := true, running := run0, budget := b }) base
  { s with funcs := s.funcs.put 1 { dom := some 1, cores := 3, grace := 100, sliced := true, budget := 2 ^ 40 + 9 }, groups := s.groups.put 2 { gr s with team := 2, core := 1, stamp := 1, func := 1 } }
theorem wit_LoansPreemptionAndPools :
    marginOwner marginS 1 = some 0 ∧ domOn marginS 0 1 = false ∧ waitingWork marginS 0 0 = false ∧ marginS.loans.get? 1 = none ∧ marginS.idleSince.get? 1 = none ∧
    waitingWork (lent true) 0 0 = true ∧ (residents (lent true) 1).contains 1 = true ∧ (residents (lent false) 1).contains 1 = false ∧ funcOfDom base 0 = some 0 ∧
    unsavedTeams asked ⟨0, [0], [1], 0, 3⟩ = [1] ∧ teamDrained asked tm = true ∧ savedS.images.get? 2 = some img1 ∧
    (savedS.teams.get? 1).any (fun t => mayRestore savedS 2 0 [0] img1 t && (restoreGroups 0 (restoreBase savedS 2 0 img1 (restoredTeam t 0 [(0, 0)] [0])) (img1.liveOnes.zip [0])).isSome) = true ∧
    teamBanks savedS 0 1 = some [(0, 0)] ∧ teamTiles savedS 0 0 1 false = some [0] ∧
    poolOf (pool false 5) 0 = [0, 1] ∧ poolChoice (pool false 5) [0, 1] = some 1 ∧ ([0, 1].find? fun f => (funcAt (pool false 5) f).running) = none ∧
    ([0, 1].find? fun f => (funcAt (pool true 5) f).running) = some 0 ∧ poolChoice (pool true 5) [0, 1] = some 1 := by decide +kernel
theorem test_loans_and_preemption :
    happens marginS (.marginCoreIdle 1) (fun t => t.available == [1]) = true ∧
    happens (lent true) (.loanRevocation 1) (fun t => t.preempts.any fun e => e.2.dom == 1 && e.2.groups == [2]) = true ∧
    happens (lent false) (.loanRevocation 1) (fun t => t.loans == []) = true ∧
    happens base (.preemptRequest 0 [0] 50) (fun t => t.preempts == [(2, ⟨0, [0], [1], 35000, 3⟩)]) = true ∧
    happens asked (.graceWindowEnd 9 0) (fun t => t.groups == [] && t.images.length == 1) = true ∧
    happens savedS (.contextRestore 2 0 [0]) (fun t => t.images == [] && (t.lanes.get? 64).any (fun y => y.pc == 0x10000) && (t.teams.get? 1).any (fun x => x.saved == none)) = true ∧
    happens (pool false 5) (.poolDecisionPoint 0) (fun t => (funcAt t 1).running) = true ∧
    happens (pool true 5) (.poolDecisionPoint 0) (fun t => (funcAt t 1).running && !(funcAt t 0).running && t.preempts.any fun e => e.2.groups == [1]) = true := by decide +kernel

/-- Team 1 has retired; as the one team of grid 7. -/
def withTeam (f : Team → Team) (s : State := base) : State := { s with teams := s.teams.put 1 (f tm) }
def overS : State := withTeam (fun t => { t with retired := true, grid := some 7 }) (gridS (fun g => { g with groups := 1, teams := 1, next := 1, placedTeams := [1] }) (withRun [kNode] [.running]))
/-- Its lanes at a PC with no mapping; its lanes have waited. -/
def lostS : State := { base with tlb := [], lanes := base.lanes.map fun (e : Nat × Lane) => (e.1, { e.2 with pc := 0x50000 }) }
def waited : State := { base with lanes := base.lanes.map fun (e : Nat × Lane) => (e.1, { e.2 with wait := 5000 }) }
def fetches (s : State) (pc : Nat) : Nat :=
  match fetch s (gr s) pc with
  | .word _ => 0
  | .miss => 1
  | .fail _ => 2
theorem wit_RetirementFetchAndFairness :
    teamIdle base 1 = true ∧ tm.banks ≠ [] ∧ teamsOver overS ((overS.grids.get? 7).getD g7) = true ∧ gridDrained overS 7 [1] = true ∧
    fetches { base with l1 := [] } 0x10000 = 1 ∧ fetches lostS 0x50000 = 2 ∧ groupRuns lostS 1 (gr lostS) = true ∧ ((laneSets lostS 1).find? fun e => e.1.toNat == 0x50000).isSome = true ∧ ((laneSets base 1).find? fun e => e.1.toNat == 0x10000).isSome = true ∧ groupRuns base 1 (gr base) = true ∧
    engineOwned base 0x400 = false ∧ starved waited 1 (gr waited) = true ∧ starved base 1 (gr base) = false ∧ (gr waited).batch = 0 := by decide +kernel
theorem test_retirement_and_fetch :
    happens ({ withTeam (fun t => { t with retired := true }) with spm := [(3, 7)] }) (.teamResourcesFree 1) (fun t => t.teams == [] && t.spm.rd 3 == 0) = true ∧
    happens overS (.teamResourcesFree 1) (fun t => (t.teams.get? 1).any fun x => x.banks == [] && x.tbase == []) = true ∧
    happens overS (.gridCompletion 7) (fun t => t.grids == [] && (t.runs.get? 0).any fun r => r.nodes == [.completed]) = true ∧
    happens { slotS with l1 := [] } (.instructionFetchFill 1 0x10000) (fun t => fetches t 0x10000 == 0) = true ∧
    happens lostS (.instructionFetchFill 1 0x50000) (fun t => t.lanes == []) = true ∧
    happens waited (.invertedBatchStart 1) (fun t => (gr t).batch == 33) = true ∧
    happens (withGroup fun g => { g with batch := 5, lastIssue := 9 }) (.invertedBatchEnd 1) (fun t => (gr t).batch == 0) = true ∧
    happens (withGroup (fun g => { g with batch := 1 }) waited) (.invertedBatchEnd 1) (fun t => (gr t).batch == 0) = true := by decide +kernel

/-! ### The module -/

/-- A running module with a record; a record copy whose fields are in range. -/
def rec0 : ConfigRecord := { counter := 7, modl := 0, fairness := 512, power := 2800, retired := 0, links := [], bytes := [] }
def upS : State := { base with record := some rec0 }
def flash (ctr : Nat) : List Byte :=
  leBytes 4 0x5243534B ++ leBytes 4 ctr ++ [0, 0] ++ leBytes 2 512 ++ leBytes 4 2000 ++ rep 16 0 ++ rep 0xDE0 0
def flit (t : List Byte) : List Byte := let a := t ++ rep (62 - t.length) 0; a ++ leBytes 2 (Config.crc16 a).toNat
def poweredS : State := { State.reset with pwrOk := true }
theorem wit_BringUpSidebandAndLinks :
    State.reset.pwrOk = false ∧ poweredS.pwrOk = true ∧ chooseRecord poweredS = none ∧ poweredS.wf = true ∧ upS.record = some rec0 ∧ (rep 32 0 : List Byte).length = 32 ∧
    base.linksDown = [] ∧ base.hostDown = [] ∧ base.up = true ∧ ({ base with hostDown := [1] } : State).hostDown.contains 1 = true := by decide +kernel
theorem flash_valid (h : Config.signatureOk (flash 7) = true) : copyValid 3 (flash 7) = true := by
  have e : (flash 7).length = 0xE00 ∧ fAt (flash 7) 0 4 = 0x5243534B ∧ 3 ≤ fAt (flash 7) 4 4 ∧ fAt (flash 7) 8 1 ≤ 15 ∧ 128 ≤ fAt (flash 7) 10 2 ∧ fAt (flash 7) 10 2 ≤ 4096 ∧
      1000 ≤ fAt (flash 7) 12 4 ∧ fAt (flash 7) 12 4 ≤ 2800 ∧ zeroAt (flash 7) [(0x420, 992)] = true := by decide +kernel
  simp [copyValid, h, e]
theorem wit_bring_up_with_a_record (h : Config.signatureOk (flash 7) = true) :
    ∃ r, chooseRecord { poweredS with flashA := flash 7, flashCtr := 3 } = some r := by
  have : copyValid 3 [] = false := by decide
  exact ⟨recordOf (flash 7), by simp [chooseRecord, poweredS, State.reset, flash_valid h, this]⟩
theorem rep_length (n : Nat) (x : Byte) : (rep n x).length = n := by
  induction n with
  | zero => rfl
  | succ n ih => simp [rep, ih]
theorem wit_flit (t : List Byte) (h : t.length ≤ 62) :
    (flit t).length = 64 ∧ Config.crc16 ((flit t).take 62) = BitVec.ofNat 16 (fAt (flit t) 62 2) := by
  have e : (t ++ rep (62 - t.length) 0).length = 62 := by rw [List.length_append, rep_length]; omega
  generalize hu : t ++ rep (62 - t.length) 0 = u at e
  have d : flit t = u ++ leBytes 2 (Config.crc16 u).toNat := by subst hu; rfl
  have hl : (Config.crc16 u).toNat < 65536 := (Config.crc16 u).isLt
  refine ⟨by simp [d, e, leBytes], ?_⟩
  rw [d, fAt, ← e, List.take_left, List.drop_left]
  apply BitVec.eq_of_toNat_eq
  simp [leBytes, leNat]
  omega
theorem wit_flit_sequence : fAt (flit [0]) 0 1 = 0 ∧ fAt (flit [1]) 0 1 ≠ 0 := by
  have : ∀ b : Byte, fAt (flit [b]) 0 1 = b.toNat := fun b => by simp [flit, fAt, leNat]
  simp [this]
theorem test_bring_up :
    happens State.reset .pwrOk (fun t => t.pwrOk) = true ∧ happens poweredS .moduleReset (fun t => t.up && t.dieDown == [0, 1, 2, 3]) = true ∧
    happens upS (.sidebandRead .recordCounter) (fun t => t.sbOut == [7, 0, 0, 0]) = true ∧ happens upS (.sidebandRead (.dieState 2)) (fun t => t.sbOut == [0]) = true ∧
    happens base (.linkDown 5) (fun t => t.linksDown == [5]) = true ∧ happens base (.hostLinkDown 1) (fun t => t.hostDown == [1]) = true ∧
    happens { base with hostDown := [0, 1] } (.hostLinkUp 1) (fun t => t.hostDown == [0]) = true := by decide +kernel

/-- A slice of die 0 that met errors; a slice retired with its stub. -/
def errS (n : Nat) : State := { base with softErr := [(5, rep n 0)] }
def retired5 (stub : Bool) : State := { base with smap := [(0, { map := setAt (upTo 0 32) 5 0, epoch := 1, retired := [5], stubs := if stub then [5] else [] })] }
def g2 : Grid := { granted g7 with dies := [0, 1], deputy := 1, mirror := 4 }
theorem wit_ErrorsPowerAndFailedDies :
    (retireSlice (smapAt base 0) 5).isSome = true ∧ (smapAt base 0).map.getD 5 0 = 5 ∧ (recentErrors (errS 3) 5).length = 3 ∧ (recentErrors (errS 1) 5).length < 2 ∧
    (smapAt (retired5 false) 0).retired.contains 5 = true ∧ (smapAt (retired5 false) 0).stubs.contains 5 = false ∧ (smapAt (retired5 true) 0).stubs.contains 5 = true ∧
    base.up = true ∧ laneLive base 64 = true ∧ (base.pages.get? (pageKey 0 0x10000)).isSome = true ∧ base.record = none ∧ dieRequests base 0 = false ∧ sliceHome base 0x10000 = (0, 1) ∧ base.dieDown = [] ∧ g2.dies.filter (fun x => !([0] : List Nat).contains x) ≠ [] ∧ g2.leader = 0 ∧ g2.elected = none ∧
    (unstarted g2 0).contains 2 = true ∧ ({ base with below := [(1, 0)], wall := 700000 } : State).below.get? 1 = some 0 := by decide +kernel
theorem test_errors_and_dies :
    happens (errS 3) (.sliceMapInstall 0 5 true) (fun t => (smapAt t 0).map.getD 5 9 == 0 && (smapAt t 0).epoch == 1) = true ∧
    happens (retired5 false) (.sliceMapInstall 0 5 false) (fun t => (smapAt t 0).map == upTo 0 32 && (smapAt t 0).epoch == 2) = true ∧
    happens (retired5 true) (.forwardingStubRetire 0 5) (fun t => (smapAt t 0).stubs == []) = true ∧
    happens base (.backgroundScrub 0x400 .uncorrectable) (fun t => t.poison == [0x400]) = true ∧
    happens base (.backgroundScrub 0 (.register 64 4)) (fun t => t.poisonRegs == [64 * 128 + 4] &&
      after t (.iaddImm q0 4 1) (fun u => (u.lanes.get? 64).isNone && (u.lanes.get? 65).isSome)) = true ∧
    happens base (.backgroundScrub 0 (.entry 0 0x10000)) (fun t => match translate t 0 0x10010 false with
      | .error e => e == ⟨20, 2, 0x10010⟩
      | .ok _ => false) = true ∧
    happens { withKid kid [(8, 2)] with up := true } (.backgroundScrub ((descRegion base).1 / 64 + 2) .uncorrectable) (fun t => descPoisoned t 2 && !descPoisoned t 1 &&
      after t (.aqry qu 8 1) (fun u => (u.lanes.get? 64).isNone)) = true ∧
    happens base (.dieFailure 0) (fun t => t.dieDown == [0] && t.l1 == [] && t.teams == []) = true ∧
    (gridAfter [0] 0 0 g2).leader = 1 ∧ (gridAfter [0] 0 0 g2).again = [0, 1, 2, 3] ∧ (abandon g2).lostTeams = 8 ∧
    happens base (.powerMeasurement 0 1 1900000) (fun t => levelAt t 0 1 == 1) = true ∧ happens base (.thermalLimit 1 110) (fun t => levelAt t 0 1 == 1) = true ∧
    happens base (.thermalLimit 1 121) (fun t => t.dieDown == [1]) = true := by decide +kernel

/-! ### Entry, encodings and steps -/

/-- A group whose kernel has uniform checking on. -/
def checked : State := withGroup (fun g => { g with uchk := true }) (regs [(4, 1)])
/-- A group whose window has 16 registers. -/
def narrow : State := withGroup fun g => { g with window := 16 }
def uni : Instr := .iadd ⟨true, false, 0⟩ 2 4 6
theorem wit_ChecksRaiseBeforeAnyEffect :
    (.iadd q0 62 63 80 : Instr).isWord = true ∧ isHint (encode (.iadd q0 2 20 4)) = false ∧ (checkWord narrow (cx (.iadd q0 2 20 4) narrow)).isSome = true ∧
    (coverFor (gr narrow) (cx (.iadd q0 2 20 4)).h).isNone = true ∧ checkWord base (cx (.iadd ⟨false, false, 2⟩ 2 4 6)) = none ∧ guardSet (cx (.iadd ⟨false, false, 2⟩ 2 4 6)) = 0 ∧
    checkWord checked (cx uni checked) = none ∧ uniformBad (cx uni checked) = some 0xFFFF ∧ passes (.illegalEncoding 0x20010408) = true := by decide +kernel
theorem test_checks :
    ends0 narrow (.iadd q0 2 20 4) = true ∧ ends0 checked uni = true ∧ after base (.iadd ⟨false, false, 2⟩ 2 4 6) (fun t => t.lanes.length == 16 && vreg t 64 2 == 0) = true ∧
    ends0 base (.illegalEncoding 0x64000000) = true := by decide +kernel
theorem wit_codec :
    (.iadd q0 2 4 6 : Instr).isWord = true ∧ (.iadd q0 2 4 6 : Instr).wf = true ∧ staticSub 0x20010408 = none := by decide +kernel

/-- A placed word and the vote that finds it; the state's next turn is another event, or time. -/
def placed (w : Nat) : State := State.reset.withFetchWord 32 w
theorem wit_StepRunsTheDecodedWord :
    (placed 0x20010408).agenda = [.issue 0 0] ∧ voteOf (placed 0x20010408) 0 0 = some ⟨1, 0xFFFF, 0x10000, [], 0x20010408, 0⟩ ∧
    ({ base with agenda := [.event (.linkDown 5)] } : State).agenda = .event (.linkDown 5) :: [] ∧ ({ base with agenda := [.tick] } : State).agenda = .tick :: [] ∧ (nextIssue base).map (fun e => (e.1, e.2.1)) = some (0, 0) ∧ nextIssue State.reset = none := by decide +kernel
theorem test_step :
    (match step (placed 0x20010408) with
     | .next t => (t.lanes.get? 64).any (·.pc == 0x10004)
     | .fault _ => false
     | .refused _ => false) = true ∧
    (match step { State.reset with agenda := [.tick] } with
     | .next t => t.wall == 1
     | .fault _ => false
     | .refused _ => false) = true := by decide +kernel
theorem wit_VoteChoosesTheFirstReadySet :
    (voteOf base 0 0).isSome = true ∧ (gr base).batch ≤ 1 ∧ base.ports.get? 0 = none := by decide +kernel
theorem wit_invariants : State.reset.wf = true ∧ Memory.wf base.mem = true ∧ base.wf = true := by decide +kernel

/-- Every lane traps divide-by-zero; an FPX at the word of `frcp` waits in lane 0 until the result is due. -/
def trapping : State := (upTo 64 16).foldl (fun t k => modLane t k fun y => { y with fpstat := 0x200 }) base
theorem wit_trapsSpecial : passes (.frcp q0 2 4) trapping = true ∧ fpTrap 0x200 (frcpF 0).2 = some 1 := by decide +kernel
theorem test_special_trap :
    after trapping (.frcp q0 2 4) (fun t => t.results.any (fun e => e.2.traps.contains 64 && (match exec (.dependencySlotClear e.1) t with
      | .next u => u.results == [] && (u.lanes.get? 64).isNone
      | .fault _ => false
      | .refused _ => false)) && (t.lanes.get? 64).any (·.pc == 0x10000)) = true := by decide +kernel
/-- R256: a uniform `cvt` to 8 bits leaves each lane its own other bits. -/
theorem test_cvt_uniform_narrow :
    after (setVreg (setVreg (all [(4, 0x3F800000)]) 64 2 0xAAAA0000) 65 2 0xBBBB0000) (.cvt qu 2 4 7 1 false)
      (fun t => vreg t 64 2 == 0xAAAA0001 && vreg t 65 2 == 0xBBBB0001) = true := by decide +kernel

/-! ### Reduction flits: the values of R399's example; 2^20 escapes -/

theorem test_reductionFlit :
    packFlit [0x4008000000000000, 0x4014000000000000, 0xBFE8000000000000, 0x4130000000000000, 0, 0, 0, 0] =
      (1022 + 2 ^ 11 * 0xF8 + 2 ^ 19 * (2 * 2 ^ 52 + 2 ^ 51) + 2 ^ 76 * (3 * 2 ^ 52 + 2 ^ 50) + 2 ^ 133 * (2 ^ 56 + 2 ^ 51), [[0x4130000000000000, 0, 0, 0, 0]]) := by
  decide +kernel

/-! ### Further hypotheses met -/

/-- The accesses of a word at v4, v5 go out: translated, behind none of its lanes, outside a transaction, at places that pass and hold no poison. -/
def goes (i : Instr) (s : State) (n : Nat) (w win : Bool) : Bool :=
  let x := cx i s
  passes i s && unwalked s x.gid x.g (x.alignedVas 4 n) == [] && !x.behindSpmAtom s 4 n && !x.behindMat s 4 n &&
  x.acts.all fun c => (laneAt s (x.lk c.1)).txn.isNone && (match placeOf s x.g (x.va (x.lk c.1) 4) n w win with
    | .ok (.mem pa _) => !isHost pa && !poisoned s pa
    | .ok (.spm k) => !spmPoisoned s k n
    | .error _ => false)
/-- An atomic of lane 0 is on its way to its bank; a matrix store of it to memory. -/
def bankAtom : State := { at4 (Config.spmWindow + 64) with atoms := [(5, req 0 7 0 true)] }
def storeOp : MatOp := { gid := 1, team := 1, core := 0, tok := 9, word := encode (.mst 1 3 26 24 false), pc := 0x10000, conv := 1, signed := 1, declared := 1, m0 := 0, m1 := 0, base := 0, width := 16, locs := [(0, some pg0, 0x10040)] }
def matStore : State := { at4 0x10040 with mops := [(5, storeOp)] }
/-- The hint `opx` with the mode 2: a release. -/
def release : Word := encode (.opx { o0 with mode := 2 })
theorem wit_LoadsStoresAndPrefetchesComplete :
    ([.ld q0 2 4 1 1 4, .ldc q0 2 4 1 1 4, .ldt q0 2 4 1 0 4, .ldnc q0 2 4 1 1 4] : List Instr).all (fun i => goes i (at4 0x10040) 4 false true) = true ∧
    ([.ld q0 2 4 1 1 4, .ldnc q0 2 4 1 1 4] : List Instr).all (fun i => goes i (at4 (Config.spmWindow + 64)) 4 false true) = true ∧
    ([.st q0 2 4 1 1 4, .stnc q0 2 4 1 1 4] : List Instr).all (fun i => goes i (at4 0x10040) 4 true true && goes i (at4 (Config.spmWindow + 64)) 4 true true &&
      passes i (at4 0x10040) [release] && (cx i (at4 0x10040) [release]).o.mode == 2 && releaseDone (cx i (at4 0x10040) [release]) (at4 0x10040) 2) = true ∧
    ([.prefL1 q0 4 1 1, .prefHome q0 4 1 1] : List Instr).all (fun i => passes i (at4 0x10040) &&
      (cx i (at4 0x10040)).acts.all fun c => !inWindow ((cx i (at4 0x10040)).va ((cx i (at4 0x10040)).lk c.1) 4)) = true ∧
    (let x := cx (.waita q0 2 4 1 0) (at4 (Config.spmWindow + 8))
     passes (.waita q0 2 4 1 0) (at4 (Config.spmWindow + 8)) = true ∧ (∀ c ∈ x.acts, x.va (x.lk c.1) 4 = Config.spmWindow + 8) ∧ x.acts ≠ [] ∧
     leNat (spmBytes base 8 8) = 0 ∧ (vpair x.rs 64 2).toNat = 0 ∧ spmPoisoned base 8 8 = false) ∧
    (cx (.ld q0 2 4 1 1 4) bankAtom).behindSpmAtom bankAtom 4 4 = true ∧ (cx (.ld q0 2 4 1 1 4) matStore).behindMat matStore 4 4 = true ∧
    (Config.walkSlots ≠ 0 ∧ isHost Config.paHost = true ∧ isHost 0x10040 = false ∧ (hostFails base 0x10040).1 = false) := by decide +kernel
/-- All the hypotheses of the clause on `ld` together. -/
theorem wit_ld_completes : let s := at4 0x10040
    let x := cx (.ld q0 2 4 1 1 4) s
    issues (.ld q0 2 4 1 1 4) (at1 s (.ld q0 2 4 1 1 4)) (cu (.ld q0 2 4 1 1 4)) (gr s) = true ∧ accessGoes x s 4 4 ∧ x.placed s (fun _ => .mem 0x10040 pg0) 1 ∧
    ∀ c ∈ x.acts, placeOf s x.g (x.va (x.lk c.1) 4) 4 false true = .ok (.mem 0x10040 pg0) ∧ poisoned s 0x10040 = false := by
  refine ⟨by decide +kernel, ⟨by unfold Ctx.walked; decide +kernel, by decide +kernel, by decide +kernel⟩, ?_, ?_⟩
  · intro c hc
    have h : ∀ c ∈ (cx (.ld q0 2 4 1 1 4) (at4 0x10040)).acts, (laneAt (at4 0x10040) ((cx (.ld q0 2 4 1 1 4) (at4 0x10040)).lk c.1)).txn = none := by decide +kernel
    refine ⟨.inl (h c hc), fun pa p e hp => ?_⟩
    cases e
    exact absurd hp (by decide)
  · intro c hc
    have h : ∀ c ∈ (cx (.ld q0 2 4 1 1 4) (at4 0x10040)).acts,
        okOf (placeOf (at4 0x10040) (cx (.ld q0 2 4 1 1 4) (at4 0x10040)).g ((cx (.ld q0 2 4 1 1 4) (at4 0x10040)).va ((cx (.ld q0 2 4 1 1 4) (at4 0x10040)).lk c.1) 4) 4 false true) =
          some (.mem 0x10040 pg0) := by decide +kernel
    refine ⟨?_, by decide +kernel⟩
    have := h c hc
    revert this
    generalize placeOf _ _ _ _ _ _ = r
    cases r with
    | error e => intro h; cases h
    | ok p => intro h; cases h; rfl

/-- The set of the program's first line at its slice is full. -/
def fullSet : State :=
  { base with slices := (upTo 0 16).foldl (fun t w => t.put (setKey (homeNo (sliceHome base 0x10000)) 0x400 + w) ⟨.clean, 0x400 + 0x100000 * (w + 1), 0, 1, 0, w % 4, 0⟩) [] }
theorem wit_sharedCache :
    homeRoom base 16 0x400 = true ∧ zeroMarked base 0x400 = false ∧ zeroMarked (zeroRange base 0x20000 0x10000) 0x800 = true ∧
    ((setWays base (homeNo (sliceHome base 0x10000)) 0x400).find? (fun e => e.2.isNone)).isSome = true ∧
    ((setWays fullSet (homeNo (sliceHome base 0x10000)) 0x400).find? (fun e => e.2.isNone)).isSome = false ∧
    (fullSet.slices.get? (setKey (homeNo (sliceHome base 0x10000)) 0x400 + (freeWay fullSet (homeNo (sliceHome base 0x10000)) 0x400).1)).any (fun l => l.rrpv == 3) = true ∧
    tagKept dirty 0 16 0x400 = true ∧ tagKept { dirty with filters := [⟨1, 0, [], 1, 0⟩] } 0 16 0x400 = false ∧
    policyP1 base 0 2 1 = false ∧ policyP1 base 0 3 1 = true ∧ engineOwned dirty 0x400 = false := by decide +kernel
theorem test_sharedCache :
    happens (oneAcc rd0) (.homeSliceAccess (.request 5)) (fun t => (sliceWay t (homeNo (sliceHome base 0x10000)) 0x400 16).any fun e => e.1 == 0 && e.2.state == .clean) = true ∧
    happens (oneAcc mg0) (.homeSliceAccess (.request 5)) (fun t => (sliceWay t (homeNo (sliceHome base 0x10000)) 0x400 16).any fun e => e.2.state == .dirty) = true ∧
    happens dirty (.homeSliceAccess (.evict (l1Key 0 0 0x400 16))) (fun t => t.l1 == [] && (t.acc.map fun e => e.2.kind == .victim ⟨0, 1, 0, 0, [(1, 7)], 2, 3, false⟩) == [true]) = true := by
  decide +kernel

/-- The program's page belongs to the range that an `anew` on the root carves, and an engine operation has its destination there. -/
def carving (dests : List (Nat × Nat)) : State :=
  let s := all [(8, 1), (10, 0x10000)] (withOp { op 0 cpyP with accepted := true, dests := dests })
  { s with arenas := s.arenas.put 1 { arenaAt s 1 with base := 0, bump := 0x10000, charge := 0 } }
theorem wit_arenasFurther :
    (let s := carving [(0x10080, 64)]; let x := cx (.anew qu 8 1) s; passes (.anew qu 8 1) s = true ∧ anewWaits x 8 x.acts s = true) ∧
    (let s := carving []; let x := cx (.anew qu 8 1) s; anewWaits x 8 x.acts s = false) ∧
    engineNames { withKid kid [(8, 2)] with engs := [(5, { op 0 cpyP with arenas := [(2, true)] })] } [2] = true ∧
    (sealsOf { sealing false with seals := [(5, ⟨2, 1, false, 1, 9, []⟩)] } 2 false).filter (fun e => e.2.gen != (arenaAt (sealing false) 2).gen) ≠ [] ∧
    (dropping [(3, 1)]).drops.any (fun e => e.2.unmarked.contains (3, (arenaAt (dropping [(3, 1)]) 3).gen)) = false ∧
    filtersTaken (dropping []) [2] = true ∧ parkIn (dropping []) 0 0x20000 0x10000 = false ∧ homesOf 0x20000 = homesOf 0x2FFFF := by decide +kernel

theorem wit_fibresFurther :
    (let s := all [(6, 7)] (at4 0x10080); let x := cx (.park g0 2 4 6) s
     lowest x.active = 0 ∧ parkFull x 6 s 0 = false ∧ releaseDone { x with active := bitMask 0 } s 2 = true ∧ x.go &&& ~~~(bitMask 0) ≠ 0 ∧ holdsGroup x.w = true) ∧
    parkFull (cx (.park g0 2 4 6) noRoom) 6 noRoom 0 = true ∧ postBehind { noRoom with posts := [(5, posted 3 false 1)] } 5 (posted 3 false 1) = false ∧
    postBlocked base (posted 3 false 1) = false ∧ (match releaseAt handled 1 1 0 0 2 with
      | .ok _ => true
      | .error _ => false) = true ∧
    (match releaseAt { handled with l1 := dirty.l1 } 1 1 0 0 2 with
      | .ok _ => true
      | .error _ => false) = false ∧ slotRoom gateReady 0 1 = true := by decide +kernel

/-- A copy to a page of the host. -/
def hostPage : State := { base with pages := base.pages.put (pageKey 0 0x20000) ⟨65536, Config.paHost + 0x30000, 0, 1, 0, true⟩ }
theorem wit_enginesFurther :
    (let s := ps [0x10000, 0, 0x10080, 0, 0, 0x02000001, 0, 0]; engWaits 1 (cx (.cpyg qu 8 0 1 1 false false) s) s = false) ∧
    (let s := { ps [0x10000, 0, 0x10080, 0, 0, 0x02000001, 0, 0] with atoms := [(5, req 0 7 0 true)] }; passes (.cpyg qu 8 0 1 1 false false) s = true ∧
      engWaits 1 (cx (.cpyg qu 8 0 1 1 false false) s) s = true) ∧
    (let o := op 0 cpyP; o.accepted = false ∧ outstanding (withOp o) o.lane = false ∧ matOutstanding (withOp o) o.gid (o.lane % 64) = false ∧ recordsFree (withOp o) o = true ∧
      victimsOf (withOp o) 0 0 = [] ∧ dirtyCopies (withOp o) 0 0 = [] ∧ engEmpty o = false) ∧
    engHost (withOp (op 0 [0x10000, 0, 0x20000, 0, 64, 2, 0, 0]) hostPage) (op 0 [0x10000, 0, 0x20000, 0, 64, 2, 0, 0]) = some 0x20000 ∧
    engFailure (withOp (op 0 [0x10000, 0, 0x20000, 0, 64, 2, 0, 0]) hostPage) { op 0 [0x10000, 0, 0x20000, 0, 64, 2, 0, 0] with accepted := true } = none ∧
    (collS [5]).wall < 70000000 ∧ msgBehind { slotS with msgs := [(5, msg0), (6, msg0)] } 5 msg0 = false := by decide +kernel

theorem wit_matrixFurther :
    (let w := encode (.mcvt 1 3 8 24) ||| 1
     passes (.illegalEncoding w) (matS) = true ∧ isHint w = false ∧ fld w 22 4 = 1 ∧ decode w = .illegalEncoding w ∧
       ∀ l ∈ lanesOf (cx (.illegalEncoding w) (matS)).active, signFail (cx (.illegalEncoding w) (matS)) (matS) 1 l = none) ∧
    placeFail (matPlaces base (gr base) (encode (.mld 1 3 26 24 false)) 0x00010001 0 0x20000 0) false = some ⟨8, 0, 0x20000⟩ ∧
    placeFail (matPlaces (inArena .draining) (gr base) (encode (.mld 1 3 26 24 false)) 0x00010001 0 0x10000 0) false = none ∧
    placeFail (matPlaces (inArena .draining) (gr base) (encode (.mld 1 3 26 24 false)) 0x00010001 0 0x10000 0) true = some ⟨10, 0, 0x10000⟩ ∧
    matPoison (matS) 0 0 (encode (.mld 1 3 26 24 false)) 0 (matPlaces base (gr base) (encode (.mld 1 3 26 24 false)) 0x00010001 0 0x10000 0) = none ∧
    dirty.acc = [] ∧ base.l1.get? (l1Key 0 0 0x401 16) = none := by decide +kernel
theorem test_mcvtT1_signs :
    after (withGroup (fun x => { x with conv := [(1, { declared := 0x1FFFF })] }) (matS)) (.illegalEncoding (encode (.mcvt 1 3 8 24) ||| 1))
      (fun t => t.lanes.length == 16 && (laneAt t 64).held == .none) = false ∧
    ends0 (matS) (.illegalEncoding (encode (.mcvt 1 3 8 24) ||| 1)) = true := by decide +kernel

/-- A page that a function may use; a frame that another domain has held. -/
def ready0 : State := { page0 with record := some {} }
def passed3 : State := { base with hostHeld := [(Config.paHost + 0x30000, 65536, 3)] }
theorem wit_commandsFurther :
    withheld (funcAt ready0 0) = false ∧ verdictOf ready0 0 (cmdB 4 [(0x10, 2, 0)]) = none ∧ promptEvent 0 1 (cmdB 4 [(0x10, 2, 0)]) = [.event (.graphStopDrain 0 1)] ∧
    (funcAt owing 0).slotbsy.getLsbD 2 = true ∧ (128 : Nat) < 100 + 60 ∧ notPermitted ready0 0 (cmdB 5 farL) = false ∧
    [verdictOf ready0 0 (cmdB 5 (mapL 0x20001 0x10000 0 0x10008)), verdictOf ready0 0 (cmdB 5 (mapL 0x20000 0x8000 0 0x10008)),
      verdictOf ready0 0 (cmdB 5 (mapL Config.spmWindow 0x10000 0 0x10008)), verdictOf ready0 0 (cmdB 5 farL)] = [some (3, 0x10), some (3, 0x18), some (3, 0x10), none] ∧
    arenaOwns (cmdS 5 (mapL 0x20000 0x10000 0 0x20008)) 0 2 0x20000 0x10000 = false ∧ startsB 5 (mapL 0x20000 0x10000 0 0x20008) = true ∧
    framePasses passed3 0 (Config.paHost + 0x30000) = true ∧ framePasses base 0 (Config.paHost + 0x30000) = false ∧
    dropWaits (cmdS 7 rootL bareRoot) 0 1 = false ∧ lowestFree bareRoot ≠ some 1 ∧
    (match checkImage image with
     | .ok h => !loadWaits image h 0 0 (cmdS 1 (loadL 176)) && (match loadImage image h 0 0 (cmdS 1 (loadL 176)) with
        | .ok e => e.1 == [0x20000]
        | .error _ => false) && (match loadImage image h 0 0 (noRoot) with
        | .ok _ => false
        | .error e => e.1 == (4, 0, 0))
     | .error _ => false) = true := by decide +kernel
theorem test_commandsFurther :
    happens { withRun [kNode] [.running] ready0 with agenda := [.tick] } (.commandSlotWrite 0 0 64 (cmdB 4 [(0x10, 2, 0)])) (fun t =>
      t.agenda == [.event (.graphStopDrain 0 1), .tick] && (t.runs.get? 0).any (·.stopped)) = true ∧
    happens owing (.commandSlotWrite 0 0 100 (rep 60 0)) (fun t => (funcAt t 0).cmderr == 3) = true ∧
    answers (cmdS 5 (mapL 0x20000 0x10000 0 0x20008)) (.memMap 0 0) = some (3, 0x28, 0) ∧
    answers (noRoot (cmdS 1 (loadL 176) (hostMem 0x1000 image))) (.modLoad 0 0) = some (4, 0, 0) := by decide +kernel

/-- A cooperative grid of two teams; the claims of one round. -/
def coop2 (cs : List (Nat × Nat)) : State := { inGrid with
  grids := inGrid.grids.map fun (e : Nat × Grid) => (e.1, { e.2 with groups := 2, teams := 2, placedTeams := [], claims := cs }) }
def coopG (cs : List (Nat × Nat)) : Grid := ((coop2 cs).grids.get? 7).getD g7
theorem wit_gridsFurther :
    coopNow (coop2 []) (coopG []) = true ∧ claimed (coopG []) (fun _ => true) = 0 ∧ 2 ≤ claimRoom (coop2 []) (coopG []) 0 2 ∧
    (coopG [(0, 2)]).teams ≤ claimed (coopG [(0, 2)]) (fun _ => true) ∧ restFits (coop2 [(0, 2)]) (answerAll (coopG [(0, 2)])) = true ∧
    restFits (withFunc (fun f => { f with cores := 0 }) (coop2 [(0, 2)])) (answerAll (coopG [(0, 2)])) = false ∧ coopKept (gridS granted) (gridS granted) = true ∧
    (let t := (savedS.teams.get? 1).getD tm
     slotRoom savedS 0 t.dom = true ∧ coopKept savedS (restoreEnd savedS 0 t) = true ∧ t.pair = false) ∧
    gridFlushable overS ((overS.grids.get? 7).getD g7) = true ∧ (tileHull (tileUses { base with teams := [] } 0) 0) = (0, 0) ∧
    (withRun [yNode 0x10040 0x10080 8] [.running]).runs.any (fun e => e.2.orphans.contains 0) = false ∧
    (rangeLines base 0 0x10040 8 ++ rangeLines base 0 0x10080 8).any (engineOwned base) = false ∧
    (cuts Config.page (0x10040, 8) ++ cuts Config.page (0x10080, 8)).map (·.1) = [0x10040, 0x10080] ∧ homeRoom base 16 0x402 = true ∧
    (retired5 false).record = none ∧ (smapAt (retired5 false) 0).failed.contains 5 = false ∧ engineOwned base 0x400 = false ∧ poisoned base 0x10000 = false := by decide +kernel
theorem test_coopRound :
    happens (coop2 [(0, 2)]) (.claimGrant 7) (fun t => (t.grids.get? 7).any fun g => g.claims == [] && g.next == 2 && unstarted g 0 == [0, 1]) = true ∧
    happens (withFunc (fun f => { f with cores := 0 }) (coop2 [(0, 2)])) (.claimGrant 7) (fun t => (t.grids.get? 7).any fun g => g.claims == [] && g.next == 0) = true ∧
    happens { errS 2 with wall := 5 } (.backgroundScrub 0x400 .uncorrectable) (fun t => t.poison == [0x400]) = true ∧
    happens hostPage (.homeSliceAccess (.evict 77)) (fun _ => true) = false := by decide +kernel
/-- The host stores to its memory; time waits for a ready lane set. -/
theorem test_hostTurnAndTick :
    (match step { base with agenda := [.host 0x1000 [7]] } with
     | .next t => readHost t 0x1000 2 == [7, 0]
     | .fault _ => false
     | .refused _ => false) = true ∧
    (match step { base with agenda := [.tick] } with
     | .next t => t.wall == 0 && t.agenda == [.tick] && (t.lanes.get? 64).any (fun y => y.pc == 0x10004)
     | .fault _ => false
     | .refused _ => false) = true ∧ inverted base 1 (gr base) = false ∧ (voters base 0 0).length = 1 ∧ (0x1000 + 1 ≤ 2 ^ 51) := by decide +kernel

/-! ### Hypotheses of the statements on order, fetch and failure -/

/-- An engine operation owns the line of 0x10040, to which an access of lane 0 is on its way. -/
def ownedLine : State := { at4 0x10040 with engs := [(6, { op 0 cpyP with accepted := true, owned := [0x401] })] }
def lateRead (k : AccKind) : State := { ownedLine with acc := [(5, { rd0 with kind := k, pa := 0x10040 })] }
theorem wit_behind :
    ([.fill 0, .txRead] : List AccKind).all (fun k => passes (.st q0 2 4 1 1 4) (lateRead k) && (cx (.st q0 2 4 1 1 4) (lateRead k)).behindLoad (lateRead k) 4 4) = true ∧
    unwalked (lateRead .txRead) 1 (gr base) [0x10040] = [] ∧ (cx (.st q0 2 4 1 1 4) (at4 0x10040)).behindLoad (at4 0x10040) 4 4 = false ∧
    passes (.waita q0 2 4 1 0) bankAtom = true ∧ (cx (.waita q0 2 4 1 0) bankAtom).behindSpmAtom bankAtom 4 8 = true ∧
    (let s := at4 (Config.spmWindow + 8); (cx (.waita q0 2 4 1 0) s).behindSpmAtom s 4 8 = false ∧ (cx (.waita q0 2 4 1 0) s).behindMat s 4 8 = false) ∧
    (cx (.atom q0 2 4 1 1 0) matStore).behindMat matStore 4 4 = true ∧ tagGone base rd0 = false ∧ tagGone (inArena .draining) rd0 = true := by decide +kernel
/-- Two held reductions of one lane, and one with another atomic of its between them. -/
def heldRed : AtomReq := { req 0 7 0 with buffered := some 0, comm := true }
def twoReds : State := { base with atoms := [(5, heldRed), (8, heldRed)] }
def crossed : State := { base with atoms := [(5, heldRed), (6, { req 6 7 0 with comm := false }), (8, heldRed)] }
theorem wit_homes :
    homeFail base (req 0 7 0) = none ∧ homeFail base (req 0 7 0 true) = none ∧ homeFail { base with poisonSpm := [64] } (req 0 7 0 true) = some (20, 1) ∧
    homeFail (inArena .sealed) (req 0 7 0) = some (10, 2) ∧ homeFail (inArena .draining) (req 0 7 0) = some (10, 0) ∧
    homeFail { base with poison := [0x401] } (req 0 7 0) = some (20, 0) ∧ mergeCrosses twoReds 5 8 heldRed = false ∧ mergeCrosses crossed 5 8 heldRed = true ∧
    atomReady (inArena .sealed) 5 (req 0 7 0) = true := by decide +kernel
theorem test_homeFail :
    happens { inArena .sealed with atoms := [(5, req 0 7 0)] } (.atomicApply 5) (fun t => t.atoms == [] && (t.lanes.get? 64).isNone && t.mem == base.mem) = true ∧
    happens crossed (.combiningBufferFlush [5, 8]) (fun _ => true) = false ∧ happens twoReds (.combiningBufferFlush [5, 8]) (fun t => t.atoms.length == 1) = true := by
  decide +kernel
/-- Function 0 has a frame of page tables. -/
def tableS : State := { base with frames := [⟨.table, 0, 0x40000, 0x10000⟩], walks := [(5, ⟨0, 0, 1, [1]⟩)] }
theorem test_walkFillsASlice :
    walkLine base 0 1 = none ∧ walkLine tableS 0 1 = some 0x1000 ∧ happens tableS (.translationWalk 5) (fun t => t.slices.length == 1) = true := by decide +kernel

/-- `park` of lane 0: with an entry to reserve, and with none. -/
def parking (s : State) : State := all [(6, 7)] (at4 0x10080 s)
theorem wit_parks :
    passes (.park g0 2 4 6) (parking base) = true ∧ passes (.park g0 2 4 6) (parking noRoom) = true ∧ (laneAt (parking base) 64).parkTag = none ∧
    parkFull (cx (.park g0 2 4 6) (parking noRoom)) 6 (parking noRoom) 0 = true ∧ parkFail (cx (.park g0 2 4 6) (parking noRoom)) 2 4 0 = none ∧
    (laneAt (parkReserve (cx (.park g0 2 4 6) (parking base)) 6 (parking base) 0) 64).parkTag = some 7 ∧
    (hostLineFails base 0 0x10080 true 2 128).1 = none ∧ (domHostFails hostPage 0 0x20000 true).2.freeCtr = 1 ∧ entryShare base 0 0 ≠ 0 ∧ entryShare noRoom 0 0 = 0 := by
  decide +kernel
theorem test_parkWithoutRoom : happens { noRoom with parks := parked.parks } (.parkRegistration 5) (fun t => t.parks == [] && (t.lanes.get? 64).isNone) = true := by decide +kernel

/-- The drop of arena 2 comes to its home. -/
def dropComes : State :=
  { withKid kid [] with drops := [(5, { root := 2, members := [], unmarked := [(2, 0)], gid := 1, tok := 9, lanes := 1, pred := 1, pc := 0x10000, next := 0x10004, word := 0 })] }
theorem wit_drops :
    voided dropComes 1 9 = false ∧ dropComes.seals.any (fun e => e.2.arena == 2) = false ∧ engineNames dropComes [2] = false ∧ subtree dropComes 7 2 = [2] ∧
    arenaState dropComes 2 0 = .live := by decide +kernel
theorem test_dropComes :
    happens dropComes (.drainMark 2) (fun t => (arenaAt t 2).state == .draining && preg t 64 1) = true ∧
    happens { dropComes with seals := [(9, ⟨2, 0, false, 1, 9, []⟩)] } (.drainMark 2) (fun _ => true) = false ∧
    happens { dropComes with engs := [(9, { op 0 cpyP with arenas := [(2, true)] })] } (.drainMark 2) (fun t => (arenaAt t 2).state == .live && !preg t 64 1) = true := by
  decide +kernel

/-- Lane 0 has slot 0 and waits for its delivery; a lower lane of the word waits for a slot. -/
def delivering : State := modLane (setHomeByte handled 16 0x18080 1) 64 fun y => { y with held := .deliver 0 ⟨0x150, 7, 0, 0, false⟩ 0x207 0x10004 0x10000 }
theorem wit_faultOrder :
    lowerWaits waitsSlot 1 1 0x10000 0x207 = true ∧ lowerWaits handled 1 1 0x10000 0x207 = false ∧ awaited handled 1 0 = false ∧ awaited (oneAcc rd0) 1 0 = true ∧
    entryRoom handled 0 0 2 = true ∧ entryRoom { noRoom with funcs := noRoom.funcs } 0 0 2 = false ∧ entryShare handled 0 0 ≠ 0 ∧
    slotFound (setHomeByte handled 16 0x18080 1) 0x18000 ≠ some (some 0) ∧
    (tagEntry? faulted 0 (faultTag 0 0)).any (fun e => e.waiters.contains (.record 0x18000)) = true := by decide +kernel
theorem test_delivery : happens delivering (.faultSlotRetry 1 0) (fun t => (t.lanes.get? 64).isNone && homeByte t 16 0x180B2 == 0) = true := by decide +kernel

/-- A copy to the host's page; two participants with ranks. -/
def hostCpy : EngOp := op 0 [0x10000, 0, 0x20000, 0, 64, 2, 0, 0]
def ranks (a b : Word) : State :=
  { base with engs := [(5, { op 3 (collP a 0x10080) with accepted := true }), (6, { op 3 (collP b 0x100C0) with accepted := true })] }
theorem wit_enginesOrder :
    hostOf base (op 0 cpyP) (engChecked (op 0 cpyP)) = none ∧ hostOf hostPage hostCpy (engChecked hostCpy) = some 0x20000 ∧
    engBadParams hostCpy = false ∧ engOverlap hostCpy = false ∧ engMisaligned hostCpy = none ∧ (engBankFail hostPage hostCpy).isNone = true ∧
    (engCheckPlaces hostPage hostCpy).isNone = true ∧ collAgree ((ranks 0 0).engs.map (·.2)) = true ∧
    dedup ((ranks 0 0).engs.map (·.2.crank)) ≠ (ranks 0 0).engs.map (·.2.crank) ∧ dedup ((ranks 0 1).engs.map (·.2.crank)) = (ranks 0 1).engs.map (·.2.crank) ∧
    matesOf (collS [5]) 5 (op 3 (collP 0 0x10080)) = [5] ∧ matesOf base 5 (op 0 cpyP) = [] := by decide +kernel
theorem test_equalRanks :
    (finishColl (ranks 0 0) [5, 6] (.leaf 0)).engs.map (·.2.failed) = [some (0x0ED, 0), some (0x0ED, 0)] ∧
    (finishColl (ranks 0 1) [5, 6] (.leaf 0)).engs.map (·.2.failed) = [none, none] := by decide +kernel

/-- `msend` from a line that an engine owns. -/
def sendOwned : State := ps sendP { base with engs := [(6, { op 0 cpyP with accepted := true, owned := [0x400] })] }
theorem wit_messagesOrder :
    passes (.msend qu 8 16 1 2) sendOwned = true ∧ msendWaits (cx (.msend qu 8 16 1 2) sendOwned) 8 sendOwned = true ∧
    msendWaits (cx (.msend qu 8 16 1 2) (ps sendP)) 8 (ps sendP) = false ∧ (matAccFault ⟨9, 0, 0⟩ 4 true).cause = 0x094 ∧
    (matAccFault ⟨8, 1, 0⟩ 4 true).cause = 0x08 * 16 + 8 + 1 := by decide +kernel

/-- The function has no channel left; a function that may answer at once. -/
def noChannel (s : State) : State := withFunc (fun f => { f with channels := 0 }) s
theorem wit_hostMaps :
    (mapHost 0 0 65536 1 true 1 0x20000 0x30000 (begun (cmdS 5 hostL) 0 0 (cmdOf 5 hostL))).isSome = true ∧
    (mapHost 0 0 65536 1 true 1 0x20000 0x30000 (begun (noChannel (cmdS 5 hostL)) 0 0 (cmdOf 5 hostL))).isSome = false ∧
    recordRoom (cmdS 1 (loadL 176)) 0 = true ∧ verdictOf ready0 0 (cmdB 5 (mapL 0x20000 0x10000 0 0x20008)) = some (3, 0x28) ∧
    arenaOwns ready0 0 2 0x20000 0x10000 = false := by decide +kernel
theorem test_hostMaps :
    answers (cmdS 5 hostL) (.memMap 0 0) = some (0, 0, 0) ∧ answers (noChannel (cmdS 5 hostL)) (.memMap 0 0) = some (4, 0, 0) ∧
    happens (cmdS 1 (loadL 176) (hostMem 0x1000 image)) (.modLoad 0 0) (fun t => t.agenda == [.event (.completionRecord 0)] && (funcAt t 0).modules.length == 1) = true := by
  decide +kernel
/-- Function 1 has been asked to halt; its window is open until `w`. -/
def haltAsked (w : Nat) : State := { tenant base with preempts := [(9, ⟨1, [0], [], w, 0⟩)] }
def resumeL : List (Nat × Nat × Nat) := [(0x10, 2, 1), (0x12, 2, 1)]
theorem wit_resume :
    startsB 9 resumeL (haltAsked 100) = true ∧ (haltAsked 100).preempts.sorted = true ∧ (haltAsked 100).wall < 100 ∧ ¬(haltAsked 0).wall < 0 := by decide +kernel
theorem test_resume :
    happens (cmdS 9 resumeL (haltAsked 100)) (.vfResume 0 0) (fun t => t.preempts == []) = true ∧
    happens (cmdS 9 resumeL (haltAsked 0)) (.vfResume 0 0) (fun t => t.preempts.map (fun (e : Nat × Preempt) => e.2.source) == [4]) = true := by decide +kernel

/-- A copy node about to start, and started. -/
def copyG : State := withRun [yNode 0x10040 0x10080 8] [.unresolved] one40
def copyStarted : State := (match exec (.copyNodeStart 0 0 0) copyG with
  | .next t => t
  | .fault _ => copyG
  | .refused _ => copyG)
theorem wit_copyNodes :
    canStart copyG 1 = true ∧ recordsFree copyG (copyOp copyG 0 0 0 (yNode 0x10040 0x10080 8)) = true ∧ (copyOpOf copyStarted 0 0).isSome = true ∧
    copyStarted.engs.map (fun (e : Nat × EngOp) => e.2.owned) = [[0x402]] := by decide +kernel
theorem test_copyNodes : happens copyStarted (.copyNodeComplete 0 0 0) (fun t => homeByte t 16 0x10080 == 1 && t.engs == []) = true := by decide +kernel

/-- The running function of a pool has nothing left; a grid that has lost a group with a die. -/
def resting : State :=
  let s := withFunc (fun f => { f with sliced := true, running := true, budget := 5 }) base
  { s with groups := [], lanes := [], teams := [] }
def lostGrid : State := { overS with grids := overS.grids.map fun (e : Nat × Grid) => (e.1, { e.2 with lostGids := [9] }) }
theorem wit_restsAndGrids :
    (unsavedTeams asked ⟨0, [0], [1], 0, 3⟩).filter (haltReady asked) = [1] ∧ haltReady (oneAcc rd0) 1 = false ∧ poolChoice resting [0] = none ∧
    poolOf resting 0 = [0] ∧ poolRests resting [0] = some 0 ∧ gridDrained lostGrid 7 (gridGroups lostGrid ((lostGrid.grids.get? 7).getD g7) ++ [9]) = true ∧
    teamsOver lostGrid ((lostGrid.grids.get? 7).getD g7) = true ∧ gridFlushable lostGrid ((lostGrid.grids.get? 7).getD g7) = true ∧
    marginS.idleSince.get? (1 * 64 + 0) = none := by decide +kernel
theorem test_restsAndGrids :
    happens resting (.poolDecisionPoint 0) (fun t => !(funcAt t 0).running) = true ∧ happens lostGrid (.gridCompletion 7) (fun t => t.grids == []) = true := by decide +kernel

/-- The lanes stand at code on a page of the host, which the TLB holds. -/
def hostCode : State :=
  { base with
    pages := base.pages.put (pageKey 0 0x50000) ⟨65536, Config.paHost + 0x30000, 0, 1, 0, true⟩
    lanes := base.lanes.map fun (e : Nat × Lane) => (e.1, { e.2 with pc := 0x50000 })
    tlb := ⟨0, 0, 0x50000, 65536⟩ :: base.tlb }
def missesAt (s : State) (pc : Nat) : Bool :=
  match fetch s (gr s) pc with
  | .miss => true
  | _ => false
theorem wit_hostCode :
    missesAt hostCode 0x50000 = true ∧ okOf (place hostCode 0x50000 4 false true) = some (.mem (Config.paHost + 0x30000) ⟨65536, Config.paHost + 0x30000, 0, 1, 0, true⟩) ∧
    engineOwned hostCode ((Config.paHost + 0x30000) / 64) = false ∧ poisoned hostCode (Config.paHost + 0x30000) = false ∧ isHost (Config.paHost + 0x30000) = true ∧
    groupRuns hostCode 1 (gr hostCode) = true ∧ ((laneSets hostCode 1).find? fun e => e.1.toNat == 0x50000).isSome = true := by decide +kernel

/-- Links 1 and 2 lead to module 2; a flit that has not been answered. -/
def linkUp : State := { base with record := some { links := [0, 0, 6, 0] } }
def flitTo (m : Nat) : List Byte := leBytes 2 (256 + m * 512 + 3 * 8192)
theorem wit_links :
    linkUp.up = true ∧ flowLink linkUp 2 5 = some 2 ∧ liveLinks linkUp 2 = [1, 2] ∧ bits (fAt (flitTo 0) 0 2) 12 9 = moduleNo linkUp ∧
    bits (fAt (flitTo 2) 0 2) 12 9 ≠ moduleNo linkUp ∧ fAt (flitTo 2) 0 1 = 0 ∧ linkUp.linksDown.contains 1 = false ∧
    powerKey 3 1 = 12 ∧ powerSum { base with power := [(0, 10), (2, 5), (4, 99)] } 0 = 15 := by decide +kernel
theorem test_linkDown :
    happens { linkUp with linkTx := [⟨2, 3, 2, 5, true, 0, [1]⟩] } (.linkDown 1) (fun t => t.linksDown == [1] && liveLinks t 2 == [2] && t.linkTx.length == 1) = true := by decide +kernel
/-- 10 W on two dies against the share of the dies. -/
theorem test_powerSum :
    happens { base with power := [(0, 1000000)] } (.powerMeasurement 0 1 900000) (fun t => levelAt t 0 1 == 1) = true ∧
    happens { base with power := [(0, 1000000)] } (.powerMeasurement 0 1 700000) (fun t => levelAt t 0 1 == 0) = true := by decide +kernel

/-- Port 0 has issued and its vote has chosen group 1's lanes for port 1. -/
def portOne : State :=
  { base with
    ports := [(0, { zero := true, one := false, group := some 1, next := some { cu .nop with port := 1 } })] }
theorem wit_votePorts : stands portOne { cu .nop with port := 1 } = true ∧ onPort base 0 (cu .nop) = true ∧ (voters base 0 0).length = 1 := by decide +kernel
theorem test_votePorts : voteOf portOne 0 0 = some { cu .nop with port := 1 } := by decide +kernel

/-! ### The context image of R443 (its offsets and sizes), and the digest of R462 (FIPS 202, SHAKE256 of no bytes) -/

def image443 : Image :=
  { img1 with
    teamRec := { tm with tiles := 14, banks := [], tbase := [0] }
    wholeSpm := false
    ranges := []
    groups := img1.groups.map fun (g : Nat × GroupImage) => (g.1, { g.2 with group := { g.2.group with window := 56, divmax := 0 }, quads := 0x3FFF }) }
theorem test_image443 : image443.spOff = 0x1500 ∧ image443.tlOff = 0x1540 ∧ image443.size = 19832 ∧
    image443.groups.map (fun (g : Nat × GroupImage) => g.2.bytes.length) = [4864] := by decide +kernel
theorem test_shake : (shakeDigest []).take 8 = [0x46, 0xB9, 0xDD, 0x2B, 0x0B, 0xA8, 0x8D, 0x13] := by decide +kernel

/-! ### Hypotheses of the clauses on what a word raises -/

/-- A hint stands before the word at 0x10010, in the L1 and at its home. -/
def hinted : State := (upTo 0 4).foldl (fun t k => setHomeByte t 16 (0x1000C + k) 0xFD) { base with l1 := [] }
/-- The state `s` with the call of `i` leaves its 16 lanes ended, as their faults have no handler. -/
def raisesAll (i : Instr) (s : State := base) : Bool := passes i s && ends0 s i
theorem wit_controlFaults :
    ontoHint hinted (gr hinted) 0x10010 = true ∧ raisesAll (.bra q0 4) hinted = true ∧ raisesAll (.call q0 4) hinted = true ∧
    raisesAll (.brx qu 4 6) (all [(4, 0x10010)] hinted) = true ∧ (cx (.brx qu 4 6) (all [(4, 0x10010)] hinted)).acts = [(0, 0xFFFF)] ∧
    raisesAll (.ret qu 4) (all [(4, 0x10010)] hinted) = true ∧ raisesAll (.brx q0 4 6) (all [(4, 0x10012)]) = true ∧ raisesAll (.ret q0 4) (all [(4, 0x10012)]) = true ∧
    raisesAll (.divr g0 0) = true ∧ raisesAll (.divr g0 4) hinted = true ∧ raisesAll (.divr g0 4) (withGroup fun g => { g with divmax := 0 }) = true ∧
    raisesAll (.brk 1 4) = true ∧ raisesAll (.join g0) = true ∧ raisesAll (.bar g0 3) base = false ∧
    raisesAll (.cdecl q0 1) (withGroup fun g => { g with conv := [(1, { declared := 1, signed := 1 })] }) = true ∧
    coopGroup base (gr base) = false ∧ (cx (.bar g0 3) base [scope 2]).scopeOr 1 = 2 := by decide +kernel
theorem wit_oneLaneOntoHint :
    (let s : State := (upTo 65 15).foldl endLane { hinted with groups := hinted.groups.map fun e => (e.1, { e.2 with entries := [⟨0x10000, 1, 3, 0⟩] }) }
     let x : Ctx := atIssue (.brk 1 4) { cu (.brk 1 4) with lanes := 1 } (gr s) s
     lanesOf x.active = [0] ∧ (1 : Nat) ≤ (entriesOf x.g.entries 0).length ∧ ontoHint s x.g (x.target 4) = true) := by decide +kernel
theorem wit_operandFaults :
    raisesAll (.bcast g0 2 4 40) = true ∧ raisesAll (.bhset q0 2 4 6) (all [(6, 256)]) = true ∧ raisesAll (.pack q0 2 4 6) (all [(6, 256)]) = true ∧
    raisesAll (.unpack q0 8 4 6) (all [(6, 256)]) = true ∧ (decodeF fmt32 0x7FC00001).isNan = true ∧ raisesAll (.txb g0) (inTx {}) = true ∧
    raisesAll (.txa g0 2) = true ∧ raisesAll (.txa g0 2) (all [(2, 256)] (inTx {})) = true ∧ raisesAll (.txe g0 1 1) = true ∧
    raisesAll (.spawn q0 2 4 8) (all [(4, 2)]) = true ∧ raisesAll (.await q0 1 2 4) (all [(4, 0x100000)]) = true ∧ raisesAll (.wakeTmr q0 4) = true ∧
    raisesAll (.msend q0 8 2 1 1) (ps [0, 0, 0, 0xFFFFFFFF, 0, 0, 0, 0]) = true ∧ raisesAll (.mrecv q0 8 2 1 1) (ps [0, 0, 0, 0, 0xFFFFFFFF, 0, 0, 0]) = true ∧
    raisesAll (.mprobe q0 8 2 1 1) (ps [0, 0, 0x10000, 0, 0, 0, 0, 0]) = true ∧ raisesAll (.recfg q0 4) = true ∧ raisesAll (.eret g0 4 0) = true ∧
    raisesAll (.gret g0) = true ∧ raisesAll (.gate g0 1 64) = true ∧ raisesAll (.mma 1 3 8 16 24 false) = true ∧
    raisesAll (.atom q0 2 4 1 1 0) (at4 0x10041) = true ∧ (match windowPlace base (gr base) (Config.spmWindow + 2 ^ 20) true with | .error e => e.cls == 9 | .ok _ => false) = true := by
  decide +kernel

end Sys2Proof.Tests
end

/-! SUPPORT. Words of a fixed latency that deliver a result to each executing lane (R55, R199, R235). -/
namespace Sys2Proof.Machine

/-! ### Words of a fixed latency -/

/-- The majors whose every word has a fixed latency and no slot (Table 10-2, R30). -/
def fixedMajor (m : Nat) : Bool := (0x08 ≤ m && m ≤ 0x11) || (0x13 ≤ m && m ≤ 0x16) || m == 0x18
theorem fixedMajor_lt {m : Nat} (h : fixedMajor m = true) : m < 0x19 := by simp [fixedMajor] at h; omega
/-- The word of `i` has such a major. -/
def FixedWord (i : Instr) : Prop := fixedMajor (majorOf (encode i)) = true

theorem majorOf_encode {i : Instr} {n : Nat} (h : encodeNat i = some n) (hn : n < 2 ^ 32) : majorOf (encode i) = n / 2 ^ 26 := by
  rw [encode, h, majorOf, fld, Option.getD_some, BitVec.toNat_ofNat, Nat.mod_eq_of_lt hn]
  omega

theorem fixedWord_of_encodeNat {i : Instr} {n : Nat} (m : Nat) (h : encodeNat i = some n) (hm : fixedMajor m = true)
    (hn : m * 2 ^ 26 ≤ n ∧ n < (m + 1) * 2 ^ 26) : FixedWord i := by
  have hlt := fixedMajor_lt hm
  rw [FixedWord, majorOf_encode h (by omega), show n / 2 ^ 26 = m by omega]
  exact hm

/-- A V-format word: vD, vA, vB and the minor in bits [2:0]. -/
theorem fixedWord_V {i : Instr} {q : Qual} {d a b : BitVec 6} {f : Nat} (m : Nat)
    (h : encodeNat i = some (f + packQ q + d.toNat * 0x8000 + a.toNat * 0x200 + b.toNat * 0x8)) (hm : fixedMajor m = true)
    (hf : m * 2 ^ 26 ≤ f ∧ f < m * 2 ^ 26 + 8) : FixedWord i := by
  have := Laws.packQ_le q
  exact fixedWord_of_encodeNat m h hm (by omega)
/-- An I-format word: vD, the minor in bits [11:9], the immediate. -/
theorem fixedWord_I {i : Instr} {q : Qual} {d : BitVec 6} {imm : BitVec 9} {f : Nat} (m : Nat)
    (h : encodeNat i = some (f + packQ q + d.toNat * 0x8000 + imm.toNat)) (hm : fixedMajor m = true)
    (hf : m * 2 ^ 26 ≤ f ∧ f ≤ m * 2 ^ 26 + 7 * 0x200) : FixedWord i := by
  have := Laws.packQ_le q
  exact fixedWord_of_encodeNat m h hm (by omega)

/-- A V-format word with vB empty. -/
theorem fixedWord_VA {i : Instr} {q : Qual} {d a : BitVec 6} {f : Nat} (m : Nat)
    (h : encodeNat i = some (f + packQ q + d.toNat * 0x8000 + a.toNat * 0x200)) (hm : fixedMajor m = true)
    (hf : m * 2 ^ 26 ≤ f ∧ f < m * 2 ^ 26 + 8) : FixedWord i := by
  have := Laws.packQ_le q
  exact fixedWord_of_encodeNat m h hm (by omega)
/-- A comparison of majors 0x0E and 0x13: its condition in the minor. -/
theorem fixedWord_cmp {i : Instr} {q : Qual} {d a b : BitVec 6} {c : BitVec 3} {f : Nat} (m : Nat)
    (h : encodeNat i = some (f + packQ q + d.toNat * 0x8000 + a.toNat * 0x200 + b.toNat * 0x8 + c.toNat)) (hm : fixedMajor m = true)
    (hf : m * 2 ^ 26 = f) : FixedWord i := by
  have := Laws.packQ_le q
  exact fixedWord_of_encodeNat m h hm (by omega)
theorem fixedWord_dcmp (q : Qual) (c p : BitVec 3) (a b : BitVec 6) : FixedWord (.dcmp q c p a b) := by
  have := Laws.packQ_le q
  exact fixedWord_of_encodeNat 0x14 rfl rfl (by omega)

theorem fixedMajor_format :
    ∀ m < 0x19, fixedMajor m = true → formatOf m ≠ some .M ∧ formatOf m ≠ some .X ∧ m ≠ 0x12 ∧ m ≠ 0x17 := by decide

theorem FixedWord.namesSlot {i : Instr} (h : FixedWord i) : namesSlot (encode i) = none := by
  obtain ⟨hM, hX, h12, h17⟩ := fixedMajor_format _ (fixedMajor_lt h) h
  have hs : slotField (encode i) = 7 := by
    unfold slotField
    split <;> simp_all
  simp [Machine.namesSlot, hs, h12, h17]

/-- Table 10-2: the results of these words alone have no fixed distance. -/
theorem variable_major_of_latency_none {w : Word} {width : Nat} (h : latency w width = none) :
    majorOf w = 0x12 ∨ majorOf w = 0x17 ∨ 0x20 ≤ majorOf w := by
  unfold latency at h
  dsimp only at h
  split at h <;> grind

theorem FixedWord.latency {i : Instr} (h : FixedWord i) (width : Nat) : latency (encode i) width ≠ none := by
  intro hn
  obtain ⟨-, -, h12, h17⟩ := fixedMajor_format _ (fixedMajor_lt h) h
  have := fixedMajor_lt h
  have := variable_major_of_latency_none hn
  omega

/-! ### Operands at issue -/

/-- The context with its sources read in another state. -/
def Ctx.withRs (x : Ctx) (t : State) : Ctx := { x with rs := t }
section WithRs
variable (x : Ctx) (t : State)
@[simp] theorem Ctx.withRs_rs : (x.withRs t).rs = t := rfl
@[simp] theorem Ctx.withRs_o : (x.withRs t).o = x.o := rfl
@[simp] theorem Ctx.withRs_h : (x.withRs t).h = x.h := rfl
@[simp] theorem Ctx.withRs_src3 : (x.withRs t).src3 = x.src3 := rfl
@[simp] theorem Ctx.withRs_active : (x.withRs t).active = x.active := rfl
@[simp] theorem Ctx.withRs_lk : (x.withRs t).lk = x.lk := rfl
@[simp] theorem Ctx.withRs_opLane : (x.withRs t).opLane = x.opLane := rfl
@[simp] theorem Ctx.withRs_val : (x.withRs t).val = x.val := rfl
@[simp] theorem Ctx.withRs_immPat : (x.withRs t).immPat = x.immPat := rfl
@[simp] theorem Ctx.withRs_put : (x.withRs t).put = x.put := rfl
@[simp] theorem Ctx.withRs_putInt : (x.withRs t).putInt = x.putInt := rfl
end WithRs

section Operands
variable {x : Ctx} {t : State}
theorem SameReads.vpair {a b : State} (h : SameReads a b) (k n : Nat) : Machine.vpair a k n = Machine.vpair b k n := by
  unfold Machine.vpair; rw [h.vreg, h.vreg]
theorem SameReads.pat (h : SameReads t x.rs) (k r : Nat) : (x.withRs t).pat k r = x.pat k r := by
  simp only [Ctx.pat, Ctx.withRs_rs, Ctx.withRs_o, h.vreg, h.vpair]
theorem SameReads.n32 (h : SameReads t x.rs) (k r : Nat) : (x.withRs t).n32 k r = x.n32 k r := by
  simp only [Ctx.n32, Ctx.withRs_rs, h.vreg]
theorem SameReads.n64 (h : SameReads t x.rs) (k r : Nat) : (x.withRs t).n64 k r = x.n64 k r := by
  simp only [Ctx.n64, Ctx.withRs_rs, h.vpair]
end Operands

/-- What `r` reads of the state are operands only, so that it gives the same in the state at issue and past it (R55). -/
def ReadsOperands {α : Type} (r : Ctx → Nat → α) : Prop :=
  ∀ (x : Ctx) (t : State) (k : Nat), SameReads t x.rs → r (x.withRs t) k = r x k

theorem readsOperands_val_pat (r : Nat) : ReadsOperands fun x k => x.val (x.pat k r) := fun x t k h => by
  simp only [Ctx.withRs_val, h.pat]
theorem readsOperands_n32 (r : Nat) : ReadsOperands fun x k => x.n32 k r := fun _ _ k h => h.n32 k r
theorem readsOperands_n64 (r : Nat) : ReadsOperands fun x k => x.n64 k r := fun _ _ k h => h.n64 k r

/-! ### Words that deliver a result to each executing lane -/

theorem fpTrap_zero (f : Word) : fpTrap f 0 = none := by simp [fpTrap]

theorem issues_active {i : Instr} {s : State} {c : Cur} {g : Group} (h : issues i s c g = true) : (atIssue i c g s).active ≠ 0 := by
  simp only [issues, Bool.and_eq_true, decide_eq_true_eq] at h
  obtain ⟨⟨⟨-, hact⟩, -⟩, -⟩ := h
  exact hact

/-- A word of a fixed latency whose body hands each executing lane `l` the result `f x l`, which no enable traps. -/
theorem delivers_of_body {i : Instr} {ok : Ctx → Nat → Prop} {body : Ctx → State → State} {f : Ctx → Nat → LaneRes} (hfix : FixedWord i)
    (hexec : ∀ s, exec i s = runWord i body s)
    (hbody : ∀ x t, x.go ≠ 0 → body x t = (lanesOf x.go).foldl (fun u l => x.deliver u l (f x l)) t)
    (hops : ReadsOperands f) (hreg : ∀ x l, ∀ r ∈ (f x l).regs, r.1 < 128) (hok : ∀ x l, ok x l → untrapped f x l) :
    Delivers i ok f := by
  intro s c g hw h hl
  have hf : f (issuedCtx i c g s) = f (atIssue i c g s) := funext fun k => hops (atIssue i c g s) _ k (sameReads_issued i c g s)
  rw [hexec]
  refine runWord_delivers h hw (fun t => ?_) (fun l _ => hreg _ l) (fun l ha => hok _ l (hl l ha)) hfix.namesSlot (hfix.latency _)
  rw [hbody _ _ (issues_active h), hf]
  rfl

/-- A result with no event meets no enable. -/
theorem untrapped_of_no_event {f : Ctx → Nat → LaneRes} (hev : ∀ x l, (f x l).ev = 0) (x : Ctx) (l : Nat) : untrapped f x l := by
  rw [untrapped, hev]; exact fpTrap_zero _

/-- A word whose executions each compute `r` from the operands of one lane (R25, R55). -/
theorem perLane_delivers {i : Instr} {ok : Ctx → Nat → Prop} {r : Ctx → Nat → LaneRes} (hfix : FixedWord i)
    (hexec : ∀ s, exec i s = runWord i (fun x t => x.perLane t (r x)) s) (hops : ReadsOperands r)
    (hreg : ∀ x k, ∀ w ∈ (r x k).regs, w.1 < 128) (hok : ∀ x l, ok x l → untrapped (fun x l => r x (x.opLane l)) x l) :
    Delivers i ok fun x l => r x (x.opLane l) :=
  delivers_of_body hfix hexec (fun x t hgo => perLane_eq x t (r x) hgo) (fun x t l h => hops x t (x.opLane l) h)
    (fun x l => hreg x (x.opLane l)) hok

/-- A word that raises no event. -/
theorem perLane_delivers_always {i : Instr} {r : Ctx → Nat → LaneRes} (hfix : FixedWord i)
    (hexec : ∀ s, exec i s = runWord i (fun x t => x.perLane t (r x)) s) (hops : ReadsOperands r)
    (hreg : ∀ x k, ∀ w ∈ (r x k).regs, w.1 < 128) (hev : ∀ x k, (r x k).ev = 0) :
    Delivers i always fun x l => r x (x.opLane l) :=
  perLane_delivers hfix hexec hops hreg fun x l _ => untrapped_of_no_event (fun x l => hev x (x.opLane l)) x l

/-- A lane word that raises no event (R235). -/
theorem perWriter_delivers_always {i : Instr} {r : Ctx → Nat → LaneRes} (hfix : FixedWord i)
    (hexec : ∀ s, exec i s = runWord i (fun x t => x.perWriter t (r x)) s) (hops : ReadsOperands r)
    (hreg : ∀ x k, ∀ w ∈ (r x k).regs, w.1 < 128) (hev : ∀ x k, (r x k).ev = 0) :
    Delivers i always r :=
  delivers_of_body hfix hexec (fun _ _ _ => rfl) hops hreg fun x l _ => untrapped_of_no_event hev x l

/-! ### Registers that a result writes -/

theorem singleWrite_lt {d : Nat} (v : Word) (hd : d < 64) : ∀ w ∈ [(d, v)], w.1 < 128 := by
  simp only [List.mem_singleton, forall_eq]; omega
theorem pairWrites_lt {d : Nat} (v : DWord) (hd : d < 64) : ∀ w ∈ pairWrites d v, w.1 < 128 := by
  simp only [pairWrites, List.mem_cons, List.not_mem_nil, or_false, forall_eq_or_imp, forall_eq]; omega
theorem put_regs_lt (x : Ctx) {d : Nat} (p : Nat) (hd : d < 64) : ∀ w ∈ (x.put d p).regs, w.1 < 128 := by
  unfold Ctx.put
  split
  · exact pairWrites_lt _ hd
  · exact singleWrite_lt _ hd
@[simp] theorem put_ev (x : Ctx) (d p : Nat) : (x.put d p).ev = 0 := by unfold Ctx.put; split <;> rfl
@[simp] theorem putInt_ev (x : Ctx) (d : Nat) (v : Int) : (x.putInt d v).ev = 0 := put_ev _ _ _

end Sys2Proof.Machine

/-! Shifts, rotation, bit fields, multiply-add and address addition (R238, R239, Table 12-4). -/
namespace Sys2Proof.Machine

/-! ### Shifts, rotation and bit fields -/

/-- A register-form word of shl to bfi (R238). -/
theorem shiftBody_delivers {i : Instr} {d a b : Nat} (f : Nat) (hfix : FixedWord i) (hd : d < 64)
    (hexec : ∀ s, exec i s = runWord i (shiftBody f d a b) s) :
    Delivers i always fun x l => x.put d (shiftFn f (itypeBits x.o) (itypeSigned x.o) (x.pat (x.opLane l) a) (x.pat (x.opLane l) b)
      (x.pat (x.opLane l) d)) :=
  perLane_delivers_always (r := fun x k => x.put d (shiftFn f (itypeBits x.o) (itypeSigned x.o) (x.pat k a) (x.pat k b) (x.pat k d)))
    hfix hexec (fun x t k h => by simp only [Ctx.withRs_put, Ctx.withRs_o, h.pat]) (fun x _ => put_regs_lt x _ hd) (fun _ _ => put_ev _ _ _)

/-- An immediate-form word of shl to bfi (R45, R238). -/
theorem shiftImmBody_delivers {i : Instr} {d : Nat} {imm : BitVec 9} (f : Nat) (hfix : FixedWord i) (hd : d < 64)
    (hexec : ∀ s, exec i s = runWord i (shiftImmBody f d imm) s) :
    Delivers i always fun x l => x.put d (shiftFn f (itypeBits x.o) (itypeSigned x.o) (x.pat (x.opLane l) d) (x.immPat imm)
      (x.pat (x.opLane l) d)) :=
  perLane_delivers_always (r := fun x k => x.put d (shiftFn f (itypeBits x.o) (itypeSigned x.o) (x.pat k d) (x.immPat imm) (x.pat k d)))
    hfix hexec (fun x t k h => by simp only [Ctx.withRs_put, Ctx.withRs_o, Ctx.withRs_immPat, h.pat]) (fun x _ => put_regs_lt x _ hd)
    (fun _ _ => put_ev _ _ _)

/-- Table 12-4, sar: the division of the signed pattern, rounded down. -/
theorem shiftFn_sar (w : Nat) (sgn : Bool) (a n t : Nat) :
    shiftFn 2 w sgn a n t = wrapNat (sextInt a w / (2 ^ min n w : Int)) w := by simp [shiftFn]

/-! ### Address addition and multiply-add -/

/-- lea (R239), whatever its index is. -/
theorem lea_delivers {i : Instr} {d a : Nat} {idx : Ctx → Nat → Int} (hfix : FixedWord i) (hd : d < 64) (hidx : ReadsOperands idx)
    (hexec : ∀ s, exec i s = runWord i (fun x t => x.perLane t fun k => leaRes d (vpair x.rs k a) (idx x k)) s) :
    Delivers i always fun x l => leaRes d (vpair x.rs (x.opLane l) a) (idx x (x.opLane l)) :=
  perLane_delivers_always (r := fun x k => leaRes d (vpair x.rs k a) (idx x k)) hfix hexec
    (fun x t k h => by simp only [Ctx.withRs_rs, h.vpair, hidx x t k h]) (fun _ _ => pairWrites_lt _ hd) (fun _ _ => rfl)

theorem imadRes_eq (x : Ctx) (d k : Nat) (a b : Int) : x.imadRes d k a b = x.putInt d (a * b + x.val (x.pat k (x.src3 d))) := rfl

/-- imad (R238), whatever its factors are. -/
theorem imad_delivers {i : Instr} {d : Nat} {u v : Ctx → Nat → Int} (hfix : FixedWord i) (hd : d < 64) (hu : ReadsOperands u)
    (hv : ReadsOperands v)
    (hexec : ∀ s, exec i s = runWord i (fun x t => x.perLane t fun k => x.imadRes d k (u x k) (v x k)) s) :
    Delivers i always fun x l => x.imadRes d (x.opLane l) (u x (x.opLane l)) (v x (x.opLane l)) :=
  perLane_delivers_always (r := fun x k => x.imadRes d k (u x k) (v x k)) hfix hexec
    (fun x t k h => by
      simp only [imadRes_eq, Ctx.withRs_putInt, Ctx.withRs_val, Ctx.withRs_src3, h.pat, hu x t k h, hv x t k h])
    (fun x _ => put_regs_lt x _ hd) (fun _ _ => putInt_ev _ _ _)

/-! ### Integers and their patterns -/

theorem sextInt_eq_toInt (p m : Nat) : sextInt p m = (BitVec.ofNat m p).toInt := by
  rw [sextInt, BitVec.toInt_eq_toNat_cond, BitVec.toNat_ofNat]
  rcases m with _ | m
  · simp [Nat.mod_one]
  · have h : p % 2 ^ (m + 1) < 2 ^ m ↔ 2 * (p % 2 ^ (m + 1)) < 2 ^ (m + 1) := by rw [pow_succ 2 m]; omega
    simp only [Nat.add_sub_cancel, h]

theorem wrapNat_eq_toNat (z : Int) (w : Nat) : wrapNat z w = (BitVec.ofInt w z).toNat := by
  rw [BitVec.toNat_ofInt]; rfl

/-- A pattern of `m` bits, sign-extended to `w` bits. -/
theorem testBit_wrapNat_sextInt (p m w i : Nat) (hi : i < w) :
    (wrapNat (sextInt p m) w).testBit i = if i < m then p.testBit i else decide (0 < m) && p.testBit (m - 1) := by
  rw [wrapNat_eq_toNat, sextInt_eq_toInt, ← BitVec.signExtend, BitVec.testBit_toNat, BitVec.getLsbD_signExtend]
  by_cases hm : i < m
  · simp [hi, hm, -BitVec.getLsbD_eq_getElem, BitVec.getLsbD_ofNat]
  · rcases m with _ | m
    · simp [BitVec.of_length_zero]
    · simp [hi, hm, BitVec.msb_eq_getLsbD_last, -BitVec.getLsbD_eq_getElem, BitVec.getLsbD_ofNat]

/-- Table 12-4, bfe: bits `pos` to `pos + m − 1` of the operand, extended by the type's sign. -/
theorem testBit_bfe (w : Nat) (sgn : Bool) (a n c i : Nat) (hi : i < w) :
    (shiftFn 4 w sgn a n c).testBit i =
      if i < min (n / 256 % 256) w then a.testBit (n % 256 + i)
      else sgn && decide (min (n / 256 % 256) w ≠ 0) && a.testBit (n % 256 + min (n / 256 % 256) w - 1) := by
  simp only [shiftFn]
  generalize n % 256 = pos
  generalize min (n / 256 % 256) w = m
  have hfield (j : Nat) : (a / 2 ^ pos % 2 ^ m).testBit j = (decide (j < m) && a.testBit (pos + j)) := by
    rw [Nat.testBit_mod_two_pow, Nat.testBit_div_two_pow, Nat.add_comm]
  rcases Nat.eq_zero_or_pos m with rfl | hm
  · simp
  rw [if_neg hm.ne']
  cases sgn with
  | false => rw [if_neg Bool.false_ne_true, hfield]; by_cases him : i < m <;> simp [him]
  | true =>
    have hlast : pos + (m - 1) = pos + m - 1 := by omega
    rw [if_pos rfl, testBit_wrapNat_sextInt _ _ _ _ hi, hfield, hfield, hlast]
    by_cases him : i < m <;> simp [him, hm, hm.ne']

/-- A pattern with `m` bits from `pos` on replaced by the low bits of another. -/
theorem testBit_insertField (t a pos m i : Nat) :
    (t % 2 ^ pos + a % 2 ^ m * 2 ^ pos + t / 2 ^ (pos + m) * 2 ^ (pos + m)).testBit i =
      if pos ≤ i ∧ i < pos + m then a.testBit (i - pos) else t.testBit i := by
  have hlow : t % 2 ^ pos < 2 ^ pos := Nat.mod_lt _ (Nat.two_pow_pos _)
  have hfield : 2 ^ pos * (a % 2 ^ m) + t % 2 ^ pos < 2 ^ (pos + m) := by
    rw [pow_add]
    calc 2 ^ pos * (a % 2 ^ m) + t % 2 ^ pos < 2 ^ pos * (a % 2 ^ m + 1) := by rw [mul_add, mul_one]; omega
      _ ≤ 2 ^ pos * 2 ^ m := Nat.mul_le_mul_left _ (Nat.mod_lt _ (Nat.two_pow_pos _))
  rw [show t % 2 ^ pos + a % 2 ^ m * 2 ^ pos + t / 2 ^ (pos + m) * 2 ^ (pos + m) =
      2 ^ (pos + m) * (t / 2 ^ (pos + m)) + (2 ^ pos * (a % 2 ^ m) + t % 2 ^ pos) by ring,
    Nat.testBit_two_pow_mul_add _ hfield, Nat.testBit_two_pow_mul_add _ hlow, Nat.testBit_div_two_pow,
    Nat.testBit_mod_two_pow, Nat.testBit_mod_two_pow]
  by_cases h1 : i < pos
  · simp [h1, show i < pos + m by omega, show ¬ pos ≤ i by omega]
  · by_cases h2 : i < pos + m
    · simp [h1, h2, show pos ≤ i by omega, show i - pos < m by omega]
    · simp [h2, show i - (pos + m) + (pos + m) = i by omega]

/-- Table 12-4, bfi: bits `pos` to `min(pos + len, w) − 1` of vD replaced by the low bits of the operand. -/
theorem testBit_bfi (w : Nat) (sgn : Bool) (a n c i : Nat) (hi : i < w) :
    (shiftFn 5 w sgn a n c).testBit i =
      if n % 256 ≤ i ∧ i < min (n % 256 + n / 256 % 256) w then a.testBit (i - n % 256) else c.testBit i := by
  simp only [shiftFn]
  generalize n % 256 = pos
  generalize n / 256 % 256 = len
  by_cases hout : w ≤ pos ∨ len = 0
  · rw [if_pos hout, if_neg (by omega)]
  · rw [if_neg hout, testBit_insertField, Nat.add_sub_cancel' (by omega)]

/-- Settles O3: each word is an execution per lane of a fixed latency, so that `perLane_delivers_always` gives its outcome; the two
bit-field words are then read bit by bit. -/
theorem shiftFieldAndMultiplyAddDeliver : Obligations.ShiftFieldAndMultiplyAddDeliver := by
  refine ⟨fun q d a b => shiftBody_delivers 0 (fixedWord_V 0x0C rfl rfl (by decide)) d.isLt fun _ => rfl,
    fun q d a b => shiftBody_delivers 1 (fixedWord_V 0x0C rfl rfl (by decide)) d.isLt fun _ => rfl,
    fun q d a b => ?sar,
    fun q d a b => shiftBody_delivers 3 (fixedWord_V 0x0C rfl rfl (by decide)) d.isLt fun _ => rfl,
    fun q d a b => shiftBody_delivers 4 (fixedWord_V 0x0C rfl rfl (by decide)) d.isLt fun _ => rfl,
    fun q d a b => shiftBody_delivers 5 (fixedWord_V 0x0C rfl rfl (by decide)) d.isLt fun _ => rfl,
    fun q d a b => lea_delivers (idx := fun x k => x.val (x.pat k b.toNat)) (fixedWord_V 0x0C rfl rfl (by decide)) d.isLt
      (readsOperands_val_pat b.toNat) fun _ => rfl,
    fun q d a b => imad_delivers (u := fun x k => x.val (x.pat k a.toNat)) (v := fun x k => x.val (x.pat k b.toNat))
      (fixedWord_V 0x0C rfl rfl (by decide)) d.isLt (readsOperands_val_pat a.toNat) (readsOperands_val_pat b.toNat) fun _ => rfl,
    fun q d imm => shiftImmBody_delivers 0 (fixedWord_I 0x0D rfl rfl (by decide)) d.isLt fun _ => rfl,
    fun q d imm => shiftImmBody_delivers 1 (fixedWord_I 0x0D rfl rfl (by decide)) d.isLt fun _ => rfl,
    fun q d imm => ?sarImm,
    fun q d imm => shiftImmBody_delivers 3 (fixedWord_I 0x0D rfl rfl (by decide)) d.isLt fun _ => rfl,
    fun q d imm => shiftImmBody_delivers 4 (fixedWord_I 0x0D rfl rfl (by decide)) d.isLt fun _ => rfl,
    fun q d imm => shiftImmBody_delivers 5 (fixedWord_I 0x0D rfl rfl (by decide)) d.isLt fun _ => rfl,
    fun q d imm => lea_delivers (idx := fun x _ => immI x.h imm) (fixedWord_I 0x0D rfl rfl (by decide)) d.isLt
      (fun _ _ _ _ => rfl) fun _ => rfl,
    fun q d imm => imad_delivers (u := fun x k => x.val (x.pat k d.toNat)) (v := fun x _ => x.val (x.immPat imm))
      (fixedWord_I 0x0D rfl rfl (by decide)) d.isLt (readsOperands_val_pat d.toNat) (fun _ _ _ _ => rfl) fun _ => rfl,
    fun w sgn a n c i _ _ _ hi => ⟨testBit_bfe w sgn a n c i hi, testBit_bfi w sgn a n c i hi⟩⟩
  case sar =>
    simpa only [shiftFn_sar] using shiftBody_delivers 2 (i := .sar q d a b) (fixedWord_V 0x0C rfl rfl (by decide)) d.isLt fun _ => rfl
  case sarImm =>
    simpa only [shiftFn_sar] using shiftImmBody_delivers 2 (i := .sarImm q d imm) (fixedWord_I 0x0D rfl rfl (by decide)) d.isLt fun _ => rfl

end Sys2Proof.Machine

/-! Comparisons and predicate words (R240, R252, R254, R262 to R264). -/
namespace Sys2Proof.Machine

/-! ### Comparisons and predicate words -/

/-- A word whose executions each write one predicate and raise no event. -/
theorem predWord_delivers {i : Instr} {d : Nat} {v : Ctx → Nat → Bool} (hfix : FixedWord i) (hv : ReadsOperands v)
    (hexec : ∀ s, exec i s = runWord i (fun x t => x.perLane t fun k => ⟨[], [(predNo d x.o.pxD, v x k)], 0⟩) s) :
    Delivers i always fun x l => ⟨[], [(predNo d x.o.pxD, v x (x.opLane l))], 0⟩ :=
  perLane_delivers_always (r := fun x k => ⟨[], [(predNo d x.o.pxD, v x k)], 0⟩) hfix hexec
    (fun x t k h => by simp only [Ctx.withRs_o, hv x t k h]) (fun _ _ _ h => absurd h List.not_mem_nil) (fun _ _ => rfl)

/-- A predicate word of two sources (R262). -/
theorem predBody_delivers {i : Instr} {f : Bool → Bool → Bool} {d a b : Nat} (hfix : FixedWord i)
    (hexec : ∀ s, exec i s = runWord i (predBody f d a b) s) :
    Delivers i always fun x l => ⟨[], [(predNo d x.o.pxD,
      f (preg x.rs (x.opLane l) (predNo a x.o.pxA)) (preg x.rs (x.opLane l) (predNo b x.o.pxB)))], 0⟩ :=
  predWord_delivers (v := fun x k => f (preg x.rs k (predNo a x.o.pxA)) (preg x.rs k (predNo b x.o.pxB))) hfix
    (fun x t k h => by simp only [Ctx.withRs_rs, Ctx.withRs_o, h.preg]) hexec

/-- A floating-point comparison: its condition to a predicate, where its events meet no enable (R252, R254). -/
theorem cmpF_delivers {i : Instr} {fmt : Fmt} {c : Nat} {no : Ctx → Nat} {u v : Ctx → Nat → Nat} (hfix : FixedWord i)
    (hno : ∀ x t, no (Ctx.withRs x t) = no x) (hu : ReadsOperands u) (hv : ReadsOperands v)
    (hexec : ∀ s, exec i s = runWord i (fun x t => x.perLane t fun k =>
      ⟨[], [(no x, (cmpF fmt c (u x k) (v x k)).1)], (cmpF fmt c (u x k) (v x k)).2⟩) s) :
    let f := fun (x : Ctx) (l : Nat) =>
      (⟨[], [(no x, (cmpF fmt c (u x (x.opLane l)) (v x (x.opLane l))).1)], (cmpF fmt c (u x (x.opLane l)) (v x (x.opLane l))).2⟩ : LaneRes)
    Delivers i (untrapped f) f :=
  perLane_delivers (r := fun x k => ⟨[], [(no x, (cmpF fmt c (u x k) (v x k)).1)], (cmpF fmt c (u x k) (v x k)).2⟩) hfix hexec
    (fun x t k h => by simp only [hno, hu x t k h, hv x t k h]) (fun _ _ _ h => absurd h List.not_mem_nil) (fun _ _ h => h)

/-! ### Predicates moved to and from a register (R263) -/

theorem upTo_eq_range' (lo n : Nat) : upTo lo n = List.range' lo n := by
  induction n generalizing lo with
  | zero => rfl
  | succ n ih => rw [upTo, ih, List.range'_succ]

/-- A word built bit by bit in a fold is the sum of its bits. -/
theorem foldl_bits_eq_sum (f : Nat → Bool) (ls : List Nat) (v : Nat) :
    ls.foldl (fun n i => if f i then n + 2 ^ i else n) v = v + (ls.map fun i => if f i then 2 ^ i else 0).sum := by
  induction ls generalizing v with
  | nil => rfl
  | cons i ls ih => rw [List.foldl_cons, ih, List.map_cons, List.sum_cons]; split <;> omega

theorem foldl_bits_eq_maskWord (f : Nat → Bool) :
    BitVec.ofNat 32 ((upTo 0 32).foldl (fun n i => if f i then n + 2 ^ i else n) 0) = maskWord f := by
  rw [foldl_bits_eq_sum, Nat.zero_add, upTo_eq_range', ← List.range_eq_range', maskWord]

theorem pmovToV_delivers (q : Qual) (d : BitVec 6) (k : BitVec 2) : Delivers (.pmovToV q d k) always fun x l =>
    ⟨[(d.toNat, maskWord fun i => preg x.rs (x.opLane l) (32 * k.toNat + i))], [], 0⟩ :=
  have hd := d.isLt
  have hk := k.isLt
  have hq := Laws.packQ_le q
  perLane_delivers_always (r := fun x l => ⟨[(d.toNat, maskWord fun i => preg x.rs l (32 * k.toNat + i))], [], 0⟩)
    (fixedWord_of_encodeNat 0x18 rfl rfl (by omega))
    (fun s => by simp only [← foldl_bits_eq_maskWord]; rfl)
    (fun x t l h => by simp only [Ctx.withRs_rs, h.preg])
    (fun _ _ => singleWrite_lt _ d.isLt) (fun _ _ => rfl)

theorem pmovToP_delivers (q : Qual) (a : BitVec 6) (k : BitVec 2) : Delivers (.pmovToP q a k) always fun x l =>
    ⟨[], (upTo 0 32).map fun i => (32 * k.toNat + i, (vreg x.rs (x.opLane l) a.toNat).getLsbD i), 0⟩ :=
  have ha := a.isLt
  have hk := k.isLt
  have hq := Laws.packQ_le q
  perLane_delivers_always (r := fun x l => ⟨[], (upTo 0 32).map fun i => (32 * k.toNat + i, (vreg x.rs l a.toNat).getLsbD i), 0⟩)
    (fixedWord_of_encodeNat 0x18 rfl rfl (by omega)) (fun _ => rfl)
    (fun x t l h => by simp only [Ctx.withRs_rs, h.vreg]) (fun _ _ _ h => absurd h List.not_mem_nil) (fun _ _ => rfl)

/-! ### Predicates counted over the executing set (R264) -/

theorem SameReads.predLanes {x : Ctx} {t : State} (h : SameReads t x.rs) (a : Nat) : predLanes (x.withRs t) a = predLanes x a := by
  simp only [Machine.predLanes, Ctx.withRs_rs, Ctx.withRs_o, Ctx.withRs_active, Ctx.withRs_lk, h.preg]

section PredLanes
variable (x : Ctx) (a : Nat)
theorem length_predLanes :
    (predLanes x a).length = (lanesOf x.active).countP fun l => preg x.rs (x.lk l) (predNo a x.o.pxA) :=
  (List.countP_eq_length_filter ..).symm
theorem length_predLanes_bne_zero :
    ((predLanes x a).length != 0) = (lanesOf x.active).any fun l => preg x.rs (x.lk l) (predNo a x.o.pxA) := by
  rw [length_predLanes, Bool.eq_iff_iff, bne_iff_ne, Nat.ne_zero_iff_zero_lt, List.countP_pos_iff, List.any_eq_true]
theorem length_predLanes_beq :
    ((predLanes x a).length == (lanesOf x.active).length) = (lanesOf x.active).all fun l => preg x.rs (x.lk l) (predNo a x.o.pxA) := by
  rw [length_predLanes, Bool.eq_iff_iff, beq_iff_eq, List.countP_eq_length, List.all_eq_true]
end PredLanes

/-- A lane word that writes one predicate, the same in every executing lane (R264). -/
theorem groupPred_delivers {i : Instr} {d : Nat} {v : Ctx → Bool} (hfix : FixedWord i) (hv : ReadsOperands fun x _ => v x)
    (hexec : ∀ s, exec i s = runWord i (fun x t => x.perWriter t fun _ => ⟨[], [(predNo d x.o.pxD, v x)], 0⟩) s) :
    Delivers i always fun x _ => ⟨[], [(predNo d x.o.pxD, v x)], 0⟩ :=
  perWriter_delivers_always (r := fun x _ => ⟨[], [(predNo d x.o.pxD, v x)], 0⟩) hfix hexec
    (fun x t k h => by simp only [Ctx.withRs_o, hv x t k h]) (fun _ _ _ h => absurd h List.not_mem_nil) (fun _ _ => rfl)

theorem pcnt_delivers (q : Qual) (d a : BitVec 6) : Delivers (.pcnt q d a) always fun x _ =>
    ⟨[(d.toNat, BitVec.ofNat 32 ((lanesOf x.active).countP fun l => preg x.rs (x.lk l) (predNo a.toNat x.o.pxA)))], [], 0⟩ := by
  simp only [← length_predLanes]
  exact perWriter_delivers_always (r := fun x _ => ⟨[(d.toNat, BitVec.ofNat 32 (predLanes x a.toNat).length)], [], 0⟩)
    (fixedWord_VA 0x18 rfl rfl (by decide)) (fun _ => rfl) (fun x t k h => by simp only [h.predLanes]) (fun _ _ => singleWrite_lt _ d.isLt)
    (fun _ _ => rfl)

theorem pany_delivers (q : Qual) (d a : BitVec 6) : Delivers (.pany q d a) always fun x _ =>
    ⟨[], [(predNo d.toNat x.o.pxD, (lanesOf x.active).any fun l => preg x.rs (x.lk l) (predNo a.toNat x.o.pxA))], 0⟩ := by
  simp only [← length_predLanes_bne_zero]
  exact groupPred_delivers (v := fun x => (predLanes x a.toNat).length != 0) (fixedWord_VA 0x18 rfl rfl (by decide))
    (fun x t k h => by simp only [h.predLanes]) fun _ => rfl

theorem pall_delivers (q : Qual) (d a : BitVec 6) : Delivers (.pall q d a) always fun x _ =>
    ⟨[], [(predNo d.toNat x.o.pxD, (lanesOf x.active).all fun l => preg x.rs (x.lk l) (predNo a.toNat x.o.pxA))], 0⟩ := by
  simp only [← length_predLanes_beq]
  exact groupPred_delivers (v := fun x => (predLanes x a.toNat).length == (lanesOf x.active).length)
    (fixedWord_VA 0x18 rfl rfl (by decide)) (fun x t k h => by simp only [h.predLanes, Ctx.withRs_active]) fun _ => rfl

/-! ### p0 (R29) -/

theorem setBit128_zero (p : BitVec 128) (b : Bool) : setBit128 p 0 b = p := rfl
theorem preg_zero (s : State) (k : Nat) : preg s k 0 = true := rfl
theorem preg_setPreg_zero (s : State) (k n : Nat) (b : Bool) : preg (setPreg s k 0 b) k n = preg s k n := by
  have hp : (laneAt (setPreg s k 0 b) k).preds = (laneAt s k).preds :=
    laneAt_modLane_field (·.preds) s k k _ fun y => setBit128_zero y.preds b
  rw [preg, hp, preg]

/-- Settles O4: each word is an execution per lane, or a lane word over the executing set, of a fixed latency; what it writes to p0 is
discarded. -/
theorem comparisonsAndPredicateWordsDeliver : Obligations.ComparisonsAndPredicateWordsDeliver := by
  refine ⟨fun q d a b c => ?icmp, fun q d a b c => ?fcmp, fun q c p a b => ?dcmp,
    fun q d a b => predBody_delivers (f := and) (fixedWord_V 0x18 rfl rfl (by decide)) fun _ => rfl,
    fun q d a b => predBody_delivers (f := or) (fixedWord_V 0x18 rfl rfl (by decide)) fun _ => rfl,
    fun q d a b => predBody_delivers (f := xor) (fixedWord_V 0x18 rfl rfl (by decide)) fun _ => rfl,
    fun q d a => ?pnot, pmovToV_delivers, pmovToP_delivers, pcnt_delivers, pany_delivers, pall_delivers,
    fun s k n b => ⟨preg_zero s k, preg_setPreg_zero s k n b⟩⟩
  case icmp =>
    exact predWord_delivers (v := fun x k => intCond c.toNat (x.val (x.pat k a.toNat)) (x.val (x.pat k b.toNat)))
      (fixedWord_cmp 0x0E rfl rfl rfl) (fun x t k h => by simp only [Ctx.withRs_val, h.pat]) fun _ => rfl
  case fcmp =>
    exact cmpF_delivers (no := fun x => predNo d.toNat x.o.pxD) (u := fun x k => x.n32 k a.toNat) (v := fun x k => x.n32 k b.toNat)
      (fixedWord_cmp 0x13 rfl rfl rfl) (fun _ _ => rfl) (readsOperands_n32 a.toNat) (readsOperands_n32 b.toNat) fun _ => rfl
  case dcmp =>
    exact cmpF_delivers (no := fun _ => p.toNat) (u := fun x k => x.n64 k a.toNat) (v := fun x k => x.n64 k b.toNat)
      (fixedWord_dcmp q c p a b) (fun _ _ => rfl) (readsOperands_n64 a.toNat) (readsOperands_n64 b.toNat) fun _ => rfl
  case pnot =>
    exact predWord_delivers (v := fun x k => !preg x.rs k (predNo a.toNat x.o.pxA)) (fixedWord_VA 0x18 rfl rfl (by decide))
      (fun x t k h => by simp only [Ctx.withRs_rs, Ctx.withRs_o, h.preg]) fun _ => rfl

end Sys2Proof.Machine

/-! Traps, debug and floating-point events (R229, R234, R422, R423). -/
namespace Sys2Proof.Machine

/-! ### A word that passes its checks at issue -/

section AtIssue
variable {i : Instr} {s : State} {c : Cur} {g : Group}

theorem issues_cur (h : issues i s c g = true) : s.cur = some c := by
  simp only [issues, Bool.and_eq_true, decide_eq_true_eq] at h
  obtain ⟨⟨⟨⟨⟨⟨hcur, -⟩, -⟩, -⟩, -⟩, -⟩, -⟩ := h
  exact hcur

/-- The body of a word that passes its checks gets the state in which its results are booked, in the context at issue. -/
theorem runWord_of_issues {body : Ctx → State → State} (h : issues i s c g = true) :
    runWord i body s = .next (finish (issuedCtx i c g s) (body (issuedCtx i c g s) (ready i c g s))) := by
  simp only [runWord, issues_cur h, enter_run h, ready]

/-- A word runs `eff` where its body does the same as `eff` in the state with its results booked. -/
theorem runs_of_body {ok : Ctx → State → Prop} {body eff : Ctx → State → State} (hexec : ∀ s, exec i s = runWord i body s)
    (hbody : ∀ s c g, ok (atIssue i c g s) s → body (issuedCtx i c g s) (ready i c g s) = eff (issuedCtx i c g s) (ready i c g s)) :
    Runs i ok eff := fun s c g h hok => by
  rw [hexec, runWord_of_issues h, hbody s c g hok]

@[simp] theorem pendNew_funcs (x : Ctx) (s : State) : (pendNew x s).funcs = s.funcs := by rw [pendNew_eq]
@[simp] theorem setSlot_funcs (s : State) (gid n tok : Nat) (special : Bool) : (setSlot s gid n tok special).funcs = s.funcs := by
  unfold setSlot
  split
  · rfl
  · exact modGroup_funcs _ _ _
@[simp] theorem booked_funcs (x : Ctx) (s : State) : (booked x s).funcs = s.funcs := by
  unfold booked
  split
  · rw [setSlot_funcs, pendNew_funcs]
  · exact pendNew_funcs x s
@[simp] theorem ready_funcs : (ready i c g s).funcs = s.funcs := by rw [ready, booked_funcs, issued_eq]

/-! ### Words of major 0 (Table 2-7) -/

theorem majorOf_encode_zero {n : Nat} (h : encodeNat i = some n) (hn : n < 2 ^ 26) : majorOf (encode i) = 0 := by
  rw [majorOf_encode h (by omega), Nat.div_eq_of_lt hn]
theorem majorOf_trap (gd : Guard) (imm : BitVec 9) : majorOf (encode (.trap gd imm)) = 0 :=
  have hg := Laws.packG_le gd
  have hi := imm.isLt
  majorOf_encode_zero rfl (by omega)
theorem majorOf_dbg (gd : Guard) (imm : BitVec 9) : majorOf (encode (.dbg gd imm)) = 0 :=
  have hg := Laws.packG_le gd
  have hi := imm.isLt
  majorOf_encode_zero rfl (by omega)

theorem namesSlot_of_major_zero {w : Word} (h : majorOf w = 0) : namesSlot w = none := by
  simp [namesSlot, slotField, formatOf, h]
theorem latency_of_major_zero {w : Word} (h : majorOf w = 0) (width : Nat) : latency w width ≠ none := fun hn => by
  have := variable_major_of_latency_none hn
  omega

/-- A fault of such a word has origin 0 (R44, R421). -/
theorem fi_of_major_zero {x : Ctx} (h : majorOf x.w = 0) (cls sub : Nat) : x.fi cls 0 0 0 sub = ⟨cls * 16, sub, 0, 0, x.u⟩ := by
  rw [Ctx.fi, Ctx.origin, h]
  rfl

/-! ### A word with no effect of its own -/

theorem deliver_nothing (x : Ctx) (s : State) (l : Nat) : x.deliver s l ⟨[], [], 0⟩ = s := by
  simp only [Ctx.deliver, fpTrap_zero]
  rfl

/-- A word whose body changes nothing goes past, as one that delivers nothing to its lanes. -/
theorem runWord_delivers_nothing {body : Ctx → State → State} (hw : s.wf = true) (h : issues i s c g = true)
    (hbody : body (issuedCtx i c g s) (ready i c g s) = ready i c g s) (hmajor : majorOf (encode i) = 0) :
    ∃ t, runWord i body s = .next t ∧ delivers (atIssue i c g s) (fun _ => ⟨[], [], 0⟩) s t := by
  have hidle : runWord i body s = runWord i (fun _ t => t) s := by rw [runWord_of_issues h, runWord_of_issues h, hbody]
  rw [hidle]
  exact runWord_delivers h hw (fun t => (foldl_id _ _ t fun l _ u => deliver_nothing _ u l).symm)
    (fun _ _ _ hr => absurd hr List.not_mem_nil) (fun _ _ => fpTrap_zero _) (namesSlot_of_major_zero hmajor) (latency_of_major_zero hmajor _)

end AtIssue

/-! ### Records of functions -/

theorem funcAt_congr {s t : State} (h : t.funcs = s.funcs) (n : Nat) : funcAt t n = funcAt s n := by rw [funcAt, funcAt, h]
section Functions
variable (s : State) (f : Nat) (up : Func → Func)
@[simp] theorem funcAt_modFunc_self : funcAt (modFunc s f up) f = up (funcAt s f) := by
  simp only [funcAt, modFunc, Tab.get?_put_self, Option.getD_some]
theorem funcAt_modFunc_ne {n : Nat} (h : n ≠ f) : funcAt (modFunc s f up) n = funcAt s n := by
  simp only [funcAt, modFunc, Tab.get?_put_ne _ _ h]
end Functions

/-! ### Debug (R423) -/

theorem bitAt_eq_testBit (n k : Nat) : bitAt n k = n.testBit k := by
  rw [bitAt, Nat.testBit_eq_decide_div_mod_eq, Nat.shiftRight_eq_div_pow]
  rfl
theorem debugOn_eq_testBit (s : State) (f : Nat) : debugOn s f = (funcAt s f).traceMask.testBit 63 := bitAt_eq_testBit _ _
theorem debugOn_congr {s t : State} (h : t.funcs = s.funcs) (f : Nat) : debugOn t f = debugOn s f := by
  rw [debugOn, debugOn, funcAt_congr h]
theorem debugOn_ready (i : Instr) (c : Cur) (g : Group) (s : State) (f : Nat) : debugOn (ready i c g s) f = debugOn s f :=
  debugOn_congr ready_funcs f

/-- A change of a function that spares its event mask leaves debug as it is, for every function. -/
theorem debugOn_modFunc {s : State} {fn : Nat} {up : Func → Func} (hup : (up (funcAt s fn)).traceMask = (funcAt s fn).traceMask) (f : Nat) :
    debugOn (modFunc s fn up) f = debugOn s f := by
  by_cases hf : f = fn
  · subst hf; rw [debugOn, funcAt_modFunc_self, hup, debugOn]
  · rw [debugOn, funcAt_modFunc_ne s fn up hf, debugOn]
theorem debugOn_finalRecord (s : State) (fn slot status info0 info1 f : Nat) :
    debugOn (finalRecord s fn slot status info0 info1) f = debugOn s f := by
  unfold finalRecord pushRecord
  split
  · rw [debugOn_modFunc rfl]
  · rfl

/-- A command with nothing against it at capture starts in its turn (R99). -/
theorem startCmd_of_turn {s : State} {fn slot op : Nat} {c : Command} {name : String} {act : List Byte → State → Out}
    (hc : (funcAt s fn).slots.get? slot = some c) (hop : fAt c.bytes 0 2 = op) (hv : c.verdict = none)
    (ht : cmdTurn (funcAt s fn) slot c = true) :
    startCmd name op fn slot s act = act c.bytes (modFunc s fn fun y => { y with slots := y.slots.put slot { c with started := true } }) := by
  simp [startCmd, hc, hop, hv, ht]

theorem exec_traceSet (fn slot : Nat) (s : State) : exec (.traceSet fn slot) s = startCmd "TRACE_SET" 8 fn slot s fun b t =>
    .next (finalRecord (modFunc t (fnOf fn b 0x28) fun y =>
      { y with traceAddr := fAt b 0x10 8, traceSize := fAt b 0x18 8, traceMask := fAt b 0x20 8 }) fn slot 0) := rfl

/-- Bit 63 of the event mask that TRACE.SET carries enables debug for the function it names (R101, R423). -/
theorem traceSet_sets_debugOn {s : State} {fn slot : Nat} {c : Command} (hc : (funcAt s fn).slots.get? slot = some c)
    (hop : fAt c.bytes 0 2 = 8) (hv : c.verdict = none) (ht : cmdTurn (funcAt s fn) slot c = true) :
    Occurs (.traceSet fn slot) s fun t => debugOn t (fnOf fn c.bytes 0x28) = (fAt c.bytes 0x20 8).testBit 63 := by
  refine ⟨_, (exec_traceSet fn slot s).trans (startCmd_of_turn hc hop hv ht), ?_⟩
  dsimp only
  rw [debugOn_finalRecord, debugOn_eq_testBit, funcAt_modFunc_self]

/-! ### trap and dbg (R422, R423) -/

theorem trap_raises (gd : Guard) (imm : BitVec 9) : Runs (.trap gd imm) anyState fun x t =>
    (lanesOf x.active).foldl (fun u l => x.raise u l ⟨0x150, imm.toNat, 0, 0, x.u⟩) t :=
  runs_of_body (body := fun x t => x.raiseAll t x.go (x.fi 21 0 0 0 imm.toNat)) (fun _ => rfl) fun s c g _ => by
    rw [fi_of_major_zero (majorOf_trap gd imm)]
    rfl

theorem exec_dbg (gd : Guard) (imm : BitVec 9) (s : State) : exec (.dbg gd imm) s =
    runWord (.dbg gd imm) (fun x t => if debugOn t x.g.func then x.raiseAll t x.go (x.fi 22 0 0 0 imm.toNat) else t) s := rfl

theorem dbg_raises_of_debugOn (gd : Guard) (imm : BitVec 9) : Runs (.dbg gd imm) (fun x s => debugOn s x.g.func = true) fun x t =>
    (lanesOf x.active).foldl (fun u l => x.raise u l ⟨0x160, imm.toNat, 0, 0, x.u⟩) t :=
  runs_of_body (exec_dbg gd imm) fun s c g hon => by
    have hready : debugOn (ready (.dbg gd imm) c g s) (issuedCtx (.dbg gd imm) c g s).g.func = true := (debugOn_ready _ c g s _).trans hon
    rw [if_pos hready, fi_of_major_zero (majorOf_dbg gd imm)]
    rfl

theorem dbg_delivers_nothing_of_debugOff (gd : Guard) (imm : BitVec 9) :
    Delivers (.dbg gd imm) (fun x _ => debugOn x.rs x.g.func = false) fun _ _ => ⟨[], [], 0⟩ := fun s c g hw h hoff => by
  -- The executing set is not empty, so the condition on its lanes says that debug is off.
  obtain ⟨l, hl⟩ : ∃ l, has (atIssue (.dbg gd imm) c g s).active l = true := by
    by_contra! hnone
    exact issues_active h (BitVec.eq_of_getLsbD_eq fun l _ => by simpa [has] using hnone l)
  have hready : debugOn (ready (.dbg gd imm) c g s) g.func = false := (debugOn_ready _ c g s _).trans (hoff l hl)
  rw [exec_dbg]
  exact runWord_delivers_nothing hw h (if_neg (ne_true_of_eq_false hready)) (majorOf_dbg gd imm)

/-! ### Floating-point events (R229, R234) -/

section Events
variable {x : Ctx} {s : State} {l : Nat} {r : LaneRes}

/-- A lane with an enabled event takes FPX and nothing of the result. -/
theorem deliver_of_trap {e : Nat} (h : fpTrap (laneAt s (x.lk l)).fpstat r.ev = some e) :
    x.deliver s l r = x.raise s l (x.fi 19 e 0 r.ev) := by
  rw [Ctx.deliver, h]

theorem fpTrap_eq_none_of_no_enable {f : Word} {ev : Nat} (h : fld f 8 5 &&& ev = 0) : fpTrap f ev = none := by
  simp only [fpTrap, h, if_true]

/-- A lane with no enabled event takes the predicates and the sticky flags. -/
theorem get?_deliver_of_no_enable {y : Lane} (h : fld (laneAt s (x.lk l)).fpstat 8 5 &&& r.ev = 0) (hy : s.lanes.get? (x.lk l) = some y) :
    (x.deliver s l r).lanes.get? (x.lk l) =
      some { y with preds := lastPreds r.preds y.preds, fpstat := y.fpstat ||| BitVec.ofNat 32 (r.ev % 32) } := by
  obtain ⟨-, htook, -⟩ := deliver_ok x s l r (fpTrap_eq_none_of_no_enable h)
  rw [htook, hy]
  rfl

end Events

/-- Settles O31: `trap` and `dbg` are run in the state at issue, where the functions and so debug are as before the word; a delivery
follows the trap enables of its lane. -/
theorem trapDebugAndEventsRaise : Obligations.TrapDebugAndEventsRaise :=
  ⟨trap_raises, dbg_raises_of_debugOn, dbg_delivers_nothing_of_debugOff, debugOn_eq_testBit,
    fun _ _ _ _ hc hop hv ht => traceSet_sets_debugOn hc hop hv ht,
    fun _ _ _ _ => ⟨fun _ => deliver_of_trap, fun hno _ => get?_deliver_of_no_enable hno⟩⟩

end Sys2Proof.Machine
